-- ==== Sys2Proof/Word.lean ====
section
/-! DEFINITION. The word types of the Skagra package (00_scope.md R4 to R6). -/

namespace Sys2Proof

/-- 8 bits. -/
abbrev Byte := BitVec 8

/-- 32 bits. -/
abbrev Word := BitVec 32

/-- 64 bits. -/
abbrev Dword := BitVec 64

end Sys2Proof
end

