-- ==== Sys2Proof/Machine/Bits.lean ====
section
/-! DEFINITION. Bit fields, sign extension, byte order and list helpers that every other file uses. -/

namespace Sys2Proof

/-- Bits [hi:lo] of a number, both ends included (R5). -/
def bits (w hi lo : Nat) : Nat := w / 2 ^ lo % 2 ^ (hi + 1 - lo)

/-- Bit i of a number. -/
def bit (w i : Nat) : Bool := w / 2 ^ i % 2 == 1

/-- The low n bits of w read as a two's complement number (R127). -/
def sext (n w : Nat) : Int :=
  if 2 ^ (n - 1) ≤ w % 2 ^ n then (w % 2 ^ n : Nat) - (2 ^ n : Nat) else (w % 2 ^ n : Nat)

/-- An exact integer reduced modulo 2^n (R8). -/
def wrap (n : Nat) (x : Int) : Nat := (x % (2 ^ n : Nat)).toNat

/-- A Boolean as one bit. -/
def b2n (b : Bool) : Nat := if b then 1 else 0

/-- The n little-endian bytes of a number (R6). -/
def toBytes : Nat → Nat → List Byte
  | 0, _ => []
  | n + 1, v => BitVec.ofNat 8 v :: toBytes n (v / 256)

/-- The number that little-endian bytes hold (R6). -/
def ofBytes : List Byte → Nat
  | [] => 0
  | b :: bs => b.toNat + 256 * ofBytes bs

/-- The list f 0, …, f (n - 1). -/
def tab {α : Type} (n : Nat) (f : Nat → α) : List α := (List.range n).map f

/-- Replace every entry that passes the test. -/
def upd {α : Type} (p : α → Bool) (f : α → α) (l : List α) : List α :=
  l.map fun x => if p x then f x else x

/-- The members of b that a lacks, after a: the union of two sets held as lists without repeats. -/
def union (a b : List Nat) : List Nat := a ++ (b.filter fun x => !a.contains x)

/-- Every member of a is in b. -/
def subset (a b : List Nat) : Bool := a.all fun x => b.contains x

/-- Some member of a is in b. -/
def meets (a b : List Nat) : Bool := a.any fun x => b.contains x

/-- The sum of a function over 0, …, n - 1. -/
def sumTo (n : Nat) (f : Nat → Nat) : Nat := (tab n f).foldl (· + ·) 0

/-- ceil(a / b). -/
def ceilDiv (a b : Nat) : Nat := (a + b - 1) / b

end Sys2Proof
end

