-- ==== Sys2Proof/Machine/Table.lean ====
section
/-! DEFINITION. Tables: lists of (key, entry) pairs with rising keys, the form of every table of the machine (groups,
blocks, tasks, requests, …) and, with a default, of memory. -/

namespace Sys2Proof

/-- A table: pairs of a key and an entry. -/
abbrev Tab (α : Type) := List (Nat × α)

/-- The entry under a key. -/
def Tab.find {α : Type} : Tab α → Nat → Option α
  | [], _ => none
  | (k, v) :: t, j => if k = j then some v else Tab.find t j

/-- Put an entry under a key, in its place among rising keys. -/
def Tab.ins {α : Type} (j : Nat) (v : α) : Tab α → Tab α
  | [] => [(j, v)]
  | (k, w) :: t => if j < k then (j, v) :: (k, w) :: t else if k = j then (j, v) :: t else (k, w) :: Tab.ins j v t

/-- Remove a key. -/
def Tab.del {α : Type} (j : Nat) : Tab α → Tab α
  | [] => []
  | (k, w) :: t => if k = j then Tab.del j t else (k, w) :: Tab.del j t

/-- Change the entry under a key, if there is one. -/
def Tab.upd {α : Type} (j : Nat) (f : α → α) (t : Tab α) : Tab α :=
  match t.find j with
  | some v => t.ins j (f v)
  | none => t

/-- Change every entry. -/
def Tab.mapAll {α : Type} (f : Nat → α → α) (t : Tab α) : Tab α := t.map fun (k, v) => (k, f k v)

/-- The keys rise strictly. -/
def Tab.sorted {α : Type} : Tab α → Bool
  | [] => true
  | [_] => true
  | (a, _) :: (b, w) :: t => a < b && Tab.sorted ((b, w) :: t)

/-- Memory as (address, byte) pairs: an unlisted address reads as the default d. -/
def Cells.read (d : Byte) (m : Tab Byte) (a : Nat) : Byte := (m.find a).getD d
/-- Write one byte: writing the default removes the entry, so that equal memories are equal lists. -/
def Cells.write (d : Byte) (m : Tab Byte) (a : Nat) (b : Byte) : Tab Byte := if b = d then m.del a else m.ins a b
/-- Write bytes from an address upward. -/
def Cells.writes (d : Byte) (m : Tab Byte) (a : Nat) : List Byte → Tab Byte
  | [] => m
  | b :: bs => Cells.writes d (Cells.write d m a b) (a + 1) bs
/-- The canonical form: rising addresses, no entry equal to the default. -/
def Cells.wf (d : Byte) (m : Tab Byte) : Bool := m.sorted && List.all m fun (_, b) => b != d

end Sys2Proof
end

