-- ==== Sys2Proof/Syntax.lean ====
section
/-! DEFINITION. The instruction set Kwequa as syntax: the selectors of R147, R56, R125 and R300, the operand forms of
R125 and R126, and one constructor of `Instr` for every row of opcode_table.json: the L words, the U words, the S
instructions, and the steps of the device and inputs from outside (95_what_each_step_holds.md). -/

namespace Sys2Proof

/-- A vector register v0 to v63 (R128). -/
abbrev VReg := Fin 64
/-- A uniform register s0 to s31 (R129). -/
abbrev SReg := Fin 32
/-- A predicate p0 to p7 (R130). -/
abbrev PReg := Fin 8
/-- A stream register q0 to q15 (R51). -/
abbrev QReg := Fin 16
/-- A logical buffer b0 to b63 (R51). -/
abbrev LBuf := Fin 64

/-- A vector source with its last-use bit (R125, R137). -/
structure VSrc where
  reg  : VReg
  last : Bool
  deriving DecidableEq, Repr

/-- The b operand of an LR word: a vector register with its last-use bit, or with Ub = 1 a uniform register (R125). -/
inductive BSrc where
  | v (reg : VReg) (last : Bool)
  | s (reg : SReg)
  deriving DecidableEq, Repr

/-- T4 of R147. -/
inductive T4 where | i32 | n32 | i64 | n64
  deriving DecidableEq, Repr
/-- F6 of R147. -/
inductive F6 where | f16 | bf16 | f32 | f64 | f16x2 | bf16x2
  deriving DecidableEq, Repr
/-- The first four codes of F6, which FCLASS and SCLE accept (R148). -/
inductive F4 where | f16 | bf16 | f32 | f64
  deriving DecidableEq, Repr
/-- F2 of R147. -/
inductive F2 where | f32 | f64
  deriving DecidableEq, Repr
/-- LOG8 of R147. -/
inductive Log8 where | and | or | xor | andn | orn | xnor | nand | nor
  deriving DecidableEq, Repr
/-- SH7 of R147. -/
inductive Sh7 where | shl | shr | sra | rotl | shl64 | shr64 | sra64
  deriving DecidableEq, Repr
/-- The functions of BITS (R148). -/
inductive BitsFn where | clz | popc | brev | ffs
  deriving DecidableEq, Repr
/-- ICMP of R147. -/
inductive ICmp where | eq | ne | lt | le | gt | ge | ltn | len
  deriving DecidableEq, Repr
/-- FCMP of R147. -/
inductive FCmp where | eq | ne | lt | le | gt | ge | unord | ord
  deriving DecidableEq, Repr
/-- The functions of FSGN (R184). -/
inductive SgnFn where | abs | neg | copysign | negabs
  deriving DecidableEq, Repr
/-- The piece sizes of PACK and UNPK (R192). -/
inductive Piece where | b16 | b8 | b4
  deriving DecidableEq, Repr
/-- The key types of MATCH (R201). -/
inductive MatchTy where | f16 | bf16 | f32 | f64 | bits32 | bits64
  deriving DecidableEq, Repr
/-- The types of REDL and SCANL (R197). -/
inductive LaneTy where | i32 | n32 | f32 | f64 | f16 | bf16 | i64 | n64
  deriving DecidableEq, Repr
/-- RED6 of R147. -/
inductive Red6 where | add | min | max | and | or | xor
  deriving DecidableEq, Repr
/-- VOTE5 of R147. -/
inductive Vote5 where | any | all | ballotLo | ballotHi | count
  deriving DecidableEq, Repr
/-- SHF4 of R147. -/
inductive Shf4 where | idx | up | down | xor
  deriving DecidableEq, Repr
/-- The access types of the LM words (R125, R218). -/
inductive MemTy where | n8 | i8 | n16 | i16 | b32 | b64 | b128
  deriving DecidableEq, Repr
/-- The cache hints (R125, R221). -/
inductive Hint where | normal | evictFirst | keep | bypass
  deriving DecidableEq, Repr
/-- AOPI of R147. -/
inductive AopI where | add | mini | maxi | minn | maxn | and | or | xor
  deriving DecidableEq, Repr
/-- AOPF of R147. -/
inductive AopF where | addF32 | addF64 | exchB32 | exchB64 | casB32 | casB64 | incWrap | decWrap
  deriving DecidableEq, Repr
/-- The semantics codes of the atomics (R125, R224). -/
inductive Sem where | rlxPkg | rlxDom | rlxSys | acqPkg | relPkg | arPkg | arDom | arSys
  deriving DecidableEq, Repr
/-- UCND of R147. -/
inductive UCnd where | eq | ne | lt | le | gt | ge
  deriving DecidableEq, Repr
/-- The scopes of R12 and R298. -/
inductive Scope where | grp | blk | cls | die | pkg | dom | sys
  deriving DecidableEq, Repr
/-- The kinds of FENCE (R300). -/
inductive FenceKind where | m | e | a
  deriving DecidableEq, Repr
/-- The conditions of WAITA (R300). -/
inductive WaitCond where | eq | ne | gen | ltn | ge | lt | any
  deriving DecidableEq, Repr
/-- The special registers MOVSR reads (R132, R169); `aset` carries sub. -/
inductive SpecReg where
  | group | width | bix | biy | biz | gdx | gdy | gdz | stage | core | die | clock | frm | fflags | fmask
  | aset (hi : Bool) | args | scrbase | tcause | taddr | tlanes | detm
  deriving DecidableEq, Repr
/-- The special registers MOVRS writes (R170). -/
inductive WSpec where | frm | fflags | fmask
  deriving DecidableEq, Repr
/-- The special registers LSR reads (R171). -/
inductive LaneSpec where | lane | lpc
  deriving DecidableEq, Repr
/-- The operation of UATOM: AOPI with its width, or AOPF (R309). -/
inductive UOp where | i (w64 : Bool) (op : AopI) | f (op : AopF)
  deriving DecidableEq, Repr
/-- The kinds of TREG with their group register; `w` is W (R373, R374). -/
inductive TregOp where
  | s (reg : SReg) (w : Bool)
  | v (reg : VReg) (w : Bool)
  | p (reg : PReg) (w : Bool)
  | lpc (w : Bool)
  deriving DecidableEq, Repr
/-- The forms of ERRLD (R377). -/
inductive ErrForm where | own | peek | pop
  deriving DecidableEq, Repr

/-- The formats of R34. `b8 k uns fin` is the binary8 format of precision k (R35). -/
inductive Fmt where
  | i8 | n8 | i16 | n16 | i32 | n32 | i64 | n64 | f16 | bf16 | f32 | f64 | e2m1 | e8m0
  | b8 (k : Fin 8) (uns fin : Bool)
  deriving DecidableEq, Repr

/-- The conditions of BRQ and WHEN (R56). -/
inductive QCond where | eq | ne | lt | le | gt | ge | ltn | gen
  deriving DecidableEq, Repr
/-- The sizes of LDQ and STQ (R56). -/
inductive QSize where | b16 | b32 | b64
  deriving DecidableEq, Repr
/-- The operations of ALUQ (R56). -/
inductive QOp where | add | sub | mul | and | or | xor | shl | shr | sra | min | max | minn | maxn
  deriving DecidableEq, Repr
/-- A jump target: relative in instructions, or the address in a q register (R57). -/
inductive JTarget where | rel (off : BitVec 32) | reg (q : QReg)
  deriving DecidableEq, Repr
/-- The y operand of BRQ and ALUQ: imm16 or a q register (R57). -/
inductive QSrc where | imm (v : BitVec 16) | reg (q : QReg)
  deriving DecidableEq, Repr
/-- The length of DEFB: w2, or a q register (R57, R69). -/
inductive QLen where | imm (v : BitVec 32) | reg (q : QReg)
  deriving DecidableEq, Repr
/-- The x operand of WHEN: a q register, or the dword at q + disp (R57, R65). -/
inductive WhenSrc where | reg (q : QReg) | mem (q : QReg) (disp : BitVec 32)
  deriving DecidableEq, Repr
/-- The source of MOVQ (R57). -/
inductive MovSrc where | imm (v : BitVec 16) | imm64 (v : BitVec 64) | reg (q : QReg)
  deriving DecidableEq, Repr

/-- What the leader may decide (R393): each decision is journaled, then takes effect. -/
inductive Decision where
  /-- partition number, window base, frame window base, physical die of each logical die, (die, core) pairs, PCTL value -/
  | createPartition (part window frames : Nat) (dies : List Nat) (cores : List (Nat × Nat)) (pctl : BitVec 64)
  | teardown (part : Nat)
  | leaveCore (die core target : Nat)
  | reserveCore (die core : Nat) (on : Bool)
  | holdSpare (die : Nat) (on : Bool)
  | evacuate (die spare : Nat)
  /-- a later step of the evacuation under way, 2 to 6 (R384, R393) -/
  | evacStep (n : Nat)
  | budget (die amount : Nat) (charges : List Nat)
  | ptroot (part : Nat) (v : BitVec 64)
  | pxctl (part : Nat) (v : BitVec 64)
  | pctl (part : Nat) (v : BitVec 64)
  | sendTimeout (part : Nat) (us : Nat)
  | migrate (part : Nat)
  | domain (number : Nat) (members : List Nat)
  /-- a die that no longer answers is declared failed (R386, R393) -/
  | dieFailed (die : Nat)
  deriving DecidableEq, Repr

/-- The writable registers of the host interface with no row of their own (R396). -/
inductive HostReg where
  | tlbinv (part : Nat) | thandler (part : Nat) | hwin (part : Nat) | attn (part word : Nat) | attaddr (part : Nat)
  | msixEntry (part entry word : Nat)
  | pfPtroot (part : Nat) | pfPxctl (part : Nat) | pfSendTimeout (part : Nat)
  | loadWindow (off : Nat)
  | reserved (off : Nat)
  deriving DecidableEq, Repr

/-- A host access through HWIN (R399). -/
inductive HostAcc where | read (n : Nat) | write (bytes : List Byte)
  deriving DecidableEq, Repr

/-- A host AtomicOp (R395), at 4 or 8 bytes. -/
inductive HostOp where
  | fetchAdd (n v : Nat) | swap (n v : Nat) | cas (n cmp new : Nat)
  deriving DecidableEq, Repr

/-- Why firmware pre-empts a block (R378). -/
inductive PreemptWhy where | migration | evacuation | teardown | debugger
  deriving DecidableEq, Repr

/-- The instructions and steps of opcode_table.json. The first argument `sw` of an L or U word is the switch marker
(R122). The steps name what they act on by the number the state keeps it under. -/
inductive Instr where
  -- L words: integer (R177, R178)
  | iadd (sw : Bool) (t : T4) (d : VReg) (a : VSrc) (b : BSrc)
  | isub (sw : Bool) (t : T4) (d : VReg) (a : VSrc) (b : BSrc)
  | imul (sw : Bool) (t : T4) (d : VReg) (a : VSrc) (b : BSrc)
  | imulh (sw : Bool) (t : T4) (d : VReg) (a : VSrc) (b : BSrc)
  | imad (sw : Bool) (t : T4) (d : VReg) (a : VSrc) (b : BSrc)
  | imin (sw : Bool) (t : T4) (d : VReg) (a : VSrc) (b : BSrc)
  | imax (sw : Bool) (t : T4) (d : VReg) (a : VSrc) (b : BSrc)
  | iabs (sw : Bool) (w64 : Bool) (d : VReg) (a : VSrc)
  | logic (sw : Bool) (f : Log8) (d : VReg) (a : VSrc) (b : BSrc)
  | shift (sw : Bool) (f : Sh7) (d : VReg) (a : VSrc) (b : BSrc)
  | bits (sw : Bool) (f : BitsFn) (d : VReg) (a : VSrc)
  | bfx (sw : Bool) (signed : Bool) (d : VReg) (a : VSrc) (b : BSrc)
  | bfi (sw : Bool) (d : VReg) (a : VSrc) (b : BSrc)
  | iset (sw : Bool) (c : ICmp) (p : PReg) (a : VSrc) (b : BSrc)
  | iaddi (sw : Bool) (d : VReg) (a : VSrc) (k : BitVec 11)
  | lea (sw : Bool) (sh : Fin 8) (d : VReg) (a : VSrc) (b : BSrc)
  -- L words: floating (R179 to R188)
  | fadd (sw : Bool) (t : F6) (d : VReg) (a : VSrc) (b : BSrc)
  | fsub (sw : Bool) (t : F6) (d : VReg) (a : VSrc) (b : BSrc)
  | fmul (sw : Bool) (t : F6) (d : VReg) (a : VSrc) (b : BSrc)
  | ffma (sw : Bool) (t : F6) (d : VReg) (a : VSrc) (b : BSrc)
  | fmin (sw : Bool) (t : F6) (d : VReg) (a : VSrc) (b : BSrc)
  | fmax (sw : Bool) (t : F6) (d : VReg) (a : VSrc) (b : BSrc)
  | fdiv (sw : Bool) (t : F2) (d : VReg) (a : VSrc) (b : BSrc)
  | fsqrt (sw : Bool) (t : F2) (d : VReg) (a : VSrc)
  | fsetF32 (sw : Bool) (c : FCmp) (p : PReg) (a : VSrc) (b : BSrc)
  | fsetF64 (sw : Bool) (c : FCmp) (p : PReg) (a : VSrc) (b : BSrc)
  | fclass (sw : Bool) (t : F4) (d : VReg) (a : VSrc)
  | fsgn (sw : Bool) (f : SgnFn) (t : F2) (d : VReg) (a : VSrc) (b : BSrc)
  | rsqa (sw : Bool) (t : F2) (d : VReg) (a : VSrc)
  | rcpa (sw : Bool) (t : F2) (d : VReg) (a : VSrc)
  | ex2a (sw : Bool) (t : F2) (d : VReg) (a : VSrc)
  | lg2a (sw : Bool) (t : F2) (d : VReg) (a : VSrc)
  -- L words: conversion and packing (R189 to R193)
  | cvt (sw : Bool) (dst src : Fmt) (d a : VReg)
  | cvtsat (sw : Bool) (dst src : Fmt) (d a : VReg)
  | cvts (sw : Bool) (dst : Fmt) (d a b : VReg)
  | pack (sw : Bool) (f : Piece) (d : VReg) (a : VSrc) (b : BSrc)
  | unpk (sw : Bool) (f : Piece) (d : VReg) (a : VSrc)
  | scle (sw : Bool) (t : F4) (d : VReg) (a : VSrc) (b : BSrc)
  -- L words: cross-lane and moves (R171, R194 to R201)
  | matchLanes (sw : Bool) (t : MatchTy) (d : VReg) (a : VSrc)
  | lsr (sw : Bool) (r : LaneSpec) (d : VReg)
  | movi (sw : Bool) (d : VReg) (k : BitVec 18)
  | movu (sw : Bool) (w64 : Bool) (d : VReg) (b : SReg)
  | sel (sw : Bool) (p : PReg) (d : VReg) (a : VSrc) (b : BSrc)
  | shfl (sw : Bool) (m : Shf4) (d : VReg) (a : VSrc) (b : BSrc)
  | vote (sw : Bool) (m : Vote5) (d : SReg) (p : PReg)
  | redl (sw : Bool) (t : LaneTy) (op : Red6) (d : VReg) (a : VSrc)
  | scanl (sw : Bool) (t : LaneTy) (op : Red6) (d : VReg) (a : VSrc)
  | topk (sw : Bool) (k : Fin 8) (d : VReg) (a : VSrc)
  -- L words: memory (R218 to R223, R275)
  | ld (sw : Bool) (t : MemTy) (h : Hint) (d : VReg) (a : VSrc) (s : SReg)
  | st (sw : Bool) (t : MemTy) (h : Hint) (d : VSrc) (a : VSrc) (s : SReg)
  | lds (sw : Bool) (t : MemTy) (d : VReg) (a : VSrc) (s : SReg)
  | sts (sw : Bool) (t : MemTy) (d : VSrc) (a : VSrc) (s : SReg)
  | ldc (sw : Bool) (t : MemTy) (d : VReg) (a : VSrc) (s : SReg)
  | stc (sw : Bool) (t : MemTy) (d : VSrc) (a : VSrc) (s : SReg)
  | atom (sw : Bool) (w64 : Bool) (op : AopI) (sem : Sem) (d : VReg) (a : Fin 32) (b : VReg)
  | redAtom (sw : Bool) (w64 : Bool) (op : AopI) (sem : Sem) (a : Fin 32) (b : VReg)
  | atomf (sw : Bool) (op : AopF) (sem : Sem) (d a b : VReg)
  | redAtomf (sw : Bool) (op : AopF) (sem : Sem) (a b : VReg)
  | gld (sw : Bool) (comp : Fin 8) (anyStep : Bool) (h : Hint) (d a : VReg) (s : SReg)
  -- L words: lane control (R161)
  | brc (sw : Bool) (p : PReg) (neg : Bool) (off : BitVec 20)
  | jmpx (sw : Bool) (a : VSrc)
  -- U words: uniform arithmetic (R202)
  | uadd (sw : Bool) (t : T4) (d a b : SReg)
  | usub (sw : Bool) (t : T4) (d a b : SReg)
  | umul (sw : Bool) (t : T4) (d a b : SReg)
  | umulh (sw : Bool) (t : T4) (d a b : SReg)
  | ulog (sw : Bool) (f : Log8) (d a b : SReg)
  | ush (sw : Bool) (f : Sh7) (d a b : SReg)
  | umin (sw : Bool) (t : T4) (d a b : SReg)
  | umax (sw : Bool) (t : T4) (d a b : SReg)
  | uaddi (sw : Bool) (d a : SReg) (k : BitVec 14)
  | ulil (sw : Bool) (sx : Bool) (d : SReg) (k : BitVec 16)
  | ulih (sw : Bool) (d : SReg) (k : BitVec 16)
  | ucmp (sw : Bool) (w64 : Bool) (c : ICmp) (d a b : SReg)
  | movsr (sw : Bool) (d : SReg) (r : SpecReg)
  | movrs (sw : Bool) (r : WSpec) (d : SReg)
  | vget (sw : Bool) (d a : SReg) (v : VReg)
  | ulea (sw : Bool) (sh : Fin 8) (d a b : SReg)
  -- U words: control (R161 to R168)
  | bra (sw : Bool) (off : BitVec 24)
  | bru (sw : Bool) (c : UCnd) (s : SReg) (off : BitVec 16)
  | call (sw : Bool) (off : BitVec 24)
  | ret (sw : Bool)
  | exit (sw : Bool)
  | trapi (sw : Bool) (code : BitVec 16)
  | waitcy (sw : Bool) (n : BitVec 16)
  -- U words: synchronisation (R300)
  | bar (sw : Bool) (count : Option (Fin 16))
  | cbar (sw : Bool)
  | fence (sw : Bool) (k : FenceKind) (sc : Scope)
  | waita (sw : Bool) (sc : Scope) (w64 : Bool) (c : WaitCond) (x y z : SReg)
  | qinit (sw : Bool) (cons prod : Fin 16) (x y : SReg)
  | qpush (sw : Bool) (x y : SReg)
  | qpop (sw : Bool) (x y : SReg)
  | uatom (sw : Bool) (discard : Bool) (op : UOp) (sem : Sem) (x y z : SReg)
  -- U words: engines (R243, R245, R256)
  | ldsh (sw : Bool) (scr : Bool) (x : Fin 32) (y : SReg)
  | evsh (sw : Bool) (x : Fin 32)
  | copy (sw : Bool) (sp24 mc arr acq : Bool) (x y : Fin 32) (z : SReg)
  | mxlw (sw : Bool) (acq : Bool) (x : Fin 32)
  | mxrun (sw : Bool) (z0 acq : Bool) (x y : Fin 32) (z : SReg)
  -- U words: grids and experts (R273, R290)
  | hpub (sw : Bool) (x y z : SReg)
  | xsend (sw : Bool) (acq : Bool) (x : SReg)
  | xwait (sw : Bool) (poll : Bool) (x y : SReg)
  | xdone (sw : Bool) (wlo : Bool) (x y z : SReg)
  -- U words: assumptions (R333)
  | guess (sw : Bool) (x y z : SReg)
  | affirm (sw : Bool) (x : SReg)
  | deny (sw : Bool) (x : SReg)
  | hold (sw : Bool) (any : Bool)
  -- U words: the trap handler (R372 to R377)
  | tret (sw : Bool)
  | tend (sw : Bool) (fail : Bool)
  | treg (sw : Bool) (x : SReg) (op : TregOp)
  | errld (sw : Bool) (f : ErrForm) (x : SReg)
  -- S instructions (R57)
  | defb (n : LBuf) (len : QLen)
  | bindb (n : LBuf) (qa : QReg) (len : BitVec 32)
  | relb (n : LBuf)
  | launch (qa : QReg)
  | copyt (whole : Bool) (dst : LBuf) (qa : QReg) (src : LBuf) (qb : QReg) (len : BitVec 32)
  | fill (whole : Bool) (dst : LBuf) (qa qb : QReg) (len : BitVec 32)
  | jmp (t : JTarget)
  | streamCall (t : JTarget)
  | streamRet
  | brq (c : QCond) (qa : QReg) (y : QSrc) (off : BitVec 32)
  | when (c : QCond) (x : WhenSrc) (qb : QReg) (n : BitVec 16)
  | loop (qa : QReg) (off : BitVec 32)
  | ffence
  | ldq (sz : QSize) (sx : Bool) (qa qb : QReg) (disp : BitVec 32)
  | stq (sz : QSize) (qa qb : QReg) (disp : BitVec 32)
  | aluq (op : QOp) (qa qb : QReg) (y : QSrc)
  | movq (qa : QReg) (src : MovSrc)
  | halt
  | waits (sc : Scope) (qa qb : QReg) (us : BitVec 32)
  | signal (sc : Scope) (add : Bool) (qa qb : QReg)
  | mark (qa : QReg)
  | hostint (vec : BitVec 8)
  | prio (level : Fin 16)
  | detm (on : Bool)
  | gdef (qa : QReg)
  | gstep (qa qb : QReg)
  | xdef (qa : QReg) (layer : BitVec 8) (count : BitVec 32)
  | xfill (qa : QReg) (layer : BitVec 8) (expert : BitVec 10) (die : Fin 8) (len : BitVec 32)
  | xpin (off : Bool) (layer : BitVec 8) (expert : BitVec 10) (die : Fin 8)
  | xmerge (qa : QReg) (layer : BitVec 8) (expert : BitVec 10) (len : BitVec 32)
  -- steps of the streams and the Loupe (R52 to R97)
  | scmdStart (part stream : Nat) (addr : BitVec 60)
  | scmdResume (part stream : Nat)
  | scmdAbort (part stream : Nat)
  | abortComplete (part stream : Nat)
  | frontEndAccess (part stream : Nat)
  | decodeAfterWait (part : Nat)
  | taskIssue (part : Nat)
  | taskComplete (task : Nat)
  | taskRetire (part stream : Nat)
  | streamFault (part stream : Nat)
  | dieLostResume (part stream : Nat)
  | waitsTimeout (task : Nat)
  -- steps of the distributors (R105 to R119)
  | blockPlace (part die : Nat)
  | gangLaunchAdmit (task : Nat)
  | stealRequest (task thief : Nat)
  | stealAnswer (task thief : Nat)
  -- steps of cores, homes and the fabric
  | coreRescue (die core : Nat)
  | tlbWalkComplete (group : Nat)
  | loadReturn (group seq : Nat)
  | homeLoad (req : Nat)
  | homeWrite (req : Nat)
  | homeAtomic (req : Nat)
  | storeAck (req : Nat)
  | errorResponse (req : Nat)
  | movedResponse (req : Nat)
  | flushMarker (req : Nat)
  | wcbDrainTimeout (die core line : Nat)
  -- migration and invalidation (R212, R216, R398)
  | migcmdGo (part : Nat) (v : BitVec 64)
  | migrationFinal (part : Nat)
  | migrationSwitch (part : Nat)
  | migrationDone (part : Nat)
  | tlbinvPage (part : Nat) (va : Nat)
  | tlbinvRegion (part : Nat) (va : Nat)
  | tlbinvPartition (part : Nat)
  | tlbinvComplete (part : Nat)
  -- copies and the matrix engine (R246 to R261)
  | copyBegin (block : Nat)
  | copyUnitWrite (copy unit : Nat)
  | copyComplete (copy : Nat)
  | mxlwLatch (die cluster pos : Nat)
  | mxrunGrant (die cluster : Nat)
  | mxrunPassEnd (die cluster : Nat)
  -- Mirror (R270 to R276)
  | hpubCapture (group : Nat)
  | haloDelivery (grid part : Nat)
  | ringTagSet (grid part ring : Nat)
  | staleHalo (group : Nat)
  -- Prism (R283 to R297)
  | xsendArrival (send : Nat)
  | inboundSlotFree (send : Nat)
  | xsendAck (send : Nat)
  | xsendTimeout (send : Nat)
  | replicaTableUpdate (part layer expert die : Nat)
  | prismWindowEnd (part : Nat)
  | fillComplete (part layer expert die : Nat)
  | evictComplete (part layer expert die : Nat)
  | pxctlWrite (part : Nat) (v : BitVec 64)
  -- barriers, waits, parks and traps
  | barRelease (block : Nat)
  | cbarRelease (gang : Nat)
  | waitTimeout (group : Nat)
  | waitcyExpiry (group : Nat)
  | parkResume (group : Nat)
  | trapEntry (group : Nat)
  -- assumptions (R344 to R348)
  | aidAffirmation (aid : Nat)
  | aidDenial (aid : Nat)
  -- pre-emption, evacuation, loss, retirement (R378 to R388)
  | preempt (block : Nat) (why : PreemptWhy)
  | blockRestore (block die core : Nat)
  | dieEvacuation (die spare : Nat)
  | dieLoss (die : Nat)
  | partitionTeardown (part : Nat)
  | corePartitionMove (die core : Nat)
  | blockRetire (block : Nat)
  | gridComplete (task : Nat)
  -- firmware, power and the host (R390 to R406)
  | leaseRenew
  | leaseLapse (die : Nat)
  | leaseClaim (die : Nat)
  | takeoverComplete
  | journalEntry (d : Decision)
  | journalAckTimeout (die : Nat)
  | powerUp
  | firmwareLoad (image : List Byte)
  | thermalThrottle (die temp budget : Nat)
  | thermalShutdown (die temp : Nat)
  | linkDown (link : Nat)
  | linkUp (link : Nat)
  | hostWindowAccess (part off : Nat) (acc : HostAcc)
  | hostAtomicop (part off : Nat) (op : HostOp)
  | bufadd (part : Nat) (v : BitVec 64)
  | attgo (part : Nat) (v : BitVec 32)
  | reportWritten (part : Nat)
  | pctlWrite (part : Nat) (v : BitVec 64)
  | registerWrite (r : HostReg) (v : BitVec 64)
  | packagePowerLoss
  | journalAcknowledge (die seq : Nat)
  deriving DecidableEq, Repr

/-- A failing ECC word's error (R235): corrected and counted, gone on a retry, or there for good. -/
inductive Ecc where | single | transient | lasting
  deriving DecidableEq, Repr, Inhabited

/-- What happens next: a core issues a word (`skip` groups able to issue that
issued less recently are passed over: their words are not fetched yet, or fit no pipe of this cycle, R157, R158), a front end passes an instruction, the device takes a step or receives an
input, a kept translation is dropped, or an ECC word of memory fails. -/
inductive Act where
  | issue (die core skip : Nat)
  | front (part stream : Nat)
  | dev (i : Instr)
  | dropTlb (die core idx : Nat)
  | ecc (pa : Nat) (kind : Ecc)
  | limits (ok : Bool)
  deriving DecidableEq, Repr, Inhabited

/-- One turn of the machine: how many cycles pass first, and what then happens. The list of turns in the state, and
`Config.turn` where that list is empty, hold every choice of timing that the manual leaves open. -/
structure Turn where
  dt  : Nat
  act : Act
  deriving DecidableEq, Repr, Inhabited

end Sys2Proof
end

