-- ==== Sys2Proof/Machine/Rules.lean ====
section
/-! DEFINITION. The register rules of the words (R127, R148, R149), the rules on fields an instruction leaves unused
(R151 check 4), the v names of a word (R369), and the code numbers of the selectors (R147, R56, R34, R125, R298). -/

namespace Sys2Proof

/-- An even register number (R127). -/
def evn {n : Nat} (x : Fin n) : Bool := x.val % 2 == 0
/-- A register number that is a multiple of k. -/
def mult {n : Nat} (k : Nat) (x : Fin n) : Bool := x.val % k == 0
/-- R127 on a b operand. -/
def BSrc.evn : BSrc → Bool
  | .v r _ => Sys2Proof.evn r
  | .s r => Sys2Proof.evn r
/-- The b operand of a row that does not use b: all zero (R148). -/
def BSrc.zero : BSrc → Bool
  | .v r l => r == 0 && !l
  | .s _ => false

def T4.wide : T4 → Bool
  | .i64 | .n64 => true
  | _ => false
def F6.wide : F6 → Bool
  | .f64 => true
  | _ => false
def F4.wide : F4 → Bool
  | .f64 => true
  | _ => false
def F2.wide : F2 → Bool
  | .f64 => true
  | _ => false
def Sh7.wide : Sh7 → Bool
  | .shl64 | .shr64 | .sra64 => true
  | _ => false
def LaneTy.wide : LaneTy → Bool
  | .f64 | .i64 | .n64 => true
  | _ => false
def LaneTy.float : LaneTy → Bool
  | .f32 | .f64 | .f16 | .bf16 => true
  | _ => false
def Red6.logical : Red6 → Bool
  | .and | .or | .xor => true
  | _ => false
def MatchTy.wide : MatchTy → Bool
  | .f64 | .bits64 => true
  | _ => false
/-- The accesses of 1, 2, 4, 8 and 16 bytes (R218). -/
def MemTy.size : MemTy → Nat
  | .n8 | .i8 => 1
  | .n16 | .i16 => 2
  | .b32 => 4
  | .b64 => 8
  | .b128 => 16
/-- The register rule of the data of a memory word (R148). -/
def MemTy.regOk (t : MemTy) (d : VReg) : Bool :=
  match t with
  | .b64 => mult 2 d
  | .b128 => mult 4 d
  | _ => true
/-- The forms of AOPF on 64-bit data (R226). -/
def AopF.wide : AopF → Bool
  | .addF64 | .exchB64 | .casB64 => true
  | _ => false
/-- The multiple that the operand register of an AOPF must name (R148). -/
def AopF.opMult : AopF → Nat
  | .addF64 | .exchB64 | .casB32 => 2
  | .casB64 => 4
  | _ => 1
def UOp.wide : UOp → Bool
  | .i w _ => w
  | .f op => op.wide
def UOp.opMult : UOp → Nat
  | .i w _ => if w then 2 else 1
  | .f op => op.opMult
/-- The pair registers of R132. -/
def SpecReg.pair : SpecReg → Bool
  | .clock | .aset _ | .args | .scrbase | .taddr | .tlanes => true
  | _ => false
/-- The bits of a format that a 64-bit pair holds (R174). -/
def Fmt.wide : Fmt → Bool
  | .i64 | .n64 | .f64 => true
  | _ => false
/-- A format that R34 and R35 do not reserve. -/
def Fmt.ok : Fmt → Bool
  | .b8 k _ _ => k != 0
  | _ => true
/-- The destinations of CVTS (R191). -/
def Fmt.cvtsDst : Fmt → Bool
  | .f16 | .bf16 | .e2m1 => true
  | .b8 k _ _ => k != 0
  | _ => false
/-- The operand limits of TREG that check 3 enforces (R373). -/
def TregOp.xOk (x : SReg) : TregOp → Bool
  | .s _ _ => true
  | .v _ _ | .lpc _ => x.val ≤ 7
  | .p _ _ => evn x

/-- Bits of a format (R24, R25, R174, R238). -/
def Fmt.bits : Fmt → Nat
  | .e2m1 => 4
  | .i8 | .n8 | .e8m0 | .b8 _ _ _ => 8
  | .i16 | .n16 | .f16 | .bf16 => 16
  | .i32 | .n32 | .f32 => 32
  | .i64 | .n64 | .f64 => 64

def F6.fmt : F6 → Fmt
  | .f16 | .f16x2 => .f16
  | .bf16 | .bf16x2 => .bf16
  | .f32 => .f32
  | .f64 => .f64
def F6.packed : F6 → Bool
  | .f16x2 | .bf16x2 => true
  | _ => false
def F4.fmt : F4 → Fmt
  | .f16 => .f16
  | .bf16 => .bf16
  | .f32 => .f32
  | .f64 => .f64
def F2.fmt : F2 → Fmt
  | .f32 => .f32
  | .f64 => .f64

/-- Three registers of one 64-bit instruction. -/
def wide3 (w : Bool) (d : VReg) (a : VSrc) (b : BSrc) : Bool := !w || (evn d && evn a.reg && b.evn)
/-- Two registers of one 64-bit instruction. -/
def wide2 (w : Bool) (d : VReg) (a : VSrc) : Bool := !w || (evn d && evn a.reg)

/-- What check 3 of R151 asks of an instruction's register fields and of its combinations of codes (R127, R148, R149,
and the chapters' own encodings). DESIGN CHOICE (log entry 59): a GLD whose handle names s30 breaks R275's limit of 28, for which no
cause is named; it is ILLEGAL here. -/
def Instr.regsOk : Instr → Bool
  | .iadd _ t d a b | .isub _ t d a b | .imul _ t d a b | .imulh _ t d a b | .imad _ t d a b | .imin _ t d a b
  | .imax _ t d a b => wide3 t.wide d a b
  | .iabs _ w d a => wide2 w d a
  | .shift _ f d a _ => wide2 f.wide d a
  | .lea _ _ d a _ => evn d && evn a.reg
  | .fadd _ t d a b | .fsub _ t d a b | .fmul _ t d a b | .ffma _ t d a b | .fmin _ t d a b
  | .fmax _ t d a b => wide3 t.wide d a b
  | .fdiv _ t d a b => wide3 t.wide d a b
  | .fsqrt _ t d a | .rsqa _ t d a | .rcpa _ t d a | .ex2a _ t d a | .lg2a _ t d a => wide2 t.wide d a
  | .fsetF64 _ _ _ a b => evn a.reg && b.evn
  | .fclass _ t _ a => !t.wide || evn a.reg
  | .fsgn _ f t d a b => !t.wide || (evn d && evn a.reg && (f != .copysign || b.evn))
  | .cvt _ dst src d a | .cvtsat _ dst src d a =>
    dst.ok && src.ok && (!dst.wide || evn d) && (!src.wide || evn a)
  | .cvts _ dst _ _ _ => dst.cvtsDst
  | .unpk _ _ d _ => evn d
  | .scle _ t d a _ => wide2 t.wide d a
  | .matchLanes _ t d a => evn d && (!t.wide || evn a.reg)
  | .movu _ w d b => !w || (evn d && evn b)
  | .redl _ t op d a | .scanl _ t op d a => wide2 t.wide d a && !(t.float && op.logical)
  | .topk _ _ d _ => evn d
  | .ld _ t _ d _ s => t.regOk d && evn s
  | .st _ t _ d _ s => t.regOk d.reg && evn s
  | .lds _ t d _ _ | .ldc _ t d _ _ => t.regOk d
  | .sts _ t d _ _ | .stc _ t d _ _ => t.regOk d.reg
  | .atom _ w _ _ d _ b => !w || (evn d && evn b)
  | .redAtom _ w _ _ _ b => !w || evn b
  | .atomf _ op _ d a b => evn a && mult op.opMult b && (!op.wide || evn d)
  | .redAtomf _ op _ a b => evn a && mult op.opMult b
  | .gld _ _ _ _ _ _ s => evn s && s.val ≤ 28
  | .uadd _ t d a b | .usub _ t d a b | .umul _ t d a b | .umulh _ t d a b | .umin _ t d a b | .umax _ t d a b =>
    !t.wide || (evn d && evn a && evn b)
  | .ush _ f d a _ => !f.wide || (evn d && evn a)
  | .ucmp _ w _ _ a b => !w || (evn a && evn b)
  | .movsr _ d r => !r.pair || evn d
  | .ulea _ _ d a _ => evn d && evn a
  | .waita _ _ w _ x y z => evn y && (!w || (evn x && evn z))
  | .qpush _ _ y => evn y
  | .qpop _ x _ => evn x
  | .uatom _ disc op _ x y z => evn y && mult op.opMult z && (disc || !op.wide || evn x)
  | .ldsh _ scr _ y => scr || evn y
  | .copy _ _ _ _ _ _ _ z => mult 8 z
  | .mxrun _ _ _ _ _ z => mult 4 z
  | .hpub _ x _ _ => evn x
  | .xsend _ _ x => mult 8 x
  | .guess _ x y z => evn x && evn y && mult 4 z
  | .treg _ x op => op.xOk x
  | .errld _ _ x => mult 8 x
  | _ => true

/-- What check 4 of R151 asks: fields that this form of the instruction leaves unused are zero (FSGN's b by R184,
XDONE's x by R290, UATOM's x by R300, X with `.b64` by R58). In LA rows d = 63 is the RED form (R148), which has
constructors of its own. -/
def Instr.fieldsOk : Instr → Bool
  | .fsgn _ f _ _ _ b => f == .copysign || b.zero
  | .atom _ _ _ _ d _ _ => d != 63
  | .atomf _ _ _ d _ _ => d != 63
  | .uatom _ disc _ _ x _ _ => !disc || x == 0
  | .xdone _ wlo x _ _ => wlo || x == 0
  | .ldq sz sx _ _ _ => !(sx && sz == .b64)
  | _ => true

/-- The v names in the fields of a word, each by its lowest register (R369: the handler has v0 to v7 only). -/
def Instr.vNames : Instr → List VReg
  | .iadd _ _ d a b | .isub _ _ d a b | .imul _ _ d a b | .imulh _ _ d a b | .imad _ _ d a b | .imin _ _ d a b
  | .imax _ _ d a b | .logic _ _ d a b | .shift _ _ d a b | .bfx _ _ d a b | .bfi _ d a b | .lea _ _ d a b
  | .fadd _ _ d a b | .fsub _ _ d a b | .fmul _ _ d a b | .ffma _ _ d a b | .fmin _ _ d a b | .fmax _ _ d a b
  | .fdiv _ _ d a b | .fsgn _ _ _ d a b | .pack _ _ d a b | .scle _ _ d a b | .sel _ _ d a b | .shfl _ _ d a b =>
    [d, a.reg] ++ (match b with
      | .v r _ => [r]
      | .s _ => [])
  | .iset _ _ _ a b | .fsetF32 _ _ _ a b | .fsetF64 _ _ _ a b =>
    [a.reg] ++ (match b with
      | .v r _ => [r]
      | .s _ => [])
  | .iabs _ _ d a | .bits _ _ d a | .iaddi _ d a _ | .fsqrt _ _ d a | .fclass _ _ d a | .rsqa _ _ d a | .rcpa _ _ d a
  | .ex2a _ _ d a | .lg2a _ _ d a | .unpk _ _ d a | .matchLanes _ _ d a | .redl _ _ _ d a | .scanl _ _ _ d a
  | .topk _ _ d a | .ld _ _ _ d a _ | .lds _ _ d a _ | .ldc _ _ d a _ => [d, a.reg]
  | .st _ _ _ d a _ | .sts _ _ d a _ | .stc _ _ d a _ => [d.reg, a.reg]
  | .cvt _ _ _ d a | .cvtsat _ _ _ d a | .gld _ _ _ _ d a _ => [d, a]
  | .cvts _ _ d a b | .atomf _ _ _ d a b => [d, a, b]
  | .lsr _ _ d | .movi _ d _ | .movu _ _ d _ => [d]
  | .atom _ _ _ _ d a b => [d, Fin.ofNat 64 (2 * a.val), b]
  | .redAtom _ _ _ _ a b => [Fin.ofNat 64 (2 * a.val), b]
  | .redAtomf _ _ _ a b => [a, b]
  | .jmpx _ a => [a.reg]
  | .vget _ _ _ v => [v]
  | _ => []

/-- The switch marker of a word (R122). -/
def Instr.sw : Instr → Bool
  | .iadd w _ _ _ _ | .isub w _ _ _ _ | .imul w _ _ _ _ | .imulh w _ _ _ _ | .imad w _ _ _ _ | .imin w _ _ _ _
  | .imax w _ _ _ _ | .iabs w _ _ _ | .logic w _ _ _ _ | .shift w _ _ _ _ | .bits w _ _ _ | .bfx w _ _ _ _
  | .bfi w _ _ _ | .iset w _ _ _ _ | .iaddi w _ _ _ | .lea w _ _ _ _ | .fadd w _ _ _ _ | .fsub w _ _ _ _
  | .fmul w _ _ _ _ | .ffma w _ _ _ _ | .fmin w _ _ _ _ | .fmax w _ _ _ _ | .fdiv w _ _ _ _ | .fsqrt w _ _ _
  | .fsetF32 w _ _ _ _ | .fsetF64 w _ _ _ _ | .fclass w _ _ _ | .fsgn w _ _ _ _ _ | .rsqa w _ _ _ | .rcpa w _ _ _
  | .ex2a w _ _ _ | .lg2a w _ _ _ | .cvt w _ _ _ _ | .cvtsat w _ _ _ _ | .cvts w _ _ _ _ | .pack w _ _ _ _
  | .unpk w _ _ _ | .scle w _ _ _ _ | .matchLanes w _ _ _ | .lsr w _ _ | .movi w _ _ | .movu w _ _ _ | .sel w _ _ _ _
  | .shfl w _ _ _ _ | .vote w _ _ _ | .redl w _ _ _ _ | .scanl w _ _ _ _ | .topk w _ _ _ | .ld w _ _ _ _ _
  | .st w _ _ _ _ _ | .lds w _ _ _ _ | .sts w _ _ _ _ | .ldc w _ _ _ _ | .stc w _ _ _ _ | .atom w _ _ _ _ _ _
  | .redAtom w _ _ _ _ _ | .atomf w _ _ _ _ _ | .redAtomf w _ _ _ _ | .gld w _ _ _ _ _ _ | .brc w _ _ _ | .jmpx w _
  | .uadd w _ _ _ _ | .usub w _ _ _ _ | .umul w _ _ _ _ | .umulh w _ _ _ _ | .ulog w _ _ _ _ | .ush w _ _ _ _
  | .umin w _ _ _ _ | .umax w _ _ _ _ | .uaddi w _ _ _ | .ulil w _ _ _ | .ulih w _ _ | .ucmp w _ _ _ _ _
  | .movsr w _ _ | .movrs w _ _ | .vget w _ _ _ | .ulea w _ _ _ _ | .bra w _ | .bru w _ _ _ | .call w _ | .ret w
  | .exit w | .trapi w _ | .waitcy w _ | .bar w _ | .cbar w | .fence w _ _ | .waita w _ _ _ _ _ _ | .qinit w _ _ _ _
  | .qpush w _ _ | .qpop w _ _ | .uatom w _ _ _ _ _ _ | .ldsh w _ _ _ | .evsh w _ | .copy w _ _ _ _ _ _ _ | .mxlw w _ _
  | .mxrun w _ _ _ _ _ | .hpub w _ _ _ | .xsend w _ _ | .xwait w _ _ _ | .xdone w _ _ _ _ | .guess w _ _ _ | .affirm w _
  | .deny w _ | .hold w _ | .tret w | .tend w _ | .treg w _ _ | .errld w _ _ => w
  | _ => false

/-! The code numbers of the selectors. Each `ofCode` answers none for a reserved code. -/

def T4.code : T4 → Nat
  | .i32 => 0 | .n32 => 1 | .i64 => 2 | .n64 => 3
def T4.ofCode : Nat → Option T4
  | 0 => some .i32 | 1 => some .n32 | 2 => some .i64 | 3 => some .n64 | _ => none
def F6.code : F6 → Nat
  | .f16 => 0 | .bf16 => 1 | .f32 => 2 | .f64 => 3 | .f16x2 => 4 | .bf16x2 => 5
def F6.ofCode : Nat → Option F6
  | 0 => some .f16 | 1 => some .bf16 | 2 => some .f32 | 3 => some .f64 | 4 => some .f16x2 | 5 => some .bf16x2
  | _ => none
def F4.code : F4 → Nat
  | .f16 => 0 | .bf16 => 1 | .f32 => 2 | .f64 => 3
def F4.ofCode : Nat → Option F4
  | 0 => some .f16 | 1 => some .bf16 | 2 => some .f32 | 3 => some .f64 | _ => none
def F2.code : F2 → Nat
  | .f32 => 2 | .f64 => 3
def F2.ofCode : Nat → Option F2
  | 2 => some .f32 | 3 => some .f64 | _ => none
def Log8.code : Log8 → Nat
  | .and => 0 | .or => 1 | .xor => 2 | .andn => 3 | .orn => 4 | .xnor => 5 | .nand => 6 | .nor => 7
def Log8.ofCode : Nat → Option Log8
  | 0 => some .and | 1 => some .or | 2 => some .xor | 3 => some .andn | 4 => some .orn | 5 => some .xnor
  | 6 => some .nand | 7 => some .nor | _ => none
def Sh7.code : Sh7 → Nat
  | .shl => 0 | .shr => 1 | .sra => 2 | .rotl => 3 | .shl64 => 4 | .shr64 => 5 | .sra64 => 6
def Sh7.ofCode : Nat → Option Sh7
  | 0 => some .shl | 1 => some .shr | 2 => some .sra | 3 => some .rotl | 4 => some .shl64 | 5 => some .shr64
  | 6 => some .sra64 | _ => none
def BitsFn.code : BitsFn → Nat
  | .clz => 0 | .popc => 1 | .brev => 2 | .ffs => 3
def BitsFn.ofCode : Nat → Option BitsFn
  | 0 => some .clz | 1 => some .popc | 2 => some .brev | 3 => some .ffs | _ => none
def ICmp.code : ICmp → Nat
  | .eq => 0 | .ne => 1 | .lt => 2 | .le => 3 | .gt => 4 | .ge => 5 | .ltn => 6 | .len => 7
def ICmp.ofCode : Nat → Option ICmp
  | 0 => some .eq | 1 => some .ne | 2 => some .lt | 3 => some .le | 4 => some .gt | 5 => some .ge | 6 => some .ltn
  | 7 => some .len | _ => none
def FCmp.code : FCmp → Nat
  | .eq => 0 | .ne => 1 | .lt => 2 | .le => 3 | .gt => 4 | .ge => 5 | .unord => 6 | .ord => 7
def FCmp.ofCode : Nat → Option FCmp
  | 0 => some .eq | 1 => some .ne | 2 => some .lt | 3 => some .le | 4 => some .gt | 5 => some .ge | 6 => some .unord
  | 7 => some .ord | _ => none
def SgnFn.code : SgnFn → Nat
  | .abs => 0 | .neg => 1 | .copysign => 2 | .negabs => 3
def SgnFn.ofCode : Nat → Option SgnFn
  | 0 => some .abs | 1 => some .neg | 2 => some .copysign | 3 => some .negabs | _ => none
def Piece.code : Piece → Nat
  | .b16 => 0 | .b8 => 1 | .b4 => 2
def Piece.ofCode : Nat → Option Piece
  | 0 => some .b16 | 1 => some .b8 | 2 => some .b4 | _ => none
def MatchTy.code : MatchTy → Nat
  | .f16 => 0 | .bf16 => 1 | .f32 => 2 | .f64 => 3 | .bits32 => 4 | .bits64 => 5
def MatchTy.ofCode : Nat → Option MatchTy
  | 0 => some .f16 | 1 => some .bf16 | 2 => some .f32 | 3 => some .f64 | 4 => some .bits32 | 5 => some .bits64
  | _ => none
def LaneTy.code : LaneTy → Nat
  | .i32 => 0 | .n32 => 1 | .f32 => 2 | .f64 => 3 | .f16 => 4 | .bf16 => 5 | .i64 => 6 | .n64 => 7
def LaneTy.ofCode : Nat → Option LaneTy
  | 0 => some .i32 | 1 => some .n32 | 2 => some .f32 | 3 => some .f64 | 4 => some .f16 | 5 => some .bf16
  | 6 => some .i64 | 7 => some .n64 | _ => none
def Red6.code : Red6 → Nat
  | .add => 0 | .min => 1 | .max => 2 | .and => 3 | .or => 4 | .xor => 5
def Red6.ofCode : Nat → Option Red6
  | 0 => some .add | 1 => some .min | 2 => some .max | 3 => some .and | 4 => some .or | 5 => some .xor | _ => none
def Vote5.code : Vote5 → Nat
  | .any => 0 | .all => 1 | .ballotLo => 2 | .ballotHi => 3 | .count => 4
def Vote5.ofCode : Nat → Option Vote5
  | 0 => some .any | 1 => some .all | 2 => some .ballotLo | 3 => some .ballotHi | 4 => some .count | _ => none
def Shf4.code : Shf4 → Nat
  | .idx => 0 | .up => 1 | .down => 2 | .xor => 3
def Shf4.ofCode : Nat → Option Shf4
  | 0 => some .idx | 1 => some .up | 2 => some .down | 3 => some .xor | _ => none
def MemTy.code : MemTy → Nat
  | .n8 => 0 | .i8 => 1 | .n16 => 2 | .i16 => 3 | .b32 => 4 | .b64 => 5 | .b128 => 6
def MemTy.ofCode : Nat → Option MemTy
  | 0 => some .n8 | 1 => some .i8 | 2 => some .n16 | 3 => some .i16 | 4 => some .b32 | 5 => some .b64
  | 6 => some .b128 | _ => none
def Hint.code : Hint → Nat
  | .normal => 0 | .evictFirst => 1 | .keep => 2 | .bypass => 3
def Hint.ofCode : Nat → Option Hint
  | 0 => some .normal | 1 => some .evictFirst | 2 => some .keep | 3 => some .bypass | _ => none
def AopI.code : AopI → Nat
  | .add => 0 | .mini => 1 | .maxi => 2 | .minn => 3 | .maxn => 4 | .and => 5 | .or => 6 | .xor => 7
def AopI.ofCode : Nat → Option AopI
  | 0 => some .add | 1 => some .mini | 2 => some .maxi | 3 => some .minn | 4 => some .maxn | 5 => some .and
  | 6 => some .or | 7 => some .xor | _ => none
def AopF.code : AopF → Nat
  | .addF32 => 0 | .addF64 => 1 | .exchB32 => 2 | .exchB64 => 3 | .casB32 => 4 | .casB64 => 5 | .incWrap => 6
  | .decWrap => 7
def AopF.ofCode : Nat → Option AopF
  | 0 => some .addF32 | 1 => some .addF64 | 2 => some .exchB32 | 3 => some .exchB64 | 4 => some .casB32
  | 5 => some .casB64 | 6 => some .incWrap | 7 => some .decWrap | _ => none
def Sem.code : Sem → Nat
  | .rlxPkg => 0 | .rlxDom => 1 | .rlxSys => 2 | .acqPkg => 3 | .relPkg => 4 | .arPkg => 5 | .arDom => 6 | .arSys => 7
def Sem.ofCode : Nat → Option Sem
  | 0 => some .rlxPkg | 1 => some .rlxDom | 2 => some .rlxSys | 3 => some .acqPkg | 4 => some .relPkg
  | 5 => some .arPkg | 6 => some .arDom | 7 => some .arSys | _ => none
def UCnd.code : UCnd → Nat
  | .eq => 0 | .ne => 1 | .lt => 2 | .le => 3 | .gt => 4 | .ge => 5
def UCnd.ofCode : Nat → Option UCnd
  | 0 => some .eq | 1 => some .ne | 2 => some .lt | 3 => some .le | 4 => some .gt | 5 => some .ge | _ => none
def Scope.code : Scope → Nat
  | .grp => 0 | .blk => 1 | .cls => 2 | .die => 3 | .pkg => 4 | .dom => 5 | .sys => 6
def Scope.ofCode : Nat → Option Scope
  | 0 => some .grp | 1 => some .blk | 2 => some .cls | 3 => some .die | 4 => some .pkg | 5 => some .dom | 6 => some .sys
  | _ => none
def FenceKind.code : FenceKind → Nat
  | .m => 1 | .e => 2 | .a => 3
def FenceKind.ofCode : Nat → Option FenceKind
  | 1 => some .m | 2 => some .e | 3 => some .a | _ => none
def WaitCond.code : WaitCond → Nat
  | .eq => 0 | .ne => 1 | .gen => 2 | .ltn => 3 | .ge => 4 | .lt => 5 | .any => 6
def WaitCond.ofCode : Nat → Option WaitCond
  | 0 => some .eq | 1 => some .ne | 2 => some .gen | 3 => some .ltn | 4 => some .ge | 5 => some .lt | 6 => some .any
  | _ => none
def LaneSpec.code : LaneSpec → Nat
  | .lane => 0 | .lpc => 1
def LaneSpec.ofCode : Nat → Option LaneSpec
  | 0 => some .lane | 1 => some .lpc | _ => none
def WSpec.code : WSpec → Nat
  | .frm => 0x0E | .fflags => 0x0F | .fmask => 0x10
def WSpec.ofCode : Nat → Option WSpec
  | 0x0E => some .frm | 0x0F => some .fflags | 0x10 => some .fmask | _ => none
def ErrForm.code : ErrForm → Nat
  | .own => 0 | .peek => 1 | .pop => 2
def ErrForm.ofCode : Nat → Option ErrForm
  | 0 => some .own | 1 => some .peek | 2 => some .pop | _ => none
/-- The number of a special register, and sub (R132, R169). -/
def SpecReg.code : SpecReg → Nat × Nat
  | .group => (0x02, 0) | .width => (0x03, 0) | .bix => (0x04, 0) | .biy => (0x05, 0) | .biz => (0x06, 0)
  | .gdx => (0x07, 0) | .gdy => (0x08, 0) | .gdz => (0x09, 0) | .stage => (0x0A, 0) | .core => (0x0B, 0)
  | .die => (0x0C, 0) | .clock => (0x0D, 0) | .frm => (0x0E, 0) | .fflags => (0x0F, 0) | .fmask => (0x10, 0)
  | .aset hi => (0x11, b2n hi) | .args => (0x12, 0) | .scrbase => (0x13, 0) | .tcause => (0x14, 0)
  | .taddr => (0x15, 0) | .tlanes => (0x16, 0) | .detm => (0x17, 0)
def SpecReg.ofCode (n sub : Nat) : Option SpecReg :=
  if n = 0x11 then (if sub < 2 then some (.aset (sub == 1)) else none)
  else if sub ≠ 0 then none
  else match n with
    | 0x02 => some .group | 0x03 => some .width | 0x04 => some .bix | 0x05 => some .biy | 0x06 => some .biz
    | 0x07 => some .gdx | 0x08 => some .gdy | 0x09 => some .gdz | 0x0A => some .stage | 0x0B => some .core
    | 0x0C => some .die | 0x0D => some .clock | 0x0E => some .frm | 0x0F => some .fflags | 0x10 => some .fmask
    | 0x12 => some .args | 0x13 => some .scrbase | 0x14 => some .tcause | 0x15 => some .taddr | 0x16 => some .tlanes
    | 0x17 => some .detm | _ => none
/-- The format codes of R34 and R35. -/
def Fmt.code : Fmt → Nat
  | .i8 => 0 | .n8 => 1 | .i16 => 2 | .n16 => 3 | .i32 => 4 | .n32 => 5 | .i64 => 6 | .n64 => 7 | .f16 => 8 | .bf16 => 9
  | .f32 => 10 | .f64 => 11 | .e2m1 => 12 | .e8m0 => 13
  | .b8 k uns fin => 32 + 16 * b2n uns + 8 * b2n fin + k.val
def Fmt.ofCode (c : Nat) : Option Fmt :=
  if 32 ≤ c ∧ c < 64 then (if c % 8 = 0 then none else some (.b8 (Fin.ofNat 8 c) (bit c 4) (bit c 3)))
  else match c with
    | 0 => some .i8 | 1 => some .n8 | 2 => some .i16 | 3 => some .n16 | 4 => some .i32 | 5 => some .n32
    | 6 => some .i64 | 7 => some .n64 | 8 => some .f16 | 9 => some .bf16 | 10 => some .f32 | 11 => some .f64
    | 12 => some .e2m1 | 13 => some .e8m0 | _ => none
def QCond.code : QCond → Nat
  | .eq => 0 | .ne => 1 | .lt => 2 | .le => 3 | .gt => 4 | .ge => 5 | .ltn => 6 | .gen => 7
def QCond.ofCode : Nat → Option QCond
  | 0 => some .eq | 1 => some .ne | 2 => some .lt | 3 => some .le | 4 => some .gt | 5 => some .ge | 6 => some .ltn
  | 7 => some .gen | _ => none
def QSize.code : QSize → Nat
  | .b16 => 0 | .b32 => 1 | .b64 => 2
def QSize.ofCode : Nat → Option QSize
  | 0 => some .b16 | 1 => some .b32 | 2 => some .b64 | _ => none
def QOp.code : QOp → Nat
  | .add => 0 | .sub => 1 | .mul => 2 | .and => 3 | .or => 4 | .xor => 5 | .shl => 6 | .shr => 7 | .sra => 8 | .min => 9
  | .max => 10 | .minn => 11 | .maxn => 12
def QOp.ofCode : Nat → Option QOp
  | 0 => some .add | 1 => some .sub | 2 => some .mul | 3 => some .and | 4 => some .or | 5 => some .xor | 6 => some .shl
  | 7 => some .shr | 8 => some .sra | 9 => some .min | 10 => some .max | 11 => some .minn | 12 => some .maxn
  | _ => none

end Sys2Proof
end

