-- ==== Sys2Proof/Machine/Number.lean ====
section
/-! DEFINITION. The number formats (R24 to R35), exact decoding, and rounding with its flags (R36 to R41, R44 to R46). -/

namespace Sys2Proof.Machine

/-! Flag bits (R42). -/
def fNV : Nat := 1
def fDZ : Nat := 2
def fOF : Nat := 4
def fUF : Nat := 8
def fNX : Nat := 16

/-- A rounding mode (R36, R40). -/
inductive Mode where | rne | rtz | rup | rdn
  deriving DecidableEq, Repr
def Mode.ofFrm (b : BitVec 2) : Mode :=
  if b = 0 then .rne else if b = 1 then .rtz else if b = 2 then .rup else .rdn

/-- A decoded value: a NaN with sign, fraction of `fb` bits and whether it signals, an infinity, a zero, or
±m × 2^e with m > 0. -/
inductive FVal where
  | nan (neg : Bool) (frac fb : Nat) (sig : Bool)
  | inf (neg : Bool)
  | zero (neg : Bool)
  | fin (neg : Bool) (m : Nat) (e : Int)
  deriving DecidableEq, Repr

/-- A floating format other than e8m0 (R25, R27, R31). -/
structure FP where
  p      : Nat     -- precision
  emin   : Int     -- exponent of the least normal value
  sbit   : Nat     -- the sign bit's place
  signed : Bool
  maxC   : Nat     -- magnitude code of the largest finite value
  hasInf : Bool    -- has +∞ (and −∞ when signed), whose code follows maxC
  negZ   : Bool    -- has −0
  ieee   : Bool    -- a format of R25
  nanC   : Option Nat   -- the single NaN code of binary8
  deriving DecidableEq, Repr

/-- f16, bf16, f32 and f64 by their exponent and fraction bits (R25). -/
def ieeeFP (eb fb : Nat) : FP :=
  ⟨fb + 1, 2 - (2 ^ (eb - 1) : Nat), eb + fb, true, (2 ^ eb - 1) * 2 ^ fb - 1, true, true, true, none⟩

def Fmt.fp : Fmt → Option FP
  | .f16 => some (ieeeFP 5 10)
  | .bf16 => some (ieeeFP 8 7)
  | .f32 => some (ieeeFP 8 23)
  | .f64 => some (ieeeFP 11 52)
  | .e2m1 => some ⟨2, 0, 3, true, 7, false, true, false, none⟩
  | .b8 k true fin =>
    some ⟨k.val, 1 - (2 ^ (8 - k.val) : Nat), 8, false, if fin then 0xFE else 0xFD, !fin, false, false, some 0xFF⟩
  | .b8 k false fin =>
    some ⟨k.val, 1 - (2 ^ (7 - k.val) : Nat), 7, true, if fin then 0x7F else 0x7E, !fin, false, false, some 0x80⟩
  | _ => none

/-- The parameters of a format of R25 (f32's where the format is not one). -/
def Fmt.fpD (f : Fmt) : FP := (Fmt.fp f).getD (ieeeFP 8 23)

/-- The exponent of the unit in the last place of the subnormals. -/
def FP.qmin (f : FP) : Int := f.emin - ((f.p : Int) - 1)
/-- Fraction bits of a format of R25. -/
def FP.fb (f : FP) : Nat := f.p - 1
def FP.signOf (f : FP) (neg : Bool) : Nat := if neg && f.signed then 2 ^ f.sbit else 0

/-- The value of a magnitude code (R25, R27, R31). -/
def FP.magnitude (f : FP) (c : Nat) : Nat × Int :=
  if c < 2 ^ (f.p - 1) then (c, f.qmin)
  else (2 ^ (f.p - 1) + c % 2 ^ (f.p - 1), f.qmin + ((c / 2 ^ (f.p - 1) : Nat) - 1 : Int))

/-- Decode a code of a floating format exactly (R25, R27, R28, R31). -/
def FP.decode (f : FP) (code : Nat) : FVal :=
  let neg := f.signed && bit code f.sbit
  let c := code % 2 ^ f.sbit
  if f.nanC == some code then .nan false 0 0 false
  else if f.hasInf && c == f.maxC + 1 then .inf neg
  else if f.ieee && f.maxC + 1 < c then .nan neg (c % 2 ^ f.fb) f.fb (!bit c (f.fb - 1))
  else if c == 0 then .zero neg
  else .fin neg (f.magnitude c).1 (f.magnitude c).2

/-- Decode an e8m0 code (R32). -/
def e8m0Decode (c : Nat) : FVal := if c == 0xFF then .nan false 0 0 false else .fin false 1 ((c : Int) - 127)

/-- Decode a code of any floating format. -/
def Fmt.decode (f : Fmt) (code : Nat) : FVal :=
  match Fmt.fp f with
  | some p => p.decode (code % 2 ^ Fmt.bits f)
  | none => e8m0Decode (code % 256)

def FVal.isNan : FVal → Bool
  | .nan _ _ _ _ => true
  | _ => false
def FVal.sig : FVal → Bool
  | .nan _ _ _ s => s
  | _ => false

/-- The default NaN (R26), or the single NaN code (R28). -/
def FP.defaultNan (f : FP) : Nat := match f.nanC with
  | some c => c
  | none => f.maxC + 1 + 2 ^ (f.fb - 1)
/-- A NaN in the destination format (R44, R45): sign kept, leading fraction bits kept, quiet bit set. -/
def FP.nanFrom (f : FP) : FVal → Nat
  | .nan neg frac fb _ =>
    if f.ieee then
      let fr := if fb ≤ f.fb then frac * 2 ^ (f.fb - fb) else frac / 2 ^ (fb - f.fb)
      let q := if bit fr (f.fb - 1) then fr else fr + 2 ^ (f.fb - 1)
      f.signOf neg + (f.maxC + 1) + q
    else f.defaultNan
  | _ => f.defaultNan
def FP.infCode (f : FP) (neg : Bool) : Nat := f.signOf neg + f.maxC + 1
def FP.zeroCode (f : FP) (neg : Bool) : Nat := if f.negZ then f.signOf neg else 0
def FP.maxCode (f : FP) (neg : Bool) : Nat := f.signOf neg + f.maxC

/-! ## Rounding -/

/-- floor(log2 (m × 2^e)). -/
def topExp (m : Nat) (e : Int) : Int := e + (Nat.log2 m : Int)

/-- m × 2^e against n × 2^k. -/
def leScaled (m : Nat) (e : Int) (n : Nat) (k : Int) : Bool :=
  if e ≤ k then m ≤ n * 2 ^ (k - e).toNat else m * 2 ^ (e - k).toNat ≤ n

/-- Round ±m × 2^e to a multiple of 2^q (R36): the multiple, and whether it differs. `even0` says that the lower
neighbour's code has bit 0 clear, given the multiple. -/
def roundUnit (mode : Mode) (neg : Bool) (m : Nat) (e q : Int) (even0 : Nat → Bool) : Nat × Bool :=
  if q ≤ e then (m * 2 ^ (e - q).toNat, false)
  else
    let sh := (q - e).toNat
    let hi := m / 2 ^ sh
    let lo := m % 2 ^ sh
    let half := 2 ^ (sh - 1)
    let up := match mode with
      | .rne => decide (half < lo) || (lo == half && !even0 hi)
      | .rtz => false
      | .rup => !neg && lo != 0
      | .rdn => neg && lo != 0
    (if up then hi + 1 else hi, lo != 0)

/-- Whether the code of the multiple k of 2^q has bit 0 clear. With one significant bit the code is the exponent. DESIGN CHOICE (log
entry 59): below and above a format's codes, where R38 rounds with an unbounded exponent, R36's tie has no code to look at; there
the parity of the exponents goes on (R49 fixes it for e8m0 only). -/
def FP.evenCode (f : FP) (q : Int) (k : Nat) : Bool :=
  if f.p == 1 then (if k == 0 then true else (q - f.emin + 1) % 2 == 0) else k % 2 == 0

/-- What rounding found (R36 to R38). -/
structure Rounded where
  code  : Nat      -- magnitude code within the format, when it does not overflow
  inx   : Bool
  tiny  : Bool
  ovf : Bool
  deriving DecidableEq, Repr

/-- Round ±m × 2^e, m > 0, to a format. -/
def FP.round (f : FP) (mode : Mode) (neg : Bool) (m : Nat) (e : Int) : Rounded :=
  let top := topExp m e
  let q := max top f.emin - ((f.p : Int) - 1)
  let r := roundUnit mode neg m e q (f.evenCode q)
  let qu := top - ((f.p : Int) - 1)
  let ru := roundUnit mode neg m e qu (f.evenCode qu)
  let mx := f.magnitude f.maxC
  ⟨((q - f.qmin).toNat) * 2 ^ (f.p - 1) + r.1, r.2, !leScaled 1 f.emin ru.1 qu, !leScaled ru.1 qu mx.1 mx.2⟩

/-- Whether IEEE 754 delivers an infinity on overflow in this mode (R37). -/
def Mode.overInf (mode : Mode) (neg : Bool) : Bool :=
  match mode with
  | .rne => true
  | .rtz => false
  | .rup => !neg
  | .rdn => neg

/-- Flags of a rounding that does not overflow: inexact, and underflow when tiny and inexact (R38). -/
def Rounded.flags (r : Rounded) : Nat := if r.inx then (if r.tiny then fUF + fNX else fNX) else 0

/-- round_to of ±m × 2^e in a format with infinities: code and flags (R36 to R38). -/
def FP.roundTo (f : FP) (mode : Mode) (neg : Bool) (m : Nat) (e : Int) : Nat × Nat :=
  if m = 0 then (f.zeroCode neg, 0)
  else
    let r := f.round mode neg m e
    if r.ovf then (if mode.overInf neg then f.infCode neg else f.maxCode neg, fOF + fNX)
    else if r.code == 0 then (f.zeroCode neg, r.flags)
    else (f.signOf neg + r.code, r.flags)

/-- round to K significant bits, ties to even (R185). -/
def rneK (k m : Nat) (e : Int) : Nat × Int :=
  let q := topExp m e - ((k : Int) - 1)
  ((roundUnit .rne false m e q fun h => h % 2 == 0).1, q)

/-- floor(sqrt n), one bit after another from bit i down. -/
def isqrtFrom (n : Nat) : Nat → Nat → Nat
  | 0, r => if (r + 1) * (r + 1) ≤ n then r + 1 else r
  | i + 1, r => isqrtFrom n i (if (r + 2 ^ (i + 1)) * (r + 2 ^ (i + 1)) ≤ n then r + 2 ^ (i + 1) else r)
def isqrt (n : Nat) : Nat := isqrtFrom n (Nat.log2 n / 2 + 1) 0

/-! ## Stochastic rounding (R41) -/

/-- floor(m × 2^e / 2^q + r / 65536). -/
def srUnit (m r : Nat) (e q : Int) : Nat :=
  if q ≤ e then m * 2 ^ (e - q).toNat
  else (m * 2 ^ 16 + r * 2 ^ (q - e).toNat) / 2 ^ ((q - e).toNat + 16)

/-- round_sr of ±m × 2^e, m > 0: code and flags. -/
def FP.roundSr (f : FP) (neg : Bool) (m : Nat) (e : Int) (r : Nat) : Nat × Nat :=
  let top := topExp m e
  let q := max top f.emin - ((f.p : Int) - 1)
  let k := srUnit m r e q
  let qu := top - ((f.p : Int) - 1)
  let tiny := !leScaled 1 f.emin (srUnit m r e qu) qu
  let mx := f.magnitude f.maxC
  if !leScaled k q mx.1 mx.2 then (f.maxCode neg, fOF + fNX)
  else
    let inx := !(leScaled k q m e && leScaled m e k q)
    let fl := if inx then (if tiny then fUF + fNX else fNX) else 0
    if k == 0 then (f.zeroCode neg, fl)
    else (f.signOf neg + ((q - f.qmin).toNat * 2 ^ (f.p - 1) + k), fl)

end Sys2Proof.Machine
end

