-- ==== Sys2Proof/Machine/Flags.lean ====
section
/-! DEFINITION. Comparisons, conditions, and the floating operations with the flags they raise (R42 to R50, R176, R179
to R193). Every result is a pair of a code and its flag bits. -/

namespace Sys2Proof

/-! ## Integer conditions (R147, R56, R300) -/

/-- ICMP on n-bit operands (R178, R202). -/
def ICmp.holds (c : ICmp) (n x y : Nat) : Bool :=
  match c with
  | .eq => x == y
  | .ne => x != y
  | .lt => decide (sext n x < sext n y)
  | .le => decide (sext n x ≤ sext n y)
  | .gt => decide (sext n x > sext n y)
  | .ge => decide (sext n x ≥ sext n y)
  | .ltn => decide (x < y)
  | .len => decide (x ≤ y)

/-- UCND: a signed word against zero (R147). -/
def UCnd.holds (c : UCnd) (x : Word) : Bool :=
  match c with
  | .eq => x.toInt == 0
  | .ne => x.toInt != 0
  | .lt => decide (x.toInt < 0)
  | .le => decide (x.toInt ≤ 0)
  | .gt => decide (x.toInt > 0)
  | .ge => decide (x.toInt ≥ 0)

/-- The conditions of BRQ and WHEN on 64 bits (R56). -/
def QCond.holds (c : QCond) (x y : Dword) : Bool :=
  match c with
  | .eq => x == y
  | .ne => x != y
  | .lt => decide (x.toInt < y.toInt)
  | .le => decide (x.toInt ≤ y.toInt)
  | .gt => decide (x.toInt > y.toInt)
  | .ge => decide (x.toInt ≥ y.toInt)
  | .ltn => decide (x.toNat < y.toNat)
  | .gen => decide (x.toNat ≥ y.toNat)

/-- The conditions of WAITA on n bits (R300). -/
def WaitCond.holds (c : WaitCond) (n v k : Nat) : Bool :=
  match c with
  | .eq => v == k
  | .ne => v != k
  | .gen => decide (v ≥ k)
  | .ltn => decide (v < k)
  | .ge => decide (sext n v ≥ sext n k)
  | .lt => decide (sext n v < sext n k)
  | .any => Nat.land v k != 0

end Sys2Proof

namespace Sys2Proof.Machine

/-! ## NaNs (R44) -/

/-- NV when some operand signals. -/
def nvOf (vs : List FVal) : Nat := if vs.any FVal.sig then fNV else 0
/-- The result where some operand is a NaN: the first one's sign and payload, quiet. -/
def FP.nanOf (f : FP) (vs : List FVal) : Nat :=
  match vs.find? FVal.isNan with
  | some v => f.nanFrom v
  | none => f.defaultNan

/-! ## Arithmetic (R176, R179 to R181) -/

/-- An exact sum of two scaled integers. -/
def addScaled (n1 : Bool) (m1 : Nat) (e1 : Int) (n2 : Bool) (m2 : Nat) (e2 : Int) : Bool × Nat × Int :=
  let e := min e1 e2
  let a : Int := (if n1 then -1 else 1) * (m1 * 2 ^ (e1 - e).toNat : Nat)
  let b : Int := (if n2 then -1 else 1) * (m2 * 2 ^ (e2 - e).toNat : Nat)
  (decide (a + b < 0), (a + b).natAbs, e)

/-- Sign of an exact zero sum of operands that are not both zeros of one sign (R46). -/
def Mode.zeroNeg : Mode → Bool
  | .rdn => true
  | _ => false

/-- x + y of values that are not NaNs. -/
def FP.addVals (f : FP) (mode : Mode) (x y : FVal) : Nat × Nat :=
  match x, y with
  | .inf a, .inf b => if a == b then (f.infCode a, 0) else (f.defaultNan, fNV)
  | .inf a, _ => (f.infCode a, 0)
  | _, .inf b => (f.infCode b, 0)
  | .zero a, .zero b => (f.zeroCode (if a == b then a else mode.zeroNeg), 0)
  | .zero _, .fin n m e => f.roundTo mode n m e
  | .fin n m e, .zero _ => f.roundTo mode n m e
  | .fin n1 m1 e1, .fin n2 m2 e2 =>
    let r := addScaled n1 m1 e1 n2 m2 e2
    if r.2.1 = 0 then (f.zeroCode mode.zeroNeg, 0) else f.roundTo mode r.1 r.2.1 r.2.2
  | _, _ => (f.defaultNan, 0)

def FVal.negate : FVal → FVal
  | .inf n => .inf (!n)
  | .zero n => .zero (!n)
  | .fin n m e => .fin (!n) m e
  | v => v

/-- FADD. -/
def FP.add (f : FP) (mode : Mode) (x y : FVal) : Nat × Nat :=
  if x.isNan || y.isNan then (f.nanOf [x, y], nvOf [x, y]) else f.addVals mode x y
/-- FSUB. -/
def FP.sub (f : FP) (mode : Mode) (x y : FVal) : Nat × Nat :=
  if x.isNan || y.isNan then (f.nanOf [x, y], nvOf [x, y]) else f.addVals mode x y.negate

/-- The exact product of values that are not NaNs; none for 0 × ∞. -/
def mulVals : FVal → FVal → Option FVal
  | .inf _, .zero _ => none
  | .zero _, .inf _ => none
  | .inf a, .inf b => some (.inf (a != b))
  | .inf a, .fin b _ _ => some (.inf (a != b))
  | .fin a _ _, .inf b => some (.inf (a != b))
  | .zero a, .zero b => some (.zero (a != b))
  | .zero a, .fin b _ _ => some (.zero (a != b))
  | .fin a _ _, .zero b => some (.zero (a != b))
  | .fin a m e, .fin b n k => some (.fin (a != b) (m * n) (e + k))
  | _, _ => none

/-- Round an exact value to a format of R25. -/
def FP.ofVal (f : FP) (mode : Mode) : FVal → Nat × Nat
  | .nan n fr fb s => (f.nanFrom (.nan n fr fb s), if s then fNV else 0)
  | .inf n => (f.infCode n, 0)
  | .zero n => (f.zeroCode n, 0)
  | .fin n m e => f.roundTo mode n m e

/-- FMUL. -/
def FP.mul (f : FP) (mode : Mode) (x y : FVal) : Nat × Nat :=
  if x.isNan || y.isNan then (f.nanOf [x, y], nvOf [x, y])
  else match mulVals x y with
    | none => (f.defaultNan, fNV)
    | some v => f.ofVal mode v

/-- FFMA: x × y + z, one rounding; NV for 0 × ∞ whatever z is (R179). -/
def FP.fma (f : FP) (mode : Mode) (x y z : FVal) : Nat × Nat :=
  let zeroInf := !x.isNan && !y.isNan && (mulVals x y).isNone
  if x.isNan || y.isNan || z.isNan then
    (f.nanOf [x, y, z], if zeroInf then fNV else nvOf [x, y, z])
  else match mulVals x y with
    | none => (f.defaultNan, fNV)
    | some v => f.addVals mode v z

/-- −0 below +0, otherwise by value (R180). -/
def valLt (x y : FVal) : Bool :=
  match x, y with
  | .inf a, .inf b => a && !b
  | .inf a, _ => a
  | _, .inf b => !b
  | .zero a, .zero b => a && !b
  | .zero _, .fin b _ _ => !b
  | .fin a _ _, .zero _ => a
  | .fin a m e, .fin b n k =>
    if a != b then a else if a then !leScaled m e n k else !leScaled n k m e
  | _, _ => false
/-- Equal as numbers: −0 equals +0. -/
def valEq (x y : FVal) : Bool :=
  match x, y with
  | .inf a, .inf b => a == b
  | .zero _, .zero _ => true
  | .fin a m e, .fin b n k => a == b && leScaled m e n k && leScaled n k m e
  | _, _ => false
/-- Below as numbers (R182). -/
def valBelow (x y : FVal) : Bool :=
  match x, y with
  | .zero _, .zero _ => false
  | _, _ => valLt x y

/-- FMIN and FMAX: minimumNumber and maximumNumber (R180). -/
def FP.minMax (f : FP) (max_ : Bool) (cx cy : Nat) : Nat × Nat :=
  let x := f.decode cx
  let y := f.decode cy
  let fl := nvOf [x, y]
  if x.isNan && y.isNan then (f.nanOf [x, y], fl)
  else if x.isNan then (cy, fl)
  else if y.isNan then (cx, fl)
  else if max_ then (if valLt x y then cy else cx, 0)
  else (if valLt y x then cy else cx, 0)

/-- FDIV (R181). -/
def FP.div (f : FP) (mode : Mode) (x y : FVal) : Nat × Nat :=
  if x.isNan || y.isNan then (f.nanOf [x, y], nvOf [x, y])
  else match x, y with
    | .inf _, .inf _ => (f.defaultNan, fNV)
    | .zero _, .zero _ => (f.defaultNan, fNV)
    | .inf a, .zero b => (f.infCode (a != b), 0)
    | .inf a, .fin b _ _ => (f.infCode (a != b), 0)
    | .zero a, .inf b => (f.zeroCode (a != b), 0)
    | .zero a, .fin b _ _ => (f.zeroCode (a != b), 0)
    | .fin a _ _, .inf b => (f.zeroCode (a != b), 0)
    | .fin a _ _, .zero b => (f.infCode (a != b), fDZ)
    | .fin a m e, .fin b n k =>
      let s := f.p + 3 + Nat.log2 n
      let q := m * 2 ^ s / n
      let r := m * 2 ^ s % n
      f.roundTo mode (a != b) (2 * q + (if r = 0 then 0 else 1)) (e - k - s - 1)
    | _, _ => (f.defaultNan, 0)

/-- FSQRT (R181). -/
def FP.sqrt (f : FP) (mode : Mode) (x : FVal) : Nat × Nat :=
  match x with
  | .nan _ _ _ _ => (f.nanOf [x], nvOf [x])
  | .inf false => (f.infCode false, 0)
  | .inf true => (f.defaultNan, fNV)
  | .zero n => (f.zeroCode n, 0)
  | .fin true _ _ => (f.defaultNan, fNV)
  | .fin false m e =>
    let t := f.p + 3
    let e1 := if e % 2 = 0 then e else e - 1
    let m1 := if e % 2 = 0 then m else 2 * m
    let big := m1 * 2 ^ (2 * t)
    let r := isqrt big
    f.roundTo mode false (2 * r + (if r * r = big then 0 else 1)) (e1 / 2 - t - 1)

/-- FSET's outcome and flags (R182). -/
def FCmp.eval (c : FCmp) (x y : FVal) : Bool × Nat :=
  let un := x.isNan || y.isNan
  let sig := x.sig || y.sig
  match c with
  | .eq => (!un && valEq x y, if sig then fNV else 0)
  | .ne => (un || !valEq x y, if sig then fNV else 0)
  | .lt => (!un && valBelow x y, if un then fNV else 0)
  | .le => (!un && (valBelow x y || valEq x y), if un then fNV else 0)
  | .gt => (!un && valBelow y x, if un then fNV else 0)
  | .ge => (!un && (valBelow y x || valEq x y), if un then fNV else 0)
  | .unord => (un, if sig then fNV else 0)
  | .ord => (!un, if sig then fNV else 0)

/-- FCLASS's bit (R183). -/
def FP.classBit (f : FP) (x : FVal) : Nat :=
  match x with
  | .inf true => 0
  | .fin true m e => if leScaled 1 f.emin m e then 1 else 2
  | .zero true => 3
  | .zero false => 4
  | .fin false m e => if leScaled 1 f.emin m e then 6 else 5
  | .inf false => 7
  | .nan _ _ _ true => 8
  | .nan _ _ _ false => 9

/-! ## The approximation words (R185 to R188) -/

/-- The operand with its significand cut to 9 bits plus half a unit: X and E with x′ = X × 2^E (R186). -/
def approxArg (m : Nat) (e : Int) : Nat × Int :=
  let t := Nat.log2 m
  let top := if 8 ≤ t then m / 2 ^ (t - 8) else m * 2 ^ (8 - t)
  (2 * top + 1, e + t - 9)

/-- RSQA (R185, R186). -/
def FP.rsqa (f : FP) (x : FVal) : Nat × Nat :=
  match x with
  | .nan _ _ _ _ => (f.nanOf [x], nvOf [x])
  | .inf false => (f.zeroCode false, 0)
  | .inf true => (f.defaultNan, fNV)
  | .zero n => (f.infCode n, fDZ)
  | .fin true _ _ => (f.defaultNan, fNV)
  | .fin false m e =>
    let xe := approxArg m e
    let x1 := if xe.2 % 2 = 0 then xe.1 else 2 * xe.1
    let e1 := if xe.2 % 2 = 0 then xe.2 else xe.2 - 1
    let r := isqrt (2 ^ 128 / x1)
    let y := rneK 12 (2 * r + 1) (-65 - e1 / 2)
    f.roundTo .rne false y.1 y.2

/-- RCPA (R185, R186). -/
def FP.rcpa (f : FP) (x : FVal) : Nat × Nat :=
  match x with
  | .nan _ _ _ _ => (f.nanOf [x], nvOf [x])
  | .inf n => (f.zeroCode n, 0)
  | .zero n => (f.infCode n, fDZ)
  | .fin n m e =>
    let xe := approxArg m e
    let y := rneK 12 (2 * (2 ^ 64 / xe.1) + 1) (-65 - xe.2)
    f.roundTo .rne n y.1 y.2

/-- The 14-bit significand of 2^(j / 4096), in units of 2^−13: the greatest k for which k − 1/2 is not above it. -/
def exp2From (j : Nat) : Nat → Nat → Nat
  | 0, k => if (2 * (k + 1) - 1) ^ 4096 ≤ 2 ^ (14 * 4096 + j) then k + 1 else k
  | i + 1, k => exp2From j i (if (2 * (k + 2 ^ (i + 1)) - 1) ^ 4096 ≤ 2 ^ (14 * 4096 + j) then k + 2 ^ (i + 1) else k)

/-- floor(m × 2^e) of ±m × 2^e. -/
def floorScaled (neg : Bool) (m : Nat) (e : Int) : Int :=
  let v : Int := if neg then -(m : Int) else m
  if 0 ≤ e then v * (2 ^ e.toNat : Nat) else v / (2 ^ (-e).toNat : Nat)

/-- EX2A (R185, R187). -/
def FP.ex2a (f : FP) (x : FVal) : Nat × Nat :=
  match x with
  | .nan _ _ _ _ => (f.nanOf [x], nvOf [x])
  | .inf false => (f.infCode false, 0)
  | .inf true => (f.zeroCode false, 0)
  | .zero _ => f.roundTo .rne false 1 0
  | .fin neg m e =>
    let n := floorScaled neg m e
    let j := (floorScaled neg m (e + 12) - n * 4096).toNat
    let n1 := max (-4096) (min 4096 n)
    f.roundTo .rne false (exp2From j 13 0) (n1 - 13)

/-- Successive bits of log2 of x × 2^−k, 1 ≤ x × 2^−k < 2, by squaring. -/
def log2Bits (k : Nat) : Nat → Nat → Nat → Nat
  | 0, _, acc => acc
  | i + 1, x, acc =>
    let y := x * x / 2 ^ k
    if 2 ^ (k + 1) ≤ y then log2Bits k i (y / 2) (2 * acc + 1) else log2Bits k i y (2 * acc)

/-- LG2A (R185, R188). -/
def FP.lg2a (f : FP) (x : FVal) : Nat × Nat :=
  match x with
  | .nan _ _ _ _ => (f.nanOf [x], nvOf [x])
  | .inf false => (f.infCode false, 0)
  | .inf true => (f.defaultNan, fNV)
  | .zero _ => (f.infCode true, fDZ)
  | .fin true _ _ => (f.defaultNan, fNV)
  | .fin false m e =>
    let t := Nat.log2 m
    let j := if 12 ≤ t then m / 2 ^ (t - 12) else m * 2 ^ (12 - t)
    let ex := e + t
    if j = 4096 then
      (if ex = 0 then (f.zeroCode false, 0) else f.roundTo .rne (decide (ex < 0)) ex.natAbs 0)
    else
      let n : Int := ex * (2 ^ 40 : Nat) + log2Bits 128 40 (j * 2 ^ 116) 0
      let neg := decide (n < 0)
      let a := if neg then (-n - 1).toNat else n.toNat
      let y := rneK 14 (2 * a + 1) (-41)
      f.roundTo .rne neg y.1 y.2

/-- SCLE: x × 2^(E − 127) (R193). -/
def FP.scale (f : FP) (mode : Mode) (x : FVal) (E : Nat) : Nat × Nat :=
  if E == 0xFF then (if x.isNan then (f.nanOf [x], nvOf [x]) else (f.defaultNan, 0))
  else match x with
    | .fin n m e => f.roundTo mode n m (e + E - 127)
    | v => f.ofVal mode v

/-! ## Conversions (R47 to R50, R189 to R191) -/

def Fmt.isInt : Fmt → Bool
  | .i8 | .n8 | .i16 | .n16 | .i32 | .n32 | .i64 | .n64 => true
  | _ => false
def Fmt.intSigned : Fmt → Bool
  | .i8 | .i16 | .i32 | .i64 => true
  | _ => false
/-- The integer of a code (R24). -/
def Fmt.intVal (f : Fmt) (c : Nat) : Int :=
  if Fmt.intSigned f then sext (Fmt.bits f) c else (c % 2 ^ Fmt.bits f : Nat)
def Fmt.intMax (f : Fmt) : Int := if Fmt.intSigned f then (2 ^ (Fmt.bits f - 1) : Nat) - 1 else (2 ^ Fmt.bits f : Nat) - 1
def Fmt.intMin (f : Fmt) : Int := if Fmt.intSigned f then -((2 ^ (Fmt.bits f - 1) : Nat) : Int) else 0

/-- A source decoded exactly (R47). -/
def Fmt.value (f : Fmt) (c : Nat) : FVal :=
  if Fmt.isInt f then
    let v := Fmt.intVal f c
    if v = 0 then .zero false else .fin (decide (v < 0)) v.natAbs 0
  else Fmt.decode f c

/-- Into an integer (R48). -/
def toInt (dst : Fmt) (v : FVal) : Nat × Nat :=
  let n := Fmt.bits dst
  let lim (neg : Bool) := if neg then Fmt.intMin dst else Fmt.intMax dst
  match v with
  | .nan _ _ _ _ => (0, fNV)
  | .inf neg => (wrap n (lim neg), fNV)
  | .zero _ => (0, 0)
  | .fin neg m e =>
    let q := if 0 ≤ e then m * 2 ^ e.toNat else m / 2 ^ (-e).toNat
    let exact := if 0 ≤ e then true else m % 2 ^ (-e).toNat == 0
    let t : Int := if neg then -(q : Int) else q
    if t < Fmt.intMin dst || Fmt.intMax dst < t then (wrap n (lim neg), fNV)
    else (wrap n t, if exact then 0 else fNX)

/-- Into e8m0 (R49). -/
def toE8m0 (mode : Mode) (sat : Bool) (v : FVal) : Nat × Nat :=
  match v with
  | .nan _ _ _ _ => (0xFF, fNV)
  | .inf false => if sat then (0xFE, fOF + fNX) else (0xFF, fNV)
  | .inf true => (if sat then 0 else 0xFF, fNV)
  | .zero _ => (if sat then 0 else 0xFF, fNV)
  | .fin true _ _ => (if sat then 0 else 0xFF, fNV)
  | .fin false m e =>
    let top := topExp m e
    let r := roundUnit mode false m e top fun k => k == 0 || (top + 127) % 2 == 0
    let code : Int := top + 127 + ((r.1 : Int) - 1)
    if code > 254 then (if sat then 0xFE else 0xFF, fOF + fNX)
    else if top < -127 then (0, fNX + (if code < 0 then fUF else 0))
    else (code.toNat, if r.2 then fNX else 0)

/-- Into a floating format other than e8m0 (R48). -/
def FP.convert (f : FP) (mode : Mode) (sat : Bool) (v : FVal) : Nat × Nat :=
  match v with
  | .nan _ _ _ s =>
    if f.ieee || f.nanC.isSome then (f.nanFrom v, if s then fNV else 0) else (0, fNV)
  | .inf neg =>
    if f.hasInf && (f.signed || !neg) then
      (if sat then (f.maxCode neg, fOF + fNX) else (f.infCode neg, 0))
    else if f.nanC.isSome then
      (if sat then (if neg && !f.signed then 0 else f.maxCode neg, fNV) else (f.defaultNan, fNV))
    else (f.maxCode neg, fNV)
  | .zero neg => (f.zeroCode neg, 0)
  | .fin neg m e =>
    if neg && !f.signed then (if sat then (0, fNX) else (f.defaultNan, fNV))
    else
      let r := f.round mode neg m e
      if r.ovf then
        (if sat then f.maxCode neg
         else if f.hasInf then (if mode.overInf neg then f.infCode neg else f.maxCode neg)
         else if f.nanC.isSome then (if mode.overInf neg then f.defaultNan else f.maxCode neg)
         else f.maxCode neg, fOF + fNX)
      else if r.code == 0 then (f.zeroCode neg, r.flags)
      else (f.signOf neg + r.code, r.flags)

/-- CVT and CVTSAT of one code (R189, R190). -/
def convert (sat : Bool) (mode : Mode) (dst src : Fmt) (c : Nat) : Nat × Nat :=
  if Fmt.isInt dst && Fmt.isInt src then
    let v := Fmt.intVal src c
    (wrap (Fmt.bits dst) (if sat then max (Fmt.intMin dst) (min (Fmt.intMax dst) v) else v), 0)
  else
    let v := Fmt.value src c
    if Fmt.isInt dst then toInt dst v
    else match Fmt.fp dst with
      | some f => f.convert mode sat v
      | none => toE8m0 mode sat v

/-- CVTS of an f32 code (R41, R191). -/
def convertSr (dst : Fmt) (c r : Nat) : Nat × Nat :=
  let f := Fmt.fpD dst
  match Fmt.decode .f32 c with
  | .fin neg m e => if neg && !f.signed then (f.defaultNan, fNV) else f.roundSr neg m e r
  | v => f.convert .rne false v

end Sys2Proof.Machine
end

