-- ==== Sys2Proof/Config.lean ====
section
/-! DEFINITION. What the manual leaves open: the free values, the schedule of turns where the state names none, and the
results of the cited standards. None of these has a body, so nothing can be proved of a particular value. -/

namespace Sys2Proof.Config

/-- The free values (log entry 2): a value the manual calls undefined, or does not state, is this function of the
state's counter `free`. -/
opaque freeNat : Nat → Nat

/-- The turn the machine takes when its list of turns is empty (log entry 1). -/
opaque turn : Nat → Turn

/-- R402: whether the SLH-DSA signature of a firmware image verifies under the vendor key that comes with it (log entry 16:
FIPS 205 is cited, not stated). -/
opaque imageSigned : List Byte → Bool

/-- R402: the vendor key and the security version of a firmware image, whose places in the image the manual does not give. -/
opaque imageKey : List Byte → List Byte
opaque imageSvn : List Byte → Nat

/-- The SHAKE256 digest of given bytes, 64 bytes (log entry 16). -/
opaque digest : List Byte → List Byte

/-- R403: the identity public key (64 bytes), and the attestation public key (48 bytes) of the boot that a number names. -/
opaque identityKey : List Byte
opaque attestKey : Nat → List Byte

/-- R404: an identity signature (29,792 bytes), and a boot's attestation signature (35,664 bytes), over given bytes. -/
opaque identitySig : List Byte → List Byte
opaque attestSig : Nat → List Byte → List Byte

/-- R404: the bytes of a partition's PF block, core list and handler code object, whose order in the digest the manual
does not give, as a function of the fields it names. -/
opaque configBytes : List Nat → List Byte

end Sys2Proof.Config
end

