-- ==== Sys2Proof/Machine/State.lean ====
section
/-! DEFINITION. The state of a Renmon Skagra package as plain data: everything the manual gives the machine, and the
few fields of the model's own that are named at `State`. -/

namespace Sys2Proof.Machine

/-- Why the machine stops. -/
inductive Fault where
  /-- Raised by `step` when a turn is taken while an operating limit of R405 is broken: the manual does not specify the
  device's behaviour there. Safe: the model stops where the device may go on. -/
  | outsideLimits
  deriving DecidableEq, Repr

/-- Why the model gives no meaning. -/
inductive Refusal where
  /-- Raised by `exec` for an instruction that has no meaning yet. Safe: the model stops. -/
  | notModelled (mnemonic : String)
  deriving DecidableEq, Repr

/-- A set of assumption identifiers, in the order in which they entered it (R331). -/
abbrev ASet := List Nat

/-! ## Locations and memory -/

/-- A location by its home: device memory at a physical address, host memory on a link at a bus address, a block's
scratchpad, a task's argument frame (R203, R204, R215, R317, R419). -/
inductive Loc where
  | dev (pa : Nat) | host (link ba : Nat) | pad (blk off : Nat) | frame (task off : Nat)
  deriving DecidableEq, Repr

/-- Who made a write, for the scopes in which it lies (R298): group, block, gang, physical die, the task whose work it is
(R327), and the partition whose requester ID it carries (R395); `host` for the host itself. `nobody` stands where there is
none. -/
structure Agent where
  grp  : Nat
  blk  : Nat
  gang : Nat
  die  : Nat
  task : Nat
  part : Nat
  host : Bool
  deriving DecidableEq, Repr

/-- How a byte was written: by a pass of the matrix engine (R262), by a queue word (R310), or otherwise. -/
inductive WrHow where | plain | pass | queue
  deriving DecidableEq, Repr

/-- A write of a byte: its place in write order, its writer, the value, how it was made (R262, R310, R317). -/
structure Wr where
  at_  : Nat
  by_  : Agent
  val  : Byte
  how  : WrHow
  deriving DecidableEq, Repr

/-- A speculative version of a line: its set, its 128 bytes (R337), and what was written to each, newest first (R262). -/
structure Version where
  set   : ASet
  bytes : List Byte
  hist  : List (List Wr)
  deriving DecidableEq, Repr

/-- The rights of a leaf and where it leads (R209). -/
structure Leaf where
  part : Nat
  vbase : Nat      -- first virtual address of the page
  size  : Nat      -- 64 KiB or 32 MiB
  pbase : Nat
  host  : Bool     -- TGT = 1
  r     : Bool
  w     : Bool
  deriving DecidableEq, Repr

/-- An entry that the walkers keep (R211): where it lies, its value, the addresses it serves, whether it is a leaf. -/
structure Pte where
  part : Nat
  at_  : Nat
  val  : Nat
  va   : Nat
  size : Nat
  leaf : Bool
  deriving DecidableEq, Repr

/-- What a walk finds (R208, R209, R214). -/
inductive Walk where
  | leaf (l : Leaf) | notPresent | protection | error (at_ : Nat)   -- an entry at that address cannot be read (R235)
  deriving DecidableEq, Repr

/-! ## Groups -/

/-- An error log entry (R376). -/
structure LogEntry where
  kind  : Nat
  cause : Nat
  sub   : Nat
  agent : Nat
  vaddr : Nat
  paddr : Nat
  pc    : Nat
  seq   : Nat
  deriving DecidableEq, Repr

/-- A trap raised and not yet entered (R364, R366); `seq` is the issue number of its word. -/
structure Trap where
  cause  : Nat
  sub    : Nat
  code   : Nat            -- TRAPI's code, or 1 for a deferred trap
  addr   : Nat
  lanes  : Nat
  entry  : Option LogEntry
  pc     : Nat
  seq    : Nat
  deriving DecidableEq, Repr

/-- The trap handler's bank and cause registers (R366, R369). -/
structure Handler where
  pcs    : List (Option Word)
  s      : Vector Word 32
  v      : List (List Word)
  tcause : Word
  taddr  : Dword
  tlanes : Dword
  own    : LogEntry
  base   : Nat            -- the handler's code object address
  size   : Nat
  deriving DecidableEq, Repr

/-- Assumption snapshot of a group (R335); also what a provisional hold keeps (R336). `seq` is the issue number of the
word at the restore point. -/
structure Snap where
  vmap   : Vector (Option Nat) 64
  s      : Vector Word 32
  p      : Vector Dword 8
  pcs    : List (Option Word)
  frm    : BitVec 2
  fflags : BitVec 5
  fmask  : BitVec 5
  aset   : ASet
  guard  : ASet
  seq    : Nat
  eord   : List Nat       -- the model's: what its fences had ordered (R262)
  vis    : List Nat       -- and what it had acquired and read (R263, R321)
  saw    : Nat
  deriving DecidableEq, Repr

/-- Where a variable-latency value goes: v names with the physical registers they mapped to at issue and the type of
the data, s names, or nowhere (R143, R146). -/
inductive Dest where
  | v (names phys : List Nat) (ty : MemTy)
  | s (names : List Nat)
  | none
  deriving DecidableEq, Repr

/-- What a variable-latency write waits for (R143). -/
inductive Waits where
  | load | watch | pop (queue : Nat) | xwait (key : Nat) (poll : Bool) | copy (id : Nat) | pass | send (id : Nat)
  | now (value : Nat)
  /-- The status word of an engine operation, which has come and waits in the core until its set fits (R340). -/
  | owed (op value addr : Nat) (set : ASet)
  /-- A QPUSH or QINIT, an EVSH, an AFFIRM or DENY that waits for the group's reads (R336). -/
  | push (queue value : Nat) | init (queue head : Nat) | evict (slot : Nat) | rule (aid : Nat) (yes : Bool)
  deriving DecidableEq, Repr

/-- A variable-latency write that is outstanding (R144 to R146). -/
structure Flight where
  seq     : Nat
  pc      : Nat
  lanes   : List Nat
  dest    : Dest
  waits   : Waits
  bank    : Bool              -- true: the handler's registers
  hold    : Option Snap       -- R336
  spoiled : List (Nat × Nat)  -- names written since, each with the issue number of the word (R144)
  drop    : Bool              -- restored past: discard the value (R146, R347)
  since   : Nat
  limit   : Nat               -- timeout in cycles, 0 for none
  deriving DecidableEq, Repr

/-- Why a group is parked (R8). `again` and the reasons after it that hold no data: the word had no effect and issues
again. -/
inductive Park where
  | again | pool | assume | tlb (pages : List Nat)
  | performed (seq : Nat)
  | trap
  | bar (gen : Nat) | cbar (gen : Nat)
  | waitcy (until_ : Nat)
  /-- a group saved at a barrier in its handler, which waits for the handler's place on its new core first (R381) -/
  | barOff (gen : Nat) | cbarOff (gen : Nat)
  /-- the group's lanes have exited, while variable-latency writes are outstanding (R164); whether it ends as failed (R372) -/
  | exiting (failed : Bool)
  /-- a GUESS that met a refusal: the cell's address and the SEQ it waits for, where VALUE goes, its switch marker (R334) -/
  | refused (va seq x : Nat) (sw : Bool)
  /-- a GLD since when, of which registration, step, partition and component, with lanes and cells (R276) -/
  | stale (since grid step part comp : Nat) (cells : List (Nat × Nat))
  /-- an HPUB whose capture is to be read (R273) -/
  | hpub (grid part step : Nat) (sw : Bool)
  | holdAny (set : ASet)
  | copySlot (id : Nat)
  deriving DecidableEq, Repr

/-- A group (R128 to R133, R154). -/
structure Group where
  part    : Nat
  blk     : Nat
  num     : Nat               -- %group
  place   : Nat               -- group place on the core, 0 to 31
  width   : Nat
  pcs     : List (Option Word)
  vmap    : Vector (Option Nat) 64   -- which of its physical registers a v name maps to (R135)
  phys    : Tab (List Word)          -- the physical registers held, with their lanes
  s       : Vector Word 32
  p       : Vector Dword 8
  frm     : BitVec 2
  fflags  : BitVec 5
  fmask   : BitVec 5
  aset    : ASet
  snaps   : List Snap
  out     : List Flight
  park    : Option Park
  mark    : Bool              -- the word issued last carried the switch marker (R145)
  rescued : Bool
  base    : Nat               -- while rescued: registers that do not come from the reserve (R141)
  trap    : Option Trap
  pend    : List Trap
  handler : Option Handler
  walked  : List (Nat × Walk)
  last    : Nat               -- when it last issued (R158)
  seq     : Nat               -- words issued
  ops     : List Nat          -- engine operations whose status word it has received (R264)
  eord    : List Nat          -- by scope: the writes up to this point its engine reads are ordered after (R262, R306)
  vis     : List Nat          -- by scope: the writes up to this point are visible to it by what it acquired (R263, R321)
  saw     : Nat               -- the latest place in write order of a value that it has read (R322)
  behind  : List Nat          -- requests of other groups that its releases come after (R302, R313, R323)
  tried   : Nat               -- next identifier when the word at which it stands was first tried, 0 before that (R293)
  trapAt  : Nat               -- when it began to wait for the handler (R368)
  done    : Bool
  failed  : Bool
  deriving DecidableEq, Repr

/-! ## Blocks -/

/-- The header of a code object (R104). -/
structure Hdr where
  base    : Nat
  size    : Nat
  entry   : Nat
  width   : Nat
  groups  : Nat
  stages  : Nat
  floor   : Nat
  cap     : Nat
  scratch : Nat
  shapes  : Nat
  copies  : Nat
  energy  : Nat
  cluster : Nat
  regtrap : Bool
  astrict : Bool
  detok   : Bool
  deriving DecidableEq, Repr

/-- A shape slot: its image when loaded, its taint, whether an LDSH into it is unfinished (R238, R243, R244). -/
structure Shape where
  img     : Option (List Byte)
  tag     : ASet
  loading : Bool
  deriving DecidableEq, Repr

/-- An undo entry: of a scratchpad line, or with `slot` of a shape slot; `image` is what it held (R339, R244), and `at_`
what was written to its bytes (R262). -/
structure Undo where
  line  : Nat
  set   : ASet
  old   : ASet
  image : List (Option Byte)
  at_   : List (Option (List Wr))
  slot  : Option (Nat × Shape)
  deriving DecidableEq, Repr

/-- A barrier slot's counters (R301): who arrived, their sets' union, and the requests that the release comes after
(R302). -/
structure Barrier where
  need    : Nat
  arrived : List Nat
  gen     : Nat
  uset    : ASet
  behind  : List Nat
  vis     : List Nat               -- what the arrivals have acquired, by scope (R302)
  deriving DecidableEq, Repr

/-- A matrix-engine weight bank that is latched (R255, R257). -/
structure Bank where
  owner  : Nat
  fmt    : Fmt
  k      : Nat
  n      : Nat
  bad    : Option Nat              -- the cause of a latch that ended on an error: the bank is not valid
  codes  : List Nat                -- weight (k, n) at k + K * n
  scales : Option (List Nat)       -- scale exponent codes, in the same order
  tag    : ASet
  deriving DecidableEq, Repr

/-- An MXLW or MXRUN entry of a reservation table (R260). -/
structure MxEntry where
  id     : Nat
  first  : Nat                     -- its identifier when its word issued: a restored entry has a later one (R265, R293)
  grp    : Nat
  blk    : Nat
  core   : Nat
  pos    : Nat                     -- core position in the cluster
  seq    : Nat
  run    : Bool
  img1   : List Byte               -- weight, or activation slot
  img2   : List Byte               -- accumulator slot
  zero   : Bool
  m      : Nat
  n      : Nat
  k      : Nat
  ord    : List Nat
  prio   : Nat
  passed : Nat
  room   : List Nat                -- of a granted pass: scratchpad lines for which undo entries are reserved (R265)
  lines  : List Nat                -- of a granted pass: the scratchpad lines it reads and writes
  verdict : Option Nat             -- of a granted pass: the cause its bank check found (R258)
  set    : ASet
  wait   : List Nat
  issued : Nat
  deriving DecidableEq, Repr

/-- A block (R106, R107). -/
structure Block where
  part    : Nat
  task    : Nat
  index   : Nat
  member  : Nat                    -- member number in its gang
  gang    : Nat
  ldie    : Nat                    -- %die
  core    : Nat                    -- physical die × 64 + physical core
  prio    : Nat
  det     : Bool
  gdx     : Nat
  gdy     : Nat
  gdz     : Nat
  args    : Nat                    -- %args
  hdr     : Hdr
  groups  : List Nat
  pad     : Tab Byte               -- scratchpad bytes written since the block started
  padAt   : Tab (List Wr)          -- what was written to each, newest first (R262)
  old     : List Byte              -- values that earlier blocks of the partition left on the core (R206)
  seed    : Nat                    -- which of them each byte holds: a free choice
  tags    : Tab ASet               -- line tags (R339)
  undo    : List Undo
  shapes  : List Shape
  bar     : Barrier
  barLog  : List (Barrier × List Nat)      -- releases that carried a set: the slot before, the participants (R303)
  cbarIn  : List Nat
  passedCbar : Bool
  queueAt : List (Nat × Nat × Nat) -- waiting queue words in issue order: group, queue offset, issue number (R312)
  pushes  : Tab (List Nat × List Nat)      -- by queue × 2^32 + entry number: the requests its pop comes after, and what its
                                           -- pusher had acquired by scope (R313)
  claims  : List (Nat × Nat)       -- claimed expert slots: area key, slot (R292)
  launched : Nat                   -- write-order point of the launch (R124)
  placed  : Nat                    -- order of placement (R141)
  saved   : Bool
  bank    : List Bank              -- saved bank (R255)
  entries : List MxEntry           -- saved table entries (R265)
  retired : Bool
  deriving DecidableEq, Repr

/-- A clustered gang's barrier (R304, R305). -/
structure Gang where
  task    : Nat
  members : List Nat
  gen     : Nat
  uset    : ASet
  vis     : List Nat               -- what the arrivals have acquired, by scope (R304)
  gone    : List Nat               -- members that exited without passing a generation
  log     : List (Nat × ASet × List Nat × List Nat)   -- releases that carried a set: generation, set, groups, what they had acquired (R303)
  deriving DecidableEq, Repr

/-! ## Cores, clusters, dies -/

/-- A word whose bytes a write-combining entry holds, with the lanes and the virtual address of the lowest (R237). -/
structure Owner where
  grp   : Nat
  blk   : Nat
  seq   : Nat
  pc    : Nat
  va    : Nat
  lanes : List Nat
  deriving DecidableEq, Repr

/-- A write-combining entry (R228). -/
structure WcbEntry where
  line   : Nat                     -- device physical line number
  bytes  : List (Option Byte)
  opened : Nat
  owners : List Owner
  deriving DecidableEq, Repr

/-- A core (R18, R116, R211, R228). -/
structure Core where
  part    : Option Nat
  reserved : Bool
  leaving : Option Nat
  tlb     : List Leaf
  wcb     : List WcbEntry
  left    : List Byte              -- values that blocks of its partition left in its scratchpad (R206)
  deriving DecidableEq, Repr

/-- A cluster's matrix engine (R255, R260). A core position's bank is a stack: beneath a tile latched under a set stands
what a denial puts back (log entry 25). -/
structure Cluster where
  banks : Tab (List Bank)
  table : List MxEntry
  pass  : Option MxEntry
  deriving DecidableEq, Repr

/-- The state of a die (R11). -/
inductive DieState where | active | spare | failed
  deriving DecidableEq, Repr

/-- A physical die (R11, R118, R120, R391). -/
structure Die where
  state   : DieState
  enabled : Nat                    -- DHARV
  leaving : Bool                   -- takes no block: marked for evacuation, or a spare switched in whose blocks are not yet back (R384)
  budget  : Nat
  charges : List Nat
  spent   : List (Nat × Nat)       -- time and charge of dispatches (R118)
  renewed : Nat                    -- when its firmware core last received a renewal (R391)
  seen    : Nat                    -- highest epoch it has seen
  lost    : Bool                   -- it no longer answers, its base die neither (R17, R386)
  deriving DecidableEq, Repr

/-! ## Requests and engine operations -/

inductive ReqStatus where
  | sent | held | moved | failed (cause : Nat) | done
  deriving DecidableEq, Repr

/-- What a request does at its home. -/
inductive ReqKind where
  | load
  | store (data : List (Option Byte))
  | atomic (op : UOp) (y e : Nat)
  | watch (c : WaitCond) (cmp : Nat)
  | shape (slot : Nat)
  | fence                          -- the flush markers of a FENCE (R233, R306)
  deriving DecidableEq, Repr

/-- A request on its way to a home, or waiting for its acknowledgement (R232, R317, R326). -/
structure Req where
  kind   : ReqKind
  part   : Nat
  grp    : Nat
  blk    : Nat
  core   : Nat
  seq    : Nat
  pc     : Nat
  lane   : Nat
  va     : Nat
  loc    : Loc
  n      : Nat
  set    : ASet
  wait   : List Nat                -- reads of the group that must return first (R336)
  after  : List Nat                -- requests of other groups that a release comes after (R323)
  status : ReqStatus
  res    : List Byte               -- what a read returned
  rset   : ASet                    -- the set of the data it returned
  saw    : Nat                     -- the latest place in write order of the bytes it returned (R322)
  acq    : Bool
  rel    : Bool
  scope  : Scope
  marks  : Nat                     -- flush markers still to gather (R233)
  owners : List Owner              -- of a drain
  deriving DecidableEq, Repr

/-- A COPY (R245 to R254). -/
structure CopyOp where
  part   : Nat
  grp    : Nat
  blk    : Nat
  core   : Nat
  seq    : Nat
  dst    : List Byte
  src    : List Byte
  orig   : List Int
  sp24   : Bool
  arr    : Option Nat
  mask   : Option Nat
  ord    : List Nat
  set    : ASet
  wait   : List Nat
  begun  : Bool
  left   : List Nat                -- units not yet written
  err    : Option Nat
  partial_ : Bool
  skipped : List Nat               -- members skipped and logged (R249)
  issued : Nat
  deriving DecidableEq, Repr

/-- A row sent to an expert (R291). -/
structure Send where
  part    : Nat
  grp     : Nat
  blk     : Nat
  core    : Nat
  seq     : Nat
  key     : Nat
  rowLoc  : Nat                    -- virtual address of the row
  nbytes  : Nat
  row     : List Byte
  token   : Nat
  gate    : Nat
  version : Nat
  redir   : Bool
  sender  : Nat
  target  : Nat                    -- logical die it travels to
  set     : ASet
  wait    : List Nat
  ord     : List Nat
  read    : Bool                   -- the row has been read
  parked  : Bool                   -- it waits at its area for a free slot (R289)
  status  : Option Nat             -- acknowledged: 0 done, else the cause
  issued  : Nat
  deriving DecidableEq, Repr

/-! ## Streams and tasks -/

/-- A physical buffer: its base, its class when it came from a free list, its length (R68 to R70). -/
structure Buf where
  base  : Nat
  cls   : Option Nat
  len   : Nat
  deriving DecidableEq, Repr

/-- The streams' states (R52). -/
inductive StreamState where | idle | running | halted | faulted | aborting
  deriving DecidableEq, Repr

/-- A fetched instruction: its bits, or the fault its fetch met (R62). -/
inductive Fetched where
  | word (n : Nat) | fault (cause : Nat)
  deriving DecidableEq, Repr

/-- A stream's state of R51 without the mark: what a resume point holds (R64). -/
structure StreamCtx where
  pc   : Nat
  q    : Vector Dword 16
  ret  : List Nat
  prio : Nat
  detm : Bool
  map  : Vector (Option Buf) 64
  deriving DecidableEq, Repr

/-- A footprint region with its mode (R76, R77). -/
structure Region where
  buf    : Buf
  off    : Nat
  len    : Nat
  stride : Nat
  rows   : Nat
  mode   : Nat
  deriving DecidableEq, Repr

/-- A stream (R51 to R54, R60 to R64). -/
structure Stream where
  state  : StreamState
  ctx    : StreamCtx
  mark   : Dword
  cause  : Nat
  opc    : Nat
  sfaddr : Nat
  sdaddr : Nat
  halt   : Bool                    -- a HALT has been passed (R65)
  stuck  : Bool                    -- a faulted entry has entered the window (R64)
  waiting : Bool                   -- the front end waits at its instruction (R59, R63)
  again  : Bool                    -- the next task decoded is one resumed for DIE_LOST (R96)
  run    : List (Nat × Fetched)    -- copies fetched ahead, by address (R60)
  began  : Nat                     -- write-order point of the SCMD that started it (R329)
  past   : List (Nat × List Region)        -- its retired tasks with their regions (R85, R327)
  deriving DecidableEq, Repr

inductive TaskState where | waiting | issued | complete
  deriving DecidableEq, Repr

/-- A granule (R109): its next unit, its units left, the logical die that holds it, whether a unit of it has started, and
whether it is on its way to a thief (R111). -/
structure Granule where
  next  : Nat
  left  : Nat
  die   : Nat
  begun : Bool
  away  : Bool
  deriving DecidableEq, Repr

/-- A grid: an issued LAUNCH (R104 to R119). -/
structure Grid where
  hdr      : Hdr
  gdx      : Nat
  gdy      : Nat
  gdz      : Nat
  det      : Bool
  gangL    : Bool                  -- gang launch (R115)
  admitted : Bool
  cls      : Nat                   -- energy class
  gran     : List Granule          -- in index order
  order    : Nat                   -- place in order of issue (R113)
  claim    : Nat                   -- claim counter (R117)
  defer_   : List (Nat × Nat)      -- deferral counts by die (R118)
  steals   : List (Nat × Option Nat × List Nat)  -- a thief, the victim asked, victims that answered none (R111)
  retired  : Nat
  failed   : Bool
  storeErr : Option Nat            -- a store of a retired block failed (R237)
  lost     : Bool
  launched : Nat
  began    : Nat                   -- write-order point of its stream's start (R329)
  killed   : List Nat              -- blocks that were ended with it: what they sent may still be on its way (R327)
  struck   : List Nat              -- physical dies that stopped with work of it, not yet declared failed (R386, R393)
  deps     : List (Nat × List Region)      -- the tasks it depends on, with what they declared to write (R85, R327)
  deriving DecidableEq, Repr

/-- A task of the Loupe's window (R87 to R97). -/
structure Task where
  part   : Nat
  stream : Nat
  instr  : Instr
  qa     : Nat
  qb     : Nat
  addr   : Nat
  opc    : Nat
  prio   : Nat
  detm   : Bool
  foot   : List Region
  give   : List Buf                -- buffers it returns at retirement
  took   : List Buf                -- buffers it took by renaming or DEFB
  resume : StreamCtx
  state  : TaskState
  cause  : Option Nat
  daddr  : Nat
  code   : Nat                     -- LAUNCH: CODE, dimensions and flags of the record
  gdx    : Nat
  gdy    : Nat
  gdz    : Nat
  det    : Bool
  gang   : Bool
  ecls   : Option Nat
  frame  : List Nat                -- the argument frame's dwords (R79)
  place  : Nat                     -- its 256-byte place in the frame window (R419)
  grid   : Option Grid
  met    : Bool                    -- WAITS: the condition has held (R92)
  since  : Nat
  lostOnce : Bool                  -- resumed for DIE_LOST before (R96)
  deriving DecidableEq, Repr

/-! ## Mirror and Prism -/

/-- A grid descriptor (R266, R268). -/
structure GridDesc where
  fmt     : Fmt
  g       : Nat
  depth   : Nat
  ndim    : Nat
  ncomp   : Nat
  timeout : Nat
  dim     : List Nat
  pc      : List Nat
  step0   : Nat
  rule    : List Nat
  fix     : List Nat
  pmap    : Nat
  base    : List Nat
  ldie    : List Nat
  deriving DecidableEq, Repr

/-- A step counter or tag value with the set it rests on (R274). -/
structure Spec where
  val : Nat
  set : ASet
  deriving DecidableEq, Repr

/-- A capture of an interior: step, codes by component × C + cell index, set (R272); the partitions not yet delivered to,
and those delivered to under a set that is not yet resolved (R274). -/
structure Capture where
  part : Nat
  task : Nat                       -- the LAUNCH or GDEF task that published it (R327)
  step : Nat
  data : Tab Nat
  set  : ASet
  left : List Nat
  spec : List (Nat × ASet)
  deriving DecidableEq, Repr

/-- A registered grid (R269 to R274). Counters and tags are stacks, newest first, the last entry committed. -/
structure MirrorReg where
  part     : Nat
  va       : Nat
  desc     : GridDesc
  counter  : Tab (List Spec)
  tags     : Tab (List Spec)       -- by partition × 8 + ring
  captures : List Capture
  deliver  : List (Nat × Nat × ASet × List Nat)   -- step and partition written, set, rings still to tag
  done     : List (Nat × Nat)      -- partitions that need no capture, and the step last delivered to each
  task     : Option Nat            -- the GDEF task whose exchange is being made
  bad      : Option Nat            -- the address at which the exchange of GDEF failed
  deriving DecidableEq, Repr

/-- Residency states (R282). -/
inductive Residency where | absent | filling | resident | pinned | evicting
  deriving DecidableEq, Repr

/-- An accepted row in a slot (R288, R289, R292, R297): its place in order of allocation, its set, its receipt; the block
that claimed it and that claim's set; the set and window floor of a release that a tainted group made (log entry 24). -/
structure Row where
  order   : Nat
  set     : ASet
  receipt : Nat × Nat
  redir   : Bool
  claim   : Option (Nat × ASet)
  gone    : Option (ASet × Option Nat)
  deriving DecidableEq, Repr

/-- An inbound area (R287 to R292). -/
structure Area where
  wlo      : Nat
  accepted : Nat
  dups     : Nat
  stale    : Nat
  redirs   : Nat
  slots   : List (Option Row)
  last     : Option Nat            -- slot allocated last
  receipts : List (Nat × Nat)
  waiters  : List (Nat × Nat)      -- XWAIT requests in issue order: group, word
  deriving DecidableEq, Repr

/-- An expert (R281 to R286). -/
structure Expert where
  version : Nat
  list    : List Nat
  state   : List Residency
  load    : Nat
  window  : List Nat               -- arrivals accepted in this window, by die
  copies  : Tab (Nat × List Nat)   -- each die's copy of the table: version and list
  deriving DecidableEq, Repr

/-- A layer (R279, R280). -/
structure Layer where
  part    : Nat
  num     : Nat
  va      : Nat                    -- address of its record
  slots   : Nat
  rowb    : Nat
  wstride : Nat
  inbase  : Nat
  wbase   : Nat
  experts : List Expert
  areas   : Tab Area               -- by die × n + expert
  fills   : List (Nat × Nat × Nat × Nat × Option Nat)   -- expert, die, source address, length, XFILL task
  deriving DecidableEq, Repr

/-! ## Assumptions -/

/-- An identifier slot in use: live, or held as a refusal (R330, R334, R348). -/
structure Aid where
  part    : Nat
  grp     : Nat
  task    : Nat
  die     : Nat                    -- physical die of the minting unit
  cell    : Nat                    -- device physical address of its truth cell
  cellVa  : Nat
  es      : Nat
  pv      : Nat
  parents : ASet
  refusal : Option (List Nat)      -- the grids whose completion ends the refusal
  deriving DecidableEq, Repr

/-! ## Partitions, firmware, host -/

/-- An MSI-X table entry (R396, R401). -/
structure MsixEntry where
  addr : Nat
  data : Nat
  mask : Bool
  pend : Bool
  deriving DecidableEq, Repr

/-- A partition (R393, R396, R400). -/
structure Part where
  en       : Bool
  link     : Nat
  vecs     : Nat
  reslvl   : Nat
  maxprio  : Nat
  aidq     : Nat
  ptroot   : Dword
  tlbinv   : Dword
  invAt    : Nat                   -- requests numbered below this preceded the last write of TLBINV
  thandler : Dword
  elost    : Nat
  free     : List (List Nat)       -- free buffers of classes 0 to 4 (R68)
  migcmd   : Dword
  hwin     : Dword
  attn     : List Word             -- 8 words of nonce
  attaddr  : Dword
  attgo    : Nat
  attref   : Bool                  -- ATTGO reads 2 for a request that could not be served (R404)
  report   : Option (Nat × List Byte)      -- a report requested and not yet written: bus address, bytes (R404)
  pxctl    : Dword
  window   : Nat                   -- start of the current Prism window
  timeout  : Nat                   -- send timeout in µs
  msix     : Tab MsixEntry
  scr      : Nat                   -- scratchpad window base
  frames   : Nat                   -- frame window base
  dies     : List Nat              -- physical die of each logical die
  log      : List LogEntry
  logSeq   : Nat
  turn     : Nat                   -- stream that decoded last (R87)
  deriving DecidableEq, Repr

/-- How a host read or AtomicOp completes (R399). -/
inductive Cpl where | success | unsupported | abort
  deriving DecidableEq, Repr

/-- A page in migration (R216, R398). -/
structure Migration where
  part   : Nat
  va     : Nat                     -- page base
  size   : Nat
  old    : Nat
  new    : Nat
  final  : Bool                    -- final phase: arriving requests are held
  switched : Bool
  deriving DecidableEq, Repr

/-- A journal entry (R392). -/
structure Entry where
  epoch : Nat
  seq   : Nat
  dec   : Decision
  acks  : List Nat
  at_   : Nat
  done  : Bool
  deriving DecidableEq, Repr

/-- The firmware cores (R390 to R394). -/
structure Firmware where
  loaded  : Bool                   -- an accepted image runs (R402)
  image   : List Byte
  epoch   : Nat
  active  : List Nat
  leader  : Nat
  leads   : Bool                   -- some core leads
  take    : Bool
  claim   : Option (Nat × Nat)     -- the claiming die, and when
  journal : List Entry
  held    : List Decision          -- requests written and not yet journaled
  evac    : Option (Nat × Nat × Nat)       -- an evacuation under way: die, spare, last step decided (R384)
  pxctl   : List (Nat × Dword)     -- values of PXCTL decided and not yet written: partition, value (R285, R393)
  tears   : List Nat               -- partitions whose teardown has been decided (R383)
  deriving DecidableEq, Repr

/-- What the part fixes (R21, R120, R404): it never changes while the device is powered. -/
structure PartConst where
  form : Nat
  dies : Nat
  step : Nat
  pkg  : Nat                       -- number in the domain (R16)
  pkgs : List Nat                  -- numbers of the domain's packages
  harvest : List Nat               -- DHARV of each physical die
  keyDigest : List Byte            -- fused digest of the vendor key, 64 bytes (R402)
  minSvn  : Nat                    -- fused minimum security version (R402)
  deriving DecidableEq, Repr

/-- The machine. The fields from `cp` on are the model's own: the entities the step in progress acts for (`cp` a
partition, `cst` a stream, `cb` a block, `cg` a group, `cc` a core), the turns to come, the counters behind the free
choices and free values, and the next identifier. -/
structure State where
  const   : PartConst
  powered : Bool
  broken  : Bool                   -- an operating limit of R405 is broken
  now     : Nat                    -- cycles since package reset
  mem     : Tab Byte               -- device memory by physical address
  hostMem : Tab Byte               -- host memory by link × 2^64 + bus address
  ecc     : List (Nat × Ecc)       -- failing ECC words by number
  corrected : Nat                  -- errors corrected and counted (R235)
  vers    : Tab (List Version)     -- speculative versions by device line, oldest first
  wclock  : Nat                    -- writes performed
  wrote   : Tab (List Wr)          -- what was written to a device byte, newest first
  hostWrote : Tab (List Wr)        -- what was written to a byte of host memory
  ptes    : List Pte               -- page table entries that the walkers keep (R211)
  dies    : List Die
  links   : List Bool              -- PCIe links up
  sent    : List (Nat × Nat × Nat × Nat) -- MSI-X messages raised: link, requester's partition, address, data
  cpls    : List (Cpl × List Byte) -- completions sent to the host for its reads and AtomicOps (R395, R399)
  fw      : Firmware
  loadWin : Tab Byte               -- the PF load window, by offset (R396, R402)
  ident   : Bool                   -- device identity held (R403)
  akey    : Option Nat             -- attestation key certified: the number of its boot
  parts   : Tab Part
  streams : Tab Stream             -- by partition × 16 + stream
  tasks   : Tab Task
  groups  : Tab Group
  blocks  : Tab Block
  gangs   : Tab Gang
  cores   : Tab Core               -- by physical die × 64 + physical core
  clusters : Tab Cluster           -- by physical die × 16 + cluster
  reqs    : Tab Req
  copies  : Tab CopyOp
  sends   : Tab Send
  mirrors : Tab MirrorReg
  layers  : List Layer
  aids    : Tab Aid
  gens    : Tab Nat                -- generation of each identifier slot
  freeSlots : List Nat             -- slots freed, longest free first
  unused  : Nat                    -- slots from here on were never minted
  resol   : List (Nat × Bool)      -- resolutions on their way to the minting units: identifier, affirmed (R349)
  migs    : List Migration
  cp      : Part
  cpId    : Nat
  cst     : Stream
  cstId   : Nat
  cb      : Block
  cbId    : Nat
  cg      : Group
  cgId    : Nat
  cc      : Core
  ccId    : Nat
  turns   : List Turn
  tick    : Nat
  free    : Nat
  nextId  : Nat
  deriving DecidableEq, Repr

/-! ## Reset -/

def zeroS : Vector Word 32 := Vector.replicate 32 0
def zeroLog : LogEntry := ⟨0, 0, 0, 0, 0, 0, 0, 0⟩
/-- Nothing is ordered at any scope. -/
def zeroOrd : List Nat := [0, 0, 0, 0, 0, 0, 0]
def Group.empty : Group :=
  ⟨0, 0, 0, 0, 16, [], Vector.replicate 64 none, [], zeroS, Vector.replicate 8 0, 0, 0, 0, [], [], [], none, false, false, 0, none,
   [], none, [], 0, 0, [], zeroOrd, zeroOrd, 0, [], 0, 0, true, false⟩
def Hdr.empty : Hdr := ⟨0, 0, 0, 16, 1, 1, 1, 1, 0, 0, 0, 0, 0, false, false, false⟩
def Barrier.empty : Barrier := ⟨0, [], 0, [], [], zeroOrd⟩
def Block.empty : Block :=
  { part := 0, task := 0, index := 0, member := 0, gang := 0, ldie := 0, core := 0, prio := 0, det := false, gdx := 0,
    gdy := 0, gdz := 0, args := 0, hdr := .empty, groups := [], pad := [], padAt := [], old := [], seed := 0, tags := [], undo := [],
    shapes := [], bar := .empty, barLog := [], cbarIn := [], passedCbar := false, queueAt := [], pushes := [], claims := [],
    launched := 0, placed := 0, saved := false, bank := [], entries := [], retired := true }
def Core.empty : Core := ⟨none, false, none, [], [], []⟩
def Cluster.empty : Cluster := ⟨[], [], none⟩
def StreamCtx.empty : StreamCtx := ⟨0, Vector.replicate 16 0, [], 0, false, Vector.replicate 64 none⟩
def Stream.empty : Stream :=
  ⟨.idle, .empty, 0, 0, 0, 0, 0, false, false, false, false, [], 0, []⟩
/-- A partition's registers at the reset values of R210, R212, R285, R367, R398, R400 (the rest by log entry 7). -/
def Part.empty : Part :=
  { en := false, link := 0, vecs := 0, reslvl := 0, maxprio := 0, aidq := 0, ptroot := 0, tlbinv := 0, invAt := 0, thandler := 0,
    elost := 0, free := [[], [], [], [], []], migcmd := 0, hwin := 0, attn := [0, 0, 0, 0, 0, 0, 0, 0], attaddr := 0,
    attgo := 0, attref := false, report := none, pxctl := 0, window := 0, timeout := 0, msix := [], scr := 0, frames := 0, dies := [], log := [],
    logSeq := 0, turn := 0 }
/-- DESIGN CHOICE (log entry 8): every core enabled, every die active, no budget. -/
def Die.reset : Die := ⟨.active, 2 ^ 40 - 1, false, 0, [0, 0, 0, 0], [], 0, 1, false⟩
/-- R394: epoch 1, no takeover; DESIGN CHOICE (log entry 9): eight active dies, die 0 leads. -/
def Firmware.reset : Firmware := ⟨false, [], 1, [0, 1, 2, 3, 4, 5, 6, 7], 0, true, false, none, [], [], none, [], []⟩
/-- DESIGN CHOICE (log entry 8): an SKG-8, stepping 0, alone in its domain (R16). -/
def PartConst.reset : PartConst := ⟨1, 8, 0, 0, [0], List.replicate 8 (2 ^ 40 - 1), List.replicate 64 0, 0⟩

/-- The identifier that stands for no entity in focus. -/
def nobody : Nat := 2 ^ 64
/-- The package right after reset: no firmware, no partition, no work; memory lists nothing. -/
def State.reset : State :=
  { const := .reset, powered := true, broken := false, now := 0, mem := [], hostMem := [], ecc := [], corrected := 0, vers := [],
    wclock := 0, wrote := [], hostWrote := [], ptes := [], dies := List.replicate 8 .reset, links := [true, true],
    sent := [], cpls := [], fw := .reset, loadWin := [],
    ident := false, akey := none, parts := [], streams := [], tasks := [], groups := [], blocks := [], gangs := [],
    cores := [], clusters := [], reqs := [], copies := [], sends := [], mirrors := [], layers := [], aids := [], gens := [],
    freeSlots := [], unused := 0, resol := [], migs := [], cp := .empty, cpId := nobody, cst := .empty, cstId := nobody,
    cb := .empty, cbId := nobody, cg := .empty, cgId := nobody, cc := .empty, ccId := nobody, turns := [], tick := 0, free := 0, nextId := 1 }

end Sys2Proof.Machine
end

