-- ==== Sys2Proof/Machine/Ops.lean ====
section
/-! DEFINITION. The named operations over memory, scratchpad, translation, logs, groups, traps and the trap handler that
the meanings share. -/

namespace Sys2Proof.Machine

/-- The outcome of a step of this machine. -/
abbrev Out := Host.Outcome State Fault Refusal

/-! ## Free values -/

/-- The k-th free number of this step (log entry 2). -/
def State.freeAt (s : State) (k : Nat) : Nat := Config.freeNat (s.free + k)
/-- The k-th free word of this step. -/
def State.freeWord (s : State) (k : Nat) : Word := BitVec.ofNat 32 (s.freeAt k)
/-- The k-th free byte of this step. -/
def State.freeByte (s : State) (k : Nat) : Byte := BitVec.ofNat 8 (s.freeAt k)
/-- Go past the free numbers a step may have used. -/
def State.spend (s : State) (n : Nat) : State := { s with free := s.free + n }

/-- Cycles in a microsecond: the clock runs at 1.000 GHz (R13, R4). -/
def usec : Nat := 1000

/-! ## Focus: the entities the step in progress acts for

While an entity is in focus its copy is the one that counts; `sync` writes the copies back and `commit` also ends the
focus. -/

/-- A table entry, or its copy where it is in focus. -/
def pick {α : Type} (t : Tab α) (id focus : Nat) (copy : α) : Option α := if id = focus then some copy else t.find id
def State.part (s : State) (p : Nat) : Option Part := pick s.parts p s.cpId s.cp
def State.group (s : State) (g : Nat) : Option Group := pick s.groups g s.cgId s.cg
def State.block (s : State) (b : Nat) : Option Block := pick s.blocks b s.cbId s.cb
def State.core (s : State) (c : Nat) : Core := (pick s.cores c s.ccId s.cc).getD .empty
def State.stream (s : State) (k : Nat) : Option Stream := pick s.streams k s.cstId s.cst
def State.updPart (s : State) (p : Nat) (f : Part → Part) : State :=
  if p = s.cpId then { s with cp := f s.cp } else { s with parts := s.parts.upd p f }
def State.updGroup (s : State) (g : Nat) (f : Group → Group) : State :=
  if g = s.cgId then { s with cg := f s.cg } else { s with groups := s.groups.upd g f }
def State.updBlock (s : State) (b : Nat) (f : Block → Block) : State :=
  if b = s.cbId then { s with cb := f s.cb } else { s with blocks := s.blocks.upd b f }
def State.updCore (s : State) (c : Nat) (f : Core → Core) : State :=
  if c = s.ccId then { s with cc := f s.cc } else { s with cores := s.cores.ins c (f (s.core c)) }
def State.updStream (s : State) (k : Nat) (f : Stream → Stream) : State :=
  if k = s.cstId then { s with cst := f s.cst } else { s with streams := s.streams.upd k f }
def State.updTask (s : State) (t : Nat) (f : Task → Task) : State := { s with tasks := s.tasks.upd t f }

/-- Write one copy back, if its entity is in focus. -/
def put {α : Type} (t : Tab α) (focus : Nat) (copy : α) : Tab α := if focus = nobody then t else t.ins focus copy
/-- Write the copies back into the tables. -/
def State.sync (s : State) : State :=
  { s with groups := put s.groups s.cgId s.cg, blocks := put s.blocks s.cbId s.cb, parts := put s.parts s.cpId s.cp,
           cores := put s.cores s.ccId s.cc, streams := put s.streams s.cstId s.cst }
/-- Write the copies back and end the focus: the copies are empty again. -/
def State.commit (s : State) : State :=
  { s.sync with cgId := nobody, cbId := nobody, cpId := nobody, ccId := nobody, cstId := nobody, cg := .empty, cb := .empty,
                cp := .empty, cc := .empty, cst := .empty }

/-- Take a group, its block, partition and core as the current ones. -/
def State.focus (s : State) (g : Nat) : Option State :=
  match s.groups.find g with
  | none => none
  | some G =>
    match s.blocks.find G.blk with
    | none => none
    | some B =>
      match s.parts.find G.part with
      | none => none
      | some P => some { s with cg := G, cgId := g, cb := B, cbId := G.blk, cp := P, cpId := G.part,
                                cc := (s.cores.find B.core).getD .empty, ccId := B.core }

/-- A step of the device for one group; where the group is gone, or saved (R379), the step is not taken (log entry 11). -/
def State.onGroup (s : State) (g : Nat) (f : State → State) : State :=
  match s.focus g with
  | some t => if t.cb.saved then s else (f t).commit
  | none => s

/-- Take a stream and its partition as the current ones. -/
def State.focusStream (s : State) (part k : Nat) : Option State :=
  match s.parts.find part, s.streams.find (part * 16 + k) with
  | some P, some S => some { s with cp := P, cpId := part, cst := S, cstId := part * 16 + k }
  | _, _ => none
def State.onStream (s : State) (part k : Nat) (f : State → State) : State :=
  match s.focusStream part k with
  | some t => (f t).commit
  | none => s

/-- Take a fresh identifier for a table entry. -/
def State.newId (s : State) : Nat × State := (s.nextId, { s with nextId := s.nextId + 1 })

/-! ## Dies and cores -/

def State.die (s : State) (d : Nat) : Die := (s.dies[d]?).getD .reset
/-- A die whose memory and units do not answer: it has failed, or has stopped and has not been declared failed yet (R386). -/
def Die.down (d : Die) : Bool := d.state == .failed || d.lost
def State.updDie (s : State) (d : Nat) (f : Die → Die) : State := { s with dies := s.dies.modify d f }
def coreDie (core : Nat) : Nat := core / 64
def corePhys (core : Nat) : Nat := core % 64
/-- The cluster of a core: physical core p is in cluster p div 4 (R120). -/
def coreCluster (core : Nat) : Nat := coreDie core * 16 + corePhys core / 4
/-- The enabled physical cores of a die in ascending order: LCMAP (R121). -/
def enabledCores (mask : Nat) : List Nat := (List.range 40).filter fun p => bit mask p
/-- The logical core number of a physical core (R121). -/
def State.logicalCore (s : State) (core : Nat) : Nat :=
  ((enabledCores (s.die (coreDie core)).enabled).findIdx? fun p => p == corePhys core).getD 0
def State.cluster (s : State) (c : Nat) : Cluster := (s.clusters.find c).getD .empty
/-- The physical die of a logical die of a partition (R11). -/
def Part.physDie (p : Part) (d : Nat) : Nat := (p.dies[d]?).getD 0
/-- The logical die number of a physical die in a partition. -/
def Part.logicalDie (p : Part) (d : Nat) : Option Nat := p.dies.findIdx? fun x => x == d

/-! ## The error log (R375, R376) -/

/-- Record an entry; a full log drops it and counts the loss. -/
def Part.record (p : Part) (e : LogEntry) : Part :=
  let n := (p.logSeq + 1) % 2 ^ 32
  if p.log.length < 256 then { p with log := p.log ++ [{ e with seq := n }], logSeq := n }
  else { p with elost := (p.elost + 1) % 2 ^ 32, logSeq := n }

/-- AGENT of a log entry, and SENDER of a slot header: logical die, logical core, group place (R376, R288). -/
def agentCode (ldie lcore place : Nat) : Nat := ldie * 2 ^ 11 + lcore % 64 * 2 ^ 5 + place % 32
def noAgent : Nat := 0x3FFF
def noPc : Nat := 0xFFFF_FFFF

def State.groupAgent (s : State) (g : Group) : Nat :=
  match s.block g.blk with
  | some b => agentCode b.ldie (s.logicalCore b.core) g.place
  | none => noAgent

def State.logPart (s : State) (p : Nat) (e : LogEntry) : State := s.updPart p fun P => P.record e

/-! ## Device memory (R14, R317) -/

def lineOf (pa : Nat) : Nat := pa / 128
/-- A committed byte of device memory; unlisted addresses read 0 (log entry 4). -/
def State.devByte (s : State) (pa : Nat) : Byte := Cells.read 0 s.mem pa
/-- Committed bytes of device memory. -/
def State.devBytes (s : State) (pa n : Nat) : List Byte := tab n fun i => s.devByte (pa + i)
def State.hostByte (s : State) (link ba : Nat) : Byte := Cells.read 0 s.hostMem (link * 2 ^ 64 + ba)
def State.hostBytes (s : State) (link ba n : Nat) : List Byte := tab n fun i => s.hostByte link (ba + i)
/-- The speculative versions of a line, oldest first. -/
def State.versions (s : State) (line : Nat) : List Version := (s.vers.find line).getD []
/-- The newest version, if there is one (R337). -/
def State.newest (s : State) (line : Nat) : Option Version := (s.versions line).getLast?
/-- What a read of a group sees, and the set it carries (R337). -/
def State.readNewest (s : State) (pa n : Nat) : List Byte × ASet :=
  match s.newest (lineOf pa) with
  | some v => ((v.bytes.drop (pa % 128)).take n, v.set)
  | none => (s.devBytes pa n, [])

/-- The writer that lies only in scopes from the package on: the Loupe, a front end or firmware. -/
def Agent.unit : Agent := ⟨nobody, nobody, nobody, nobody, nobody, nobody, false⟩
def Agent.theHost : Agent := { Agent.unit with host := true }
/-- A unit's write for a partition. -/
def Agent.forPart (p : Nat) : Agent := { Agent.unit with part := p }
/-- A write of the host through a partition's window or registers: where it reaches host memory it carries that partition's
requester ID (R395). -/
def Agent.hostOf (p : Nat) : Agent := { Agent.theHost with part := p }
/-- A write joins what was written to a byte; beneath the first one stands the value the byte had (R262, R299). -/
def Wr.onto (w : Wr) (old : Byte) (hist : List Wr) : List Wr :=
  w :: if hist.isEmpty then [⟨0, .unit, old, .plain⟩] else hist
/-- Write the bytes that are given at a device address into the committed data, with their place in write order. -/
def State.writeDev (s : State) (pa : Nat) (by_ : Agent) : List (Option Byte) → State
  | [] => s
  | none :: ds => s.writeDev (pa + 1) by_ ds
  | some b :: ds =>
    let w : Wr := ⟨s.wclock + 1, by_, b, .plain⟩
    let t := { s with mem := Cells.write 0 s.mem pa b,
                      wrote := s.wrote.ins pa (w.onto (s.devByte pa) ((s.wrote.find pa).getD [])) }
    t.writeDev (pa + 1) by_ ds

/-- Lay bytes over 128 bytes from an offset. -/
def overlay (line : List Byte) (off : Nat) (data : List (Option Byte)) : List Byte :=
  tab line.length fun i =>
    if i < off then line.getD i 0 else match data[i - off]? with
      | some (some b) => b
      | _ => line.getD i 0
/-- The bytes of a line that data covers gain a write. -/
def recordWrites (hist : List (List Wr)) (line : List Byte) (off at_ : Nat) (by_ : Agent) (data : List (Option Byte)) : List (List Wr) :=
  tab line.length fun i =>
    let h := hist.getD i []
    if i < off then h else match data[i - off]? with
      | some (some b) => (Wr.mk at_ by_ b .plain).onto (line.getD i 0) h
      | _ => h
/-- A version with a write laid over it. -/
def Version.over (v : Version) (off at_ : Nat) (by_ : Agent) (data : List (Option Byte)) : Version :=
  { v with bytes := overlay v.bytes off data, hist := recordWrites v.hist v.bytes off at_ by_ data }
/-- What was written to a byte, as a reader sees it, newest first. -/
def State.histOf (s : State) (pa : Nat) : List Wr :=
  match s.newest (lineOf pa) with
  | some v => v.hist.getD (pa % 128) []
  | none => (s.wrote.find pa).getD []

/-- Store bytes in host memory; a device's access carries its partition's requester ID (R317, R395). -/
def State.hostPut (s : State) (link ba : Nat) (by_ : Agent) : List (Option Byte) → State
  | [] => s
  | none :: ds => s.hostPut link (ba + 1) by_ ds
  | some b :: ds =>
    let k := link * 2 ^ 64 + ba
    let w : Wr := ⟨s.wclock + 1, by_, b, .plain⟩
    let t := { s with hostMem := Cells.write 0 s.hostMem k b,
                      hostWrote := s.hostWrote.ins k (w.onto (s.hostByte link ba) ((s.hostWrote.find k).getD [])) }
    t.hostPut link (ba + 1) by_ ds
/-- One write of host memory. -/
def State.writeHost (s : State) (link ba : Nat) (by_ : Agent) (data : List (Option Byte)) : State :=
  { s.hostPut link ba by_ data with wclock := s.wclock + 1 }

/-- The failing ECC words among the bytes of an access (R234, R235). -/
def State.eccHits (s : State) (pa n : Nat) : List (Nat × Ecc) := s.ecc.filter fun (w, _) => pa / 32 ≤ w && w * 32 < pa + n
/-- An access's bytes hold a word whose data cannot be read. -/
def State.eccLost (s : State) (pa n : Nat) : Bool := (s.eccHits pa n).any fun x => x.2 == .lasting
/-- A read meets one failing word: a single-bit error is corrected and counted; a transient one is logged, and the retry's
data is used (R235). -/
def State.eccMeet (s : State) (part : Nat) (entry : LogEntry) (x : Nat × Ecc) : State :=
  match x.2 with
  | .single => { s with ecc := s.ecc.filter fun y => y != x, corrected := s.corrected + 1 }
  | .transient => { s.logPart part entry with ecc := s.ecc.filter fun y => y != x }
  | .lasting => s
/-- A read of device memory meets the ECC words it touches (R235): false where one has failed for good, whose log entry is
the requester's. -/
def State.eccRead (s : State) (part agent pc va pa n : Nat) : Bool × State :=
  (!s.eccLost pa n, (s.eccHits pa n).foldl (fun t x => t.eccMeet part ⟨1, 0, 0, agent, va, pa, pc, 0⟩ x) s)
/-- The bytes of a store that leave an ECC word partly covered (R234). -/
def partWord (pa : Nat) (data : List (Option Byte)) (w : Nat) : Bool :=
  !((List.range 32).all fun i => pa ≤ w * 32 + i && ((data[w * 32 + i - pa]?).getD none).isSome)
/-- Some byte of the word is written. -/
def coversWord (pa : Nat) (data : List (Option Byte)) (w : Nat) : Bool :=
  (List.range 32).any fun i => pa ≤ w * 32 + i && ((data[w * 32 + i - pa]?).getD none).isSome
/-- The words whose read-modify-write a store needs: those it covers in part (R234). -/
def State.rmwHits (s : State) (pa : Nat) (data : List (Option Byte)) : List (Nat × Ecc) :=
  (s.eccHits pa data.length).filter fun x => partWord pa data x.1 && coversWord pa data x.1
/-- Data without the bytes of the words whose read fails for good: those words keep what the array holds (R236). -/
def State.keepWords (s : State) (pa : Nat) (data : List (Option Byte)) : List (Option Byte) :=
  let bad := (s.rmwHits pa data).filter fun x => x.2 == .lasting
  if bad.isEmpty then data else (data.zipIdx).map fun (b, i) => if bad.any fun x => x.1 == (pa + i) / 32 then none else b
/-- The read-modify-writes of a store: whether all were performed, and the state after their reads (R235, R236). -/
def State.rmw (s : State) (part agent pc va pa : Nat) (data : List (Option Byte)) : Bool × State :=
  let hits := s.rmwHits pa data
  (!hits.any fun x => x.2 == .lasting, hits.foldl (fun t x => t.eccMeet part ⟨1, 0, 0, agent, va, pa, pc, 0⟩ x) s)
/-- The log entry of a lasting error that no group's trap context records (R235). -/
def lastingEntry (agent pc va pa : Nat) : LogEntry := ⟨2, 0x07, 0, agent, va, pa, pc, 0⟩

/-! ## Translation (R203, R208 to R210, R214, R215) -/

/-- A device physical address that exists: its package is in the domain, its die is in that package, and it lies in the
die's 384 GiB; a spare die owns no pages (R11). -/
def State.paOk (s : State) (pa : Nat) : Bool :=
  pa / 2 ^ 48 == 0 && s.const.pkgs.contains (bits pa 47 42) && pa % 2 ^ 39 < 384 * 2 ^ 30 &&
  (bits pa 47 42 != s.const.pkg || (bits pa 41 39 < s.const.dies && (s.die (bits pa 41 39)).state != .spare))
/-- The physical die that is home to a device address of this package. -/
def paDie (pa : Nat) : Nat := bits pa 41 39

/-- The levels of a walk with their index: bits and the level's page size (R208). -/
def walkLevels : List (Nat × Nat × Nat) :=
  [(4, 48, 9), (3, 39, 9), (2, 30, 9), (1, 25, 5), (0, 16, 9)]

/-- The size of the table that the next level reads: its alignment (R208). -/
def nextTable : List (Nat × Nat × Nat) → Nat
  | (_, _, w) :: _ => 8 * 2 ^ w
  | [] => 1
/-- An entry as the walkers know it: the one they keep, or what memory holds (R211). -/
def State.pteAt (s : State) (part a : Nat) : Nat :=
  match s.ptes.find? fun p => p.part == part && p.at_ == a with
  | some p => p.val
  | none => ofBytes (s.devBytes a 8)
def State.pteKept (s : State) (part a : Nat) : Bool := s.ptes.any fun p => p.part == part && p.at_ == a
/-- One level after another: the entries read, and what the walk finds (R208, R209). A malformed entry is
reported only when no lower level has V = 0 (R214). -/
def State.walkFrom (s : State) (part va table : Nat) (bad : Bool) : List (Nat × Nat × Nat) → List Pte × Walk
  | [] => ([], .protection)
  | (lvl, sh, w) :: rest =>
    let a := table + 8 * (va / 2 ^ sh % 2 ^ w)
    let e := s.pteAt part a
    let padr := bits e 51 8 * 256
    let one : Pte := ⟨part, a, e, va / 2 ^ sh * 2 ^ sh, 2 ^ sh, bit e 5⟩
    if !s.pteKept part a && ((s.die (bits a 41 39)).down || s.eccLost a 8) then ([], .error a)
    else if !bit e 0 then ([one], .notPresent)
    else
      let res := bad || bits e 63 52 != 0 || bits e 4 3 != 0
      if bit e 5 then
        ([one], if res || lvl > 1 || bits e 7 6 > 1 || padr % 2 ^ sh != 0 || (bits e 7 6 == 0 && !s.paOk padr) then .protection
          else .leaf ⟨part, va / 2 ^ sh * 2 ^ sh, 2 ^ sh, padr, bits e 7 6 == 1, bit e 1, bit e 2⟩)
      else if lvl == 0 || padr % Nat.max 256 (nextTable rest) != 0 || !s.paOk padr || bits padr 47 42 != s.const.pkg then
        ([one], .protection)
      else
        let r := s.walkFrom part va padr (res || bits e 7 6 != 0 || bits e 2 1 != 0) rest
        (one :: r.1, r.2)

/-- A walk of a partition's page table, with the entries it reads (R208 to R210). -/
def State.walkSteps (s : State) (part va : Nat) : List Pte × Walk :=
  match s.part part with
  | none => ([], .notPresent)
  | some P =>
    if va / 2 ^ 57 != 0 then ([], .protection)
    else if !P.ptroot.getLsbD 0 then ([], .notPresent)
    else
      let root := bits P.ptroot.toNat 51 12 * 4096
      if !s.paOk root || bits root 47 42 != s.const.pkg then ([], .protection)
      else s.walkFrom part va root false walkLevels
def State.walk (s : State) (part va : Nat) : Walk := (s.walkSteps part va).2
/-- The physical address of the entry at which a walk fails to read (R235), or 0. -/
def State.walkFault (s : State) (part va : Nat) : Nat := match s.walk part va with
  | .error a => a
  | _ => 0
/-- The reads of a walk made now meet their ECC words (R235), and the walkers keep the entries with V = 1 (R211). -/
def State.keepWalk (s : State) (part va : Nat) : State :=
  let new := (s.walkSteps part va).1.filter fun p => !s.pteKept part p.at_
  new.foldl (fun t p => { (t.eccRead part noAgent noPc va p.at_ 8).2 with ptes := if bit p.val 0 then t.ptes ++ [p] else t.ptes }) s

def Leaf.covers (l : Leaf) (part va : Nat) : Bool := l.part == part && l.vbase ≤ va && va < l.vbase + l.size

/-- The scratchpad window (R204). -/
def Part.inWindow (p : Part) (va : Nat) : Bool := p.scr ≤ va && va < p.scr + 512 * 1024
/-- The frame window (R419). -/
def Part.inFrames (p : Part) (va : Nat) : Bool := p.frames ≤ va && va < p.frames + 64 * 1024
/-- A range overlaps the frame window. -/
def Part.meetsFrames (p : Part) (va n : Nat) : Bool := va < p.frames + 64 * 1024 && p.frames < va + n
/-- The pages that a value of TLBINV names (R212). -/
def invRange (v : Nat) : Nat × Nat :=
  let va := bits v 56 16 * 2 ^ 16
  match bits v 3 2 with
  | 0 => (va, 2 ^ 16)
  | 1 => (va / 2 ^ 25 * 2 ^ 25, 2 ^ 25)
  | _ => (0, 2 ^ 57)
def inRange (r : Nat × Nat) (va : Nat) : Bool := r.1 ≤ va && va < r.1 + r.2
/-- Either window, which no agent but a group reaches (R205, R419). -/
def Part.refused (p : Part) (va n : Nat) : Bool :=
  (va < p.scr + 512 * 1024 && p.scr < va + n) || p.meetsFrames va n

/-- Where a location stands now: a page that has moved is at its new home, to which an access that the old home turned
away goes (R216, R217). -/
def State.movedLoc (s : State) (loc : Loc) : Loc :=
  s.migs.foldl (fun l m => match l with
    | .dev pa => if m.switched && m.old ≤ pa && pa < m.old + m.size then .dev (m.new + (pa - m.old)) else l
    | l => l) loc
/-- The old home holds newly arriving requests for a location: its page is in the final phase (R216). -/
def State.heldPage (s : State) (loc : Loc) : Bool :=
  match loc with
  | .dev pa => s.migs.any fun m => m.old ≤ pa && pa < m.old + m.size && m.final && !m.switched
  | _ => false
/-- The location a leaf gives an address. -/
def Leaf.loc (l : Leaf) (link va : Nat) : Loc :=
  if l.host then .host link (l.pbase + (va - l.vbase)) else .dev (l.pbase + (va - l.vbase))
/-- An access by the Loupe, a front end, an engine, Mirror, Prism, a distributor or the host: the checks of R205 and
R214 other than alignment, through the page table as the walkers know it; answers the location or the cause. -/
def State.reach (s : State) (part va n : Nat) (needR needW : Bool) : Except Nat Loc :=
  match s.part part with
  | none => .error 0x05
  | some P =>
    if va / 2 ^ 57 != 0 || P.refused va n then .error 0x06
    else match s.walk part va with
      | .notPresent => .error 0x05
      | .protection => .error 0x06
      | .error _ => .error 0x07
      | .leaf l => if (needR && !l.r) || (needW && !l.w) then .error 0x06 else .ok (s.movedLoc (l.loc P.link va))

/-- A die whose memory answers (R386): a home on a die that has stopped gives an error response. -/
def State.homeUp (s : State) : Loc → Bool
  | .dev pa => bits pa 47 42 != s.const.pkg || !(s.die (paDie pa)).down
  | .host link _ => (s.links[link]?).getD false
  | _ => true

/-- The host reaches a partition's registers and window: the partition exists and its link is up (R396, R401). -/
def State.hostReach (s : State) (part : Nat) : Bool :=
  match s.part part with
  | some P => P.en && (s.links[P.link]?).getD false
  | none => false

/-- An access of such an agent fails with a cause: where its walk met an entry that cannot be read, the log records it
(R235). -/
def State.logWalk (s : State) (part va cause : Nat) : State :=
  if cause == 0x07 then s.logPart part (lastingEntry noAgent noPc va (s.walkFault part va)) else s
/-- A read of committed data by such an agent, whole within a line: bytes, or the cause of its failure (R341). -/
def State.readAs (s : State) (part va n : Nat) : Except Nat (List Byte) × State :=
  let k := s.keepWalk part va
  match s.reach part va n true false with
  | .error c => (.error c, k.logWalk part va c)
  | .ok loc =>
    if !s.homeUp loc then (.error 0x07, k)
    else match loc with
      | .dev pa => match k.eccRead part noAgent noPc va pa n with
        | (true, t) => (.ok (s.devBytes pa n), t)
        | (false, t) => (.error 0x07, t.logPart part (lastingEntry noAgent noPc va pa))
      | .host link ba => (.ok (s.hostBytes link ba n), k)
      | _ => (.error 0x06, k)

/-- A read of committed data in pieces that no line boundary crosses: `n` bytes from a multiple of 8 or 16. -/
def State.readLong (s : State) (part va : Nat) (step : Nat) : Nat → List Byte × Option (Nat × Nat) × State
  | 0 => ([], none, s)
  | k + 1 =>
    match s.readAs part va step with
    | (.error c, t) => ([], some (c, va), t)
    | (.ok bs, t) => match t.readLong part (va + step) step k with
      | (rest, e, u) => (bs ++ rest, e, u)

/-! ## Footprint regions (R76) -/

/-- Some row of region b shares a byte with [a, a + n). -/
def Region.hits (b : Region) (a n : Nat) : Bool :=
  let base := b.buf.base + b.off
  if a + n ≤ base then false
  else if b.stride == 0 then a < base + b.len
  else
    let first := if a < base + b.len then 0 else (a - base - b.len) / b.stride + 1
    first ≤ Nat.min ((a + n - 1 - base) / b.stride) (b.rows - 1)

/-! ## Scratchpad (R204 to R206, R339) -/

/-- A block's allocation: SCRATCH rounded up to a multiple of 1 KiB (R204). -/
def Hdr.alloc (h : Hdr) : Nat := ceilDiv h.scratch 1024 * 1024
/-- What a byte that the block has not written holds: a free choice among the values that earlier blocks of the partition
left on the core, or the zero to which the core was cleared (R206). -/
def leftByte (seed : Nat) (old : List Byte) (a : Nat) : Byte :=
  match old with
  | [] => 0
  | _ => (old[Config.freeNat (seed + a) % old.length]?).getD 0
def Block.padByte (b : Block) (a : Nat) : Byte := (b.pad.find a).getD (leftByte b.seed b.old a)
def Block.padBytes (b : Block) (off n : Nat) : List Byte := tab n fun i => b.padByte (off + i)
/-- The values a block leaves behind in its scratchpad, the zero of bytes that no block has written among them (R206). -/
def Block.leaves (b : Block) : List Byte := (0 :: b.old ++ b.pad.map (·.2)).eraseDups
/-- A block leaves its core. -/
def Core.keepLeft (c : Core) (b : Block) : Core := { c with left := (c.left ++ b.leaves).eraseDups }
/-- The tag of a scratchpad line (R339). -/
def Block.tag (b : Block) (line : Nat) : ASet := (b.tags.find line).getD []
/-- The image of a line for an undo entry. -/
def Block.lineImage (b : Block) (line : Nat) : List (Option Byte) := tab 128 fun i => b.pad.find (line * 128 + i)
/-- Whether a write with a set needs an undo entry (R339). -/
def Block.needsUndo (b : Block) (line : Nat) (set : ASet) : Bool :=
  !(subset set (b.tag line) && subset (b.tag line) set) && !(set.isEmpty && (b.tag line).isEmpty)

/-- Put bytes in place, each with its place in write order. -/
def Block.putBytes (b : Block) (off : Nat) (w : Wr) : List (Option Byte) → Block
  | [] => b
  | none :: ds => b.putBytes (off + 1) w ds
  | some v :: ds =>
    Block.putBytes { b with pad := b.pad.ins off v,
                            padAt := b.padAt.ins off ({ w with val := v }.onto (b.padByte off) ((b.padAt.find off).getD [])) }
      (off + 1) w ds

/-- A write of bytes within one scratchpad line with a set U: an undo entry first where U differs from the line's tag
(R339). -/
def Block.padWrite (b : Block) (off : Nat) (data : List (Option Byte)) (set : ASet) (w : Wr) : Block :=
  let line := off / 128
  let b1 := if b.needsUndo line set then
      { b with undo := b.undo ++ [⟨line, set, b.tag line, b.lineImage line, tab 128 fun i => b.padAt.find (line * 128 + i), none⟩],
               tags := b.tags.ins line set }
    else b
  b1.putBytes off w data

/-- The undo entries that a granted pass of a core has reserved and not yet used (R265). -/
def State.undoReserved (s : State) (core : Nat) : Nat :=
  (s.clusters.map fun (_, c) => match c.pass with
    | some e => if e.core == core then e.room.length else 0
    | none => 0).foldl (· + ·) 0
/-- A request is over: performed, or failed. -/
def ReqStatus.over_ : ReqStatus → Bool
  | .done | .failed _ => true
  | _ => false
def ReqKind.isWrite : ReqKind → Bool
  | .store _ | .atomic _ _ _ => true
  | _ => false
/-- The undo entry that a write on its way to a scratchpad line of a core will need, if any: block, line and set. Whether a
write that waits for its group's reads will need one is not known yet. -/
def State.undoWant (s : State) (core : Nat) (q : Req) : Option (Nat × Nat × ASet) :=
  match q.loc with
  | .pad b off =>
    if !q.kind.isWrite || q.status.over_ then none
    else (s.blocks.find b).bind fun B =>
      if B.core == core && (!q.wait.isEmpty || B.needsUndo (off / 128) (union q.set (B.tag (off / 128)))) then
        some (b, off / 128, q.set) else none
  | _ => none
/-- The undo entries that the writes on their way to a core's scratchpad will need: each had its entry when its word issued
(R339). -/
def State.undoPending (s : State) (core : Nat) : Nat := ((s.reqs.filterMap fun (_, q) => s.undoWant core q).eraseDups).length
/-- Undo entries in use, or reserved by a pass, on a core: 256 serve its blocks; those of shape slots do not count (R265,
R339). -/
def State.undoTaken (s : State) (core : Nat) : Nat :=
  (s.blocks.map fun (_, b) => if b.core == core && !b.saved then (b.undo.filter fun u => u.slot.isNone).length else 0).foldl
    (· + ·) 0 + s.undoReserved core
/-- Undo entries that are not free for a further word. -/
def State.undoUsed (s : State) (core : Nat) : Nat := s.undoTaken core + s.undoPending core

/-! ## Groups: lanes (R154, R155) -/

/-- The lane PCs the group issues over: the handler's while it runs (R369). -/
def Group.curPcs (g : Group) : List (Option Word) :=
  match g.handler with
  | some h => h.pcs
  | none => g.pcs
/-- The least PC of a list. -/
def leastPc : List (Option Word) → Option Word
  | [] => none
  | none :: l => leastPc l
  | some a :: l => match leastPc l with
    | none => some a
    | some b => some (if a ≤ b then a else b)
/-- The issue address (R155). -/
def Group.ia (g : Group) : Word := (leastPc g.curPcs).getD 0xFFFF_FFFF
/-- Lane l executes: it is live and its PC is the issue address. -/
def Group.ex (g : Group) (l : Nat) : Bool := g.curPcs.getD l none == some g.ia
/-- Lane l is live. -/
def Group.liveLane (g : Group) (l : Nat) : Bool := (g.curPcs.getD l none).isSome
def Group.exLanes (g : Group) : List Nat := (List.range g.width).filter g.ex
def Group.liveLanes (g : Group) : List Nat := (List.range g.width).filter g.liveLane
/-- A set of lanes as bits. -/
def laneMask (ls : List Nat) : Nat := ls.foldl (fun m l => Nat.lor m (2 ^ l)) 0
def Group.setPcs (g : Group) (pcs : List (Option Word)) : Group :=
  match g.handler with
  | some h => { g with handler := some { h with pcs := pcs } }
  | none => { g with pcs := pcs }
/-- Every executing lane goes where f says; the others keep their PCs (R155, R161). -/
def Group.jump (g : Group) (f : Nat → Word) : Group :=
  g.setPcs (tab g.width fun l => if g.ex l then some (f l) else g.curPcs.getD l none)
/-- Code object base of the words the group issues. -/
def State.codeBase (s : State) : Nat :=
  match s.cg.handler with
  | some h => h.base
  | none => s.cb.hdr.base
def State.codeSize (s : State) : Nat :=
  match s.cg.handler with
  | some h => h.size
  | none => s.cb.hdr.size

/-! ## Groups: registers (R128 to R146) -/

def Group.inH (g : Group) : Bool := g.handler.isSome
/-- A physical register by number: the k-th that serves name r. No two names share one (R135). -/
def regNo (r k : Nat) : Nat := r + 64 * k
/-- The physical register of a v name (R135). -/
def Group.mapOf (g : Group) (r : Nat) : Option Nat := ((g.vmap[r]?).getD none).map (regNo r)
/-- The physical registers that a map of the 64 names holds. -/
def regsOf (m : Vector (Option Nat) 64) : List Nat := m.toList.zipIdx.filterMap fun x => x.1.map (regNo x.2)
def Dest.vNames : Dest → List Nat
  | .v names _ _ => names
  | _ => []
def Dest.sNames : Dest → List Nat
  | .s names => names
  | _ => []
def Dest.phys : Dest → List Nat
  | .v _ phys _ => phys
  | _ => []
def Dest.writes : Dest → Bool
  | .none => false
  | _ => true
/-- A v name has a variable-latency write outstanding (R144). -/
def Group.pendV (g : Group) (r : Nat) : Bool :=
  g.out.any fun f => f.bank == g.inH && !f.drop && f.dest.vNames.contains r
def Group.pendS (g : Group) (r : Nat) : Bool :=
  g.out.any fun f => f.bank == g.inH && !f.drop && f.dest.sNames.contains r
/-- Some variable-latency write of the group is outstanding (R145). -/
def Group.vlOut (g : Group) : Bool := g.out.any fun f => f.dest.writes
/-- The group is parked: on a condition, or under a switch marker (R8, R145). -/
def Group.parked (g : Group) : Bool := g.park.isSome || (g.mark && g.vlOut)
/-- Reads of the group that have not returned: what it issues meanwhile is held (R336). -/
def Group.readsOut (g : Group) : List Nat := (g.out.filter fun f => f.hold.isSome).map (·.seq)

/-- A v name reads as undefined: unallocated, or its write is outstanding (R138, R144). The handler's v0 to v7 are never
allocated or freed (R369). -/
def Group.undefV (g : Group) (r : Nat) : Bool := g.pendV r || (!g.inH && (g.mapOf r).isNone)

/-- A vector register in a lane: its value, or a free value where it reads as undefined. -/
def State.rdV (s : State) (r l : Nat) : Word :=
  if s.cg.undefV r then s.freeWord (r * 64 + l)
  else match s.cg.handler with
    | some h => (h.v.getD r []).getD l 0
    | none => (((s.cg.mapOf r).bind fun p => s.cg.phys.find p).getD []).getD l 0

/-- A uniform register: its value, or a free value while its write is outstanding (R129, R144). -/
def State.rdS (s : State) (r : Nat) : Word :=
  if s.cg.pendS r then s.freeWord (4096 + r)
  else match s.cg.handler with
    | some h => (h.s[r]?).getD 0
    | none => (s.cg.s[r]?).getD 0

/-- A 64-bit value in an even s pair (R127). -/
def State.rdS64 (s : State) (r : Nat) : Nat := (s.rdS r).toNat + 2 ^ 32 * (s.rdS (r + 1)).toNat
/-- A 64-bit value in an even v pair. -/
def State.rdV64 (s : State) (r l : Nat) : Nat := (s.rdV r l).toNat + 2 ^ 32 * (s.rdV (r + 1) l).toNat
/-- A bit of a predicate; p0 reads all-true (R130). -/
def State.rdP (s : State) (p l : Nat) : Bool := p == 0 || ((s.cg.p[p]?).getD 0).getLsbD l

def Group.putSRaw (g : Group) (r : Nat) (v : Word) : Group :=
  match g.handler with
  | some h => { g with handler := some { h with s := h.s.setIfInBounds r v } }
  | none => { g with s := g.s.setIfInBounds r v }
/-- A word writes a name: its flights must no longer (R144). -/
def spoil (l : List Flight) (isS : Bool) (bank : Bool) (r seq : Nat) : List Flight :=
  l.map fun f => if f.bank == bank && (if isS then f.dest.sNames else f.dest.vNames).contains r then
    { f with spoiled := (r, seq) :: f.spoiled } else f
/-- A word issued before a point has written the name. -/
def Flight.spoiltBy (f : Flight) (r point : Nat) : Bool := f.spoiled.any fun x => x.1 == r && x.2 < point
/-- A free value of up to 128 bits. -/
def State.freeWide (s : State) (k : Nat) : Nat := sumTo 4 fun i => (s.freeWord (k + 64 * i)).toNat * 2 ^ (32 * i)
/-- Write a uniform register; while an earlier write of the name is outstanding it becomes undefined (R144). -/
def State.wrS (s : State) (r : Nat) (v : Word) : State :=
  if s.cg.pendS r then
    { s with cg := { s.cg.putSRaw r (s.freeWord (4160 + r)) with out := spoil s.cg.out true s.cg.inH r s.cg.seq } }
  else { s with cg := s.cg.putSRaw r v }
def State.wrS64 (s : State) (r : Nat) (v : Nat) : State :=
  (s.wrS r (BitVec.ofNat 32 v)).wrS (r + 1) (BitVec.ofNat 32 (v / 2 ^ 32))
/-- Write a predicate in the lanes given; a write of p0 is discarded (R130). -/
def Group.wrP (g : Group) (p : Nat) (lanes : Nat → Bool) (v : Nat → Bool) : Group :=
  if p = 0 then g
  else { g with p := g.p.setIfInBounds p (BitVec.ofNat 64 (laneMask ((List.range 64).filter fun l =>
    if lanes l then v l else ((g.p[p]?).getD 0).getLsbD l))) }

/-- The physical registers that snapshots hold. -/
def Snap.phys (n : Snap) : List Nat := regsOf n.vmap
def Group.snapPhys (g : Group) : List Nat := g.snaps.flatMap Snap.phys
/-- The physical registers that provisional holds keep (R336). -/
def Group.holdPhys (g : Group) : List Nat := g.out.flatMap fun f => (f.hold.map Snap.phys).getD []
def Group.mapped (g : Group) : List Nat := regsOf g.vmap
/-- live (R135). -/
def Group.live (g : Group) : Nat := g.mapped.length
/-- retained (R135): physical registers that only snapshots or provisional holds keep. -/
def Group.retained (g : Group) : Nat :=
  (List.filter (fun (p, _) => !g.mapped.contains p && (g.snapPhys.contains p || g.holdPhys.contains p)) g.phys).length
/-- holding (R135). -/
def Group.holding (g : Group) : Nat := g.live + g.retained
/-- Physical registers that nothing keeps are free (R137, R142); one whose write is outstanding returns once the value has
arrived (R146). What a rescued group frees goes back to the reserve first (R141). -/
def Group.collect (g : Group) : Group :=
  let phys := List.filter (fun (p, _) => g.mapped.contains p || g.snapPhys.contains p || g.holdPhys.contains p ||
      g.out.any fun f => !f.drop && f.dest.phys.contains p) g.phys
  { g with phys := phys, base := Nat.min g.base phys.length }
/-- A k for which no name's k-th register is held or awaited. -/
def Group.freshPhys (g : Group) : Nat :=
  (g.phys.map (·.1) ++ g.out.flatMap fun f => f.dest.phys).foldl (fun m p => Nat.max m (p / 64)) 0 + 1
/-- The name's register is kept by a snapshot or hold, so a write takes a fresh one (R136, R336). -/
def Group.kept (g : Group) (r : Nat) : Bool :=
  match g.mapOf r with
  | some p => g.snapPhys.contains p || g.holdPhys.contains p
  | none => false
/-- Give a name a fresh physical register, undefined in every lane (R136). -/
def State.allocV (s : State) (r : Nat) : State :=
  let g := s.cg
  let k := g.freshPhys
  { s with cg := { g with vmap := g.vmap.setIfInBounds r (some k),
                          phys := g.phys.ins (regNo r k) (tab g.width fun l => s.freeWord (8192 + r * 64 + l)) } }
/-- A write of a name allocates first where it must (R136). The handler's names never do (R369). -/
def State.readyV (s : State) (r : Nat) : State :=
  if !s.cg.inH && ((s.cg.mapOf r).isNone || s.cg.kept r) then s.allocV r else s
/-- Set lanes of a name's register as it is mapped now. -/
def Group.putVRaw (g : Group) (r : Nat) (lanes : Nat → Bool) (v : Nat → Word) : Group :=
  match g.handler with
  | some h =>
    { g with handler := some { h with v := h.v.set r (tab g.width fun l => if lanes l then v l else (h.v.getD r []).getD l 0) } }
  | none => match g.mapOf r with
    | none => g
    | some p =>
      { g with phys := g.phys.ins p (tab g.width fun l => if lanes l then v l else ((g.phys.find p).getD []).getD l 0) }
/-- An earlier flight of a name must not write a register that the name still has (R144); where the name was given a fresh
one, the value still arrives in the old one, which a snapshot or hold keeps (R146). -/
def State.spoilV (s : State) (r : Nat) (had : Option Nat) : State :=
  if s.cg.mapOf r == had then { s with cg := { s.cg with out := spoil s.cg.out false s.cg.inH r s.cg.seq } } else s
/-- Write lanes of a v name (R136), which becomes undefined in every lane while an earlier write is outstanding (R144). -/
def State.wrV (s : State) (r : Nat) (lanes : Nat → Bool) (v : Nat → Word) : State :=
  let t := s.readyV r
  if t.cg.pendV r then
    ({ t with cg := t.cg.putVRaw r (fun _ => true) fun l => s.freeWord (12288 + r * 64 + l) } : State).spoilV r (s.cg.mapOf r)
  else { t with cg := t.cg.putVRaw r lanes v }
/-- Free the physical registers of names after the reads (R137); the handler ignores last use (R369). -/
def Group.lastUse (g : Group) (rs : List Nat) : Group :=
  if g.inH then g
  else (rs.foldl (fun h r => { h with vmap := h.vmap.setIfInBounds r none }) g).collect

/-! ## Issue: traps, parks, the end of a word -/

/-- How many free numbers one word may use. -/
def wordFree : Nat := 65536

/-- Record a trap; the group waits to enter its handler (R364, R368). -/
def Group.raise (g : Group) (now cause sub code addr lanes : Nat) : Group :=
  { g with trap := some ⟨cause, sub, code, addr, lanes, none, g.ia.toNat, g.seq⟩, park := some .trap, trapAt := now, walked := [],
           tried := 0 }

/-- trap(CAUSE) with a sub-cause, an address and lanes: the word writes nothing (R8, R366). -/
def State.trapWith (s : State) (cause sub addr lanes : Nat) : State :=
  { s with cg := s.cg.raise s.now cause sub 0 addr lanes }
/-- %taddr where the raising rule names no data address: the code object base plus the word's PC (R366). -/
def State.wordAddr (s : State) : Nat := s.codeBase + s.cg.ia.toNat
/-- trap(CAUSE) naming the lanes at the issue address. -/
def State.trapNow (s : State) (cause sub : Nat) : State := s.trapWith cause sub s.wordAddr (laneMask s.cg.exLanes)
/-- Park at a word that has issued and is not over (R158). -/
def State.parkIssued (s : State) (p : Park) (sw : Bool) : State :=
  { s with cg := { s.cg with park := some p, mark := sw, last := s.nextId }, nextId := s.nextId + 1 }
/-- Park at the word, which has had no effect (R8). -/
def State.parkAt (s : State) (p : Park) : State := { s with cg := { s.cg with park := some p } }
/-- Every executing lane's PC becomes the issue address + 4 (R155). -/
def Group.advance (g : Group) : Group := let a := g.ia + 4; g.jump fun _ => a
/-- A group no longer rescued once its holding is back at FLOOR (R141). -/
def Group.settle (g : Group) (floor : Nat) : Group :=
  if g.rescued && g.holding ≤ floor then { g with rescued := false, base := 0 } else g
/-- The word has issued: count it, take its place among the core's issues (R158), and under the switch marker issue
nothing until every variable-latency write has been written (R145). -/
def State.issued (s : State) (sw : Bool) : State :=
  { s with cg := { s.cg.settle s.cb.hdr.floor with seq := s.cg.seq + 1, last := s.nextId, walked := [], mark := sw, tried := 0 },
           nextId := s.nextId + 1, free := s.free + wordFree }
/-- The word is over and its lanes go on to the next. -/
def State.finish (s : State) (sw : Bool) : State := ({ s with cg := s.cg.advance } : State).issued sw
/-- A word whose park has ended is over: its place among the core's issues is that of its issue. -/
def State.finishParked (s : State) (sw : Bool) : State :=
  let t := s.finish sw
  { t with cg := { t.cg with last := s.cg.last } }

/-! ## Assumption sets (R331, R335, R336) -/

/-- The group's state as a snapshot holds it. -/
def Group.snap (g : Group) (guard : ASet) : Snap :=
  ⟨g.vmap, g.s, g.p, g.pcs, g.frm, g.fflags, g.fmask, g.aset, guard, g.seq, g.eord, g.vis, g.saw⟩
/-- What a taint source finds: nothing new, room for the set, or a bound of R340. -/
inductive TaintFit where | same | fits | tooMany | noSlot
  deriving DecidableEq, Repr
def Group.taintFit (g : Group) (set : ASet) : TaintFit :=
  if subset set g.aset then .same
  else if (union g.aset set).length > 4 then .tooMany
  else if g.snaps.length ≥ 2 then .noSlot
  else .fits
/-- snapshot() with a given restore point, then taint(set) (R336). -/
def Group.taint (g : Group) (set : ASet) (n : Snap) : Group :=
  if subset set g.aset then g
  else { g with snaps := g.snaps ++ [{ n with guard := set.filter fun a => !g.aset.contains a }], aset := union g.aset set }

/-- A taint source at issue: continue with the tainted group, park, or trap under ASTRICT (R336, R340). -/
def State.taintSource (s : State) (set : ASet) (go : State → State) : State :=
  match s.cg.taintFit set with
  | .same => go s
  | .fits => go { s with cg := s.cg.taint set (s.cg.snap []) }
  | .tooMany => if s.cb.hdr.astrict then s.trapNow 0x0E 0x01 else s.parkAt .assume
  | .noSlot => if s.cb.hdr.astrict then s.trapNow 0x0E 0x02 else s.parkAt .assume

/-! ## Register granules of a core (R108, R135, R139, R141) -/

def Group.granule (g : Group) : Nat := g.width / 16
/-- Blocks resident on a core. -/
def State.resident (s : State) (core : Nat) : List (Nat × Block) :=
  List.filter (fun (_, b) => b.core == core && !b.saved && !b.retired) s.blocks
/-- The core's largest rescue need, which the reserve keeps (R108, R141). -/
def State.reserve (s : State) (core : Nat) : Nat :=
  ((s.resident core).map fun (_, b) => (b.hdr.cap - b.hdr.floor) * (b.hdr.width / 16)).foldl Nat.max 0
/-- The granules that the groups of a core take up, each group's registers by `count`: what it holds, its floor at the
least (R107). A group that has exited has freed even its floor (R142). -/
def State.granulesBy (s : State) (core : Nat) (count : Group → Nat) : Nat :=
  (s.groups.map fun (_, g) =>
    match s.blocks.find g.blk with
    | some b => if b.core == core && !b.saved && !b.retired && !g.done then g.granule * Nat.max (count g) b.hdr.floor else 0
    | none => 0).foldl (· + ·) 0
/-- Granules outside the pool's share: those of a rescued group that come from the reserve do not count (R141). -/
def State.granules (s : State) (core : Nat) : Nat :=
  s.granulesBy core fun g => if g.rescued then g.base else g.phys.length
/-- The free granules of a core's 4,096 (R108). -/
def State.freeGranules (s : State) (core : Nat) : Nat := 4096 - s.granulesBy core fun g => g.phys.length
/-- The pool (R135). -/
def State.pool (s : State) (core : Nat) : Nat := 4096 - s.granules core - s.reserve core

/-! ## Groups that end (R142, R164) -/

/-- Every lane exited, every register freed. -/
def Group.ended (g : Group) (failed : Bool) : Group :=
  { g with pcs := tab g.width fun _ => none, vmap := Vector.replicate 64 none, phys := [], snaps := [], handler := none,
           trap := none, pend := [], park := none, out := [], rescued := false, base := 0, walked := [], tried := 0, done := true,
           failed := g.failed || failed }

/-- End the current group: its grid is marked failed where it ended as failed (R81, R372). -/
def State.endGroup (s : State) (failed : Bool) : State :=
  let t : State := { s with cg := s.cg.ended failed }
  if failed then t.updTask s.cb.task fun T => { T with grid := T.grid.map fun G => { G with failed := true } } else t

/-! ## Taking a trap, and returning (R366 to R372) -/

/-- The header fields that the handler's code object must carry (R104, R367): SIZE and ENTRY, or none when one of TAG,
ISAVER, SIZE and ENTRY is not valid. -/
def handlerHeader (bs : List Byte) : Option (Nat × Nat) :=
  let w0 := ofBytes (bs.take 4)
  let size := ofBytes ((bs.drop 4).take 4)
  let entry := ofBytes ((bs.drop 8).take 4)
  if w0 == 0x4B57_5101 && size % 4 == 0 && 0x44 ≤ size && size ≤ 2 ^ 31 && entry % 4 == 0 && 0x40 ≤ entry && entry < size
  then some (size, entry) else none

/-- R366: %tcause. -/
def Trap.tcause (t : Trap) : Word := BitVec.ofNat 32 (t.cause + 2 ^ 8 * t.sub + 2 ^ 16 * t.code)

/-- R368, R369: the trapped state is kept, the cause registers are set, and the handler starts at ENTRY in the lanes
that are live, with its s registers zero and its v registers undefined. -/
def State.enterHandler (s : State) (t : Trap) (base size entry : Nat) : State :=
  let g := s.cg
  let h : Handler :=
    { pcs := tab g.width fun l => if (g.pcs.getD l none).isSome then some (BitVec.ofNat 32 entry) else none, s := zeroS,
      v := tab 8 fun r => tab g.width fun l => s.freeWord (r * 64 + l), tcause := t.tcause, taddr := BitVec.ofNat 64 t.addr,
      tlanes := BitVec.ofNat 64 t.lanes, own := t.entry.getD zeroLog, base := base, size := size }
  ({ s with cg := { g with handler := some h, trap := none, park := none } } : State).spend 512

/-- R372 TRET: discard the handler's bank and lane PCs; the group resumes from its trapped state. -/
def Group.leaveHandler (g : Group) : Group := { g with handler := none }

/-- A deferred trap: recorded with its log entry and taken at the group's next issue opportunity (R237, R364). No lanes
given means every lane live when it is taken (R366). It ends a switch-marker park (R237). `seq` is the issue number of the word concerned. -/
def State.deferTrap (s : State) (gid cause sub va pa pc seq : Nat) (lanes : List Nat) (kind : Nat) : State :=
  match s.group gid with
  | none => s
  | some g =>
    let e : LogEntry := ⟨kind, cause, sub, s.groupAgent g, va, pa, pc, 0⟩
    let t := s.logPart g.part e
    let n := match t.part g.part with
      | some P => P.logSeq
      | none => 0
    t.updGroup gid fun g => { g with mark := false, pend := g.pend ++ [⟨cause, sub, 1, va, laneMask lanes, some { e with seq := n }, pc, seq⟩] }

end Sys2Proof.Machine
end

