-- ==== Sys2Proof/Machine/Operands.lean ====
section
/-! DEFINITION. Operand forms: what a word reads, frees and writes (R127, R136 to R140, R144), and the frames of the
computing words (R173, R174, R42, R43). -/

namespace Sys2Proof

/-- The names a word touches: v and s names read, v names freed by last-use bits, v and s names written; whether the word
provisionally holds the group's registers (R336). -/
structure Touch where
  vr : List Nat := []
  sr : List Nat := []
  vf : List Nat := []
  vw : List Nat := []
  sw : List Nat := []
  holds : Bool := false
  deriving DecidableEq, Repr

/-- The names a word's parts touch together. -/
def Touch.plus (a b : Touch) : Touch := ⟨a.vr ++ b.vr, a.sr ++ b.sr, a.vf ++ b.vf, a.vw ++ b.vw, a.sw ++ b.sw, a.holds || b.holds⟩

/-- The names of an operand: one, or the register and the next (R127). -/
def names (r : Nat) (w : Bool) : List Nat := if w then [r, r + 1] else [r]
/-- The names from r on that n words occupy. -/
def namesN (r n : Nat) : List Nat := tab n fun i => r + i

def readV (r : Nat) (w : Bool) : Touch := { vr := names r w }
def readS (r : Nat) (w : Bool) : Touch := { sr := names r w }
def writeV (r : Nat) (w : Bool) : Touch := { vw := names r w }
def writeS (r : Nat) (w : Bool) : Touch := { sw := names r w }
/-- A vector source and its last-use bit (R137). -/
def VSrc.touch (a : VSrc) (w : Bool) : Touch :=
  { vr := names a.reg w, vf := if a.last then names a.reg w else [] }
/-- The b operand: a vector source, or a uniform register (R173). -/
def BSrc.touch (b : BSrc) (w : Bool) : Touch :=
  match b with
  | .v r l => VSrc.touch ⟨r, l⟩ w
  | .s r => readS r w

end Sys2Proof

namespace Sys2Proof.Machine

/-- A v operand in a lane, as a number. -/
def State.vNum (s : State) (r : Nat) (w : Bool) (l : Nat) : Nat := if w then s.rdV64 r l else (s.rdV r l).toNat
/-- An s operand as a number. -/
def State.sNum (s : State) (r : Nat) (w : Bool) : Nat := if w then s.rdS64 r else (s.rdS r).toNat
/-- The b operand in a lane (R173). -/
def State.bNum (s : State) (b : BSrc) (w : Bool) (l : Nat) : Nat :=
  match b with
  | .v r _ => s.vNum r w l
  | .s r => s.sNum r w

/-- A name that the word reads or writes stands where REGTRAP traps (R138, R144). -/
def Group.undefHit (g : Group) (t : Touch) : Bool :=
  t.vr.any g.undefV || t.sr.any g.pendS || t.vw.any g.pendV || t.sw.any g.pendS

/-- What the allocations of a word meet (R139, R140). -/
inductive Verdict where | ok | trap | park (p : Park)
  deriving DecidableEq, Repr

/-- The names of vw that a write gives a register to where none was mapped. -/
def Group.fresh (g : Group) (vw : List Nat) : Nat := (vw.filter fun r => (g.mapOf r).isNone).length
/-- The names of vw that a write moves off a kept register. -/
def Group.moved (g : Group) (vw : List Nat) : Nat := (vw.filter g.kept).length

/-- The names of vf are free; their registers stay where the word's own hold keeps them (R137, R336). -/
def Group.unmap (g : Group) (vf : List Nat) : Group :=
  if g.inH then g else vf.foldl (fun g r => { g with vmap := g.vmap.setIfInBounds r none }) g
/-- Whether the group can take the registers that a write of vw needs, once vf are freed (R137, R139, R140, R141); the
registers of vf count on where the word holds them (R336). -/
def State.verdict (s : State) (holds : Bool) (vf vw : List Nat) : Verdict :=
  let g := if holds then s.cg.unmap vf else s.cg.lastUse vf
  let held := if holds then s.cg.holding else g.holding
  let k := g.fresh vw
  let n := k + g.moved vw
  if g.inH || n == 0 then .ok
  else if g.live + k > s.cb.hdr.cap then .trap
  else if held + n > s.cb.hdr.cap && held + g.moved vw > g.live then .park .assume
  else if g.rescued then .ok
  else
    let need := (held + n) - Nat.max held s.cb.hdr.floor
    if need > 0 && ({ s with cg := g } : State).sync.pool s.cb.core < need * g.granule then .park .pool else .ok

/-- Operand checks of a word (R138, R139, R140, R144), and then its effect. -/
def State.operands (s : State) (t : Touch) (ok : State) : State :=
  if s.cb.hdr.regtrap && s.cg.undefHit t then s.trapNow 0x03 0
  else match s.verdict t.holds t.vf t.vw with
    | .ok => ok
    | .trap => s.trapNow 0x03 0
    | .park p => s.parkAt p

/-- Word i of a value. -/
def wordOf (i n : Nat) : Word := BitVec.ofNat 32 (n / 2 ^ (32 * i))
/-- Free the last uses. -/
def State.freeV (s : State) (vf : List Nat) : State := { s with cg := s.cg.lastUse vf }
/-- Write successive names with the words of a number per lane. -/
def State.putV (s : State) (names : List Nat) (lanes : Nat → Bool) (f : Nat → Nat) : State :=
  (names.zipIdx).foldl (fun t ri => t.wrV ri.1 lanes fun l => wordOf ri.2 (f l)) s
/-- Write an s register or a pair. -/
def State.putS (s : State) (r : Nat) (w : Bool) (v : Nat) : State :=
  if w then s.wrS64 r v else s.wrS r (BitVec.ofNat 32 v)
/-- Write a predicate in the executing lanes (R130). -/
def State.putP (s : State) (p : PReg) (f : Nat → Bool) : State := { s with cg := s.cg.wrP p s.cg.ex f }

/-- An integer word (R173, R177): the executing lanes write f to d. -/
def State.intWord (s : State) (sw : Bool) (d : VReg) (w : Bool) (t : Touch) (f : Nat → Nat) : State :=
  s.operands (t.plus (writeV d w)) (((s.freeV t.vf).putV (names d w) s.cg.ex f).finish sw)

/-- A uniform word (R202): s[d] := v. -/
def State.uniWord (s : State) (sw : Bool) (d : SReg) (w : Bool) (t : Touch) (v : Nat) : State :=
  s.operands (t.plus (writeS d w)) ((s.putS d w v).finish sw)

/-! ## Floating words: flags and their traps (R42, R43, R199) -/

/-- The mode of %frm (R40). -/
def Group.mode (g : Group) : Mode := Mode.ofFrm g.frm
/-- The flags that some executing lane raised. -/
def Group.raised (g : Group) (fl : Nat → Nat) : Nat := g.exLanes.foldl (fun m l => Nat.lor m (fl l)) 0
/-- Collect raised flags. -/
def Group.orFlags (g : Group) (m : Nat) : Group := { g with fflags := g.fflags ||| BitVec.ofNat 5 m }
/-- An enabled flag among m traps, outside the handler (R43, R369). -/
def Group.enabled (g : Group) (m : Nat) : Bool := !g.inH && Nat.land m g.fmask.toNat != 0

/-- A floating word's end: an enabled flag writes nothing, keeps the flags and traps; else the flags collect and the
word writes. `cross` says that the flags belong to no single lane. DESIGN CHOICE (log entry 59): whether a word that raises an enabled
flag while its destination has no register and live = CAP traps with FP_EXCEPTION (R43) or UNDEF_REG (R140) is open; the registers
are checked first. -/
def State.floatWord (s : State) (t : Touch) (cross : Bool) (fl : Nat → Nat) (write : State → State) : State :=
  s.operands t <|
    let m := s.cg.raised fl
    if s.cg.enabled m then
      let lanes := s.cg.exLanes.filter fun l => cross || Nat.land (fl l) s.cg.fmask.toNat != 0
      ({ s with cg := s.cg.orFlags m } : State).trapWith 0x0B 0 s.wordAddr (laneMask lanes)
    else write { s with cg := s.cg.orFlags m }

/-- A floating word that writes a value with flags to d in the executing lanes (R176). -/
def State.fpWord (s : State) (sw : Bool) (d : VReg) (w : Bool) (t : Touch) (f : Nat → Nat × Nat) : State :=
  s.floatWord (t.plus (writeV d w)) false (fun l => (f l).2) fun u =>
    ((u.freeV t.vf).putV (names d w) s.cg.ex fun l => (f l).1).finish sw

/-- A floating comparison that writes a predicate in the executing lanes (R182). -/
def State.fpPred (s : State) (sw : Bool) (p : PReg) (t : Touch) (f : Nat → Bool × Nat) : State :=
  s.floatWord t false (fun l => (f l).2) fun u => ((u.freeV t.vf).putP p fun l => (f l).1).finish sw

end Sys2Proof.Machine
end

