-- ==== Sys2Proof/Machine/Float.lean ====
section
/-! DEFINITION. Floating words (R179 to R188). -/

namespace Sys2Proof.Machine

/-- Each element of a packed type as its scalar format, flags united; else the scalar format in the low bits of the
operands (R174, R176). -/
def F6.lift2 (t : F6) (op : FP → Nat → Nat → Nat × Nat) (x y : Nat) : Nat × Nat :=
  let f := Fmt.fpD t.fmt
  let n := Fmt.bits t.fmt
  if t.packed then
    let r0 := op f (x % 2 ^ 16) (y % 2 ^ 16)
    let r1 := op f (x / 2 ^ 16 % 2 ^ 16) (y / 2 ^ 16 % 2 ^ 16)
    (r0.1 + r1.1 * 2 ^ 16, Nat.lor r0.2 r1.2)
  else op f (x % 2 ^ n) (y % 2 ^ n)
def F6.lift3 (t : F6) (op : FP → Nat → Nat → Nat → Nat × Nat) (x y z : Nat) : Nat × Nat :=
  let f := Fmt.fpD t.fmt
  let n := Fmt.bits t.fmt
  if t.packed then
    let r0 := op f (x % 2 ^ 16) (y % 2 ^ 16) (z % 2 ^ 16)
    let r1 := op f (x / 2 ^ 16 % 2 ^ 16) (y / 2 ^ 16 % 2 ^ 16) (z / 2 ^ 16 % 2 ^ 16)
    (r0.1 + r1.1 * 2 ^ 16, Nat.lor r0.2 r1.2)
  else op f (x % 2 ^ n) (y % 2 ^ n) (z % 2 ^ n)

def opFadd (m : Mode) (f : FP) (x y : Nat) : Nat × Nat := f.add m (f.decode x) (f.decode y)
def opFsub (m : Mode) (f : FP) (x y : Nat) : Nat × Nat := f.sub m (f.decode x) (f.decode y)
def opFmul (m : Mode) (f : FP) (x y : Nat) : Nat × Nat := f.mul m (f.decode x) (f.decode y)
def opFfma (m : Mode) (f : FP) (x y z : Nat) : Nat × Nat := f.fma m (f.decode x) (f.decode y) (f.decode z)

/-- An F6 word of two operands (R179, R180). -/
def State.f6Word (s : State) (sw : Bool) (t : F6) (d : VReg) (a : VSrc) (b : BSrc) (op : FP → Nat → Nat → Nat × Nat) : State :=
  s.fpWord sw d t.wide ((a.touch t.wide).plus (b.touch t.wide)) fun l =>
    F6.lift2 t op (s.vNum a.reg t.wide l) (s.bNum b t.wide l)
/-- An F2 word of one operand (R181, R185). -/
def State.f2Word (s : State) (sw : Bool) (t : F2) (d : VReg) (a : VSrc) (op : FP → FVal → Nat × Nat) : State :=
  let f := Fmt.fpD t.fmt
  s.fpWord sw d t.wide (a.touch t.wide) fun l => op f (f.decode (s.vNum a.reg t.wide l))

def execFadd (sw : Bool) (t : F6) (d : VReg) (a : VSrc) (b : BSrc) (s : State) : Out :=
  .next (s.f6Word sw t d a b (opFadd s.cg.mode))
def execFsub (sw : Bool) (t : F6) (d : VReg) (a : VSrc) (b : BSrc) (s : State) : Out :=
  .next (s.f6Word sw t d a b (opFsub s.cg.mode))
def execFmul (sw : Bool) (t : F6) (d : VReg) (a : VSrc) (b : BSrc) (s : State) : Out :=
  .next (s.f6Word sw t d a b (opFmul s.cg.mode))
/-- FFMA also reads d (R179). -/
def execFfma (sw : Bool) (t : F6) (d : VReg) (a : VSrc) (b : BSrc) (s : State) : Out :=
  .next (s.fpWord sw d t.wide (((a.touch t.wide).plus (b.touch t.wide)).plus (readV d t.wide)) fun l =>
    F6.lift3 t (opFfma s.cg.mode) (s.vNum a.reg t.wide l) (s.bNum b t.wide l) (s.vNum d t.wide l))
def execFmin (sw : Bool) (t : F6) (d : VReg) (a : VSrc) (b : BSrc) (s : State) : Out :=
  .next (s.f6Word sw t d a b fun f => f.minMax false)
def execFmax (sw : Bool) (t : F6) (d : VReg) (a : VSrc) (b : BSrc) (s : State) : Out :=
  .next (s.f6Word sw t d a b fun f => f.minMax true)
def execFdiv (sw : Bool) (t : F2) (d : VReg) (a : VSrc) (b : BSrc) (s : State) : Out :=
  let f := Fmt.fpD t.fmt
  .next (s.fpWord sw d t.wide ((a.touch t.wide).plus (b.touch t.wide)) fun l =>
    f.div s.cg.mode (f.decode (s.vNum a.reg t.wide l)) (f.decode (s.bNum b t.wide l)))
def execFsqrt (sw : Bool) (t : F2) (d : VReg) (a : VSrc) (s : State) : Out :=
  .next (s.f2Word sw t d a fun f x => f.sqrt s.cg.mode x)

/-- FSET (R182). -/
def State.fset (s : State) (sw : Bool) (t : F2) (c : FCmp) (p : PReg) (a : VSrc) (b : BSrc) : State :=
  let f := Fmt.fpD t.fmt
  s.fpPred sw p ((a.touch t.wide).plus (b.touch t.wide)) fun l =>
    FCmp.eval c (f.decode (s.vNum a.reg t.wide l)) (f.decode (s.bNum b t.wide l))
def execFsetF32 (sw : Bool) (c : FCmp) (p : PReg) (a : VSrc) (b : BSrc) (s : State) : Out :=
  .next (s.fset sw .f32 c p a b)
def execFsetF64 (sw : Bool) (c : FCmp) (p : PReg) (a : VSrc) (b : BSrc) (s : State) : Out :=
  .next (s.fset sw .f64 c p a b)

/-- FCLASS writes a 32-bit mask (R183). -/
def execFclass (sw : Bool) (t : F4) (d : VReg) (a : VSrc) (s : State) : Out :=
  let f := Fmt.fpD t.fmt
  .next (s.intWord sw d false (a.touch t.wide) fun l =>
    2 ^ f.classBit (f.decode (s.vNum a.reg t.wide l % 2 ^ Fmt.bits t.fmt)))

/-- FSGN's result (R184). -/
def fsgn (f : SgnFn) (n x y : Nat) : Nat :=
  let mag := x % 2 ^ (n - 1)
  let sg := x / 2 ^ (n - 1) % 2
  mag + 2 ^ (n - 1) * (match f with
    | .abs => 0
    | .neg => 1 - sg
    | .copysign => y / 2 ^ (n - 1) % 2
    | .negabs => 1)
def execFsgn (sw : Bool) (f : SgnFn) (t : F2) (d : VReg) (a : VSrc) (b : BSrc) (s : State) : Out :=
  let tb := if f == .copysign then b.touch t.wide else {}
  .next (s.intWord sw d t.wide ((a.touch t.wide).plus tb) fun l =>
    fsgn f (if t.wide then 64 else 32) (s.vNum a.reg t.wide l) (if f == .copysign then s.bNum b t.wide l else 0))

def execRsqa (sw : Bool) (t : F2) (d : VReg) (a : VSrc) (s : State) : Out := .next (s.f2Word sw t d a FP.rsqa)
def execRcpa (sw : Bool) (t : F2) (d : VReg) (a : VSrc) (s : State) : Out := .next (s.f2Word sw t d a FP.rcpa)
def execEx2a (sw : Bool) (t : F2) (d : VReg) (a : VSrc) (s : State) : Out := .next (s.f2Word sw t d a FP.ex2a)
def execLg2a (sw : Bool) (t : F2) (d : VReg) (a : VSrc) (s : State) : Out := .next (s.f2Word sw t d a FP.lg2a)

end Sys2Proof.Machine
end

