-- ==== Sys2Proof/Machine/Integer.lean ====
section
/-! DEFINITION. Integer and bit words (R177, R178). -/

namespace Sys2Proof

/-- The integer an operand of a T4 type holds (R177). -/
def T4.val (t : T4) (x : Nat) : Int :=
  match t with
  | .i32 => sext 32 x
  | .i64 => sext 64 x
  | .n32 => (x % 2 ^ 32 : Nat)
  | .n64 => (x % 2 ^ 64 : Nat)
/-- nb of R177. -/
def T4.nb (t : T4) : Nat := if t.wide then 64 else 32

end Sys2Proof

namespace Sys2Proof.Machine

/-- The operations of R177 on exact integers, written mod 2^nb. -/
def iopAdd (t : T4) (x y : Nat) : Nat := wrap t.nb (T4.val t x + T4.val t y)
def iopSub (t : T4) (x y : Nat) : Nat := wrap t.nb (T4.val t x - T4.val t y)
def iopMul (t : T4) (x y : Nat) : Nat := wrap t.nb (T4.val t x * T4.val t y)
def iopMulh (t : T4) (x y : Nat) : Nat := wrap t.nb (T4.val t x * T4.val t y / (2 ^ t.nb : Nat))
def iopMad (t : T4) (x y z : Nat) : Nat := wrap t.nb (T4.val t z + T4.val t x * T4.val t y)
def iopMin (t : T4) (x y : Nat) : Nat := wrap t.nb (min (T4.val t x) (T4.val t y))
def iopMax (t : T4) (x y : Nat) : Nat := wrap t.nb (max (T4.val t x) (T4.val t y))

/-- LOG8 on 32 bits (R178). -/
def log8 (f : Log8) (x y : Nat) : Nat :=
  let a := BitVec.ofNat 32 x
  let b := BitVec.ofNat 32 y
  (match f with
  | .and => a &&& b
  | .or => a ||| b
  | .xor => a ^^^ b
  | .andn => a &&& ~~~b
  | .orn => a ||| ~~~b
  | .xnor => ~~~(a ^^^ b)
  | .nand => ~~~(a &&& b)
  | .nor => ~~~(a ||| b)).toNat

/-- SH7 (R178): x of 32 or 64 bits, the count y. -/
def sh7 (f : Sh7) (x y : Nat) : Nat :=
  match f with
  | .shl => x * 2 ^ (y % 32) % 2 ^ 32
  | .shr => x / 2 ^ (y % 32)
  | .sra => wrap 32 (sext 32 x / (2 ^ (y % 32) : Nat))
  | .rotl => (x * 2 ^ (y % 32) + x / 2 ^ (32 - y % 32)) % 2 ^ 32
  | .shl64 => x * 2 ^ (y % 64) % 2 ^ 64
  | .shr64 => x / 2 ^ (y % 64)
  | .sra64 => wrap 64 (sext 64 x / (2 ^ (y % 64) : Nat))

/-- BITS (R178). -/
def bitsFn (f : BitsFn) (x : Nat) : Nat :=
  match f with
  | .clz => ((List.range 32).findIdx? fun i => bit x (31 - i)).getD 32
  | .popc => sumTo 32 fun i => b2n (bit x i)
  | .brev => sumTo 32 fun j => b2n (bit x (31 - j)) * 2 ^ j
  | .ffs => ((List.range 32).findIdx? fun i => bit x i).getD 32

/-- p and L of BFX and BFI (R178). -/
def fieldAt (y : Nat) : Nat × Nat := (bits y 4 0, min (bits y 13 8) (32 - bits y 4 0))
/-- BFX (R178). -/
def bfx (signed : Bool) (x y : Nat) : Nat :=
  let p := (fieldAt y).1
  let len := (fieldAt y).2
  let f := x / 2 ^ p % 2 ^ len
  if len = 0 then 0 else if signed then wrap 32 (sext len f) else f
/-- BFI (R178). -/
def bfi (x y z : Nat) : Nat :=
  let p := (fieldAt y).1
  let len := (fieldAt y).2
  z / 2 ^ (p + len) * 2 ^ (p + len) + x % 2 ^ len * 2 ^ p + z % 2 ^ p
/-- LEA and ULEA (R178, R202). -/
def lea (x y s : Nat) : Nat := wrap 64 ((x : Int) + sext 32 y * (2 ^ s : Nat))

/-- A T4 word of two operands. -/
def State.t4Word (s : State) (sw : Bool) (t : T4) (d : VReg) (a : VSrc) (b : BSrc) (f : Nat → Nat → Nat) : State :=
  s.intWord sw d t.wide ((a.touch t.wide).plus (b.touch t.wide)) fun l => f (s.vNum a.reg t.wide l) (s.bNum b t.wide l)

def execIadd (sw : Bool) (t : T4) (d : VReg) (a : VSrc) (b : BSrc) (s : State) : Out :=
  .next (s.t4Word sw t d a b (iopAdd t))
def execIsub (sw : Bool) (t : T4) (d : VReg) (a : VSrc) (b : BSrc) (s : State) : Out :=
  .next (s.t4Word sw t d a b (iopSub t))
def execImul (sw : Bool) (t : T4) (d : VReg) (a : VSrc) (b : BSrc) (s : State) : Out :=
  .next (s.t4Word sw t d a b (iopMul t))
def execImulh (sw : Bool) (t : T4) (d : VReg) (a : VSrc) (b : BSrc) (s : State) : Out :=
  .next (s.t4Word sw t d a b (iopMulh t))
/-- IMAD also reads d (R177). -/
def execImad (sw : Bool) (t : T4) (d : VReg) (a : VSrc) (b : BSrc) (s : State) : Out :=
  .next (s.intWord sw d t.wide (((a.touch t.wide).plus (b.touch t.wide)).plus (readV d t.wide)) fun l =>
    iopMad t (s.vNum a.reg t.wide l) (s.bNum b t.wide l) (s.vNum d t.wide l))
def execImin (sw : Bool) (t : T4) (d : VReg) (a : VSrc) (b : BSrc) (s : State) : Out :=
  .next (s.t4Word sw t d a b (iopMin t))
def execImax (sw : Bool) (t : T4) (d : VReg) (a : VSrc) (b : BSrc) (s : State) : Out :=
  .next (s.t4Word sw t d a b (iopMax t))
def execIabs (sw w64 : Bool) (d : VReg) (a : VSrc) (s : State) : Out :=
  .next (s.intWord sw d w64 (a.touch w64) fun l =>
    let n := if w64 then 64 else 32
    wrap n (sext n (s.vNum a.reg w64 l)).natAbs)
def execLogic (sw : Bool) (f : Log8) (d : VReg) (a : VSrc) (b : BSrc) (s : State) : Out :=
  .next (s.intWord sw d false ((a.touch false).plus (b.touch false)) fun l => log8 f (s.vNum a.reg false l) (s.bNum b false l))
/-- SHIFT: the count is a 32-bit b in every form (R178). -/
def execShift (sw : Bool) (f : Sh7) (d : VReg) (a : VSrc) (b : BSrc) (s : State) : Out :=
  .next (s.intWord sw d f.wide ((a.touch f.wide).plus (b.touch false)) fun l =>
    sh7 f (s.vNum a.reg f.wide l) (s.bNum b false l))
def execBits (sw : Bool) (f : BitsFn) (d : VReg) (a : VSrc) (s : State) : Out :=
  .next (s.intWord sw d false (a.touch false) fun l => bitsFn f (s.vNum a.reg false l))
def execBfx (sw signed : Bool) (d : VReg) (a : VSrc) (b : BSrc) (s : State) : Out :=
  .next (s.intWord sw d false ((a.touch false).plus (b.touch false)) fun l =>
    bfx signed (s.vNum a.reg false l) (s.bNum b false l))
/-- BFI also reads d (R178). -/
def execBfi (sw : Bool) (d : VReg) (a : VSrc) (b : BSrc) (s : State) : Out :=
  .next (s.intWord sw d false (((a.touch false).plus (b.touch false)).plus (readV d false)) fun l =>
    bfi (s.vNum a.reg false l) (s.bNum b false l) (s.vNum d false l))
/-- ISET writes a predicate in the executing lanes (R178). -/
def execIset (sw : Bool) (c : ICmp) (p : PReg) (a : VSrc) (b : BSrc) (s : State) : Out :=
  let t := (a.touch false).plus (b.touch false)
  .next (s.operands t (((s.freeV t.vf).putP p fun l =>
    c.holds 32 (s.vNum a.reg false l) (s.bNum b false l)).finish sw))
def execIaddi (sw : Bool) (d : VReg) (a : VSrc) (k : BitVec 11) (s : State) : Out :=
  .next (s.intWord sw d false (a.touch false) fun l => wrap 32 ((s.vNum a.reg false l : Int) + k.toInt))
/-- LEA: a and d are pairs, b is 32-bit (R178). -/
def execLea (sw : Bool) (sh : Fin 8) (d : VReg) (a : VSrc) (b : BSrc) (s : State) : Out :=
  .next (s.intWord sw d true ((a.touch true).plus (b.touch false)) fun l =>
    lea (s.vNum a.reg true l) (s.bNum b false l) sh.val)

end Sys2Proof.Machine
end

