-- ==== Sys2Proof/Machine/Lane.lean ====
section
/-! DEFINITION. Moves and cross-lane words (R171, R194 to R201). -/

namespace Sys2Proof

def LaneTy.fmt : LaneTy → Fmt
  | .i32 => .i32
  | .n32 => .n32
  | .i64 => .i64
  | .n64 => .n64
  | .f32 => .f32
  | .f64 => .f64
  | .f16 => .f16
  | .bf16 => .bf16
def LaneTy.t4 : LaneTy → T4
  | .i32 => .i32
  | .i64 => .i64
  | .n64 => .n64
  | _ => .n32

end Sys2Proof

namespace Sys2Proof.Machine

/-- LSR writes every live lane (R171); in the handler %lpc reads the trapped state (R369). -/
def execLsr (sw : Bool) (r : LaneSpec) (d : VReg) (s : State) : Out :=
  let t := writeV d false
  .next (s.operands t ((s.putV [d.val] s.cg.liveLane fun l =>
    match r with
    | .lane => l
    | .lpc => ((s.cg.pcs.getD l none).getD 0xFFFF_FFFF).toNat).finish sw))
def execMovi (sw : Bool) (d : VReg) (k : BitVec 18) (s : State) : Out :=
  .next (s.intWord sw d false {} fun _ => wrap 32 k.toInt)
def execMovu (sw w64 : Bool) (d : VReg) (b : SReg) (s : State) : Out :=
  .next (s.intWord sw d w64 (readS b w64) fun _ => s.sNum b w64)
def execSel (sw : Bool) (p : PReg) (d : VReg) (a : VSrc) (b : BSrc) (s : State) : Out :=
  .next (s.intWord sw d false ((a.touch false).plus (b.touch false)) fun l =>
    if s.rdP p l then s.vNum a.reg false l else s.bNum b false l)

/-- The lane SHFL names, if it is in the group (R195). -/
def shflLane (m : Shf4) (w i c : Nat) : Option Nat :=
  let j : Int := match m with
    | .idx => c
    | .up => (i : Int) - c
    | .down => (i : Int) + c
    | .xor => Nat.xor i c
  if 0 ≤ j ∧ j < (w : Int) then some j.toNat else none
def execShfl (sw : Bool) (m : Shf4) (d : VReg) (a : VSrc) (b : BSrc) (s : State) : Out :=
  .next (s.intWord sw d false ((a.touch false).plus (b.touch false)) fun l =>
    match shflLane m s.cg.width l (s.bNum b false l) with
    | some j => if s.cg.ex j then s.vNum a.reg false j else s.vNum a.reg false l
    | none => s.vNum a.reg false l)

/-- VOTE's value over the executing lanes (R196). -/
def State.voteValue (s : State) (m : Vote5) (p : PReg) : Nat :=
  let set := s.cg.exLanes.filter fun l => s.rdP p l
  match m with
  | .any => b2n (!set.isEmpty)
  | .all => b2n (set.length == s.cg.exLanes.length)
  | .ballotLo => laneMask (set.filter fun l => decide (l < 32))
  | .ballotHi => laneMask (set.filter fun l => decide (32 ≤ l)) / 2 ^ 32
  | .count => set.length
def execVote (sw : Bool) (m : Vote5) (d : SReg) (p : PReg) (s : State) : Out :=
  .next (s.uniWord sw d false {} (s.voteValue m p))

/-! ## Reductions and scans (R197 to R199) -/

/-- A combination of two nodes, and its flags (R197). -/
def combine (t : LaneTy) (op : Red6) (mode : Mode) (x y : Nat) : Nat × Nat :=
  if t.float then
    let f := Fmt.fpD t.fmt
    match op with
    | .min => f.minMax false x y
    | .max => f.minMax true x y
    | _ => f.add mode (f.decode x) (f.decode y)
  else (match op with
    | .add => iopAdd t.t4 x y
    | .min => iopMin t.t4 x y
    | .max => iopMax t.t4 x y
    | .and => Nat.land x y
    | .or => Nat.lor x y
    | .xor => Nat.xor x y, 0)

/-- One level of the tree; a node is a value, or none for the identity, which leaves the other node unchanged (R198). -/
def treeLevel (comb : Nat → Nat → Nat × Nat) : List (Option Nat) → List (Option Nat) × Nat
  | a :: b :: rest =>
    let r := treeLevel comb rest
    match a, b with
    | some x, some y => (some (comb x y).1 :: r.1, Nat.lor (comb x y).2 r.2)
    | none, y => (y :: r.1, r.2)
    | x, none => (x :: r.1, r.2)
  | l => (l, 0)
/-- The whole tree, level by level: 6 levels serve width 64. -/
def tree (comb : Nat → Nat → Nat × Nat) : Nat → List (Option Nat) → Option Nat × Nat
  | 0, l => ((l.head?).getD none, 0)
  | n + 1, l =>
    if l.length ≤ 1 then ((l.head?).getD none, 0)
    else
      let r := treeLevel comb l
      let t := tree comb n r.1
      (t.1, Nat.lor r.2 t.2)

/-- The tree over the executing lanes up to a lane (R198, R199). -/
def State.treeOf (s : State) (t : LaneTy) (op : Red6) (a : VReg) (upTo : Nat) : Nat × Nat :=
  let r := tree (combine t op s.cg.mode) 6 (tab s.cg.width fun j =>
    if s.cg.ex j && j ≤ upTo then some (s.vNum a t.wide j % 2 ^ Fmt.bits t.fmt) else none)
  (r.1.getD 0, r.2)

/-- REDL and SCANL write each executing lane its tree; their flags belong to no lane (R199). -/
def State.treeWord (s : State) (sw : Bool) (t : LaneTy) (d : VReg) (a : VSrc) (f : Nat → Nat × Nat) : State :=
  let tc := (a.touch t.wide).plus (writeV d t.wide)
  s.floatWord tc true (fun l => (f l).2) fun u =>
    ((u.freeV tc.vf).putV (names d t.wide) s.cg.ex fun l => (f l).1).finish sw
def execRedl (sw : Bool) (t : LaneTy) (op : Red6) (d : VReg) (a : VSrc) (s : State) : Out :=
  .next (s.treeWord sw t d a fun _ => s.treeOf t op a.reg s.cg.width)
def execScanl (sw : Bool) (t : LaneTy) (op : Red6) (d : VReg) (a : VSrc) (s : State) : Out :=
  .next (s.treeWord sw t d a fun l => s.treeOf t op a.reg l)

/-! ## Selection and matching (R200, R201) -/

/-- The place of an f32 key in the order of R200: greater keys have greater numbers, NaN the least. -/
def topkRank (x : Nat) : Int :=
  let mag : Nat := x % 2 ^ 31
  if mag > 0x7F80_0000 then -(2 ^ 40) else if x < 2 ^ 31 then (mag : Int) else -1 - (mag : Int)
/-- Put a lane into a list ordered by falling key; equal keys keep the lower lane first. -/
def topkInsert (key : Nat → Int) (l : Nat) : List Nat → List Nat
  | [] => [l]
  | m :: ms => if key m < key l then l :: m :: ms else m :: topkInsert key l ms
/-- The executing lanes by falling key (R200). -/
def State.topkOrder (s : State) (a : VReg) : List Nat :=
  s.cg.exLanes.foldl (fun acc l => topkInsert (fun j => topkRank (s.vNum a false j)) l acc) []
def execTopk (sw : Bool) (k : Fin 8) (d : VReg) (a : VSrc) (s : State) : Out :=
  let t := (a.touch false).plus (writeV d true)
  let order := s.topkOrder a.reg
  .next (s.operands t (((s.freeV t.vf).putV (names d true) (fun l => s.cg.ex l && l ≤ k.val) fun r =>
    match order[r]? with
    | some j => s.vNum a.reg false j + j * 2 ^ 32
    | none => 0x7FC0_0000 + 0xFFFF_FFFF * 2 ^ 32).finish sw))

/-- MATCH's comparison (R201). -/
def matchKeys (t : MatchTy) (x y : Nat) : Bool :=
  let num (f : Fmt) := valEq ((Fmt.fpD f).decode (x % 2 ^ Fmt.bits f)) ((Fmt.fpD f).decode (y % 2 ^ Fmt.bits f))
  match t with
  | .f16 => num .f16
  | .bf16 => num .bf16
  | .f32 => num .f32
  | .f64 => num .f64
  | .bits32 | .bits64 => x == y
def execMatchLanes (sw : Bool) (t : MatchTy) (d : VReg) (a : VSrc) (s : State) : Out :=
  .next (s.intWord sw d true (a.touch t.wide) fun l =>
    laneMask (s.cg.exLanes.filter fun j => matchKeys t (s.vNum a.reg t.wide l) (s.vNum a.reg t.wide j)))

end Sys2Proof.Machine
end

