-- ==== Sys2Proof/WellFormed.lean ====
section
/-! DEFINITION. Which terms of the syntax are instructions: the register fields obey R127 and the rows of R148 and R149
(check 3 of R151), and the fields a form leaves unused are zero (check 4 of R151). -/

namespace Sys2Proof

/-- A well-formed instruction (R127, R148, R149, R151). -/
def Instr.wf (i : Instr) : Bool := i.regsOk && i.fieldsOk

/-- `Instr.wf` as a proposition. -/
abbrev Instr.WF (i : Instr) : Prop := i.wf = true

end Sys2Proof
end

