-- ==== Sys2Proof/Decode.lean ====
section
/-! DEFINITION. Decoding the words of Kwequa (R122 to R127, R147 to R151), the S instructions (R55 to R58), and the
encoder written from the same tables. The steps of the device have no encoding. -/

namespace Sys2Proof

/-- What the fields of a word say: no such major opcode (check 1 of R151), a reserved value or a register field that
breaks R127 (check 3), or an instruction, with whether every must-be-zero bit is zero (check 4). -/
inductive Parse where
  | noOp
  | illegal
  | ok (i : Instr) (clean : Bool)
  deriving DecidableEq, Repr

/-- Why the decoder refuses a word. -/
inductive DecodeErr where
  /-- a reserved opcode, code or register field: ILLEGAL (R151 checks 1 and 3, R58) -/
  | illegal
  /-- a must-be-zero bit that is not zero: RESERVED_FIELD (R151 check 4, R58) -/
  | reservedField
  deriving DecidableEq, Repr

/-- An instruction read from its fields, if its codes are defined and its registers obey R127. -/
def Parse.of (i : Option Instr) (clean : Bool) : Parse :=
  match i with
  | none => .illegal
  | some i => if i.regsOk then .ok i (clean && i.fieldsOk) else .illegal

/-- The decoder's answer. -/
def Parse.result : Parse → Except DecodeErr Instr
  | .noOp => .error .illegal
  | .illegal => .error .illegal
  | .ok i clean => if clean then .ok i else .error .reservedField

/-! Fields. -/

/-- The field of n bits whose lowest bit is k. -/
def fld (w k n : Nat) : Nat := w / 2 ^ k % 2 ^ n
def fbit (w k : Nat) : Bool := fld w k 1 == 1
def fv (w k : Nat) : VReg := Fin.ofNat 64 (fld w k 6)
def fs (w k : Nat) : SReg := Fin.ofNat 32 (fld w k 5)
def fp (w k : Nat) : PReg := Fin.ofNat 8 (fld w k 3)
def fq (w k : Nat) : QReg := Fin.ofNat 16 (fld w k 4)
def fbv (n w k : Nat) : BitVec n := BitVec.ofNat n (fld w k n)
/-- Field n bits wide at k is zero. -/
def fz (w k n : Nat) : Bool := fld w k n == 0

/-- LR: the source in a, with La (R125). -/
def lrA (w : Nat) : VSrc := ⟨fv w 12, fbit w 5⟩
/-- LR: the operand in b, with Lb and Ub (R125). -/
def lrB (w : Nat) : BSrc := if fbit w 3 then .s (fs w 6) else .v (fv w 6) (fbit w 4)
/-- With Ub = 1, b[5] and Lb are zero (R148, R151). -/
def lrBClean (w : Nat) : Bool := !fbit w 3 || (fz w 4 1 && fz w 11 1)
/-- A row that does not use b: b, Lb and Ub are zero (R148). -/
def lrNoB (w : Nat) : Bool := fz w 6 6 && fz w 3 2
/-- A row that does not use a: a and La are zero (R148). -/
def lrNoA (w : Nat) : Bool := fz w 12 6 && fz w 5 1
/-- LM and LI: the source in a, with La in bit 11. -/
def lmA (w : Nat) : VSrc := ⟨fv w 12, fbit w 11⟩
/-- LM: the data of a store, with Ld. -/
def lmD (w : Nat) : VSrc := ⟨fv w 18, fbit w 10⟩

/-- An L word (R125, R148). -/
def parseL (w : Nat) : Parse :=
  let sw := fbit w 30
  let fn := fld w 0 3
  let d := fv w 18
  let a := lrA w
  let b := lrB w
  let bc := lrBClean w
  match fld w 24 6 with
  | 0x00 => .of ((T4.ofCode fn).map fun t => .iadd sw t d a b) bc
  | 0x01 => .of ((T4.ofCode fn).map fun t => .isub sw t d a b) bc
  | 0x02 => .of ((T4.ofCode fn).map fun t => .imul sw t d a b) bc
  | 0x03 => .of ((T4.ofCode fn).map fun t => .imulh sw t d a b) bc
  | 0x04 => .of ((T4.ofCode fn).map fun t => .imad sw t d a b) bc
  | 0x05 => .of ((T4.ofCode fn).map fun t => .imin sw t d a b) bc
  | 0x06 => .of ((T4.ofCode fn).map fun t => .imax sw t d a b) bc
  | 0x07 => .of (if fn = 0 then some (.iabs sw false d a) else if fn = 2 then some (.iabs sw true d a) else none) (lrNoB w)
  | 0x08 => .of ((Log8.ofCode fn).map fun f => .logic sw f d a b) bc
  | 0x09 => .of ((Sh7.ofCode fn).map fun f => .shift sw f d a b) bc
  | 0x0A => .of ((BitsFn.ofCode fn).map fun f => .bits sw f d a) (lrNoB w)
  | 0x0B => .of (if fn < 2 then some (.bfx sw (fn == 1) d a b) else none) bc
  | 0x0C => .of (if fn = 0 then some (.bfi sw d a b) else none) bc
  | 0x0D => .of ((ICmp.ofCode fn).map fun c => .iset sw c (fp w 18) a b) (bc && fz w 21 3)
  | 0x0E => .of (some (.iaddi sw d (lmA w) (fbv 11 w 0))) true
  | 0x0F => .of (some (.lea sw (Fin.ofNat 8 fn) d a b)) bc
  | 0x10 => .of ((F6.ofCode fn).map fun t => .fadd sw t d a b) bc
  | 0x11 => .of ((F6.ofCode fn).map fun t => .fsub sw t d a b) bc
  | 0x12 => .of ((F6.ofCode fn).map fun t => .fmul sw t d a b) bc
  | 0x13 => .of ((F6.ofCode fn).map fun t => .ffma sw t d a b) bc
  | 0x14 => .of ((F6.ofCode fn).map fun t => .fmin sw t d a b) bc
  | 0x15 => .of ((F6.ofCode fn).map fun t => .fmax sw t d a b) bc
  | 0x16 => .of ((F2.ofCode fn).map fun t => .fdiv sw t d a b) bc
  | 0x17 => .of ((F2.ofCode fn).map fun t => .fsqrt sw t d a) (lrNoB w)
  | 0x18 => .of ((FCmp.ofCode fn).map fun c => .fsetF32 sw c (fp w 18) a b) (bc && fz w 21 3)
  | 0x19 => .of ((FCmp.ofCode fn).map fun c => .fsetF64 sw c (fp w 18) a b) (bc && fz w 21 3)
  | 0x1A => .of ((F4.ofCode fn).map fun t => .fclass sw t d a) (lrNoB w)
  | 0x1B => .of ((SgnFn.ofCode (fld w 0 2)).map fun f => .fsgn sw f (if fbit w 2 then .f64 else .f32) d a b) bc
  | 0x1C => .of ((F2.ofCode fn).map fun t => .rsqa sw t d a) (lrNoB w)
  | 0x1D => .of ((F2.ofCode fn).map fun t => .rcpa sw t d a) (lrNoB w)
  | 0x1E => .of ((F2.ofCode fn).map fun t => .ex2a sw t d a) (lrNoB w)
  | 0x1F => .of ((F2.ofCode fn).map fun t => .lg2a sw t d a) (lrNoB w)
  | 0x20 => .of (match Fmt.ofCode (fld w 6 6), Fmt.ofCode (fld w 0 6) with
      | some dst, some src => some (.cvt sw dst src d (fv w 12))
      | _, _ => none) true
  | 0x21 => .of (match Fmt.ofCode (fld w 6 6), Fmt.ofCode (fld w 0 6) with
      | some dst, some src => some (.cvtsat sw dst src d (fv w 12))
      | _, _ => none) true
  | 0x22 => .of ((Fmt.ofCode (fld w 0 6)).map fun dst => .cvts sw dst d (fv w 12) (fv w 6)) true
  | 0x23 => .of ((Piece.ofCode fn).map fun f => .pack sw f d a b) bc
  | 0x24 => .of ((Piece.ofCode fn).map fun f => .unpk sw f d a) (lrNoB w)
  | 0x25 => .of ((F4.ofCode fn).map fun t => .scle sw t d a b) bc
  | 0x26 => .of ((MatchTy.ofCode fn).map fun t => .matchLanes sw t d a) (lrNoB w)
  | 0x27 => .of (if fn = 0 then (LaneSpec.ofCode (fld w 6 6)).map fun r => .lsr sw r d else none) (lrNoA w && fz w 3 2)
  | 0x28 => .of (some (.movi sw d (fbv 18 w 0))) true
  | 0x29 => .of (if fbit w 3 then (if fn = 0 then some (.movu sw false d (fs w 6))
      else if fn = 1 then some (.movu sw true d (fs w 6)) else none) else none) (lrNoA w && bc)
  | 0x2A => .of (some (.sel sw (Fin.ofNat 8 fn) d a b)) bc
  | 0x2B => .of ((Shf4.ofCode fn).map fun m => .shfl sw m d a b) bc
  | 0x2C => .of ((Vote5.ofCode fn).map fun m => .vote sw m (fs w 18) (fp w 12))
      (lrNoB w && fz w 23 1 && fz w 15 3 && fz w 5 1)
  | 0x2D => .of (match LaneTy.ofCode fn, Red6.ofCode (fld w 6 3) with
      | some t, some op => some (.redl sw t op d a)
      | _, _ => none) (fz w 9 3 && fz w 3 2)
  | 0x2E => .of (match LaneTy.ofCode fn, Red6.ofCode (fld w 6 3) with
      | some t, some op => some (.scanl sw t op d a)
      | _, _ => none) (fz w 9 3 && fz w 3 2)
  | 0x2F => .of (some (.topk sw (Fin.ofNat 8 fn) d a)) (lrNoB w)
  | 0x30 => .of (match MemTy.ofCode (fld w 2 3), Hint.ofCode (fld w 0 2) with
      | some t, some h => some (.ld sw t h d (lmA w) (fs w 5))
      | _, _ => none) (fz w 10 1)
  | 0x31 => .of (match MemTy.ofCode (fld w 2 3), Hint.ofCode (fld w 0 2) with
      | some t, some h => some (.st sw t h (lmD w) (lmA w) (fs w 5))
      | _, _ => none) true
  | 0x32 => .of ((MemTy.ofCode (fld w 2 3)).map fun t => .lds sw t d (lmA w) (fs w 5)) (fz w 10 1 && fz w 0 2)
  | 0x33 => .of ((MemTy.ofCode (fld w 2 3)).map fun t => .sts sw t (lmD w) (lmA w) (fs w 5)) (fz w 0 2)
  | 0x34 => .of ((MemTy.ofCode (fld w 2 3)).map fun t => .ldc sw t d (lmA w) (fs w 5)) (fz w 10 1 && fz w 0 2)
  | 0x35 => .of ((MemTy.ofCode (fld w 2 3)).map fun t => .stc sw t (lmD w) (lmA w) (fs w 5)) (fz w 0 2)
  | 0x36 => .of (match AopI.ofCode (fld w 3 3), Sem.ofCode (fld w 0 3) with
      | some op, some sem =>
        if fld w 18 6 = 63 then some (.redAtom sw (fbit w 12) op sem (fs w 13) (fv w 6))
        else some (.atom sw (fbit w 12) op sem d (fs w 13) (fv w 6))
      | _, _ => none) true
  | 0x37 => .of (match AopF.ofCode (fld w 3 3), Sem.ofCode (fld w 0 3) with
      | some op, some sem =>
        if fld w 18 6 = 63 then some (.redAtomf sw op sem (fv w 12) (fv w 6))
        else some (.atomf sw op sem d (fv w 12) (fv w 6))
      | _, _ => none) true
  | 0x38 => .of ((Hint.ofCode (fld w 0 2)).map fun h =>
      .gld sw (Fin.ofNat 8 (fld w 4 3)) (fbit w 2) h d (fv w 12) (fs w 7)) (fz w 3 1)
  | 0x39 => .of (some (.brc sw (fp w 21) (fbit w 20) (fbv 20 w 0))) true
  | 0x3A => .of (if fn = 0 then some (.jmpx sw a) else none) (lrNoB w && fz w 18 6)
  | _ => .noOp

/-- The operation of a UATOM (R300). -/
def uopOf (w : Nat) : Option UOp :=
  if fbit w 6 then (AopF.ofCode (fld w 3 3)).map .f else (AopI.ofCode (fld w 3 3)).map (.i (fbit w 7))

/-- The kind and group register of a TREG (R373). -/
def tregOf (w : Nat) : TregOp :=
  match fld w 1 2 with
  | 0 => .s (fs w 14) (fbit w 0)
  | 1 => .v (Fin.ofNat 64 (fld w 14 5 + 32 * fld w 8 1)) (fbit w 0)
  | 2 => .p (fp w 14) (fbit w 0)
  | _ => .lpc (fbit w 0)

/-- The must-be-zero bits of a TREG (R373). -/
def tregClean (w : Nat) : Bool :=
  fz w 9 5 && fz w 3 5 &&
  match fld w 1 2 with
  | 0 => fz w 8 1
  | 1 => true
  | 2 => fz w 8 1 && fz w 17 2
  | _ => fz w 8 1 && fz w 14 5

/-- A U word (R126, R149). -/
def parseU (w : Nat) : Parse :=
  let sw := fbit w 30
  let fn := fld w 4 5
  let d := fs w 19
  let a := fs w 14
  let b := fs w 9
  let z4 := fz w 0 4
  match fld w 24 6 with
  | 0x00 => .of ((T4.ofCode fn).map fun t => .uadd sw t d a b) z4
  | 0x01 => .of ((T4.ofCode fn).map fun t => .usub sw t d a b) z4
  | 0x02 => .of ((T4.ofCode fn).map fun t => .umul sw t d a b) z4
  | 0x03 => .of ((T4.ofCode fn).map fun t => .umulh sw t d a b) z4
  | 0x04 => .of ((Log8.ofCode fn).map fun f => .ulog sw f d a b) z4
  | 0x05 => .of ((Sh7.ofCode fn).map fun f => .ush sw f d a b) z4
  | 0x06 => .of ((T4.ofCode fn).map fun t => .umin sw t d a b) z4
  | 0x07 => .of ((T4.ofCode fn).map fun t => .umax sw t d a b) z4
  | 0x08 => .of (some (.uaddi sw d a (fbv 14 w 0))) true
  | 0x09 => .of (if fld w 16 3 < 2 then some (.ulil sw (fbit w 16) d (fbv 16 w 0)) else none) true
  | 0x0A => .of (if fld w 16 3 = 0 then some (.ulih sw d (fbv 16 w 0)) else none) true
  | 0x0B => .of ((ICmp.ofCode (fld w 4 3)).map fun c => .ucmp sw (fbit w 7) c d a b) (z4 && fz w 8 1)
  | 0x0C => .of ((SpecReg.ofCode (fld w 0 8) (fld w 16 3)).map fun r => .movsr sw d r) (fz w 8 8)
  | 0x0D => .of (if fld w 16 3 = 0 then (WSpec.ofCode (fld w 0 16)).map fun r => .movrs sw r d else none) true
  | 0x0E => .of (some (.vget sw d a (fv w 8))) (fz w 0 8)
  | 0x0F => .of (if fn < 8 then some (.ulea sw (Fin.ofNat 8 fn) d a b) else none) z4
  | 0x10 => .of (some (.bra sw (fbv 24 w 0))) true
  | 0x11 => .of ((UCnd.ofCode (fld w 16 3)).map fun c => .bru sw c d (fbv 16 w 0)) true
  | 0x12 => .of (some (.call sw (fbv 24 w 0))) true
  | 0x13 => .of (if fn = 0 then some (.ret sw) else none) (fz w 9 15 && z4)
  | 0x14 => .of (if fn = 0 then some (.exit sw) else none) (fz w 9 15 && z4)
  | 0x15 => .of (if fld w 16 3 = 0 then some (.trapi sw (fbv 16 w 0)) else none) (fz w 19 5)
  | 0x16 => .of (if fld w 16 3 = 0 then some (.waitcy sw (fbv 16 w 0)) else none) (fz w 19 5)
  | 0x18 => .of (some (.bar sw (if fbit w 4 then some (Fin.ofNat 16 (fld w 0 4)) else none)))
      (fz w 9 15 && fz w 5 4 && (fbit w 4 || z4))
  | 0x19 => .of (some (.cbar sw)) (fz w 0 24)
  | 0x1A => .of (match FenceKind.ofCode (fld w 3 2), Scope.ofCode (fld w 0 3) with
      | some k, some sc => some (.fence sw k sc)
      | _, _ => none) (fz w 5 19)
  | 0x1B => .of (match Scope.ofCode (fld w 4 3), WaitCond.ofCode (fld w 0 3) with
      | some sc, some c => some (.waita sw sc (fbit w 3) c d a b)
      | _, _ => none) (fz w 7 2)
  | 0x1C => .of (some (.qinit sw (Fin.ofNat 16 (fld w 4 4)) (Fin.ofNat 16 (fld w 0 4)) d a)) (fz w 8 6)
  | 0x1D => .of (some (.qpush sw d a)) (fz w 0 14)
  | 0x1E => .of (some (.qpop sw d a)) (fz w 0 14)
  | 0x1F => .of (match uopOf w, Sem.ofCode (fld w 0 3) with
      | some op, some sem => some (.uatom sw (fbit w 8) op sem d a b)
      | _, _ => none) (!fbit w 6 || fz w 7 1)
  | 0x20 => .of (some (.ldsh sw (fbit w 0) d a)) (fz w 1 13)
  | 0x21 => .of (some (.evsh sw d)) (fz w 0 19)
  | 0x22 => .of (some (.copy sw (fbit w 3) (fbit w 2) (fbit w 1) (fbit w 0) d a b)) (fz w 4 5)
  | 0x23 => .of (some (.mxlw sw (fbit w 0) d)) (fz w 1 18)
  | 0x24 => .of (some (.mxrun sw (fbit w 1) (fbit w 0) d a b)) (fz w 2 7)
  | 0x28 => .of (some (.hpub sw d a b)) (fz w 0 9)
  | 0x29 => .of (some (.xsend sw (fbit w 0) d)) (fz w 1 18)
  | 0x2A => .of (some (.xwait sw (fbit w 0) d a)) (fz w 1 13)
  | 0x2B => .of (some (.xdone sw (fbit w 0) d a b)) (fz w 1 8)
  | 0x2C => .of (some (.guess sw d a b)) (fz w 0 9)
  | 0x2D => .of (some (.affirm sw d)) (fz w 0 19)
  | 0x2E => .of (some (.deny sw d)) (fz w 0 19)
  | 0x2F => .of (some (.hold sw (fbit w 0))) (fz w 1 23)
  | 0x30 => .of (some (.tret sw)) (fz w 0 24)
  | 0x31 => .of (some (.tend sw (fbit w 0))) (fz w 1 23)
  | 0x32 => .of (some (.treg sw d (tregOf w))) (tregClean w)
  | 0x33 => .of ((ErrForm.ofCode (fld w 0 2)).map fun f => .errld sw f d) (fz w 2 17)
  | _ => .noOp

/-- A word: bit [31] is the class (R122). -/
def parseWord (w : Nat) : Parse := if fbit w 31 then parseU w else parseL w

/-- The opcodes U 0x30 to 0x33 are privileged (R149, R151). -/
def privileged (w : Nat) : Bool := fbit w 31 && 0x30 ≤ fld w 24 6 && fld w 24 6 ≤ 0x33

/-- An S instruction as one number of 128 bits, w0 lowest (R55 to R58). -/
def parseS (n : Nat) : Parse :=
  let qa := fq n 20
  let qb := fq n 16
  let imm := fbv 16 n 0
  let w1 := fbv 32 n 32
  let w2 := fbv 32 n 64
  let za := fz n 20 4
  let zb := fz n 16 4
  let zi := fz n 0 16
  let z1 := fz n 32 32
  let z2 := fz n 64 32
  let z3 := fz n 96 32
  let layer := fbv 8 n 32
  let expert := fbv 10 n 40
  let die : Fin 8 := Fin.ofNat 8 (fld n 50 3)
  match fld n 24 8 with
  | 0x00 =>
    let r := fbit n 40
    .of (some (.defb (Fin.ofNat 64 (fld n 32 6)) (if r then .reg qa else .imm w2)))
      (zb && zi && z3 && fz n 38 2 && fz n 41 23 && (if r then z2 else za))
  | 0x01 => .of (some (.bindb (Fin.ofNat 64 (fld n 32 6)) qa w2)) (zb && zi && fz n 38 26 && z3)
  | 0x02 => .of (some (.relb (Fin.ofNat 64 (fld n 32 6)))) (za && zb && zi && fz n 38 26 && z2 && z3)
  | 0x03 => .of (some (.launch qa)) (zb && zi && z1 && z2 && z3)
  | 0x04 => .of (some (.copyt (fbit n 48) (Fin.ofNat 64 (fld n 32 6)) qa (Fin.ofNat 64 (fld n 40 6)) qb w2))
      (zi && z3 && fz n 38 2 && fz n 46 2 && fz n 49 15)
  | 0x05 => .of (some (.fill (fbit n 48) (Fin.ofNat 64 (fld n 32 6)) qa qb w2))
      (zi && z3 && fz n 38 10 && fz n 49 15)
  | 0x10 => .of (some (.jmp (if fbit n 64 then .reg qa else .rel w1)))
      (zb && zi && z3 && fz n 65 31 && (fbit n 64 || za))
  | 0x11 => .of (some (.streamCall (if fbit n 64 then .reg qa else .rel w1)))
      (zb && zi && z3 && fz n 65 31 && (fbit n 64 || za))
  | 0x12 => .of (some .streamRet) (za && zb && zi && z1 && z2 && z3)
  | 0x13 => .of ((QCond.ofCode (fld n 64 3)).map fun c => .brq c qa (if fbit n 67 then .imm imm else .reg qb) w1)
      (z3 && fz n 68 28 && (if fbit n 67 then zb else zi))
  | 0x14 => .of ((QCond.ofCode (fld n 32 3)).map fun c =>
        .when c (if fbit n 35 then .mem qa w2 else .reg qa) qb imm)
      (fz n 36 28 && z3 && (fbit n 35 || z2))
  | 0x15 => .of (some (.loop qa w1)) (zb && zi && z2 && z3)
  | 0x16 => .of (some .ffence) (za && zb && zi && z1 && z2 && z3)
  | 0x17 => .of ((QSize.ofCode (fld n 64 2)).map fun sz => .ldq sz (fbit n 66) qa qb w1) (zi && fz n 67 29 && z3)
  | 0x18 => .of ((QSize.ofCode (fld n 64 2)).map fun sz => .stq sz qa qb w1) (zi && fz n 66 30 && z3)
  | 0x19 => .of ((QOp.ofCode (fld n 32 4)).map fun op =>
        .aluq op qa qb (if fbit n 36 then .imm imm else .reg (fq n 40)))
      (fz n 37 3 && fz n 44 20 && z2 && z3 && (fbit n 36 || zi))
  | 0x1A =>
    match fld n 96 2 with
    | 0 => .of (some (.movq qa (.imm imm))) (zb && z1 && z2 && fz n 98 30)
    | 1 => .of (some (.movq qa (.imm64 (fbv 64 n 32)))) (zb && zi && fz n 98 30)
    | 2 => .of (some (.movq qa (.reg qb))) (zi && z1 && z2 && fz n 98 30)
    | _ => .illegal
  | 0x1B => .of (some .halt) (za && zb && zi && z1 && z2 && z3)
  | 0x20 => .of ((Scope.ofCode (fld n 32 3)).map fun sc => .waits sc qa qb w2) (zi && fz n 35 29 && z3)
  | 0x21 => .of ((Scope.ofCode (fld n 32 3)).map fun sc => .signal sc (fbit n 36) qa qb)
      (zi && fz n 35 1 && fz n 37 27 && z2 && z3)
  | 0x22 => .of (some (.mark qa)) (zb && zi && z1 && z2 && z3)
  | 0x23 => .of (some (.hostint (fbv 8 n 32))) (za && zb && zi && fz n 40 24 && z2 && z3)
  | 0x24 => .of (some (.prio (Fin.ofNat 16 (fld n 0 4)))) (za && zb && fz n 4 12 && z1 && z2 && z3)
  | 0x25 => .of (some (.detm (fbit n 0))) (za && zb && fz n 1 15 && z1 && z2 && z3)
  | 0x30 => .of (some (.gdef qa)) (zb && zi && z1 && z2 && z3)
  | 0x31 => .of (some (.gstep qa qb)) (zi && z1 && z2 && z3)
  | 0x32 => .of (some (.xdef qa layer w2)) (zb && zi && fz n 40 24 && z3)
  | 0x33 => .of (some (.xfill qa layer expert die w2)) (zb && zi && fz n 53 11 && z3)
  | 0x34 => .of (some (.xpin (fbit n 56) layer expert die)) (za && zb && zi && fz n 53 3 && fz n 57 7 && z2 && z3)
  | 0x35 => .of (some (.xmerge qa layer expert w2)) (zb && zi && fz n 50 14 && z3)
  | _ => .noOp

/-- The decoder of L and U words. -/
def decodeWord (w : Nat) : Except DecodeErr Instr := (parseWord w).result
/-- The decoder of S instructions. -/
def decodeS (n : Nat) : Except DecodeErr Instr := (parseS n).result

/-- The decoder on any bytes: kernel code is a 4-byte little-endian word, a stream instruction 16 bytes (R122, R55).
Answers the instruction and the bytes after it. -/
def decodeBytes (stream : Bool) (bs : List Byte) : Except DecodeErr (Instr × List Byte) :=
  let n := if stream then 16 else 4
  if bs.length < n then .error .illegal
  else match (if stream then decodeS (ofBytes (bs.take n)) else decodeWord (ofBytes (bs.take n))) with
    | .ok i => .ok (i, bs.drop n)
    | .error e => .error e

/-- The instruction the decoder reads from the bits of a row of the opcode table: a word for 32 bits, an S instruction
for more. -/
def decodeTableWord (nbits w : Nat) : Option Instr :=
  if nbits = 0 then none else
  match decodeBytes (32 < nbits) (toBytes (if 32 < nbits then 16 else 4) w) with
  | .ok (i, _) => some i
  | .error _ => none

/-! The encoder, from the same tables. -/

/-- Class bit, marker and major opcode (R122). -/
def encHead (u sw : Bool) (op : Nat) : Nat := 2 ^ 31 * b2n u + 2 ^ 30 * b2n sw + 2 ^ 24 * op
/-- The b operand's fields of an LR word. -/
def encB : BSrc → Nat
  | .v r l => 2 ^ 6 * r.val + 2 ^ 4 * b2n l
  | .s r => 2 ^ 6 * r.val + 2 ^ 3
/-- LR, with the d field as a number (R125). -/
def encLR (sw : Bool) (op d : Nat) (a : VSrc) (b fn : Nat) : Nat :=
  encHead false sw op + 2 ^ 18 * d + 2 ^ 12 * a.reg.val + 2 ^ 5 * b2n a.last + b + fn
/-- LM (R125). -/
def encLM (sw : Bool) (op : Nat) (d : VSrc) (a : VSrc) (s : SReg) (t : MemTy) (h : Nat) : Nat :=
  encHead false sw op + 2 ^ 18 * d.reg.val + 2 ^ 12 * a.reg.val + 2 ^ 11 * b2n a.last + 2 ^ 10 * b2n d.last
    + 2 ^ 5 * s.val + 2 ^ 2 * t.code + h
/-- LA (R125), with d and a as numbers. -/
def encLA (sw : Bool) (op d a : Nat) (b : VReg) (aop : Nat) (sem : Sem) : Nat :=
  encHead false sw op + 2 ^ 18 * d + 2 ^ 12 * a + 2 ^ 6 * b.val + 2 ^ 3 * aop + sem.code
/-- LC (R125). -/
def encLC (sw : Bool) (op : Nat) (d a : VReg) (hi lo : Nat) : Nat :=
  encHead false sw op + 2 ^ 18 * d.val + 2 ^ 12 * a.val + 2 ^ 6 * hi + lo
/-- UR (R126). -/
def encUR (sw : Bool) (op : Nat) (d a b : SReg) (fn : Nat) : Nat :=
  encHead true sw op + 2 ^ 19 * d.val + 2 ^ 14 * a.val + 2 ^ 9 * b.val + 2 ^ 4 * fn
/-- UK (R126). -/
def encUK (sw : Bool) (op d sub imm : Nat) : Nat := encHead true sw op + 2 ^ 19 * d + 2 ^ 16 * sub + imm
/-- UX (R126). -/
def encUX (sw : Bool) (op x y z m : Nat) : Nat := encHead true sw op + 2 ^ 19 * x + 2 ^ 14 * y + 2 ^ 9 * z + m

def F2.bit64 : F2 → Nat
  | .f32 => 0
  | .f64 => 1

/-- The word of an L or U instruction; the other constructors have none. -/
def encodeWord : Instr → Option Nat
  | .iadd sw t d a b => some (encLR sw 0x00 d.val a (encB b) t.code)
  | .isub sw t d a b => some (encLR sw 0x01 d.val a (encB b) t.code)
  | .imul sw t d a b => some (encLR sw 0x02 d.val a (encB b) t.code)
  | .imulh sw t d a b => some (encLR sw 0x03 d.val a (encB b) t.code)
  | .imad sw t d a b => some (encLR sw 0x04 d.val a (encB b) t.code)
  | .imin sw t d a b => some (encLR sw 0x05 d.val a (encB b) t.code)
  | .imax sw t d a b => some (encLR sw 0x06 d.val a (encB b) t.code)
  | .iabs sw w d a => some (encLR sw 0x07 d.val a 0 (2 * b2n w))
  | .logic sw f d a b => some (encLR sw 0x08 d.val a (encB b) f.code)
  | .shift sw f d a b => some (encLR sw 0x09 d.val a (encB b) f.code)
  | .bits sw f d a => some (encLR sw 0x0A d.val a 0 f.code)
  | .bfx sw g d a b => some (encLR sw 0x0B d.val a (encB b) (b2n g))
  | .bfi sw d a b => some (encLR sw 0x0C d.val a (encB b) 0)
  | .iset sw c p a b => some (encLR sw 0x0D p.val a (encB b) c.code)
  | .iaddi sw d a k => some (encHead false sw 0x0E + 2 ^ 18 * d.val + 2 ^ 12 * a.reg.val + 2 ^ 11 * b2n a.last + k.toNat)
  | .lea sw sh d a b => some (encLR sw 0x0F d.val a (encB b) sh.val)
  | .fadd sw t d a b => some (encLR sw 0x10 d.val a (encB b) t.code)
  | .fsub sw t d a b => some (encLR sw 0x11 d.val a (encB b) t.code)
  | .fmul sw t d a b => some (encLR sw 0x12 d.val a (encB b) t.code)
  | .ffma sw t d a b => some (encLR sw 0x13 d.val a (encB b) t.code)
  | .fmin sw t d a b => some (encLR sw 0x14 d.val a (encB b) t.code)
  | .fmax sw t d a b => some (encLR sw 0x15 d.val a (encB b) t.code)
  | .fdiv sw t d a b => some (encLR sw 0x16 d.val a (encB b) t.code)
  | .fsqrt sw t d a => some (encLR sw 0x17 d.val a 0 t.code)
  | .fsetF32 sw c p a b => some (encLR sw 0x18 p.val a (encB b) c.code)
  | .fsetF64 sw c p a b => some (encLR sw 0x19 p.val a (encB b) c.code)
  | .fclass sw t d a => some (encLR sw 0x1A d.val a 0 t.code)
  | .fsgn sw f t d a b => some (encLR sw 0x1B d.val a (encB b) (f.code + 4 * t.bit64))
  | .rsqa sw t d a => some (encLR sw 0x1C d.val a 0 t.code)
  | .rcpa sw t d a => some (encLR sw 0x1D d.val a 0 t.code)
  | .ex2a sw t d a => some (encLR sw 0x1E d.val a 0 t.code)
  | .lg2a sw t d a => some (encLR sw 0x1F d.val a 0 t.code)
  | .cvt sw dst src d a => some (encLC sw 0x20 d a dst.code src.code)
  | .cvtsat sw dst src d a => some (encLC sw 0x21 d a dst.code src.code)
  | .cvts sw dst d a b => some (encLC sw 0x22 d a b.val dst.code)
  | .pack sw f d a b => some (encLR sw 0x23 d.val a (encB b) f.code)
  | .unpk sw f d a => some (encLR sw 0x24 d.val a 0 f.code)
  | .scle sw t d a b => some (encLR sw 0x25 d.val a (encB b) t.code)
  | .matchLanes sw t d a => some (encLR sw 0x26 d.val a 0 t.code)
  | .lsr sw r d => some (encHead false sw 0x27 + 2 ^ 18 * d.val + 2 ^ 6 * r.code)
  | .movi sw d k => some (encHead false sw 0x28 + 2 ^ 18 * d.val + k.toNat)
  | .movu sw w d b => some (encHead false sw 0x29 + 2 ^ 18 * d.val + 2 ^ 6 * b.val + 2 ^ 3 + b2n w)
  | .sel sw p d a b => some (encLR sw 0x2A d.val a (encB b) p.val)
  | .shfl sw m d a b => some (encLR sw 0x2B d.val a (encB b) m.code)
  | .vote sw m d p => some (encHead false sw 0x2C + 2 ^ 18 * d.val + 2 ^ 12 * p.val + m.code)
  | .redl sw t op d a => some (encLR sw 0x2D d.val a (2 ^ 6 * op.code) t.code)
  | .scanl sw t op d a => some (encLR sw 0x2E d.val a (2 ^ 6 * op.code) t.code)
  | .topk sw k d a => some (encLR sw 0x2F d.val a 0 k.val)
  | .ld sw t h d a s => some (encLM sw 0x30 ⟨d, false⟩ a s t h.code)
  | .st sw t h d a s => some (encLM sw 0x31 d a s t h.code)
  | .lds sw t d a s => some (encLM sw 0x32 ⟨d, false⟩ a s t 0)
  | .sts sw t d a s => some (encLM sw 0x33 d a s t 0)
  | .ldc sw t d a s => some (encLM sw 0x34 ⟨d, false⟩ a s t 0)
  | .stc sw t d a s => some (encLM sw 0x35 d a s t 0)
  | .atom sw w op sem d a b => some (encLA sw 0x36 d.val (2 * a.val + b2n w) b op.code sem)
  | .redAtom sw w op sem a b => some (encLA sw 0x36 63 (2 * a.val + b2n w) b op.code sem)
  | .atomf sw op sem d a b => some (encLA sw 0x37 d.val a.val b op.code sem)
  | .redAtomf sw op sem a b => some (encLA sw 0x37 63 a.val b op.code sem)
  | .gld sw c any h d a s => some (encHead false sw 0x38 + 2 ^ 18 * d.val + 2 ^ 12 * a.val + 2 ^ 7 * s.val + 2 ^ 4 * c.val
      + 2 ^ 2 * b2n any + h.code)
  | .brc sw p neg k => some (encHead false sw 0x39 + 2 ^ 21 * p.val + 2 ^ 20 * b2n neg + k.toNat)
  | .jmpx sw a => some (encLR sw 0x3A 0 a 0 0)
  | .uadd sw t d a b => some (encUR sw 0x00 d a b t.code)
  | .usub sw t d a b => some (encUR sw 0x01 d a b t.code)
  | .umul sw t d a b => some (encUR sw 0x02 d a b t.code)
  | .umulh sw t d a b => some (encUR sw 0x03 d a b t.code)
  | .ulog sw f d a b => some (encUR sw 0x04 d a b f.code)
  | .ush sw f d a b => some (encUR sw 0x05 d a b f.code)
  | .umin sw t d a b => some (encUR sw 0x06 d a b t.code)
  | .umax sw t d a b => some (encUR sw 0x07 d a b t.code)
  | .uaddi sw d a k => some (encHead true sw 0x08 + 2 ^ 19 * d.val + 2 ^ 14 * a.val + k.toNat)
  | .ulil sw sx d k => some (encUK sw 0x09 d.val (b2n sx) k.toNat)
  | .ulih sw d k => some (encUK sw 0x0A d.val 0 k.toNat)
  | .ucmp sw w c d a b => some (encUR sw 0x0B d a b (c.code + 8 * b2n w))
  | .movsr sw d r => some (encUK sw 0x0C d.val r.code.2 r.code.1)
  | .movrs sw r d => some (encUK sw 0x0D d.val 0 r.code)
  | .vget sw d a v => some (encHead true sw 0x0E + 2 ^ 19 * d.val + 2 ^ 14 * a.val + 2 ^ 8 * v.val)
  | .ulea sw sh d a b => some (encUR sw 0x0F d a b sh.val)
  | .bra sw k => some (encHead true sw 0x10 + k.toNat)
  | .bru sw c s k => some (encUK sw 0x11 s.val c.code k.toNat)
  | .call sw k => some (encHead true sw 0x12 + k.toNat)
  | .ret sw => some (encHead true sw 0x13)
  | .exit sw => some (encHead true sw 0x14)
  | .trapi sw k => some (encUK sw 0x15 0 0 k.toNat)
  | .waitcy sw k => some (encUK sw 0x16 0 0 k.toNat)
  | .bar sw c => some (encUX sw 0x18 0 0 0 (match c with
      | none => 0
      | some n => 16 + n.val))
  | .cbar sw => some (encUX sw 0x19 0 0 0 0)
  | .fence sw k sc => some (encUX sw 0x1A 0 0 0 (8 * k.code + sc.code))
  | .waita sw sc w c x y z => some (encUX sw 0x1B x.val y.val z.val (16 * sc.code + 8 * b2n w + c.code))
  | .qinit sw cons prod x y => some (encUX sw 0x1C x.val y.val 0 (16 * cons.val + prod.val))
  | .qpush sw x y => some (encUX sw 0x1D x.val y.val 0 0)
  | .qpop sw x y => some (encUX sw 0x1E x.val y.val 0 0)
  | .uatom sw disc op sem x y z => some (encUX sw 0x1F x.val y.val z.val (256 * b2n disc + (match op with
      | .i w op => 128 * b2n w + 8 * op.code
      | .f op => 64 + 8 * op.code) + sem.code))
  | .ldsh sw scr x y => some (encUX sw 0x20 x.val y.val 0 (b2n scr))
  | .evsh sw x => some (encUX sw 0x21 x.val 0 0 0)
  | .copy sw sp24 mc arr acq x y z =>
    some (encUX sw 0x22 x.val y.val z.val (8 * b2n sp24 + 4 * b2n mc + 2 * b2n arr + b2n acq))
  | .mxlw sw acq x => some (encUX sw 0x23 x.val 0 0 (b2n acq))
  | .mxrun sw z0 acq x y z => some (encUX sw 0x24 x.val y.val z.val (2 * b2n z0 + b2n acq))
  | .hpub sw x y z => some (encUX sw 0x28 x.val y.val z.val 0)
  | .xsend sw acq x => some (encUX sw 0x29 x.val 0 0 (b2n acq))
  | .xwait sw poll x y => some (encUX sw 0x2A x.val y.val 0 (b2n poll))
  | .xdone sw wlo x y z => some (encUX sw 0x2B x.val y.val z.val (b2n wlo))
  | .guess sw x y z => some (encUX sw 0x2C x.val y.val z.val 0)
  | .affirm sw x => some (encUX sw 0x2D x.val 0 0 0)
  | .deny sw x => some (encUX sw 0x2E x.val 0 0 0)
  | .hold sw any => some (encUX sw 0x2F 0 0 0 (b2n any))
  | .tret sw => some (encUX sw 0x30 0 0 0 0)
  | .tend sw fail => some (encUX sw 0x31 0 0 0 (b2n fail))
  | .treg sw x op => some (match op with
      | .s y w => encUX sw 0x32 x.val y.val 0 (b2n w)
      | .v g w => encUX sw 0x32 x.val (g.val % 32) 0 (256 * (g.val / 32) + 2 + b2n w)
      | .p p w => encUX sw 0x32 x.val p.val 0 (4 + b2n w)
      | .lpc w => encUX sw 0x32 x.val 0 0 (6 + b2n w))
  | .errld sw f x => some (encUX sw 0x33 x.val 0 0 f.code)
  | _ => none

/-- An S instruction's 128 bits (R55, R57). -/
def encS (op qa qb imm w1 w2 w3 : Nat) : Nat :=
  2 ^ 24 * op + 2 ^ 20 * qa + 2 ^ 16 * qb + imm + 2 ^ 32 * w1 + 2 ^ 64 * w2 + 2 ^ 96 * w3

def encJ (op : Nat) : JTarget → Nat
  | .rel off => encS op 0 0 0 off.toNat 0 0
  | .reg q => encS op q.val 0 0 0 1 0

/-- The 128 bits of an S instruction; the other constructors have none. -/
def encodeS : Instr → Option Nat
  | .defb n len => some (match len with
      | .imm v => encS 0x00 0 0 0 n.val v.toNat 0
      | .reg q => encS 0x00 q.val 0 0 (n.val + 256) 0 0)
  | .bindb n qa len => some (encS 0x01 qa.val 0 0 n.val len.toNat 0)
  | .relb n => some (encS 0x02 0 0 0 n.val 0 0)
  | .launch qa => some (encS 0x03 qa.val 0 0 0 0 0)
  | .copyt w dst qa src qb len =>
    some (encS 0x04 qa.val qb.val 0 (dst.val + 2 ^ 8 * src.val + 2 ^ 16 * b2n w) len.toNat 0)
  | .fill w dst qa qb len => some (encS 0x05 qa.val qb.val 0 (dst.val + 2 ^ 16 * b2n w) len.toNat 0)
  | .jmp t => some (encJ 0x10 t)
  | .streamCall t => some (encJ 0x11 t)
  | .streamRet => some (encS 0x12 0 0 0 0 0 0)
  | .brq c qa y off => some (match y with
      | .imm v => encS 0x13 qa.val 0 v.toNat off.toNat (c.code + 8) 0
      | .reg q => encS 0x13 qa.val q.val 0 off.toNat c.code 0)
  | .when c x qb n => some (match x with
      | .reg q => encS 0x14 q.val qb.val n.toNat c.code 0 0
      | .mem q disp => encS 0x14 q.val qb.val n.toNat (c.code + 8) disp.toNat 0)
  | .loop qa off => some (encS 0x15 qa.val 0 0 off.toNat 0 0)
  | .ffence => some (encS 0x16 0 0 0 0 0 0)
  | .ldq sz sx qa qb disp => some (encS 0x17 qa.val qb.val 0 disp.toNat (sz.code + 4 * b2n sx) 0)
  | .stq sz qa qb disp => some (encS 0x18 qa.val qb.val 0 disp.toNat sz.code 0)
  | .aluq op qa qb y => some (match y with
      | .imm v => encS 0x19 qa.val qb.val v.toNat (op.code + 16) 0 0
      | .reg q => encS 0x19 qa.val qb.val 0 (op.code + 256 * q.val) 0 0)
  | .movq qa src => some (match src with
      | .imm v => encS 0x1A qa.val 0 v.toNat 0 0 0
      | .imm64 v => encS 0x1A qa.val 0 0 (v.toNat % 2 ^ 32) (v.toNat / 2 ^ 32) 1
      | .reg q => encS 0x1A qa.val q.val 0 0 0 2)
  | .halt => some (encS 0x1B 0 0 0 0 0 0)
  | .waits sc qa qb us => some (encS 0x20 qa.val qb.val 0 sc.code us.toNat 0)
  | .signal sc add qa qb => some (encS 0x21 qa.val qb.val 0 (sc.code + 16 * b2n add) 0 0)
  | .mark qa => some (encS 0x22 qa.val 0 0 0 0 0)
  | .hostint v => some (encS 0x23 0 0 0 v.toNat 0 0)
  | .prio l => some (encS 0x24 0 0 l.val 0 0 0)
  | .detm on => some (encS 0x25 0 0 (b2n on) 0 0 0)
  | .gdef qa => some (encS 0x30 qa.val 0 0 0 0 0)
  | .gstep qa qb => some (encS 0x31 qa.val qb.val 0 0 0 0)
  | .xdef qa layer count => some (encS 0x32 qa.val 0 0 layer.toNat count.toNat 0)
  | .xfill qa layer e die len => some (encS 0x33 qa.val 0 0 (layer.toNat + 2 ^ 8 * e.toNat + 2 ^ 18 * die.val) len.toNat 0)
  | .xpin off layer e die =>
    some (encS 0x34 0 0 0 (layer.toNat + 2 ^ 8 * e.toNat + 2 ^ 18 * die.val + 2 ^ 24 * b2n off) 0 0)
  | .xmerge qa layer e len => some (encS 0x35 qa.val 0 0 (layer.toNat + 2 ^ 8 * e.toNat) len.toNat 0)
  | _ => none

/-- The words of an instruction, as the bytes memory holds (R122, R55); none for a step of the device. -/
def encode (i : Instr) : Option (List Byte) :=
  match encodeWord i with
  | some w => some (toBytes 4 w)
  | none => (encodeS i).map (toBytes 16)

end Sys2Proof
end

