-- ==== Sys2Proof/Machine/Fetch.lean ====
section
/-! DEFINITION. Fetching, checking and issuing a word (R123, R124, R151, R157, R158). The meaning of an instruction is an
argument here, so that the dispatch stands in one place. -/

namespace Sys2Proof.Machine

/-- A translation the core keeps, or a walk (R211). -/
def State.leafFor (s : State) (va : Nat) : Walk :=
  match s.cc.tlb.find? fun l => l.covers s.cpId va with
  | some l => .leaf l
  | none => s.walk s.cpId va
/-- The core keeps a translation it used (R211). -/
def State.keepLeaf (s : State) (l : Leaf) : State :=
  if s.cc.tlb.contains l then s else { s with cc := { s.cc with tlb := l :: s.cc.tlb } }

/-- A byte as it stood at a point of write order. -/
def byteThen (hist : List Wr) (now : Byte) (point : Nat) : Byte :=
  match hist.find? fun w => w.at_ ≤ point with
  | some w => w.val
  | none => ((hist.getLast?).map Wr.val).getD now
/-- The points of write order after the launch at which a byte of a code word was written (R124). -/
def State.codeWrites (s : State) (pa : Nat) : List Nat :=
  if s.cg.inH then []
  else ((List.range 4).flatMap fun i => ((s.wrote.find (pa + i)).getD []).map Wr.at_).filter fun x => s.cb.launched < x
/-- A code word: its value, or where it was written since the launch, its value at the launch or any it was given since, by
a free choice at each fetch (R124). -/
def State.codeWord (s : State) (pa : Nat) : Nat :=
  match s.codeWrites pa with
  | [] => ofBytes (s.devBytes pa 4)
  | ws =>
    let points := s.cb.launched :: ws
    let p := points.getD (s.freeAt 60000 % points.length) s.cb.launched
    ofBytes (tab 4 fun i => byteThen ((s.wrote.find (pa + i)).getD []) (s.devByte (pa + i)) p)

/-- The walkers keep what a walk for the core read, unless its TLB held the leaf (R211). -/
def State.walkKept (s : State) (va : Nat) : State :=
  if s.cc.tlb.any fun l => l.covers s.cpId va then s else s.keepWalk s.cpId va
/-- A fetch whose read fails for good traps, and the log records it with both addresses (R123). -/
def State.fetchError (s : State) (va pa : Nat) : State :=
  let t := s.trapNow 0x07 0
  { t with cp := t.cp.record (lastingEntry (s.groupAgent s.cg) s.cg.ia.toNat va pa) }
/-- The word at the issue address, or the state in which the fetch has trapped (R123, R124). -/
def State.fetch (s : State) : Except State (Nat × State) :=
  let ia := s.cg.ia.toNat
  let va := s.codeBase + ia
  if ia % 4 != 0 then .error (s.trapNow 0x04 0)
  else if ia < 0x40 || s.codeSize ≤ ia then .error (s.trapNow 0x06 0)
  else if va / 2 ^ 57 != 0 || s.cp.refused va 4 then .error (s.trapNow 0x06 0)
  else match s.leafFor va with
    | .notPresent => .error (s.trapNow 0x05 0)
    | .protection => .error (s.trapNow 0x06 0)
    | .error a => .error (s.fetchError va a)
    | .leaf l =>
      match s.movedLoc (l.loc s.cp.link va) with
      | .dev pa =>
        if !l.r || l.host then .error (s.trapNow 0x06 0)
        else if !s.homeUp (.dev pa) then .error (s.fetchError va pa)
        else match s.eccRead s.cpId (s.groupAgent s.cg) ia va pa 4 with
          | (false, _) => .error (s.fetchError va pa)
          | (true, t) => .ok (s.codeWord pa, (t.walkKept va).keepLeaf l)
      | _ => .error (s.trapNow 0x06 0)

/-- The checks of R151 in their order, and then the instruction's meaning. -/
def State.issueWord (run : Instr → State → Out) (w : Nat) (s : State) : Out :=
  match parseWord w with
  | .noOp => .next (s.trapNow 0x01 0)
  | p =>
    if privileged w && !s.cg.inH then .next (s.trapNow 0x06 0)
    else match p with
      | .ok i clean =>
        if s.cg.inH && i.vNames.any fun r => decide (8 ≤ r.val) then .next (s.trapNow 0x01 0)
        else if !clean then .next (s.trapNow 0x02 0)
        else run i s
      | _ => .next (s.trapNow 0x01 0)

/-- A group able to issue (R157). -/
def Group.able (g : Group) : Bool := !g.done && !g.parked
/-- Put a group among others in the order in which they last issued. -/
def insertByLast (x : Nat × Nat) : List (Nat × Nat) → List (Nat × Nat)
  | [] => [x]
  | y :: ys => if x.2 < y.2 then x :: y :: ys else y :: insertByLast x ys
/-- The groups of a core able to issue, the one that issued least recently first (R158); at a tie the lowest number. -/
def State.ableGroups (s : State) (core : Nat) : List Nat :=
  let l := List.filter (fun (_, g) => g.able && match s.blocks.find g.blk with
    | some b => b.core == core && !b.saved && !b.retired
    | none => false) s.groups
  (l.foldl (fun acc x => insertByLast (x.1, x.2.last) acc) []).map (·.1)

/-- The word at which the group stands is tried: what was issued before it has a lower number (R293). -/
def State.trying (s : State) : State :=
  if s.cg.tried = 0 then { s with cg := { s.cg with tried := s.nextId } } else s
/-- The current group's next word: a deferred trap comes first (R364). -/
def State.issueFocused (run : Instr → State → Out) (s : State) : Out :=
  match s.cg.pend with
  | t :: rest =>
    let live := laneMask s.cg.liveLanes
    let t := if t.lanes == 0 then { t with lanes := live } else t
    .next { s with cg := { s.cg with trap := some t, park := some .trap, trapAt := s.now, pend := rest, walked := [], tried := 0 } }
  | [] => match s.fetch with
    | .error t => .next t
    | .ok (w, t) => (t.trying).issueWord run w

/-- Write the focused entities back after a step. -/
def Out.commit : Out → Out
  | .next t => .next t.commit
  | o => o

/-- A core issues one word: of the groups able to issue whose words have been fetched, that of the one that issued least
recently (R157, R158). How long a fetch takes is open: `skip` groups that issued less recently still wait for theirs, and
are not able to issue (log entry 56). -/
def State.issueStep (run : Instr → State → Out) (s : State) (die core skip : Nat) : Out :=
  match ((s.ableGroups (die * 64 + core))[skip]?).bind s.focus with
  | some t => Out.commit (t.issueFocused run)
  | none => .next s

end Sys2Proof.Machine
end

