-- ==== Sys2Proof/Machine/Home.lean ====
section
/-! DEFINITION. What a home does: speculative versions (R337), watches (R308, R344, R345, R92), atomics (R223), and the
steps of the fabric that perform a group's requests (R215 to R237, R317). -/

namespace Sys2Proof.Machine

/-! ## Sets -/

def sameSet (a b : ASet) : Bool := subset a b && subset b a
/-- Round after round, every live identifier that has a parent in the list joins it (R347). -/
def descendFrom (aids : Tab Aid) : Nat → List Nat → List Nat
  | 0, ids => ids
  | n + 1, ids =>
    descendFrom aids n (union ids ((List.filter (fun (_, a) => a.refusal.isNone && meets a.parents ids) aids).map (·.1)))
/-- Identifiers together with their descendants. -/
def State.descend (s : State) (ids : List Nat) : List Nat := descendFrom s.aids s.aids.length ids
/-- A decision reaches the minting unit; the first one counts (R349). -/
def State.ruling (s : State) (id : Nat) (yes : Bool) : State :=
  match s.aids.find id with
  | some a => if a.refusal.isSome || s.resol.any fun r => r.1 == id then s else { s with resol := s.resol ++ [(id, yes)] }
  | none => s
/-- A slot becomes free (R330). -/
def State.freeSlot (s : State) (id : Nat) : State := { s with aids := s.aids.del id, freeSlots := s.freeSlots ++ [id % 2 ^ 12] }

/-! ## Agents (R298) and what engine reads may return (R262, R299) -/

/-- A group as a writer or a reader. -/
def State.agentOf (s : State) (grp blk : Nat) : Agent :=
  match s.block blk with
  | some b => ⟨grp, blk, if b.gang == 0 then nobody else b.gang, coreDie b.core, b.task, b.part, false⟩
  | none => { Agent.unit with grp := grp }
/-- The writer of bytes that several groups share: what their writers have in common. -/
def Agent.meet (a b : Agent) : Agent :=
  let both (x y : Nat) : Nat := if x == y then x else nobody
  ⟨both a.grp b.grp, both a.blk b.blk, both a.gang b.gang, both a.die b.die, both a.task b.task, both a.part b.part, a.host && b.host⟩
/-- Mirror's or Prism's write for a partition, as the unit of a physical die (R298). -/
def State.unitOf (s : State) (part ldie : Nat) : Agent :=
  { Agent.forPart part with die := ((s.part part).map fun P => P.physDie ldie).getD nobody }
/-- The writer of a request: its group, or of a drain the groups whose bytes it carries. -/
def State.reqWriter (s : State) (q : Req) : Agent :=
  match q.owners with
  | [] => { s.agentOf q.grp q.blk with part := q.part }
  | o :: os => { os.foldl (fun a x => a.meet (s.agentOf x.grp x.blk)) (s.agentOf o.grp o.blk) with part := q.part }
/-- The narrowest scope that holds both a reader and a writer (R298). `ops` are engine operations that count as the reader's
own (R264). -/
def Agent.level (r : Agent) (ops : List Nat) (w : Agent) : Nat :=
  if w.host then 6
  else if w.grp != nobody && (w.grp == r.grp || ops.contains w.grp) then 0
  else if w.blk != nobody && w.blk == r.blk then 1
  else if w.gang != nobody && w.gang == r.gang then 2
  else if w.die != nobody && w.die == r.die then 3 else 4
/-- A write is ordered before an engine read: some fence at a scope that holds both came after it (R262, R298). -/
def Wr.ordered (r : Agent) (ops ord : List Nat) (w : Wr) : Bool :=
  w.at_ == 0 || (List.range 7).any fun k => r.level ops w.by_ ≤ k && w.at_ ≤ ord.getD k 0
/-- Of the writes of a byte, newest first, those that an engine read may return: the latest one that is ordered before it,
and those made after that one (R262, R299, R323). -/
def mayReturn (ordered : Wr → Bool) : List Wr → List Wr
  | [] => []
  | w :: ws => if ordered w then [w] else w :: mayReturn ordered ws
/-- A byte as an engine reads it: one of the writes it may return, by a free choice. -/
def engineSees (hist : List Wr) (now : Byte) (ordered : Wr → Bool) (pick : Nat) : Byte :=
  match mayReturn ordered hist with
  | [] => now
  | [w] => w.val
  | may => ((may[pick % may.length]?).map Wr.val).getD now
/-- A fence or start at scope k orders the writes made so far. -/
def ordAt (ord : List Nat) (k point : Nat) : List Nat := ord.set k point
/-- A scope by its number (R298). -/
def scopeNo : Scope → Nat
  | .grp => 0 | .blk => 1 | .cls => 2 | .die => 3 | .pkg => 4 | .dom => 5 | .sys => 6
/-- Writes become visible at scope k up to a point, beside those that were. -/
def visAt (vis : List Nat) (k point : Nat) : List Nat := vis.set k (Nat.max (vis.getD k 0) point)
/-- What two agents have made visible between them, scope by scope. -/
def visMax (a b : List Nat) : List Nat := tab 7 fun k => Nat.max (a.getD k 0) (b.getD k 0)
/-- An acquire at scope k that read what stood at a place in write order (R321, R322). -/
def Group.acquire (g : Group) (k point : Nat) : Group := { g with vis := visAt g.vis k point }
/-- The latest place in write order of the bytes of a location, as a generic read finds them. -/
def State.placeOf (s : State) (loc : Loc) (n : Nat) : Nat :=
  let newest (h : List Wr) : Nat := ((h.head?).map Wr.at_).getD 0
  let at_ (i : Nat) : Nat := match loc with
    | .dev pa => newest (s.histOf (pa + i))
    | .host link ba => newest ((s.hostWrote.find (link * 2 ^ 64 + ba + i)).getD [])
    | .pad b off => newest (((s.block b).bind fun B => B.padAt.find (off + i)).getD [])
    | .frame _ _ => 0
  (List.range n).foldl (fun m i => Nat.max m (at_ i)) 0

/-! ## Evaluation after a write -/

/-- WAITA's condition at a location: the value and set of what a reader sees, when it holds (R307, R308). -/
def watchHit (c : WaitCond) (cmp n : Nat) (bytes : List Byte) : Bool := c.holds (8 * n) (ofBytes bytes) cmp
/-- A watch of a block that has been saved is withdrawn until the block is restored (R308, R381). -/
def State.withdrawn (s : State) (q : Req) : Bool :=
  match q.kind, s.block q.blk with
  | .watch _ _, some b => b.saved
  | _, _ => false
/-- The agent of a request for the log (R376). -/
def State.reqAgent (s : State) (q : Req) : Nat :=
  match s.group q.grp with
  | some g => s.groupAgent g
  | none => noAgent
/-- A watch armed on a line of device memory is evaluated by the write being performed. -/
def State.watches (s : State) (line : Nat) (q : Req) : Bool :=
  match q.kind, q.status, q.loc with
  | .watch _ _, .held, .dev pa => lineOf pa == line && !s.withdrawn q
  | _, _, _ => false
/-- What the evaluation of a watch finds: its read fails for good, or meets the condition, or neither (R307, R308). -/
def State.evaluated (s : State) (q : Req) : Req :=
  match q.kind, q.loc with
  | .watch c cmp, .dev pa =>
    let r := s.readNewest pa q.n
    if s.eccLost pa q.n then { q with status := .failed 0x07 }
    else if watchHit c cmp q.n r.1 then { q with status := .done, res := r.1, rset := r.2, saw := s.placeOf q.loc q.n } else q
  | _, _ => q
/-- WAITA_EVALUATE: every armed watch on a line of device memory; its read meets the ECC words (R235). -/
def State.evalWatches (s : State) (line : Nat) : State :=
  let t := s.reqs.foldl (fun (t : State) (_, q) => if s.watches line q then
    (t.eccRead q.part (s.reqAgent q) q.pc q.va (match q.loc with
      | .dev pa => pa
      | _ => 0) q.n).2 else t) s
  { t with reqs := s.reqs.mapAll fun _ q => if s.watches line q then s.evaluated q else q }
/-- Every armed watch on a scratchpad line of a block. -/
def State.evalPadWatches (s : State) (blk line : Nat) : State :=
  match s.block blk with
  | none => s
  | some b =>
    { s with reqs := s.reqs.mapAll fun _ q =>
      match q.kind, q.status, q.loc with
      | .watch c cmp, .held, .pad k off =>
        let bs := b.padBytes off q.n
        if k == blk && off / 128 == line && !s.withdrawn q && watchHit c cmp q.n bs then
          { q with status := .done, res := bs, rset := b.tag line, saw := s.placeOf q.loc q.n }
        else q
      | _, _, _ => q }
/-- Committed VALUE and SEQ of a truth cell (R332). -/
def State.cellAt (s : State) (pa : Nat) : Nat × Nat := (ofBytes (s.devBytes pa 8), ofBytes (s.devBytes (pa + 8) 8))
/-- TRUTH_CELL_WATCH: the watches of a line decide, and refusals whose sequence has come end (R344, R348). -/
def State.evalTruth (s : State) (line : Nat) : State :=
  s.aids.foldl (fun t (id, a) =>
    if lineOf a.cell != line then t
    else
      let c := t.cellAt a.cell
      if a.refusal.isSome then (if a.es ≤ c.2 then t.freeSlot id else t)
      else if c.2 == a.es then t.ruling id (c.1 == a.pv)
      else if a.es < c.2 then t.ruling id false else t) s
/-- WAITS tasks that read a line: the committed dword is at least the value, or its read fails (R92, R341). -/
def State.evalWaits (s : State) (line : Nat) : State :=
  { s with tasks := s.tasks.mapAll fun _ k =>
    match k.instr, k.state with
    | .waits _ _ _ _, .issued =>
      match s.reach k.part k.qa 8 true false with
      | .ok (.dev pa) =>
        if lineOf pa != line || k.met then k
        else if s.eccLost pa 8 then { k with met := true, cause := some 0x07, daddr := k.qa }
        else if k.qb ≤ ofBytes (s.devBytes pa 8) then { k with met := true } else k
      | _ => k
    | _, _ => k }
/-- After a committed write to a line. -/
def State.committed (s : State) (line : Nat) : State := ((s.evalWatches line).evalTruth line).evalWaits line
/-- SELF_CELL_DENIAL (R345): a write with a set reaches bytes of a truth cell whose watch rests under that set. -/
def State.selfCell (s : State) (pa n : Nat) (set : ASet) : State :=
  s.aids.foldl (fun t (id, a) =>
    if a.refusal.isNone && a.cell < pa + n && pa < a.cell + 16 && meets set (s.descend [id]) then t.ruling id false
    else t) s

/-- A write that its home holds has no effect yet but the denials of watches on its own cell (R345). -/
def State.ruledAs (s t : State) : State := { s with resol := t.resol }

/-! ## Writes at a home (R317, R337) -/

/-- A write of an agent without a set: committed data and every version. -/
def State.storeClean (s : State) (pa : Nat) (data : List (Option Byte)) (by_ : Agent := .unit) : State :=
  let line := lineOf pa
  let t := s.writeDev pa by_ data
  let vs := (s.versions line).map fun v => v.over (pa % 128) (s.wclock + 1) by_ data
  let u : State := { t with wclock := s.wclock + 1, vers := if vs.isEmpty then t.vers else t.vers.ins line vs }
  u.committed line
/-- What a write with a set meets (R337, R338, R340): it is performed, with what the writer read; or it must wait for a
version to go or for room in its set. -/
inductive Put where | done (s : State) (read : List Byte) (rset : ASet) | third (s : State) | tooMany (s : State)

/-- A line's committed data as the first version takes it. -/
def State.lineVersion (s : State) (line : Nat) : Version :=
  ⟨[], s.devBytes (line * 128) 128, tab 128 fun i => (s.wrote.find (line * 128 + i)).getD []⟩
/-- A write of a group at a line of device memory: `f` gives the bytes from what a reader sees. Whatever becomes of it, it
denies a watch on its own cell (R345). -/
def State.storeAt (s : State) (pa n : Nat) (set : ASet) (atomic : Bool) (by_ : Agent) (f : List Byte → List (Option Byte)) : Put :=
  let line := lineOf pa
  let r := s.readNewest pa n
  let newest := s.newest line
  let set1 := if set.isEmpty && atomic then r.2 else set
  if set1.isEmpty then .done (s.storeClean pa (f r.1) by_) r.1 []
  else
    let u := union set1 r.2
    if u.length > 4 then .tooMany (s.selfCell pa n u)
    else
      let new : Version := { (newest.getD (s.lineVersion line)).over (pa % 128) (s.wclock + 1) by_ (f r.1) with set := u }
      let vs := s.versions line
      let same := match newest with
        | some v => sameSet v.set u
        | none => false
      if !same && 2 ≤ vs.length then .third (s.selfCell pa n u)
      else
        let vs2 := if same then vs.dropLast ++ [new] else vs ++ [new]
        let t : State := { s with wclock := s.wclock + 1, vers := s.vers.ins line vs2 }
        .done ((t.evalWatches line).selfCell pa n u) r.1 r.2

/-- A write of a block's scratchpad at its home: tag, undo entry, watches (R339, R308). -/
def State.storePad (s : State) (blk off : Nat) (data : List (Option Byte)) (set : ASet) (by_ : Agent) (how : WrHow) : State :=
  let t : State := { s with wclock := s.wclock + 1 }
  (t.updBlock blk fun b => b.padWrite off data set ⟨s.wclock + 1, by_, 0, how⟩).evalPadWatches blk (off / 128)
/-- How many undo entries writes with a set to some scratchpad lines need (R339). -/
def Block.undoNeed (b : Block) (lines : List Nat) (set : ASet) : Nat :=
  (lines.eraseDups.filter fun k => b.needsUndo k (union set (b.tag k))).length
/-- A granted pass of the block works under a set that a write to a scratchpad line would enlarge: the write comes after the
pass, which R261 bounds. -/
def State.passHolds (s : State) (b : Block) (blk line : Nat) (set : ASet) : Bool :=
  s.clusters.any fun (_, c) => c.pass.toList.any fun e => e.blk == blk && e.lines.contains line &&
    !subset (union set (b.tag line)) e.set
/-- Writes to some lines need more undo entries than are free of a core's 256, of which `used` are not (R339). Where
`maybe` holds their sets are not known yet. -/
def State.noUndoIn (s : State) (used : Nat → Nat) (blk : Nat) (lines : List Nat) (set : ASet) (maybe : Bool) : Bool :=
  match s.block blk with
  | some b =>
    let need := if maybe then lines.eraseDups.length else b.undoNeed lines set
    (0 < need && 256 < used b.core + need) || lines.any fun k => s.passHolds b blk k set
  | none => false
def State.noUndoFor (s : State) (blk : Nat) (lines : List Nat) (set : ASet) (maybe : Bool := false) : Bool :=
  s.noUndoIn s.sync.undoUsed blk lines set maybe
/-- A write needs an undo entry and none of the 256 is free (R339). -/
def State.noUndo (s : State) (blk off : Nat) (set : ASet) : Bool := s.noUndoFor blk [off / 128] set
/-- A write of a group at a scratchpad line; the line's tag taints the writer (R339). -/
def State.storePadAt (s : State) (blk off n : Nat) (set : ASet) (by_ : Agent) (f : List Byte → List (Option Byte)) : Put :=
  match s.block blk with
  | none => .done s [] []
  | some b =>
    let tag := b.tag (off / 128)
    let u := union set tag
    let old := b.padBytes off n
    if u.length > 4 then .tooMany s
    else if s.noUndoIn s.sync.undoTaken blk [off / 128] u false then .third s
    else .done (s.storePad blk off (f old) u by_ .plain) old tag

/-! ## Atomics (R223, R225, R342) -/

/-- A signed or unsigned comparison's winner. -/
def pickBy (less : Bool) (x y : Nat) : Nat := if less then x else y
/-- f(old, y) on n bits; e is CAS's new value (R223). -/
def atomicFn (op : UOp) (old y e : Nat) : Nat :=
  match op with
  | .i w o =>
    let n := if w then 64 else 32
    match o with
    | .add => (old + y) % 2 ^ n
    | .mini => pickBy (sext n old ≤ sext n y) old y
    | .maxi => pickBy (sext n y ≤ sext n old) old y
    | .minn => pickBy (old ≤ y) old y
    | .maxn => pickBy (y ≤ old) old y
    | .and => Nat.land old y
    | .or => Nat.lor old y
    | .xor => Nat.xor old y
  | .f o =>
    match o with
    | .addF32 => let f := Fmt.fpD .f32; (f.add .rne (f.decode old) (f.decode y)).1
    | .addF64 => let f := Fmt.fpD .f64; (f.add .rne (f.decode old) (f.decode y)).1
    | .exchB32 | .exchB64 => y
    | .casB32 | .casB64 => if old == y then e else old
    | .incWrap => if y ≤ old then 0 else old + 1
    | .decWrap => if old == 0 || y < old then y else old - 1
/-- What may be sent to a host page as a PCIe AtomicOp (R225). -/
def hostOk : UOp → Bool
  | .i _ .add => true
  | .f .exchB32 | .f .exchB64 | .f .casB32 | .f .casB64 => true
  | _ => false
def someBytes (bs : List Byte) : List (Option Byte) := bs.map some

/-- FetchAdd, Swap and CAS of an agent that reads committed data only (R342). -/
inductive CleanOp where | add (v : Nat) | swap (v : Nat) | cas (cmp new : Nat)
/-- Such an atomic at device memory: the committed old value and the state after it. -/
def State.cleanAtomic (s : State) (pa n : Nat) (op : CleanOp) (by_ : Agent := .unit) : Nat × State :=
  let old := ofBytes (s.devBytes pa n)
  match op with
  | .swap v => (old, s.storeClean pa (someBytes (toBytes n v)) by_)
  | .cas c e => (old, if old == c then s.storeClean pa (someBytes (toBytes n e)) by_ else s)
  | .add v =>
    let line := lineOf pa
    let bump (bs : List Byte) : List (Option Byte) := someBytes (toBytes n (ofBytes bs + v))
    let vs := (s.versions line).map fun x => x.over (pa % 128) (s.wclock + 1) by_ (bump ((x.bytes.drop (pa % 128)).take n))
    let t := s.writeDev pa by_ (bump (s.devBytes pa n))
    let u : State := { t with wclock := s.wclock + 1, vers := if vs.isEmpty then t.vers else t.vers.ins line vs }
    (old, u.committed line)

end Sys2Proof.Machine
end

