-- ==== Sys2Proof/Machine/Arrive.lean ====
section
/-! DEFINITION. The arrival of a variable-latency value: its destination, its taint and the holds it ends (R143 to R146,
R336, R340). -/

namespace Sys2Proof.Machine

/-- What a load of a type writes to its destination, as a number of up to 128 bits (R219). -/
def memExtend (t : MemTy) (bs : List Byte) : Nat :=
  match t with
  | .i8 => wrap 32 (sext 8 (ofBytes bs))
  | .i16 => wrap 32 (sext 16 (ofBytes bs))
  | _ => ofBytes bs

/-- Write lanes of a physical register. -/
def Group.putPhys (g : Group) (p : Nat) (lanes : List Nat) (v : Nat → Word) : Group :=
  { g with phys := g.phys.upd p fun old => tab g.width fun l => if lanes.contains l then v l else old.getD l 0 }
def Handler.putV (h : Handler) (w r : Nat) (lanes : List Nat) (v : Nat → Word) : Handler :=
  { h with v := h.v.set r (tab w fun l => if lanes.contains l then v l else (h.v.getD r []).getD l 0) }

/-- Write word i of a value to the i-th v name: into the physical register mapped at issue, or the handler's; a name
written meanwhile is left undefined in every lane (R144, R146). -/
def Group.writeDestV (g : Group) (f : Flight) (fr : Nat → Nat → Word) (lanes : List Nat) (val : Nat → Nat) :
    Nat → List Nat → List Nat → Group
  | _, [], _ => g
  | i, r :: rs, ps =>
    let bad := f.spoiltBy r (g.seq + 1)
    let v := fun l => if bad then fr r l else wordOf i (val l)
    let whole := if bad then List.range g.width else lanes
    let g1 := if f.bank then { g with handler := g.handler.map fun h => h.putV g.width r whole v }
      else match ps with
        | p :: _ => g.putPhys p whole v
        | [] => g
    g1.writeDestV f fr lanes val (i + 1) rs (ps.drop 1)
/-- A value reaches an s register of a snapshot or hold whose restore point comes after its word: it is the one described
there, unless a word before that point wrote the name (R144, R146). -/
def Snap.putS (n : Snap) (f : Flight) (r : Nat) (fr v : Word) : Snap :=
  if f.bank || n.seq ≤ f.seq then n else { n with s := n.s.setIfInBounds r (if f.spoiltBy r n.seq then fr else v) }
/-- Write word i of a value to the i-th s name, and into the snapshots and holds taken since. -/
def Group.writeDestS (g : Group) (f : Flight) (fr : Nat → Nat → Word) (val : Nat) : Nat → List Nat → Group
  | _, [] => g
  | i, r :: rs =>
    let v := if f.spoiltBy r (g.seq + 1) then fr r 0 else wordOf i val
    let keep (n : Snap) : Snap := n.putS f r (fr r 0) (wordOf i val)
    let g1 : Group := if f.bank then { g with handler := g.handler.map fun h => { h with s := h.s.setIfInBounds r v } }
      else { g with s := g.s.setIfInBounds r v, snaps := g.snaps.map keep,
                    out := g.out.map fun x => { x with hold := x.hold.map keep } }
    g1.writeDestS f fr val (i + 1) rs
/-- Write a value where a flight's destination lies; an s destination takes it as of lane 0. -/
def Group.writeDest (g : Group) (f : Flight) (fr : Nat → Nat → Word) (lanes : List Nat) (val : Nat → Nat) : Group :=
  match f.dest with
  | .none => g
  | .s names => g.writeDestS f fr (val 0) 0 names
  | .v names phys _ => g.writeDestV f fr lanes val 0 names phys

/-- Names of a flight's destination whose register its own hold keeps. -/
def Flight.clash (f : Flight) : List Nat :=
  match f.hold with
  | some h => f.dest.phys.filter fun p => h.phys.contains p
  | none => []
/-- A map whose name of register p, if it has one, goes on with the k-th register of that name. -/
def remapV (m : Vector (Option Nat) 64) (p k : Nat) : Vector (Option Nat) 64 :=
  if (m[p % 64]?).getD none == some (p / 64) then m.setIfInBounds (p % 64) (some k) else m
def Dest.remap (d : Dest) (p q : Nat) : Dest :=
  match d with
  | .v names phys ty => .v names (phys.map fun x => if x == p then q else x) ty
  | d => d
/-- The value of a tainted load goes to a fresh register, so that the snapshot keeps the old one: the group, its later
snapshots and holds follow (log entry 21). It is undefined in the lanes that the load does not write (R136). -/
def Group.moveReg (g : Group) (seq : Nat) (fr : Nat → Nat → Word) (p : Nat) : Group :=
  let k := g.freshPhys
  let q := regNo (p % 64) k
  { g with vmap := remapV g.vmap p k, phys := g.phys.ins q (tab g.width (fr (p % 64))),
           snaps := g.snaps.map fun n => if seq < n.seq then { n with vmap := remapV n.vmap p k } else n,
           out := g.out.map fun f => if seq ≤ f.seq then
               { f with dest := f.dest.remap p q,
                        hold := if seq < f.seq then f.hold.map fun n => { n with vmap := remapV n.vmap p k } else f.hold }
             else f }

/-- Put a snapshot among the others by restore point; those taken later rest on its set as well (log entry 21). -/
def insertSnap (n : Snap) (new : ASet) : List Snap → List Snap
  | [] => [n]
  | m :: ms => if n.seq < m.seq then n :: (m :: ms).map fun x => { x with aset := union x.aset new } else m :: insertSnap n new ms

/-- Effects of the group that waited for a read leave with the set as it stands once all have returned (R336). -/
def State.released (s : State) (gid seq : Nat) (set : ASet) : State :=
  let drop (w : List Nat) : List Nat := w.filter fun x => x != seq
  let pick (w : List Nat) (old : ASet) : ASet := if w.contains seq && (drop w).isEmpty then set else old
  { s with
    reqs := s.reqs.mapAll fun _ q => if q.grp == gid then { q with wait := drop q.wait, set := pick q.wait q.set } else q,
    copies := s.copies.mapAll fun _ c => if c.grp == gid then { c with wait := drop c.wait, set := pick c.wait c.set } else c,
    sends := s.sends.mapAll fun _ c => if c.grp == gid then { c with wait := drop c.wait, set := pick c.wait c.set } else c,
    clusters := s.clusters.mapAll fun _ k => { k with table := k.table.map fun e =>
      if e.grp == gid then { e with wait := drop e.wait, set := pick e.wait e.set } else e } }

/-- Free values for undefined destination lanes. -/
def State.freeDest (s : State) (r l : Nat) : Word := s.freeWord (r * 64 + l)
/-- Free values for the lanes of a fresh register that a load leaves undefined. -/
def State.freeMoved (s : State) (r l : Nat) : Word := s.freeWord (24576 + r * 64 + l)
/-- What a group has acquired by the end of a read or an atomic of its: the place of what it read, at the scope of an acquire
(R321, R322). -/
def Group.sees (g : Group) (q : Req) : Group :=
  let h : Group := { g with saw := Nat.max g.saw q.saw }
  if q.acq then h.acquire (scopeNo q.scope) q.saw else h
/-- The group ends with stores of its own before it: what still waited for one of its reads leaves without a set, since all
have returned (R164, R336). -/
def State.unheld (s : State) (gid : Nat) : State :=
  { s with reqs := s.reqs.mapAll fun _ q => if q.grp == gid && !q.wait.isEmpty then { q with wait := [], set := [] } else q }

/-- The pool has no registers for n more of the group (R139): tainted data waits in the core for them. -/
def State.poolShort (s : State) (n : Nat) : Bool :=
  let g := s.cg
  let need := (g.holding + n) - Nat.max g.holding s.cb.hdr.floor
  !g.rescued && need > 0 && s.sync.pool s.cb.core < need * g.granule
/-- A value arrives for a flight of the group in focus (R146, R336): none when the data must wait in the core (R340). -/
def State.deliver (s : State) (f : Flight) (lanes : List Nat) (val : Nat → Nat) (rset : ASet) (addr : Nat) : Option State :=
  let g := s.cg
  let rest (h : Group) : Group := { h with out := h.out.filter fun x => x.seq != f.seq }
  if f.drop then some ({ s with cg := (rest g).collect.settle s.cb.hdr.floor } : State)
  else
    let new := rset.filter fun a => !g.aset.contains a
    let fit := g.taintFit rset
    let over_ := fit == .tooMany || fit == .noSlot
    if new.isEmpty then
      let g1 := g.writeDest f s.freeDest lanes val
      some (({ s with cg := (rest g1).collect.settle s.cb.hdr.floor } : State).released s.cgId f.seq g.aset |>.spend wordFree)
    else if over_ && s.cb.hdr.astrict then
      let g1 := g.writeDest f s.freeDest lanes fun l => s.freeWide (20000 + l)
      let t : State := { s with cg := (rest g1).collect.settle s.cb.hdr.floor }
      some ((t.deferTrap s.cgId 0x0E (if fit == .tooMany then 1 else 2) addr 0 f.pc f.seq lanes 7).released s.cgId f.seq g.aset
        |>.spend wordFree)
    else if over_ || g.holding + f.clash.length > s.cb.hdr.cap || s.poolShort f.clash.length then none
    else
      let g1 := f.clash.foldl (fun h p => h.moveReg f.seq s.freeMoved p) g
      let f1 := (g1.out.find? fun x => x.seq == f.seq).getD f
      let set := union g.aset rset
      let g2 := { g1 with aset := set, snaps := match f.hold with
        | some h => insertSnap { h with guard := new } new g1.snaps
        | none => g1.snaps }
      let g3 := g2.writeDest f1 s.freeDest lanes val
      some (({ s with cg := (rest g3).collect.settle s.cb.hdr.floor } : State).released s.cgId f.seq set |>.spend wordFree)

/-- Put a flight of the word being issued: its hold keeps the group as it stood before the word (R336). -/
def State.fly (s : State) (dest : Dest) (w : Waits) (lanes : List Nat) (hold : Option Snap) (limit : Nat) : State :=
  { s with cg := { s.cg with out := s.cg.out ++ [⟨s.cg.seq, s.cg.ia.toNat, lanes, dest, w, s.cg.inH, hold, [], false, s.now, limit⟩] } }

/-- A variable-latency v destination: allocate its names, and record where they map now (R136, R146). A name whose
earlier write is outstanding becomes undefined (R144). -/
def State.destV (s : State) (names : List Nat) (ty : MemTy) : State × Dest :=
  let u := names.foldl (fun (u : State) r =>
    let t := u.readyV r
    if t.cg.pendV r then t.spoilV r (u.cg.mapOf r) else t) s
  (u, .v names (names.filterMap fun r => if u.cg.inH then none else u.cg.mapOf r) ty)
/-- A variable-latency s destination (R144). -/
def State.destS (s : State) (names : List Nat) : State × Dest :=
  (names.foldl (fun (u : State) r =>
    if u.cg.pendS r then { u with cg := { u.cg with out := spoil u.cg.out true u.cg.inH r u.cg.seq } } else u) s, .s names)
/-- Names that were outstanding when a later word took them are undefined in that word's flight too (R144). -/
def State.flyV (s : State) (names : List Nat) (ty : MemTy) (w : Waits) (lanes : List Nat) (hold : Option Snap) (limit : Nat) : State :=
  let bad := names.filter s.cg.pendV
  let t := s.destV names ty
  let u := t.1.fly t.2 w lanes hold limit
  { u with cg := { u.cg with out := u.cg.out.map fun f => if f.seq == s.cg.seq then { f with spoiled := bad.map fun r => (r, f.seq) } else f } }
def State.flyS (s : State) (names : List Nat) (w : Waits) (lanes : List Nat) (hold : Option Snap) (limit : Nat) : State :=
  let bad := names.filter s.cg.pendS
  let t := s.destS names
  let u := t.1.fly t.2 w lanes hold limit
  { u with cg := { u.cg with out := u.cg.out.map fun f => if f.seq == s.cg.seq then { f with spoiled := bad.map fun r => (r, f.seq) } else f } }

end Sys2Proof.Machine
end

