-- ==== Sys2Proof/Machine/Memory.lean ====
section
/-! DEFINITION. Memory words: checks at issue, requests, the write-combining buffer (R203 to R228). -/

namespace Sys2Proof.Machine

/-! ## Requests -/

/-- A request of the word being issued. -/
def State.newReq (s : State) (kind : ReqKind) (lane va : Nat) (loc : Loc) (n : Nat) : Req :=
  { kind := kind, part := s.cpId, grp := s.cgId, blk := s.cbId, core := s.ccId, seq := s.cg.seq, pc := s.cg.ia.toNat,
    lane := lane, va := va, loc := loc, n := n, set := s.cg.aset, wait := s.cg.readsOut.filter fun x => x != s.cg.seq,
    after := [], status := .sent, res := [], rset := [], saw := 0, acq := false, rel := false, scope := .pkg, marks := 0, owners := [] }
def State.post (s : State) (q : Req) : State := { s with reqs := s.reqs.ins s.nextId q, nextId := s.nextId + 1 }

/-! ## The write-combining buffer (R228) -/

/-- An entry drains: one write of its bytes is sent. -/
def State.drainEntry (s : State) (core : Nat) (e : WcbEntry) : State :=
  let q : Req := { s.newReq (.store e.bytes) 0 0 (.dev (e.line * 128)) 128 with
    grp := nobody, blk := nobody, core := core, set := [], wait := [], owners := e.owners,
    va := ((e.owners.head?).map Owner.va).getD 0, part := ((s.core core).part).getD 0 }
  (s.updCore core fun c => { c with wcb := c.wcb.filter fun x => x.line != e.line }).post q
/-- The entries of a core that pass a test drain, oldest first. -/
def State.drainWhere (s : State) (core : Nat) (p : WcbEntry → Bool) : State :=
  ((s.core core).wcb.filter p).foldl (fun t e => t.drainEntry core e) s
/-- An entry holds bytes of the line at an address; those of a page that has moved since are bytes of the line at its new
home (R216, R217). -/
def State.entryOn (s : State) (pa : Nat) (e : WcbEntry) : Bool :=
  e.line == lineOf pa || match s.movedLoc (.dev (e.line * 128)) with
    | .dev x => lineOf x == lineOf pa
    | _ => false
/-- The entry of a line an access names drains before the access is sent. -/
def State.drainLoc (s : State) (loc : Loc) : State :=
  match loc with
  | .dev pa => s.drainWhere s.ccId (s.entryOn pa)
  | _ => s
/-- A word joins an entry's owners; each word stands there once, with the lanes whose bytes it holds. -/
def addOwner (o : Owner) : List Owner → List Owner
  | [] => [o]
  | x :: xs => if x.grp == o.grp && x.seq == o.seq then { x with lanes := union x.lanes o.lanes } :: xs else x :: addOwner o xs
/-- Bytes merge into an entry of their line. -/
def WcbEntry.merge (e : WcbEntry) (off : Nat) (data : List (Option Byte)) (o : Owner) : WcbEntry :=
  { e with bytes := tab 128 (fun i => if i < off then e.bytes.getD i none
      else match data.getD (i - off) none with
        | some b => some b
        | none => e.bytes.getD i none), owners := addOwner o e.owners }
/-- A store of a core merges into its line's entry, or opens one; a full entry drains. -/
def State.combineAt (s : State) (core pa : Nat) (data : List (Option Byte)) (o : Owner) : State :=
  let line := lineOf pa
  let c := s.core core
  let t := if c.wcb.any fun e => e.line == line then s
    else
      let u := if 64 ≤ c.wcb.length then (match c.wcb.head? with
        | some e => s.drainEntry core e
        | none => s) else s
      u.updCore core fun c => { c with wcb := c.wcb ++ [⟨line, List.replicate 128 none, s.now, []⟩] }
  let u := t.updCore core fun c => { c with wcb := c.wcb.map fun e => if e.line == line then e.merge (pa % 128) data o else e }
  u.drainWhere core fun e => e.line == line && e.bytes.all Option.isSome
/-- A lane's store of the word being issued. -/
def State.combine (s : State) (pa va lane : Nat) (data : List (Option Byte)) : State :=
  s.combineAt s.ccId pa data ⟨s.cgId, s.cbId, s.cg.seq, s.cg.ia.toNat, va, [lane]⟩

/-! ## Checks (R203, R204, R213, R214, R419) -/

/-- What the checks of one address find. -/
inductive MemCheck where | ok (loc : Loc) | fail (cause : Nat) | miss (page : Nat)
  deriving DecidableEq, Repr
def MemCheck.cause : MemCheck → Option Nat
  | .fail c => some c
  | _ => none

/-- A translation that the core keeps, or one that was walked for this word (R211, R213). -/
def State.translated (s : State) (va : Nat) : Option Walk :=
  match s.cc.tlb.find? fun l => l.covers s.cpId va with
  | some l => some (.leaf l)
  | none => (s.cg.walked.find? fun w => w.1 == va / 2 ^ 16).map (·.2)

/-- The checks of R214 in their order. `frame` allows the task's own frame; `atom` is an atomic's operation, which a host
page limits (R225). -/
def State.memCheck (s : State) (n : Nat) (r w frame : Bool) (atom : Option UOp) (va : Nat) : MemCheck :=
  if va / 2 ^ 57 != 0 then .fail 0x06
  else if s.cp.inWindow va then
    let off := va - s.cp.scr
    if s.cb.hdr.alloc < off + n then .fail 0x06
    else if va % n != 0 then .fail 0x04 else .ok (.pad s.cbId off)
  else if s.cp.inFrames va then
    if !(frame && s.cb.args ≤ va && va + n ≤ s.cb.args + 256) then .fail 0x06
    else if va % n != 0 then .fail 0x04 else .ok (.frame s.cb.task (va - s.cb.args))
  else if va % n != 0 then .fail 0x04
  else match s.translated va with
    | none => .miss (va / 2 ^ 16)
    | some .notPresent => .fail 0x05
    | some .protection => .fail 0x06
    | some (.error _) => .fail 0x07
    | some (.leaf l) =>
      if (r && !l.r) || (w && !l.w) then .fail 0x06
      else if l.host then
        (match atom with
          | some op => if hostOk op then .ok (.host s.cp.link (l.pbase + (va - l.vbase))) else .fail 0x06
          | none => .ok (.host s.cp.link (l.pbase + (va - l.vbase))))
      else .ok (.dev (l.pbase + (va - l.vbase)))

/-- Some lanes' walk met an entry that cannot be read: the error response reaches the group as a load's does, and the word
issues again after the trap (R235, R237; log entry 57). -/
def State.walkError (s : State) (va : Nat) (lanes : List Nat) : State :=
  let pa := match s.translated va with
    | some (.error a) => a
    | _ => 0
  s.deferTrap s.cgId 0x07 0 va pa s.cg.ia.toNat s.cg.seq lanes 2
/-- A word that reads or writes at one address, whose check fails with a cause: it traps, naming lanes. -/
def State.checkFail (s : State) (cause va : Nat) (lanes : List Nat) : State :=
  if cause == 0x07 then s.walkError va lanes else s.trapWith cause 0 va (laneMask lanes)
/-- Every lane is checked before any acts: walks that miss park the word; else the lowest failing lane's cause traps,
naming every lane that failed with it (R213, R214, R219). `addr` gives %taddr from that lane. -/
def State.withLanes (s : State) (lanes : List Nat) (chk : Nat → MemCheck) (addr : Nat → Nat) (go : (Nat → Loc) → State) : State :=
  let misses := lanes.filterMap fun l => match chk l with
    | .miss p => some p
    | _ => none
  if !misses.isEmpty then s.parkAt (.tlb misses.eraseDups)
  else match lanes.find? fun l => ((chk l).cause).isSome with
    | some l0 =>
      let same := lanes.filter fun l => (chk l).cause == (chk l0).cause
      if chk l0 == .fail 0x07 then s.walkError (addr l0) same
      else s.trapWith (((chk l0).cause).getD 0) 0 (addr l0) (laneMask same)
    | none => go fun l => match chk l with
      | .ok loc => loc
      | _ => .pad s.cbId 0

/-- An outstanding wait that acquires: later accesses come after it (R292, R307, R312). -/
def Group.acquiring (g : Group) : Bool := g.out.any fun f => match f.waits with
  | .watch | .pop _ | .xwait _ _ => true
  | _ => false
/-- A write of the group is held at its home for want of a version or of room in its set (R338, R340). -/
def State.heldWrite (s : State) : Bool :=
  s.reqs.any fun (_, q) => q.grp == s.cgId && q.status == .held && match q.kind with
    | .watch _ _ => false
    | _ => true
/-- A memory word waits for an acquire in progress (R320). -/
def State.gate (s : State) (go : State) : State := if s.cg.acquiring then s.parkAt .again else go
/-- The set a writer takes from the places it writes: scratchpad lines' tags, and the newest versions where it reads or is
itself tainted (R336, R337, R339). -/
def State.homeSet (s : State) (reads : Bool) (locs : List Loc) : ASet :=
  locs.foldl (fun u l => match l with
    | .dev pa => if reads || !s.cg.aset.isEmpty then union u (((s.newest (lineOf pa)).map Version.set).getD []) else u
    | .pad b off => union u (((s.block b).map fun B => B.tag (off / 128)).getD [])
    | _ => u) []
/-- A word that would pass a bound of R340 has no effect: it parks, or traps under ASTRICT. -/
def State.roomFor (s : State) (set : ASet) (go : State) : State :=
  match s.cg.taintFit set with
  | .same | .fits => go
  | .tooMany => if s.cb.hdr.astrict then s.trapNow 0x0E 0x01 else s.parkAt .assume
  | .noSlot => if s.cb.hdr.astrict then s.trapNow 0x0E 0x02 else s.parkAt .assume
/-- A word whose effect could not be undone waits for an empty set (R227, R343). -/
def State.untainted (s : State) (go : State) : State := if s.cg.aset.isEmpty then go else s.parkAt .again
def Loc.isHost : Loc → Bool
  | .host _ _ => true
  | _ => false
def Loc.isDev : Loc → Bool
  | .dev _ => true
  | _ => false
/-- Some acq atomic of the group has not been performed (R224). -/
def State.acqOut (s : State) : Bool := s.reqs.any fun (_, q) => q.grp == s.cgId && q.acq && q.status != .done

/-! ## Loads and stores (R218 to R221, R228) -/

def memNames (t : MemTy) (d : VReg) : List Nat := namesN d.val (max 1 (t.size / 4))
/-- The bytes a store takes from its data names (R219). -/
def State.storeData (s : State) (t : MemTy) (d : VReg) (l : Nat) : List (Option Byte) :=
  someBytes (toBytes t.size (((memNames t d).zipIdx).foldl (fun a ri => a + (s.rdV ri.1 l).toNat * 2 ^ (32 * ri.2)) 0))

/-- Free last uses of a word whose hold keeps the registers (R336). -/
def State.freeHeld (s : State) (vf : List Nat) : State := { s with cg := s.cg.unmap vf }
/-- The handler's words free nothing (R369). -/
def State.collected (s : State) : State := if s.cg.inH then s else { s with cg := s.cg.collect.settle s.cb.hdr.floor }

/-- Send the loads of every executing lane: the names wait for the data (R146, R336). -/
def State.sendLoads (s : State) (sw : Bool) (t : MemTy) (d : VReg) (vf : List Nat) (va : Nat → Nat) (loc : Nat → Loc) : State :=
  let lanes := s.cg.exLanes
  let s1 := lanes.foldl (fun u l => u.drainLoc (loc l)) s
  let s2 := ((s1.freeHeld vf).flyV (memNames t d) t .load lanes (some (s.cg.snap [])) 0).collected
  let s3 := lanes.foldl (fun u l => u.post { s.newReq .load l (va l) (loc l) t.size with wait := [] }) s2
  s3.finish sw
/-- A load in every executing lane. -/
def State.loadWord (s : State) (sw : Bool) (t : MemTy) (d : VReg) (tc : Touch) (va : Nat → Nat) (chk : Nat → MemCheck)
    (addr : Nat → Nat) : State :=
  s.operands { tc with vw := memNames t d, holds := true } <| s.gate <| s.withLanes s.cg.exLanes chk addr fun loc =>
    s.sendLoads sw t d tc.vf va loc

/-- A location whose home is not on a core's die (R228). -/
def State.remote (s : State) (core : Nat) (loc : Loc) : Bool :=
  match loc with
  | .dev pa => bits pa 47 42 != s.const.pkg || paDie pa != coreDie core
  | _ => false
/-- Two locations share a line (R232, R317). -/
def sameLine (a b : Loc) : Bool :=
  match a, b with
  | .dev x, .dev y => lineOf x == lineOf y
  | .host l x, .host m y => l == m && x / 128 == y / 128
  | .pad k x, .pad j y => k == j && x / 128 == y / 128
  | _, _ => false
/-- An earlier write of the core to the line is still on its way (R232). -/
def State.lineWrite (s : State) (core : Nat) (loc : Loc) : Bool :=
  s.reqs.any fun (_, q) => q.core == core && q.owners.isEmpty && q.kind.isWrite && !q.status.over_ && sameLine (s.movedLoc q.loc) loc
/-- Whether a lane's store goes to the write-combining buffer at once (R228): one that must first wait for a read of the
group, for an acquire, or for an earlier write of the core to its line, enters it when that is over. -/
def State.combines (s : State) (loc : Loc) : Bool :=
  s.cg.aset.isEmpty && s.cg.readsOut.isEmpty && !s.acqOut && s.remote s.ccId loc && !s.lineWrite s.ccId (s.movedLoc loc)
/-- A store whose home may taint the writer holds the group's registers until it is acknowledged: a scratchpad write,
and any write that leaves with a set (R336, R337, R339). -/
def State.storeHolds (s : State) (locs : List Loc) : Bool :=
  !s.cg.aset.isEmpty || !s.cg.readsOut.isEmpty || locs.any fun l => match l with
    | .pad _ _ => true
    | _ => false
/-- A scratchpad write that needs more undo entries than are free parks before it has any effect (R339); while a read of its
group is out, it is not known yet whether it will need them. -/
def State.undoFull (s : State) (locs : List Loc) : Bool :=
  let at_ := locs.filterMap fun l => match l with
    | .pad b off => some (b, off / 128)
    | _ => none
  at_.any fun x => s.noUndoFor x.1 ((at_.filter fun y => y.1 == x.1).map (·.2)) s.cg.aset (!s.cg.readsOut.isEmpty)

/-- A store in every executing lane, in ascending order (R220). -/
def State.storeWord (s : State) (sw : Bool) (t : MemTy) (d : VSrc) (tc : Touch) (va : Nat → Nat) (chk : Nat → MemCheck)
    (addr : Nat → Nat) : State :=
  let tc := tc.plus { vr := memNames t d.reg, vf := if d.last then memNames t d.reg else [] }
  s.operands tc <| s.gate <| s.withLanes s.cg.exLanes chk addr fun loc =>
    let lanes := s.cg.exLanes
    let locs := lanes.map loc
    if (locs.any Loc.isHost && !s.cg.aset.isEmpty) || s.undoFull locs then s.parkAt .again
    else s.roomFor (s.homeSet false locs) <|
      let s1 := if s.storeHolds locs
        then ((s.freeHeld tc.vf).fly .none .load lanes (some (s.cg.snap [])) 0).collected else s.freeV tc.vf
      let s2 := lanes.foldl (fun u l =>
        let data := s.storeData t d.reg l
        match loc l with
        | .dev pa =>
          if s.combines (.dev pa) then u.combine pa (va l) l data
          else (u.drainLoc (.dev pa)).post (s.newReq (.store data) l (va l) (.dev pa) t.size)
        | lc => u.post (s.newReq (.store data) l (va l) lc t.size)) s1
      s2.finish sw

/-- The address of LD and ST in a lane (R219). -/
def State.ldAddr (s : State) (a : VReg) (r : SReg) (l : Nat) : Nat := wrap 64 ((s.rdS64 r : Int) + (s.rdV a l).toInt)
def execLd (sw : Bool) (t : MemTy) (_h : Hint) (d : VReg) (a : VSrc) (r : SReg) (s : State) : Out :=
  let va := s.ldAddr a.reg r
  .next (s.loadWord sw t d ((a.touch false).plus (readS r true)) va
    (fun l => s.memCheck t.size true false true none (va l)) va)
def execSt (sw : Bool) (t : MemTy) (_h : Hint) (d : VSrc) (a : VSrc) (r : SReg) (s : State) : Out :=
  let va := s.ldAddr a.reg r
  .next (s.storeWord sw t d ((a.touch false).plus (readS r true)) va
    (fun l => s.memCheck t.size false true false none (va l)) va)

/-- LDS and STS: an exact offset in the block's own scratchpad (R219). -/
def State.padOff (s : State) (a : VReg) (r : SReg) (l : Nat) : Int := ((s.rdS r).toNat : Int) + (s.rdV a l).toInt
def State.padCheck (s : State) (n : Nat) (off : Int) : MemCheck :=
  if off < 0 || (s.cb.hdr.alloc : Int) < off + n then .fail 0x06
  else if off.toNat % n != 0 then .fail 0x04 else .ok (.pad s.cbId off.toNat)
def execLds (sw : Bool) (t : MemTy) (d : VReg) (a : VSrc) (r : SReg) (s : State) : Out :=
  let off := s.padOff a.reg r
  .next (s.loadWord sw t d ((a.touch false).plus (readS r false)) (fun l => s.cp.scr + (off l).toNat)
    (fun l => s.padCheck t.size (off l)) fun _ => s.wordAddr)
def execSts (sw : Bool) (t : MemTy) (d : VSrc) (a : VSrc) (r : SReg) (s : State) : Out :=
  let off := s.padOff a.reg r
  .next (s.storeWord sw t d ((a.touch false).plus (readS r false)) (fun l => s.cp.scr + (off l).toNat)
    (fun l => s.padCheck t.size (off l)) fun _ => s.wordAddr)

/-- LDC and STC: the scratchpad of a member of the gang (R207, R219). -/
def State.member (s : State) (m : Nat) : Option Nat := (s.gangs.find s.cb.gang).bind fun g => g.members[m]?
def State.gangCheck (s : State) (n m off : Nat) : MemCheck :=
  if s.cb.hdr.cluster == 0 || s.cb.hdr.cluster ≤ m then .fail 0x06
  else match s.member m with
    | none => .fail 0x06
    | some b =>
      if s.cb.hdr.alloc < off + n then .fail 0x06
      else if off % n != 0 then .fail 0x04 else .ok (.pad b off)
def execLdc (sw : Bool) (t : MemTy) (d : VReg) (a : VSrc) (r : SReg) (s : State) : Out :=
  let off := fun l => (s.rdV a.reg l).toNat
  .next (s.loadWord sw t d ((a.touch false).plus (readS r false)) (fun l => s.cp.scr + off l)
    (fun l => s.gangCheck t.size (s.rdS r).toNat (off l)) fun _ => s.wordAddr)
def execStc (sw : Bool) (t : MemTy) (d : VSrc) (a : VSrc) (r : SReg) (s : State) : Out :=
  let off := fun l => (s.rdV a.reg l).toNat
  .next (s.storeWord sw t d ((a.touch false).plus (readS r false)) (fun l => s.cp.scr + off l)
    (fun l => s.gangCheck t.size (s.rdS r).toNat (off l)) fun _ => s.wordAddr)

end Sys2Proof.Machine

namespace Sys2Proof

/-- The parts of a semantics code: acquire, release, scope (R224). -/
def Sem.acq : Sem → Bool
  | .acqPkg | .arPkg | .arDom | .arSys => true
  | _ => false
def Sem.rel : Sem → Bool
  | .relPkg | .arPkg | .arDom | .arSys => true
  | _ => false
def Sem.scope : Sem → Scope
  | .rlxDom | .arDom => .dom
  | .rlxSys | .arSys => .sys
  | _ => .pkg

end Sys2Proof

namespace Sys2Proof.Machine

/-! ## Atomics (R222 to R227, R233) -/

/-- The bytes an atomic touches. -/
def uopBytes (op : UOp) : Nat := if op.wide then 8 else 4
/-- A floating add at memory, which deterministic mode forbids (R223). -/
def floatAdd : UOp → Bool
  | .f .addF32 | .f .addF64 => true
  | _ => false
/-- Flush markers to gather before a release at dom or sys scope is performed in another package (R233): one for each of
tiers 0 and 1 (log entry 22). -/
def State.markers (s : State) (sem : Sem) (loc : Loc) : Nat :=
  match loc with
  | .dev pa => if sem.rel && (sem.scope == .dom || sem.scope == .sys) && bits pa 47 42 != s.const.pkg then 2 else 0
  | _ => 0
/-- The request of an atomic. -/
def State.atomReq (s : State) (op : UOp) (sem : Sem) (lane va : Nat) (loc : Loc) (y e : Nat) : Req :=
  { s.newReq (.atomic op y e) lane va loc (uopBytes op) with
    acq := sem.acq, rel := sem.rel, scope := sem.scope, marks := s.markers sem loc, after := if sem.rel then s.cg.behind else [] }
/-- A rel or ar atomic drains the core's write-combining buffer first; every atomic drains its own line (R228). -/
def State.atomDrain (s : State) (sem : Sem) (locs : List Loc) : State :=
  let t := if sem.rel then s.drainWhere s.ccId fun _ => true else s
  locs.foldl (fun u l => u.drainLoc l) t

/-- An atomic in every executing lane: with `d` it returns the old values; without, it is the RED form. -/
def State.atomWord (s : State) (sw : Bool) (op : UOp) (sem : Sem) (d : Option VReg) (a b : Nat) : State :=
  let n := uopBytes op
  let ty : MemTy := if op.wide then .b64 else .b32
  let cas := match op with
    | .f .casB32 | .f .casB64 => true
    | _ => false
  let rb := namesN b ((if op.wide then 2 else 1) * (if cas then 2 else 1))
  let va := fun l => s.rdV64 a l
  let y := fun l => s.vNum b op.wide l
  let e := fun l => if cas then s.vNum (b + (if op.wide then 2 else 1)) op.wide l else 0
  let dn := match d with
    | some d => memNames ty d
    | none => []
  s.operands { vr := names a true ++ rb, vw := dn, holds := true } <| s.gate <|
  s.withLanes s.cg.exLanes (fun l => s.memCheck n true true false (some op) (va l)) va fun loc =>
    let lanes := s.cg.exLanes
    let locs := lanes.map loc
    if floatAdd op && s.cb.det then s.trapNow 0x0A 0
    else if !s.cg.aset.isEmpty && (sem.scope == .sys || locs.any Loc.isHost) then s.parkAt .again
    else if s.undoFull locs || ((sem.acq || sem.rel) && s.heldWrite) then s.parkAt .again
    else s.roomFor (s.homeSet true locs) <|
      let s1 := s.atomDrain sem locs
      let s2 := match d with
        | some _ => (s1.flyV dn ty .load lanes (some (s.cg.snap [])) 0).collected
        | none => (s1.fly .none .load lanes (some (s.cg.snap [])) 0).collected
      let s3 := lanes.foldl (fun u l => u.post (s.atomReq op sem l (va l) (loc l) (y l) (e l))) s2
      let s4 := s3.finish sw
      if d.isNone && sem.acq then s4.parkAt (.performed s.cg.seq) else s4

def execAtom (sw w64 : Bool) (op : AopI) (sem : Sem) (d : VReg) (a : Fin 32) (b : VReg) (s : State) : Out :=
  .next (s.atomWord sw (.i w64 op) sem (some d) (2 * a.val) b.val)
def execRedAtom (sw w64 : Bool) (op : AopI) (sem : Sem) (a : Fin 32) (b : VReg) (s : State) : Out :=
  .next (s.atomWord sw (.i w64 op) sem none (2 * a.val) b.val)
def execAtomf (sw : Bool) (op : AopF) (sem : Sem) (d a b : VReg) (s : State) : Out :=
  .next (s.atomWord sw (.f op) sem (some d) a.val b.val)
def execRedAtomf (sw : Bool) (op : AopF) (sem : Sem) (a b : VReg) (s : State) : Out :=
  .next (s.atomWord sw (.f op) sem none a.val b.val)

end Sys2Proof.Machine
end

