-- ==== Sys2Proof/Machine/Fabric.lean ====
section
/-! DEFINITION. The steps of homes and the fabric that serve requests (R208 to R217, R223 to R237, R317, R337). A step
whose condition does not hold changes nothing (log entry 11). -/

namespace Sys2Proof.Machine

/-- The blocks whose accesses a request carries. -/
def Req.blocks (q : Req) : List Nat := if q.owners.isEmpty then [q.blk] else q.owners.map Owner.blk
/-- An earlier request, by number, that this one must follow: of the same core or the same block, wherever that stood, to the
same line (R232, R319); an acq atomic of its group; or, for a release, any access of its group, any drain of its core, and what
happens before it by a barrier or a queue (R224, R228, R323). -/
def Req.follows (q : Req) (k : Nat) (e : Req) : Bool :=
  !e.status.over_ && e.kind != .fence && !(match e.kind, e.status with
    | .watch _ _, .held => true
    | _, _ => false) &&
  (((e.core == q.core || meets e.blocks q.blocks) && sameLine e.loc q.loc) || (e.grp == q.grp && e.acq) ||
    (q.rel && (e.grp == q.grp || (e.core == q.core && !e.owners.isEmpty) || q.after.contains k)))
/-- The page of a location is being moved: its home holds requests, or answers "moved" (R216). -/
def State.migOf (s : State) (loc : Loc) : Option Migration :=
  match loc with
  | .dev pa => s.migs.find? fun m => m.old ≤ pa && pa < m.old + m.size && (m.final || m.switched)
  | _ => none
def Migration.oldHas (m : Migration) : Loc → Bool
  | .dev pa => decide (m.old ≤ pa) && decide (pa < m.old + m.size)
  | _ => false
def Migration.newHas (m : Migration) : Loc → Bool
  | .dev pa => decide (m.new ≤ pa) && decide (pa < m.new + m.size)
  | _ => false
/-- A request to a page that has moved is held while an earlier one of its core or block still has to be sent there anew
(R217, R319). -/
def State.pageFollows (s : State) (q e : Req) : Bool :=
  !e.status.over_ && (e.core == q.core || meets e.blocks q.blocks) && s.migs.any fun m => m.switched && m.newHas q.loc && m.oldHas e.loc
/-- A request may be performed now. DESIGN CHOICE (log entry 59): a sys-scope atomic to device memory that its group issued with an
empty set while a read was out, whose data then tainted the group, is open (R227 speaks of the set at issue, R336 of effects that
wait for the read): it is performed as a write of the group's set, so that it makes a version. -/
def State.mayServe (s : State) (id : Nat) (q : Req) : Bool :=
  (q.status == .sent || q.status == .held) && q.wait.isEmpty && q.marks == 0 &&
  !(q.loc.isHost && !q.set.isEmpty) && !s.withdrawn q &&
  s.reqs.all fun (k, e) => decide (id ≤ k) || !(q.follows k e || s.pageFollows q e)
def State.setReq (s : State) (id : Nat) (q : Req) : State := { s with reqs := s.reqs.ins id q }

/-- Serve a request: a page in its final phase holds it, a moved page answers "moved", a home that is down answers with
an error; else `go`. -/
def State.serve (s : State) (id : Nat) (kindOk : ReqKind → Bool) (go : Req → State) : State :=
  match s.reqs.find id with
  | none => s
  | some q =>
    if !kindOk q.kind || !s.mayServe id q then s
    else match s.migOf q.loc with
      | some m => if m.switched then s.setReq id { q with status := .moved } else s
      | none => if s.homeUp q.loc then go q else s.setReq id { q with status := .failed 0x07 }

/-- A read of the ECC words of an access: the state after it, or none when it fails for good (R235). -/
def State.eccOk (s : State) (q : Req) : Option State :=
  match q.loc with
  | .dev pa => match s.eccRead q.part (s.reqAgent q) q.pc q.va pa q.n with
    | (true, t) => some t
    | (false, _) => none
  | _ => some s
/-- What a group's read of a location returns, and the set it carries (R337, R339). -/
def State.readLoc (s : State) (loc : Loc) (n : Nat) : List Byte × ASet :=
  match loc with
  | .dev pa => s.readNewest pa n
  | .host l ba => (s.hostBytes l ba n, [])
  | .pad b off => match s.block b with
    | some B => (B.padBytes off n, B.tag (off / 128))
    | none => (tab n fun i => s.freeByte i, [])
  | .frame t off => match s.tasks.find t with
    | some T => ((((T.frame.flatMap fun d => toBytes 8 d).drop off).take n), [])
    | none => (List.replicate n 0, [])

/-- HOME_LOAD: a load, the read of an LDSH, or the arming of a watch (R299, R307, R317). -/
def State.homeLoad (s : State) (id : Nat) : State :=
  s.serve id (fun k => match k with
    | .load | .shape _ | .watch _ _ => true
    | _ => false) fun q =>
    match s.eccOk q with
    | none => s.setReq id { q with status := .failed 0x07 }
    | some t =>
      let r := t.readLoc q.loc q.n
      let hit := match q.kind with
        | .watch c cmp => watchHit c cmp q.n r.1
        | _ => true
      (t.setReq id (if hit then { q with status := .done, res := r.1, rset := r.2, saw := t.placeOf q.loc q.n } else { q with status := .held })).spend 64
def execHomeLoad (req : Nat) (s : State) : Out := .next (s.homeLoad req)

/-- What a write at its home does to the request: it is over, with an error where a read-modify-write failed (R236). `saw` is
the place in write order of what it read. -/
def State.settleReq (id : Nat) (q : Req) (good : Bool) (saw : Nat) : Put → State
  | .done t read rset =>
    (t.setReq id { q with status := if good then .done else .failed 0x07, res := read, rset := rset, saw := saw }).spend 64
  | .third t => t.setReq id { q with status := .held }
  | .tooMany t => t.setReq id { q with status := .held }
/-- The set that a write takes its group into: the line's tag, or the newest version's (R336, R337, R339). -/
def State.meetsSet (s : State) (q : Req) : ASet :=
  match q.loc, q.kind with
  | .dev pa, .store _ => if q.set.isEmpty then [] else ((s.newest (lineOf pa)).map Version.set).getD []
  | .dev pa, _ => ((s.newest (lineOf pa)).map Version.set).getD []
  | .pad b off, _ => ((s.block b).map fun B => B.tag (off / 128)).getD []
  | _, _ => []
/-- The cause and sub-cause of a bound of R340 that a write's group would pass: it is not performed. -/
def State.overBound (s : State) (q : Req) : Option Nat :=
  (s.group q.grp).bind fun g => match g.taintFit (s.meetsSet q) with
    | .same | .fits => none
    | .tooMany => some 0x010E
    | .noSlot => some 0x020E
/-- A write that would pass a bound waits at its home; under ASTRICT it fails, and its group traps (R340). It denies a watch on
its own cell all the same (R345). -/
def State.bounded (s : State) (id : Nat) (q : Req) (go : State) : State :=
  match s.overBound q with
  | none => go
  | some c => (match q.loc with
      | .dev pa => s.selfCell pa q.n (union q.set (s.meetsSet q))
      | _ => s).setReq id { q with status := if ((s.block q.blk).map fun (b : Block) => b.hdr.astrict).getD false then .failed c else .held }
/-- An invalidation under way waits for an access that was translated before it (R212). -/
def State.invalidated (s : State) (id : Nat) (q : Req) : Bool := match s.part q.part with
  | some P => P.tlbinv.getLsbD 0 && id < P.invAt && inRange (invRange P.tlbinv.toNat) q.va
  | none => false
/-- A committed store whose home is not on the core's die, and which had to wait in the core, enters the write-combining
buffer now, unless a later access or a later release of the core, or an invalidation, would have to drain it at once (R212,
R228). -/
def State.entersBuffer (s : State) (id : Nat) (q : Req) : Bool :=
  q.owners.isEmpty && q.set.isEmpty && s.remote q.core q.loc && !s.invalidated id q &&
  (match s.group q.grp, s.block q.blk with
    | some g, some b => !g.done && !b.retired && !b.saved
    | _, _ => false) &&
  s.reqs.all fun (k, e) => decide (k ≤ id) || e.status.over_ || e.core != q.core || !(e.rel || sameLine e.loc q.loc)
/-- HOME_WRITE: a store or drain (R226, R228, R229, R236, R337, R338, R339). -/
def State.homeWrite (s : State) (id : Nat) : State :=
  s.serve id (fun k => match k with
    | .store _ => true
    | _ => false) fun q =>
    match q.kind with
    | .store data => s.bounded id q
      (match q.loc with
        | .dev pa =>
          if s.entersBuffer id q then
            (s.combineAt q.core pa data ⟨q.grp, q.blk, q.seq, q.pc, q.va, [q.lane]⟩).setReq id { q with status := .done }
          else
            let r := s.rmw q.part (s.reqAgent q) q.pc q.va pa data
            State.settleReq id q r.1 0 (r.2.storeAt pa q.n q.set false (s.reqWriter q) fun _ => s.keepWords pa data)
        | .host l ba => (s.writeHost l ba (s.reqWriter q) data).setReq id { q with status := .done }
        | .pad b off => State.settleReq id q true 0 (s.storePadAt b off q.n q.set (s.reqWriter q) fun _ => data)
        | .frame _ _ => s.setReq id { q with status := .failed 0x06 })
    | _ => s
def execHomeWrite (req : Nat) (s : State) : Out := .next (s.homeWrite req)

/-- HOME_ATOMIC (R223, R225, R226). A host may reject an AtomicOp: a free choice. -/
def State.homeAtomic (s : State) (id : Nat) : State :=
  s.serve id (fun k => match k with
    | .atomic _ _ _ => true
    | _ => false) fun q =>
    match q.kind with
    | .atomic op y e =>
      let f (old : List Byte) : List (Option Byte) := someBytes (toBytes q.n (atomicFn op (ofBytes old) y e))
      s.bounded id q (match q.loc, s.eccOk q with
        | _, none => s.setReq id { q with status := .failed 0x07 }
        | .dev pa, some t => State.settleReq id q true (t.placeOf q.loc q.n) (t.storeAt pa q.n q.set true (s.reqWriter q) f)
        | .pad b off, some t => State.settleReq id q true (t.placeOf q.loc q.n) (t.storePadAt b off q.n q.set (s.reqWriter q) f)
        | .host l ba, some t =>
          if t.freeAt 0 % 2 = 1 then (t.setReq id { q with status := .failed 0x07 }).spend 1
          else
            let old := t.hostBytes l ba q.n
            ((t.writeHost l ba (s.reqWriter q) (f old)).setReq id { q with status := .done, res := old, saw := t.placeOf q.loc q.n }).spend 1
        | .frame _ _, some t => t.setReq id { q with status := .failed 0x06 })
    | _ => s
def execHomeAtomic (req : Nat) (s : State) : Out := .next (s.homeAtomic req)

/-! ## Responses -/

/-- The requests of a word of a group. -/
def State.wordReqs (s : State) (gid seq : Nat) : List (Nat × Req) :=
  List.filter (fun (_, q) => q.grp == gid && q.seq == seq && match q.kind with
    | .shape _ => false
    | _ => true) s.reqs
def State.dropReqs (s : State) (ids : List Nat) : State := { s with reqs := ids.foldl (fun t i => t.del i) s.reqs }
/-- All requests of a word have been performed: its flight's value arrives (R146, R336). -/
def State.arrive (s : State) (seq : Nat) : State :=
  match s.cg.out.find? fun f => f.seq == seq with
  | none => s
  | some f =>
    let rs := s.wordReqs s.cgId seq
    let mine := match f.waits with
      | .load | .watch => rs.all fun (_, q) => q.status == .done
      | .now _ => true
      | _ => false
    if !mine then s
    else
      let ty := match f.dest with
        | .v _ _ t => t
        | _ => .b64
      let val (l : Nat) : Nat := match f.waits with
        | .now v => v
        | _ => match (match f.dest with
            | .s _ => rs.head?
            | _ => rs.find? fun (_, q) => q.lane == l) with
          | some (_, q) => memExtend ty q.res
          | none => (s.freeWord (21000 + l)).toNat
      let rset := rs.foldl (fun u (_, q) => union u q.rset) []
      let addr := ((rs.find? fun (_, q) => !subset q.rset s.cg.aset).map fun (_, q) => q.va).getD 0
      match s.deliver f f.lanes val rset addr with
      | some t =>
        let u : State := if f.drop then t else { t with cg := rs.foldl (fun g x => g.sees x.2) t.cg }
        u.dropReqs (rs.map (·.1))
      | none => s
def ReqKind.isShape : ReqKind → Bool
  | .shape _ => true
  | _ => false
/-- A performed store, or RED form, is acknowledged (R232); with the last of its word, the hold ends. -/
def State.storeAck (s : State) (req : Nat) : State :=
  match s.reqs.find req with
    | none => s
    | some q =>
      if q.status != .done || q.kind.isShape then s
      else match s.group q.grp with
        | none => s.dropReqs [req]
        | some g => match g.out.find? fun f => f.seq == q.seq with
          | none => s.dropReqs [req]
          | some f => if f.dest == .none then s.onGroup q.grp fun t => t.arrive q.seq else s
/-- STORE_ACK. -/
def execStoreAck (req : Nat) (s : State) : Out := .next (s.storeAck req)

/-- A store of a group that has ended fails for good: its LAUNCH task will complete with MEM_ERROR (R81, R237). DESIGN CHOICE (log
entry 59): R237 says so of a block that has retired; of one that has not, while its group has ended, it says nothing. -/
def State.lateStoreError (s : State) (blk va : Nat) : State :=
  match s.block blk with
  | some b => s.updTask b.task fun T => { T with grid := T.grid.map fun G =>
      { G with storeErr := some (G.storeErr.getD va) } }
  | none => s
/-- The kind of log entry that a failed access of a cause makes (R376). -/
def errorKind (cause : Nat) : Nat := if cause % 256 == 0x0E then 7 else 2
/-- A store of a group fails for good (R237), or meets a bound of R340; of a group that was ended only the log entry remains. -/
def State.storeError (s : State) (part gid blk cause va pa pc seq : Nat) (lanes : List Nat) : State :=
  match s.group gid with
  | some g => if g.done then (s.logPart g.part (lastingEntry (s.groupAgent g) pc va pa)).lateStoreError blk va
      else s.deferTrap gid (cause % 256) (cause / 256) va pa pc seq lanes (errorKind cause)
  | none => if cause == 0x07 then s.logPart part (lastingEntry noAgent pc va pa) else s
def Loc.phys : Loc → Nat
  | .dev pa => pa
  | .host _ ba => ba
  | _ => 0
def ReqStatus.cause : ReqStatus → Nat
  | .failed c => c
  | _ => 0
/-- The requests of a word that have failed: their numbers, and the one of the lowest lane (R237, R366). -/
def State.failedReqs (s : State) (gid seq : Nat) : List (Nat × Req) :=
  (s.wordReqs gid seq).filter fun (_, q) => match q.status with
    | .failed _ => true
    | _ => false
def lowestLane : List (Nat × Req) → Option Req
  | [] => none
  | (_, q) :: l => match lowestLane l with
    | some r => some (if r.lane < q.lane then r else q)
    | none => some q
/-- A drain fails: every group whose bytes it carries traps once, for its lanes; no single word is concerned where the drain
carries several (R237, R364). -/
def State.drainError (s : State) (q : Req) : State :=
  (q.owners.map Owner.grp).eraseDups.foldl (fun t g =>
    let mine := q.owners.filter fun o => o.grp == g
    match mine with
    | [] => t
    | o :: _ => t.storeError q.part g o.blk q.status.cause o.va q.loc.phys (if 1 < q.owners.length then noPc else o.pc) o.seq
        (mine.foldl (fun u o => union u o.lanes) [])) s
/-- A store's failure reaches its group: one trap for every lane that failed, once every lane's access is over; what was
performed is acknowledged as it stands. -/
def State.storeFailure (s : State) (q : Req) : State :=
  let bad := s.failedReqs q.grp q.seq
  let q0 := (lowestLane bad).getD q
  let t : State := { s with reqs := s.reqs.mapAll fun k x => if bad.any fun b => b.1 == k then { x with status := .done } else x }
  bad.foldl (fun u b => u.storeAck b.1)
    (t.storeError q.part q.grp q.blk q0.status.cause q0.va q0.loc.phys q.pc q.seq (bad.map fun b => b.2.lane))
/-- A load's or atomic's failure reaches its group (R237): the failed lanes of the destination are undefined, and the group
traps once for all of them at its next issue opportunity. -/
def State.loadFailure (s : State) (q : Req) : State :=
  s.onGroup q.grp fun t =>
    match t.cg.out.find? fun f => f.seq == q.seq with
    | none => t.dropReqs ((t.failedReqs q.grp q.seq).map (·.1))
    | some f =>
      let bad := t.failedReqs q.grp q.seq
      let q0 := (lowestLane bad).getD q
      let lanes := bad.map fun b => b.2.lane
      let uni := match f.dest with
        | .s _ => true
        | _ => f.lanes.isEmpty
      let g1 := if f.drop then t.cg else t.cg.writeDest f t.freeDest lanes fun l => t.freeWide (20000 + l)
      let g2 := { g1 with out := g1.out.map fun x => if x.seq == f.seq then
        { x with lanes := x.lanes.filter fun l => !lanes.contains l } else x }
      let u : State := { t.dropReqs (bad.map (·.1)) with cg := g2 }
      let u := if f.drop then bad.foldl (fun u b => if b.2.status.cause == 0x07 then
            u.logPart b.2.part (lastingEntry (u.reqAgent b.2) b.2.pc b.2.va b.2.loc.phys) else u) u
        else u.deferTrap q.grp (q0.status.cause % 256) (q0.status.cause / 256) q0.va q0.loc.phys q.pc q.seq (if uni then [] else lanes)
          (errorKind q0.status.cause)
      let u := u.spend wordFree
      if (u.wordReqs q.grp q.seq).isEmpty then
        let g3 : Group := { u.cg with out := u.cg.out.filter fun y => y.seq != f.seq }
        ({ u with cg := g3.collect.settle u.cb.hdr.floor } : State).released q.grp q.seq u.cg.aset
      else u
/-- A request other than an LDSH's fails (R237): its group hears of it once every lane's access is over. -/
def State.requestError (s : State) (req : Nat) (q : Req) : State :=
  if !q.owners.isEmpty then (s.drainError q).dropReqs [req]
  else if !(s.wordReqs q.grp q.seq).all fun x => x.2.status.over_ then s
  else match q.kind with
    | .store _ => s.storeFailure q
    | _ => s.loadFailure q

/-- The page that a location belonged to before it moved. -/
def State.leftPage (s : State) (loc : Loc) : Option Migration := s.migs.find? fun m => m.switched && m.oldHas loc
/-- MOVED_RESPONSE: the core drops its entry for the page, and the walkers theirs; what its write-combining buffer holds for
the page is sent; it walks again and sends the request to the new home. Moved requests of a core are sent anew in the order
in which they were first sent (R217). -/
def execMovedResponse (req : Nat) (s : State) : Out :=
  .next (match s.reqs.find req with
    | none => s
    | some q => match s.leftPage q.loc with
      | none => if q.status == .moved then s.setReq req { q with status := .sent } else s
      | some m =>
        if q.status != .moved || s.reqs.any (fun (k, e) => k < req && e.core == q.core && !e.status.over_ && m.oldHas e.loc) then s
        else
          let gone (pbase size : Nat) : Bool := pbase < m.old + m.size && m.old < pbase + size
          let t := s.updCore q.core fun c => { c with tlb := c.tlb.filter fun l => l.host || !gone l.pbase l.size }
          let u := { t.drainWhere q.core (fun e => m.oldHas (.dev (e.line * 128))) with
            ptes := t.ptes.filter fun p => !(p.part == m.part && p.leaf && p.va ≤ m.va && m.va < p.va + p.size) }
          u.setReq req { q with status := .sent, loc := s.movedLoc q.loc })

/-- FLUSH_MARKER: one marker is gathered at the home's package (R233): every earlier message of its path has arrived,
so the group's earlier accesses to that package must have been performed. -/
def execFlushMarker (req : Nat) (s : State) : Out :=
  .next (match s.reqs.find req with
    | none => s
    | some q => if q.marks = 0 then s else s.setReq req { q with marks := q.marks - 1 })

/-- WCB_DRAIN_TIMEOUT: 2 µs after it opened, an entry drains (R228). -/
def execWcbDrainTimeout (die core line : Nat) (s : State) : Out :=
  .next (s.drainWhere (die * 64 + core) fun e => e.line == line && e.opened + 2 * usec ≤ s.now)

/-- TLB_WALK_COMPLETE: the walks a parked word waits for are done; the leaves stay in the core's TLB (R211, R213). -/
def execTlbWalkComplete (group : Nat) (s : State) : Out :=
  .next (s.onGroup group fun t =>
    match t.cg.park with
    | some (.tlb pages) =>
      let found := pages.map fun p => (p, t.walk t.cpId (p * 2 ^ 16))
      let u := found.foldl (fun u w => match w.2 with
        | .leaf l => (u.keepWalk u.cpId (w.1 * 2 ^ 16)).keepLeaf l
        | _ => u.keepWalk u.cpId (w.1 * 2 ^ 16)) t
      { u with cg := { u.cg with walked := found, park := none } }
    | _ => t)

end Sys2Proof.Machine
end

