-- ==== Sys2Proof/Machine/Uniform.lean ====
section
/-! DEFINITION. Uniform arithmetic and the special registers (R169, R170, R172, R202). -/

namespace Sys2Proof

/-- The registers readable only in the handler (R132). -/
def SpecReg.handlerOnly : SpecReg → Bool
  | .tcause | .taddr | .tlanes => true
  | _ => false
end Sys2Proof

namespace Sys2Proof.Machine

/-- A UR word on x = s[a] and y = s[b] in the width of its type. -/
def State.urWord (s : State) (sw w : Bool) (d a b : SReg) (f : Nat → Nat → Nat) : State :=
  s.uniWord sw d w ((readS a w).plus (readS b w)) (f (s.sNum a w) (s.sNum b w))

def execUadd (sw : Bool) (t : T4) (d a b : SReg) (s : State) : Out := .next (s.urWord sw t.wide d a b (iopAdd t))
def execUsub (sw : Bool) (t : T4) (d a b : SReg) (s : State) : Out := .next (s.urWord sw t.wide d a b (iopSub t))
def execUmul (sw : Bool) (t : T4) (d a b : SReg) (s : State) : Out := .next (s.urWord sw t.wide d a b (iopMul t))
def execUmulh (sw : Bool) (t : T4) (d a b : SReg) (s : State) : Out := .next (s.urWord sw t.wide d a b (iopMulh t))
def execUlog (sw : Bool) (f : Log8) (d a b : SReg) (s : State) : Out := .next (s.urWord sw false d a b (log8 f))
def execUsh (sw : Bool) (f : Sh7) (d a b : SReg) (s : State) : Out :=
  .next (s.uniWord sw d f.wide ((readS a f.wide).plus (readS b false)) (sh7 f (s.sNum a f.wide) (s.sNum b false)))
def execUmin (sw : Bool) (t : T4) (d a b : SReg) (s : State) : Out := .next (s.urWord sw t.wide d a b (iopMin t))
def execUmax (sw : Bool) (t : T4) (d a b : SReg) (s : State) : Out := .next (s.urWord sw t.wide d a b (iopMax t))
def execUaddi (sw : Bool) (d a : SReg) (k : BitVec 14) (s : State) : Out :=
  .next (s.uniWord sw d false (readS a false) (wrap 32 ((s.sNum a false : Int) + k.toInt)))
def execUlil (sw sx : Bool) (d : SReg) (k : BitVec 16) (s : State) : Out :=
  .next (s.uniWord sw d false {} (if sx then wrap 32 k.toInt else k.toNat))
/-- ULIH keeps bits [15:0] of s[d], which it reads (R202). -/
def execUlih (sw : Bool) (d : SReg) (k : BitVec 16) (s : State) : Out :=
  .next (s.uniWord sw d false (readS d false) (s.sNum d false % 2 ^ 16 + k.toNat * 2 ^ 16))
/-- UCMP writes one s register whatever the width compared (R202). -/
def execUcmp (sw w64 : Bool) (c : ICmp) (d a b : SReg) (s : State) : Out :=
  .next (s.uniWord sw d false ((readS a w64).plus (readS b w64))
    (b2n (c.holds (if w64 then 64 else 32) (s.sNum a w64) (s.sNum b w64))))
def execUlea (sw : Bool) (sh : Fin 8) (d a b : SReg) (s : State) : Out :=
  .next (s.uniWord sw d true ((readS a true).plus (readS b false)) (lea (s.sNum a true) (s.sNum b false) sh.val))

/-- The two AIDs that MOVSR %aset reads (R169). -/
def asetPair (set : ASet) (hi : Bool) : Nat :=
  let k := if hi then 2 else 0
  set.getD k 0 % 2 ^ 24 + set.getD (k + 1) 0 % 2 ^ 24 * 2 ^ 32
/-- A special register's value (R132, R106). Those of the handler are zero outside it, where they cannot be read. -/
def State.special (s : State) (r : SpecReg) : Nat :=
  let b := s.cb
  let h := s.cg.handler
  match r with
  | .group => s.cg.num
  | .width => s.cg.width
  | .bix => b.index % b.gdx
  | .biy => b.index / b.gdx % b.gdy
  | .biz => b.index / (b.gdx * b.gdy)
  | .gdx => b.gdx
  | .gdy => b.gdy
  | .gdz => b.gdz
  | .stage => s.cg.num / (b.hdr.groups / b.hdr.stages)
  | .core => s.logicalCore b.core
  | .die => b.ldie
  | .clock => s.now % 2 ^ 64
  | .frm => s.cg.frm.toNat
  | .fflags => s.cg.fflags.toNat
  | .fmask => s.cg.fmask.toNat
  | .aset hi => asetPair s.cg.aset hi
  | .args => b.args
  | .scrbase => s.cp.scr
  | .tcause => (h.map fun h => h.tcause.toNat).getD 0
  | .taddr => (h.map fun h => h.taddr.toNat).getD 0
  | .tlanes => (h.map fun h => h.tlanes.toNat).getD 0
  | .detm => b2n b.det
/-- MOVSR (R169). -/
def execMovsr (sw : Bool) (d : SReg) (r : SpecReg) (s : State) : Out :=
  .next (if r.handlerOnly && !s.cg.inH then s.trapNow 0x06 0 else s.uniWord sw d r.pair {} (s.special r))
/-- MOVRS (R170). -/
def execMovrs (sw : Bool) (r : WSpec) (d : SReg) (s : State) : Out :=
  let v := s.rdS d
  let g := s.cg
  .next (s.operands (readS d false) (({ s with cg := match r with
    | .frm => { g with frm := v.setWidth 2 }
    | .fmask => { g with fmask := v.setWidth 5 }
    | .fflags => { g with fflags := g.fflags &&& ~~~(v.setWidth 5) } } : State).finish sw))
/-- VGET reads one lane, live or exited, executing or not (R172). -/
def execVget (sw : Bool) (d a : SReg) (v : VReg) (s : State) : Out :=
  .next (s.uniWord sw d false ((readS a false).plus (readV v false)) (s.vNum v false (s.sNum a false % s.cg.width)))

end Sys2Proof.Machine
end

