-- ==== Sys2Proof/Machine/Sync.lean ====
section
/-! DEFINITION. Barriers, fences, waits, group atomics and stage queues (R300 to R315), and the ends of parks (R8, R168). -/

namespace Sys2Proof.Machine

/-- A word that parks its group in any case (BAR, CBAR, HPUB, XDONE) waits for an acquire in progress, and takes effect only
once the group's reads have returned, so that what it sends leaves with the set they give (R307, R312, R336; log entry
23). -/
def State.syncGate (s : State) (go : State) : State :=
  if s.cg.acquiring || !s.cg.readsOut.isEmpty then s.parkAt .again else go
/-- A trap with a sub-cause at the word (R300, R365). -/
def State.trapSub (s : State) (cause sub : Nat) : State := s.trapNow cause sub

/-! ## Barriers (R301 to R305) -/

/-- Groups of a block that have not exited. -/
def State.liveGroups (s : State) (b : Block) : List Nat := b.groups.filter fun g => match s.group g with
  | some G => !G.done
  | none => false
/-- The requests that a release of the group at block scope comes after: its own that are not over, and those it comes
after itself (R302, R313, R323). -/
def State.pending (s : State) : List Nat :=
  (List.filter (fun (k, q) => !q.status.over_ && (q.grp == s.cgId || s.cg.behind.contains k)) s.reqs).map (·.1)
/-- How many arrivals a generation needs: its explicit count, or every group that has not exited. -/
def State.barNeed (s : State) (b : Block) : Nat := if 0 < b.bar.need then b.bar.need else (s.liveGroups b).length
/-- A generation whose arrivals suffice: it is released, so a further group arrives in the next. -/
def State.barMet (s : State) (b : Block) : Bool := !b.bar.arrived.isEmpty && s.barNeed b ≤ b.bar.arrived.length
/-- BAR (R301): the group arrives once and waits for its generation to be released. -/
def execBar (sw : Bool) (count : Option (Fin 16)) (s : State) : Out :=
  .next <| s.syncGate <|
    let n := match count with
      | some c => c.val + 1
      | none => 0
    let b := s.cb.bar
    if s.heldWrite || s.barMet s.cb then s.parkAt .again
    else if n > s.cb.hdr.groups then s.trapNow 0x06 0x31
    else if !b.arrived.isEmpty && b.need != n then s.trapNow 0x06 0x30
    else
      let b1 : Barrier :=
        { b with need := n, arrived := b.arrived ++ [s.cgId], uset := union b.uset s.cg.aset, behind := union b.behind s.pending,
                 vis := visMax b.vis s.cg.vis }
      ({ s with cb := { s.cb with bar := b1 } } : State).parkIssued (.bar b.gen) sw

/-- A participant passes a released barrier with the union of its sets, and sees what the arrivals had acquired: the
snapshot's restore point is the barrier word (R302, R303, R336). Out of bounds it stays parked, or traps under ASTRICT (R340). One that still waits for the handler's place goes
on waiting for it (R381). -/
def Group.passBarrier (g : Group) (set : ASet) (vis : List Nat) (astrict : Bool) (now base : Nat) : Group :=
  let rest := match g.park with
    | some (.barOff _) | some (.cbarOff _) => some Park.trap
    | _ => none
  let go (h : Group) : Group := { h.advance with park := rest, seq := h.seq + 1, vis := visMax h.vis vis, tried := 0 }
  match g.taintFit set with
  | .same => go g
  | .fits => go (g.taint set (g.snap []))
  | .tooMany => if astrict then g.raise now 0x0E 1 0 (base + g.ia.toNat) (laneMask g.exLanes) else g
  | .noSlot => if astrict then g.raise now 0x0E 2 0 (base + g.ia.toNat) (laneMask g.exLanes) else g
/-- The accesses of some groups from now on come after some requests. -/
def State.leaveBehind (s : State) (gs ids : List Nat) : State :=
  gs.foldl (fun t g => t.updGroup g fun G => { G with behind := union G.behind ids }) s
/-- Let a list of groups of a block pass. -/
def State.passAll (s : State) (b : Block) (gs : List Nat) (set : ASet) (vis : List Nat) : State :=
  gs.foldl (fun t g => t.updGroup g fun G => G.passBarrier set vis b.hdr.astrict t.now
    ((G.handler.map Handler.base).getD b.hdr.base)) s
/-- BAR_RELEASE. -/
def execBarRelease (block : Nat) (s : State) : Out :=
  .next (match s.block block with
    | none => s
    | some b =>
      if !s.barMet b || b.saved then s
      else
        let log := if b.bar.uset.isEmpty then b.barLog else b.barLog ++ [(b.bar, b.bar.arrived)]
        let t := s.updBlock block fun B => { B with bar := ⟨B.bar.need, [], B.bar.gen + 1, [], [], zeroOrd⟩, barLog := log }
        (t.leaveBehind b.bar.arrived b.bar.behind).passAll b b.bar.arrived b.bar.uset b.bar.vis)

/-- A write of the block is still on its way (R304). -/
def State.blockDrains (s : State) : Bool := s.reqs.any fun (_, q) => !q.status.over_ && q.owners.any fun o => o.blk == s.cbId
/-- Accesses of the group that have not been performed, or not returned (R306). -/
def State.accessesOut (s : State) : Bool :=
  (s.reqs.any fun (_, q) => (q.grp == s.cgId && match q.kind with
    | .shape _ | .fence => false
    | _ => true) || (!q.status.over_ && q.owners.any fun o => o.grp == s.cgId)) ||
  s.cg.out.any fun f => f.waits == .load
/-- Writes of the groups of the block that have not been performed: what an engine read must see when it is ordered at
block scope (R263). -/
def State.blockWritesOut (s : State) : Bool :=
  s.blockDrains || s.reqs.any fun (_, q) => q.blk == s.cbId && !q.status.over_ && q.kind.isWrite
/-- Writes of the group itself that have not been performed. -/
def State.ownWritesOut (s : State) : Bool :=
  s.reqs.any fun (_, q) => !q.status.over_ && ((q.grp == s.cgId && q.kind.isWrite) || q.owners.any fun o => o.grp == s.cgId)
/-- Accesses of other groups that the group's releases come after have not been performed (R323). -/
def State.behindOut (s : State) : Bool := s.reqs.any fun (k, q) => !q.status.over_ && s.cg.behind.contains k
/-- CBAR (R304): drains the block's bytes, then arrives; its own accesses, and those it comes after by a barrier or a queue,
have been performed (R323). -/
def execCbar (sw : Bool) (s : State) : Out :=
  .next <|
    if s.cb.hdr.cluster == 0 then s.trapNow 0x06 0x32
    else s.syncGate <|
      let t := s.drainWhere s.ccId fun e => e.owners.any fun o => o.blk == s.cbId
      if t.heldWrite || t.blockDrains || t.accessesOut || t.behindOut then t.parkAt .again
      else
        let gen := ((t.gangs.find t.cb.gang).map Gang.gen).getD 0
        let u : State := { t with cb := { t.cb with cbarIn := t.cb.cbarIn ++ [t.cgId] },
                                  gangs := t.gangs.upd t.cb.gang fun g =>
                                    { g with uset := union g.uset t.cg.aset, vis := visMax g.vis t.cg.vis } }
        u.parkIssued (.cbar gen) sw
/-- CBAR_RELEASE: every member's live groups have arrived. -/
def execCbarRelease (gang : Nat) (s : State) : Out :=
  .next (match s.gangs.find gang with
    | none => s
    | some G =>
      let arrived := G.members.flatMap fun m => ((s.block m).map Block.cbarIn).getD []
      let ready := G.members.all fun m => match s.block m with
        | some b => !b.saved && subset (s.liveGroups b) b.cbarIn
        | none => true
      if arrived.isEmpty || !ready then s
      else
        let vis := visAt G.vis 2 s.wclock
        let log := if G.uset.isEmpty then G.log else G.log ++ [(G.gen, G.uset, arrived, vis)]
        let t : State := { s with gangs := s.gangs.ins gang { G with gen := G.gen + 1, uset := [], vis := zeroOrd, log := log } }
        G.members.foldl (fun t m => match t.block m with
          | none => t
          | some b =>
            let u := t.updBlock m fun B => { B with cbarIn := [], passedCbar := B.passedCbar || !B.cbarIn.isEmpty }
            u.passAll b b.cbarIn G.uset vis) t)

/-! ## FENCE (R306, R263, R298) -/

/-- The flush markers of a fence at dom or sys scope: one down each of tiers 0 and 1 to every other package of the domain
(R233, R306). -/
def State.fenceMarks (s : State) (sc : Scope) : Nat :=
  if 5 ≤ scopeNo sc then 2 * (s.const.pkgs.filter fun p => p != s.const.pkg).length else 0
/-- The markers that the fence being issued has sent. -/
def State.fenceReq (s : State) : Option (Nat × Req) :=
  s.reqs.find? fun (_, q) => q.grp == s.cgId && q.seq == s.cg.seq && q.kind == .fence
/-- What a fence of a kind at a scope drains from the buffer: everything for generic paths; for engine reads what the group,
or at block scope its block, has there (R228, R306). -/
def fenceDrains (k : FenceKind) (sc : Scope) (grp blk : Nat) (e : WcbEntry) : Bool :=
  k != .e || e.owners.any fun o => o.grp == grp || (1 ≤ scopeNo sc && o.blk == blk)
/-- A drain of the core has not been performed: a fence for generic paths drains every entry, whose bytes other groups may have
stored before a barrier or a queue (R228, R302, R323). -/
def State.drainsOut (s : State) : Bool := s.reqs.any fun (_, q) => !q.status.over_ && q.core == s.ccId && !q.owners.isEmpty
/-- A fence's conditions do not hold yet (R306). -/
def State.fenceWaits (s : State) (k : FenceKind) (sc : Scope) : Bool :=
  (k != .e && (s.accessesOut || s.behindOut || s.drainsOut)) ||
  (k != .m && (s.ownWritesOut || (1 ≤ scopeNo sc && s.blockWritesOut)))
/-- The fence is over: its acquire half makes visible what stood where the group has read (R322); engine reads of the group
are ordered after the writes visible to it, those of the scope's agents made so far among them (R306). -/
def State.fenceDone (s : State) (sw : Bool) (k : FenceKind) (sc : Scope) : State :=
  let g := if k == .e then s.cg else s.cg.acquire (scopeNo sc) s.cg.saw
  ({ s with cg := if k == .m then g else { g with eord := ordAt (visMax g.eord g.vis) (scopeNo sc) s.wclock } } : State).finish sw
def execFence (sw : Bool) (k : FenceKind) (sc : Scope) (s : State) : Out :=
  .next <| s.gate <|
    let t := s.drainWhere s.ccId (fenceDrains k sc s.cgId s.cbId)
    if t.fenceWaits k sc then t.parkAt .again
    else if k == .e || t.fenceMarks sc = 0 then t.fenceDone sw k sc
    else match t.fenceReq with
      | none => (t.post { t.newReq .fence 0 0 (.pad t.cbId 0) 0 with wait := [], marks := t.fenceMarks sc }).parkAt .again
      | some (id, q) => if q.marks = 0 then (t.dropReqs [id]).fenceDone sw k sc else t.parkAt .again

/-! ## WAITA (R307, R308) -/

def execWaita (sw : Bool) (sc : Scope) (w64 : Bool) (c : WaitCond) (x y z : SReg) (s : State) : Out :=
  let n := if w64 then 8 else 4
  let va := s.rdS64 y
  let cmp := s.sNum z w64
  let limit := (s.rdS x).toNat
  let t := ((readS x false).plus (readS y true)).plus ((readS z w64).plus (writeS x w64))
  .next <| s.operands t <| s.gate <|
    let chk := match s.memCheck n true false false none va with
      | .ok (.host _ _) => MemCheck.fail 0x06
      | r => r
    match chk with
    | .miss p => s.parkAt (.tlb [p])
    | .fail cause => s.checkFail cause va s.cg.exLanes
    | .ok loc =>
      let s1 := s.drainLoc loc
      let s2 := s1.flyS (names x w64) .watch [] (some (s.cg.snap [])) limit
      let s3 := s2.post { s.newReq (.watch c cmp) 0 va loc n with wait := [], acq := true, scope := sc }
      s3.finish sw

/-- The evaluation of an armed watch at an instant (R307): what a load would find, and the state after its read; a home that
is down, or a word that cannot be read, gives an error response (R235, R386). -/
def State.evalNow (s : State) (q : Req) : State × Req :=
  match q.kind with
  | .watch c cmp =>
    if !s.homeUp q.loc then (s, { q with status := .failed 0x07 })
    else match s.eccOk q with
      | none => (s, { q with status := .failed 0x07 })
      | some t =>
        let r := t.readLoc q.loc q.n
        (t, if watchHit c cmp q.n r.1 then { q with status := .done, res := r.1, rset := r.2, saw := t.placeOf q.loc q.n } else q)
  | _ => (s, q)
/-- WAIT_TIMEOUT: its time has passed; the watch, once armed, is evaluated, and times out if it is still armed (R307). -/
def execWaitTimeout (group : Nat) (s : State) : Out :=
  .next (s.onGroup group fun t =>
    match t.cg.out.find? fun f => f.waits == .watch with
    | none => t
    | some f => match t.wordReqs group f.seq with
    | [] => t
    | (id, q) :: _ =>
      if f.limit = 0 || t.now < f.since + f.limit * usec || q.status != .held then t
      else
        let (t, now) := t.evalNow q
        if now.status != .held then t.setReq id now
        else
        let va := q.va
        let pa := q.loc.phys
        let u := t.dropReqs [id]
        let g : Group := { u.cg with out := u.cg.out.filter fun x => x.seq != f.seq }
        let u : State := { u with cg := g.collect.settle u.cb.hdr.floor }
        (if f.drop then u else u.deferTrap group 0x0F 0 va pa f.pc f.seq [] 6).released group f.seq u.cg.aset)

/-! ## UATOM (R309) -/

/-- A trap that UATOM takes names every live lane (R309). -/
def State.liveTrap (s : State) : State :=
  if s.cg.park == some .trap then
    { s with cg := { s.cg with trap := s.cg.trap.map fun t => { t with lanes := laneMask s.cg.liveLanes } } } else s
def execUatom (sw disc : Bool) (op : UOp) (sem : Sem) (x y z : SReg) (s : State) : Out :=
  let n := uopBytes op
  let cas := match op with
    | .f .casB32 | .f .casB64 => true
    | _ => false
  let w := if op.wide then 2 else 1
  let va := s.rdS64 y
  let d := if disc then [] else names x op.wide
  let t : Touch := { sr := names y true ++ namesN z (w * if cas then 2 else 1), sw := d }
  .next <| State.liveTrap <| s.operands t <| s.gate <|
    match s.memCheck n true true false (some op) va with
    | .miss p => s.parkAt (.tlb [p])
    | .fail cause => s.checkFail cause va s.cg.liveLanes
    | .ok loc =>
      if floatAdd op && s.cb.det then s.trapWith 0x0A 0 s.wordAddr (laneMask s.cg.liveLanes)
      else if !s.cg.aset.isEmpty && (sem.scope == .sys || loc.isHost) then s.parkAt .again
      else if s.undoFull [loc] || ((sem.acq || sem.rel) && s.heldWrite) then s.parkAt .again
      else s.roomFor (s.homeSet true [loc]) <|
        let s1 := s.atomDrain sem [loc]
        let hold := some (s.cg.snap [])
        let s2 := if disc then s1.fly .none .load [] hold 0 else s1.flyS d .load [] hold 0
        let e := if cas then s.sNum (z.val + w) op.wide else 0
        let s3 := s2.post (s.atomReq op sem 0 va loc (s.sNum z op.wide) e)
        let s4 := s3.finish sw
        if disc && sem.acq then s4.parkAt (.performed s.cg.seq) else s4

/-! ## Stage queues (R310 to R313) -/

/-- A queue's header as it reads in the scratchpad (R310). -/
structure QHead where
  res    : Nat
  cstage : Nat
  pstage : Nat
  cap    : Nat
  head   : Nat
  tail   : Nat
  deriving DecidableEq, Repr
def State.qHead (s : State) (q : Nat) : QHead :=
  let w (i : Nat) := ofBytes (s.cb.padBytes (q + 4 * i) 4)
  ⟨bits (w 0) 31 16 + w 3, bits (w 0) 15 12, bits (w 0) 11 8, bits (w 0) 7 0 + 1, w 1, w 2⟩
/-- Entries in the queue, modulo 2^32. -/
def QHead.used (h : QHead) : Nat := (h.tail + 2 ^ 32 - h.head) % 2 ^ 32
def stageOf (b : Block) (g : Group) : Nat := g.num / (b.hdr.groups / b.hdr.stages)
/-- Write bytes of the current block's scratchpad, line by line, with the group's set. -/
def State.padPut (s : State) (off : Nat) (bs : List Byte) : State :=
  s.storePad s.cbId off (someBytes bs) s.cg.aset (s.agentOf s.cgId s.cbId) .queue
/-- The set that the lines of a queue's header and of an entry carry (R313, R339). -/
def State.queueTag (s : State) (q e : Nat) : ASet := union (s.cb.tag (q / 128)) (s.cb.tag (e / 128))
/-- Entry i of a queue's ring (R310). -/
def QHead.entry (h : QHead) (q i : Nat) : Nat := q + 0x10 + 8 * (i % h.cap)

/-- Reads of the group before a word that have not returned: what the word writes or sends is held (R336). -/
def Group.readsBefore (g : Group) (seq : Nat) : Bool := g.out.any fun f => f.hold.isSome && f.seq < seq
/-- The header of a fresh queue (R310). -/
def State.putQueue (s : State) (q w : Nat) : State := s.padPut q (toBytes 4 w ++ toBytes 12 0)
/-- QINIT (R311). -/
def execQinit (sw : Bool) (cons prod : Fin 16) (x y : SReg) (s : State) : Out :=
  let q := (s.rdS x).toNat
  let cap := (s.rdS y).toNat
  let w := 2 ^ 12 * cons.val + 2 ^ 8 * prod.val + (cap - 1)
  .next <| s.operands ((readS x false).plus (readS y false)) <| s.gate <|
    if q % 16 != 0 then s.trapNow 0x04 0
    else if cap < 1 || 256 < cap || s.cb.hdr.stages ≤ cons.val || s.cb.hdr.stages ≤ prod.val then s.trapNow 0x06 0x33
    else if s.cb.hdr.alloc < q + 16 + 8 * cap then s.trapNow 0x06 0x34
    else if !s.cg.readsOut.isEmpty then (s.fly .none (.init q w) [] (some (s.cg.snap [])) 0).finish sw
    else if s.noUndo s.cbId q (union s.cg.aset (s.cb.tag (q / 128))) then s.parkAt .again
    else s.taintSource (s.cb.tag (q / 128)) fun t => (t.putQueue q w).finish sw

/-- The checks that QPUSH and QPOP share (R312). -/
def State.queueCheck (s : State) (q : Nat) (stage : QHead → Nat) (go : QHead → State) : State :=
  let h := s.qHead q
  if q % 16 != 0 then s.trapNow 0x04 0
  else if s.cb.hdr.alloc < q + 16 || s.cb.hdr.alloc < q + 16 + 8 * h.cap then s.trapNow 0x06 0x34
  else if h.res != 0 || s.cb.hdr.stages ≤ h.cstage || s.cb.hdr.stages ≤ h.pstage then s.trapNow 0x06 0x35
  else if stageOf s.cb s.cg != stage h then s.trapNow 0x06 0x36
  else go h
/-- Whether a waiting queue word is a pop. -/
def State.isPop (s : State) (e : Nat × Nat × Nat) : Bool := match s.group e.1 with
  | some G => G.out.any fun f => f.waits == .pop e.2.1 && f.seq == e.2.2
  | none => false
/-- A word of the group in focus, by its issue number, leaves the line of waiting queue words. -/
def State.unqueue (s : State) (q seq : Nat) : State :=
  { s with cb := { s.cb with queueAt := s.cb.queueAt.filter fun e => !(e == (s.cgId, q, seq)) } }
/-- It joins the line, where it does not stand in it yet. -/
def State.enqueue (s : State) (q : Nat) : State :=
  let e := (s.cgId, q, s.cg.seq)
  { s with cb := { s.cb with queueAt := if s.cb.queueAt.contains e then s.cb.queueAt else s.cb.queueAt ++ [e] } }
/-- A push that was issued before a word of the group in focus waits for the queue. -/
def State.pushAhead (s : State) (q seq : Nat) : Bool :=
  (s.cb.queueAt.takeWhile fun e => e != (s.cgId, q, seq)).any fun e => e.2.1 == q && !s.isPop e
/-- A byte of a queue was written, since QINIT wrote its header, by anything but a queue word: what its pops return is
undefined (R310, R3). -/
def State.queueSpoilt (s : State) (q cap : Nat) : Bool :=
  match (s.cb.padAt.find q).getD [] with
  | [] => true
  | w :: _ => w.how != .queue || (List.range (16 + 8 * cap)).any fun i =>
      ((s.cb.padAt.find (q + i)).getD []).any fun x => x.how != .queue && w.at_ < x.at_
/-- Name of an entry of a queue, for the requests its pop comes after. -/
def pushKey (q n : Nat) : Nat := q * 2 ^ 32 + n % 2 ^ 32
/-- An entry is filled, as one step, as a release (R312, R313). -/
def State.putEntry (s : State) (q v seq : Nat) (h : QHead) : State :=
  let t := (s.padPut (h.entry q h.tail) (toBytes 8 v)).padPut (q + 8) (toBytes 4 (h.tail + 1))
  ({ t with cb := { t.cb with pushes := t.cb.pushes.ins (pushKey q h.tail) (s.pending, s.cg.vis) } } : State).unqueue q seq
/-- An entry leaves the queue: the popper comes after what its push came after, and sees what its pusher had acquired. -/
def State.takeEntry (s : State) (q seq : Nat) (h : QHead) : State :=
  let t := s.padPut (q + 4) (toBytes 4 (h.head + 1))
  let k := pushKey q h.head
  let p := (t.cb.pushes.find k).getD ([], [])
  ({ t with cg := { t.cg with behind := union t.cg.behind p.1, vis := visMax t.cg.vis p.2 },
            cb := { t.cb with pushes := t.cb.pushes.del k } } : State).unqueue q seq
/-- A word that traps leaves the line of waiting queue words. -/
def State.offQueue (s : State) (q : Nat) : State := if s.cg.park == some .trap then s.unqueue q s.cg.seq else s
/-- QPUSH (R312): pushes of one queue go in issue order, whatever they wait for; one that a read of the group holds waits
without parking it (R336). -/
def execQpush (sw : Bool) (x y : SReg) (s : State) : Out :=
  let q := (s.rdS x).toNat
  let v := s.rdS64 y
  .next <| s.operands ((readS x false).plus (readS y true)) <| s.gate <| State.offQueue (q := q) <|
    s.queueCheck q QHead.pstage fun h =>
      let e := h.entry q h.tail
      let tag := s.queueTag q e
      let u := union s.cg.aset tag
      if !s.cg.readsOut.isEmpty then ((s.enqueue q).fly .none (.push q v) [] (some (s.cg.snap [])) 0).finish sw
      else if s.pushAhead q s.cg.seq || h.cap ≤ h.used || s.noUndoFor s.cbId [q / 128, e / 128] u then (s.enqueue q).parkAt .again
      else (s.enqueue q).taintSource tag fun t => (t.putEntry q v t.cg.seq h).finish sw

/-- QPOP (R312): the request waits its turn; its destination is written when it is served. -/
def execQpop (sw : Bool) (x y : SReg) (s : State) : Out :=
  let q := (s.rdS y).toNat
  .next <| s.operands ((readS y false).plus (writeS x true)) <| s.gate <|
    s.queueCheck q QHead.cstage fun _ =>
      let t := s.flyS (names x true) (.pop q) [] (some (s.cg.snap [])) 0
      (t.enqueue q).finish sw
/-- The oldest waiting pop of a queue takes an entry, as one step (R312, R313). -/
def State.servePop (s : State) (f : Flight) (q : Nat) : State :=
  let first := s.cb.queueAt.find? fun e => e.2.1 == q && s.isPop e
  let h := s.qHead q
  let e := h.entry q h.head
  let set := s.queueTag q e
  if first != some (s.cgId, q, f.seq) || h.used = 0 || s.cg.readsBefore f.seq || s.noUndo s.cbId q (union s.cg.aset set) then s
  else
    let v := if s.queueSpoilt q h.cap then s.freeWide 21500 else ofBytes (s.cb.padBytes e 8)
    match s.deliver f [] (fun _ => v) set (s.cp.scr + e) with
    | none => s
    | some t => if f.drop then t.unqueue q f.seq else t.takeEntry q f.seq h
/-- A push that a read of its group held takes its turn (R312, R336). -/
def State.servePush (s : State) (f : Flight) (q v : Nat) : State :=
  let h := s.qHead q
  let e := h.entry q h.tail
  let set := s.queueTag q e
  if s.cg.readsBefore f.seq || s.pushAhead q f.seq || h.cap ≤ h.used || s.noUndoFor s.cbId [q / 128, e / 128] (union s.cg.aset set) then s
  else match s.deliver f [] (fun _ => 0) set (s.cp.scr + e) with
    | none => s
    | some t => if f.drop then t.unqueue q f.seq else t.putEntry q v f.seq h
/-- A header that a read of its group held is written. -/
def State.serveInit (s : State) (f : Flight) (q w : Nat) : State :=
  let set := s.cb.tag (q / 128)
  if s.cg.readsBefore f.seq || s.noUndo s.cbId q (union s.cg.aset set) then s
  else match s.deliver f [] (fun _ => 0) set (s.cp.scr + q) with
    | none => s
    | some t => t.putQueue q w

/-! ## The ends of parks (R8, R145, R168) -/

/-- WAITCY_EXPIRY. -/
def execWaitcyExpiry (group : Nat) (s : State) : Out :=
  .next (s.onGroup group fun t => match t.cg.park with
    | some (.waitcy u) => if u ≤ t.now then { t with cg := { t.cg with park := none } } else t
    | _ => t)
end Sys2Proof.Machine
end

