-- ==== Sys2Proof/Machine/Engine.lean ====
section
/-! DEFINITION. Shape slots, copies and the matrix engine (R238 to R265). -/

namespace Sys2Proof.Machine

/-! ## Slot images (R238 to R242) -/

/-- A slot image read field by field. -/
structure Img where
  base   : Nat
  word   : Nat
  dims   : List Nat
  strides : List Nat             -- of dimensions 1 to 4
  scale  : Nat
  fill   : Nat
  deriving DecidableEq, Repr
def word4 (bs : List Byte) (o : Nat) : Nat := ofBytes ((bs.drop o).take 4)
def word8 (bs : List Byte) (o : Nat) : Nat := ofBytes ((bs.drop o).take 8)
def Img.of (bs : List Byte) : Img :=
  ⟨word8 bs 0, word4 bs 8, tab 5 fun i => word4 bs (0x0C + 4 * i), tab 4 fun i => word4 bs (0x20 + 4 * i), word8 bs 0x30,
   word8 bs 0x38⟩
def Img.fmt (m : Img) : Fmt := (Fmt.ofCode (bits m.word 5 0)).getD .i8
def Img.rank (m : Img) : Nat := bits m.word 10 8
def Img.plane (m : Img) : Bool := bit m.word 11
def Img.space (m : Img) : Nat := bits m.word 13 12
def Img.scaled (m : Img) : Bool := bit m.word 15
def Img.shift (m : Img) : Nat := bits m.word 20 16
def Img.dim (m : Img) (j : Nat) : Nat := m.dims.getD j 1
/-- STRIDEj, j from 1. -/
def Img.stride (m : Img) (j : Nat) : Nat := m.strides.getD (j - 1) 0
def Img.b (m : Img) : Nat := Fmt.bits m.fmt
/-- Element count. -/
def Img.count (m : Img) : Nat := m.dims.foldl (· * ·) 1
/-- Rows: the coordinates (i1, …, i4) in turn. -/
def Img.rows (m : Img) : Nat := m.count / m.dim 0
def Img.coords (m : Img) (r : Nat) : List Nat :=
  [r % m.dim 1, r / m.dim 1 % m.dim 2, r / (m.dim 1 * m.dim 2) % m.dim 3, r / (m.dim 1 * m.dim 2 * m.dim 3)]
/-- Offset of the coordinates (i1, …, i4). -/
def Img.rowOff (m : Img) (is : List Nat) : Nat := sumTo 4 fun j => is.getD j 0 * m.stride (j + 1)
/-- Bytes of one row, or of one plane row (R239, R240, R247). -/
def Img.rowBytes (m : Img) : Nat := if m.plane then ceilDiv (m.dim 0) 128 * m.b * 16 else ceilDiv (m.dim 0 * m.b) 8
/-- The region's rows as starts and lengths. -/
def Img.region (m : Img) : List (Nat × Nat) := tab m.rows fun r => (m.base + m.rowOff (m.coords r), m.rowBytes)
/-- Linear index of an element (R238). -/
def Img.linear (m : Img) (i0 : Nat) (is : List Nat) : Nat :=
  i0 + m.dim 0 * (is.getD 0 0 + m.dim 1 * (is.getD 1 0 + m.dim 2 * (is.getD 2 0 + m.dim 3 * is.getD 3 0)))

/-- A format that SCALED = 1 accepts (R241). -/
def scaledFmt : Fmt → Bool
  | .e2m1 | .b8 _ _ _ => true
  | _ => false
/-- Sub-cause 0x02 (R242). -/
def Img.bad (m : Img) : Bool :=
  let unit := if m.plane then 16 else max 1 (m.b / 8)
  bits m.word 31 21 != 0 || bit m.word 14 || bits m.word 7 6 != 0 ||
  (m.space == 1 && (m.base / 2 ^ 32 != 0 || m.scale / 2 ^ 32 != 0)) ||
  (Fmt.ofCode (bits m.word 5 0)).isNone || m.rank == 0 || 5 < m.rank || 1 < m.space ||
  m.dims.any (· == 0) || (List.range 5).any (fun j => m.rank ≤ j && m.dim j != 1) ||
  (List.range 4).any (fun j => m.rank ≤ j + 1 && m.stride (j + 1) != 0) ||
  m.base % unit != 0 || (List.range 4).any (fun j => j + 1 < m.rank && m.stride (j + 1) % unit != 0) ||
  (m.plane && m.space == 0) || (m.scaled && !scaledFmt m.fmt)
/-- Sub-cause 0x04: a byte of the region, its scales or its metadata lies beyond the allocation. -/
def Img.beyond (m : Img) (alloc : Nat) (meta_ : Bool) : Bool :=
  let last := sumTo 4 fun j => (m.dim (j + 1) - 1) * m.stride (j + 1)
  m.space == 1 && (alloc < m.base + last + m.rowBytes ||
    (m.scaled && alloc < m.scale + (m.count - 1) / 2 ^ m.shift + 1) || (meta_ && alloc < m.scale + (m.count - 1) / 4 + 1))

/-- A shape slot of the current block. -/
def State.shape (s : State) (k : Nat) : Option Shape := s.cb.shapes[k]?
/-- The checks of R242 in their order over the named slots; a slot whose LDSH is unfinished is waited for (R243). -/
def State.withSlots (s : State) (ks : List Nat) (fit : List Img → Bool) (meta_ : Nat → Bool) (go : List Img → State) : State :=
  let sh := ks.filterMap s.shape
  if sh.any Shape.loading then s.parkAt .again
  else if sh.any fun x => x.img.isNone then s.trapNow 0x0D 0x01
  else
    let ms := sh.map fun x => Img.of (x.img.getD [])
    if ms.any Img.bad then s.trapNow 0x0D 0x02
    else if !fit ms then s.trapNow 0x0D 0x03
    else if (ms.zipIdx).any fun mi => mi.1.beyond s.cb.hdr.alloc (meta_ mi.2) then s.trapNow 0x0D 0x04
    else go ms
def State.slotTags (s : State) (ks : List Nat) : ASet := ks.foldl (fun u k => union u (((s.shape k).map Shape.tag).getD [])) []
def State.slotBytes (s : State) (k : Nat) : List Byte := ((s.shape k).bind Shape.img).getD []

/-- Write a slot with a set; where it differs from the slot's tag an undo entry keeps the slot (R244). -/
def Block.writeShape (b : Block) (k : Nat) (img : Option (List Byte)) (set : ASet) : Block :=
  match b.shapes[k]? with
  | none => b
  | some old =>
    let u := union set old.tag
    let old' := { old with loading := false }
    let b1 := if sameSet u old.tag then b else { b with undo := b.undo ++ [⟨0, u, old.tag, [], [], some (k, old')⟩] }
    { b1 with shapes := b1.shapes.set k ⟨img, u, false⟩ }

/-- A slot whose write is unfinished: words that name it wait (R243). -/
def State.markSlot (s : State) (k : Nat) (loading : Bool) : State :=
  { s with cb := { s.cb with shapes := s.cb.shapes.modify k fun h => { h with loading := loading } } }
/-- LDSH (R243). -/
def execLdsh (sw scr : Bool) (x : Fin 32) (y : SReg) (s : State) : Out :=
  .next <| s.operands (readS y (!scr)) <| s.gate <|
    let va := s.rdS64 y
    let off := (s.rdS y).toNat
    let chk := if scr then
        (if off % 64 != 0 then MemCheck.fail 0x04 else if s.cb.hdr.alloc < off + 64 then .fail 0x06 else .ok (.pad s.cbId off))
      else if s.cp.inWindow va then .fail 0x06 else s.memCheck 64 true false false none va
    if s.cb.hdr.shapes ≤ x.val then s.trapNow 0x06 0
    else match chk with
      | .miss p => s.parkAt (.tlb [p])
      | .fail c => s.checkFail c (if scr then s.wordAddr else va) s.cg.exLanes
      | .ok loc =>
        if ((s.shape x.val).map Shape.loading).getD false then s.parkAt .again
        else
          let s1 := (s.drainLoc loc).fly .none .load [] (some (s.cg.snap [])) 0
          ((s1.markSlot x.val true).post { s.newReq (.shape x.val) 0 (if scr then s.cp.scr + off else va) loc 64 with wait := [] }).finish sw
/-- EVSH (R243). -/
def execEvsh (sw : Bool) (x : Fin 32) (s : State) : Out :=
  .next <| s.gate <|
    if s.cb.hdr.shapes ≤ x.val then s.trapNow 0x06 0
    else if ((s.shape x.val).map Shape.loading).getD false then s.parkAt .again
    else if !s.cg.readsOut.isEmpty then
      ((s.fly .none (.evict x.val) [] (some (s.cg.snap [])) 0).markSlot x.val true).finish sw
    else s.taintSource (s.slotTags [x.val]) fun t =>
      ({ t with cb := t.cb.writeShape x.val none t.cg.aset } : State).finish sw
/-- A slot that a read of its group kept from being emptied is emptied (R336). -/
def State.serveEvict (s : State) (f : Flight) (k : Nat) : State :=
  if s.cg.readsBefore f.seq then s
  else match s.deliver f [] (fun _ => 0) (s.slotTags [k]) 0 with
    | none => s
    | some t => if f.drop then t.markSlot k false else { t with cb := t.cb.writeShape k none t.cg.aset }

/-- The read of an LDSH has been performed, or has failed: once the group's earlier reads have returned the slot is written,
or left empty (R237, R243, R336). -/
def State.arriveShape (s : State) (id : Nat) (q : Req) (k : Nat) : State :=
  match s.cg.out.find? fun f => f.seq == q.seq with
  | none => (s.dropReqs [id]).markSlot k false
  | some f =>
    if !f.drop && s.cg.readsBefore f.seq then s
    else match q.status with
    | .done =>
      (match s.deliver f [] (fun _ => 0) (union q.rset (s.slotTags [k])) q.va with
        | none => s
        | some t =>
          if f.drop then (t.dropReqs [id]).markSlot k false
          else { t.dropReqs [id] with cb := t.cb.writeShape k (some q.res) t.cg.aset })
    | .failed _ =>
      let g : Group := { s.cg with out := s.cg.out.filter fun x => x.seq != f.seq }
      let t : State := { s.dropReqs [id] with cg := g.collect.settle s.cb.hdr.floor }
      if f.drop then t.markSlot k false
      else (({ t with cb := t.cb.writeShape k none s.cg.aset } : State).deferTrap q.grp 0x07 0 q.va q.loc.phys q.pc q.seq [] 2).released
        q.grp f.seq t.cg.aset
    | _ => s

/-- The shape request of a word. -/
def State.shapeReq (s : State) (gid seq : Nat) : Option (Nat × Req × Nat) :=
  s.reqs.findSome? fun (id, q) => if q.grp == gid && q.seq == seq then (match q.kind with
    | .shape k => some (id, q, k)
    | _ => none) else none
/-- ERROR_RESPONSE (R237): the response of a request that failed reaches its group. -/
def execErrorResponse (req : Nat) (s : State) : Out :=
  .next (match s.reqs.find req with
    | none => s
    | some q =>
      match q.status, q.kind with
      | .failed _, .shape k => s.onGroup q.grp fun t => t.arriveShape req q k
      | .failed _, _ => s.requestError req q
      | _, _ => s)

/-! ## Status words (R251) -/

def statusWord (cycles cause : Nat) (part_ err : Bool) : Nat :=
  1 + 2 * b2n err + 4 * b2n part_ + 8 * (cause % 32) + 256 * min cycles 0xFF_FFFF

/-! ## Engine reads (R262) -/

/-- Who reads on an engine path: its agent and partition, the operations whose status its group has received, the points up
to which writes are ordered before it by scope, the operation itself, whose own writes it does not read (R247), whether
it is a pass, which follows the earlier passes of its core (R260, R262), the tasks that its group's task depends on, with
what they declared to write (R327), and the start of its stream, which follows the host writes made before it (R329). -/
structure Reader where
  agent : Agent
  part  : Nat
  ops   : List Nat
  ord   : List Nat
  own   : Nat
  pass  : Bool
  deps  : List (Nat × List Region)
  began : Nat
/-- The reader for an operation of a group. -/
def State.reader (s : State) (grp blk own : Nat) (ord : List Nat) (pass : Bool) : Reader :=
  let a := s.agentOf grp blk
  let grid := (s.tasks.find a.task).bind Task.grid
  ⟨a, a.part, ((s.group grp).map Group.ops).getD [], ord, own, pass, (grid.map Grid.deps).getD [], (grid.map Grid.began).getD 0⟩
/-- A declared write of a task that the reader's task depends on (R327). -/
def Reader.declared (r : Reader) (va : Nat) (w : Wr) : Bool :=
  r.deps.any fun d => d.1 == w.by_.task && d.2.any fun x => x.hits va 1
/-- A byte as the reader finds it (R262, log entry 13). -/
def Reader.sees (r : Reader) (hist : List Wr) (now : Byte) (pick : Nat) (decl : Wr → Bool := fun _ => false) : Byte :=
  let h := hist.filter fun w => w.by_.grp != r.own
  engineSees h (((h.head?).map Wr.val).getD now) (fun w => w.ordered r.agent r.ops r.ord ||
    (r.pass && w.how == .pass) || (w.by_.host && w.at_ ≤ r.began) || decl w) pick

/-- Why an engine access gives nothing now: its page is held (R216), or it fails with a cause, at a virtual and a physical
address, on data that carry a set. -/
inductive Stall where | wait | bad (cause va pa : Nat) (set : ASet)
  deriving DecidableEq, Repr
/-- What an engine access gives: a value, its set, the addresses of memory it read. -/
structure Got (α : Type) where
  val  : α
  set  : ASet
  seen : List Nat
abbrev Eng (α : Type) := Except Stall (Got α)
/-- Two accesses together. -/
def Eng.both {α β γ : Type} (f : α → β → γ) (x : Eng α) (y : Eng β) : Eng γ :=
  match x, y with
  | .ok x, .ok y => .ok ⟨f x.val y.val, union x.set y.set, x.seen ++ y.seen⟩
  | .error e, _ => .error e
  | _, .error e => .error e
def Eng.map {α β : Type} (f : α → β) (x : Eng α) : Eng β :=
  match x with
  | .ok x => .ok ⟨f x.val, x.set, x.seen⟩
  | .error e => .error e
/-- The accesses numbered 0 to n - 1. -/
def Eng.all {α : Type} (f : Nat → Eng α) : Nat → Eng (List α)
  | 0 => .ok ⟨[], [], []⟩
  | n + 1 => Eng.both (fun xs x => xs ++ [x]) (Eng.all f n) (f n)

/-- A scratchpad byte of a block on an engine path, with its line's tag (R262, R339). -/
def State.enginePad (s : State) (b : Block) (r : Reader) (a : Nat) : Byte :=
  r.sees ((b.padAt.find a).getD []) (b.padByte a) (s.freeAt (2 ^ 58 + a))
/-- A byte of memory on an engine path, with the newest version's set (R262, R337). -/
def State.engineMem (s : State) (r : Reader) (va : Nat) : Eng Nat :=
  match s.reach r.part va 1 true false with
  | .error c => .error (.bad c va (s.walkFault r.part va) [])
  | .ok loc =>
    if s.heldPage loc then .error .wait
    else match loc with
      | .dev pa =>
        let n := s.readNewest pa 1
        if !s.homeUp loc || s.eccLost pa 1 then .error (.bad 0x07 va pa [])
        else .ok ⟨(r.sees (s.histOf pa) (n.1.getD 0 0) (s.freeAt (2 ^ 57 + va)) (r.declared va)).toNat, n.2, [va]⟩
      | .host link ba =>
        if !s.homeUp loc then .error (.bad 0x07 va ba [])
        else .ok ⟨(r.sees ((s.hostWrote.find (link * 2 ^ 64 + ba)).getD []) (s.hostByte link ba)
          (s.freeAt (2 ^ 57 + va)) (r.declared va)).toNat, [], [va]⟩
      | _ => .error (.bad 0x06 va 0 [])
/-- How many free numbers engine reads may use. -/
def engineFree : Nat := 2 ^ 59
/-- One byte of a slot's space for an engine operation. -/
def State.engineByte (s : State) (b : Block) (r : Reader) (space a : Nat) : Eng Nat :=
  if space == 1 then .ok ⟨(s.enginePad b r a).toNat, b.tag (a / 128), []⟩ else s.engineMem r a
/-- Several bytes from an address on, as a number. -/
def State.engineBytes (s : State) (b : Block) (r : Reader) (space a n : Nat) : Eng Nat :=
  (Eng.all (fun i => s.engineByte b r space (a + i)) n).map fun xs => sumTo n fun i => xs.getD i 0 * 2 ^ (8 * i)
/-- What the reads of memory of an engine operation leave: the walkers keep their entries, and failing ECC words are met
(R211, R235). -/
def State.engineMeets (s : State) (part agent pc : Nat) (seen : List Nat) : State :=
  (seen.map fun va => va / 32 * 32).eraseDups.foldl (fun t va =>
    let u := t.keepWalk part va
    match t.reach part va 1 true false with
    | .ok (.dev pa) => (u.eccRead part agent pc va pa 32).2
    | _ => u) s

/-- A bit per plane of an element in plane layout (R240). -/
def planeAddr (m : Img) (i0 : Nat) (is : List Nat) (j : Nat) : Nat :=
  m.base + m.rowOff is + i0 / 128 * (m.b * 16) + j * 16 + i0 % 128 / 8
def planeBits (get : Nat → Eng Nat) (m : Img) (i0 : Nat) (is : List Nat) (n : Nat) : Eng Nat :=
  (Eng.all (fun j => get (planeAddr m i0 is j)) n).map fun xs => sumTo n fun j => 2 ^ j * b2n (bit (xs.getD j 0) (i0 % 8))
/-- The code of an element (R239, R240). -/
def State.element (s : State) (b : Block) (r : Reader) (m : Img) (i0 : Nat) (is : List Nat) : Eng Nat :=
  if m.plane then planeBits (s.engineByte b r m.space) m i0 is m.b
  else
    (s.engineBytes b r m.space (m.base + m.rowOff is + i0 * m.b / 8) (max 1 (m.b / 8))).map fun x =>
      if m.b == 4 then x / 2 ^ (4 * (i0 % 2)) % 16 else x

/-! ## COPY (R245 to R254) -/

/-- A number read from nowhere. -/
def Eng.const (v : Nat) : Eng Nat := .ok ⟨v, [], []⟩
/-- The dense code of a place from a metadata nibble (R248): which kept element it is, or none; a bad nibble fails. -/
def densePick (nib place : Nat) : Option (Option Nat) :=
  let p0 := nib % 4
  let p1 := nib / 4
  if p1 ≤ p0 then none else if place == p0 then some (some 0) else if place == p1 then some (some 1) else some none
/-- The source code for destination coordinates, FILL outside the source's range (R247, R248). -/
def State.copyCode (s : State) (b : Block) (r : Reader) (sp24 : Bool) (dst src : Img) (i0 : Int) (is : List Int) : Eng Nat :=
  let fill := Eng.const (src.fill % 2 ^ dst.b)
  let inRange := (List.range 4).all fun k => decide (0 ≤ is.getD k 0) && decide (is.getD k 0 < src.dim (k + 1))
  let js := is.map Int.toNat
  let i := i0.toNat
  if !inRange || i0 < 0 then fill
  else if !sp24 then (if i < src.dim 0 then s.element b r src i js else fill)
  else if 2 * src.dim 0 ≤ i then fill
  else
    let g := i / 4
    let l := src.linear (2 * g) js
    let at_ := src.scale + l / 4
    match s.engineByte b r src.space at_ with
    | .error e => .error e
    | .ok m =>
      match densePick (if l / 2 % 2 = 0 then m.val % 16 else m.val / 16) (i % 4) with
      | none => .error (.bad 0x0D at_ 0 m.set)
      | some none => .ok ⟨0, m.set, m.seen⟩
      | some (some k) => Eng.both (fun _ v => v) (.ok m) (s.element b r src (2 * g + k) js)

/-- The bytes of one row or plane row of the destination cut at line boundaries: (row, first byte in the row, length)
(R250). -/
def cutRow (start len r : Nat) : Nat → Nat → List (Nat × Nat × Nat)
  | 0, _ => []
  | fuel + 1, k =>
    if len ≤ k then []
    else
      let n := min (len - k) (128 - (start + k) % 128)
      (r, k, n) :: cutRow start len r fuel (k + n)
/-- The units of a copy. -/
def Img.units (m : Img) : List (Nat × Nat × Nat) :=
  (List.range m.rows).flatMap fun r => cutRow (m.base + m.rowOff (m.coords r)) m.rowBytes r (m.rowBytes / 128 + 2) 0

/-- Byte k of row r of the destination. -/
def State.copyByte (s : State) (b : Block) (rd : Reader) (c : CopyOp) (dst src : Img) (r k : Nat) : Eng Nat :=
  let js := dst.coords r
  let is : List Int := tab 4 fun j => (js.getD j 0 : Int) + c.orig.getD (j + 1) 0
  let code (j0 : Nat) := s.copyCode b rd c.sp24 dst src ((j0 : Int) + c.orig.getD 0 0) is
  if dst.plane then
    let j := k % (dst.b * 16) / 16
    let q0 := k / (dst.b * 16) * 128 + k % 16 * 8
    (Eng.all (fun t => if q0 + t < dst.dim 0 then code (q0 + t) else .const 0) 8).map fun xs =>
      sumTo 8 fun t => b2n (bit (xs.getD t 0) j) * 2 ^ t
  else if dst.b == 4 then Eng.both (fun x y => x % 16 + 16 * (y % 16)) (code (2 * k)) (code (2 * k + 1))
  else (code (k / (dst.b / 8))).map fun x => x / 2 ^ (8 * (k % (dst.b / 8))) % 256

/-- A byte of the destination that is also a source byte is undefined (R247): in memory, or in the block's own scratchpad. -/
def overlaps (dst src : Img) (a : Nat) : Bool :=
  dst.space == src.space && src.region.any fun r => r.1 ≤ a && a < r.1 + r.2

/-- The addresses at which n bytes begin or enter a page of 64 KiB. -/
def pageStarts (va n : Nat) : List Nat := va :: tab (n / 2 ^ 16 + 1) fun i => Nat.min (va / 2 ^ 16 * 2 ^ 16 + 2 ^ 16 * (i + 1)) (va + n - 1)
/-- The same of a region of memory. -/
def Img.pages (m : Img) : List Nat := if m.space == 1 then [] else (m.region.flatMap fun r => pageStarts r.1 r.2).eraseDups
/-- An address lies on a host page. -/
def State.hostPage (s : State) (part va : Nat) : Bool := match s.walk part va with
  | .leaf l => l.host
  | _ => false
/-- A region of memory touches a host page. -/
def State.onHost (s : State) (m : Img) : Bool := m.pages.any (s.hostPage s.cpId)
/-- `.acq`: what FENCE.blk.e drains and waits for (R263, R306). -/
def State.acqWait (s : State) (acq : Bool) (go : State → State) : State :=
  let t := if acq then s.drainWhere s.ccId (fenceDrains .e .blk s.cgId s.cbId) else s
  if acq && t.fenceWaits .e .blk then t.parkAt .again else go t
/-- What is ordered before the engine reads of the word being issued: by its group's fences, and under `.acq` what the group
has acquired and the writes of its block (R262, R263). -/
def State.engineOrd (s : State) (acq : Bool) : List Nat := 
  if acq then ordAt (visMax s.cg.eord s.cg.vis) 1 s.wclock else s.cg.eord

/-- COPY at issue (R245, R246). -/
def execCopy (sw sp24 mc arr acq : Bool) (x y : Fin 32) (z : SReg) (s : State) : Out :=
  let arrOff := (s.rdS (z.val + 6)).toNat
  let mask := (s.rdS (z.val + 7)).toNat
  let o0 := (s.rdS (z.val + 1)).toInt
  let t : Touch := { sr := namesN (z.val + 1) 5 ++ (if arr then [z.val + 6] else []) ++ (if mc then [z.val + 7] else []), sw := [z.val] }
  .next <| s.operands t <| s.gate <|
    if s.cb.hdr.shapes ≤ x.val || s.cb.hdr.shapes ≤ y.val || s.cb.hdr.copies < 1 then s.trapNow 0x06 0
    else s.withSlots [x.val, y.val] (fun ms => match ms with
      | [d, c] => d.rank == c.rank && d.fmt == c.fmt && (!sp24 || (!c.scaled && !c.plane && d.dim 0 % 4 == 0 && o0 % 4 == 0)) &&
          (!mc || d.space == 1) && (d.plane || d.fmt != .e2m1 || d.dim 0 % 2 == 0)
      | _ => false) (fun i => sp24 && i == 1) fun ms =>
      if arr && arrOff % 16 != 0 then s.trapNow 0x04 0
      else if arr && s.cb.hdr.alloc < arrOff + 16 then s.trapNow 0x06 0
      else if mc && (s.cb.hdr.cluster == 0 || mask == 0 || 2 ^ s.cb.hdr.cluster ≤ mask) then s.trapNow 0x09 0
      else
        s.acqWait acq fun s0 => s0.taintSource (s0.slotTags [x.val, y.val]) fun s1 =>
          if !s1.cg.aset.isEmpty && ms.any s1.onHost then s.parkAt .again
          else
            let used := (List.filter (fun (_, c) => c.blk == s1.cbId && c.begun) s1.copies).length
            let id := s1.nextId
            let free := used < s1.cb.hdr.copies
            let op : CopyOp :=
              { part := s1.cpId, grp := s1.cgId, blk := s1.cbId, core := s1.ccId, seq := s1.cg.seq, dst := s1.slotBytes x.val,
                src := s1.slotBytes y.val, orig := tab 5 fun i => (s1.rdS (z.val + 1 + i)).toInt, sp24 := sp24,
                arr := if arr then some arrOff else none, mask := if mc then some mask else none,
                ord := s1.engineOrd acq, set := s1.cg.aset, wait := s1.cg.readsOut, begun := free,
                left := List.range ((ms.head?.map fun d => d.units.length).getD 0), err := none, partial_ := false, skipped := [],
                issued := s1.now }
            let s2 := s1.flyS [z.val] (.copy id) [] (some (s.cg.snap [])) 0
            let s3 : State := { s2 with copies := s2.copies.ins id op, nextId := s2.nextId + 1 }
            let s4 := s3.finish sw
            if free then s4 else s4.parkAt (.copySlot id)

/-- COPY_BEGIN: a copy that waited for one of its block's slots begins, oldest first (R246, R252). -/
def execCopyBegin (block : Nat) (s : State) : Out :=
  .next (match s.block block with
    | none => s
    | some b =>
      let used := (List.filter (fun (_, c) => c.blk == block && c.begun) s.copies).length
      match s.copies.find? fun (_, c) => c.blk == block && !c.begun with
      | some (id, c) =>
        if b.hdr.copies ≤ used then s
        else
          let t : State := { s with copies := s.copies.ins id { c with begun := true } }
          t.updGroup c.grp fun g => if g.park == some (.copySlot id) then { g with park := none } else g
      | none => s)

/-- A member of the block's gang that a multicast skips: it has exited (R249). -/
def State.gone (s : State) (blk : Nat) : Bool := match s.block blk with
  | some b => b.retired || (s.liveGroups b).isEmpty
  | none => true
/-- Who writes for an engine operation of a group: the operation, in the group's scopes (R264, R298). -/
def State.opAgent (s : State) (grp blk id : Nat) : Agent := { s.agentOf grp blk with grp := id }
/-- The agent and the PC of the word that an operation came from, for the log (R376). -/
def State.opPlace (s : State) (grp seq : Nat) : Nat × Nat :=
  match s.group grp with
  | some g => (s.groupAgent g, ((g.out.find? fun f => f.seq == seq).map Flight.pc).getD noPc)
  | none => (noAgent, noPc)
/-- Count u bytes in the arrival word of a scratchpad (R250). -/
def State.countArrival (s : State) (blk off u : Nat) (set : ASet) (by_ : Agent) : State :=
  match s.block blk with
  | none => s
  | some b =>
    let w (i : Nat) := ofBytes (b.padBytes (off + 4 * i) 4)
    let c := (w 1 + u) % 2 ^ 32
    let n := if w 0 = 0 then 0 else c / w 0
    s.storePad blk (off + 4) (someBytes (toBytes 4 (c - n * w 0) ++ toBytes 4 (w 2 + n))) set by_ .plain
/-- The set of the lines a write to scratchpads meets. -/
def State.padTags (s : State) (ts : List (Nat × Nat)) : ASet := ts.foldl (fun u t =>
  union u (((s.block t.1).map fun b => b.tag (t.2 / 128)).getD [])) []
/-- The status word reaches its register, and what the operation wrote counts as its group's own from now on; or it waits in
the core until its set fits (R251, R264, R340). -/
def State.statusIn (s : State) (f : Flight) (op v addr : Nat) (set : ASet) : State :=
  match s.deliver f [] (fun _ => v) set addr with
  | some t => { t with cg := { t.cg with ops := t.cg.ops ++ [op] } }
  | none =>
    { s with cg := { s.cg with out := s.cg.out.map fun x => if x.seq == f.seq then { x with waits := .owed op v addr set } else x } }
/-- What an engine operation reads would take its set past four AIDs (R340): it waits, or under ASTRICT its group traps and
the operation is over, which `end_` does. -/
def State.overFour (s : State) (grp seq : Nat) (set : ASet) (addr : Nat) (end_ : State → State) : State :=
  match s.focus grp with
  | none => end_ s
  | some t =>
    if !t.cb.hdr.astrict then s
    else match t.cg.out.find? fun f => f.seq == seq with
      | none => (end_ t).commit
      | some f => match t.deliver f [] (fun _ => 0) set addr with
        | some u => (end_ u).commit
        | none => s

/-- The blocks a copy names: its own, or those of the mask (R249). -/
def State.copyNamed (s : State) (b : Block) (c : CopyOp) : List Nat :=
  match c.mask with
  | none => [c.blk]
  | some m => ((((s.gangs.find b.gang).map Gang.members).getD []).zipIdx.filter fun (x : Nat × Nat) => bit m x.2).map Prod.fst
/-- Everything the copy reads, as it stands, carries this set: a denial discards whatever the copy wrote (R254, R336). -/
def State.copyReads (s : State) (b : Block) (rd : Reader) (c : CopyOp) (dst src : Img) : ASet :=
  if s.vers.isEmpty && b.tags.isEmpty then []
  else dst.units.foldl (fun u x => match Eng.all (fun i => s.copyByte b rd c dst src x.1 (x.2.1 + i)) x.2.2 with
    | .ok g => union u g.set
    | .error (.bad _ _ _ w) => union u w
    | .error .wait => u) []
/-- The members skipped by a unit that have not been recorded yet are (R249). DESIGN CHOICE (log entry 59): what the entry holds is
open: AGENT is the member's core with group place 0, CAUSE the code of a closed gang member (0x09), and no word is named. -/
def State.logSkips (s : State) (c : CopyOp) (skipped : List Nat) : State :=
  (skipped.filter fun m => !c.skipped.contains m).foldl (fun t m => t.logPart c.part ⟨4, 0x09, 0, ((t.block m).map fun b =>
    agentCode b.ldie (t.logicalCore b.core) 0).getD noAgent, 0, 0, noPc, 0⟩) s
/-- A copy ends on an error (R253); a lasting one is logged with the addresses that failed. -/
def State.copyFails (s : State) (id : Nat) (c : CopyOp) (cause va pa : Nat) (set : ASet) : State :=
  let who := s.opPlace c.grp c.seq
  let t := if cause == 0x07 then s.logPart c.part (lastingEntry who.1 who.2 va pa) else s
  ({ t with copies := t.copies.ins id { c with err := some cause, set := union c.set set } } : State).spend engineFree
/-- A unit has been written: the arrival words count it, and the copy goes on (R250). -/
def State.copyCounts (s : State) (id : Nat) (c : CopyOp) (unit n : Nat) (counts skipped : List Nat) (set : ASet) : State :=
  let t := match c.arr with
    | some off => counts.foldl (fun (u : State) m => u.countArrival m off n set (s.opAgent c.grp c.blk id)) s
    | none => s
  let c1 : CopyOp :=
    { c with set := set, left := c.left.filter fun x => x != unit, partial_ := c.partial_ || !skipped.isEmpty,
             skipped := union c.skipped skipped }
  ({ t with copies := t.copies.ins id c1 } : State).spend engineFree
/-- A unit is written to memory at its home; `s` is the state in which it has not been. -/
def State.copyToMem (s t : State) (id : Nat) (c : CopyOp) (addr n : Nat) (data : List (Option Byte)) (set : ASet)
    (after : State → ASet → State) : State :=
  let who := s.opPlace c.grp c.seq
  let by_ := s.opAgent c.grp c.blk id
  let end_ (u : State) : State := { u with copies := u.copies.del id }
  match t.reach c.part addr n false true with
  | .error cause => t.copyFails id c cause addr (t.walkFault c.part addr) set
  | .ok loc =>
    let k := t.keepWalk c.part addr
    if t.heldPage loc then s
    else if !t.homeUp loc then k.copyFails id c 0x07 addr loc.phys set
    else match loc with
      | .dev pa =>
        let r := k.rmw c.part who.1 who.2 addr pa data
        (match r.2.storeAt pa n set false by_ fun _ => t.keepWords pa data with
          | .done u _ w => if r.1 then after u (union set w) else u.copyFails id c 0x07 addr pa (union set w)
          | .third _ => s.selfCell pa n set
          | .tooMany _ => (s.selfCell pa n set).overFour c.grp c.seq (union set (s.readNewest pa n).2) addr end_)
      | .host link ba => if set.isEmpty then after (k.writeHost link ba by_ data) set else s
      | _ => k.copyFails id c 0x06 addr 0 set

/-- COPY_UNIT_WRITE: one unit of at most 128 bytes within a line is read, written and counted (R247 to R250, R253,
R254). -/
def State.copyUnit (s : State) (id : Nat) (c : CopyOp) (unit : Nat) : State :=
  let dst := Img.of c.dst
  let src := Img.of c.src
  match s.block c.blk, dst.units[unit]? with
  | some b, some (r, k, n) =>
    let addr := dst.base + dst.rowOff (dst.coords r) + k
    let rd := s.reader c.grp c.blk id c.ord false
    (match Eng.all (fun i => s.copyByte b rd c dst src r (k + i)) n with
      | .error .wait => s
      | .error (.bad cause va pa set) => s.copyFails id c cause va pa set
      | .ok g =>
        let who := s.opPlace c.grp c.seq
        let named := s.copyNamed b c
        let skipped := if c.mask.isSome then named.filter s.gone else []
        let targets := named.filter fun t => !skipped.contains t
        let counts := if dst.space == 1 then targets else [c.blk]
        let pads := (if dst.space == 1 then targets.map fun t => (t, addr) else []) ++ match c.arr with
          | some off => counts.map fun t => (t, off)
          | none => []
        let set := union (union (union c.set g.set) (s.copyReads b rd c dst src)) (s.padTags pads)
        let data (own : Bool) : List (Option Byte) := tab n fun i =>
          if own && overlaps dst src (addr + i) then some (s.freeByte (2 ^ 20 + i)) else some (BitVec.ofNat 8 (g.val.getD i 0))
        if 4 < set.length then s.overFour c.grp c.seq set addr fun t => { t with copies := t.copies.del id }
        else if pads.any fun p => s.noUndoFor p.1 ((pads.filter fun x => x.1 == p.1).map fun x => x.2 / 128) set then s
        else
          let t := (s.engineMeets c.part who.1 who.2 g.seen).logSkips c skipped
          let after (u : State) (set : ASet) : State := u.copyCounts id c unit n counts skipped set
          if dst.space == 1 then
            after (targets.foldl (fun u m => u.storePad m addr (data (m == c.blk)) set (s.opAgent c.grp c.blk id) .plain) t) set
          else s.copyToMem t id c addr n (data true) set after)
  | _, _ => s
def execCopyUnitWrite (copy unit : Nat) (s : State) : Out :=
  .next (match s.copies.find copy with
    | some c => if c.begun && c.wait.isEmpty && c.err.isNone && c.left.contains unit then s.copyUnit copy c unit else s
    | none => s)

/-- COPY_COMPLETE: the status word (R251 to R253). -/
def execCopyComplete (copy : Nat) (s : State) : Out :=
  .next (match s.copies.find copy with
    | none => s
    | some c =>
      if !c.begun || !c.wait.isEmpty || (!c.left.isEmpty && c.err.isNone) then s
      else
        let v := statusWord (s.now - c.issued) (c.err.getD (if c.partial_ then 0x09 else 0)) c.partial_ c.err.isSome
        let end_ (t : State) : State := { t with copies := t.copies.del copy }
        match s.focus c.grp with
        | none => end_ s
        | some t =>
          match t.cg.out.find? fun f => f.waits == .copy copy with
          | none => end_ s
          | some f => (end_ (t.statusIn f copy v (Img.of c.src).base c.set)).commit)

/-! ## The matrix engine (R255 to R265) -/

/-- A floating format a tile of weights may have (R257). -/
def weightFmt : Fmt → Bool
  | .f16 | .bf16 | .f32 | .f64 | .e2m1 | .b8 _ _ _ => true
  | _ => false
def State.myCluster (s : State) : Nat := coreCluster s.ccId
/-- An entry of the reservation table for the word being issued. -/
def State.mxEntry (s : State) (run acq zero : Bool) (img1 img2 : List Byte) (m n k : Nat) : MxEntry :=
  { id := s.nextId, first := s.nextId, grp := s.cgId, blk := s.cbId, core := s.ccId, pos := corePhys s.ccId % 4, seq := s.cg.seq, run := run,
    img1 := img1, img2 := img2, zero := zero, m := m, n := n, k := k, ord := s.engineOrd acq,
    prio := s.cb.prio, passed := 0, room := [], lines := [], verdict := none, set := s.cg.aset, wait := s.cg.readsOut, issued := s.now }
/-- Take one of the 16 entries, or park (R260). -/
def State.enter (s : State) (e : MxEntry) : State :=
  { s with clusters := s.clusters.ins s.myCluster { s.cluster s.myCluster with table := (s.cluster s.myCluster).table ++ [e] },
           nextId := s.nextId + 1 }
def State.tableFull (s : State) : Bool := 16 ≤ (s.cluster s.myCluster).table.length
/-- MXLW (R257). -/
def execMxlw (sw acq : Bool) (x : Fin 32) (s : State) : Out :=
  .next <| s.gate <|
    if s.cb.hdr.shapes ≤ x.val then s.trapNow 0x06 0
    else s.withSlots [x.val] (fun ms => match ms with
      | [d] => d.rank == 2 && d.space == 1 && weightFmt d.fmt && d.dim 0 ≤ 128 && d.dim 1 ≤ 128
      | _ => false) (fun _ => false) fun _ =>
      if s.tableFull then s.parkAt .again
      else s.acqWait acq fun t => t.taintSource (t.slotTags [x.val]) fun u =>
        let e := u.mxEntry false acq false (u.slotBytes x.val) [] 0 0 0
        ((u.fly .none .pass [] (some (s.cg.snap [])) 0).enter e).finish sw
/-- MXRUN (R258). -/
def execMxrun (sw z0 acq : Bool) (x y : Fin 32) (z : SReg) (s : State) : Out :=
  let m := (s.rdS (z.val + 1)).toNat
  let n := (s.rdS (z.val + 2)).toNat
  let k := (s.rdS (z.val + 3)).toNat
  .next <| s.operands { sr := namesN (z.val + 1) 3, sw := [z.val] } <| s.gate <|
    if s.cb.hdr.shapes ≤ x.val || s.cb.hdr.shapes ≤ y.val then s.trapNow 0x06 0
    else s.withSlots [x.val, y.val] (fun ms => match ms with
      | [a, c] => a.rank == 2 && a.plane && a.space == 1 && (Fmt.fp a.fmt).isSome &&
          c.rank == 2 && !c.plane && c.space == 1 && (c.fmt == .f32 || c.fmt == .f64) && !c.scaled &&
          1 ≤ m && m ≤ 1024 && m ≤ a.dim 1 && m ≤ c.dim 1 && 1 ≤ k && k ≤ a.dim 0 && 1 ≤ n && n ≤ c.dim 0
      | _ => false) (fun _ => false) fun _ =>
      if s.tableFull then s.parkAt .again
      else s.acqWait acq fun t => t.taintSource (t.slotTags [x.val, y.val]) fun u =>
        let e := u.mxEntry true acq z0 (u.slotBytes x.val) (u.slotBytes y.val) m n k
        ((u.flyS [z.val] .pass [] (some (s.cg.snap [])) 0).enter e).finish sw

/-- The bank of a core position. -/
def Cluster.bankAt (c : Cluster) (pos : Nat) : Option Bank := (c.banks.find pos).bind List.head?
/-- Latch a tile; one without a set leaves nothing beneath it. -/
def Cluster.latch (c : Cluster) (pos : Nat) (b : Bank) : Tab (List Bank) :=
  c.banks.ins pos (if b.tag.isEmpty then [b] else b :: (c.banks.find pos).getD [])
/-- The head of a core's queue. -/
def Cluster.headOf (c : Cluster) (pos : Nat) : Option MxEntry := c.table.find? fun e => e.pos == pos
def Cluster.heads (c : Cluster) : List MxEntry := [0, 1, 2, 3].filterMap c.headOf
/-- The lines of a range of bytes that is not empty. -/
def linesIn (at_ n : Nat) : List Nat := tab ((at_ + n - 1) / 128 + 1 - at_ / 128) fun i => at_ / 128 + i
/-- Scratchpad lines of a region. -/
def Img.lines (m : Img) : List Nat := (m.region.flatMap fun r => linesIn r.1 r.2).eraseDups
def tagsOf (b : Block) (ls : List Nat) : ASet := ls.foldl (fun u l => union u (b.tag l)) []
/-- Scratchpad lines of the scales. -/
def Img.scaleLines (m : Img) : List Nat :=
  if m.scaled then linesIn m.scale ((m.count - 1) / 2 ^ m.shift + 1) else []
/-- The value of an element with its scale (R241). -/
def scaleVal (v : FVal) (x : Option Nat) : FVal :=
  match x with
  | none => v
  | some x => if x == 0xFF then .nan false 0 0 false else match v with
    | .fin n m e => .fin n m (e + x - 127)
    | v => v
/-- The value of an access that cannot fail. -/
def Eng.get {α : Type} (d : α) : Eng α → α
  | .ok g => g.val
  | .error _ => d
/-- Code and scale code of an element of a scratchpad tile. -/
def State.tileAt (s : State) (b : Block) (r : Reader) (m : Img) (i0 i1 : Nat) : Eng (Nat × Option Nat) :=
  let is := [i1, 0, 0, 0]
  let e := s.element b r m i0 is
  if m.scaled then Eng.both (fun v x => (v, some x)) e (s.engineByte b r m.space (m.scale + m.linear i0 is / 2 ^ m.shift))
  else e.map fun v => (v, none)
/-- An entry leaves its cluster's table; a pass of it is over. -/
def State.leaveTable (s : State) (cl id : Nat) : State :=
  let k := s.cluster cl
  let k1 : Cluster := { k with pass := k.pass.filter fun e => e.id != id, table := k.table.filter fun x => x.id != id }
  { s with clusters := s.clusters.ins cl k1 }
/-- The bank that a latch fills: a tile's codes and scales; one whose read fails is not valid, and holds the cause (R255,
R257). -/
def State.latchBank (s : State) (b : Block) (e : MxEntry) (set : ASet) : Bank :=
  let m := Img.of e.img1
  let k : Bank := { owner := e.blk, fmt := m.fmt, k := m.dim 0, n := m.dim 1, bad := none, codes := [], scales := none, tag := set }
  match Eng.all (fun i => s.tileAt b (s.reader e.grp e.blk e.id e.ord false) m (i % m.dim 0) (i / m.dim 0)) (m.dim 0 * m.dim 1) with
  | .ok g => { k with codes := g.val.map (·.1), scales := if m.scaled then some (g.val.map fun x => x.2.getD 0) else none }
  | .error (.bad c _ _ _) => { k with bad := some c }
  | .error .wait => { k with bad := some 0x0D }

/-- MXLW_LATCH: the MXLW at the head of its core's queue reads its tile and latches it (R255, R257, R260). -/
def execMxlwLatch (die cluster pos : Nat) (s : State) : Out :=
  let id := die * 16 + cluster
  let c := s.cluster id
  .next (match c.headOf pos with
    | none => s
    | some e =>
      if e.run || !e.wait.isEmpty then s
      else match s.focus e.grp with
        | none => s.leaveTable id e.id
        | some t =>
          let m := Img.of e.img1
          let set := union e.set (tagsOf t.cb (m.lines ++ m.scaleLines))
          if 4 < set.length then s.overFour e.grp e.seq set (t.cp.scr + m.base) fun u => u.leaveTable id e.id
          else
            let latch (u : State) : State :=
              let k := u.cluster id
              ({ u with clusters := u.clusters.ins id { k with banks := k.latch pos (t.latchBank t.cb e set) } } : State).leaveTable
                id e.id |>.spend engineFree
            match t.cg.out.find? fun f => f.seq == e.seq with
            | none => (latch t).commit
            | some f => (latch (t.statusIn f e.id 0 (t.cp.scr + m.base) set)).commit)

/-- What a pass's comparison with its core's bank finds: none, or a cause (R255, R258). -/
def Cluster.verdict (c : Cluster) (e : MxEntry) : Option Nat :=
  match c.bankAt e.pos with
  | none => some 0x0D
  | some k => match k.bad with
    | some cause => some cause
    | none => if k.owner != e.blk || k.n < e.n || k.k < e.k then some 0x0D else none
/-- The scratchpad lines that a pass reads and writes. -/
def passLines (e : MxEntry) : List Nat :=
  (Img.of e.img1).lines ++ (Img.of e.img1).scaleLines ++ (Img.of e.img2).lines
/-- The set a pass works under: its group's, the bank's, and unless it writes nothing those of the lines it reads and
writes. -/
def passSet (c : Cluster) (e : MxEntry) (b : Block) : ASet :=
  let u := union e.set ((c.bankAt e.pos).map Bank.tag |>.getD [])
  if (c.verdict e).isSome then u else union u (tagsOf b (passLines e))
/-- The scratchpad lines for which a pass reserves undo entries (R265). -/
def passRoom (c : Cluster) (e : MxEntry) (b : Block) : List Nat :=
  if (c.verdict e).isSome then [] else (Img.of e.img2).lines.filter fun l => b.needsUndo l (passSet c e b)
/-- An MXRUN head that is ready (R260, R263, R265). -/
def State.ready (s : State) (c : Cluster) (e : MxEntry) : Bool :=
  e.run && e.wait.isEmpty && match s.block e.blk with
    | none => false
    | some b => (passSet c e b).length ≤ 4 && s.undoUsed b.core + (passRoom c e b).length ≤ 256
/-- Among ready heads: one passed over 8 times, earliest first; else by priority, then by entry (R260). -/
def chooseHead : List MxEntry → Option MxEntry
  | [] => none
  | e :: es => match chooseHead es with
    | none => some e
    | some f =>
      let late (x : MxEntry) := decide (8 ≤ x.passed)
      if late e != late f then (if late e then some e else some f)
      else if late e then (if e.id < f.id then some e else some f)
      else if e.prio != f.prio then (if f.prio < e.prio then some e else some f)
      else if e.id < f.id then some e else some f
/-- A head that has not been granted, whose data would take its set past four AIDs. -/
def State.fullHead (s : State) (c : Cluster) : Option (MxEntry × ASet) :=
  c.heads.findSome? fun e => (s.block e.blk).bind fun b =>
    if e.run && (c.pass.map MxEntry.id) != some e.id && e.wait.isEmpty && 4 < (passSet c e b).length && b.hdr.astrict then some (e, passSet c e b) else none
/-- MXRUN_GRANT: the bank is compared, and the undo entries are reserved (R258, R260, R265). -/
def execMxrunGrant (die cluster : Nat) (s : State) : Out :=
  let id := die * 16 + cluster
  let c := s.cluster id
  let ready := c.heads.filter (s.ready c)
  .next (match s.fullHead c with
    | some (e, set) => s.overFour e.grp e.seq set 0 fun t => t.leaveTable id e.id
    | none => match c.pass, chooseHead ready with
      | none, some e =>
        let table := c.table.map fun x => if x.id != e.id && (ready.any fun r => r.id == x.id) then { x with passed := x.passed + 1 } else x
        let b := (s.block e.blk).getD .empty
        let e1 : MxEntry := { e with set := passSet c e b, room := passRoom c e b, verdict := c.verdict e,
                                     lines := if (c.verdict e).isSome then [] else passLines e }
        { s with clusters := s.clusters.ins id { c with table := table, pass := some e1 } }
      | _, _ => s)

/-- One accumulator element (R259). -/
def State.macElement (s : State) (b : Block) (r : Reader) (e : MxEntry) (bank : Bank) (n m : Nat) : Nat :=
  let a := Img.of e.img1
  let d := Img.of e.img2
  let f := Fmt.fpD d.fmt
  let start := if e.zero then 0 else ((s.tileAt b r d n m).get (0, none)).1
  (List.range e.k).foldl (fun acc k =>
    let w := scaleVal (Fmt.decode bank.fmt (bank.codes.getD (k + bank.k * n) 0)) (bank.scales.map fun l => l.getD (k + bank.k * n) 0)
    let x := (s.tileAt b r a k m).get (0, none)
    (f.fma .rne w (scaleVal (Fmt.decode a.fmt x.1) x.2) (f.decode acc)).1) start
/-- The accumulators of a granted pass as it leaves them: places in the scratchpad and codes (R259). -/
def State.passResults (s : State) (b : Block) (e : MxEntry) (bank : Option Bank) : List (Nat × Nat) :=
  let d := Img.of e.img2
  match e.verdict, bank with
  | none, some k => (List.range e.m).flatMap fun m => tab e.n fun n =>
    (d.base + n * (Fmt.bits d.fmt / 8) + m * d.stride 1, s.macElement b (s.reader e.grp e.blk e.id e.ord true) e k n m)
  | _, _ => []
/-- MXRUN_PASS_END: the accumulators are written, then the status word (R258, R259, R264). A granted pass never stops: it works
under the set of its grant, with the undo entries reserved then (R265). -/
def execMxrunPassEnd (die cluster : Nat) (s : State) : Out :=
  let id := die * 16 + cluster
  let c := s.cluster id
  .next (match c.pass with
    | none => s
    | some e =>
      match s.focus e.grp with
      | none => s.leaveTable id e.id
      | some t =>
        let v := statusWord (s.now - e.issued) (e.verdict.getD 0) false e.verdict.isSome
        let w := Fmt.bits (Img.of e.img2).fmt / 8
        let write (u : State) : State := (t.passResults t.cb e (c.bankAt e.pos)).foldl (fun u x =>
          u.storePad e.blk x.1 (someBytes (toBytes w x.2)) e.set (t.opAgent e.grp e.blk e.id) .pass) u
        match t.cg.out.find? fun f => f.seq == e.seq with
        | none => (t.leaveTable id e.id).commit
        | some f =>
          ((((write t).statusIn f e.id v (t.cp.scr + (Img.of e.img1).base) e.set).spend engineFree).leaveTable id e.id).commit)

end Sys2Proof.Machine
end

