-- ==== Sys2Proof/Machine/Grid.lean ====
section
/-! DEFINITION. Grids and Mirror, the halo engine (R266 to R278, R420). -/

namespace Sys2Proof.Machine

/-! ## Steps (R420) -/

/-- Step a is at least step b. -/
def atLeast (a b : Nat) : Bool := (a + 2 ^ 32 - b % 2 ^ 32) % 2 ^ 32 < 2 ^ 31
/-- Step a is above step b. -/
def above (a b : Nat) : Bool := atLeast a b && a % 2 ^ 32 != b % 2 ^ 32

/-! ## The descriptor (R266) and the geometry (R267) -/

/-- The descriptor's fields, when check 2 of R269 passes. -/
def GridDesc.parse (bs : List Byte) : Option GridDesc :=
  let w := word4 bs
  let ndim := bits (w 4) 7 6
  let g := bits (w 4) 15 12
  let dims := [w 0x10, w 0x14, w 0x18]
  let pcs := [w 0x20, w 0x24, w 0x28]
  let rule := tab 6 fun f => bits (w 0x40) (4 * f + 3) (4 * f)
  let zero (lo hi : Nat) : Bool := ((bs.drop lo).take (hi - lo)).all (· == 0)
  match Fmt.ofCode (bits (w 4) 5 0) with
  | none => none
  | some fmt =>
    if w 0 == 0x4D495201 && bits (w 4) 31 16 == 0 && bits (w 4) 11 10 == 0 && 1 ≤ g && g ≤ 8 && ndim != 0 &&
      [8, 16, 32, 64].contains (Fmt.bits fmt) && bits (w 8) 31 3 == 0 &&
      (List.range 3).all (fun k => 1 ≤ dims.getD k 0 && (k < ndim || dims.getD k 0 == 1) && 1 ≤ pcs.getD k 0 &&
        dims.getD k 0 % pcs.getD k 0 == 0 && (k < ndim || pcs.getD k 0 == 1)) &&
      w 0x1C == 0 && w 0x2C == 0 && word8 bs 0x30 % 16 == 0 && w 0x3C == 0 && bits (w 0x40) 31 24 == 0 &&
      rule.all (· ≤ 4) && zero 0x44 0x80 && zero 0xB0 0x100 then
      some { fmt := fmt, g := g, depth := bits (w 4) 9 8 + 1, ndim := ndim, ncomp := bits (w 8) 2 0 + 1, timeout := w 0x0C,
             dim := dims, pc := pcs, step0 := w 0x38, rule := rule, fix := tab 6 fun f => word8 bs (0x80 + 8 * f),
             pmap := word8 bs 0x30, base := [], ldie := [] }
    else none

def GridDesc.b (d : GridDesc) : Nat := Fmt.bits d.fmt
def GridDesc.dimOf (d : GridDesc) (k : Nat) : Nat := d.dim.getD k 1
def GridDesc.pcOf (d : GridDesc) (k : Nat) : Nat := d.pc.getD k 1
def GridDesc.ruleOf (d : GridDesc) (f : Nat) : Nat := d.rule.getD f 0
/-- Gk. -/
def GridDesc.ghost (d : GridDesc) (k : Nat) : Nat := if k < d.ndim then d.g * d.depth else 0
/-- Pk. -/
def GridDesc.inner (d : GridDesc) (k : Nat) : Nat := d.dimOf k / d.pcOf k
/-- Ek. -/
def GridDesc.ext (d : GridDesc) (k : Nat) : Nat := d.inner k + 2 * d.ghost k
/-- C. -/
def GridDesc.cells (d : GridDesc) : Nat := d.ext 0 * d.ext 1 * d.ext 2
def GridDesc.nparts (d : GridDesc) : Nat := d.pcOf 0 * d.pcOf 1 * d.pcOf 2
/-- Bytes of one partition's storage. -/
def GridDesc.storage (d : GridDesc) : Nat := d.cells * d.ncomp * d.b / 8
/-- A partition's coordinate on an axis. -/
def GridDesc.place (d : GridDesc) (p k : Nat) : Nat :=
  match k with
  | 0 => p % d.pcOf 0
  | 1 => p / d.pcOf 0 % d.pcOf 1
  | _ => p / (d.pcOf 0 * d.pcOf 1)
/-- Local coordinate ck of a cell index. -/
def GridDesc.local_ (d : GridDesc) (idx k : Nat) : Int :=
  (match k with
    | 0 => (idx % d.ext 0 : Nat)
    | 1 => (idx / d.ext 0 % d.ext 1 : Nat)
    | _ => (idx / (d.ext 0 * d.ext 1) : Nat) : Int) - d.ghost k
/-- How far a cell lies outside the interior on an axis. -/
def GridDesc.outBy (d : GridDesc) (idx k : Nat) : Nat :=
  let c := d.local_ idx k
  if c < 0 then (-c).toNat else (c - (d.inner k : Int) + 1).toNat
/-- δ, the largest of them; 0 for an interior cell. -/
def GridDesc.delta (d : GridDesc) (idx : Nat) : Nat := Nat.max (Nat.max (d.outBy idx 0) (d.outBy idx 1)) (d.outBy idx 2)
/-- The ring of a cell, 0 for an interior cell. -/
def GridDesc.ring (d : GridDesc) (idx : Nat) : Nat := ceilDiv (d.delta idx) d.g
/-- The address of component m of a cell of partition p. -/
def GridDesc.addr (d : GridDesc) (p m idx : Nat) : Nat := d.base.getD p 0 + (m * d.cells + idx) * d.b / 8
def GridDesc.ghosts (d : GridDesc) : List Nat := (List.range d.cells).filter fun i => d.delta i != 0

/-- Where a ghost cell's value comes from (R270). -/
inductive GSrc where | cell (part idx : Nat) | fixed (code : Nat) | unset
  deriving DecidableEq, Repr
/-- Bring axis k of a global coordinate inside the domain by its face's rule; the last axis outside decides first. -/
def GridDesc.fold (d : GridDesc) (x : Nat → Int) : Nat → Except GSrc (Nat → Int)
  | 0 => .ok x
  | k + 1 =>
    let v := x k
    let n : Int := d.dimOf k
    if 0 ≤ v && v < n then d.fold x k
    else
      let f := if v < 0 then 2 * k else 2 * k + 1
      let go (w : Int) := d.fold (fun j => if j = k then w else x j) k
      match d.ruleOf f with
      | 1 => go (v % n)
      | 2 => go (if v < 0 then -1 - v else 2 * n - 1 - v)
      | 3 => .error (.fixed (d.fix.getD f 0 % 2 ^ d.b))
      | 4 => go (if v < 0 then 0 else n - 1)
      | _ => .error .unset
/-- The source of a ghost cell of partition p. -/
def GridDesc.source (d : GridDesc) (p idx : Nat) : GSrc :=
  match d.fold (fun k => (d.inner k * d.place p k : Nat) + d.local_ idx k) 3 with
  | .error s => s
  | .ok x =>
    let n (k : Nat) := (x k).toNat
    let q := n 0 / d.inner 0 + d.pcOf 0 * (n 1 / d.inner 1 + d.pcOf 1 * (n 2 / d.inner 2))
    let c (k : Nat) := n k % d.inner k + d.ghost k
    .cell q (c 0 + d.ext 0 * (c 1 + d.ext 1 * c 2))
/-- Partitions whose interior supplies a ghost of p. -/
def GridDesc.suppliers (d : GridDesc) (p : Nat) : List Nat :=
  (d.ghosts.filterMap fun i => match d.source p i with
    | .cell q _ => some q
    | _ => none).eraseDups
/-- Partitions that partition q supplies. -/
def GridDesc.takers (d : GridDesc) (q : Nat) : List Nat := (List.range d.nparts).filter fun p => (d.suppliers p).contains q
/-- Interior cells of q that supply some ghost value. -/
def GridDesc.supplied (d : GridDesc) (q : Nat) : List Nat :=
  ((d.takers q).flatMap fun p => d.ghosts.filterMap fun i => match d.source p i with
    | .cell r j => if r = q then some j else none
    | _ => none).eraseDups

/-! ## Mirror's state -/

/-- The newest value of a counter or tag. -/
def newestOf (t : Tab (List Spec)) (k : Nat) : Option Spec := (t.find k).bind List.head?
/-- Its committed value. -/
def committedOf (t : Tab (List Spec)) (k : Nat) : Option Nat := ((t.find k).getD []).findSome? fun x => if x.set.isEmpty then some x.val else none
/-- Advance a counter or tag: a committed value leaves nothing speculative before it. -/
def advanceOf (t : Tab (List Spec)) (k : Nat) (x : Spec) : Tab (List Spec) :=
  t.ins k (if x.set.isEmpty then [x] else x :: (t.find k).getD [])
def tagKey (p ring : Nat) : Nat := p * 8 + ring
/-- The registration of a handle in a partition. -/
def State.gridOf (s : State) (part va : Nat) : Option (Nat × MirrorReg) := List.find? (fun (_, r) => r.part == part && r.va == va) s.mirrors
def State.setGrid (s : State) (k : Nat) (r : MirrorReg) : State := { s with mirrors := s.mirrors.ins k r }

/-- A write of Mirror, Prism or the Loupe at a home, under a set: it is performed, it fails with a cause, or its home holds
it, where it may have denied a watch on its own cell (R345). Of a write that fails on an ECC word, the other words are written
(R236). -/
inductive MWrite where | ok (s : State) | bad (s : State) (cause pa : Nat) | hold (s : State)
def State.mirrorWrite (s : State) (part va n : Nat) (data : List Byte) (set : ASet) (by_ : Agent := .forPart part) : MWrite :=
  let k := s.keepWalk part va
  match s.reach part va n false true with
  | .error c => .bad k c (s.walkFault part va)
  | .ok loc =>
    if s.heldPage loc then .hold s
    else if !s.homeUp loc then .bad k 0x07 loc.phys
    else match loc with
      | .dev pa =>
        let r := k.rmw part noAgent noPc va pa (someBytes data)
        (match r.2.storeAt pa n set false by_ fun _ => s.keepWords pa (someBytes data) with
          | .done t _ _ => if r.1 then .ok t else .bad t 0x07 pa
          | .third t | .tooMany t => .hold (s.ruledAs t))
      | .host l ba => if set.isEmpty then .ok (k.writeHost l ba by_ (someBytes data)) else .hold s
      | _ => .bad k 0x06 0
/-- A write without a set by an agent that does not wait. One that would arrive while its page is held is performed before the
move, which no other access can tell (R216). -/
def State.writeNow (s : State) (part va n : Nat) (data : List Byte) (by_ : Agent := .forPart part) : MWrite :=
  let free : State := { s with migs := s.migs.map fun m => { m with final := false } }
  match free.mirrorWrite part va n data [] by_ with
  | .ok t => .ok { t with migs := s.migs }
  | .bad t c pa => .bad { t with migs := s.migs } c pa
  | .hold t => .hold { t with migs := s.migs }
/-- Mirror's or Prism's bookkeeping write, by the unit of a logical die: dropped with a log entry of kind 12 where it fails
(R268, R281, R298). -/
def State.report (s : State) (part ldie va n v : Nat) : State :=
  match s.writeNow part va n (toBytes n v) (s.unitOf part ldie) with
  | .ok t => t
  | .bad t c pa => t.logPart part ⟨12, c, 0, noAgent, va, pa, noPc, 0⟩
  | .hold _ => s
/-- The die of a grid's partition (R266). -/
def GridDesc.dieOf (d : GridDesc) (p : Nat) : Nat := d.ldie.getD p 0
/-- The committed counter of a partition is reported in its map entry by the Mirror of its die (R268, R273). -/
def State.reportStep (s : State) (r : MirrorReg) (p v : Nat) : State :=
  s.report r.part (r.desc.dieOf p) (r.desc.pmap + 16 * p + 0x0C) 4 v

/-- A read of Mirror or Prism at a home: the newest version's bytes and its set (R337); a lasting error is logged (R235). -/
def State.mirrorRead (s : State) (part va n : Nat) : Except Nat (List Byte × ASet) × State :=
  let k := s.keepWalk part va
  match s.reach part va n true false with
  | .error c => (.error c, k.logWalk part va c)
  | .ok loc =>
    if !s.homeUp loc then (.error 0x07, k)
    else match loc with
      | .dev pa => match k.eccRead part noAgent noPc va pa n with
        | (true, t) => (.ok (s.readNewest pa n), t)
        | (false, t) => (.error 0x07, t.logPart part (lastingEntry noAgent noPc va pa))
      | .host l ba => (.ok (s.hostBytes l ba n, []), k)
      | _ => (.error 0x06, k)

/-- Read the cells a capture of partition q holds: the codes and their set, or the cause and address of a failure. -/
def State.captureCells (s : State) (d : GridDesc) (part q : Nat) :
    List (Nat × Nat) → Except (Nat × Nat) (Tab Nat × ASet) × State
  | [] => (.ok ([], []), s)
  | (m, idx) :: rest =>
    let va := d.addr q m idx
    match s.mirrorRead part va (d.b / 8) with
    | (.error c, t) => (.error (c, va), t)
    | (.ok (bs, u), t) => match t.captureCells d part q rest with
      | (.ok (xs, v), t2) => (.ok (Tab.ins (m * d.cells + idx) (ofBytes bs) xs, union u v), t2)
      | r => r
/-- Capture the interior of partition q (R272). -/
def State.capture (s : State) (d : GridDesc) (part q : Nat) : Except (Nat × Nat) (Tab Nat × ASet) × State :=
  s.captureCells d part q ((List.range d.ncomp).flatMap fun m => (d.supplied q).map fun i => (m, i))

/-! ## GDEF (R269) -/

/-- Read the partition map: bases and logical dies. -/
def State.readMap (s : State) (part pmap : Nat) : Nat → Except (Nat × Nat) (List (Nat × Nat)) × State
  | 0 => (.ok [], s)
  | n + 1 =>
    match s.readMap part pmap n with
    | (.error e, t) => (.error e, t)
    | (.ok xs, t) => match t.readAs part (pmap + 16 * n) 16 with
      | (.error c, u) => (.error (c, pmap + 16 * n), u)
      | (.ok bs, u) => (.ok (xs ++ [(word8 bs 0, (word4 bs 8) % 256)]), u)
/-- A range overlaps the scratchpad window, or the frame window, which only groups reach either (R205, R419). -/
def Part.windowMeets (p : Part) (va n : Nat) : Bool := p.refused va n
/-- A logical die has been lost, and no spare has replaced it (R386). -/
def State.dieGone (s : State) (part d : Nat) : Bool :=
  match s.part part with
  | some P => (s.die (P.physDie d)).state == .failed
  | none => false
/-- The units of a logical die have stopped, whether or not firmware has declared it failed yet (R386). -/
def State.dieSilent (s : State) (part d : Nat) : Bool :=
  match s.part part with
  | some P => (s.die (P.physDie d)).lost
  | none => false
/-- The checks of R269; the error gives the address that SDADDR holds. -/
def State.gridChecks (s : State) (part va : Nat) : Except (Nat × Nat) GridDesc × State :=
  if va % 256 != 0 then (.error (0x04, 0), s)
  else match s.readLong part va 128 2 with
    | (_, some (_, a), t) => (.error (0x0D, a), t)
    | (bs, none, t) => match GridDesc.parse bs with
      | none => (.error (0x0D, 0), t)
      | some d =>
        let bad : Except (Nat × Nat) GridDesc := .error (0x0D, 0)
        if (List.range 3).any (fun k => d.inner k < d.ghost k) ||
          (List.range 6).any (fun f => (2 * d.ndim ≤ f && d.ruleOf f != 0) ||
            (d.ruleOf f == 1 && d.ruleOf (if f % 2 = 0 then f + 1 else f - 1) != 1)) ||
          4096 < d.nparts || 2 ^ 31 < d.storage then (bad, t)
        else match t.readMap part d.pmap d.nparts with
          | (.error (_, a), u) => (.error (0x0D, a), u)
          | (.ok xs, u) => match u.part part with
            | none => (bad, u)
            | some P =>
              if xs.any (fun x => x.1 % (d.b / 8) != 0 || P.windowMeets x.1 d.storage || P.dies.length ≤ x.2) then (bad, u)
              else if (u.gridOf part va).isNone && 64 ≤ (List.filter (fun (_, r) => r.part == part) u.mirrors).length then (bad, u)
              else if xs.any fun x => u.dieGone part x.2 then (.error (0x27, 0), u)
              else (.ok { d with base := xs.map (·.1), ldie := xs.map (·.2) }, u)
/-- Capture every partition for the exchange of a GDEF. -/
def State.captureAll (s : State) (d : GridDesc) (task part : Nat) : Nat → Except Nat (List Capture) × State
  | 0 => (.ok [], s)
  | n + 1 =>
    match s.captureAll d task part n with
    | (.error a, t) => (.error a, t)
    | (.ok cs, t) => match t.capture d part n with
      | (.error (_, a), u) => (.error a, u)
      | (.ok (data, set), u) => (.ok (cs ++ [⟨n, task, d.step0, data, set, d.takers n, []⟩]), u)
/-- GDEF at issue: the cause and address of its fault, or the registration with its exchange begun. -/
def State.gdefStart (s : State) (task part va : Nat) : Option (Nat × Nat) × State :=
  match s.gridChecks part va with
  | (.error e, t) => (some e, t)
  | (.ok d, t) =>
    let caps := t.captureAll d task part d.nparts
    let u := caps.2
    let old := u.gridOf part va
    let key := match old with
      | some (k, _) => k
      | none => u.nextId
    let r : MirrorReg :=
      { part := part, va := va, desc := d, counter := tab d.nparts fun p => (p, [⟨d.step0, []⟩]), tags := [],
        captures := (match caps.1 with
          | .ok cs => cs
          | .error _ => []), deliver := [], done := (match caps.1 with
          | .ok _ => []
          | .error _ => tab d.nparts fun p => (p, d.step0)),
        task := (match caps.1 with
          | .ok _ => some task
          | .error _ => none),
        bad := (match caps.1 with
          | .ok _ => none
          | .error a => some a) }
    let w : State := { u with nextId := u.nextId + 1 }
    (none, (List.range d.nparts).foldl (fun x p => x.reportStep r p d.step0) (w.setGrid key r))
/-- Every ghost ring of every partition carries at least a step by committed delivery (R269, R277). -/
def MirrorReg.allTagged (r : MirrorReg) (step : Nat) : Bool :=
  (List.range r.desc.nparts).all fun p => (List.range r.desc.depth).all fun i =>
    match committedOf r.tags (tagKey p (i + 1)) with
    | some t => atLeast t step
    | none => false
/-- How a GDEF stands: not ended, ended, or failed at an address. -/
def MirrorReg.gdefEnd (r : MirrorReg) : Option (Option Nat) :=
  match r.bad with
  | some a => some (some a)
  | none => if r.task.isNone || r.allTagged r.desc.step0 then some none else none
/-- The exchange of GDEF stops: its captures are dropped, and no partition waits for the delivery of STEP0 (R94, R269). -/
def MirrorReg.stop (r : MirrorReg) : MirrorReg :=
  { r with task := none, captures := r.captures.filter (fun c => some c.task != r.task), deliver := [],
           done := tab r.desc.nparts fun p => (p, r.desc.step0) }
/-- The exchange of GDEF fails at an address: the counters are at STEP0 and the tags unset (R269). -/
def MirrorReg.fail (r : MirrorReg) (at_ : Nat) : MirrorReg :=
  { r.stop with bad := some at_, captures := [], tags := [], counter := tab r.desc.nparts fun p => (p, [⟨r.desc.step0, []⟩]) }
/-- The exchange of GDEF is over. -/
def MirrorReg.ended (r : MirrorReg) : MirrorReg := { r with task := none }
/-- GSTEP's conditions (R277). -/
def MirrorReg.reached (r : MirrorReg) (step : Nat) : Bool :=
  (List.range r.desc.nparts).all (fun p => match committedOf r.counter p with
    | some v => atLeast v step
    | none => false) && r.allTagged step

/-! ## Deliveries (R270 to R272, R274) -/

/-- The capture of partition q that a delivery into p would take: the oldest not yet delivered to p. -/
def MirrorReg.capFor (r : MirrorReg) (q p : Nat) : Option Capture := r.captures.find? fun c => c.part == q && c.left.contains p
/-- The step and set of the delivery into partition p for which the conditions of R272 hold. -/
def MirrorReg.ready (r : MirrorReg) (p : Nat) : Option (Nat × ASet) :=
  match newestOf r.counter p with
  | none => none
  | some top =>
    let caps := (r.desc.suppliers p).map fun q => r.capFor q p
    let step := match caps.head? with
      | some (some c) => c.step
      | _ => if r.done.any fun x => x.1 == p then top.val else r.desc.step0
    let ok := caps.all fun c => match c with
      | some c => c.step == step
      | none => false
    let again := caps.isEmpty && r.done.contains (p, step)
    if !ok || again || !atLeast top.val step then none
    else
      let by_ := (((r.counter.find p).getD []).reverse.find? fun x => atLeast x.val step).map Spec.set
      some (step, union (caps.foldl (fun u c => union u ((c.map Capture.set).getD [])) []) (by_.getD []))
/-- The delivery that may now be made into partition p: the rings of the one before have their tags. -/
def MirrorReg.due (r : MirrorReg) (p : Nat) : Option (Nat × ASet) := if r.deliver.any fun x => x.2.1 == p then none else r.ready p
/-- A delivery into partition p belongs to the exchange of the GDEF (R269). -/
def MirrorReg.first (r : MirrorReg) (p : Nat) : Bool :=
  r.task.isSome && (((r.desc.suppliers p).map fun q => (r.capFor q p).map Capture.task).contains r.task ||
    !(r.done.any fun x => x.1 == p))
/-- Write the ghost cells of partition p, by the Mirror of its die: the rings in which a write failed, and the address of the
first failure; or a home holds a write. A failure is logged with kind 12, but in a GDEF's exchange only a lasting error is, as
R235 says. -/
def State.ghostWrites (s : State) (r : MirrorReg) (p : Nat) (set : ASet) (log : Bool) :
    List (Nat × Nat) → Except State (State × List Nat × Option Nat)
  | [] => .ok (s, [], none)
  | (m, i) :: rest =>
    let code := match r.desc.source p i with
      | .fixed c => some c
      | .unset => none
      | .cell q j => (r.capFor q p).bind fun c => c.data.find (m * r.desc.cells + j)
    match code with
    | none => s.ghostWrites r p set log rest
    | some c =>
      let va := r.desc.addr p m i
      match s.mirrorWrite r.part va (r.desc.b / 8) (toBytes (r.desc.b / 8) c) set (s.unitOf r.part (r.desc.dieOf p)) with
      | .hold t => .error t
      | .ok t => t.ghostWrites r p set log rest
      | .bad k cause pa =>
        let t := if log then k.logPart r.part ⟨12, cause, 0, noAgent, va, pa, noPc, 0⟩
          else if cause == 0x07 then k.logPart r.part (lastingEntry noAgent noPc va pa) else k
        match t.ghostWrites r p set log rest with
        | .ok (u, bad, _) => .ok (u, r.desc.ring i :: bad, some va)
        | .error u => .error u
/-- The steps delivered to partition p that its counter may still return to, and the one delivered now. -/
def MirrorReg.doneWith (r : MirrorReg) (p step : Nat) : List (Nat × Nat) :=
  (r.done.filter fun x => x.1 != p || (((r.counter.find p).getD []).any fun v => v.val == x.2)) ++ [(p, step)]
/-- A delivery whose set is too large to be written yet still denies the watches on cells that it would reach (R340, R345). -/
def State.ghostDenials (s : State) (r : MirrorReg) (p : Nat) (set : ASet) : State :=
  (List.range r.desc.ncomp).foldl (fun t m => r.desc.ghosts.foldl (fun (t : State) i =>
    match t.reach r.part (r.desc.addr p m i) (r.desc.b / 8) false true with
    | .ok (.dev pa) => if r.desc.source p i == .unset then t else t.selfCell pa (r.desc.b / 8) set
    | _ => t) t) s
/-- HALO_DELIVERY: one partition's ghosts of one step are written. -/
def execHaloDelivery (grid part : Nat) (s : State) : Out :=
  .next (match s.mirrors.find grid with
    | none => s
    | some r =>
      let first := r.first part
      match r.due part with
      | none => s
      | some (step, set) =>
        if s.dieSilent r.part (r.desc.dieOf part) then s
        else if 4 < set.length then s.ghostDenials r part set
        else match s.ghostWrites r part set (!first) ((List.range r.desc.ncomp).flatMap fun m => r.desc.ghosts.map fun i => (m, i)) with
          | .error t => s.ruledAs t
          | .ok (t, bad, at_) =>
            match (if first then at_ else none) with
            | some a => (List.range r.desc.nparts).foldl (fun x p => x.reportStep r p r.desc.step0) (t.setGrid grid (r.fail a))
            | none =>
              let take (c : Capture) : Capture :=
                if (r.desc.suppliers part).contains c.part && c.step == step && c.left.contains part then
                  { c with left := c.left.filter fun x => x != part, spec := if set.isEmpty then c.spec else c.spec ++ [(part, set)] }
                else c
              let caps := (r.captures.map take).filter fun c => !(c.left.isEmpty && c.spec.isEmpty)
              let rings := ((List.range r.desc.depth).map (· + 1)).filter fun x => !bad.contains x
              t.setGrid grid
                { r with captures := caps, done := r.doneWith part step,
                         deliver := if rings.isEmpty then r.deliver else r.deliver ++ [(step, part, set, rings)] })
/-- RING_TAG_SET: every write of a step to a ring has been performed (R271). -/
def execRingTagSet (grid part ring : Nat) (s : State) : Out :=
  .next (match s.mirrors.find grid with
    | none => s
    | some r =>
      match r.deliver.find? fun x => x.2.1 == part && x.2.2.2.contains ring with
      | none => s
      | some (step, p, set, left) =>
        let rest := left.filter fun x => x != ring
        let others := r.deliver.filter fun x => x.2.1 != part
        s.setGrid grid { r with tags := advanceOf r.tags (tagKey part ring) ⟨step, set⟩,
                                deliver := if rest.isEmpty then others else others ++ [(step, p, set, rest)] })

/-! ## GLD (R275, R276) -/

/-- A cell is current for a step (R271). -/
def MirrorReg.current (r : MirrorReg) (p idx step : Nat) : Bool :=
  let ring := r.desc.ring idx
  ring == 0 || match newestOf r.tags (tagKey p ring) with
    | some t => atLeast (t.val + r.desc.depth - ring) step || above t.val step
    | none => false
/-- The sets of the tags on which the currency of cells rests (R274). -/
def MirrorReg.tagSets (r : MirrorReg) (p : Nat) (cells : List Nat) : ASet :=
  cells.foldl (fun u i => union u (((newestOf r.tags (tagKey p (r.desc.ring i))).map Spec.set).getD [])) []
def GridDesc.memTy (d : GridDesc) : MemTy :=
  match d.b with
  | 8 => .n8
  | 16 => .n16
  | 64 => .b64
  | _ => .b32
def execGld (sw : Bool) (comp : Fin 8) (anyStep : Bool) (_h : Hint) (d a : VReg) (r : SReg) (s : State) : Out :=
  let h := s.rdS64 r
  let st := (s.rdS (r.val + 2)).toNat
  let p := (s.rdS (r.val + 3)).toNat
  let fault (sub : Nat) := s.trapNow 0x0D sub
  .next <| s.operands { vr := [a.val], sr := namesN r 4 } <| s.gate <|
    match s.gridOf s.cpId h with
    | none => fault 0x10
    | some (_, g) =>
      let cell (l : Nat) := (s.rdV a l).toNat
      if g.desc.nparts ≤ p then fault 0x11
      else if g.desc.ncomp ≤ comp.val then fault 0x12
      else if s.cg.exLanes.any (fun l => g.desc.cells ≤ cell l) then fault 0x13
      else if g.desc.b == 64 && d.val % 2 == 1 then fault 0x15
      else
        let ty := g.desc.memTy
        let va (l : Nat) := g.desc.addr p comp (cell l)
        let chk (l : Nat) := match s.memCheck ty.size true false false none (va l) with
          | .ok (.pad _ _) => MemCheck.fail 0x06
          | c => c
        s.operands { vw := memNames ty d, holds := true } <| s.withLanes s.cg.exLanes chk va fun loc =>
          if !anyStep && s.cg.exLanes.any fun l => !g.current p (cell l) st then
            s.parkAt (.stale s.now h st p comp (s.cg.exLanes.map fun l => (l, cell l)))
          else s.taintSource (if anyStep then [] else g.tagSets p (s.cg.exLanes.map cell)) fun t => t.sendLoads sw ty d [] va loc
/-- The lanes of a parked GLD whose cells are stale; none where the registration they name has gone or no longer holds
them. -/
def State.staleLanes (s : State) (grid step part : Nat) (cells : List (Nat × Nat)) : Option (MirrorReg × List (Nat × Nat)) :=
  match s.gridOf s.cpId grid with
  | none => none
  | some (_, r) =>
    if r.desc.nparts ≤ part || cells.any (fun c => r.desc.cells ≤ c.2) then none
    else some (r, cells.filter fun c => !r.current part c.2 step)
/-- STALE_HALO: the TIMEOUT of a parked GLD has passed. -/
def execStaleHalo (group : Nat) (s : State) : Out :=
  .next (s.onGroup group fun t => match t.cg.park with
    | some (.stale since grid step part comp cells) =>
      (match t.staleLanes grid step part cells with
        | some (r, (l, i) :: rest) =>
          if r.desc.timeout = 0 || t.now < since + r.desc.timeout * usec then t
          else t.trapWith 0x08 (r.desc.ring i) (r.desc.addr part comp i) (laneMask (l :: rest.map (·.1)))
        | _ => t)
    | _ => t)

/-! ## HPUB (R273) -/

/-- Partition p of a grid holds a capture that has not been delivered. -/
def MirrorReg.undelivered (r : MirrorReg) (p : Nat) : Bool := r.captures.any fun c => c.part == p && !c.left.isEmpty
def execHpub (sw : Bool) (x y z : SReg) (s : State) : Out :=
  let h := s.rdS64 x
  let st := (s.rdS y).toNat
  let p := (s.rdS z).toNat
  let fault (t : State) (sub : Nat) := t.trapNow 0x0D sub
  .next <| s.operands ((readS x true).plus ((readS y false).plus (readS z false))) <| s.syncGate <|
    if s.heldWrite then s.parkAt .again
    else match s.gridOf s.cpId h with
    | none => fault s 0x10
    | some (_, r) =>
      if r.desc.nparts ≤ p then fault s 0x11
      else
        let top := (newestOf r.counter p).getD ⟨0, []⟩
        s.taintSource top.set fun t =>
          if !above st top.val then fault t 0x14
          else
            let u := t.drainWhere t.ccId fun _ => true
            if u.accessesOut || u.blockWritesOut || u.behindOut || r.undelivered p then { u with cg := s.cg }.parkAt .again
            else { u with cg := t.cg }.parkIssued (.hpub h p st sw) s.cg.mark
/-- HPUB_CAPTURE: the interior has been read; the counter advances and the word is over, or it traps. A speculative advance
made meanwhile is taken as a taint source before the step is compared again (R274). -/
def execHpubCapture (group : Nat) (s : State) : Out :=
  .next (s.onGroup group fun t => match t.cg.park with
    | some (.hpub h p st sw) =>
      (match t.gridOf t.cpId h with
        | none => t.trapNow 0x0D 0x10
        | some (key, r) =>
          let top := (newestOf r.counter p).getD ⟨0, []⟩
          if r.desc.nparts ≤ p then t.trapNow 0x0D 0x11
          else t.taintSource top.set fun t0 =>
            if !above st top.val then t0.trapNow 0x0D 0x14
            else if r.undelivered p then t0
            else match t0.capture r.desc t.cpId p with
              | (.error (_, va), u) => u.trapWith 0x0D 0x16 va (laneMask u.cg.exLanes)
              | (.ok (data, set), u) => u.taintSource set fun w =>
                let takers := r.desc.takers p
                let caps := if takers.isEmpty then r.captures else r.captures ++ [⟨p, w.cb.task, st, data, w.cg.aset, takers, []⟩]
                let r1 : MirrorReg := { r with counter := advanceOf r.counter p ⟨st, w.cg.aset⟩, captures := caps }
                let v : State := { w.setGrid key r1 with cg := { w.cg with park := none } }
                (if w.cg.aset.isEmpty then v.reportStep r1 p st else v).finishParked sw)
    | _ => t)

end Sys2Proof.Machine
end

