-- ==== Sys2Proof/Machine/Expert.lean ====
section
/-! DEFINITION. Experts and Prism, the placement engine (R279 to R297). -/

namespace Sys2Proof.Machine

/-! ## Tables -/

def State.layer (s : State) (part num : Nat) : Option Layer := s.layers.find? fun l => l.part == part && l.num == num
def State.setLayer (s : State) (l : Layer) : State :=
  { s with layers := if s.layers.any fun x => x.part == l.part && x.num == l.num
      then s.layers.map fun x => if x.part == l.part && x.num == l.num then l else x
      else s.layers ++ [l] }
def Layer.count (l : Layer) : Nat := l.experts.length
def Layer.updExpert (l : Layer) (e : Nat) (f : Expert → Expert) : Layer := { l with experts := l.experts.modify e f }
def Layer.areaKey (l : Layer) (d e : Nat) : Nat := d * l.count + e
def Area.fresh (slots : Nat) : Area := ⟨0, 0, 0, 0, 0, List.replicate slots none, none, [], []⟩
def Layer.area (l : Layer) (d e : Nat) : Area := (l.areas.find (l.areaKey d e)).getD (.fresh l.slots)
def Layer.setArea (l : Layer) (d e : Nat) (a : Area) : Layer := { l with areas := l.areas.ins (l.areaKey d e) a }
/-- R280: the address of an inbound area, of a slot of it, and of a weight area. -/
def Layer.areaVa (l : Layer) (d e : Nat) : Nat := l.inbase + l.areaKey d e * (128 + l.slots * (l.rowb + 128))
def Layer.slotVa (l : Layer) (d e i : Nat) : Nat := l.areaVa d e + 128 + i * (l.rowb + 128)
def Layer.weightVa (l : Layer) (d e : Nat) : Nat := l.wbase + l.areaKey d e * l.wstride
/-- The reference count (R282): slots that hold a row not yet released. -/
def Area.refs (a : Area) : Nat := (a.slots.filter Option.isSome).length
def Residency.code : Residency → Nat
  | .absent => 0 | .filling => 1 | .resident => 2 | .pinned => 3 | .evicting => 4
def Expert.stateOf (x : Expert) (d : Nat) : Residency := x.state.getD d .absent
def Expert.here (x : Expert) (d : Nat) : Bool := x.stateOf d == .resident || x.stateOf d == .pinned

/-- An area that starts anew: its waiting requests stay in line. -/
def Area.renewed (a : Area) (slots : Nat) : Area := { Area.fresh slots with waiters := a.waiters }
/-- The areas of a layer that replaces this one: the requests that wait stay in line at the area of the same expert and
die. -/
def Layer.renewed (l : Layer) (slots count : Nat) : Tab Area :=
  List.foldl (fun (m : Tab Area) (k, a) => if a.waiters.isEmpty || count ≤ k % l.count then m
    else m.ins (k / l.count * count + k % l.count) (a.renewed slots)) [] l.areas

/-- The Prism of an expert's primary die mirrors its tables into its entry, VERSION last (R281, R283). -/
def State.mirrorEntry (s : State) (l : Layer) (e : Nat) : State :=
  match l.experts[e]? with
  | none => s
  | some x =>
    let va := l.va + 0x40 + 32 * e
    let by_ := (x.list.head?).getD nobody
    let reps := ((x.list.zipIdx).foldl (fun n ri => n + ri.1 * 8 ^ ri.2) 0) + 2 ^ 28 * x.list.length
    let states := sumTo 8 fun d => (x.stateOf d).code * 16 ^ d
    let refs := sumTo 8 fun d => (l.area d e).refs % 2 ^ 16 * 2 ^ (16 * d)
    let t := s.report l.part by_ (va + 4) 28 (reps + 2 ^ 32 * (states + 2 ^ 32 * (x.load % 2 ^ 32 + 2 ^ 32 * refs)))
    t.report l.part by_ va 4 x.version
/-- The Prism of an area's die mirrors its counters into its control block (R287). -/
def State.mirrorArea (s : State) (l : Layer) (d e : Nat) : State :=
  let a := l.area d e
  s.report l.part d (l.areaVa d e) 20 (a.wlo + 2 ^ 32 * (a.accepted + 2 ^ 32 * (a.dups + 2 ^ 32 * (a.stale + 2 ^ 32 * a.redirs))))
/-- A changed table: the primary's Prism holds it at once, the others once it reaches them (R283). -/
def Expert.publish (x : Expert) : Expert :=
  match x.list.head? with
  | some d => { x with copies := x.copies.ins d (x.version, x.list) }
  | none => x
/-- Put a changed layer and mirror one expert's entry. -/
def State.changed (s : State) (l : Layer) (e : Nat) : State := (s.setLayer l).mirrorEntry l e
def bump (v : Nat) : Nat := (v + 1) % 2 ^ 32
/-- A die leaves the replica list (R283); its own Prism, which knows that it is no longer resident, has the table that says
so, and redirects by it (R289). -/
def Expert.unlist (x : Expert) (d : Nat) (st : Residency) : Expert :=
  let y : Expert := { x with state := x.state.set d st }
  if x.list.contains d then
    let z : Expert := { y with list := x.list.filter fun r => r != d, version := bump x.version }
    ({ z with copies := z.copies.ins d (z.version, z.list) } : Expert).publish
  else y
/-- A filled die joins the replica list (R283). -/
def Expert.join (x : Expert) (d : Nat) : Expert :=
  ({ x with state := x.state.set d .resident, list := x.list ++ [d], version := bump x.version } : Expert).publish

/-! ## Keys and the checks of the words (R290) -/

/-- The layer and expert of a key, or the sub-cause. -/
def State.expertOf (s : State) (part key : Nat) : Except Nat (Layer × Nat) :=
  if key / 2 ^ 18 != 0 then .error 0x20
  else match s.layer part (key % 256) with
    | none => .error 0x21
    | some l => if l.count ≤ key / 256 then .error 0x21 else .ok (l, key / 256)

/-! ## XSEND (R291) -/

/-- A send lies on a host page at either end (R343): its row, or the area it goes to. -/
def State.sendOnHost (s : State) (a nb target area : Nat) : Bool :=
  (!s.cp.inWindow a && (pageStarts a nb).any (s.hostPage s.cpId)) || (pageStarts target area).any (s.hostPage s.cpId)
def execXsend (sw acq : Bool) (x : SReg) (s : State) : Out :=
  let n := x.val
  let key := (s.rdS (n + 1)).toNat
  let a := s.rdS64 (n + 2)
  let nb := (s.rdS (n + 4)).toNat
  let tok := (s.rdS (n + 5)).toNat
  let gate := (s.rdS (n + 6)).toNat
  .next <| s.operands { sr := namesN (n + 1) 6, sw := [n] } <| s.gate <|
    match s.expertOf s.cpId key with
    | .error sub => s.trapNow 0x0D sub
    | .ok (l, e) =>
      let mine := List.filter (fun (_, c) => c.core == s.ccId && c.grp != nobody) s.sends
      if nb == 0 || l.rowb < nb || nb % 16 != 0 then s.trapNow 0x0D 0x22
      else if a % 16 != 0 then s.trapNow 0x04 0
      else if (s.cp.inWindow a && s.cb.hdr.alloc < a - s.cp.scr + nb) || s.cp.meetsFrames a nb then s.trapNow 0x06 0
      else if 16 ≤ mine.length then s.parkAt .again
      else
        let tab := ((l.experts[e]?).bind fun x => x.copies.find s.cb.ldie).getD (0, [])
        let dest := tab.2.getD (tok % Nat.max 1 tab.2.length) 0
        if !s.cg.aset.isEmpty && s.sendOnHost a nb (l.areaVa dest e) (128 + l.slots * (l.rowb + 128)) then s.parkAt .again
        else s.acqWait acq fun t =>
          let id := t.nextId
          let c : Send :=
            { part := t.cpId, grp := t.cgId, blk := t.cbId, core := t.ccId, seq := t.cg.seq, key := key, rowLoc := a,
              nbytes := nb, row := [], token := tok, gate := gate, version := tab.1, redir := false,
              sender := t.groupAgent t.cg, target := dest, set := t.cg.aset, wait := t.cg.readsOut,
              ord := t.engineOrd acq, read := false, parked := false,
              status := if tab.2.isEmpty then some 0x10 else none, issued := t.now }
          let u := t.flyS [n] (.send id) [] (some (t.cg.snap [])) 0
          ({ u with sends := u.sends.ins id c, nextId := u.nextId + 1 } : State).finish sw

/-! ## Arrivals (R288, R289) -/

/-- Write bytes at their homes, up to a line at a time, from an address that is a multiple of 128 plus a start. -/
def State.mirrorWrites (s : State) (part : Nat) (set : ASet) (by_ : Agent) : Nat → Nat → List Byte → MWrite
  | 0, _, _ => .ok s
  | fuel + 1, va, data =>
    if data.isEmpty then .ok s
    else
      let n := min data.length (128 - va % 128)
      match s.mirrorWrite part va n (data.take n) set by_ with
      | .ok t => t.mirrorWrites part set by_ fuel (va + n) (data.drop n)
      | r => r
/-- The first free slot after the last one allocated, in ring order. -/
def Area.nextFree (a : Area) : Option Nat :=
  let n := a.slots.length
  let start := match a.last with
    | some i => i + 1
    | none => 0
  ((List.range n).map fun k => (start + k) % n).find? fun i => (a.slots.getD i none).isNone
def State.setSend (s : State) (id : Nat) (c : Send) : State := { s with sends := s.sends.ins id c }
/-- A write of an arrival or a fill has failed; a lasting error is logged (R235). -/
def State.logLost (s : State) (part cause va pa : Nat) : State :=
  if cause == 0x07 then s.logPart part (lastingEntry noAgent noPc va pa) else s
/-- A slot's row, then its header without VALID, then VALID are written (R288); the writer is named for the group that the
slot will be given to (R292). -/
def State.slotWrites (s : State) (c : Send) (va : Nat) (by_ : Agent) : MWrite :=
  let head := toBytes 4 c.sender ++ toBytes 4 c.token ++ toBytes 4 c.gate ++ toBytes 4 c.version ++ toBytes 4 c.nbytes
  match s.mirrorWrites c.part c.set by_ 130 (va + 128) c.row with
  | .ok t => match t.mirrorWrites c.part c.set by_ 2 va head with
    | .ok t => t.mirrorWrite c.part (va + 0x14) 4 (toBytes 4 (2 * b2n c.redir + 1)) c.set by_
    | r => r
  | r => r
/-- An area whose slot i takes the row of a send as its order-th allocation. -/
def Area.accept (a : Area) (c : Send) (i order slots : Nat) : Area :=
  let rs := a.receipts ++ [(c.sender, c.token)]
  { a with slots := a.slots.set i (some ⟨order, c.set, (c.sender, c.token), c.redir, none, none⟩), last := some i,
           accepted := bump a.accepted, redirs := if c.redir then bump a.redirs else a.redirs,
           receipts := rs.drop (rs.length - 2 * slots) }
/-- An arrival at a die (R289); one that is dead never acknowledges (R296). One that has parked for a free slot takes it without
a further test. -/
def State.arriveAt (s : State) (id : Nat) (c : Send) : State :=
  match s.expertOf c.part c.key with
  | .error _ => s.setSend id { c with status := some 0x10 }
  | .ok (l, e) =>
    let d := c.target
    let a := l.area d e
    let ack (t : State) (st : Nat) : State := t.setSend id { c with status := some st }
    let area (a : Area) : State :=
      let m := l.setArea d e a
      (s.setLayer m).mirrorArea m d e
    match l.experts[e]? with
    | none => s
    | some x =>
      let park (t : State) : State := t.setSend id { c with parked := true }
      if s.dieGone c.part d then ack s 0x10
      else if s.dieSilent c.part d then s
      else if !c.parked && 2 ^ 31 ≤ (c.token + 2 ^ 32 - a.wlo) % 2 ^ 32 then ack (area { a with stale := bump a.stale }) 0
      else if !c.parked && a.receipts.contains (c.sender, c.token) then ack (area { a with dups := bump a.dups }) 0
      else if !c.parked && !x.here d then
        let tab := (x.copies.find d).getD (0, [])
        if tab.2.isEmpty then ack s 0x10
        else s.setSend id { c with version := tab.1, redir := true, target := tab.2.getD (c.token % tab.2.length) 0 }
      else match a.nextFree with
        | none => park s
        | some i =>
          let va := l.slotVa d e i
          match s.slotWrites c va { s.unitOf c.part d with grp := s.nextId } with
          | .hold t => park (s.ruledAs t)
          | .bad t cause pa => ack (t.logLost c.part cause va pa) cause
          | .ok t =>
            let l1 := (l.setArea d e (a.accept c i s.nextId l.slots)).updExpert e fun x =>
              { x with window := tab 8 fun k => x.window.getD k 0 + if k = d then 1 else 0 }
            let u : State := { t with nextId := t.nextId + 1 }
            ack (((u.setLayer l1).mirrorArea l1 d e).mirrorEntry l1 e) 0
/-- The row of a send is read (R262, R291): scratchpad of the sending block, or memory. -/
def State.readRow (s : State) (id : Nat) (c : Send) : State × Send :=
  match s.block c.blk, s.part c.part with
  | some b, some P =>
    let pad := P.inWindow c.rowLoc
    let who := s.opPlace c.grp c.seq
    (match Eng.all (fun i => s.engineByte b (s.reader c.grp c.blk id c.ord false) (if pad then 1 else 0)
        ((if pad then c.rowLoc - P.scr else c.rowLoc) + i)) c.nbytes with
      | .ok g =>
        let c1 : Send := { c with read := true, row := g.val.map (BitVec.ofNat 8), set := union c.set g.set }
        ((((s.engineMeets c.part who.1 who.2 g.seen).setSend id c1).spend engineFree), c1)
      | .error .wait => (s, c)
      | .error (.bad cause va pa set) =>
        let t := if cause == 0x07 then s.logPart c.part (lastingEntry who.1 who.2 va pa) else s
        let c1 : Send := { c with status := some cause, set := union c.set set }
        (t.setSend id c1, c1))
  | _, _ => (s, c)
/-- A send whose set holds more than four AIDs goes no further (R340). -/
def State.sendRoom (s : State) (id : Nat) (c : Send) (go : State) : State :=
  if 4 < c.set.length then s.overFour c.grp c.seq c.set c.rowLoc fun t => { t with sends := t.sends.del id } else go
/-- XSEND_ARRIVAL: the row, read when the send is sent, reaches its target die. -/
def execXsendArrival (send : Nat) (s : State) : Out :=
  .next (match s.sends.find send with
    | none => s
    | some c =>
      if c.status.isSome || !c.wait.isEmpty then s
      else
        let r := if c.read then (s, c) else s.readRow send c
        if r.2.status.isSome || !r.2.read then r.1 else r.1.sendRoom send r.2 (r.1.arriveAt send r.2))
/-- INBOUND_SLOT_FREE: an arrival that waited for a free slot takes one. -/
def execInboundSlotFree (send : Nat) (s : State) : Out :=
  .next (match s.sends.find send with
    | none => s
    | some c => if c.status.isSome || !c.read then s else s.sendRoom send c (s.arriveAt send c))
/-- A send's status is written (R251, R291); a send whose group no longer waits is forgotten. -/
def State.sendStatus (s : State) (id : Nat) (c : Send) (cause : Nat) (keep : Bool) : State :=
  let v := statusWord (s.now - c.issued) cause false (cause != 0)
  let gone (t : State) : State := { t with sends := if keep then t.sends.ins id { c with grp := nobody } else t.sends.del id }
  match s.focus c.grp with
  | none => gone s
  | some t =>
    match t.cg.out.find? fun f => f.waits == .send id with
    | none => gone s
    | some f => (gone (t.statusIn f id v c.rowLoc c.set)).commit
/-- XSEND_ACK. -/
def execXsendAck (send : Nat) (s : State) : Out :=
  .next (match s.sends.find send with
    | none => s
    | some c => match c.status with
      | none => s
      | some cause => s.sendStatus send c cause false)
/-- XSEND_TIMEOUT: no acknowledgement has come; the row, which is read before the status is written, may have been accepted, or
may still arrive (R291). -/
def execXsendTimeout (send : Nat) (s : State) : Out :=
  .next (match s.sends.find send with
    | none => s
    | some c =>
      let us := ((s.part c.part).map Part.timeout).getD 0
      if us = 0 || c.grp == nobody || s.now < c.issued + us * usec then s
      else if c.read then s.sendStatus send c 0x10 true
      else if c.status.isSome || !c.wait.isEmpty then s
      else
        let r := s.readRow send c
        if !r.2.read then r.1 else r.1.sendRoom send r.2 (r.1.sendStatus send r.2 0x10 true))

/-! ## XWAIT and XDONE (R292, R293, R297) -/

/-- Slots that hold a row not yet claimed, with their places in order of allocation. -/
def Area.unclaimed (a : Area) : List (Nat × Row) :=
  (a.slots.zipIdx).filterMap fun (r, i) => match r with
    | some r => if r.claim.isNone then some (i, r) else none
    | none => none
def earliest : List (Nat × Row) → Option (Nat × Row)
  | [] => none
  | x :: xs => match earliest xs with
    | some y => some (if y.2.order < x.2.order then y else x)
    | none => some x
/-- The requests of an area whose blocks have not been saved (R297, R381). -/
def State.activeWaiters (s : State) (a : Area) : List (Nat × Nat) :=
  a.waiters.filter fun w => match s.group w.1 with
    | some g => match s.block g.blk with
      | some b => !b.saved
      | none => false
    | none => false
def execXwait (sw poll : Bool) (x y : SReg) (s : State) : Out :=
  let key := (s.rdS y).toNat
  .next <| s.operands ((readS y false).plus (writeS x false)) <| s.gate <|
    match s.expertOf s.cpId key with
    | .error sub => s.trapNow 0x0D sub
    | .ok (l, e) =>
      let a := l.area s.cb.ldie e
      let hold := some (s.cg.snap [])
      if poll && a.unclaimed.length ≤ (s.activeWaiters a).length then (s.flyS [x.val] (.now 0xFFFF_FFFF) [] hold 0).finish sw
      else
        let t := s.flyS [x.val] (.xwait key poll) [] hold 0
        (t.setLayer (l.setArea s.cb.ldie e { a with waiters := a.waiters ++ [(s.cgId, s.cg.seq)] })).finish sw
/-- Requests of an area that go before a group's request. -/
def State.waitersBefore (s : State) (a : Area) (w : Nat × Nat) : Nat := ((s.activeWaiters a).takeWhile fun x => x != w).length
/-- The request at the head of its area's line is served; one with .poll for which no slot is left does not wait (R292). Once the
group has the slot, its bytes are visible to it (log entry 13). -/
def State.serveXwait (s : State) (f : Flight) (key : Nat) (poll : Bool) : State :=
  match s.expertOf s.cpId key with
  | .error _ => s
  | .ok (l, e) =>
    let d := s.cb.ldie
    let a := l.area d e
    let rest := a.waiters.filter fun w => w != (s.cgId, f.seq)
    if f.drop then
      match s.deliver f [] (fun _ => 0) [] 0 with
      | some t => t.setLayer (l.setArea d e { a with waiters := rest })
      | none => s
    else if s.cg.readsBefore f.seq then s
    else if poll && a.unclaimed.length ≤ s.waitersBefore a (s.cgId, f.seq) then
      match s.deliver f [] (fun _ => 0xFFFF_FFFF) [] 0 with
      | some t => t.setLayer (l.setArea d e { a with waiters := rest })
      | none => s
    else if (s.activeWaiters a).head? != some (s.cgId, f.seq) then s
    else match earliest a.unclaimed with
      | none => s
      | some (i, r) => match s.deliver f [] (fun _ => i) r.set (l.slotVa d e i) with
        | none => s
        | some t =>
          let row : Row := { r with claim := some (t.cbId, t.cg.aset) }
          let seen := match s.reach s.cpId (l.slotVa d e i + 0x14) 4 true false with
            | .ok loc => s.placeOf loc 4
            | .error _ => 0
          let u : State := { t with cb := { t.cb with claims := t.cb.claims ++ [(key, i)] },
                                    cg := { t.cg.acquire 4 seen with ops := t.cg.ops ++ [r.order] } }
          u.setLayer (l.setArea d e { a with waiters := rest, slots := a.slots.set i (some row) })
/-- The block has a COPY, an MXRUN or an XSEND that was issued before the word at which its group stands was first tried, and
that has not completed (R293). -/
def State.engineOut (s : State) : Bool :=
  let older (id : Nat) : Bool := s.cg.tried == 0 || id < s.cg.tried
  s.copies.any (fun (id, c) => older id && c.blk == s.cbId) ||
  s.sends.any (fun (id, c) => older id && c.blk == s.cbId && c.grp != nobody) ||
  s.clusters.any fun (_, k) => (k.table ++ k.pass.toList).any fun m => older m.first && m.run && m.blk == s.cbId
/-- A slot is released, and the window floor rises. -/
def Area.release (a : Area) (i : Nat) (wlo : Option Nat) : Area :=
  { a with slots := a.slots.set i none, wlo := match wlo with
    | some w => if (w + 2 ^ 32 - a.wlo) % 2 ^ 32 < 2 ^ 31 then w else a.wlo
    | none => a.wlo }
def execXdone (sw wlo : Bool) (x y z : SReg) (s : State) : Out :=
  let key := (s.rdS y).toNat
  let i := (s.rdS z).toNat
  let w := if wlo then some (s.rdS x).toNat else none
  .next <| s.operands (((readS y false).plus (readS z false)).plus (if wlo then readS x false else {})) <| s.syncGate <|
    if s.heldWrite || s.engineOut then s.parkAt .again
    else match s.expertOf s.cpId key with
      | .error sub => s.trapNow 0x0D sub
      | .ok (l, e) =>
        let d := s.cb.ldie
        let a := l.area d e
        match a.slots.getD i none with
        | none => s.trapNow 0x0D 0x23
        | some r =>
          if (r.claim.map Prod.fst) != some s.cbId || r.gone.isSome then s.trapNow 0x0D 0x23
          else
            let va := l.slotVa d e i + 0x14
            let set := s.cg.aset
            let done (t : State) : State :=
              let a1 := if set.isEmpty then a.release i w else { a with slots := a.slots.set i (some { r with gone := some (set, w) }) }
              let l1 := l.setArea d e a1
              let u : State := { t with cb := { t.cb with claims := if set.isEmpty then t.cb.claims.filter fun c => c != (key, i) else t.cb.claims } }
              (((u.setLayer l1).mirrorArea l1 d e).mirrorEntry l1 e).finish sw
            match s.mirrorWrite s.cpId va 4 (toBytes 4 (2 * b2n r.redir)) set (s.unitOf s.cpId d) with
            | .hold t => (s.ruledAs t).parkAt .again
            | .ok t => done t
            | .bad k cause pa => done (k.logPart s.cpId ⟨12, cause, 0, noAgent, va, pa, noPc, 0⟩)

/-! ## Placement (R283 to R286) -/

/-- REPLICA_TABLE_UPDATE: a table reaches a die's Prism. -/
def execReplicaTableUpdate (part layer expert die : Nat) (s : State) : Out :=
  .next (match s.layer part layer, s.part part with
    | some l, some P =>
      if P.dies.length ≤ die then s
      else s.setLayer (l.updExpert expert fun x => { x with copies := x.copies.ins die (x.version, x.list) })
    | _, _ => s)
/-- An XMERGE of the expert runs (R286). -/
def State.merging (s : State) (part layer expert : Nat) : Bool :=
  s.tasks.any fun (_, t) => t.part == part && t.state == .issued && match t.instr with
    | .xmerge _ l e _ => l.toNat == layer && e.toNat == expert
    | _ => false
/-- Start a fill (R283). -/
def Layer.startFill (l : Layer) (e d src len : Nat) (task : Option Nat) : Layer :=
  { l.updExpert e fun x => { x with state := x.state.set d .filling } with fills := l.fills ++ [(e, d, src, len, task)] }
/-- Arrivals a die accepted in the window, over all experts of the partition. -/
def State.windowOf (s : State) (part d : Nat) : Nat :=
  (s.layers.flatMap fun l => if l.part == part then l.experts.map fun x => x.window.getD d 0 else []).foldl (· + ·) 0
/-- The die with the fewest arrivals, the lowest at a tie. -/
def fewest (f : Nat → Nat) : List Nat → Option Nat
  | [] => none
  | d :: ds => match fewest f ds with
    | some e => some (if f e < f d then e else d)
    | none => some d
/-- Prism's choice for one expert at the end of a window (R286). -/
def State.choose (s : State) (P : Part) (l : Layer) (e : Nat) : Layer :=
  match l.experts[e]? with
  | none => l
  | some x =>
    let n := x.window.foldl (· + ·) 0
    let hi := bits P.pxctl.toNat 63 40
    let lo := bits P.pxctl.toNat 39 16
    if s.merging l.part l.num e then l
    else if hi < n && x.list.length < 8 then
      let free := (List.range P.dies.length).filter fun d => x.stateOf d == .absent && (s.die (P.physDie d)).state == .active && !s.dieSilent l.part d
      match fewest (s.windowOf l.part) free, x.list.head? with
      | some d, some p => l.startFill e d (l.weightVa p e) l.wstride none
      | _, _ => l
    else if n < lo then
      match (x.list.drop 1).reverse.find? fun d => x.stateOf d == .resident with
      | some d => l.updExpert e fun x => x.unlist d .evicting
      | none => l
    else l
/-- PRISM_WINDOW_END. -/
def execPrismWindowEnd (part : Nat) (s : State) : Out :=
  .next (match s.part part with
    | none => s
    | some P =>
      let win := bits P.pxctl.toNat 15 1 * usec
      if win = 0 || s.now < P.window + win then s
      else
        let on := P.pxctl.getLsbD 0 && bits P.pxctl.toNat 39 16 < bits P.pxctl.toNat 63 40
        let step (t : State) (l : Layer) : State :=
          if l.part != part then t
          else
            let l1 := if on then (List.range l.count).foldl (fun m e => s.choose P m e) l else l
            let l2 : Layer := { l1 with experts := l1.experts.map fun x =>
              { x with load := x.window.foldl (· + ·) 0, window := List.replicate 8 0 } }
            (List.range l.count).foldl (fun u e => u.mirrorEntry l2 e) (t.setLayer l2)
        (s.layers.foldl step s).updPart part fun P => { P with window := P.window + win })
/-- A new value of PXCTL: the current window ends without a decision and a new one begins (R285). -/
def State.setPxctl (s : State) (part : Nat) (v : Dword) : State :=
  let t := s.updPart part fun P => { P with pxctl := v, window := s.now }
  { t with layers := t.layers.map fun l => if l.part == part then
      { l with experts := l.experts.map fun x => { x with window := List.replicate 8 0 } } else l }
/-- PXCTL_WRITE: a value that has been decided (R393) is written. -/
def execPxctlWrite (part : Nat) (v : BitVec 64) (s : State) : Out :=
  .next (if (s.fw.pxctl.find? fun x => x.1 == part) == some (part, v) then
      ({ s with fw := { s.fw with pxctl := s.fw.pxctl.erase (part, v) } } : State).setPxctl part v
    else s)

/-- A state with what some accesses met, and none of their effects: what the walkers keep, the ECC words, the log. -/
def State.onlyMet (s k : State) : State := { s with ptes := k.ptes, ecc := k.ecc, corrected := k.corrected, parts := k.parts, cp := k.cp }
/-- What a run of accesses comes to: performed, failed with a cause at an address after some state, or held by a home. -/
inductive Run where | ok (s : State) | bad (s : State) (cause va : Nat) | hold (s : State)
/-- The Prism of a die copies bytes from one address to another, one by one, each under the set of what was read. -/
def State.fillBytes (s : State) (part ldie src dst : Nat) : Nat → Nat → Run
  | 0, _ => .ok s
  | n + 1, i =>
    match s.mirrorRead part (src + i) 1 with
    | (.error c, t) => .bad t c (src + i)
    | (.ok (bs, set), t) => match t.mirrorWrite part (dst + i) 1 bs set (s.unitOf part ldie) with
      | .ok u => u.fillBytes part ldie src dst n (i + 1)
      | .bad u c pa => .bad (u.logLost part c (dst + i) pa) c (dst + i)
      | .hold u => .hold u
/-- A task of Prism ends, with or without a fault: TASK_COMPLETE may follow. -/
def State.endWork (s : State) (task : Option Nat) (fault : Option (Nat × Nat)) : State :=
  match task with
  | none => s
  | some t => s.updTask t fun T => { T with met := true, cause := fault.map (·.1), daddr := (fault.map (·.2)).getD 0 }
/-- FILL_COMPLETE: a fill has been performed, or has failed (R283). -/
def execFillComplete (part layer expert die : Nat) (s : State) : Out :=
  .next (match s.layer part layer with
    | none => s
    | some l => match l.fills.find? fun f => f.1 == expert && f.2.1 == die with
      | none => s
      | some (_, _, src, len, task) =>
        let rest : Layer := { l with fills := l.fills.filter fun f => !(f.1 == expert && f.2.1 == die) }
        if s.merging part layer expert then s
        else match s.fillBytes part die src (l.weightVa die expert) len 0 with
          | .hold t => s.ruledAs t
          | .bad k _ a =>
            let m := rest.updExpert expert fun x => { x with state := x.state.set die .absent }
            ((s.onlyMet k).changed m expert).endWork task (some (0x0D, a))
          | .ok t => (t.changed (rest.updExpert expert fun x => x.join die) expert).endWork task none)
/-- EVICT_COMPLETE (R283). -/
def execEvictComplete (part layer expert die : Nat) (s : State) : Out :=
  .next (match s.layer part layer, s.part part with
    | some l, some P => match l.experts[expert]? with
      | none => s
      | some x =>
        let known := (List.range P.dies.length).all fun d => s.dieGone part d || ((x.copies.find d).map Prod.fst) == some x.version
        if x.stateOf die != .evicting || 0 < (l.area die expert).refs || !known || s.merging part layer expert then s
        else s.changed (l.updExpert expert fun x => { x with state := x.state.set die .absent }) expert
    | _, _ => s)

/-! ## Stream tasks (R294, R295) -/

/-- A layer has a valid or claimed slot, or a send in flight. -/
def State.layerBusy (s : State) (l : Layer) : Bool :=
  List.any l.areas (fun (_, a) => 0 < a.refs) || s.sends.any fun (_, c) => c.part == l.part && c.key % 256 == l.num && c.status.isNone
/-- The primary dies of the expert entries, read one by one; 8 stands for one whose RES bits are not zero (R279). -/
def State.readPrimaries (s : State) (part va : Nat) : Nat → Except Nat (List Nat) × State
  | 0 => (.ok [], s)
  | n + 1 =>
    match s.readPrimaries part va n with
    | (.error a, t) => (.error a, t)
    | (.ok xs, t) => match t.readAs part (va + 0x40 + 32 * n) 32 with
      | (.error _, u) => (.error (va + 0x40 + 32 * n), u)
      | (.ok bs, u) => (.ok (xs ++ [if bits (word4 bs 4) 27 24 != 0 then 8 else word4 bs 4 % 8]), u)
/-- An inbound or weight area of a layer lies in a window (R205, R419). -/
def Layer.inWindows (l : Layer) (P : Part) : Bool :=
  let n := P.dies.length * l.count
  P.refused l.inbase (n * (128 + l.slots * (l.rowb + 128))) || P.refused l.wbase (n * l.wstride)
/-- XDEF: its fault with SDADDR, or the layer defined. -/
def State.xdef (s : State) (part va num count : Nat) : Option (Nat × Nat) × State :=
  if va % 64 != 0 then (some (0x04, 0), s)
  else match s.readAs part va 64 with
    | (.error _, t) => (some (0x0D, va), t)
    | (.ok bs, t) =>
      let w := word4 bs
      let rowb := w 8
      let ok := w 0 == 0x45585001 && bits (w 4) 31 9 == 0 && 1 ≤ w 4 && w 4 ≤ 256 && rowb % 128 == 0 && 128 ≤ rowb &&
        rowb ≤ 16384 && w 0x0C % 128 == 0 && 128 ≤ w 0x0C && word8 bs 0x10 % 128 == 0 && word8 bs 0x18 % 128 == 0 &&
        (bs.drop 0x20).all (· == 0)
      if !ok then (some (0x0D, 0), t)
      else match t.readPrimaries part va count with
        | (.error a, u) => (some (0x0D, a), u)
        | (.ok ds, u) =>
          let dies := ((u.part part).map fun P => P.dies.length).getD 0
          let old := u.layer part num
          let busy := match old with
            | some l => u.layerBusy l
            | none => false
          if ds.any (fun d => dies ≤ d) || busy then (some (0x0D, 0), u)
          else
            let versionOf (e : Nat) : Nat := match old.bind fun l => l.experts[e]? with
              | some x => bump x.version
              | none => 1
            let expert (e d : Nat) : Expert :=
              { version := versionOf e, list := [d], state := tab 8 fun k => if k = d then .resident else .absent, load := 0,
                window := List.replicate 8 0, copies := tab dies fun k => (k, (versionOf e, [d])) }
            let l : Layer :=
              { part := part, num := num, va := va, slots := w 4, rowb := rowb, wstride := w 0x0C, inbase := word8 bs 0x10,
                wbase := word8 bs 0x18, experts := (ds.zipIdx).map (fun de => expert de.2 de.1),
                areas := (old.map fun o => o.renewed (w 4) count).getD [], fills := [] }
            if ((u.part part).map l.inWindows).getD true then (some (0x0D, 0), u)
            else
            let lost := match old with
              | some o => o.fills.foldl (fun (x : State) (f : Nat × Nat × Nat × Nat × Option Nat) => x.endWork f.2.2.2.2 (some (0x0D, f.2.2.1))) u
              | none => u
            let v := (List.range count).foldl (fun (x : State) e => x.mirrorEntry l e) (lost.setLayer l)
            (none, (List.range (dies * count)).foldl (fun (x : State) k => x.mirrorArea l (k / count) (k % count)) v)
/-- XFILL: its fault, or the fill begun. -/
def State.xfill (s : State) (task part src num e d len : Nat) : Option (Nat × Nat) × State :=
  match s.layer part num with
  | none => (some (0x0D, 0), s)
  | some l => match l.experts[e]? with
    | none => (some (0x20, 0), s)
    | some x =>
      if s.dieGone part d then (some (0x27, 0), s)
      else if x.stateOf d != .absent || x.list.length == 8 || len == 0 || l.wstride < len then (some (0x0D, 0), s)
      else
        let m := l.startFill e d src len (some task)
        (none, s.changed m e)
/-- XPIN. -/
def State.xpin (s : State) (part num e d : Nat) (off : Bool) : Option (Nat × Nat) × State :=
  match s.layer part num with
  | none => (some (0x0D, 0), s)
  | some l => match l.experts[e]? with
    | none => (some (0x20, 0), s)
    | some x =>
      if s.dieGone part d then (some (0x27, 0), s)
      else if x.stateOf d != (if off then .pinned else .resident) then (some (0x0D, 0), s)
      else (none, s.changed (l.updExpert e fun x => { x with state := x.state.set d (if off then .resident else .pinned) }) e)
/-- Read bytes one by one. -/
def State.mirrorReads (s : State) (part va : Nat) : Nat → Except Nat (List Byte × ASet) × State
  | 0 => (.ok ([], []), s)
  | n + 1 =>
    match s.mirrorReads part va n with
    | (.error a, t) => (.error a, t)
    | (.ok (xs, u), t) => match t.mirrorRead part (va + n) 1 with
      | (.error _, v) => (.error (va + n), v)
      | (.ok (bs, w), v) => (.ok (xs ++ bs, union u w), v)
/-- The sum of one element over replicas 1, 2, … in list order (R295). -/
def State.mergeSum (s : State) (part base len : Nat) : List Nat → Nat × ASet → Except Nat (Nat × ASet) × State
  | [], g => (.ok g, s)
  | r :: rs, (g, set) =>
    match s.mirrorReads part (base + r * len) 4 with
    | (.error a, t) => (.error a, t)
    | (.ok (bs, u), t) => t.mergeSum part base len rs
        (((Fmt.fpD .f32).add .rne ((Fmt.fpD .f32).decode g) ((Fmt.fpD .f32).decode (ofBytes bs))).1, union set u)
/-- XMERGE over the first elements, by the Prism of a die (R295). -/
def State.merge (s : State) (part ldie base len count : Nat) : Nat → Run
  | 0 => .ok s
  | j + 1 =>
    match s.merge part ldie base len count j with
    | .ok t =>
      (match t.mirrorReads part (base + 4 * j) 4 with
      | (.error a, u) => .bad u 0x0D a
      | (.ok (bs, set), u) => match u.mergeSum part (base + 4 * j) len ((List.range count).drop 1) (ofBytes bs, set) with
        | (.error a, v) => .bad v 0x0D a
        | (.ok (g, set), v) => (toBytes 4 g).zipIdx.foldl (fun (r : Run) bi => match r with
            | .ok w => match w.mirrorWrite part (base + 4 * j + bi.2) 1 [bi.1] set (w.unitOf part ldie) with
              | .ok x => .ok x
              | .bad x c pa => .bad (x.logLost part c (base + 4 * j + bi.2) pa) c (base + 4 * j + bi.2)
              | .hold x => .hold x
            | r => r) (.ok v))
    | r => r
/-- XMERGE: a failed access leaves no effect but its log entry (R294). -/
def State.mergeAll (s : State) (part ldie base len count n : Nat) : Run :=
  match s.merge part ldie base len count n with
  | .bad k c va => .bad (s.onlyMet k) c va
  | r => r

end Sys2Proof.Machine
end

