-- ==== Sys2Proof/Machine/Guess.lean ====
section
/-! DEFINITION. Assumptions: the words that mint and resolve them, and what an affirmation and a denial do (R330 to R352). -/

namespace Sys2Proof.Machine

/-! ## GUESS (R334) -/

/-- Slots of the package that a partition holds, live or as refusals (R330). -/
def State.heldSlots (s : State) (part : Nat) : Nat := (List.filter (fun (_, a) => a.part == part) s.aids).length
/-- The slot to mint: the one free longest (R330). -/
def State.nextSlot (s : State) : Option Nat := if s.unused < 4096 then some s.unused else s.freeSlots.head?
/-- The generation a slot's next minting gives it: from 15 back to 1 (R330). -/
def State.nextGen (s : State) (slot : Nat) : Nat := (s.gens.find slot).getD 0 % 15 + 1
def State.aidOf (s : State) (slot : Nat) : Nat := s.const.pkg * 2 ^ 16 + s.nextGen slot * 2 ^ 12 + slot
/-- Mint an identifier on a cell for the current group, whose set becomes its parents. -/
def State.mint (s : State) (slot pa va es pv : Nat) : State :=
  let id := s.aidOf slot
  let a : Aid := { part := s.cpId, grp := s.cgId, task := s.cb.task, die := coreDie s.ccId, cell := pa, cellVa := va, es := es,
                   pv := pv, parents := s.cg.aset, refusal := none }
  { s with aids := s.aids.ins id a, gens := s.gens.ins slot (s.nextGen slot),
           unused := if s.unused < 4096 then s.unused + 1 else s.unused,
           freeSlots := if s.unused < 4096 then s.freeSlots else s.freeSlots.drop 1,
           cg := s.cg.taint [id] (s.cg.snap []) }
/-- Earlier requests of the core to the cell's line (R232). -/
def State.lineBusy (s : State) (pa : Nat) : Bool :=
  s.reqs.any fun (_, q) => q.core == s.ccId && !q.status.over_ && sameLine q.loc (.dev pa) && match q.kind with
    | .watch _ _ => false
    | _ => true
/-- The home step of GUESS. -/
def State.guessAt (s : State) (sw : Bool) (x : SReg) (pa va pv es : Nat) : State :=
  let c := s.cellAt pa
  let value (t : State) (v : Nat) : State := (t.flyS (names x true) (.now v) [] none 0).finish sw
  if es ≤ c.2 then value s c.1
  else if s.aids.any fun (_, a) => a.part == s.cpId && a.refusal.isSome && a.cell == pa && a.es == es then s.parkAt (.refused va es x.val sw)
  else if 4 ≤ s.cg.aset.length || 2 ≤ s.cg.snaps.length then
    (if s.cb.hdr.astrict then s.trapNow 0x0E 3 else s.parkAt .assume)
  else if s.cp.aidq ≤ s.heldSlots s.cpId then s.parkAt .again
  else match s.nextSlot with
    | none => s.parkAt .again
    | some slot => value (s.mint slot pa va es pv) pv
def execGuess (sw : Bool) (x y z : SReg) (s : State) : Out :=
  let c := s.rdS64 y
  let pv := s.rdS64 z
  let es := s.rdS64 (z.val + 2)
  let lanes := laneMask s.cg.exLanes
  .next <| s.operands { sr := names y true ++ namesN z 4, sw := names x true } <|
    if c % 16 != 0 then s.trapWith 0x04 0 c lanes
    else match s.memCheck 16 true false false none c with
      | .miss p => s.syncGate (s.parkAt (.tlb [p]))
      | .fail cause => s.checkFail cause c s.cg.exLanes
      | .ok (.dev pa) => s.syncGate <|
        if s.cg.vlOut then s.parkAt .again
        else
          let t := s.drainLoc (.dev pa)
          match t.migOf (.dev pa) with
          | some m =>
            if !m.switched then t.parkAt .again
            else { t with cc := { t.cc with tlb := t.cc.tlb.filter fun l => !l.covers t.cpId c },
                          cg := { t.cg with walked := [], park := some .again } }
          | none =>
            if t.lineBusy pa then t.parkAt .again
            else
              let lost (u : State) : State :=
                ((u.putS x true (u.freeAt 30000)).finish sw).deferTrap u.cgId 0x07 0 c pa u.cg.ia.toNat u.cg.seq [] 2
              if !t.homeUp (.dev pa) then lost t
              else match t.eccRead t.cpId (t.groupAgent t.cg) t.cg.ia.toNat c pa 16 with
                | (false, u) => lost u
                | (true, u) => u.guessAt sw x pa c pv es
      | .ok _ => s.trapWith 0x06 0 c lanes

/-! ## AFFIRM, DENY and HOLD (R349, R350) -/

/-- Resolve the identifier in an s register; one that is not live has no effect. The word parks only for its own set: while a
read of the group is outstanding the message waits in the core (R336, R349). -/
def State.resolveWord (s : State) (sw : Bool) (x : SReg) (yes : Bool) : State :=
  let id := (s.rdS x).toNat % 2 ^ 24
  let live := match s.aids.find id with
    | some a => a.part == s.cpId && a.refusal.isNone
    | none => false
  let own := if live then s.descend [id] else []
  s.operands (readS x false) <|
    if !live then s.finish sw
    else if !subset s.cg.aset own then s.parkAt .again
    else if !s.cg.readsOut.isEmpty then (s.fly .none (.rule id yes) [] (some (s.cg.snap [])) 0).finish sw
    else (s.ruling id yes).finish sw
/-- A resolution that a read of its group held is sent, once the group's set holds nothing but the identifier and its
descendants (R336, R349). -/
def State.serveRule (s : State) (f : Flight) (id : Nat) (yes : Bool) : State :=
  if s.cg.readsBefore f.seq || !subset s.cg.aset (s.descend [id]) then s
  else match s.deliver f [] (fun _ => 0) [] 0 with
    | none => s
    | some t => if f.drop then t else t.ruling id yes
def execAffirm (sw : Bool) (x : SReg) (s : State) : Out := .next (s.resolveWord sw x true)
def execDeny (sw : Bool) (x : SReg) (s : State) : Out := .next (s.resolveWord sw x false)
def execHold (sw any : Bool) (s : State) : Out :=
  .next (if s.cg.aset.isEmpty then s.finish sw
    else if any then s.parkIssued (.holdAny s.cg.aset) sw
    else s.parkAt .again)

/-! ## What holds a set -/

def strip (ids : List Nat) (u : ASet) : ASet := u.filter fun a => !ids.contains a
/-- What waits in the core for room loses resolved identifiers. -/
def Waits.strip (w : Waits) (ids : List Nat) : Waits :=
  match w with
  | .owed op v addr set => .owed op v addr (Machine.strip ids set)
  | w => w
def Snap.strip (n : Snap) (ids : List Nat) : Snap := { n with aset := Machine.strip ids n.aset, guard := Machine.strip ids n.guard }
/-- Of a stack, newest first, the part down to the first entry without a set. -/
def settleStack {α : Type} (set : α → ASet) : List α → List α
  | [] => []
  | x :: xs => if (set x).isEmpty then [x] else x :: settleStack set xs

/-! ## Affirmation (R346) -/

/-- Snapshots whose guard is wholly affirmed are released (R335). -/
def Group.affirm (g : Group) (ids : List Nat) : Group :=
  Group.collect { g with aset := strip ids g.aset, snaps := (g.snaps.map fun n => n.strip ids).filter fun n => !n.guard.isEmpty,
                         out := g.out.map fun f => { f with hold := f.hold.map fun n => n.strip ids, waits := f.waits.strip ids } }
def Block.affirm (b : Block) (ids : List Nat) : Block :=
  { b with
    tags := List.filter (fun (_, u) => !u.isEmpty) (b.tags.mapAll fun _ u => strip ids u),
    undo := (b.undo.map fun u => { u with set := strip ids u.set, old := strip ids u.old,
                                          slot := u.slot.map fun x => (x.1, { x.2 with tag := strip ids x.2.tag }) }).filter
              fun u => !u.set.isEmpty,
    shapes := b.shapes.map fun h => { h with tag := strip ids h.tag },
    bar := { b.bar with uset := strip ids b.bar.uset },
    barLog := (b.barLog.map fun x => ({ x.1 with uset := strip ids x.1.uset }, x.2)).filter fun x => !x.1.uset.isEmpty,
    bank := settleStack Bank.tag (b.bank.map fun k => { k with tag := strip ids k.tag }),
    entries := b.entries.map fun e => { e with set := strip ids e.set } }
def Gang.affirm (g : Gang) (ids : List Nat) : Gang :=
  { g with uset := strip ids g.uset,
           log := (g.log.map fun x => (x.1, strip ids x.2.1, x.2.2)).filter fun x => !x.2.1.isEmpty }
def Cluster.affirm (c : Cluster) (ids : List Nat) : Cluster :=
  { c with banks := c.banks.mapAll fun _ l => settleStack Bank.tag (l.map fun k => { k with tag := strip ids k.tag }),
           table := c.table.map fun e => { e with set := strip ids e.set },
           pass := c.pass.map fun e => { e with set := strip ids e.set } }
def stripSpecs (ids : List Nat) (t : Tab (List Spec)) : Tab (List Spec) :=
  t.mapAll fun _ l => settleStack Spec.set (l.map fun x => { x with set := strip ids x.set })
def Capture.affirm (c : Capture) (ids : List Nat) : Capture :=
  { c with set := strip ids c.set, spec := (c.spec.map fun x => (x.1, strip ids x.2)).filter fun x => !x.2.isEmpty }
def MirrorReg.affirm (r : MirrorReg) (ids : List Nat) : MirrorReg :=
  { r with counter := stripSpecs ids r.counter, tags := stripSpecs ids r.tags,
           captures := (r.captures.map fun c => c.affirm ids).filter fun c => !(c.left.isEmpty && c.spec.isEmpty),
           deliver := r.deliver.map fun x => (x.1, x.2.1, strip ids x.2.2.1, x.2.2.2) }
/-- A release made under a set takes effect once the set is empty (log entry 24). -/
def Area.affirm (a : Area) (ids : List Nat) : Area :=
  let a1 : Area := { a with slots := a.slots.map fun r => r.map fun r =>
    { r with set := strip ids r.set, claim := r.claim.map fun x => (x.1, strip ids x.2),
             gone := r.gone.map fun x => (strip ids x.1, x.2) } }
  (a1.slots.zipIdx).foldl (fun a x => match x.1.bind Row.gone with
    | some ([], w) => a.release x.2 w
    | _ => a) a1
/-- The versions of a line that rest on nothing more commit, oldest first, each a write performed at the home. -/
def State.commitLine (s : State) (line : Nat) : Nat → State
  | 0 => s
  | n + 1 =>
    match s.versions line with
    | v :: rest =>
      if !v.set.isEmpty then s
      else
        let t : State := { s with mem := Cells.writes 0 s.mem (line * 128) v.bytes,
                                  wrote := (v.hist.zipIdx).foldl (fun w x => if x.1.isEmpty then w else w.ins (line * 128 + x.2) x.1) s.wrote,
                                  vers := if rest.isEmpty then s.vers.del line else s.vers.ins line rest,
                                  wclock := s.wclock + 1 }
        (t.committed line).commitLine line n
    | [] => s
/-- The claims of blocks whose slots a release has freed. -/
def State.dropClaims (s : State) : State :=
  let held (id : Nat) (b : Block) (c : Nat × Nat) : Bool := match s.expertOf b.part c.1 with
    | .ok (l, e) => (((l.area b.ldie e).slots.getD c.2 none).bind Row.claim).map Prod.fst == some id
    | .error _ => false
  { s with blocks := s.blocks.mapAll fun id b => { b with claims := b.claims.filter fun c => held id b c } }
/-- Counters that commit are reported (R273). -/
def State.reportCommits (s : State) (before : Tab MirrorReg) : State :=
  s.mirrors.foldl (fun t (k, r) => match before.find k with
    | none => t
    | some o => (List.range r.desc.nparts).foldl (fun t p =>
      match committedOf r.counter p with
      | some v => if committedOf o.counter p == some v then t else t.reportStep r p v
      | none => t) t) s
/-- The areas and entries whose window floor or reference count has changed are mirrored (R281, R287). -/
def State.mirrorChanges (s : State) (before : List Layer) : State :=
  s.layers.foldl (fun t l => match before.find? fun o => o.part == l.part && o.num == l.num with
    | none => t
    | some o => l.areas.foldl (fun t (k, a) =>
      let old := (o.areas.find k).getD (.fresh o.slots)
      if a.wlo == old.wlo && a.refs == old.refs then t
      else (t.mirrorArea l (k / l.count) (k % l.count)).mirrorEntry l (k % l.count)) t) s
/-- Take an affirmed identifier out of every place that holds it, commit what rests on nothing more, and free its slot. -/
def State.affirm (s : State) (a : Nat) : State :=
  let ids := [a]
  let t : State := { s with
    groups := s.groups.mapAll fun _ g => (g.affirm ids).settle (((s.blocks.find g.blk).map fun b => b.hdr.floor).getD 0),
    blocks := s.blocks.mapAll fun _ b => b.affirm ids,
    gangs := s.gangs.mapAll fun _ g => g.affirm ids,
    clusters := s.clusters.mapAll fun _ c => c.affirm ids,
    reqs := s.reqs.mapAll fun _ q => { q with set := strip ids q.set, rset := strip ids q.rset },
    copies := s.copies.mapAll fun _ c => { c with set := strip ids c.set },
    sends := s.sends.mapAll fun _ c => { c with set := strip ids c.set },
    mirrors := s.mirrors.mapAll fun _ r => r.affirm ids,
    layers := s.layers.map fun l => { l with areas := l.areas.mapAll fun _ x => x.affirm ids },
    vers := s.vers.mapAll fun _ vs => vs.map fun v => { v with set := strip ids v.set },
    aids := s.aids.mapAll fun _ x => { x with parents := strip ids x.parents },
    resol := s.resol.filter fun r => r.1 != a }
  let u := s.vers.foldl (fun u (line, _) => u.commitLine line 2) (t.freeSlot a)
  ((u.reportCommits s.mirrors).mirrorChanges s.layers).dropClaims
/-- A home performs its commits and discards for one line in the order in which they were decided (R351): no decision made
earlier concerns a line that these identifiers concern. -/
def State.inOrder (s : State) (aid : Nat) (ids : List Nat) : Bool :=
  let earlier := s.descend ((s.resol.takeWhile fun r => r.1 != aid).map Prod.fst)
  !s.vers.any fun (_, vs) => (vs.any fun v => meets v.set ids) && vs.any fun v => meets v.set earlier
/-- AID_AFFIRMATION: the first decision that reached the minting unit affirmed the identifier. -/
def execAidAffirmation (aid : Nat) (s : State) : Out :=
  .next (if s.resol.contains (aid, true) && (s.aids.find aid).isSome && s.inOrder aid [aid] then s.affirm aid else s)

/-! ## Denial (R347, R348) -/

/-- The earliest snapshot that holds an identifier of D, and those before it. -/
def restorePoint (d : List Nat) : List Snap → Option (Snap × List Snap)
  | [] => none
  | n :: ns => if meets n.guard d then some (n, []) else match restorePoint d ns with
    | some (m, keep) => some (m, n :: keep)
    | none => none
/-- Restore a group: the handler is abandoned (R371), it leaves its park, and what words at or after the restore point
still wait for is discarded as it arrives; what their withdrawn operations would have written never arrives. -/
def Group.restore (g : Group) (n : Snap) (keep : List Snap) : Group :=
  let late (f : Flight) : Bool := n.seq ≤ f.seq
  let comes (f : Flight) : Bool := match f.waits with
    | .load | .watch | .now _ => true
    | _ => false
  Group.collect { g with
    vmap := n.vmap, s := n.s, p := n.p, pcs := n.pcs, frm := n.frm, fflags := n.fflags, fmask := n.fmask, aset := n.aset, eord := n.eord, vis := n.vis, saw := n.saw, tried := 0,
    snaps := keep, park := none, mark := false, trap := none, handler := none, walked := [],
    pend := (g.trap.toList ++ g.pend).filter fun t => t.seq < n.seq,
    out := (g.out.filter fun f => !late f || comes f).map fun f => if late f then { f with drop := true, hold := none }
        else { f with spoiled := f.spoiled.filter fun x => x.2 < n.seq } }
/-- Whether a scratchpad undo entry is of a line, or of a shape slot. -/
def Undo.sameAs (u v : Undo) : Bool := u.line == v.line && u.slot.map Prod.fst == v.slot.map Prod.fst
/-- Put back what an undo entry holds; an LDSH that is still on its way to a slot keeps the slot waiting (R243). -/
def Block.putBack (b : Block) (u : Undo) : Block :=
  match u.slot with
  | some (k, h) => { b with shapes := b.shapes.modify k fun now => { h with loading := now.loading } }
  | none =>
    let b1 : Block := { b with tags := if u.old.isEmpty then b.tags.del u.line else b.tags.ins u.line u.old }
    (List.range 128).foldl (fun b i =>
      let a := u.line * 128 + i
      { b with pad := (match u.image.getD i none with
                 | some v => b.pad.ins a v
                 | none => b.pad.del a),
               padAt := (match u.at_.getD i none with
                 | some v => b.padAt.ins a v
                 | none => b.padAt.del a) }) b1
/-- Of a list of undo entries, oldest first: the entries to put back, and the entries that stay. -/
def splitUndo (d : List Nat) : List Undo → List Undo → List Undo × List Undo
  | _, [] => ([], [])
  | hit, u :: us =>
    if hit.any u.sameAs then splitUndo d hit us
    else if meets u.set d then
      let r := splitUndo d (u :: hit) us
      (u :: r.1, r.2)
    else
      let r := splitUndo d hit us
      (r.1, u :: r.2)
/-- Everything of a block that a denial puts back; `back` are the groups restored, which leave the lines of queues that no word
of theirs waits for any more. -/
def Block.deny (b : Block) (d back : List Nat) (asetOf : Nat → ASet) (inLine : Nat × Nat × Nat → Bool) : Block :=
  let r := splitUndo d [] b.undo
  let b1 := r.1.foldl (fun b u => b.putBack u) { b with undo := r.2 }
  let b2 : Block := match b1.barLog.findIdx? fun x => meets x.1.uset d with
    | some i => match b1.barLog[i]? with
      | some (old, _) => { b1 with bar := { old with arrived := [], uset := [], behind := [], vis := zeroOrd }, barLog := b1.barLog.take i }
      | none => b1
    | none =>
      let here := b1.bar.arrived.filter fun g => !back.contains g
      { b1 with bar := { b1.bar with arrived := here, uset := here.foldl (fun u g => union u (asetOf g)) [] } }
  { b2 with cbarIn := b2.cbarIn.filter (fun g => !back.contains g), queueAt := b2.queueAt.filter (fun e => !back.contains e.1 || inLine e),
            bank := b2.bank.filter fun k => !meets k.tag d }
def Gang.deny (g : Gang) (d : List Nat) (arrived : List Nat) (asetOf : Nat → ASet) : Gang :=
  match g.log.findIdx? fun x => meets x.2.1 d with
  | some i => match g.log[i]? with
    | some (gen, _, _) => { g with gen := gen, uset := [], vis := zeroOrd, log := g.log.take i }
    | none => g
  | none => { g with uset := arrived.foldl (fun u x => union u (asetOf x)) [] }
def MirrorReg.deny (r : MirrorReg) (d : List Nat) : MirrorReg :=
  let cut (t : Tab (List Spec)) : Tab (List Spec) := t.mapAll fun _ l => l.filter fun x => !meets x.set d
  let counter := cut r.counter
  { r with counter := counter, tags := cut r.tags,
           captures := (r.captures.filter fun c => !meets c.set d).map fun c =>
             { c with left := c.left ++ (c.spec.filter fun x => meets x.2 d).map (·.1), spec := c.spec.filter fun x => !meets x.2 d },
           deliver := r.deliver.filter fun x => !meets x.2.2.1 d,
           done := r.done.filter fun x => !((((r.counter.find x.1).getD []).any fun v => v.val == x.2) &&
             !(((counter.find x.1).getD []).any fun v => v.val == x.2)) }
/-- A slot's version is discarded, or a claim or a release of it undone (R297, log entry 24). -/
def Area.deny (a : Area) (d back : List Nat) (late : Nat → Nat → Bool) : Area :=
  let lost := a.slots.filterMap fun r => match r with
    | some r => if meets r.set d then some r.receipt else none
    | none => none
  { a with slots := a.slots.map fun r => r.bind fun r =>
             if meets r.set d then none
             else some { r with claim := r.claim.bind fun x => if meets x.2 d then none else some x,
                                gone := r.gone.bind fun x => if meets x.1 d then none else some x },
           receipts := a.receipts.filter fun x => !lost.contains x,
           waiters := a.waiters.filter fun w => !(back.contains w.1 && late w.1 w.2) }
/-- The set of the data on its way to a flight of a group (R336). -/
def State.pendingSet (s : State) (gid : Nat) (f : Flight) : ASet :=
  match f.waits with
  | .owed _ _ _ set => set
  | .copy id => ((s.copies.find id).map CopyOp.set).getD []
  | .send id => ((s.sends.find id).map Send.set).getD []
  | .pass => s.clusters.foldl (fun u (_, c) => (c.table ++ c.pass.toList).foldl (fun u e =>
      if e.grp == gid && e.seq == f.seq then union u e.set else u) u) []
  | _ => s.reqs.foldl (fun u (_, q) => if q.grp == gid && q.seq == f.seq then union u q.rset else u) []
/-- Where a group goes back to: its earliest snapshot that holds an identifier of D, or the word of a read whose data, on
their way, rest on one. The messages that carry them are dropped (R347; log entry 58). -/
def State.restoreOf (s : State) (d : List Nat) (gid : Nat) (g : Group) : Option (Snap × List Snap) :=
  let before (n : Snap) : Snap × List Snap := (n, g.snaps.filter fun m => m.seq < n.seq)
  let held := if meets g.aset d then (restorePoint d g.snaps).map Prod.fst else none
  let read := (g.out.find? fun f => !f.drop && f.hold.isSome && meets (s.pendingSet gid f) d).bind Flight.hold
  match held, read with
  | some n, some h => some (before (if n.seq ≤ h.seq then n else h))
  | some n, none | none, some n => some (before n)
  | none, none => none
/-- The groups that a denial restores, with their snapshots. -/
def State.toRestore (s : State) (d : List Nat) : List (Nat × Snap × List Snap) :=
  s.groups.filterMap fun (id, g) => if g.done then none else (s.restoreOf d id g).map fun r => (id, r.1, r.2)
/-- A granted pass of a group that a denial restores, or one that works under an identifier of D, must end first (R347). -/
def State.passBlocks (s : State) (d : List Nat) (back : List (Nat × Snap × List Snap)) : Bool :=
  s.clusters.any fun (_, c) => c.pass.toList.any fun e => meets e.set d || back.any fun r => r.1 == e.grp && r.2.1.seq ≤ e.seq
/-- The slots of D: held as refusals where their cells have not reached the expected sequence, else free (R348). -/
def State.endAids (s : State) (d : List Nat) (grids : List Nat) : State :=
  d.foldl (fun t id => match t.aids.find id with
    | none => t
    | some a =>
      let open_ := (union grids [a.task]).filter fun k => match t.tasks.find k with
        | some T => T.state != .complete
        | none => false
      if (t.cellAt a.cell).2 < a.es && !open_.isEmpty then
        { t with aids := t.aids.ins id { a with refusal := some open_, parents := [] } }
      else t.freeSlot id) s
/-- Groups parked at a barrier generation that a denial has undone issue their word again. -/
def State.unparkBars (s : State) : State :=
  { s with groups := s.groups.mapAll fun id g =>
    match g.park, s.blocks.find g.blk with
    | some (.barOff n), some b =>
      if b.bar.gen < n || (n == b.bar.gen && !b.bar.arrived.contains id) then { g with park := some .trap } else g
    | some (.cbarOff n), some b => match s.gangs.find b.gang with
      | some G => if G.gen < n || (n == G.gen && !b.cbarIn.contains id) then { g with park := some .trap } else g
      | none => g
    | some (.bar n), some b =>
      if b.bar.gen < n || (n == b.bar.gen && !b.bar.arrived.contains id) then { g with park := none } else g
    | some (.cbar n), some b => match s.gangs.find b.gang with
      | some G => if G.gen < n || (n == G.gen && !b.cbarIn.contains id) then { g with park := none } else g
      | none => g
    | _, _ => g }
/-- Everything a denial does (R347). -/
def State.deny (s : State) (a : Nat) : State :=
  let d := s.descend [a]
  let rs := s.toRestore d
  let back := rs.map (·.1)
  let late (g seq : Nat) : Bool := rs.any fun r => r.1 == g && r.2.1.seq ≤ seq
  let grids := (back.filterMap fun g => ((s.groups.find g).bind fun G => s.blocks.find G.blk).map Block.task).eraseDups
  let shapesOf (blk : Nat) : List Nat := (s.reqs.filterMap fun (_, q) => match q.kind with
    | .shape k => if q.blk == blk && late q.grp q.seq then some k else none
    | _ => none) ++ s.groups.flatMap fun (id, g) => g.out.filterMap fun f => match f.waits with
    | .evict k => if g.blk == blk && late id f.seq then some k else none
    | _ => none
  let t : State := { s with
    groups := s.groups.mapAll fun id g => match rs.find? fun r => r.1 == id with
      | some (_, n, keep) => (g.restore n keep).settle (((s.blocks.find g.blk).map fun b => b.hdr.floor).getD 0)
      | none => g,
    vers := List.filter (fun (_, vs) => !vs.isEmpty) (s.vers.mapAll fun _ vs => vs.takeWhile fun v => !meets v.set d),
    reqs := List.filter (fun (_, q) => !(late q.grp q.seq || meets q.set d)) s.reqs,
    copies := List.filter (fun (_, c) => !(late c.grp c.seq || meets c.set d)) s.copies,
    sends := List.filter (fun (_, c) => !(late c.grp c.seq || meets c.set d)) s.sends,
    clusters := s.clusters.mapAll fun _ c =>
      { c with banks := c.banks.mapAll fun _ l => l.filter fun k => !meets k.tag d,
               table := c.table.filter fun e => !(late e.grp e.seq || meets e.set d) },
    mirrors := s.mirrors.mapAll fun _ r => r.deny d,
    layers := s.layers.map fun l => { l with areas := l.areas.mapAll fun _ x => x.deny d back late },
    resol := s.resol.filter fun r => !d.contains r.1 }
  let asetOf (g : Nat) : ASet := ((t.groups.find g).map Group.aset).getD []
  let inLine (e : Nat × Nat × Nat) : Bool := match t.groups.find e.1 with
    | some G => G.out.any fun f => f.seq == e.2.2 && match f.waits with
      | .pop q | .push q _ => q == e.2.1
      | _ => false
    | none => false
  let u : State := { t with blocks := t.blocks.mapAll fun id b =>
    let b1 := b.deny d back asetOf inLine
    { b1 with shapes := (b1.shapes.zipIdx).map fun x => if (shapesOf id).contains x.2 then { x.1 with loading := false } else x.1,
              entries := b1.entries.filter fun e => !(late e.grp e.seq || meets e.set d) } }
  let undone := u.gangs.mapAll fun _ g =>
    g.deny d (g.members.flatMap fun m => ((u.blocks.find m).map Block.cbarIn).getD []) asetOf
  let reset (b : Block) : Block := match s.gangs.find b.gang, undone.find b.gang with
    | some o, some n => if n.gen < o.gen then { b with cbarIn := [], passedCbar := b.passedCbar && n.gen != 0 } else b
    | _, _ => b
  let v : State := { u with gangs := undone, blocks := u.blocks.mapAll fun _ b => reset b }
  (((v.endAids d grids).unparkBars).mirrorChanges s.layers).dropClaims
/-- AID_DENIAL: the first decision that reached the minting unit denied the identifier; the groups it restores have no
granted pass running. -/
def execAidDenial (aid : Nat) (s : State) : Out :=
  .next (if s.resol.contains (aid, false) && (s.aids.find aid).isSome && s.inOrder aid (s.descend [aid]) &&
      !s.passBlocks (s.descend [aid]) (s.toRestore (s.descend [aid])) then s.deny aid else s)

/-- LOAD_RETURN: the value of a word's variable-latency result arrives, or an effect that waited in the core for the group's
reads is made; of an LDSH, its slot is written. -/
def execLoadReturn (group seq : Nat) (s : State) : Out :=
  .next (s.onGroup group fun t =>
    match t.shapeReq group seq with
    | some (id, q, k) => if q.status == .done then t.arriveShape id q k else t
    | none => match t.cg.out.find? fun f => f.seq == seq with
      | some f => (match f.waits with
        | .pop q => t.servePop f q
        | .xwait key poll => t.serveXwait f key poll
        | .push q v => t.servePush f q v
        | .init q w => t.serveInit f q w
        | .evict k => t.serveEvict f k
        | .rule aid yes => t.serveRule f aid yes
        | .owed op v addr set => t.statusIn f op v addr set
        | _ => t.arrive seq)
      | none => t)

end Sys2Proof.Machine
end

