-- ==== Sys2Proof/Machine/Handler.lean ====
section
/-! DEFINITION. The end of a group, and the trap handler: EXIT (R164 to R166), TRAP_ENTRY (R364 to R370), TRET, TEND, TREG
and ERRLD (R372 to R377). -/

namespace Sys2Proof.Machine

/-! ## The end of a group -/

/-- The group in focus ends: it leaves its block's lines, and the last group of a clustered block that has passed no CBAR
leaves it gone, with a log entry (R164, R305). -/
def State.leave (s : State) (failed : Bool) : State :=
  let agent := s.groupAgent s.cg
  let t := (s.endGroup failed).unheld s.cgId
  let u : State := { t with cb := { t.cb with queueAt := t.cb.queueAt.filter fun e => e.1 != t.cgId } }
  if u.cb.hdr.cluster == 0 || u.cb.passedCbar || !(u.liveGroups u.cb).isEmpty then u
  else
    let v : State := { u with gangs := u.gangs.upd u.cb.gang fun g => { g with gone := union g.gone [u.cbId] } }
    v.logPart v.cpId ⟨3, 0, 0, agent, 0, 0, noPc, 0⟩
/-- What EXIT waits for before any lane exits: the group's set, and a write that its home holds for want of a version (R164,
R338). -/
def State.exitWaits (s : State) : Bool := !s.cg.aset.isEmpty || s.heldWrite
/-- An effect of the group waits in the core for its reads or its turn (R336). -/
def Group.effectsOut (g : Group) : Bool := g.out.any fun f => match f.waits with
  | .push _ _ | .init _ _ | .evict _ | .rule _ _ => true
  | _ => false
/-- What a group whose lanes have exited waits for: a variable-latency write, an effect that waits in the core, or the answer of
a RED form, which may taint it still (R97, R164, R336; log entry 26). -/
def State.exitBusy (s : State) : Bool :=
  s.cg.vlOut || s.cg.effectsOut || s.reqs.any fun (_, q) => q.grp == s.cgId && match q.kind with
    | .atomic _ _ _ => true
    | _ => false
/-- Every lane has exited: the group ends, once nothing of it is outstanding (R164). -/
def State.allExited (s : State) (failed : Bool) : State :=
  if s.exitBusy then
    let gone := tab s.cg.width fun _ => none
    { s with cg := { s.cg with pcs := gone, handler := s.cg.handler.map fun h => { h with pcs := gone }, park := some (.exiting failed) } }
  else s.leave failed
/-- TEND, and EXIT in the handler (R372). -/
def State.tend (s : State) (fail : Bool) : State :=
  if s.exitWaits then s.parkAt .again
  else
    let t := match fail, s.cg.handler with
      | true, some h => s.logPart s.cpId ⟨8, h.tcause.toNat % 256, bits h.tcause.toNat 15 8, s.groupAgent s.cg, h.taddr.toNat, 0,
          ((leastPc s.cg.pcs).map BitVec.toNat).getD noPc, 0⟩
      | _, _ => s
    t.allExited fail

/-- EXIT (R164 to R166). -/
def execExit (sw : Bool) (s : State) : Out :=
  let g := s.cg
  .next (if g.inH then s.tend false
    else if s.exitWaits then s.parkAt .again
    else if g.liveLanes.all g.ex then s.allExited false
    else ({ s with cg := g.setPcs (tab g.width fun l => if g.ex l then none else g.pcs.getD l none) } : State).issued sw)

/-! ## Entering the handler (R366 to R370) -/

/-- Read code bytes with the checks of R123; none where a check or the read fails. -/
def State.codeRead (s : State) (va n : Nat) : Option (List Byte) × State :=
  if va / 2 ^ 57 != 0 || s.cp.refused va n then (none, s)
  else match s.leafFor va with
    | .leaf l =>
      (match s.movedLoc (l.loc s.cp.link va) with
      | .dev pa =>
        if !l.r || l.host || !s.homeUp (.dev pa) then (none, s)
        else match s.eccRead s.cpId (s.groupAgent s.cg) noPc va pa n with
          | (true, t) => (some (t.devBytes pa n), (t.walkKept va).keepLeaf l)
          | (false, t) => (none, t.logPart t.cpId (lastingEntry (t.groupAgent t.cg) noPc va pa))
      | _ => (none, s))
    | _ => (none, s)
/-- A group that was saved while it ran in the handler and waits to go on there (R381). -/
def Group.offStage (g : Group) : Bool := g.inH && match g.park with
  | some .trap => g.trap.isNone
  | some (.barOff _) | some (.cbarOff _) => true
  | _ => false
/-- Another group of the core is in the handler, or has waited for it longer (R368). -/
def State.handlerBusy (s : State) : Bool :=
  s.groups.any fun (id, g) => id != s.cgId && !g.done && match s.blocks.find g.blk with
    | some b => b.core == s.ccId && !b.saved && ((g.inH && !g.offStage) ||
        (((g.trap.isSome && !g.vlOut) || g.offStage) && (g.trapAt < s.cg.trapAt || (g.trapAt == s.cg.trapAt && id < s.cgId))))
    | none => false
/-- End the group as failed on a trap, once its set is empty. -/
def State.failTrap (s : State) (kind va : Nat) (t : Trap) : State :=
  if s.exitWaits || s.exitBusy then s
  else (s.logPart s.cpId ⟨kind, t.cause, t.sub, s.groupAgent s.cg, va, 0, t.pc, 0⟩).leave true
/-- TRAP_ENTRY. -/
def execTrapEntry (group : Nat) (s : State) : Out :=
  .next (s.onGroup group fun u => match u.cg.park, u.cg.trap with
    | some .trap, some t =>
      if u.cg.vlOut then u
      else if u.cg.inH then u.failTrap 9 t.addr t
      else if !u.cp.thandler.getLsbD 0 then u.failTrap 8 t.addr t
      else if u.handlerBusy then u
      else
        let base := bits u.cp.thandler.toNat 56 6 * 64
        match u.codeRead base 16 with
        | (none, v) => if u.exitWaits || u.exitBusy then u else v.failTrap 8 base t
        | (some bs, v) => match handlerHeader bs with
          | none => if u.exitWaits || u.exitBusy then u else v.failTrap 8 base t
          | some (size, entry) => v.enterHandler t base size entry
    | some (.barOff n), _ => if u.handlerBusy then u else { u with cg := { u.cg with park := some (.bar n) } }
    | some (.cbarOff n), _ => if u.handlerBusy then u else { u with cg := { u.cg with park := some (.cbar n) } }
    | some .trap, none => if u.handlerBusy then u else { u with cg := { u.cg with park := none } }
    | _, _ => u)

/-! ## The handler's words -/

/-- TRET (R372). -/
def execTret (sw : Bool) (s : State) : Out := .next (({ s with cg := s.cg.leaveHandler } : State).issued sw)
/-- TEND (R372). -/
def execTend (_sw fail : Bool) (s : State) : Out := .next (s.tend fail)

/-- The group as it stands beneath its handler. -/
def State.beneath (s : State) : State := { s with cg := s.cg.leaveHandler }
/-- Lanes of the trapped state that are live. -/
def Group.trappedLive (g : Group) (l : Nat) : Bool := (g.pcs.getD l none).isSome
def Group.trappedPc (g : Group) (l : Nat) : Word := (g.pcs.getD l none).getD 0xFFFF_FFFF
/-- TREG (R373, R374). -/
def execTreg (sw : Bool) (x : SReg) (op : TregOp) (s : State) : Out :=
  let g := s.cg
  let all (_ : Nat) : Bool := true
  .next <| match op with
  | .s y false => s.operands (writeS x false) ((s.wrS x (g.s[y.val]?.getD 0)).finish sw)
  | .s y true => s.operands (readS x false) (({ s with cg := { g with s := g.s.setIfInBounds y (s.rdS x) } } : State).finish sw)
  | .v y false => s.operands (writeV x false) ((s.wrV x all fun l => s.beneath.rdV y l).finish sw)
  | .v y true => s.operands (readV x false) (
      match s.beneath.verdict false [] [y.val] with
      | .trap => s.trapNow 0x03 0
      | .park p => s.parkAt p
      | .ok =>
        let t := s.beneath.wrV y g.trappedLive fun l => s.rdV x l
        ({ t with cg := { t.cg with handler := g.handler } } : State).finish sw)
  | .p y false => s.operands (writeS x true)
      ((s.wrS64 x (laneMask ((List.range g.width).filter fun l => s.rdP y l))).finish sw)
  | .p y true => s.operands (readS x true)
      (({ s with cg := g.wrP y (fun l => l < g.width) fun l => bit (s.rdS64 x) l } : State).finish sw)
  | .lpc false => s.operands (writeV x false) ((s.wrV x all fun l => g.trappedPc l).finish sw)
  | .lpc true => s.operands (readV x false)
      (({ s with cg := { g with pcs := tab g.width fun l => if g.trappedLive l then some (s.rdV x l) else none } } : State).finish sw)

/-- The eight words of a log entry (R376). -/
def LogEntry.words (e : LogEntry) : List Nat :=
  [2 ^ 16 * e.sub + 2 ^ 8 * e.cause + e.kind, e.agent, e.vaddr, e.vaddr / 2 ^ 32, e.paddr, e.paddr / 2 ^ 32, e.pc, e.seq]
/-- ERRLD (R377). -/
def execErrld (sw : Bool) (f : ErrForm) (x : SReg) (s : State) : Out :=
  let first := (s.cp.log.head?).getD zeroLog
  let e := match f with
    | .own => ((s.cg.handler).map Handler.own).getD zeroLog
    | _ => first
  .next (s.operands { sw := namesN x 8 } (
    if f == .pop && !s.cg.aset.isEmpty then s.parkAt .again
    else
      let t : State := if f == .pop then { s with cp := { s.cp with log := s.cp.log.drop 1 } } else s
      ((e.words.zipIdx).foldl (fun u wi => u.wrS (x.val + wi.2) (BitVec.ofNat 32 wi.1)) t).finish sw))

/-! ## The ends of parks (R8) -/

/-- PARK_RESUME: a parked group's condition is evaluated again; a word that had no effect issues again. -/
def execParkResume (group : Nat) (s : State) : Out :=
  .next (s.onGroup group fun t =>
    let free : State := { t with cg := { t.cg with park := none } }
    match t.cg.park with
    | some .again | some .assume => free
    | some .pool => if t.cg.granule ≤ t.pool t.cb.core then free else t
    | some (.performed seq) =>
      if (t.wordReqs group seq).all fun (_, q) => q.status.over_ then free else t
    | some (.bar g) =>
      if t.cb.bar.gen == g then t
      else
        let old := t.cb.barLog.find? fun e => e.1.gen == g
        let set := (old.map fun e => e.1.uset).getD []
        let vis := (old.map fun e => e.1.vis).getD zeroOrd
        { t with cg := t.cg.passBarrier set vis t.cb.hdr.astrict t.now t.codeBase }
    | some (.cbar g) =>
      (match t.gangs.find t.cb.gang with
        | none => t
        | some G =>
          if G.gen == g then t
          else
            let old := G.log.find? fun e => e.1 == g
            let set := (old.map fun e => e.2.1).getD []
            let vis := (old.map fun e => e.2.2.2).getD zeroOrd
            { t with cg := t.cg.passBarrier set vis t.cb.hdr.astrict t.now t.codeBase })
    | some (.holdAny set) => if subset set t.cg.aset then t else free.finishParked t.cg.mark
    | some (.refused va es x sw) =>
      (match t.reach t.cpId va 16 true false with
        | .ok (.dev pa) =>
          let c := t.cellAt pa
          if es ≤ c.2 then (free.flyS [x, x + 1] (.now c.1) [] none 0).finishParked sw else t
        | _ => t)
    | some (.exiting failed) => if t.exitWaits || t.exitBusy then t else t.leave failed
    | some (.stale _ grid step part _ cells) =>
      (match t.staleLanes grid step part cells with
        | some (_, _ :: _) => t
        | _ => free)
    | _ => t)

end Sys2Proof.Machine
end

