-- ==== Sys2Proof/Machine/Place.lean ====
section
/-! DEFINITION. Placing work on cores: the code object header, dealing, placement, stealing, gangs, energy (R103 to R121),
rescue (R141), and the retirement of blocks (R387). -/

namespace Sys2Proof.Machine

/-! ## The header (R104, R105) -/

/-- The rescue need and the register need of a block (R108). -/
def Hdr.w (h : Hdr) : Nat := h.width / 16
def Hdr.rescueNeed (h : Hdr) : Nat := (h.cap - h.floor) * h.w
def Hdr.need (h : Hdr) : Nat := h.groups * h.floor * h.w
/-- The header's fields, when every one lies within its limit (R104, R105). -/
def Hdr.parse (base : Nat) (bs : List Byte) : Option Hdr :=
  let w := word4 bs
  let f := w 0x0C
  let r := w 0x10
  let h : Hdr :=
    { base := base, size := w 4, entry := w 8, width := 16 * 2 ^ bits f 1 0, groups := bits r 7 0, stages := bits r 15 8,
      floor := bits r 23 16, cap := bits r 31 24, scratch := w 0x14, shapes := bits (w 0x18) 7 0, copies := bits (w 0x18) 15 8,
      energy := bits f 6 5, cluster := bits f 4 2, regtrap := bit f 8, astrict := bit f 9, detok := bit f 10 }
  if (handlerHeader bs).isSome && bits f 31 11 == 0 && !bit f 7 && [0, 2, 3, 4].contains h.cluster && bits f 1 0 != 3 &&
    1 ≤ h.floor && h.floor ≤ h.cap && h.cap ≤ 64 && 1 ≤ h.groups && h.groups ≤ 16 && 1 ≤ h.stages && h.stages ≤ 16 &&
    h.groups % h.stages == 0 && h.scratch ≤ 524288 && bits (w 0x18) 31 16 == 0 && h.copies ≤ 32 && h.shapes ≤ 32 &&
    (bs.drop 0x1C).all (· == 0) && h.need + h.rescueNeed ≤ 4096 then some h else none

/-! ## Cores and rooms (R107, R108, R110, R116) -/

/-- The enabled cores that a partition holds on a physical die, by physical number. -/
def State.partCores (s : State) (part pd : Nat) : List Nat :=
  ((enabledCores (s.die pd).enabled).map fun p => pd * 64 + p).filter fun c => (s.core c).part == some part
/-- What a core has in use: block places, group places, scratchpad, shape slots, copy slots, granules free, and the largest
rescue need. -/
structure Room where
  blocks : Nat
  groups : Nat
  pad    : Nat
  shapes : Nat
  copies : Nat
  free   : Nat
  rescue : Nat
  deriving DecidableEq, Repr
def Room.idle : Room := ⟨0, 0, 0, 0, 0, 4096, 0⟩
def Room.take (r : Room) (h : Hdr) : Room :=
  ⟨r.blocks + 1, r.groups + h.groups, r.pad + h.alloc, r.shapes + h.shapes, r.copies + h.copies, r.free - h.need,
   Nat.max r.rescue h.rescueNeed⟩
/-- A retired member of a gang that has not wholly retired keeps its scratchpad (R207). -/
def State.keepsPad (s : State) (b : Block) : Bool :=
  b.retired && b.hdr.cluster != 0 && match s.gangs.find b.gang with
    | some g => g.members.any fun m => match s.block m with
      | some x => !x.retired
      | none => false
    | none => false
def State.room (s : State) (core : Nat) : Room :=
  let bs := (s.resident core).map (·.2)
  let kept := List.filter (fun (_, b) => b.core == core && !b.saved && s.keepsPad b) s.blocks
  let sum (f : Hdr → Nat) : Nat := (bs.map fun b => f b.hdr).foldl (· + ·) 0
  ⟨bs.length, sum Hdr.groups, sum Hdr.alloc + (kept.map fun (_, b) => b.hdr.alloc).foldl (· + ·) 0, sum Hdr.shapes, sum Hdr.copies,
   s.freeGranules core, s.reserve core⟩
def Room.fits (r : Room) (h : Hdr) : Bool :=
  r.blocks < 16 && r.groups + h.groups ≤ 32 && r.pad + h.alloc ≤ 524288 && r.shapes + h.shapes ≤ 32 &&
  r.copies + h.copies ≤ 32 && h.need ≤ r.free && Nat.max r.rescue h.rescueNeed ≤ r.free - h.need
/-- A core takes blocks of a grid (R116). -/
def State.accepts (s : State) (part core prio : Nat) (gang : Bool) : Bool :=
  let c := s.core core
  c.leaving.isNone && (if c.reserved then gang || (((s.part part).map Part.reslvl).getD 0) ≤ prio else !gang) &&
  (s.die (coreDie core)).state == .active && !(s.die (coreDie core)).leaving && !(s.die (coreDie core)).lost
/-- Of cores, the one holding the fewest blocks, the lowest at a tie. -/
def fewestBlocks (room : Nat → Room) : List Nat → Option Nat
  | [] => none
  | c :: cs => match fewestBlocks room cs with
    | some d => some (if (room d).blocks < (room c).blocks then d else c)
    | none => some c
/-- The clusters of a die that hold at least n of some cores, with those cores. -/
def clustersOf (cores : List Nat) (n : Nat) : List (Nat × List Nat) :=
  (List.range 10).filterMap fun k =>
    let cs := cores.filter fun c => corePhys c / 4 == k
    if n ≤ cs.length then some (k, cs) else none
/-- The gang capacity of a logical die (R109). -/
def State.gangCap (s : State) (part pd n : Nat) : Nat := (clustersOf (s.partCores part pd) n).length
/-- Of clusters, the one whose cores hold the fewest blocks. -/
def fewestCluster (held : Nat → Nat) : List (Nat × List Nat) → Option (Nat × List Nat)
  | [] => none
  | k :: ks => match fewestCluster held ks with
    | some j => some (if held j.1 < held k.1 then j else k)
    | none => some k
/-- The cores for the next unit of a grid on a physical die, among those that take it, given the rooms (R110). -/
def State.coresAmong (s : State) (takes : Nat → Bool) (room : Nat → Room) (part pd : Nat) (h : Hdr) : Option (List Nat) :=
  let ok := (s.partCores part pd).filter fun c => takes c && (room c).fits h
  if h.cluster == 0 then (fewestBlocks room ok).map fun c => [c]
  else
    let held (k : Nat) : Nat := sumTo 4 fun i => (room (pd * 64 + 4 * k + i)).blocks
    (fewestCluster held (clustersOf ok h.cluster)).map fun k => k.2.take h.cluster
/-- The cores for a unit among those that accept the grid (R116). -/
def State.chooseCores (s : State) (room : Nat → Room) (part pd prio : Nat) (gang : Bool) (h : Hdr) : Option (List Nat) :=
  s.coresAmong (fun c => s.accepts part c prio gang) room part pd h

/-! ## Dealing (R109) -/

def Grid.blocks (g : Grid) : Nat := g.gdx * g.gdy * g.gdz
def Hdr.gang (h : Hdr) : Nat := Nat.max 1 h.cluster
/-- The granules of a grid, dealt over the dies. -/
def deal (units dies gang : Nat) (cap : Nat → Nat) : List Granule :=
  let size := min (8 / gang) (Nat.max 1 (units / dies))
  let round := (List.range dies).flatMap fun d => List.replicate (cap d) d
  tab (ceilDiv units size) fun g =>
    { next := g * size, left := min size (units - g * size), die := round.getD (g % round.length) 0, begun := false, away := false }

/-! ## Starting blocks (R106, R107, R133, R154) -/

/-- Free group places of a core. DESIGN CHOICE (log entry 59): when the place of a group that has ended is free again is open (R164
and R142 speak of its EXIT, R107 and R387 of its block's retirement); its registers and their floor go back at its end, its place
when its block retires. -/
def State.freePlaces (s : State) (core : Nat) : List Nat :=
  let used := s.groups.filterMap fun (_, g) => match s.blocks.find g.blk with
    | some b => if b.core == core && !b.saved && !b.retired then some g.place else none
    | none => none
  (List.range 32).filter fun p => !used.contains p
/-- A group as it starts: nothing is ordered before its engine reads but what R327 and R329 order (log entry 13). -/
def Group.start (part blk num place : Nat) (h : Hdr) : Group :=
  { Group.empty with part := part, blk := blk, num := num, place := place, width := h.width,
                     pcs := List.replicate h.width (some (BitVec.ofNat 32 h.entry)), done := false }
/-- A block as it starts on a core, with the identifiers of its groups. -/
def Block.start (t : Task) (g : Grid) (task index member gang ldie core args order : Nat) (groups : List Nat) : Block :=
  { Block.empty with
    part := t.part, task := task, index := index, member := member, gang := gang, ldie := ldie, core := core, prio := t.prio,
    det := g.det, gdx := g.gdx, gdy := g.gdy, gdz := g.gdz, args := args, hdr := g.hdr, groups := groups,
    shapes := List.replicate g.hdr.shapes ⟨none, [], false⟩, launched := g.launched, placed := order, retired := false }
/-- Start one block. -/
def State.startBlock (s : State) (task : Nat) (t : Task) (g : Grid) (index member gang ldie core : Nat) : State :=
  let id := s.nextId
  let places := s.freePlaces core
  let gids := tab g.hdr.groups fun i => id + 1 + i
  let args := ((s.part t.part).map Part.frames).getD 0 + 256 * t.place
  let gs := (List.range g.hdr.groups).foldl (fun m i => Tab.ins (id + 1 + i)
    (Group.start t.part id i (places.getD i 0) g.hdr) m) s.groups
  let b : Block := { Block.start t g task index member gang ldie core args id gids with old := (s.core core).left, seed := s.free }
  { s with blocks := s.blocks.ins id b, groups := gs, nextId := id + 1 + g.hdr.groups, free := s.free + 524288 }
/-- Start a unit: a block, or a gang on the cores given. -/
def State.startUnit (s : State) (task : Nat) (t : Task) (g : Grid) (unit ldie : Nat) (cores : List Nat) : State :=
  if g.hdr.cluster == 0 then s.startBlock task t g unit 0 0 ldie (cores.getD 0 0)
  else
    let gid := s.nextId
    let s1 : State := { s with nextId := gid + 1 }
    let r := (cores.zipIdx).foldl (fun (acc : State × List Nat) cm =>
      (acc.1.startBlock task t g (unit * g.hdr.cluster + cm.2) cm.2 gid ldie cm.1, acc.2 ++ [acc.1.nextId])) (s1, [])
    { r.1 with gangs := r.1.gangs.ins gid ⟨task, r.2, 0, [], zeroOrd, [], []⟩ }

/-! ## Placement (R113, R117 to R119) -/

/-- A unit that may be placed: its task, its grid, and the cores. -/
structure Candidate where
  task  : Nat
  t     : Task
  grid  : Grid
  gi    : Nat                      -- which granule
  unit  : Nat
  cores : List Nat
  deriving DecidableEq, Repr
/-- The next unit of a grid on a logical die: the granule's place in the list, and the unit. -/
def Grid.nextUnit (g : Grid) (d : Nat) : Option (Nat × Nat) :=
  match (g.gran.zipIdx).find? fun x => x.1.die == d && 0 < x.1.left && !x.1.away with
  | some (x, i) => if g.det && x.next != g.claim then none else some (i, x.next)
  | none => none
/-- The physical die behind a logical die. -/
def State.physOf (s : State) (part d : Nat) : Nat := ((s.part part).map fun P => P.physDie d).getD 0
/-- The candidate of a task on a die, if its next unit fits. -/
def State.candidate (s : State) (part d task : Nat) (t : Task) : Option Candidate :=
  match t.grid with
  | none => none
  | some g =>
    if t.part != part || t.state != .issued || g.gangL || g.lost then none
    else match g.nextUnit d with
      | none => none
      | some (i, u) => (s.chooseCores s.room part (s.physOf part d) t.prio false g.hdr).map fun cs => ⟨task, t, g, i, u, cs⟩
/-- Put candidates in order: higher priority, then earlier issue. -/
def insertCand (c : Candidate) : List Candidate → List Candidate
  | [] => [c]
  | x :: xs => if x.t.prio < c.t.prio || (x.t.prio == c.t.prio && c.grid.order < x.grid.order) then c :: x :: xs else x :: insertCand c xs
/-- The candidates of a die: those of the highest priority that has any. -/
def State.candidates (s : State) (part d : Nat) : List Candidate :=
  let all := (s.tasks.filterMap fun (id, t) => s.candidate part d id t).foldl (fun l c => insertCand c l) []
  match all.head? with
  | some c => all.filter fun x => x.t.prio == c.t.prio
  | none => []
/-- Charges of the last microsecond (R118). -/
def Die.recent (d : Die) (now : Nat) : Nat := ((d.spent.filter fun x => now < x.1 + usec).map (·.2)).foldl (· + ·) 0
/-- The die has charged something in the last microsecond: any dispatch counts, one of charge 0 too (log entry 46). -/
def Die.charged (d : Die) (now : Nat) : Bool := d.spent.any fun x => now < x.1 + usec
def Die.charge (d : Die) (g : Grid) : Nat := d.charges.getD g.cls 0 * g.hdr.gang
def Grid.deferrals (g : Grid) (d : Nat) : Nat := ((g.defer_.find? fun x => x.1 == d).map (·.2)).getD 0
def Grid.setDefer (g : Grid) (d n : Nat) : Grid := { g with defer_ := (g.defer_.filter fun x => x.1 != d) ++ [(d, n)] }
/-- The candidate dispatched, and those ahead of it (R118, R119). One that has been deferred 8 times keeps its place in R113's
order: it only needs no budget any more (log entry 46). -/
def State.dispatch (s : State) (pd d : Nat) : List Candidate → List Candidate → Option (Candidate × List Candidate)
  | _, [] => none
  | ahead, c :: cs =>
    let die := s.die pd
    if die.charge c.grid + die.recent s.now ≤ die.budget || 8 ≤ c.grid.deferrals d || !die.charged s.now then some (c, ahead)
    else s.dispatch pd d (ahead ++ [c]) cs
def Grid.startedAt (g : Grid) (i : Nat) : Grid :=
  { g with gran := g.gran.modify i fun x => { x with next := x.next + 1, left := x.left - 1, begun := true },
           claim := g.claim + 1 }
def State.spendEnergy (s : State) (pd charge : Nat) : State :=
  s.updDie pd fun x => { x with spent := (x.spent.filter fun y => s.now < y.1 + usec) ++ [(s.now, charge)] }

/-- Places the units of a gang launch one after another on rooms that fill up: the cores of each, if all fit (R115). -/
def State.gangFit (s : State) (takes : Nat → Bool) (part : Nat) (h : Hdr) (room : Nat → Room) :
    Tab Room → List (Nat × Nat) → Option (List (Nat × Nat × List Nat))
  | _, [] => some []
  | taken, (u, d) :: us =>
    let now (c : Nat) : Room := (taken.find c).getD (room c)
    match s.coresAmong takes now part (s.physOf part d) h with
    | none => none
    | some cs =>
      (s.gangFit takes part h room (cs.foldl (fun m c => m.ins c ((now c).take h)) taken) us).map fun l => (u, d, cs) :: l
/-- The units of a grid with their dies. -/
def Grid.unitDies (g : Grid) : List (Nat × Nat) := g.gran.flatMap fun x => tab x.left fun i => (x.next + i, x.die)
/-- A gang launch that may be admitted now (R115). -/
def State.gangPlan (s : State) (t : Task) : Option (Grid × List (Nat × Nat × List Nat)) :=
  match t.grid with
  | some g =>
    if g.gangL && !g.admitted && !g.lost && t.state == .issued then
      (s.gangFit (fun c => s.accepts t.part c t.prio true) t.part g.hdr s.room [] g.unitDies).map fun l => (g, l) else none
  | none => none
/-- Of two grids the first is considered first: higher priority, then earlier issue (R113). -/
def goesBefore (prio order prio' order' : Nat) : Bool := prio' < prio || (prio == prio' && order < order')
/-- A block that goes before a gang launch is ready on a die: of higher priority, or of an earlier grid of the same priority
that the budget lets go (R113, R118). -/
def State.blockAhead (s : State) (part d prio order : Nat) : Bool :=
  (s.candidates part d).any (fun c => prio < c.t.prio) ||
  match s.dispatch (s.physOf part d) d [] (s.candidates part d) with
  | some (c, _) => goesBefore c.t.prio c.grid.order prio order
  | none => false

/-- A gang launch is ready: it may be admitted, and no block goes before it on a die of it. -/
def State.gangReady (s : State) (t : Task) : Option (Grid × List (Nat × Nat × List Nat)) :=
  match s.gangPlan t with
  | some (g, plan) => if plan.any fun x => s.blockAhead t.part x.2.1 t.prio g.order then none else some (g, plan)
  | none => none
/-- A gang launch that is considered first is ready on one of some dies (R113). -/
def State.gangAhead (s : State) (part : Nat) (dies : List Nat) (prio order : Nat) : Bool :=
  s.tasks.any fun (_, t) => t.part == part && match s.gangReady t with
    | some (g, plan) => goesBefore t.prio g.order prio order && plan.any fun x => dies.contains x.2.1
    | none => false

/-- BLOCK_PLACE. -/
def execBlockPlace (part die : Nat) (s : State) : Out :=
  let pd := s.physOf part die
  .next (match s.dispatch pd die [] (s.candidates part die) with
    | none => s
    | some (c, ahead) =>
      if s.gangAhead part [die] c.t.prio c.grid.order then s
      else
        let g := (c.grid.startedAt c.gi).setDefer die 0
        let t := s.startUnit c.task c.t g c.unit die c.cores
        let u := t.updTask c.task fun T => { T with grid := some g }
        let v := ahead.foldl (fun (v : State) x => v.updTask x.task fun T =>
          { T with grid := some (x.grid.setDefer die (x.grid.deferrals die + 1)) }) u
        v.spendEnergy pd ((s.die pd).charge c.grid))

/-- GANG_LAUNCH_ADMIT: every block of the grid starts at once, whatever the remaining budget; its charges count (log entry
46). -/
def execGangLaunchAdmit (task : Nat) (s : State) : Out :=
  .next (match s.tasks.find task with
    | none => s
    | some t => match s.gangReady t with
      | none => s
      | some (g, plan) =>
        if s.gangAhead t.part (plan.map fun x => x.2.1) t.prio g.order then s
        else
          let g1 : Grid := { g with admitted := true, gran := g.gran.map fun x => { x with next := x.next + x.left, left := 0, begun := true } }
          let u := plan.foldl (fun (u : State) x => (u.startUnit task t g1 x.1 x.2.1 x.2.2).spendEnergy (s.physOf t.part x.2.1)
            ((s.die (s.physOf t.part x.2.1)).charge g)) s
          u.updTask task fun T => { T with grid := some g1 })

/-! ## Stealing (R111, R112) -/

/-- Granules of a die in which no unit has started. -/
def Grid.unstarted (g : Grid) (d : Nat) : List Granule := g.gran.filter fun x => x.die == d && !x.begun && !x.away && 0 < x.left
/-- The die with the most unstarted granules among some dies, the lowest at a tie. -/
def Grid.richest (g : Grid) : List Nat → Option Nat
  | [] => none
  | d :: ds => match g.richest ds with
    | some e => some (if (g.unstarted d).length < (g.unstarted e).length then e else d)
    | none => some d
/-- STEAL_REQUEST: the message of a dry distributor reaches its victim, which answers. A die that is being evacuated keeps its
unstarted granules (R112, R384). -/
def execStealRequest (task thief : Nat) (s : State) : Out :=
  .next (match s.tasks.find task with
    | none => s
    | some t => match t.grid, s.part t.part with
      | some g, some P =>
        let dry := !(g.gran.any fun x => x.die == thief && 0 < x.left) &&
          (s.chooseCores s.room t.part (P.physDie thief) t.prio false g.hdr).isSome
        let mine := g.steals.find? fun x => x.1 == thief
        let nones := (mine.map fun x => x.2.2).getD []
        let asked := ((mine.bind fun x => x.2.1)).isSome
        if g.det || g.gangL || g.lost || asked || !dry || t.state != .issued ||
          (g.hdr.cluster != 0 && s.gangCap t.part (P.physDie thief) g.hdr.cluster == 0) then s
        else match g.richest ((List.range P.dies.length).filter fun d => d != thief && !nones.contains d && !(s.die (P.physDie d)).leaving) with
          | none => s
          | some v =>
            if s.dieSilent t.part v then s
            else
            let last := (g.gran.zipIdx).reverse.find? fun x => x.1.die == v && !x.1.begun && !x.1.away && 0 < x.1.left
            let gran := match last with
              | some (_, i) => g.gran.modify i fun x => { x with die := thief, away := true }
              | none => g.gran
            let steals := (g.steals.filter fun x => x.1 != thief) ++ [(thief, some v, nones)]
            let g1 : Grid := { g with gran := gran, steals := steals }
            s.updTask task fun T => { T with grid := some g1 }
      | _, _ => s)
/-- STEAL_ANSWER: the thief receives a granule, or "none". -/
def execStealAnswer (task thief : Nat) (s : State) : Out :=
  .next (match s.tasks.find task with
    | none => s
    | some t => match t.grid with
      | none => s
      | some g => match g.steals.find? fun x => x.1 == thief with
        | some (_, some v, nones) =>
          let got := g.gran.any fun x => x.die == thief && x.away
          let rest := g.steals.filter fun x => x.1 != thief
          let gran := g.gran.map fun x => if x.die == thief then { x with away := false } else x
          let steals := if got then rest else rest ++ [(thief, none, nones ++ [v])]
          let g1 : Grid := { g with gran := gran, steals := steals }
          s.updTask task fun T => { T with grid := some g1 }
        | _ => s)

/-! ## Rescue (R141) -/

/-- The older of two groups: its block placed first, then the lower number. -/
def older (a b : Nat × Group × Block) : Bool := a.2.2.placed < b.2.2.placed || (a.2.2.placed == b.2.2.placed && a.2.1.num < b.2.1.num)
def oldest : List (Nat × Group × Block) → Option (Nat × Group × Block)
  | [] => none
  | x :: xs => match oldest xs with
    | some y => some (if older y x then y else x)
    | none => some x
/-- CORE_RESCUE. -/
def execCoreRescue (die core : Nat) (s : State) : Out :=
  let gs := s.groups.filterMap fun (id, g) => match s.blocks.find g.blk with
    | some b => if b.core == die * 64 + core && !b.saved && !b.retired && !g.done then some (id, g, b) else none
    | none => none
  .next (if gs.all (fun x => x.2.1.parked) && !gs.any (fun x => x.2.1.rescued) then
      match oldest (gs.filter fun x => x.2.1.park == some .pool) with
      | some (id, _, _) => s.updGroup id fun g => { g with rescued := true, base := g.phys.length, park := none }
      | none => s
    else s)

/-! ## Retirement and the end of blocks (R387, R394) -/

def Shape.empty : Shape := ⟨none, [], false⟩
/-- The write that clears VALID of a slot as it is released (R293). -/
def State.clearValid (s : State) (part : Nat) (l : Layer) (d e i : Nat) (redir : Bool) : MWrite :=
  s.mirrorWrite part (l.slotVa d e i + 0x14) 4 (toBytes 4 (2 * b2n redir)) [] (s.unitOf part d)
/-- The slots that a block still claims, with their layers and rows. -/
def State.claimRows (s : State) (blk : Nat) (b : Block) : List (Layer × Nat × Nat × Row) :=
  b.claims.filterMap fun c => match s.expertOf b.part c.1 with
    | .ok (l, e) => match (l.area b.ldie e).slots.getD c.2 none with
      | some r => if (r.claim.map Prod.fst) == some blk then some (l, e, c.2, r) else none
      | none => none
    | .error _ => none
/-- The home of a slot to be released holds the write for now. -/
def State.claimsHeld (s : State) (blk : Nat) (b : Block) : Bool :=
  (s.claimRows blk b).any fun x => match s.clearValid b.part x.1 b.ldie x.2.1 x.2.2.1 x.2.2.2.redir with
    | .hold _ => true
    | _ => false
/-- Release the slots that a block claims, as XDONE does (R293): VALID is cleared, the slot is free, and the reference count
falls. -/
def State.freeClaims (s : State) (blk : Nat) (b : Block) : State :=
  b.claims.foldl (fun t c => match t.expertOf b.part c.1 with
    | .ok (l, e) =>
      let a := l.area b.ldie e
      (match a.slots.getD c.2 none with
      | some r =>
        if (r.claim.map Prod.fst) != some blk then t
        else
          let l1 := l.setArea b.ldie e { a with slots := a.slots.set c.2 none }
          let u := t.report b.part b.ldie (l.slotVa b.ldie e c.2 + 0x14) 4 (2 * b2n r.redir)
          ((u.setLayer l1).mirrorArea l1 b.ldie e).mirrorEntry l1 e
      | none => t)
    | .error _ => t) s
/-- No bank of a block stays valid (R255). -/
def State.freeBanks (s : State) (blk : Nat) : State :=
  { s with clusters := s.clusters.mapAll fun _ c => { c with banks := c.banks.mapAll fun _ l => l.filter fun k => k.owner != blk } }
/-- BLOCK_RETIRE. -/
def execBlockRetire (block : Nat) (s : State) : Out :=
  .next (match s.block block with
    | none => s
    | some b =>
      let gone := match s.gangs.find b.gang with
        | some g => g.members.all fun m => match s.block m with
          | some x => (s.liveGroups x).isEmpty
          | none => true
        | none => true
      if b.retired || b.saved || !(s.liveGroups b).isEmpty || (b.hdr.cluster != 0 && !gone) || s.claimsHeld block b then s
      else
        let t := (s.drainWhere b.core fun e => e.owners.any fun o => o.blk == block).updCore b.core fun c => c.keepLeft b
        let u := t.freeClaims block b
        let v := if b.claims.isEmpty then u
          else u.logPart b.part ⟨5, 0, 0, agentCode b.ldie (u.logicalCore b.core) 0, 0, 0, noPc, 0⟩
        let w := (v.freeBanks block).updBlock block fun B =>
          { B with retired := true, shapes := B.shapes.map fun _ => Shape.empty, claims := [], undo := [], tags := [], bar := .empty, barLog := [] }
        w.updTask b.task fun T => { T with grid := T.grid.map fun g => { g with retired := g.retired + 1 } })

/-- End blocks without saving them (R94, R383, R386): their groups, engine operations, sends, waits and claims are gone; what
they had already sent is still performed. -/
def State.killBlocks (s : State) (blks : List Nat) : State :=
  let dead (b : Nat) : Bool := blks.contains b
  let gone := s.groups.filterMap fun (id, g) => if dead g.blk then some id else none
  let flies (q : Req) : Bool := q.wait.isEmpty && match q.kind with
    | .store _ | .atomic _ _ _ => true
    | _ => false
  let t := s.blocks.foldl (fun (t : State) (id, b) => if dead id then
    ((t.freeClaims id b).freeBanks id).updCore b.core fun c => c.keepLeft b else t) s
  { t with
    groups := List.filter (fun (id, _) => !gone.contains id) t.groups,
    blocks := List.filter (fun (id, _) => !dead id) t.blocks,
    gangs := List.filter (fun (_, g) => !g.members.all dead) t.gangs,
    reqs := List.filter (fun (_, q) => !gone.contains q.grp || flies q) t.reqs,
    copies := List.filter (fun (_, c) => !dead c.blk) t.copies,
    sends := List.filter (fun (_, c) => !dead c.blk) t.sends,
    clusters := t.clusters.mapAll fun _ c =>
      { c with table := c.table.filter fun e => !dead e.blk, pass := c.pass.bind fun e => if dead e.blk then none else some e },
    layers := t.layers.map fun l => { l with areas := l.areas.mapAll fun _ a => { a with waiters := a.waiters.filter fun w => !gone.contains w.1 } } }
/-- Blocks of a task. -/
def State.taskBlocks (s : State) (task : Nat) : List Nat := s.blocks.filterMap fun (id, b) => if b.task == task then some id else none

end Sys2Proof.Machine
end

