-- ==== Sys2Proof/Machine/Stream.lean ====
section
/-! DEFINITION. The front end: fetch-ahead, passing, control instructions, and decoding tasks into the Loupe's window
(R51 to R89). The meanings of the S instructions act for the stream in focus, whose next instruction they are. -/

namespace Sys2Proof

/-- The op byte of an S instruction (R57). -/
def Instr.opByte (i : Instr) : Nat := fld ((encodeS i).getD 0) 24 8
/-- op(x, y) mod 2^64 (R56, R67). -/
def QOp.eval (o : QOp) (x y : Nat) : Nat :=
  match o with
  | .add => (x + y) % 2 ^ 64
  | .sub => (x + 2 ^ 64 - y) % 2 ^ 64
  | .mul => x * y % 2 ^ 64
  | .and => Nat.land x y
  | .or => Nat.lor x y
  | .xor => Nat.xor x y
  | .shl => x * 2 ^ (y % 64) % 2 ^ 64
  | .shr => x / 2 ^ (y % 64)
  | .sra => wrap 64 (sext 64 x / 2 ^ (y % 64))
  | .min => if sext 64 x ≤ sext 64 y then x else y
  | .max => if sext 64 x ≤ sext 64 y then y else x
  | .minn => Nat.min x y
  | .maxn => Nat.max x y
def QSize.bytes : QSize → Nat
  | .b16 => 2
  | .b32 => 4
  | .b64 => 8

/-- An instruction that goes into the window (R59). -/
def Instr.isTask (i : Instr) : Bool :=
  !(0x10 ≤ i.opByte && i.opByte ≤ 0x1B) && i.opByte != 0x24 && i.opByte != 0x25

end Sys2Proof

namespace Sys2Proof.Machine

/-! ## What the front end and the Loupe read (R61, R78) -/

/-- What data at `at_` covers of n bytes at `base`. -/
def overlayOf (base n at_ : Nat) (data : List (Option Byte)) : List (Option Byte) :=
  tab n fun i => if at_ ≤ base + i then (data[base + i - at_]?).getD none else none
/-- Committed bytes of a location. -/
def State.locBytes (s : State) (loc : Loc) (n : Nat) : List Byte :=
  match loc with
  | .dev pa => s.devBytes pa n
  | .host l ba => s.hostBytes l ba n
  | _ => List.replicate n 0
/-- Where the destination region of a COPYT or FILL task starts (R83, R84). -/
def Task.dstAt (t : Task) : Nat := match t.foot.getLast? with
  | some r => r.buf.base + r.off
  | none => 0
def Task.srcAt (t : Task) : Nat := match t.foot with
  | r :: _ => r.buf.base + r.off
  | [] => 0
/-- Byte i of what a COPYT or FILL task writes. -/
def State.taskByte (s : State) (t : Task) (i : Nat) : Option Byte :=
  match t.instr with
  | .fill _ _ _ _ _ => some (BitVec.ofNat 8 (t.qb / 2 ^ (8 * (i % 8))))
  | .copyt _ _ _ _ _ _ => match s.reach t.part (t.srcAt + i) 1 true false with
    | .ok loc => (s.locBytes loc 1).head?
    | .error _ => none
  | _ => none
/-- The state that a step leaves. -/
def Out.after (s : State) : Out → State
  | .next t => t
  | _ => s
/-- Writes of engines, Mirror and Prism that are on their way, each as the state in which it has been performed: COPY, ghost
cells, the rows of sends, XFILL and XMERGE. -/
def State.engineWrites (s : State) : List State :=
  (s.copies.flatMap fun (id, c) => c.left.map fun u => Out.after s (execCopyUnitWrite id u s)) ++
  (s.mirrors.flatMap fun (k, r) => (List.range r.desc.nparts).map fun p => Out.after s (execHaloDelivery k p s)) ++
  (s.sends.map fun (id, _) => Out.after s (execXsendArrival id s)) ++
  (s.layers.flatMap fun l => l.fills.map fun f => Out.after s (execFillComplete l.part l.num f.1 f.2.1 s)) ++
  s.tasks.filterMap fun (_, t) => match t.instr, t.state with
    | .xmerge _ _ _ len, .issued => (match s.mergeAll t.part (t.frame.getD 0 nobody) t.qa len.toNat t.frame.length (len.toNat / 4) with
      | .ok u => some u
      | _ => none)
    | _, _ => none
/-- What differs at n bytes of a location once a write has been performed. -/
def State.changes (s u : State) (loc : Loc) (n : Nat) : List (Option Byte) :=
  (List.zip (s.locBytes loc n) (u.locBytes loc n)).map fun x => if x.1 == x.2 then none else some x.2
/-- Where an address in the space of a location lies: both are device addresses, or bus addresses of one link. -/
def Loc.inSpaceOf (l loc : Loc) : Option Nat := match loc, l with
  | .dev _, .dev y => some y
  | .host a _, .host b y => if a == b then some y else none
  | _, _ => none
/-- A request on its way that will write committed bytes: it has left its core, and no set is on it or on what it is performed
upon (R337). -/
def State.commits (s : State) (q : Req) : Bool :=
  !q.status.over_ && q.set.isEmpty && q.wait.isEmpty && match q.kind, s.movedLoc q.loc with
    | .atomic _ _ _, .dev pa => (s.readNewest pa q.n).2.isEmpty
    | _, _ => true
/-- What an issued COPYT or FILL task would leave at n bytes of a location, page by page of its destination. -/
def State.taskWrites (s : State) (t : Task) (loc : Loc) (n : Nat) : List (List (Option Byte)) :=
  match t.foot.getLast?, t.state with
  | some r, .issued => ((pageStarts t.dstAt r.len).eraseDups).map fun v =>
    let len := Nat.min (t.dstAt + r.len) (v / 2 ^ 16 * 2 ^ 16 + 2 ^ 16) - v
    match s.reach t.part v 1 false true with
    | .ok l => (match l.inSpaceOf loc with
      | some y => tab n fun i => if y ≤ loc.phys + i && loc.phys + i < y + len then
          s.taskByte t (v + (loc.phys + i - y) - t.dstAt) else none
      | none => [])
    | .error _ => []
  | _, _ => []
/-- Writes in flight over n bytes of a location: each as the bytes it would leave. A page that has moved counts where it is. -/
def State.inFlight (s : State) (loc : Loc) (n : Nat) : List (List (Option Byte)) :=
  let reqs := s.reqs.map fun (_, q) =>
    let at_ := s.movedLoc q.loc
    if !s.commits q then []
    else match at_.inSpaceOf loc, q.kind with
      | some y, .store d => overlayOf loc.phys n y d
      | some y, .atomic op a e => overlayOf loc.phys n y (someBytes (toBytes q.n (atomicFn op (ofBytes (s.locBytes at_ q.n)) a e)))
      | _, _ => []
  let wcbs := s.cores.flatMap fun (_, c) => c.wcb.map fun e => match (s.movedLoc (.dev (e.line * 128))).inSpaceOf loc with
    | some y => overlayOf loc.phys n y e.bytes
    | none => []
  let tasks := s.tasks.flatMap fun (_, t) => s.taskWrites t loc n
  (reqs ++ wcbs ++ tasks ++ s.engineWrites.map fun u => s.changes u loc n).filter fun w => w.any Option.isSome
/-- Each aligned word that a write in flight covers holds the old value or the new one: a free choice. -/
def State.mix (s : State) (bs : List Byte) (k : Nat) : List (List (Option Byte)) → List Byte
  | [] => bs
  | w :: ws =>
    s.mix (tab bs.length fun i =>
      if s.freeAt (k * 64 + i / 4) % 2 = 1 then ((w[i]?).getD none).getD (bs.getD i 0) else bs.getD i 0) (k + 1) ws
/-- A read whose words may be old or new where a write is in flight. -/
def State.readSeen (s : State) (part va n : Nat) : Except Nat (List Byte) × State :=
  match s.readAs part va n, s.reach part va n true false with
  | (.ok bs, t), .ok loc =>
    let ws := t.inFlight loc n
    if ws.isEmpty then (.ok bs, t) else (.ok (t.mix bs 0 ws), t.spend (64 * ws.length))
  | r, _ => r

/-! ## Fetch-ahead and passing (R59 to R62) -/

/-- Fetch the instruction at an address now, and keep the copy, or the fault its fetch met (R62). -/
def State.fetchCopy (s : State) (a : Nat) : State :=
  match s.readSeen s.cpId a 16 with
  | (.ok bs, t) => { t with cst := { t.cst with run := t.cst.run ++ [(a, .word (ofBytes bs))] } }
  | (.error c, t) => { t with cst := { t.cst with run := t.cst.run ++ [(a, .fault c)] } }
/-- refetch(a): a run begins (R60). -/
def State.refetch (s : State) (a : Nat) : State :=
  let t : State := { s with cst := { s.cst with run := [], waiting := false, ctx := { s.cst.ctx with pc := a } } }
  (List.range 64).foldl (fun (u : State) i => u.fetchCopy ((a + 16 * i) % 2 ^ 64)) t
/-- The front end moves past the instruction at its address: that copy is used up, and the one 1,024 bytes on is fetched. -/
def State.moveOn (s : State) : State :=
  let a := s.cst.ctx.pc
  let t : State := { s with cst := { s.cst with run := s.cst.run.filter (fun c => c.1 != a), waiting := false,
                                                ctx := { s.cst.ctx with pc := (a + 16) % 2 ^ 64 } } }
  t.fetchCopy ((a + 1024) % 2 ^ 64)
/-- Move past n instructions (R66). -/
def State.skip (s : State) : Nat → State
  | 0 => s
  | n + 1 => s.moveOn.skip n
/-- The front end waits at its instruction (R59, R63). -/
def State.hold (s : State) : State := { s with cst := { s.cst with waiting := true } }

/-! ## The window (R64, R87) -/

/-- A task with nothing in it. -/
def Task.blank : Task :=
  { part := 0, stream := 0, instr := .halt, qa := 0, qb := 0, addr := 0, opc := 0, prio := 0, detm := false, foot := [],
    give := [], took := [], resume := .empty, state := .waiting, cause := none, daddr := 0, code := 0, gdx := 0, gdy := 0,
    gdz := 0, det := false, gang := false, ecls := none, frame := [], place := 0, grid := none, met := false, since := 0,
    lostOnce := false }
/-- Tasks of a stream in the window. -/
def State.inWindow (s : State) (part stream : Nat) : Nat :=
  (List.filter (fun (_, t) => t.part == part && t.stream == stream) s.tasks).length
/-- A stream may decode a task (R87). -/
def State.windowRoom (s : State) (part stream : Nat) : Bool :=
  let used := (List.filter (fun (_, t) => t.part == part) s.tasks).length
  let running (k : Nat) : Bool := match s.stream (part * 16 + k) with
    | some x => x.state == .running
    | none => false
  let owed := sumTo 16 fun k => if k != stream && running k then 8 - s.inWindow part k else 0
  used + 1 + owed ≤ 256
/-- The number of the stream in focus. -/
def State.strm (s : State) : Nat := s.cstId % 16
/-- A task of the instruction at the stream's address. -/
def State.newTask (s : State) (i : Instr) : Task :=
  { Task.blank with part := s.cpId, stream := s.strm, instr := i, addr := s.cst.ctx.pc, opc := i.opByte, prio := s.cst.ctx.prio,
                    detm := s.cst.ctx.detm, resume := s.cst.ctx, since := s.now }
/-- The instruction becomes a faulted entry, and the front end passes nothing further (R64). -/
def State.faultEntry (s : State) (opc cause daddr : Nat) : State :=
  if !s.windowRoom s.cpId s.strm then s.hold
  else
    let t := { s.newTask .halt with opc := opc, state := .complete, cause := some cause, daddr := daddr }
    { s with tasks := s.tasks.ins s.nextId t, nextId := s.nextId + 1, cst := { s.cst with stuck := true, waiting := false } }
/-- fault(C) of the pseudocode. -/
def State.faultOf (s : State) (i : Instr) (cause daddr : Nat) : State := s.faultEntry i.opByte cause daddr

/-! ## Control instructions (R65 to R67, R89) -/

def State.q (s : State) (r : QReg) : Nat := ((s.cst.ctx.q[r.val]?).getD 0).toNat
def State.setQ (s : State) (r : QReg) (v : Nat) : State :=
  { s with cst := { s.cst with ctx := { s.cst.ctx with q := s.cst.ctx.q.setIfInBounds r.val (BitVec.ofNat 64 v) } } }
/-- imm16 or a q register. -/
def State.ySrc (s : State) : QSrc → Nat
  | .imm v => wrap 64 v.toInt
  | .reg r => s.q r
/-- A relative target: the instruction's own address + 16 × off (R57). -/
def State.rel (s : State) (off : BitVec 32) : Nat := wrap 64 ((s.cst.ctx.pc : Int) + 16 * off.toInt)
/-- The target of JMP and CALL. -/
def State.target (s : State) : JTarget → Nat
  | .rel off => s.rel off
  | .reg r => s.q r
/-- A displacement from a q register. -/
def State.qAddr (s : State) (r : QReg) (disp : BitVec 32) : Nat := wrap 64 ((s.q r : Int) + disp.toInt)
/-- A register target that is not a multiple of 16 (R65). -/
def State.crooked (s : State) : JTarget → Bool
  | .rel _ => false
  | .reg r => s.q r % 16 != 0
def State.passJmp (s : State) (t : JTarget) : State :=
  if s.crooked t then s.faultOf (.jmp t) 0x04 0 else s.refetch (s.target t)
def State.passCall (s : State) (t : JTarget) : State :=
  if s.crooked t then s.faultOf (.streamCall t) 0x04 0
  else if 8 ≤ s.cst.ctx.ret.length then s.faultOf (.streamCall t) 0x24 0
  else
    let u : State := { s with cst := { s.cst with ctx := { s.cst.ctx with ret := (s.cst.ctx.pc + 16) % 2 ^ 64 :: s.cst.ctx.ret } } }
    u.refetch (s.target t)
def State.passRet (s : State) : State :=
  match s.cst.ctx.ret with
  | [] => s.faultOf .streamRet 0x24 0
  | a :: rest => ({ s with cst := { s.cst with ctx := { s.cst.ctx with ret := rest } } } : State).refetch a
def State.passBrq (s : State) (c : QCond) (qa : QReg) (y : QSrc) (off : BitVec 32) : State :=
  if c.holds (.ofNat 64 (s.q qa)) (.ofNat 64 (s.ySrc y)) then s.refetch (s.rel off) else s.moveOn
/-- What a front-end access waits for: every older task of its stream has retired (R63). -/
def State.settledFor (s : State) (go : State) : State := if s.inWindow s.cpId s.strm == 0 then go else s.hold
def State.passWhen (s : State) (c : QCond) (x : WhenSrc) (qb : QReg) (n : BitVec 16) : State :=
  let i : Instr := .when c x qb n
  let go (t : State) (v : Nat) : State := t.skip (if c.holds (.ofNat 64 v) (.ofNat 64 (s.q qb)) then 1 else n.toNat + 1)
  if n.toNat < 1 || 15 < n.toNat then s.faultOf i 0x20 0
  else match x with
    | .reg r => go s (s.q r)
    | .mem r disp =>
      let a := s.qAddr r disp
      if a % 8 != 0 then s.faultOf i 0x04 0
      else s.settledFor (match s.readAs s.cpId a 8 with
        | (.ok bs, t) => go t (ofBytes bs)
        | (.error cause, t) => t.faultOf i cause a)
def State.passLoop (s : State) (qa : QReg) (off : BitVec 32) : State :=
  let t := s.setQ qa (s.q qa + 2 ^ 64 - 1)
  if t.q qa != 0 then t.refetch (t.rel off) else t.moveOn
def State.passFfence (s : State) : State := s.refetch ((s.cst.ctx.pc + 16) % 2 ^ 64)
def State.passLdq (s : State) (sz : QSize) (sx : Bool) (qa qb : QReg) (disp : BitVec 32) : State :=
  let i : Instr := .ldq sz sx qa qb disp
  let a := s.qAddr qb disp
  if a % sz.bytes != 0 then s.faultOf i 0x04 0
  else s.settledFor (match s.readAs s.cpId a sz.bytes with
    | (.ok bs, t) => (t.setQ qa (if sx then wrap 64 (sext (8 * sz.bytes) (ofBytes bs)) else ofBytes bs)).moveOn
    | (.error cause, t) => t.faultOf i cause a)
def State.passStq (s : State) (sz : QSize) (qa qb : QReg) (disp : BitVec 32) : State :=
  let i : Instr := .stq sz qa qb disp
  let a := s.qAddr qb disp
  if a % sz.bytes != 0 then s.faultOf i 0x04 0
  else s.settledFor (match s.mirrorWrite s.cpId a sz.bytes (toBytes sz.bytes (s.q qa)) [] with
    | .ok t => t.moveOn
    | .bad k cause pa => (k.logLost s.cpId cause a pa).faultOf i cause a
    | .hold _ => s.hold)
def State.passAluq (s : State) (op : QOp) (qa qb : QReg) (y : QSrc) : State :=
  (s.setQ qa (op.eval (s.q qb) (s.ySrc y))).moveOn
def State.passMovq (s : State) (qa : QReg) (src : MovSrc) : State :=
  (s.setQ qa (match src with
    | .imm v => wrap 64 v.toInt
    | .imm64 v => v.toNat
    | .reg r => s.q r)).moveOn
/-- HALT: halted once every older task has retired. -/
def State.passHalt (s : State) : State :=
  if s.inWindow s.cpId s.strm == 0 then { s with cst := { s.cst with state := .halted, waiting := false, run := [] } }
  else { s with cst := { s.cst with halt := true, waiting := false } }
def State.passPrio (s : State) (level : Fin 16) : State :=
  if s.cp.maxprio < level.val then s.faultOf (.prio level) 0x20 0
  else ({ s with cst := { s.cst with ctx := { s.cst.ctx with prio := level.val } } } : State).moveOn
def State.passDetm (s : State) (on : Bool) : State :=
  ({ s with cst := { s.cst with ctx := { s.cst.ctx with detm := on } } } : State).moveOn

/-! ## Decoding tasks (R68 to R84, R91, R92, R98, R99) -/

/-- What a decode finds: a task, with the state it leaves, a fault, or that it must wait for a buffer (R74). -/
inductive Dec where
  | task (t : Task) (s : State)
  | fault (cause daddr : Nat) (s : State)
  | wait (s : State)
/-- A decode that does not make a task leaves the state from before: nothing it renamed stays renamed (R64, R74). -/
def Dec.orBefore (s : State) : Dec → Dec
  | .fault cause daddr _ => .fault cause daddr s
  | .wait _ => .wait s
  | d => d
/-- Decode into the window when there is room (R59, R87). -/
def State.decode (s : State) (i : Instr) (f : Task → Dec) : State :=
  if !s.windowRoom s.cpId s.strm then s.hold
  else match f (s.newTask i) with
    | .task t u =>
      let t1 := { t with lostOnce := u.cst.again }
      ({ u with tasks := u.tasks.ins u.nextId t1, nextId := u.nextId + 1, cp := { u.cp with turn := u.strm },
                cst := { u.cst with again := false } } : State).moveOn
    | .fault cause daddr u => u.faultOf i cause daddr
    | .wait u => u.hold

/-- The class of a length (R68). -/
def classOf (len : Nat) : Nat :=
  if len ≤ 2 ^ 16 then 0 else if len ≤ 2 ^ 21 then 1 else if len ≤ 2 ^ 25 then 2 else if len ≤ 2 ^ 29 then 3 else 4
def classSize : Nat → Nat
  | 0 => 2 ^ 16
  | 1 => 2 ^ 21
  | 2 => 2 ^ 25
  | 3 => 2 ^ 29
  | _ => 2 ^ 31
/-- What a logical buffer maps to. -/
def State.bufAt (s : State) (n : LBuf) : Option Buf := (s.cst.ctx.map[n.val]?).getD none
def State.setBuf (s : State) (n : LBuf) (b : Option Buf) : State :=
  { s with cst := { s.cst with ctx := { s.cst.ctx with map := s.cst.ctx.map.setIfInBounds n.val b } } }
/-- A buffer that goes back to a free list. -/
def Buf.owned (b : Option Buf) : List Buf := match b with
  | some x => if x.cls.isSome then [x] else []
  | none => []
/-- Take a free buffer of a class, for a logical buffer of a length; else wait or fault (R74). DESIGN CHOICE (log entry 59): which
free buffer is taken is open; the first of the list is, and one that is given back goes to the end of it. -/
def State.takeBuf (s : State) (c len : Nat) (go : Buf → State → Dec) : Dec :=
  match s.cp.free.getD c [] with
  | b :: rest => go ⟨b, some c, len⟩ { s with cp := { s.cp with free := s.cp.free.set c rest } }
  | [] =>
    if s.tasks.any fun (_, t) => t.part == s.cpId && t.cause.isNone && t.give.any fun b => b.cls == some c then .wait s
    else .fault 0x23 0 s
/-- Return buffers to their free lists, each at the end (log entry 59). -/
def Part.giveBack (p : Part) (bs : List Buf) : Part :=
  bs.foldl (fun p b => match b.cls with
    | some c => { p with free := p.free.set c (p.free.getD c [] ++ [b.base]) }
    | none => p) p
/-- Map a logical buffer anew; the buffer it had goes back when the task retires. -/
def State.remap (s : State) (t : Task) (n : LBuf) (b : Option Buf) : Dec :=
  .task { t with give := t.give ++ Buf.owned (s.bufAt n), took := t.took ++ Buf.owned b } (s.setBuf n b)

def State.passDefb (s : State) (n : LBuf) (len : QLen) : State :=
  s.decode (.defb n len) fun t =>
    let l := match len with
      | .imm v => v.toNat
      | .reg r => s.q r
    if l < 1 || 2 ^ 31 < l then .fault 0x20 0 s
    else s.takeBuf (classOf l) l fun b u => u.remap t n (some b)
def State.passBindb (s : State) (n : LBuf) (qa : QReg) (len : BitVec 32) : State :=
  s.decode (.bindb n qa len) fun t =>
    let base := s.q qa
    if base % 128 != 0 then .fault 0x04 0 s
    else if len.toNat < 1 || 2 ^ 31 < len.toNat then .fault 0x20 0 s
    else if s.cp.refused base len.toNat then .fault 0x06 0 s
    else s.remap t n (some ⟨base, none, len.toNat⟩)
def State.passRelb (s : State) (n : LBuf) : State := s.decode (.relb n) fun t => s.remap t n none

/-- A footprint entry as the record holds it (R76). -/
structure Ent where
  off    : Nat
  len    : Nat
  stride : Nat
  rows   : Nat
  mode   : Nat
  buf    : Nat
  deriving DecidableEq, Repr
def Ent.ofBytes (bs : List Byte) : Ent :=
  let f := word4 bs 12
  ⟨word4 bs 0, word4 bs 4, word4 bs 8, bits f 31 16, bits f 9 8, bits f 5 0⟩
/-- The checks of R77, entry by entry; `seen` lists the buffers and modes of earlier entries. -/
def checkEnts (map : Vector (Option Buf) 64) : List (Nat × Nat) → List Ent → Except Nat (List (Ent × Buf))
  | _, [] => .ok []
  | seen, e :: es =>
    match (map[e.buf]?).getD none with
    | none => .error 0x21
    | some b =>
      let limits := if e.mode == 3 then e.off == 0 && e.len == 0 && e.stride == 0 && e.rows == 0
        else 1 ≤ e.len && 1 ≤ e.rows && (if e.rows == 1 then e.stride == 0 else e.len ≤ e.stride)
      let prior := (seen.filter fun x => x.1 == e.buf).map (·.2)
      if !limits then .error 0x20
      else if e.mode != 3 && b.len < e.off + (e.rows - 1) * e.stride + e.len then .error 0x22
      else if !(prior.isEmpty || (prior == [0] && e.mode == 3) || (prior == [3] && e.mode == 0)) then .error 0x20
      else match checkEnts map (seen ++ [(e.buf, e.mode)]) es with
        | .ok xs => .ok ((e, b) :: xs)
        | .error c => .error c
/-- Rename buffers for the whole-write entries (R72), and lay down the regions (R76, R77). -/
def State.regions (s : State) (t : Task) : List (Ent × Buf) → Dec
  | [] => .task t s
  | (e, b) :: es =>
    if e.mode != 3 then s.regions { t with foot := t.foot ++ [⟨b, e.off, e.len, e.stride, e.rows, e.mode⟩] } es
    else match b.cls with
      | none => s.regions { t with foot := t.foot ++ [⟨b, 0, b.len, 0, 1, 1⟩] } es
      | some c => match s.cp.free.getD c [] with
        | f :: rest =>
          let nb : Buf := ⟨f, some c, b.len⟩
          let u : State := { s with cp := { s.cp with free := s.cp.free.set c rest } }
          (u.setBuf (Fin.ofNat 64 e.buf) (some nb)).regions
            { t with foot := t.foot ++ [⟨nb, 0, b.len, 0, 1, 3⟩], give := t.give ++ [b], took := t.took ++ [nb] } es
        | [] => s.takeBuf c b.len fun _ u => .task t u
/-- The record's entries, read one by one: the cause and address of a failure, or their bytes. -/
def State.readEnts (s : State) (part va : Nat) : Nat → Except (Nat × Nat) (List (List Byte)) × State
  | 0 => (.ok [], s)
  | n + 1 =>
    match s.readEnts part va n with
    | (.error e, t) => (.error e, t)
    | (.ok xs, t) => match t.readSeen part (va + 16 * n) 16 with
      | (.error c, u) => (.error (c, va + 16 * n), u)
      | (.ok bs, u) => (.ok (xs ++ [bs]), u)
/-- A 256-byte place of the frame window that no task has (R419). DESIGN CHOICE (log entry 59): which free place is open; the
lowest is taken. -/
def State.framePlace (s : State) : Nat :=
  let used := s.tasks.filterMap fun (_, t) => if t.part == s.cpId && !t.frame.isEmpty then some t.place else none
  ((List.range 256).find? fun p => !used.contains p).getD 0
/-- A launch record with its entries (R75, R77 to R80). DESIGN CHOICE (log entry 49): every entry has been read before a
field of the header is checked. -/
def State.launchRecord (s : State) (t : Task) (bs : List Byte) (es : List (List Byte)) : Dec :=
  let f := word4 bs 0x14
  let code := word8 bs 0
  let args := word8 bs 0x18
  let nfp := bits f 12 8
  if bits f 31 13 != 0 || bits f 7 5 != 0 || (bs.drop 0x20).any (· != 0) ||
    es.any (fun e => bits (word4 e 12) 15 10 != 0 || bits (word4 e 12) 7 6 != 0) then .fault 0x02 0 s
  else if code % 64 != 0 then .fault 0x04 code s
  else if args % 8 != 0 then .fault 0x04 args s
  else if word4 bs 8 == 0 || word4 bs 12 == 0 || 65535 < word4 bs 12 || word4 bs 16 == 0 || 65535 < word4 bs 16 || 16 < nfp
    then .fault 0x20 0 s
  else match checkEnts s.cst.ctx.map [] (es.map Ent.ofBytes) with
    | .error c => .fault c 0 s
    | .ok xs => Dec.orBefore s <| match s.regions t xs with
      | .task u v =>
        let bases := u.foot.map fun r => r.buf.base
        .task { u with code := code, gdx := word4 bs 8, gdy := word4 bs 12, gdz := word4 bs 16, det := bit f 1 || u.detm,
                       gang := bit f 0, ecls := if bit f 2 then some (bits f 4 3) else none, place := v.framePlace,
                       frame := tab 32 fun i => if i < 16 then bases.getD i 0 else if i = 16 then args else 0 } v
      | d => d
def State.passLaunch (s : State) (qa : QReg) : State :=
  s.decode (.launch qa) fun t =>
    let a := s.q qa
    if a % 64 != 0 then .fault 0x04 0 s
    else match s.readSeen s.cpId a 64 with
      | (.error c, u) => .fault c a u
      | (.ok bs, u) =>
        let nfp := bits (word4 bs 0x14) 12 8
        match u.readEnts u.cpId (a + 0x40) (if nfp ≤ 16 then nfp else 0) with
        | (.error (c, e), v) => .fault c e v
        | (.ok es, v) => v.launchRecord t bs es

/-- The destination of COPYT and FILL, after its checks: a write entry, or a whole-write (R83). -/
def State.writeRegion (s : State) (t : Task) (n : LBuf) (b : Buf) (whole : Bool) (off len : Nat) : Dec :=
  if whole then s.regions t [(⟨0, 0, 0, 0, 3, n.val⟩, b)]
  else .task { t with foot := t.foot ++ [⟨b, off, len, 0, 1, 1⟩] } s
/-- COPYT (R83). DESIGN CHOICE (log entry 49): whether both buffers are mapped is checked before the limits. -/
def State.passCopyt (s : State) (whole : Bool) (dst : LBuf) (qa : QReg) (src : LBuf) (qb : QReg) (len : BitVec 32) : State :=
  s.decode (.copyt whole dst qa src qb len) fun t =>
    match s.bufAt src, s.bufAt dst with
    | some bs, some bd =>
      let n := len.toNat
      let d := s.q qa
      let o := s.q qb
      if n < 1 || 2 ^ 31 < n || 2 ^ 32 ≤ d || 2 ^ 32 ≤ o || (whole && (d != 0 || n != bd.len)) then .fault 0x20 0 s
      else if bs.len < o + n || bd.len < d + n then .fault 0x22 0 s
      else if !(whole && bd.cls.isSome) && bs.base + o < bd.base + d + n && bd.base + d < bs.base + o + n then .fault 0x20 0 s
      else s.writeRegion { t with qa := d, qb := o, foot := [⟨bs, o, n, 0, 1, 0⟩] } dst bd whole d n
    | _, _ => .fault 0x21 0 s
/-- FILL (R84). DESIGN CHOICE (log entry 49): whether the buffer is mapped is checked before alignment and limits. -/
def State.passFill (s : State) (whole : Bool) (dst : LBuf) (qa qb : QReg) (len : BitVec 32) : State :=
  s.decode (.fill whole dst qa qb len) fun t =>
    match s.bufAt dst with
    | some bd =>
      let n := len.toNat
      let d := s.q qa
      if d % 8 != 0 || n % 8 != 0 then .fault 0x04 0 s
      else if n < 1 || 2 ^ 31 < n || 2 ^ 32 ≤ d || (whole && (d != 0 || n != bd.len)) then .fault 0x20 0 s
      else if bd.len < d + n then .fault 0x22 0 s
      else s.writeRegion { t with qa := d, qb := s.q qb } dst bd whole d n
    | none => .fault 0x21 0 s

/-- The limits of WAITS and SIGNAL (R91, R92). -/
def State.sigLimits (s : State) (sc : Scope) (qa : QReg) (go : Dec) : Dec :=
  if s.q qa % 8 != 0 then .fault 0x04 0 s else if sc.code < 4 then .fault 0x20 0 s else go
def State.passWaits (s : State) (sc : Scope) (qa qb : QReg) (us : BitVec 32) : State :=
  s.decode (.waits sc qa qb us) fun t => s.sigLimits sc qa (.task { t with qa := s.q qa, qb := s.q qb } s)
def State.passSignal (s : State) (sc : Scope) (add : Bool) (qa qb : QReg) : State :=
  s.decode (.signal sc add qa qb) fun t => s.sigLimits sc qa (.task { t with qa := s.q qa, qb := s.q qb } s)
def State.passMark (s : State) (qa : QReg) : State := s.decode (.mark qa) fun t => .task { t with qa := s.q qa } s
def State.passHostint (s : State) (vec : BitVec 8) : State :=
  s.decode (.hostint vec) fun t => if s.cp.vecs ≤ vec.toNat then .fault 0x20 0 s else .task t s
def State.passGdef (s : State) (qa : QReg) : State := s.decode (.gdef qa) fun t => .task { t with qa := s.q qa } s
def State.passGstep (s : State) (qa qb : QReg) : State :=
  s.decode (.gstep qa qb) fun t => .task { t with qa := s.q qa, qb := s.q qb } s
def State.passXdef (s : State) (qa : QReg) (layer : BitVec 8) (count : BitVec 32) : State :=
  s.decode (.xdef qa layer count) fun t =>
    if count.toNat < 1 || 1024 < count.toNat then .fault 0x20 0 s else .task { t with qa := s.q qa } s
def State.passXfill (s : State) (qa : QReg) (layer : BitVec 8) (expert : BitVec 10) (die : Fin 8) (len : BitVec 32) : State :=
  s.decode (.xfill qa layer expert die len) fun t =>
    if s.cp.dies.length ≤ die.val then .fault 0x20 0 s else .task { t with qa := s.q qa } s
def State.passXpin (s : State) (off : Bool) (layer : BitVec 8) (expert : BitVec 10) (die : Fin 8) : State :=
  s.decode (.xpin off layer expert die) fun t => if s.cp.dies.length ≤ die.val then .fault 0x20 0 s else .task t s
def State.passXmerge (s : State) (qa : QReg) (layer : BitVec 8) (expert : BitVec 10) (len : BitVec 32) : State :=
  s.decode (.xmerge qa layer expert len) fun t => .task { t with qa := s.q qa } s

/-! ## The meanings -/

def execDefb (n : LBuf) (len : QLen) (s : State) : Out := .next (s.passDefb n len)
def execBindb (n : LBuf) (qa : QReg) (len : BitVec 32) (s : State) : Out := .next (s.passBindb n qa len)
def execRelb (n : LBuf) (s : State) : Out := .next (s.passRelb n)
def execLaunch (qa : QReg) (s : State) : Out := .next (s.passLaunch qa)
def execCopyt (whole : Bool) (dst : LBuf) (qa : QReg) (src : LBuf) (qb : QReg) (len : BitVec 32) (s : State) : Out :=
  .next (s.passCopyt whole dst qa src qb len)
def execFill (whole : Bool) (dst : LBuf) (qa qb : QReg) (len : BitVec 32) (s : State) : Out := .next (s.passFill whole dst qa qb len)
def execJmp (t : JTarget) (s : State) : Out := .next (s.passJmp t)
def execStreamCall (t : JTarget) (s : State) : Out := .next (s.passCall t)
def execStreamRet (s : State) : Out := .next s.passRet
def execBrq (c : QCond) (qa : QReg) (y : QSrc) (off : BitVec 32) (s : State) : Out := .next (s.passBrq c qa y off)
def execWhen (c : QCond) (x : WhenSrc) (qb : QReg) (n : BitVec 16) (s : State) : Out := .next (s.passWhen c x qb n)
def execLoop (qa : QReg) (off : BitVec 32) (s : State) : Out := .next (s.passLoop qa off)
def execFfence (s : State) : Out := .next s.passFfence
def execLdq (sz : QSize) (sx : Bool) (qa qb : QReg) (disp : BitVec 32) (s : State) : Out := .next (s.passLdq sz sx qa qb disp)
def execStq (sz : QSize) (qa qb : QReg) (disp : BitVec 32) (s : State) : Out := .next (s.passStq sz qa qb disp)
def execAluq (op : QOp) (qa qb : QReg) (y : QSrc) (s : State) : Out := .next (s.passAluq op qa qb y)
def execMovq (qa : QReg) (src : MovSrc) (s : State) : Out := .next (s.passMovq qa src)
def execHalt (s : State) : Out := .next s.passHalt
def execWaits (sc : Scope) (qa qb : QReg) (us : BitVec 32) (s : State) : Out := .next (s.passWaits sc qa qb us)
def execSignal (sc : Scope) (add : Bool) (qa qb : QReg) (s : State) : Out := .next (s.passSignal sc add qa qb)
def execMark (qa : QReg) (s : State) : Out := .next (s.passMark qa)
def execHostint (vec : BitVec 8) (s : State) : Out := .next (s.passHostint vec)
def execPrio (level : Fin 16) (s : State) : Out := .next (s.passPrio level)
def execDetm (on : Bool) (s : State) : Out := .next (s.passDetm on)
def execGdef (qa : QReg) (s : State) : Out := .next (s.passGdef qa)
def execGstep (qa qb : QReg) (s : State) : Out := .next (s.passGstep qa qb)
def execXdef (qa : QReg) (layer : BitVec 8) (count : BitVec 32) (s : State) : Out := .next (s.passXdef qa layer count)
def execXfill (qa : QReg) (layer : BitVec 8) (expert : BitVec 10) (die : Fin 8) (len : BitVec 32) (s : State) : Out :=
  .next (s.passXfill qa layer expert die len)
def execXpin (off : Bool) (layer : BitVec 8) (expert : BitVec 10) (die : Fin 8) (s : State) : Out :=
  .next (s.passXpin off layer expert die)
def execXmerge (qa : QReg) (layer : BitVec 8) (expert : BitVec 10) (len : BitVec 32) (s : State) : Out :=
  .next (s.passXmerge qa layer expert len)

/-! ## Passing -/

/-- The S instructions, for the steps that pass a waiting instruction again. -/
def passInstr (i : Instr) (s : State) : Out :=
  match i with
  | .defb n len => .next (s.passDefb n len)
  | .bindb n qa len => .next (s.passBindb n qa len)
  | .relb n => .next (s.passRelb n)
  | .launch qa => .next (s.passLaunch qa)
  | .copyt w d qa b qb len => .next (s.passCopyt w d qa b qb len)
  | .fill w d qa qb len => .next (s.passFill w d qa qb len)
  | .jmp t => .next (s.passJmp t)
  | .streamCall t => .next (s.passCall t)
  | .streamRet => .next s.passRet
  | .brq c qa y off => .next (s.passBrq c qa y off)
  | .when c x qb n => .next (s.passWhen c x qb n)
  | .loop qa off => .next (s.passLoop qa off)
  | .ffence => .next s.passFfence
  | .ldq sz sx qa qb disp => .next (s.passLdq sz sx qa qb disp)
  | .stq sz qa qb disp => .next (s.passStq sz qa qb disp)
  | .aluq op qa qb y => .next (s.passAluq op qa qb y)
  | .movq qa x => .next (s.passMovq qa x)
  | .halt => .next s.passHalt
  | .waits sc qa qb us => .next (s.passWaits sc qa qb us)
  | .signal sc add qa qb => .next (s.passSignal sc add qa qb)
  | .mark qa => .next (s.passMark qa)
  | .hostint v => .next (s.passHostint v)
  | .prio l => .next (s.passPrio l)
  | .detm on => .next (s.passDetm on)
  | .gdef qa => .next (s.passGdef qa)
  | .gstep qa qb => .next (s.passGstep qa qb)
  | .xdef qa l c => .next (s.passXdef qa l c)
  | .xfill qa l e d len => .next (s.passXfill qa l e d len)
  | .xpin off l e d => .next (s.passXpin off l e d)
  | .xmerge qa l e len => .next (s.passXmerge qa l e len)
  | _ => .next s

/-- The copy at the stream's address. -/
def Stream.copyHere (x : Stream) : Option Fetched :=
  match x.run.find? fun c => c.1 == x.ctx.pc with
  | some c => some c.2
  | none => none
/-- Pass the instruction at the stream's address: its fetch fault first, then the checks of R58, then its meaning. DESIGN
CHOICE (log entry 49): SDADDR of a fetch fault is 0. -/
def State.passCopy (run : Instr → State → Out) (s : State) : Out :=
  match s.cst.copyHere with
  | none => .next (s.refetch s.cst.ctx.pc)
  | some (.fault c) => .next (s.faultEntry 0 c 0)
  | some (.word n) => match parseS n with
    | .ok i true => run i s
    | .ok _ false => .next (s.faultEntry (fld n 24 8) 0x02 0)
    | _ => .next (s.faultEntry (fld n 24 8) 0x01 0)
/-- What waits at a stream's address: a front-end access, or an entry for the window (R63, R87). -/
def Stream.accessWaits (x : Stream) : Bool :=
  x.state == .running && x.waiting && !x.halt && !x.stuck && match x.copyHere with
    | some (.word n) => (match parseS n with
      | .ok (.ldq _ _ _ _ _) true => true
      | .ok (.stq _ _ _ _) true => true
      | .ok (.when _ (.mem _ _) _ _) true => true
      | _ => false)
    | _ => false
def Stream.entryWaits (x : Stream) : Bool := x.state == .running && x.waiting && !x.halt && !x.stuck && !x.accessWaits
/-- Streams of a partition that wait to decode and have room, in the order of R87: priority, then in rotation. -/
def State.waiters (s : State) (part turn : Nat) : List Nat :=
  let order := tab 16 fun i => (turn + 1 + i) % 16
  let able := order.filter fun k => match s.stream (part * 16 + k) with
    | some x => x.entryWaits && s.windowRoom part k
    | none => false
  let prio (k : Nat) : Nat := ((s.stream (part * 16 + k)).map fun x => x.ctx.prio).getD 0
  (List.range 16).reverse.flatMap fun p => able.filter fun k => prio k == p
/-- The front end passes its next instruction. Where another stream waits for an entry of the window, an instruction that
needs one takes its place behind it (R87). -/
def State.frontFocused (run : Instr → State → Out) (s : State) : Out :=
  let c := s.cst
  if c.state != .running || c.waiting || c.halt || c.stuck then .next s
  else
    let needs := match s.cst.copyHere with
      | some (.word n) => (match parseS n with
        | .ok i true => i.isTask
        | _ => true)
      | some (.fault _) => true
      | none => false
    if needs && !(s.waiters s.cpId s.cp.turn).isEmpty then .next s.hold else s.passCopy run
/-- A turn of a front end. -/
def State.frontStep (run : Instr → State → Out) (s : State) (part k : Nat) : Out :=
  match s.focusStream part k with
  | some t => Out.commit (t.frontFocused run)
  | none => .next s

/-- FRONT_END_ACCESS: every older task has retired, and the access is made (R63). -/
def execFrontEndAccess (part stream : Nat) (s : State) : Out :=
  match s.focusStream part stream with
  | some t => if t.cst.accessWaits && t.inWindow part stream == 0 then Out.commit (t.passCopy passInstr) else .next s
  | none => .next s
/-- Pass again the instruction of the first stream that can go on. -/
def State.tryDecode (s : State) (part : Nat) : List Nat → State
  | [] => s
  | k :: ks =>
    match s.focusStream part k with
    | none => s.tryDecode part ks
    | some t => match t.passCopy passInstr with
      | .next u => if u.cst.waiting then s.tryDecode part ks else u.commit
      | _ => s
/-- DECODE_AFTER_WAIT (R74, R87). -/
def execDecodeAfterWait (part : Nat) (s : State) : Out :=
  .next (s.tryDecode part (s.waiters part (((s.part part).map Part.turn).getD 15)))

end Sys2Proof.Machine
end

