-- ==== Sys2Proof/Machine/Task.lean ====
section
/-! DEFINITION. The Loupe: the commands of a stream (R52 to R54), issue, completion, retirement, faults, squashing and
resumption (R85 to R99, R105, R327, R387 to R389). -/

namespace Sys2Proof.Machine

/-! ## The end of tasks and squashing (R94) -/

/-- Grids that have completed end the refusals that waited for them (R348). -/
def State.endRefusals (s : State) (tasks : List Nat) : State :=
  s.aids.foldl (fun (t : State) (id, a) => match a.refusal with
    | none => t
    | some l =>
      let rest := l.filter fun k => !tasks.contains k
      if rest.isEmpty then t.freeSlot id else { t with aids := t.aids.ins id { a with refusal := some rest } }) s
/-- The tasks of a stream, oldest first. -/
def State.streamTasks (s : State) (part stream : Nat) : List (Nat × Task) :=
  List.filter (fun (_, t) => t.part == part && t.stream == stream) s.tasks
/-- Fills of tasks that are squashed stop, and the die is absent again (R283). -/
def State.stopFills (s : State) (ids : List Nat) : State :=
  let dead (f : Nat × Nat × Nat × Nat × Option Nat) : Bool := match f.2.2.2.2 with
    | some t => ids.contains t
    | none => false
  s.layers.foldl (fun (t : State) l => (l.fills.filter dead).foldl (fun (u : State) f => match u.layer l.part l.num with
    | some m => u.changed { m.updExpert f.1 fun x => { x with state := x.state.set f.2.1 .absent } with
        fills := m.fills.filter fun g => !dead g } f.1
    | none => u) t) s
/-- The exchanges of GDEF tasks that are squashed stop (R94, R269). -/
def State.stopExchanges (s : State) (ids : List Nat) : State :=
  { s with mirrors := s.mirrors.mapAll fun _ r => match r.task with
    | some t => if ids.contains t then r.stop else r
    | none => r }
/-- Squash every task of a stream: their work ends, what they took goes back, and no marker acts. -/
def State.squash (s : State) (part stream : Nat) : State :=
  let ts := s.streamTasks part stream
  let ids := ts.map (·.1)
  let t := ((s.killBlocks (ids.flatMap s.taskBlocks)).stopFills ids).stopExchanges ids
  let u := t.updPart part fun P => P.giveBack (ts.flatMap fun x => x.2.took)
  let v : State := { u with tasks := List.filter (fun (id, _) => !ids.contains id) u.tasks }
  v.endRefusals ids
/-- The stream stops with nothing fetched. -/
def Stream.stop (x : Stream) (st : StreamState) : Stream :=
  { x with state := st, halt := false, stuck := false, waiting := false, again := false, run := [] }
/-- Buffers from DEFB or renaming that a stream maps. -/
def StreamCtx.bufs (c : StreamCtx) : List Buf := c.map.toList.flatMap Buf.owned

/-! ## The commands (R52, R54, R95, R389) -/

/-- The host's access reaches a partition's registers while the partition exists (R396, R400). -/
def State.hostStream (s : State) (part stream : Nat) (f : State → State) : State :=
  if s.hostReach part then s.onStream part stream f else s
/-- SCMD_START. What the stream does observes every host write performed before (R329). DESIGN CHOICE (log entry 7): SFADDR
and SDADDR are cleared too. -/
def execScmdStart (part stream : Nat) (addr : BitVec 60) (s : State) : Out :=
  .next (s.hostStream part stream fun t =>
    if t.cst.state != .idle && t.cst.state != .halted then t
    else
      let u : State := { t with cp := t.cp.giveBack t.cst.ctx.bufs, cst := { Stream.empty with state := .running, began := t.wclock, past := t.cst.past } }
      u.refetch (16 * addr.toNat))
/-- SCMD_RESUME (R95, R329). -/
def execScmdResume (part stream : Nat) (s : State) : Out :=
  .next (s.hostStream part stream fun t =>
    if t.cst.state != .faulted then t
    else ({ t with cst := { t.cst.stop .running with cause := 0, opc := 0, began := t.wclock } } : State).refetch t.cst.ctx.pc)
/-- SCMD_ABORT. -/
def execScmdAbort (part stream : Nat) (s : State) : Out :=
  .next (match s.stream (part * 16 + stream), s.part part with
    | some x, some _ =>
      if !s.hostReach part || (x.state != .running && x.state != .halted && x.state != .faulted) then s
      else
        let ctx := match s.streamTasks part stream with
          | (_, t) :: _ => t.resume
          | [] => x.ctx
        let t := (s.squash part stream).updPart part fun P => P.giveBack ctx.bufs
        t.updStream (part * 16 + stream) fun x =>
          { x.stop .aborting with cause := 0, opc := 0, ctx := { ctx with map := Vector.replicate 64 none } }
    | _, _ => s)
/-- A write of the partition that groups sent which have been ended since has not been performed: it is on its way, or a core
combines it. -/
def State.orphansOut (s : State) (part : Nat) : Bool :=
  let gone (o : Owner) : Bool := (s.group o.grp).isNone
  (s.reqs.any fun (_, q) => q.part == part && !q.status.over_ &&
    if q.owners.isEmpty then (s.group q.grp).isNone else q.owners.any gone) ||
  s.cores.any fun (_, c) => c.part == some part && c.wcb.any fun e => e.owners.any gone
/-- ABORT_COMPLETE: what the stream's work had sent has been performed. -/
def execAbortComplete (part stream : Nat) (s : State) : Out :=
  .next (match s.stream (part * 16 + stream) with
    | some x =>
      if x.state != .aborting || s.orphansOut part then s
      else s.updStream (part * 16 + stream) fun x => { x with state := .idle }
    | none => s)

/-! ## What a task waits for (R73, R85, R86, R88) -/

/-- Two regions share a byte. -/
def Region.meets (a b : Region) : Bool :=
  (List.range a.rows).any fun i => b.hits (a.buf.base + a.off + i * a.stride) a.len
/-- T depends on an older task U (R85). Whether overlapping ranges of different bases are one physical buffer is open: `loose`
(log entry 50). -/
def Task.dependsOn (t u : Task) (loose : Bool) : Bool :=
  t.foot.any fun a => u.foot.any fun b => (a.mode != 0 || b.mode != 0) && a.meets b && (a.buf.base == b.buf.base || loose)
/-- The kinds of R86. -/
inductive Kind where | free | commit | order | marker
  deriving DecidableEq, Repr
def Task.kind (t : Task) : Kind :=
  match t.instr with
  | .launch _ | .copyt _ _ _ _ _ _ | .fill _ _ _ _ _ =>
    if t.foot.all fun r => r.mode == 0 || (r.mode == 3 && r.buf.cls.isSome) then .free else .commit
  | .waits _ _ _ _ | .gdef _ | .gstep _ _ | .xdef _ _ _ | .xfill _ _ _ _ _ | .xpin _ _ _ _ | .xmerge _ _ _ _ => .order
  | _ => .marker
def Task.good (t : Task) : Bool := t.state == .complete && t.cause.isNone
/-- An XMERGE of the expert holds XPIN and XFILL of it back, and XDEF of its layer (R286). -/
def State.mergeHolds (s : State) (t : Task) : Bool :=
  match t.instr with
  | .xfill _ l e _ _ => s.merging t.part l.toNat e.toNat
  | .xpin _ l e _ => s.merging t.part l.toNat e.toNat
  | .xdef _ l _ => (List.range 1024).any fun e => s.merging t.part l.toNat e
  | _ => false
/-- A task may issue. -/
def State.mayIssue (s : State) (id : Nat) (t : Task) : Bool :=
  let older := List.filter (fun (k, _) => k < id) (s.streamTasks t.part t.stream)
  t.state == .waiting && t.cause.isNone && !s.mergeHolds t &&
  older.all (fun (_, u) => u.kind != .order || u.state == .complete) &&
  match t.kind with
  | .marker => true
  | .free => older.all fun (k, u) => !t.dependsOn u (s.freeAt (2 ^ 40 + k) % 2 == 1) || u.good
  | .commit | .order => older.all fun (_, u) => u.good
/-- The task that issues next: the highest priority, then the one decoded first. -/
def firstReady : List (Nat × Task) → Option (Nat × Task)
  | [] => none
  | x :: xs => match firstReady xs with
    | some y => some (if x.2.prio < y.2.prio then y else x)
    | none => some x

/-! ## Issue (R81, R83, R84, R92, R98, R99, R105, R109, R115) -/

/-- A task ends at its issue with a fault. -/
def State.failTask (s : State) (id cause daddr : Nat) : State := s.endWork (some id) (some (cause, daddr))
/-- The CODE_OBJECT and BAD_OPERAND checks of R105 that the header itself does not decide, and then the loss of a die to which some
of the grid would be dealt and that no spare has replaced (R81, R386). DESIGN CHOICE (log entry 59): the order in which the three
causes are looked for is open; CODE_OBJECT comes before BAD_OPERAND, and both before DIE_LOST. Whether a gang launch can ever be admitted is asked of the reserved
cores when they are idle, whatever marks them or their die as leaving now (R115, R384). -/
def State.launchFault (s : State) (t : Task) (h : Hdr) (P : Part) : Option Nat :=
  let cores := (List.range P.dies.length).flatMap fun d => s.partCores t.part (P.physDie d)
  let blocks := t.gdx * t.gdy * t.gdz
  let units := blocks / h.gang
  let cap (d : Nat) : Nat := if h.cluster == 0 then 1 else s.gangCap t.part (P.physDie d) h.cluster
  let held := cores.filter fun c => (s.core c).reserved
  let dealt := deal units P.dies.length h.gang cap
  if t.det && !h.detok then some 0x25
  else if cores.isEmpty || !Room.idle.fits h then some 0x25
  else if h.cluster != 0 && (List.range P.dies.length).all fun d => cap d == 0 then some 0x25
  else if blocks % h.gang != 0 then some 0x20
  else if t.gang && (16 * held.length < units ||
    (s.gangFit (fun c => (s.core c).reserved) t.part h (fun _ => Room.idle) [] (dealt.flatMap fun x =>
      tab x.left fun i => (x.next + i, x.die))).isNone) then some 0x20
  else if dealt.any fun x => (s.die (P.physDie x.die)).state == .failed then some 0x27
  else none
/-- The regions that a task writes (R82). -/
def Task.declares (t : Task) : List Region := t.foot.filter fun r => r.mode != 0
/-- The tasks that a task depends on, with what they declared to write: those of its stream's window, and those that have retired
(R85, R327). -/
def State.depsOf (s : State) (id : Nat) (t : Task) : List (Nat × List Region) :=
  let now := (s.streamTasks t.part t.stream).filterMap fun x => if x.1 < id then some (x.1, x.2.declares) else none
  let past := ((s.stream (t.part * 16 + t.stream)).map Stream.past).getD []
  (past ++ now).filter fun d => t.foot.any fun a => d.2.any fun b => a.meets b
/-- The grid of a LAUNCH as it is issued to the distributors (R109). -/
def State.issueGrid (s : State) (id : Nat) (t : Task) (h : Hdr) (P : Part) : Grid :=
  let cap (d : Nat) : Nat := if h.cluster == 0 then 1 else s.gangCap t.part (P.physDie d) h.cluster
  { hdr := h, gdx := t.gdx, gdy := t.gdy, gdz := t.gdz, det := t.det, gangL := t.gang, admitted := false,
    cls := t.ecls.getD h.energy, gran := deal (t.gdx * t.gdy * t.gdz / h.gang) P.dies.length h.gang cap, order := s.nextId,
    claim := 0, defer_ := [], steals := [], retired := 0, failed := false, storeErr := none, lost := false,
    launched := s.wclock, began := ((s.stream (t.part * 16 + t.stream)).map Stream.began).getD 0, killed := [], struck := [],
    deps := s.depsOf id t }
def State.issueLaunch (s : State) (id : Nat) (t : Task) : State :=
  match s.readSeen t.part t.code 64 with
  | (.error c, u) => u.failTask id c t.code
  | (.ok bs, u) => match Hdr.parse t.code bs, u.part t.part with
    | some h, some P => (match u.launchFault t h P with
      | some c => u.failTask id c 0
      | none => ({ u with nextId := u.nextId + 1 } : State).updTask id fun T => { T with grid := some (u.issueGrid id t h P) })
    | _, _ => u.failTask id 0x25 0
/-- The read of WAITS at its home (R92). -/
def State.issueWaits (s : State) (id : Nat) (t : Task) : State :=
  match s.reach t.part t.qa 8 true false with
  | .error c => s.failTask id c t.qa
  | .ok (.dev _) => (match s.readAs t.part t.qa 8 with
    | (.error c, u) => u.failTask id c t.qa
    | (.ok bs, u) => if t.qb ≤ ofBytes bs then u.endWork (some id) none else u)
  | .ok _ => s.failTask id 0x06 t.qa
def State.issueXmerge (s : State) (id : Nat) (t : Task) (layer expert len : Nat) : State :=
  match s.layer t.part layer with
  | none => s.failTask id 0x0D 0
  | some l => match l.experts[expert]? with
    | none => s.failTask id 0x20 0
    | some x => if len == 0 || len % 4 != 0 then s.failTask id 0x0D 0
      else s.updTask id fun T => { T with frame := x.list }
/-- A task that Prism carries out at its issue. -/
def State.prismTask (id : Nat) (r : Option (Nat × Nat) × State) : State := r.2.endWork (some id) r.1
/-- What issuing a task does. -/
def State.start (s : State) (id : Nat) (t : Task) : State :=
  match t.instr with
  | .launch _ => s.issueLaunch id t
  | .waits _ _ _ _ => s.issueWaits id t
  | .gdef _ => (match s.gdefStart id t.part t.qa with
    | (some e, u) => u.endWork (some id) (some e)
    | (none, u) => u)
  | .gstep _ _ => if (s.gridOf t.part t.qa).isNone then s.failTask id 0x0D 0 else s
  | .xdef _ l c => State.prismTask id (s.xdef t.part t.qa l.toNat c.toNat)
  | .xfill _ l e d len => (match s.xfill id t.part t.qa l.toNat e.toNat d.val len.toNat with
    | (some e, u) => u.endWork (some id) (some e)
    | (none, u) => u)
  | .xpin off l e d => State.prismTask id (s.xpin t.part l.toNat e.toNat d.val off)
  | .xmerge _ l e len => s.issueXmerge id t l.toNat e.toNat len.toNat
  | .copyt _ _ _ _ _ _ | .fill _ _ _ _ _ => s
  | _ => s.updTask id fun T => { T with state := .complete }
/-- TASK_ISSUE. -/
def execTaskIssue (part : Nat) (s : State) : Out :=
  .next (match firstReady (List.filter (fun (id, t) => t.part == part && s.mayIssue id t) s.tasks) with
    | none => s
    | some (id, t) => (s.updTask id fun T => { T with state := .issued, since := s.now }).start id t)

/-! ## Completion (R83, R84, R90, R92, R97, R277, R327, R388) -/

/-- Read committed bytes one by one, or the address that failed. -/
def State.readBytes (s : State) (part va : Nat) : Nat → Except Nat (List Byte) × State
  | 0 => (.ok [], s)
  | n + 1 =>
    match s.readBytes part va n with
    | (.error a, t) => (.error a, t)
    | (.ok xs, t) => match t.readAs part (va + n) 1 with
      | (.error _, u) => (.error (va + n), u)
      | (.ok bs, u) => (.ok (xs ++ bs), u)
/-- COPYT and FILL, an ECC word of the destination at a time. -/
def State.copyBytes (s : State) (id : Nat) (t : Task) : Nat → Nat → Nat → Run
  | 0, _, _ => .ok s
  | fuel + 1, i, n =>
    if n ≤ i then .ok s
    else
      let d := t.dstAt + i
      let k := Nat.min (n - i) (32 - d % 32)
      let got := match t.instr with
        | .copyt _ _ _ _ _ _ => s.readBytes t.part (t.srcAt + i) k
        | _ => (.ok (tab k fun j => BitVec.ofNat 8 (t.qb / 2 ^ (8 * ((i + j) % 8)))), s)
      match got with
      | (.error a, u) => .bad u 0x0D a
      | (.ok bs, u) => match u.mirrorWrite t.part d k bs [] { Agent.forPart t.part with task := id } with
        | .ok v => v.copyBytes id t fuel (i + k) n
        | .bad v c pa => .bad (v.logLost t.part c d pa) c d
        | .hold v => .hold v
/-- A task completes, with or without a fault. -/
def State.complete (s : State) (id : Nat) (fault : Option (Nat × Nat)) : State :=
  s.updTask id fun T => { T with state := .complete, cause := fault.map (·.1), daddr := (fault.map (·.2)).getD 0 }
/-- The work of a task ends as its accesses did: without fault, with ENGINE_FAULT at the address that failed, or not yet. -/
def State.completeRun (s : State) (id : Nat) : Run → State
  | .ok t => t.complete id none
  | .bad t _ a => t.complete id (some (0x0D, a))
  | .hold t => s.ruledAs t
/-- TASK_COMPLETE: the work of an issued task other than a running grid has ended. -/
def State.taskComplete (s : State) (id : Nat) (t : Task) : State :=
  if t.state != .issued then s
  else if t.met then s.complete id (t.cause.map fun c => (c, t.daddr))
  else match t.instr with
    | .copyt _ _ _ _ _ len => s.completeRun id (s.copyBytes id t len.toNat 0 len.toNat)
    | .fill _ _ _ _ len => s.completeRun id (s.copyBytes id t len.toNat 0 len.toNat)
    | .gdef _ => (match s.gridOf t.part t.qa with
      | none => s.complete id (some (0x0D, 0))
      | some (k, r) => match r.gdefEnd with
        | some (some a) => s.complete id (some (0x0D, a))
        | some none => (s.setGrid k r.ended).complete id none
        | none => s)
    | .gstep _ _ => (match s.gridOf t.part t.qa with
      | none => s.complete id (some (0x0D, 0))
      | some (_, r) => if r.reached (t.qb % 2 ^ 32) then s.complete id none else s)
    | .xmerge _ _ _ len => s.completeRun id (s.mergeAll t.part (t.frame.getD 0 nobody) t.qa len.toNat t.frame.length (len.toNat / 4))
    | _ => s
def execTaskComplete (task : Nat) (s : State) : Out :=
  .next (match s.tasks.find task with
    | some t => s.taskComplete task t
    | none => s)
/-- WAITS_TIMEOUT. -/
def execWaitsTimeout (task : Nat) (s : State) : Out :=
  .next (match s.tasks.find task with
    | some t => (match t.instr with
      | .waits _ _ _ us =>
        if t.state == .issued && !t.met && us.toNat != 0 && t.since + us.toNat * usec ≤ s.now then s.complete task (some (0x0F, 0)) else s
      | _ => s)
    | none => s)

/-- Every write of a grid's work has been performed, and its sends have their status (R327). -/
def State.gridQuiet (s : State) (task : Nat) (g : Grid) : Bool :=
  let blks := s.taskBlocks task ++ g.killed
  let mine (q : Req) : Bool := blks.contains q.blk || q.owners.any fun o => blks.contains o.blk
  (s.reqs.all fun (_, q) => q.status == .done || !mine q) &&
  (s.cores.all fun (_, c) => c.wcb.all fun e => !e.owners.any fun o => blks.contains o.blk) &&
  (s.sends.all fun (_, c) => !blks.contains c.blk || c.status.isSome || c.grp == nobody) &&
  (s.copies.all fun (_, c) => !blks.contains c.blk) &&
  s.mirrors.all fun (_, r) => r.captures.all fun c => c.task != task || c.left.all fun p => (r.ready p).isNone
/-- How a grid's task ends (R81, R386). DESIGN CHOICE (log entry 27): where a group was ended as failed and a store of a retired
block failed as well, the cause is MEM_ERROR. -/
def Grid.fault (g : Grid) : Option (Nat × Nat) :=
  if g.lost then some (0x27, 0) else match g.storeErr with
    | some a => some (0x07, a)
    | none => if g.failed then some (0x26, 0) else none
/-- GRID_COMPLETE (R327, R388). The blocks of a grid that lost work on a die end with it (log entry 27); the task completes once
what they had sent has been performed. -/
def execGridComplete (task : Nat) (s : State) : Out :=
  .next (match s.tasks.find task with
    | none => s
    | some t => match t.grid with
      | none => s
      | some g =>
        let blks := s.taskBlocks task
        if t.state != .issued then s
        else if g.lost && !blks.isEmpty then
          (s.killBlocks blks).updTask task fun T => { T with grid := some { g with killed := g.killed ++ blks } }
        else if !(g.lost || g.retired == g.blocks) || !s.gridQuiet task g then s
        else ((s.killBlocks blks).complete task g.fault).endRefusals [task])

/-! ## Retirement (R90, R91, R328, R401) -/

/-- Raise a vector of a partition: the masking and pending rules of PCIe; nothing on a link that is down. -/
def State.raiseVector (s : State) (part n : Nat) : State :=
  match s.part part with
  | none => s
  | some P =>
    if !((s.links[P.link]?).getD false) then s
    else
      let e := (P.msix.find n).getD ⟨0, 0, true, false⟩
      if e.mask then s.updPart part fun P => { P with msix := P.msix.ins n { e with pend := true } }
      else { s with sent := s.sent ++ [(P.link, part, e.addr, e.data)] }
/-- The write of SIGNAL (R91). A host may reject the AtomicOp: a free choice. -/
def State.signalWrite (s : State) (part va v : Nat) (add : Bool) : MWrite :=
  if !add then s.mirrorWrite part va 8 (toBytes 8 v) []
  else
    let by_ := Agent.forPart part
    match s.reach part va 8 true true with
    | .error c => .bad s c (s.walkFault part va)
    | .ok loc =>
      let k := s.keepWalk part va
      if s.heldPage loc then .hold s
      else if !k.homeUp loc then .bad k 0x07 loc.phys
      else match loc with
        | .dev pa => (match k.eccRead part noAgent noPc va pa 8 with
          | (false, t) => .bad t 0x07 pa
          | (true, t) => .ok (t.cleanAtomic pa 8 (.add v) by_).2)
        | .host l ba =>
          if k.freeAt 0 % 2 = 1 then .bad (k.spend 1) 0x07 ba
          else .ok ((k.writeHost l ba by_ (someBytes (toBytes 8 (ofBytes (k.hostBytes l ba 8) + v)))).spend 1)
        | _ => .bad k 0x06 0
/-- The stream enters faulted: every task of it is squashed, and it stands at a resume point (R93, R94). -/
def State.enterFault (s : State) (part stream : Nat) (cause opc sfaddr sdaddr : Nat) (ctx : StreamCtx) : State :=
  (s.squash part stream).updStream (part * 16 + stream) fun x =>
    { x.stop .faulted with cause := cause, opc := opc, sfaddr := sfaddr, sdaddr := sdaddr, ctx := ctx }
/-- A marker's action, or nothing; none where the write of a SIGNAL has to wait at its home. -/
def State.markerAct (s : State) (t : Task) : Option State :=
  match t.instr with
  | .signal _ add _ _ => (match s.signalWrite t.part t.qa t.qb add with
    | .hold _ => none
    | .ok u => some u
    | .bad u c pa => some <|
      (u.logPart t.part ⟨11, c, 0, noAgent, t.qa, pa, noPc, 0⟩).enterFault t.part t.stream c 0x21 t.addr t.qa
        { t.resume with pc := (t.addr + 16) % 2 ^ 64 })
  | .mark _ => some (s.updStream (t.part * 16 + t.stream) fun x => { x with mark := BitVec.ofNat 64 t.qa })
  | .hostint v => some (s.raiseVector t.part v.toNat)
  | _ => some s
/-- After the last task of a stream that has passed HALT (R65). -/
def State.haltDone (s : State) (part stream : Nat) : State :=
  if s.inWindow part stream != 0 then s
  else s.updStream (part * 16 + stream) fun x => if x.halt && x.state == .running then x.stop .halted else x
/-- SIGNAL and HOSTINT come after every write of the older tasks of their stream: those too that blocks had sent which were ended
with a task that has run again since (R91, R328). -/
def Task.comesAfter (t : Task) : Bool :=
  match t.instr with
  | .signal _ _ _ _ | .hostint _ => true
  | _ => false
/-- TASK_RETIRE. -/
def execTaskRetire (part stream : Nat) (s : State) : Out :=
  .next (match s.streamTasks part stream with
    | [] => s
    | (id, t) :: _ =>
      if !t.good || (t.comesAfter && s.orphansOut part) then s
      else
        let past (x : Stream) : Stream := if t.declares.isEmpty then x else { x with past := x.past ++ [(id, t.declares)] }
        let u := ({ s with tasks := s.tasks.del id } : State).updStream (part * 16 + stream) past
        match (u.updPart part fun P => P.giveBack t.give).markerAct t with
        | some v => v.haltDone part stream
        | none => s)

/-! ## Faults (R93 to R96) -/

/-- None of the task's declared writes is a byte of its own read regions, and it has no read-write entry. -/
def Task.reissuable (t : Task) : Bool :=
  t.foot.all fun a => a.mode != 2 && (a.mode == 0 || t.foot.all fun b => b.mode != 0 || !a.meets b)
/-- No logical die of the partition names a die that is lost. -/
def State.remapped (s : State) (part : Nat) : Bool :=
  match s.part part with
  | some P => P.dies.all fun d => (s.die d).state == .active
  | none => false
/-- The Loupe resumes a task itself (R96). -/
def State.selfResume (s : State) (t : Task) : Bool :=
  t.cause == some 0x27 && t.reissuable && !t.lostOnce && s.remapped t.part
/-- STREAM_FAULT: the faulted task is the oldest of its stream. -/
def execStreamFault (part stream : Nat) (s : State) : Out :=
  .next (match s.streamTasks part stream with
    | [] => s
    | (_, t) :: _ => match t.cause with
      | none => s
      | some c =>
        if t.state != .complete || s.selfResume t then s
        else s.enterFault part stream c t.opc t.addr t.daddr t.resume)
/-- DIE_LOST_RESUME. -/
def execDieLostResume (part stream : Nat) (s : State) : Out :=
  .next (match s.streamTasks part stream with
    | [] => s
    | (_, t) :: _ =>
      if t.state != .complete || !s.selfResume t then s
      else
        let u := s.squash part stream
        u.onStream part stream fun v =>
          ({ v with cst := { v.cst.stop .running with ctx := t.resume } } : State).refetch t.resume.pc |> fun w =>
            { w with cst := { w.cst with again := true } })

end Sys2Proof.Machine
end

