-- ==== Sys2Proof/Machine/Migrate.lean ====
section
/-! DEFINITION. Moving pages and forgetting translations: TLBINV (R212), and the phases of a migration (R216, R217, R398). -/

namespace Sys2Proof.Machine

/-! ## What a partition's page table holds -/

/-- A leaf or a table as a walk finds it: where its entry lies (none for the root, which PTROOT names), the first virtual
address it serves, its own address and size, and whether it is a leaf of device memory. -/
structure Mapped where
  at_  : Option Nat
  va   : Nat
  pa   : Nat
  size : Nat
  leaf : Bool
  deriving DecidableEq, Repr
/-- Everything below a table. -/
def State.mappedFrom (s : State) (part va table : Nat) : List (Nat × Nat × Nat) → List Mapped
  | [] => []
  | (_, sh, w) :: rest =>
    (List.range (2 ^ w)).flatMap fun i =>
      let e := ofBytes (s.devBytes (table + 8 * i) 8)
      let here := va + i * 2 ^ sh
      let padr := bits e 51 8 * 256
      if !bit e 0 then []
      else if bit e 5 then
        (match s.walk part here with
          | .leaf l => if l.host then [] else [⟨some (table + 8 * i), here, l.pbase, l.size, true⟩]
          | _ => [])
      else if rest.isEmpty || bits e 7 6 != 0 || !s.paOk padr then []
      else
        let next := match rest with
          | (_, _, w2) :: _ => 8 * 2 ^ w2
          | [] => 0
        ⟨some (table + 8 * i), here, padr, next, false⟩ :: s.mappedFrom part here padr rest
/-- The leaves and tables of a partition. -/
def State.mapped (s : State) (part : Nat) : List Mapped :=
  match s.part part with
  | some P =>
    let root := bits P.ptroot.toNat 51 12 * 4096
    if P.ptroot.getLsbD 0 && s.paOk root then ⟨none, 0, root, 4096, false⟩ :: s.mappedFrom part 0 root walkLevels else []
  | none => []

/-! ## TLBINV (R212) -/

/-- Bytes of a range that a core still combines leave for their home. -/
def State.drainRange (s : State) (part : Nat) (r : Nat × Nat) : State :=
  s.cores.foldl (fun (t : State) (c, x) => if x.part == some part then t.drainWhere c fun e => e.owners.any fun o => inRange r o.va else t) s
/-- A write to TLBINV. -/
def State.invWrite (s : State) (part : Nat) (v : Nat) : State :=
  match s.part part with
  | none => s
  | some P =>
    if !s.hostReach part || P.tlbinv.getLsbD 0 || bits v 3 2 == 3 then s
    else
      let kept := bits v 56 16 * 2 ^ 16 + bits v 3 2 * 4 + b2n (bit v 0)
      let t := if bit v 0 then s.drainRange part (invRange v) else s
      t.updPart part fun P => { P with tlbinv := BitVec.ofNat 64 kept, invAt := t.nextId }
/-- No core, no walker and no parked word holds a translation of the range, and no walker any pointer (R212). -/
def State.forget (s : State) (part : Nat) (r : Nat × Nat) : State :=
  let out (l : Leaf) : Bool := l.part == part && l.vbase < r.1 + r.2 && r.1 < l.vbase + l.size
  { s with cores := s.cores.mapAll fun _ c => { c with tlb := c.tlb.filter fun l => !out l },
           ptes := s.ptes.filter fun p => p.part != part || (p.leaf && (r.1 + r.2 ≤ p.va || p.va + p.size ≤ r.1)),
           groups := s.groups.mapAll fun _ g => if g.part == part then { g with walked := [] } else g }
def execTlbinvPage (part va : Nat) (s : State) : Out := .next (s.invWrite part (va / 2 ^ 16 % 2 ^ 41 * 2 ^ 16 + 1))
def execTlbinvRegion (part va : Nat) (s : State) : Out := .next (s.invWrite part (va / 2 ^ 16 % 2 ^ 41 * 2 ^ 16 + 4 + 1))
def execTlbinvPartition (part : Nat) (s : State) : Out := .next (s.invWrite part (8 + 1))
/-- An access that has not been performed at its home, or a load that has not returned; an armed watch has been performed. -/
def Req.outstanding (q : Req) : Bool :=
  match q.kind with
  | .store _ | .fence => !q.status.over_
  | .watch _ _ => q.status != .held
  | _ => true
/-- A request reaches an address of a range; a drain may carry several words. -/
def Req.touches (q : Req) (r : Nat × Nat) : Bool :=
  if q.owners.isEmpty then inRange r q.va else q.owners.any fun o => inRange r o.va
/-- An access of the range that was translated before the invalidation is outstanding. Engines, the Loupe, Mirror, Prism and
the front ends translate in the step that performs their access. -/
def State.olderOut (s : State) (part before : Nat) (r : Nat × Nat) : Bool :=
  s.reqs.any fun (id, q) => q.part == part && id < before && q.touches r && q.outstanding
/-- TLBINV_COMPLETE. -/
def execTlbinvComplete (part : Nat) (s : State) : Out :=
  .next (match s.part part with
    | none => s
    | some P =>
      let r := invRange P.tlbinv.toNat
      if !P.tlbinv.getLsbD 0 || s.olderOut part P.invAt r then s
      else (s.forget part r).updPart part fun P => { P with tlbinv := P.tlbinv - 1 })

/-! ## Moving a page (R216) -/

/-- A move of device memory: the ranges that move (start, size), and where an address of the old place comes to lie. -/
structure Shift where
  ranges : List (Nat × Nat)
  old    : Nat
  new    : Nat
def Shift.page (old new size : Nat) : Shift := ⟨[(old, size)], old, new⟩
/-- The address moves. -/
def Shift.from_ (m : Shift) (a : Nat) : Bool := m.ranges.any fun r => inRange r a
/-- The address lies where something moves to. -/
def Shift.to_ (m : Shift) (a : Nat) : Bool := m.new ≤ a && m.from_ (m.old + (a - m.new))
/-- The place of an address after the move. -/
def Shift.addr (m : Shift) (a : Nat) : Nat := if m.from_ a then m.new + (a - m.old) else a
def Loc.move (l : Loc) (m : Shift) : Loc :=
  match l with
  | .dev pa => .dev (m.addr pa)
  | l => l
/-- A table of units of u bytes, with the moving units also in their new place, where nothing else remains. -/
def Shift.carry {α : Type} (m : Shift) (u : Nat) (t : Tab α) : Tab α :=
  (List.filter (fun (k, _) => m.from_ (k * u)) t).foldl (fun t x => t.ins (m.addr (x.1 * u) / u) x.2)
    (List.filter (fun (k, _) => !m.to_ (k * u)) t)
/-- Carry lines with their versions, watches and the cells that assumption units watch to their new homes; a word that has
failed for good stays lost; with `all`, requests on their way are carried too. -/
def State.move (s : State) (m : Shift) (all : Bool) : State :=
  { s with
    mem := m.carry 1 s.mem, wrote := m.carry 1 s.wrote,
    vers := List.filter (fun (l, _) => !m.from_ (l * 128)) (m.carry 128 s.vers),
    aids := s.aids.mapAll fun _ a => { a with cell := m.addr a.cell },
    ecc := (s.ecc.filter fun x => x.2 == .lasting || !m.from_ (x.1 * 32)).map fun x => (m.addr (x.1 * 32) / 32, x.2),
    reqs := s.reqs.mapAll fun _ q =>
      let armed := match q.kind, q.status with
        | .watch _ _, .held => true
        | _, _ => false
      if all || armed then { q with loc := q.loc.move m } else q }
/-- Every watch on a moved page is evaluated once (R216, R308, R344, R92). -/
def State.evalPage (s : State) (new size : Nat) : State :=
  (List.range (size / 128)).foldl (fun (t : State) i => t.committed (new / 128 + i)) s
/-- Write a leaf's or pointer's new address into its entry (R209). -/
def State.repoint (s : State) (entry new : Nat) : State :=
  let e := ofBytes (s.devBytes entry 8)
  s.storeClean entry (someBytes (toBytes 8 (bits e 63 52 * 2 ^ 52 + new + bits e 7 0)))
/-- A page of a size is free: no partition maps it or keeps a table in it, and no migration fills it or still has to free it. -/
def State.pageFree (s : State) (pa size : Nat) : Bool :=
  (s.parts.all fun (p, _) => (s.mapped p).all fun m => m.pa + m.size ≤ pa || pa + size ≤ m.pa) &&
  s.migs.all fun m => (m.new + m.size ≤ pa || pa + size ≤ m.new) && (m.old + m.size ≤ pa || pa + size ≤ m.old)
/-- Firmware's choice of a free page on a physical die: a free number, or the next free page after it. -/
def State.pickPage (s : State) (die size : Nat) : Option Nat :=
  let base := s.const.pkg * 2 ^ 42 + die * 2 ^ 39
  let count := 384 * 2 ^ 30 / size
  let k := s.freeAt 0
  let used := (s.parts.map fun (p, _) => (s.mapped p).length).foldl (· + ·) s.migs.length
  ((List.range (512 * (used + 1))).find? fun i => s.pageFree (base + (k + i) % count * size) size).map fun i =>
    base + (k + i) % count * size

/-! ## MIGCMD (R398) -/

/-- GO and ERR as a request ends. -/
def State.migEnd (s : State) (part : Nat) (err : Bool) : State :=
  s.updPart part fun P =>
    { P with migcmd := BitVec.ofNat 64 (bits P.migcmd.toNat 56 16 * 2 ^ 16 + b2n err * 2 ^ 15 + bits P.migcmd.toNat 3 1 * 2) }
/-- The page that MIGCMD names: the leaf, when the request is not refused. -/
def State.migLeaf (s : State) (part : Nat) (P : Part) : Option Leaf :=
  match s.walk part (bits P.migcmd.toNat 56 16 * 2 ^ 16) with
  | .leaf l => if l.host || P.dies.length ≤ bits P.migcmd.toNat 3 1 then none else some l
  | _ => none
/-- A leaf's page already has its home on the die that MIGCMD names. -/
def Part.migHome (P : Part) (l : Leaf) (pkg : Nat) : Bool :=
  bits l.pbase 47 42 == pkg && paDie l.pbase == P.physDie (bits P.migcmd.toNat 3 1)
/-- MIGCMD_GO: a write to MIGCMD. The migration itself is the leader's decision (R393). -/
def execMigcmdGo (part : Nat) (v : BitVec 64) (s : State) : Out :=
  .next (match s.part part with
    | none => s
    | some P =>
      if !s.hostReach part || P.migcmd.getLsbD 0 then s
      else
        let err := b2n (bit P.migcmd.toNat 15)
        let kept := bits v.toNat 56 16 * 2 ^ 16 + bits v.toNat 3 1 * 2
        if !v.getLsbD 0 then s.updPart part fun P => { P with migcmd := BitVec.ofNat 64 (kept + err * 2 ^ 15) }
        else
          let t := s.updPart part fun P => { P with migcmd := BitVec.ofNat 64 (kept + 1) }
          match t.part part with
          | none => t
          | some Q => match t.migLeaf part Q with
            | none => t.migEnd part true
            | some l => if Q.migHome l t.const.pkg then t.migEnd part false
              else { t with fw := { t.fw with held := t.fw.held ++ [.migrate part] } })
/-- The decision to migrate takes effect: the copying phase begins. -/
def State.migStart (s : State) (part : Nat) : State :=
  match s.part part with
  | none => s
  | some P => match s.migLeaf part P with
    | none => s.migEnd part true
    | some l =>
      if P.migHome l s.const.pkg then s.migEnd part false
      else match s.pickPage (P.physDie (bits P.migcmd.toNat 3 1)) l.size with
        | none => s.migEnd part true
        | some new => ({ s with migs := s.migs ++ [⟨part, l.vbase, l.size, l.pbase, new, false, false⟩] } : State).spend 1
/-- The migration that a partition's MIGCMD has under way; those that have switched may still have to finish. -/
def Migration.underWay (m : Migration) (part : Nat) : Bool := m.part == part && !m.switched
def State.updMig (s : State) (part : Nat) (f : Migration → Migration) : State :=
  { s with migs := s.migs.map fun m => if m.underWay part then f m else m }
/-- MIGRATION_FINAL: the old home holds what arrives from now on. -/
def execMigrationFinal (part : Nat) (s : State) : Out := .next (s.updMig part fun m => { m with final := true })
/-- The entry of the leaf that maps a page. -/
def State.entryOf (s : State) (part va : Nat) : Option Nat :=
  ((s.mapped part).find? fun x => x.leaf && x.va == va).bind Mapped.at_
/-- The reads of a page's copy meet its ECC words; each word whose read fails for good is logged (R235). -/
def State.pageReads (s : State) (part : Nat) (m : Migration) : State :=
  ((s.eccHits m.old m.size).filter fun x => x.2 == .lasting).foldl
    (fun t x => t.logPart part (lastingEntry noAgent noPc (m.va + (x.1 * 32 - m.old)) (x.1 * 32)))
    (s.eccRead part noAgent noPc m.va m.old m.size).2
/-- MIGRATION_SWITCH: the page has been copied, the leaf names its new home, and the old home answers "moved". -/
def execMigrationSwitch (part : Nat) (s : State) : Out :=
  .next (match s.migs.find? fun m => m.underWay part with
    | none => s
    | some m =>
      if !m.final then s
      else
        let moved := (s.pageReads part m).move (.page m.old m.new m.size) false
        let t := match moved.entryOf part m.va with
          | some e => moved.repoint e m.new
          | none => moved
        ((t.updMig part fun m => { m with switched := true }).evalPage m.new m.size).migEnd part false)
/-- What cores still combine for the old page of a migration leaves for its home. -/
def State.drainPage (s : State) (m : Migration) : State :=
  s.cores.foldl (fun (t : State) (c, _) => t.drainWhere c fun e => m.oldHas (.dev (e.line * 128))) s
/-- MIGRATION_DONE: the page's translations are gone, every access that used them has been performed, combined stores among
them, and the old storage is free (R216). -/
def execMigrationDone (part : Nat) (s : State) : Out :=
  .next (match s.migs.find? fun m => m.part == part && m.switched with
    | none => s
    | some m =>
      let t := s.drainPage m
      if t.reqs.any fun (_, q) => q.outstanding && m.oldHas q.loc then t
      else { t.forget part (m.va, m.size) with migs := t.migs.filter fun x => x != m })

end Sys2Proof.Machine
end

