-- ==== Sys2Proof/Machine/Preempt.lean ====
section
/-! DEFINITION. Interruption of blocks and dies: pre-emption and restore (R378 to R382, R265, R255), teardown (R383),
evacuation (R384, R385), abrupt loss (R386), and cores that move between partitions (R116). -/

namespace Sys2Proof.Machine

/-! ## Saving a block (R378 to R381) -/

/-- The blocks that are pre-empted or restored together: a block, or a gang without its retired members. -/
def State.company (s : State) (block : Nat) (b : Block) : List (Nat × Block) :=
  if b.hdr.cluster == 0 then [(block, b)]
  else match s.gangs.find b.gang with
    | some g => g.members.filterMap fun m => (s.blocks.find m).bind fun x => if x.retired then none else some (m, x)
    | none => [(block, b)]
/-- An outstanding write that pre-emption need not wait for: its request is withdrawn and stays outstanding (R381), or it
is the hold of a store that waits in the core for such a request, or it is a word that has its place among the block's queue
words or waits for its set, and goes on after the restore. -/
def State.rests (s : State) (b : Block) (gid : Nat) (f : Flight) : Bool :=
  match f.waits with
  | .watch | .pop _ | .xwait _ _ => true
  | .pass => (s.cluster (coreCluster b.core)).table.any fun e => e.grp == gid && e.seq == f.seq
  | .load => !f.dest.writes && (s.wordReqs gid f.seq).all fun (_, q) => !q.wait.isEmpty
  | .push _ _ | .init _ _ | .rule _ _ => true
  | _ => false
/-- The core still combines bytes of the block (R228). -/
def State.combining (s : State) (id : Nat) (b : Block) : Bool := (s.core b.core).wcb.any fun e => e.owners.any fun o => o.blk == id
/-- R379: no granted pass, no COPY, no XSEND without its status, no LDSH, no other outstanding write, and no combined bytes; a
RED form whose group waits for it has been performed. -/
def State.stops (s : State) (id : Nat) (b : Block) : Bool :=
  (((s.cluster (coreCluster b.core)).pass.map fun e => e.blk != id).getD true) &&
  (s.copies.all fun (_, c) => c.blk != id) && (s.sends.all fun (_, c) => c.blk != id || c.grp == nobody) && !s.combining id b &&
  (s.reqs.all fun (_, q) => q.blk != id || (match q.kind with
    | .shape _ => false
    | _ => true)) &&
  b.groups.all fun g => match s.groups.find g with
    | some G => G.out.all (s.rests b g) && (match G.park with
      | some (.performed q) => (s.wordReqs g q).all fun x => x.2.status.over_
      | _ => true)
    | none => true
/-- The parks that a saved group keeps (R381): a barrier's arrival stays counted, that of a group which waits for the handler first too, a trap still waits for the handler, and a group
whose lanes have exited still has to end. The others are withdrawn; of WAITCY, and of a RED form, whose accesses are over by
then, the word is complete. -/
def Park.kept : Park → Option Park
  | .bar g => some (.bar g)
  | .cbar g => some (.cbar g)
  | .trap => some .trap
  | .exiting f => some (.exiting f)
  | .barOff g => some (.barOff g)
  | .cbarOff g => some (.cbarOff g)
  | _ => none
/-- A group as it is saved. -/
def Group.save (g : Group) : Group := { g with park := g.park.bind Park.kept, rescued := false, base := 0, walked := [] }
/-- What takes the place of a tainted tile that has been saved: the tile it replaced is not valid, unless a denial puts it back
(log entry 25). -/
def Bank.absent (k : Bank) : Bank := { k with owner := nobody, bad := some 0x0D, codes := [], scales := none }
/-- A bank once its owner has been saved: what is saved, newest first, and what stays. -/
def splitBank (id : Nat) (held : List Bank) : List Bank × List Bank :=
  let rest := held.filter fun y => y.owner != id
  match held.head? with
  | some x => if x.owner == id then (held.filter fun y => y.owner == id, if rest.isEmpty then [] else x.absent :: rest) else ([], rest)
  | none => ([], [])
/-- A block is saved: its bank and its table entries go with it (R265, R255, R380). -/
def State.saveBlock (s : State) (id : Nat) (b : Block) : State :=
  let k := coreCluster b.core
  let c := s.cluster k
  let pos := corePhys b.core % 4
  let split := splitBank id ((c.banks.find pos).getD [])
  let c1 : Cluster := { c with banks := c.banks.ins pos split.2, table := c.table.filter fun e => e.blk != id }
  ({ s with
    clusters := if (s.clusters.find k).isSome then s.clusters.ins k c1 else s.clusters,
    groups := s.groups.mapAll fun g G => if b.groups.contains g then G.save else G,
    blocks := s.blocks.ins id { b with saved := true, bank := split.1, entries := c.table.filter fun e => e.blk == id } } : State).updCore
      b.core fun c => c.keepLeft b
/-- A firmware core leads. -/
def State.leading (s : State) : Bool := s.fw.loaded && s.fw.leads && !s.fw.take
/-- Step n of the evacuation of a die has been decided (R384, R393). -/
def State.evacAt (s : State) (die n : Nat) : Bool := match s.fw.evac with
  | some (d, _, k) => d == die && n ≤ k
  | none => false
/-- One of the four cases of R378. -/
def State.mayPreempt (s : State) (b : Block) : PreemptWhy → Bool
  | .evacuation => s.leading && s.evacAt (coreDie b.core) 2
  | .teardown => s.fw.tears.contains b.part
  | _ => true
/-- What a core still combines for some blocks leaves for its home. -/
def State.drainBlocks (s : State) (all : List (Nat × Block)) : State :=
  all.foldl (fun (t : State) x => t.drainWhere x.2.core fun e => e.owners.any fun o => o.blk == x.1) s
/-- PREEMPT: combined bytes leave first, and the block is saved once nothing keeps it. A block whose last group has exited waits
for its retirement instead, and its gang with it (R387). -/
def execPreempt (block : Nat) (why : PreemptWhy) (s : State) : Out :=
  .next (match s.blocks.find block with
    | none => s
    | some b =>
      let all := s.company block b
      if b.saved || b.retired || !s.mayPreempt b why || all.any (fun x => (s.liveGroups x.2).isEmpty) then s
      else
        let t := s.drainBlocks all
        if all.all fun x => t.stops x.1 x.2 then all.foldl (fun (u : State) x => u.saveBlock x.1 x.2) t else t)

/-! ## Restoring a block (R381, R382, R385) -/

/-- Granules that the groups of a block hold above their floors. -/
def State.aboveFloor (s : State) (b : Block) : Nat :=
  (b.groups.map fun g => match s.groups.find g with
    | some G => G.granule * (G.phys.length - b.hdr.floor)
    | none => 0).foldl (· + ·) 0
/-- A core that takes a saved block back: R107, R116, room in its pool beyond the reserve, and no granted pass that still reads
its bank (R255, R261). -/
def State.takesBack (s : State) (b : Block) (core : Nat) : Bool :=
  let gang := ((s.tasks.find b.task).bind Task.grid).map Grid.gangL
  let r := s.room core
  s.accepts b.part core b.prio (gang.getD false) && r.fits b.hdr &&
  s.aboveFloor b + Nat.max r.rescue b.hdr.rescueNeed + b.hdr.need ≤ r.free &&
  ((s.cluster (coreCluster core)).pass.map fun e => e.core != core).getD true &&
  (s.cluster (coreCluster core)).table.length + b.entries.length ≤ 16
/-- The cores on which blocks are restored together: the core named, or for a gang cores of its cluster. -/
def State.coresFor (s : State) (all : List (Nat × Block)) (core : Nat) : Option (List Nat) :=
  match all with
  | [] => none
  | (_, b) :: _ =>
    let ok := (s.partCores b.part (coreDie core)).filter fun c => all.all fun x => s.takesBack x.2 c
    if b.hdr.cluster == 0 then (if ok.contains core then some [core] else none)
    else
      let cs := ok.filter fun c => coreCluster c == coreCluster core
      if all.length ≤ cs.length then some cs else none
/-- A group in its new place; one that was in the handler waits as at entry, at a barrier too (R381). -/
def Group.back (g : Group) (place now : Nat) : Group :=
  let h := { g with place := place, out := g.out.map fun f => if f.waits == .watch then { f with since := now } else f }
  if !h.inH || h.done then h
  else match h.park with
    | none => { h with park := some .trap, trapAt := now }
    | some (.bar n) => { h with park := some (.barOff n), trapAt := now }
    | some (.cbar n) => { h with park := some (.cbarOff n), trapAt := now }
    | _ => h
/-- A request that was withdrawn is armed again at the home where its address now leads. -/
def State.rearm (s : State) (core : Nat) (q : Req) : Req :=
  match q.kind, q.loc with
  | .watch _ _, .dev _ =>
    let loc := match s.reach q.part q.va q.n true false with
      | .ok l => l
      | .error _ => q.loc
    { q with core := core, loc := loc, status := if q.status.over_ then q.status else .sent }
  | .watch _ _, _ => { q with core := core, status := if q.status.over_ then q.status else .sent }
  | _, _ => { q with core := core }
/-- A block stands on a core again: its saved tiles are latched ahead of its table entries, and its watches are evaluated
once. DESIGN CHOICE (log entry 59): whether a tile is latched at once, or in the queue's order behind the MXLWs of other blocks that
wait there, is open (R255, R265); it is latched at once. -/
def State.restoreBlock (s : State) (id : Nat) (b : Block) (core : Nat) : State :=
  let k := coreCluster core
  let pos := corePhys core % 4
  let c := s.cluster k
  let banks := b.bank.reverse.foldl (fun (m : Cluster) x => { m with banks := m.latch pos x }) c
  let again := (b.entries.zipIdx).map fun (e, i) => { e with id := s.nextId + i, core := core, pos := pos }
  let places := s.freePlaces core
  let t : State := { s with
    nextId := s.nextId + b.entries.length,
    clusters := s.clusters.ins k { banks with table := c.table ++ again },
    blocks := s.blocks.ins id { b with saved := false, core := core, bank := [], entries := [] },
    groups := (b.groups.zipIdx).foldl (fun m (g, i) => m.upd g fun G => G.back (places.getD i 0) s.now) s.groups,
    reqs := s.reqs.mapAll fun _ q => if q.blk == id then s.rearm core q else q }
  (t.reqs.filterMap fun (r, q) => if q.blk == id then (match q.kind with
    | .watch _ _ => some r
    | _ => none) else none).foldl (fun (u : State) r => u.homeLoad r) t
/-- BLOCK_RESTORE. -/
def execBlockRestore (block die core : Nat) (s : State) : Out :=
  .next (match s.blocks.find block with
    | none => s
    | some b =>
      let all := s.company block b
      if !b.saved || s.physOf b.part b.ldie != die then s
      else match s.coresFor all (die * 64 + core) with
        | none => s
        | some cs => (all.zip cs).foldl (fun (t : State) x => t.restoreBlock x.1.1 x.1.2 x.2) s)

/-! ## Dies (R11, R17, R384 to R386) -/

/-- The partitions that hold a physical die. -/
def State.holders (s : State) (die : Nat) : List (Nat × Part) := List.filter (fun (_, P) => P.dies.contains die) s.parts
/-- A spare takes a die's logical numbers, and its cores the partitions of the die's cores by logical core number. -/
def State.switchIn (s : State) (die spare : Nat) : State :=
  let old := enabledCores (s.die die).enabled
  let new := enabledCores (s.die spare).enabled
  let moved := (new.zip old).foldl (fun (m : Tab Core) (n, o) =>
    let c := s.core (die * 64 + o)
    m.ins (spare * 64 + n) { Core.empty with part := c.part, reserved := c.reserved, leaving := c.leaving }) s.cores
  { s with
    cores := moved.mapAll fun k c => if coreDie k == die then Core.empty else c,
    parts := s.parts.mapAll fun _ P => { P with dies := P.dies.map fun d => if d == die then spare else d } }
    |>.updDie spare fun x => { x with state := .active }
/-- A firmware core that no longer leads or follows. -/
def Firmware.without (f : Firmware) (die : Nat) : Firmware :=
  { f with active := f.active.filter fun d => d != die, leads := f.leads && f.leader != die,
           claim := if (f.claim.map Prod.fst) == some die then none else f.claim }
/-- No translation of a partition's pages is kept. -/
def State.forgetAll (s : State) (parts : List Nat) : State := parts.foldl (fun (t : State) p => t.forget p (0, 2 ^ 57)) s
/-- The device addresses of a physical die. -/
def State.dieRange (s : State) (die : Nat) : Nat × Nat := (s.const.pkg * 2 ^ 42 + die * 2 ^ 39, 2 ^ 39)
/-- Leaves and tables of some partitions that lie on a die. -/
def State.mappedOn (s : State) (parts : List Nat) (die : Nat) : List (Nat × Mapped) :=
  parts.flatMap fun p => ((s.mapped p).filter fun m => inRange (s.dieRange die) m.pa).map fun m => (p, m)

/-- The pending WAITS of some partitions are armed again: each is read at once, and its time starts again (R92, R381). -/
def State.rearmWaits (s : State) (parts : List Nat) : State :=
  s.tasks.foldl (fun (t : State) (id, T) => match T.instr, T.state with
    | .waits _ _ _ _, .issued =>
      if parts.contains T.part && !T.met then (t.updTask id fun T => { T with since := s.now }).issueWaits id T else t
    | _, _ => t) s
/-- DIE_EVACUATION: steps 3 to 5 have been decided and every block has left the die; its pages, the state of its engines and its
logical numbers go to the spare at once (R384). The spare takes blocks once step 6 has been decided. -/
def execDieEvacuation (die spare : Nat) (s : State) : Out :=
  let r := s.dieRange die
  let there (a : Nat) : Nat := (s.dieRange spare).1 + (a - r.1)
  let held (m : Migration) : Bool := inRange r m.old || inRange r m.new
  let home (x : Nat) : Bool := x != 0 && x != 4
  .next (if !s.leading || s.fw.evac != some (die, spare, 5) || (s.die spare).state != .spare || (s.die die).lost ||
      (s.die spare).lost || s.migs.any held ||
      s.blocks.any (fun (_, b) => coreDie b.core == die && !b.saved && !b.retired) then s
    else
      let parts := (s.holders die).map (·.1)
      let pages := s.mappedOn parts die
      let a := s.cores.foldl (fun (t : State) (c, _) => t.drainWhere c fun e => inRange r (e.line * 128)) s
      let k := pages.foldl (fun (t : State) (p, m) => (t.eccRead p noAgent noPc m.va m.pa m.size).2) a
      let b := pages.foldl (fun (t : State) (p, m) => match m.at_ with
        | some e => t.repoint e (there m.pa)
        | none => t.updPart p fun P => { P with ptroot := BitVec.ofNat 64 (there m.pa + 1) }) k
      let c := b.move ⟨pages.map fun x => (x.2.pa, x.2.size), r.1, (s.dieRange spare).1⟩ true
      let d := ((c.forgetAll parts).switchIn die spare).updDie spare fun x => { x with leaving := true }
      let e : State := { d.updDie die fun x => { x with state := .failed, leaving := false } with
        aids := d.aids.mapAll fun _ x => { x with die := if x.die == die then spare else x.die },
        fw := if home die then d.fw.without die else d.fw }
      (pages.foldl (fun (t : State) (_, m) => t.evalPage (there m.pa) m.size) e).rearmWaits
        (parts.filter fun p => s.physOf p 0 == die))

/-! ## Abrupt loss (R386, R296, R352) -/

/-- A fill that the loss of a die ends: its target, or a page that it copies from, lies there (R283). -/
def State.fillLost (s : State) (die part d : Nat) (f : Nat × Nat × Nat × Nat × Option Nat) : Bool :=
  f.2.1 == d || (pageStarts f.2.2.1 f.2.2.2.1).any fun a => match s.reach part a 1 true false with
    | .ok (.dev pa) => inRange (s.dieRange die) pa
    | _ => false
/-- An expert whose die d is lost: it leaves the replica list, and the Prism that has its number next holds the new table. -/
def Expert.loses (x : Expert) (d : Nat) : Expert :=
  let y := x.unlist d .absent
  { y with copies := y.copies.ins d (y.version, y.list) }
/-- Prism drops a die of a partition (R283, R296): it leaves every replica list, its slots' rows are lost, and the fills that
needed it end: with DIE_LOST where it was the target, else with ENGINE_FAULT (log entry 32). -/
def State.prismLoses (s : State) (die part d : Nat) : State :=
  (s.layers.filter fun l => l.part == part).foldl (fun (t : State) l =>
    (List.range l.count).foldl (fun (u : State) e => match u.layer part l.num with
      | none => u
      | some m =>
        let hit (f : Nat × Nat × Nat × Nat × Option Nat) : Bool := f.1 == e && s.fillLost die part d f
        let v := (m.fills.filter hit).foldl (fun (v : State) f =>
          v.endWork f.2.2.2.2 (some (if f.2.1 == d then (0x27, 0) else (0x0D, f.2.2.1)))) u
        let lost := m.fills.filter hit
        let m1 : Layer := { m.updExpert e (fun x => (lost.foldl (fun (x : Expert) f =>
            { x with state := x.state.set f.2.1 .absent }) x).loses d) with
          fills := m.fills.filter (fun f => !hit f), areas := m.areas.upd (m.areaKey d e) fun a => a.renewed m.slots }
        (v.changed m1 e).mirrorArea m1 d e) t) s
    |> fun t => { t with sends := t.sends.mapAll fun _ c =>
      if c.part == part && c.target == d && c.status.isNone then { c with status := some 0x10 } else c }
/-- What one partition loses with a physical die that it holds as logical die d. A grid needs the die for units not yet started
and for blocks that ran there; where no spare takes its number, for blocks saved from it too. DESIGN CHOICE (log entry 32): a
COPYT or FILL whose destination lay there ends as a write that fails does, with ENGINE_FAULT. -/
def State.partLoses (s : State) (die part d : Nat) (spared : Bool) : State :=
  let here (t : Task) : Bool := match t.grid with
    | some g => t.part == part && (g.gran.any (fun x => x.die == d && 0 < x.left) || g.struck.contains die ||
        s.blocks.any fun (_, b) => b.part == part && !b.retired && b.saved && b.ldie == d && !spared &&
          (((s.tasks.find b.task).bind Task.grid).map Grid.order) == some g.order)
    | none => false
  let waits (t : Task) : Bool := match t.instr with
    | .waits _ _ _ _ => t.part == part && t.state == .issued && !t.met && (match s.reach part t.qa 8 true false with
      | .ok (.dev pa) => inRange (s.dieRange die) pa
      | _ => false)
    | _ => false
  let t : State := { s with
    tasks := s.tasks.mapAll fun _ t =>
      if here t then { t with grid := t.grid.map fun g => { g with lost := true } }
      else if waits t then { t with met := true, cause := some 0x07, daddr := t.qa } else t,
    mirrors := List.filter (fun (_, r) => r.part != part || !r.desc.ldie.contains d) s.mirrors }
  (t.prismLoses die part d).logPart part ⟨10, 0, 0, noAgent, 0, 0, noPc, 0⟩
/-- The streams of a partition whose only die is lost: each that was started and has not been aborted enters faulted (R386). -/
def State.streamsLost (s : State) (part : Nat) : State :=
  (List.range 16).foldl (fun (t : State) k => match t.streams.find (part * 16 + k) with
    | some x =>
      if x.state == .idle then t
      else match t.streamTasks part k with
        | (_, T) :: _ => t.enterFault part k 0x27 T.opc T.addr 0 T.resume
        | [] => t.enterFault part k 0x27 0 x.ctx.pc 0 x.ctx
    | none => t) s
/-- A link goes down (R401): pending vectors are discarded, and none is raised until the host enables them again. -/
def State.linkDown (s : State) (link : Nat) : State :=
  { s with links := s.links.set link false,
           parts := s.parts.mapAll fun _ P => if P.link == link then
             { P with msix := P.msix.mapAll fun _ e => { e with pend := false, mask := true } } else P }
/-- The spare that takes the numbers of a lost die. DESIGN CHOICE (log entry 32): of two, the lowest-numbered. -/
def State.spareFor (s : State) (die : Nat) : Option Nat := (List.range 8).find? fun x =>
  (s.die x).state == .spare && !(s.die x).lost && x != die
/-- A base die no longer answers: its link goes down, and its firmware core is gone (R17). -/
def State.baseStops (s : State) (die : Nat) : State :=
  let t : State := { s.updDie die fun x => { x with lost := true } with fw := s.fw.without die }
  if die == 0 then t.linkDown 0 else if die == 4 then t.linkDown 1 else t
/-- The blocks on a physical die. -/
def State.blocksOn (s : State) (die : Nat) : List Nat :=
  s.blocks.filterMap fun (id, b) => if coreDie b.core == die && !b.saved && !b.retired then some id else none
/-- Blocks end with their die: what they had sent is still on its way, and their grids keep it in mind; no Prism is left there to
release what they claimed (R386, R327). -/
def State.strike (s : State) (die : Nat) (gone : List Nat) : State :=
  let mine (task : Nat) : List Nat := gone.filter fun b => ((s.blocks.find b).map Block.task) == some task
  let t : State := { s with
    blocks := s.blocks.mapAll fun id b => if gone.contains id then { b with claims := [] } else b,
    tasks := s.tasks.mapAll fun id T => { T with grid := T.grid.map fun g =>
      if (mine id).isEmpty then g else { g with killed := g.killed ++ mine id, struck := g.struck ++ [die] } } }
  t.killBlocks gone
/-- A die stops answering (R17, R386): its blocks end, what its memory, its caches and its engines held is lost, and so are the
streams of a partition that has no other die. What firmware does about it waits for its decision (R393). -/
def State.dieStops (s : State) (die : Nat) : State :=
  let r := s.dieRange die
  let a := s.strike die (s.blocksOn die)
  let b : State := { a with
    mem := List.filter (fun (x, _) => !inRange r x) a.mem, wrote := List.filter (fun (x, _) => !inRange r x) a.wrote,
    vers := List.filter (fun (x, _) => !inRange r (x * 128)) a.vers,
    ecc := a.ecc.filter fun x => !inRange r (x.1 * 32),
    clusters := List.filter (fun (k, _) => k / 16 != die) a.clusters,
    cores := a.cores.mapAll fun k x => if coreDie k == die then { x with tlb := [], wcb := [] } else x }
  let c := (b.migs.filter fun m => inRange r m.old || inRange r m.new).foldl (fun (t : State) m =>
    { (if m.switched then t else t.migEnd m.part true) with migs := t.migs.filter fun x => x != m }) b
  (s.holders die).foldl (fun (t : State) (p, P) => if P.dies.length == 1 then t.streamsLost p else t) (c.baseStops die)
/-- A die that has stopped is declared failed (R386): what its partitions lose with it, the leaves of its pages cleared and
invalidated, and its numbers moved to a spare where one is held. -/
def State.dieLost (s : State) (die : Nat) : State :=
  let r := s.dieRange die
  let holders := s.holders die
  let parts := holders.map (·.1)
  let a := holders.foldl (fun (t : State) (p, P) => t.partLoses die p ((P.logicalDie die).getD 0) (s.spareFor die).isSome) s
  let b := (a.mappedOn parts die).foldl (fun (t : State) (_, m) => match m.at_ with
    | some e => if m.leaf && !inRange r e then t.storeClean e (someBytes (toBytes 8 0)) else t
    | none => t) a
  let c := b.forgetAll parts
  let d := c.aids.foldl (fun (t : State) (id, x) => if x.die == die || inRange r x.cell then t.ruling id false else t) c
  let e := match s.spareFor die with
    | some x => if holders.isEmpty then d else d.switchIn die x
    | none => d
  ({ e with fw := { e.fw with evac := e.fw.evac.filter fun x => x.1 != die && x.2.1 != die } } : State).updDie die fun x =>
    { x with state := .failed, leaving := false }
/-- A die of the package answers, or of one that was evacuated the base die still does (R17). -/
def State.answers (s : State) (die : Nat) : Bool := die < s.const.dies && !(s.die die).lost
/-- Such a die stops answering. -/
def State.loseDie (s : State) (die : Nat) : State := if (s.die die).state == .failed then s.baseStops die else s.dieStops die

/-! ## Partitions and their cores (R383, R116, R18) -/

/-- PARTITION_TEARDOWN: after the decision, every block ends and the partition's state is discarded. -/
def execPartitionTeardown (part : Nat) (s : State) : Out :=
  .next (if !s.fw.tears.contains part then s
    else
      let mine := s.blocks.filterMap fun (id, b) => if b.part == part then some id else none
      let t := s.killBlocks mine
      let ids := t.aids.filterMap fun (id, a) => if a.part == part then some id else none
      let u := ids.foldl (fun (x : State) id => x.freeSlot id) t
      let free (c : Core) : Core := if c.part == some part then { Core.empty with tlb := c.tlb.filter (fun l => l.part != part), wcb := c.wcb } else c
      { u with
        vers := List.filter (fun (_, vs) => !vs.isEmpty) (u.vers.mapAll fun _ vs => vs.takeWhile fun v => !meets v.set ids),
        resol := u.resol.filter fun r => !ids.contains r.1,
        tasks := List.filter (fun (_, x) => x.part != part) u.tasks,
        streams := List.filter (fun (k, _) => k / 16 != part) u.streams,
        mirrors := List.filter (fun (_, r) => r.part != part) u.mirrors,
        layers := u.layers.filter fun l => l.part != part,
        migs := u.migs.filter fun m => m.part != part,
        ptes := u.ptes.filter fun p => p.part != part,
        reqs := List.filter (fun (_, q) => q.part != part || (match q.kind with
          | .store _ => q.set.isEmpty
          | _ => false)) u.reqs,
        parts := u.parts.del part,
        cores := u.cores.mapAll fun _ c => free c,
        fw := { u.fw with tears := u.fw.tears.filter (fun p => p != part), pxctl := u.fw.pxctl.filter fun x => x.1 != part } })
/-- CORE_PARTITION_MOVE: a leaving core that holds no block joins its new partition, with its scratchpad cleared (R206). -/
def execCorePartitionMove (die core : Nat) (s : State) : Out :=
  let k := die * 64 + core
  .next (match (s.core k).leaving with
    | none => s
    | some p => if !(s.resident k).isEmpty || (s.core k).wcb.any (fun _ => true) then s
      else s.updCore k fun c => { c with part := some p, reserved := false, leaving := none, tlb := [], left := [] })

end Sys2Proof.Machine
end

