-- ==== Sys2Proof/Machine/Firmware.lean ====
section
/-! DEFINITION. The firmware cores: leases, journal, decisions (R390 to R394), power (R390, R405, R406), and the loading of
firmware (R402, R403). -/

namespace Sys2Proof

/-- Decisions that a request of the host asks for: they are journaled in the order of the requests (R393). -/
def Decision.isRequest : Decision → Bool
  | .ptroot _ _ | .pxctl _ _ | .pctl _ _ | .sendTimeout _ _ | .migrate _ => true
  | _ => false

end Sys2Proof

namespace Sys2Proof.Machine

/-! ## What a decision does (R393, R400) -/

/-- AIDQ of all partitions but one. -/
def State.quotas (s : State) (but : Nat) : Nat :=
  ((List.filter (fun (p, _) => p != but) s.parts).map fun x => x.2.aidq).foldl (· + ·) 0
/-- A value of PCTL applied to a partition; a field whose value is not allowed keeps its old one. -/
def State.pctlOf (s : State) (part : Nat) (P : Part) (v : Nat) : Part :=
  let q := bits v 36 24
  let m := bits v 23 20
  let r := bits v 19 16
  let n := bits v 15 9
  { P with aidq := if 1 ≤ q && q ≤ 4096 && s.quotas part + q ≤ 4096 then q else P.aidq,
           maxprio := if m ≤ 11 then m else P.maxprio, reslvl := if r ≤ 11 then r else P.reslvl,
           vecs := if n ≤ 64 then n else P.vecs, link := if s.const.form == 3 then 0 else bits v 8 8 }
/-- PTROOT keeps its defined bits (R210). -/
def ptrootOf (v : Nat) : Dword := BitVec.ofNat 64 (bits v 51 12 * 2 ^ 12 + bits v 0 0)
/-- How many partitions a package carries (R18). -/
def State.maxParts (s : State) : Nat := if s.const.form == 3 then 2 else 16
/-- A partition may be created as asked (R11, R18, R204, R419). -/
def State.mayCreate (s : State) (part window frames : Nat) (dies : List Nat) (cores : List (Nat × Nat)) : Bool :=
  part < s.maxParts && (s.part part).isNone && window % 2 ^ 19 == 0 && frames % 2 ^ 16 == 0 && window < 2 ^ 57 && frames < 2 ^ 57 &&
  (frames + 2 ^ 16 ≤ window || window + 2 ^ 19 ≤ frames) && !dies.isEmpty && dies.eraseDups.length == dies.length &&
  (dies.all fun d => d < s.const.dies && (s.die d).state == .active && !(s.die d).lost) &&
  cores.all fun c => dies.contains c.1 && c.2 < 40 && bit (s.die c.1).enabled c.2 && (s.core (c.1 * 64 + c.2)).part.isNone
/-- The partition created. -/
def State.create (s : State) (part window frames : Nat) (dies : List Nat) (cores : List (Nat × Nat)) (v : Nat) : State :=
  let want := if bits v 36 24 == 0 then v + 256 * 2 ^ 24 else v
  let P := s.pctlOf part { Part.empty with en := true, scr := window, frames := frames, dies := dies } want
  { s with parts := s.parts.ins part P,
           streams := (List.range 16).foldl (fun m k => m.ins (part * 16 + k) Stream.empty) s.streams,
           cores := cores.foldl (fun m c => m.ins (c.1 * 64 + c.2) { Core.empty with part := some part }) s.cores }
/-- A leaf or a table of some partition, or a page being moved, lies on a die (R11). -/
def State.ownsPages (s : State) (die : Nat) : Bool :=
  !(s.mappedOn (s.parts.map (·.1)) die).isEmpty || s.migs.any fun m => inRange (s.dieRange die) m.old || inRange (s.dieRange die) m.new
/-- A later step of the evacuation under way (R384): the steps come in order, and the last one, after the die has failed, lets
the spare take blocks. -/
def State.evacNext (s : State) (n : Nat) : State :=
  match s.fw.evac with
  | none => s
  | some (die, spare, k) =>
    if n != k + 1 || 6 < n then s
    else if n != 6 then { s with fw := { s.fw with evac := some (die, spare, n) } }
    else if (s.die die).state != .failed then s
    else { s.updDie spare fun x => { x with leaving := false } with fw := { s.fw with evac := none } }
/-- A decision takes effect; one that asks for what the package does not have changes nothing. -/
def State.decide (s : State) (d : Decision) : State :=
  match d with
  | .createPartition p w f ds cs v => if s.mayCreate p w f ds cs then s.create p w f ds cs v.toNat else s
  | .teardown p => if (s.part p).isSome then { s with fw := { s.fw with tears := union s.fw.tears [p] } } else s
  | .leaveCore die core target =>
    if (s.core (die * 64 + core)).part.isNone || (s.part target).isNone then s
    else s.updCore (die * 64 + core) fun c => { c with leaving := some target }
  | .reserveCore die core on =>
    if (s.core (die * 64 + core)).part.isNone then s else s.updCore (die * 64 + core) fun c => { c with reserved := on }
  | .holdSpare die on =>
    let spares := (s.dies.filter fun x => x.state == .spare).length
    if s.const.form == 3 || die == 0 || die == 4 || (s.die die).lost || !(s.holders die).isEmpty || (on && 2 ≤ spares) || s.ownsPages die ||
      (s.die die).state != (if on then DieState.active else .spare) then s
    else s.updDie die fun x => { x with state := if on then .spare else .active }
  | .evacuate die spare =>
    if s.fw.evac.isSome || (s.holders die).isEmpty || (s.die die).state != .active || (s.die spare).state != .spare ||
      (s.die die).lost || (s.die spare).lost then s
    else { s.updDie die fun x => { x with leaving := true } with fw := { s.fw with evac := some (die, spare, 1) } }
  | .evacStep n => s.evacNext n
  | .dieFailed die => if (s.die die).lost && (s.die die).state != .failed then s.dieLost die else s
  | .budget die amount charges => s.updDie die fun x => { x with budget := amount, charges := charges }
  | .ptroot p v => s.updPart p fun P => { P with ptroot := ptrootOf v.toNat }
  | .pxctl p v => if (s.part p).isSome then { s with fw := { s.fw with pxctl := s.fw.pxctl ++ [(p, v)] } } else s
  | .pctl p v => match s.part p with
    | some P => s.updPart p fun _ => s.pctlOf p P v.toNat
    | none => s
  | .sendTimeout p us => s.updPart p fun P => { P with timeout := us % 2 ^ 32 }
  | .migrate p => s.migStart p
  | .domain n members =>
    if !s.parts.isEmpty || 64 ≤ n || !members.contains n || members.any (fun m => 64 ≤ m) || (members.all (· == n) && n != 0) then s
    else { s with const := { s.const with pkg := n, pkgs := members } }

/-! ## The journal (R392) -/

/-- Entries take effect in order, each once every active follower has acknowledged it. -/
def State.settleJournal (s : State) : Nat → State
  | 0 => s
  | n + 1 => match s.fw.journal.find? fun e => !e.done with
    | none => s
    | some e =>
      if !s.fw.leads || !s.fw.active.all e.acks.contains then s
      else
        let t : State := { s with fw := { s.fw with journal := s.fw.journal.map fun x =>
          if x.epoch == e.epoch && x.seq == e.seq then { x with done := true } else x } }
        (t.decide e.dec).settleJournal n
def State.settled (s : State) : State := s.settleJournal s.fw.journal.length
/-- The leader writes an entry. -/
def State.journalise (s : State) (d : Decision) : State :=
  let seq := ((s.fw.journal.getLast?).map fun e => e.seq + 1).getD 0
  let e : Entry := ⟨s.fw.epoch, seq, d, [s.fw.leader], s.now, false⟩
  ({ s with fw := { s.fw with journal := s.fw.journal ++ [e] } } : State).settled
/-- DIE_LOSS: a die stops answering, and the leader decides at once that it has failed (R386, R393). While no core leads the decision
waits; a JOURNAL_ENTRY makes it. -/
def State.dieLoss (s : State) (die : Nat) : State :=
  if !s.answers die then s
  else
    let t := s.loseDie die
    if t.leading && (s.die die).state != .failed then t.journalise (.dieFailed die) else t
def execDieLoss (die : Nat) (s : State) : Out := .next (s.dieLoss die)
/-- JOURNAL_ENTRY. -/
def execJournalEntry (d : Decision) (s : State) : Out :=
  .next (if !s.leading then s
    else if !d.isRequest then s.journalise d
    else if s.fw.held.head? == some d then ({ s with fw := { s.fw with held := s.fw.held.drop 1 } } : State).journalise d
    else s)
/-- JOURNAL_ACKNOWLEDGE. -/
def execJournalAcknowledge (die seq : Nat) (s : State) : Out :=
  .next (if !s.fw.active.contains die then s
    else ({ s with fw := { s.fw with journal := s.fw.journal.map fun e =>
      if e.seq == seq && e.epoch == s.fw.epoch && !e.done then { e with acks := union e.acks [die] } else e } } : State).settled)
/-- JOURNAL_ACK_TIMEOUT. -/
def execJournalAckTimeout (die : Nat) (s : State) : Out :=
  let late (e : Entry) : Bool := !e.done && !e.acks.contains die && e.at_ + 20 * usec ≤ s.now
  .next (if !s.leading || die == s.fw.leader || !s.fw.active.contains die || !s.fw.journal.any late then s
    else ({ s with fw := { s.fw with active := s.fw.active.filter fun d => d != die } } : State).settled)

/-! ## Leases (R390, R391) -/

/-- LEASE_RENEW: every 250 µs. -/
def execLeaseRenew (s : State) : Out :=
  .next (if !s.leading || s.now < (s.die s.fw.leader).renewed + 250 * usec then s
    else s.fw.active.foldl (fun (t : State) d => t.updDie d fun x => { x with renewed := s.now, seen := s.fw.epoch }) s)
/-- The active followers, in the order of their ranks. -/
def Firmware.followers (f : Firmware) : List Nat := (List.range 8).filter fun d => f.active.contains d && d != f.leader
/-- LEASE_LAPSE: 1 ms after the last renewal that a follower received. -/
def execLeaseLapse (die : Nat) (s : State) : Out :=
  .next (if !s.fw.loaded || s.fw.take || !s.fw.followers.contains die || s.now < (s.die die).renewed + 1000 * usec then s
    else { s with fw := { s.fw with take := true, leads := false, claim := none } })
/-- LEASE_CLAIM: a follower claims at its rank's time, with one more than the highest epoch it has seen; the claim reaches
every active follower. -/
def execLeaseClaim (die : Nat) (s : State) : Out :=
  .next (match s.fw.followers.findIdx? fun d => d == die with
    | none => s
    | some r =>
      if !s.fw.take || s.fw.claim.isSome || s.now < (s.die die).renewed + 1000 * usec + 10 * usec * r then s
      else
        let epoch := (s.die die).seen + 1
        let t := s.fw.active.foldl (fun (t : State) d => t.updDie d fun x => { x with seen := Nat.max x.seen epoch }) s
        { t with fw := { t.fw with epoch := epoch, claim := some (die, s.now) } })
/-- TAKEOVER_COMPLETE: the claimer leads; it completes the entries that its own journal holds, and no others. -/
def execTakeoverComplete (s : State) : Out :=
  .next (match s.fw.claim with
    | none => s
    | some (die, _) =>
      let mine := s.fw.journal.filter fun e => e.done || e.acks.contains die
      let open_ := mine.filter fun e => !e.done
      let kept := mine.map fun e => { e with done := true }
      let f : Firmware := { s.fw with leads := true, take := false, claim := none, leader := die, journal := kept }
      let t : State := { s with fw := f }
      let u := open_.foldl (fun (x : State) e => x.decide e.dec) t
      u.fw.active.foldl (fun (x : State) d => x.updDie d fun y => { y with renewed := s.now }) u)

/-! ## Power and loading (R390, R402, R403, R405, R406) -/

/-- The package with nothing in it but what the part, the host and the schedule fix. -/
def State.blank (s : State) (on : Bool) : State :=
  { State.reset with const := { s.const with pkg := 0, pkgs := [0] }, powered := on, hostMem := s.hostMem, sent := s.sent,
                     cpls := s.cpls, turns := s.turns, tick := s.tick, free := s.free, broken := s.broken }
/-- PACKAGE_POWER_LOSS. -/
def execPackagePowerLoss (s : State) : Out := .next (if s.powered then s.blank false else s)
/-- POWER_UP: each die tests itself, a free choice, and the core of the lowest die that passes leads. DESIGN CHOICE (log entry
34): a die that fails its self-test counts as lost with its base die, so the link of die 0 or 4 is down and stays down. -/
def execPowerUp (s : State) : Out :=
  .next (if s.powered then s
    else
      let t := s.blank true
      let die (d : Nat) : Die :=
        { Die.reset with enabled := s.const.harvest.getD d 0, state := if s.freeAt d % 2 == 0 then .active else .failed,
                         lost := s.freeAt d % 2 != 0 }
      let good := (List.range s.const.dies).filter fun d => s.freeAt d % 2 == 0
      let u : State := { t with
        dies := tab s.const.dies die,
        links := [!(die 0).lost, s.const.form != 3 && !(die 4).lost],
        fw := { Firmware.reset with active := good, leader := (good.head?).getD 0, leads := !good.isEmpty } }
      u.spend 8)
/-- Exactly n bytes of a result of a cited standard. -/
def exact (n : Nat) (l : List Byte) : List Byte := tab n fun i => l.getD i 0
/-- The mask ROM's three checks (R402): the signature, the vendor key's digest, and the security version. -/
def PartConst.accepts (c : PartConst) (image : List Byte) : Bool :=
  Config.imageSigned image && exact 64 (Config.digest (Config.imageKey image)) == c.keyDigest && c.minSvn ≤ Config.imageSvn image
/-- The load window holds an image (R396). -/
def State.windowHolds (s : State) (image : List Byte) : Bool :=
  (image.zipIdx).all fun (b, i) => i < 524288 && Cells.read 0 s.loadWin i == b
/-- FIRMWARE_LOAD: the image in the load window runs if the ROM accepts it. -/
def execFirmwareLoad (image : List Byte) (s : State) : Out :=
  .next (if s.fw.loaded || !s.windowHolds image || !s.const.accepts image then s
    else
      let id := s.fw.active.contains 0
      ({ s with fw := { s.fw with loaded := true, image := image }, ident := id, akey := if id then some s.free else none,
                dies := s.dies.map fun x => { x with renewed := s.now } } : State).spend 1)
/-- THERMAL_THROTTLE: above 95 °C the leader decides on a lower budget. -/
def execThermalThrottle (die temp budget : Nat) (s : State) : Out :=
  .next (if temp ≤ 95 || !s.leading || (s.die die).budget ≤ budget then s
    else s.journalise (.budget die budget (s.die die).charges))
/-- THERMAL_SHUTDOWN: at 115 °C the die is powered off and lost, with its base die where that still worked (R17). -/
def execThermalShutdown (die temp : Nat) (s : State) : Out :=
  .next (if temp < 115 then s else s.dieLoss die)

/-! ## Links (R401) -/

/-- LINK_DOWN. -/
def execLinkDown (link : Nat) (s : State) : Out := .next (s.linkDown link)
/-- LINK_UP: a link whose base die is lost stays down (R17). -/
def execLinkUp (link : Nat) (s : State) : Out :=
  .next (if (s.const.form == 3 && link != 0) || (s.die (4 * link)).lost then s else { s with links := s.links.set link true })

end Sys2Proof.Machine
end

