-- ==== Sys2Proof/Machine/HostIf.lean ====
section
/-! DEFINITION. The host interface (R395 to R404): registers of the VF and the PF as they read and as they are written, the
host window, AtomicOps, buffers, and attestation reports. -/

namespace Sys2Proof.Machine

/-! ## Registers as they read (R21, R53, R120, R121, R394, R396, R400) -/

/-- DEVID (R21). -/
def PartConst.devid (c : PartConst) : Nat := 0x4B * 2 ^ 24 + c.form * 2 ^ 20 + c.dies * 2 ^ 16 + c.step * 2 ^ 12 + 1
/-- STATE codes (R52). -/
def StreamState.code : StreamState → Nat
  | .idle => 0 | .running => 1 | .halted => 2 | .faulted => 3 | .aborting => 4
/-- SSTAT (R53). -/
def Stream.sstat (x : Stream) : Nat :=
  let f := x.state == .faulted
  (if f then x.cause % 256 * 2 ^ 24 + x.opc % 256 * 2 ^ 16 else 0) + x.ctx.prio % 16 * 2 ^ 8 + b2n x.ctx.detm * 2 ^ 7 + x.state.code
/-- Entry j of LCMAP (R121). -/
def Die.lcmap (d : Die) (j : Nat) : Nat :=
  match (enabledCores d.enabled)[j]? with
  | some p => 0x80 + p
  | none => 0
/-- FWSTAT (R394). -/
def Firmware.fwstat (f : Firmware) : Nat :=
  f.epoch * 2 ^ 32 + (f.active.foldl (fun m d => m + 2 ^ d) 0) * 2 ^ 24 + f.leader * 2 ^ 16 + b2n f.take
/-- PCTL (R400). -/
def Part.pctl (p : Part) : Nat :=
  p.aidq * 2 ^ 24 + p.maxprio * 2 ^ 20 + p.reslvl * 2 ^ 16 + p.vecs * 2 ^ 9 + p.link * 2 ^ 8 + b2n p.en
def DieState.code : DieState → Nat
  | .active => 0 | .spare => 1 | .failed => 2
/-- Pending bits of MSI-X (R396). -/
def Part.pending (p : Part) : Nat := p.msix.foldl (fun m x => if x.2.pend then m + 2 ^ x.1 else m) 0
/-- A word of an MSI-X table entry. -/
def MsixEntry.word (e : MsixEntry) : Nat → Nat
  | 0 => e.addr % 2 ^ 32
  | 1 => e.addr / 2 ^ 32
  | 2 => e.data
  | _ => b2n e.mask
def MsixEntry.fresh : MsixEntry := ⟨0, 0, true, false⟩
/-- A register of a partition's VF BAR0 as the host reads it; a write-only register and a reserved offset read zero. -/
def State.vfRead (s : State) (part off : Nat) : Nat :=
  match s.part part with
  | none => 0
  | some P =>
    let k := (off - 0x100) / 0x40
    let strm (f : Stream → Nat) : Nat := ((s.stream (part * 16 + k)).map f).getD 0
    let d := (off - 0x800) / 0x40
    let o := (off - 0x800) % 0x40
    if !P.en then 0
    else if off == 0x0000 then s.const.devid
    else if off == 0x0008 then P.ptroot.toNat
    else if off == 0x0010 then P.tlbinv.toNat
    else if off == 0x0018 then P.thandler.toNat
    else if off == 0x0020 then P.elost
    else if off == 0x0030 then P.migcmd.toNat
    else if off == 0x0038 then P.hwin.toNat
    else if 0x0040 ≤ off && off < 0x0054 && off % 4 == 0 then (P.free.getD ((off - 0x40) / 4) []).length
    else if 0x0080 ≤ off && off < 0x00A0 && off % 4 == 0 then (P.attn.getD ((off - 0x80) / 4) 0).toNat
    else if off == 0x00A0 then P.attaddr.toNat
    else if off == 0x00A8 then P.attgo
    else if 0x0100 ≤ off && off < 0x0500 then
      (match (off - 0x100) % 0x40 with
        | 0x00 => strm Stream.sstat
        | 0x08 => strm Stream.sfaddr
        | 0x10 => strm Stream.sdaddr
        | 0x18 => strm fun x => x.mark.toNat
        | _ => 0)
    else if 0x0800 ≤ off && d < P.dies.length then
      (if o == 0 then (s.die (P.physDie d)).enabled else if 8 ≤ o && o < 48 then (s.die (P.physDie d)).lcmap (o - 8) else 0)
    else if 0x2000 ≤ off && off < 0x2400 && off % 4 == 0 then
      ((P.msix.find ((off - 0x2000) / 16)).getD .fresh).word ((off - 0x2000) % 16 / 4)
    else if off == 0x3000 then P.pending
    else 0
/-- A register of PF BAR0 as the host reads it. -/
def State.pfRead (s : State) (off : Nat) : Nat :=
  let part (f : Part → Nat) : Nat := ((s.part ((off - 0x10000) / 0x100)).map f).getD 0
  let k := (off - 0x100) / 0x10
  if off == 0 then s.const.devid
  else if off == 8 then s.fw.fwstat
  else if 0x100 ≤ off && k < s.const.dies then
    (if off % 0x10 == 0 then (s.die k).enabled else if off % 0x10 == 8 then (s.die k).state.code else 0)
  else if 0x200 ≤ off && off < 0x240 then (if s.ident then (Config.identityKey.getD (off - 0x200) 0).toNat else 0)
  else if 0x10000 ≤ off && off < 0x11000 then
    (match (off - 0x10000) % 0x100 with
      | 0x00 => part fun P => P.ptroot.toNat
      | 0x08 => part fun P => P.pxctl.toNat
      | 0x10 => part Part.pctl
      | 0x18 => part Part.timeout
      | _ => 0)
  else if 0x80000 ≤ off && off < 0x100000 then ofBytes (tab 8 fun i => Cells.read 0 s.loadWin (off - 0x80000 + i))
  else 0

/-! ## The host window and AtomicOps (R342, R395, R399) -/

def State.completed (s : State) (c : Cpl) (bs : List Byte) : State := { s with cpls := s.cpls ++ [(c, bs)] }
/-- How the failure of a read completes. -/
def cplOf (cause : Nat) : Cpl := if cause == 0x07 then .abort else .unsupported
/-- The address behind an offset of BAR2. -/
def Part.windowVa (p : Part) (off : Nat) : Nat := bits p.hwin.toNat 56 32 * 2 ^ 32 + off
/-- A read, line by line. -/
def State.hostRead (s : State) (part : Nat) : Nat → Nat → Nat → Except Nat (List Byte) × State
  | 0, _, _ => (.ok [], s)
  | fuel + 1, va, n =>
    if n = 0 then (.ok [], s)
    else
      let k := Nat.min n (128 - va % 128)
      match s.readAs part va k with
      | (.error c, t) => (.error c, t)
      | (.ok bs, t) => match t.hostRead part fuel (va + k) (n - k) with
        | (.error c, u) => (.error c, u)
        | (.ok cs, u) => (.ok (bs ++ cs), u)
/-- A write, line by line; what fails is discarded, and a lasting error is logged (R235). -/
def State.hostWrite (s : State) (part : Nat) : Nat → Nat → List Byte → State
  | 0, _, _ => s
  | fuel + 1, va, bs =>
    if bs.isEmpty then s
    else
      let k := Nat.min bs.length (128 - va % 128)
      let t := match s.writeNow part va k (bs.take k) (.hostOf part) with
        | .ok t => t
        | .bad t c pa => t.logLost part c va pa
        | .hold _ => s
      t.hostWrite part fuel (va + k) (bs.drop k)
/-- A packet lies within the window and within 4 KiB of it. -/
def packetOk (off n : Nat) : Bool := 1 ≤ n && off + n ≤ 2 ^ 32 && off % 4096 + n ≤ 4096
/-- HOST_WINDOW_ACCESS. -/
def execHostWindowAccess (part off : Nat) (acc : HostAcc) (s : State) : Out :=
  .next (match s.part part with
    | none => s
    | some P =>
      if !s.hostReach part then s
      else match acc with
        | .read n =>
          if !packetOk off n then s
          else (match s.hostRead part 33 (P.windowVa off) n with
            | (.error c, t) => t.completed (cplOf c) []
            | (.ok bs, t) => t.completed .success bs)
        | .write bs => if packetOk off bs.length then s.hostWrite part 33 (P.windowVa off) bs else s)
/-- The size, and the operation as the home performs it. -/
def hostOpOf : HostOp → Nat × CleanOp
  | .fetchAdd n v => (n, .add v)
  | .swap n v => (n, .swap v)
  | .cas n c e => (n, .cas c e)
/-- HOST_ATOMICOP: FetchAdd, Swap or CAS of 4 or 8 bytes on device memory. -/
def execHostAtomicop (part off : Nat) (op : HostOp) (s : State) : Out :=
  let n := (hostOpOf op).1
  .next (match s.part part with
    | none => s
    | some P =>
      let va := P.windowVa off
      if !s.hostReach part || (n != 4 && n != 8) || off % n != 0 || 2 ^ 32 < off + n then s
      else match s.reach part va n true true with
        | .ok (.dev pa) =>
          if !s.homeUp (.dev pa) then s.completed .abort []
          else (match s.eccRead part noAgent noPc va pa n with
            | (false, t) => (t.logPart part (lastingEntry noAgent noPc va pa)).completed .abort []
            | (true, t) =>
              let r := t.cleanAtomic pa n (hostOpOf op).2 .theHost
              r.2.completed .success (toBytes n r.1))
        | _ => s.completed .unsupported [])

/-! ## BUFADD (R397) -/

def execBufadd (part : Nat) (v : BitVec 64) (s : State) : Out :=
  let c := bits v.toNat 2 0
  let va := bits v.toNat 56 16 * 2 ^ 16
  .next (match s.part part with
    | none => s
    | some P => if !s.hostReach part || 4 < c || P.refused va (classSize c) then s
      else s.updPart part fun P => P.giveBack [⟨va, some c, 0⟩])

/-! ## Attestation (R403, R404) -/

/-- What the configuration digest covers: the PF block, the core list and the handler code object. -/
def State.configOf (s : State) (part : Nat) (P : Part) : List Byte :=
  let cores := s.cores.filterMap fun (k, c) => if c.part == some part then some k else none
  let base := bits P.thandler.toNat 56 6 * 64
  let handler := match s.hostRead part 2 base 16 with
    | (.ok bs, _) => (match handlerHeader bs with
      | some (size, _) => (match (s.hostRead part (size / 128 + 2) base size).1 with
        | .ok cs => cs.map BitVec.toNat
        | .error _ => [])
      | none => [])
    | _ => []
  Config.configBytes ([P.ptroot.toNat, P.pxctl.toNat, P.pctl, P.timeout, cores.length] ++ cores ++ handler)
/-- The report's bytes before its signature, and the report. -/
def State.reportOf (s : State) (part : Nat) (P : Part) (boot : Nat) : List Byte :=
  let devid := toBytes 4 s.const.devid
  let fwdig := exact 64 (Config.digest s.fw.image)
  let akey := exact 48 (Config.attestKey boot)
  let body := toBytes 4 0x41545201 ++ devid ++ toBytes 4 (Config.imageSvn s.fw.image) ++ toBytes 4 (part % 16) ++ fwdig ++
    exact 64 (Config.digest (s.configOf part P)) ++ P.attn.flatMap (fun w => toBytes 4 w.toNat) ++ akey ++ List.replicate 16 0 ++
    exact 29792 (Config.identitySig (akey ++ devid ++ fwdig))
  body ++ exact 35664 (Config.attestSig boot body)
/-- ATTGO: a write of 1 requests a report, unless one is being made; another value is stored, unless the register shows how a
request stands (R396, R404). -/
def execAttgo (part : Nat) (v : BitVec 32) (s : State) : Out :=
  .next (match s.part part with
    | none => s
    | some P =>
      if !s.hostReach part || P.attgo == 1 then s
      else if v != 1 then if P.attref then s else s.updPart part fun P => { P with attgo := v.toNat }
      else match s.akey with
        | some boot =>
          let r := s.reportOf part P boot
          s.updPart part fun P => { P with attgo := 1, attref := false, report := some (P.attaddr.toNat, r) }
        | none => s.updPart part fun P => { P with attgo := 2, attref := true })
/-- REPORT_WRITTEN. -/
def execReportWritten (part : Nat) (s : State) : Out :=
  .next (match s.part part with
    | none => s
    | some P => match P.report with
      | some (a, bs) =>
        if P.attgo != 1 || !s.homeUp (.host P.link a) then s
        else (s.writeHost P.link a (.forPart part) (someBytes bs)).updPart part fun P => { P with attgo := 0, report := none }
      | none => s)

/-! ## Writes of registers (R210, R212, R367, R396, R399, R400, R404) -/

/-- A request written to the PF: it waits for the leader (R393). -/
def State.request (s : State) (part : Nat) (d : Decision) : State :=
  if (s.part part).isNone || !s.links.any (fun l => l) then s else { s with fw := { s.fw with held := s.fw.held ++ [d] } }
/-- PCTL_WRITE. -/
def execPctlWrite (part : Nat) (v : BitVec 64) (s : State) : Out := .next (s.request part (.pctl part v))
/-- A write of a word of an MSI-X table entry; an entry that is unmasked with its pending bit set is raised. -/
def State.msixWrite (s : State) (part entry word v : Nat) : State :=
  match s.part part with
  | none => s
  | some P =>
    let e := (P.msix.find entry).getD .fresh
    let f : MsixEntry := match word with
      | 0 => { e with addr := e.addr / 2 ^ 32 * 2 ^ 32 + v % 2 ^ 32 / 4 * 4 }
      | 1 => { e with addr := v % 2 ^ 32 * 2 ^ 32 + e.addr % 2 ^ 32 }
      | 2 => { e with data := v % 2 ^ 32 }
      | _ => { e with mask := bit v 0 }
    let go := f.pend && !f.mask
    let t := s.updPart part fun P => { P with msix := P.msix.ins entry { f with pend := f.pend && f.mask } }
    if go then t.raiseVector part entry else t
/-- A dword of the load window is written (R396, R402). -/
def State.windowWrite (s : State) (off : Nat) (v : Dword) : State :=
  if off % 8 != 0 || 524288 < off + 8 || !s.links.any (fun l => l) then s
  else { s with loadWin := Cells.writes 0 s.loadWin off (toBytes 8 v.toNat) }
/-- REGISTER_WRITE. -/
def execRegisterWrite (r : HostReg) (v : BitVec 64) (s : State) : Out :=
  let vf (p : Nat) (f : Part → Part) : State := if s.hostReach p then s.updPart p f else s
  let n := v.toNat
  .next (match r with
    | .tlbinv p => s.invWrite p n
    | .thandler p => vf p fun P => { P with thandler := BitVec.ofNat 64 (bits n 56 6 * 2 ^ 6 + bits n 0 0) }
    | .hwin p => vf p fun P => { P with hwin := BitVec.ofNat 64 (bits n 56 32 * 2 ^ 32) }
    | .attn p w => vf p fun P => { P with attn := P.attn.set w (BitVec.ofNat 32 n) }
    | .attaddr p => vf p fun P => { P with attaddr := v }
    | .msixEntry p e w => if s.hostReach p && e < 64 && w < 4 then s.msixWrite p e w n else s
    | .pfPtroot p => s.request p (.ptroot p v)
    | .pfPxctl p => s.request p (.pxctl p v)
    | .pfSendTimeout p => s.request p (.sendTimeout p n)
    | .loadWindow off => s.windowWrite off v
    | .reserved _ => s)

end Sys2Proof.Machine
end

