-- ==== Sys2Proof/Machine/Turns.lean ====
section
/-! DEFINITION. Turns: what happens next, and what a turn does. The meaning of an instruction is an argument here. -/

namespace Sys2Proof.Machine

/-- The next turn: of the list, or where it is empty the schedule's (log entry 1). Time goes on by the turn's cycles. -/
def State.nextTurn (s : State) : Turn × State :=
  match s.turns with
  | t :: ts => (t, { s with turns := ts, now := s.now + t.dt })
  | [] =>
    let t := Config.turn s.tick
    (t, { s with tick := s.tick + 1, now := s.now + t.dt })
/-- A step of the device or an input from outside: it has no encoding. -/
def isEvent (i : Instr) : Bool := (encode i).isNone
/-- A core forgets a translation it keeps (R211). -/
def State.dropTlb (s : State) (core idx : Nat) : State :=
  if (s.cores.find core).isSome then s.updCore core fun c => { c with tlb := c.tlb.eraseIdx idx } else s
/-- An ECC word fails: in one bit, once, or for good (R234, R235). -/
def State.failWord (s : State) (pa : Nat) (kind : Ecc) : State :=
  if s.ecc.contains (pa / 32, .lasting) then s else { s with ecc := (s.ecc.filter fun x => x.1 != pa / 32) ++ [(pa / 32, kind)] }
/-- What a turn does. Outside the operating limits nothing is specified (R405); an unpowered package only powers up. -/
def State.runAct (run : Instr → State → Out) (a : Act) (s : State) : Out :=
  if s.broken then .fault .outsideLimits
  else match a with
    | .limits ok => .next { s with broken := !ok }
    | .dev i =>
      if !isEvent i then .next s
      else if s.powered || i == .powerUp then run i s else .next s
    | .issue die core skip => if s.powered then s.issueStep run die core skip else .next s
    | .front part stream => if s.powered then s.frontStep run part stream else .next s
    | .dropTlb die core idx => .next (s.dropTlb (die * 64 + core) idx)
    | .ecc pa kind => .next (s.failWord pa kind)

end Sys2Proof.Machine
end

