-- ==== Sys2Proof/Machine/Boot.lean ====
section
/-! DEFINITION. A machine in which a given instruction stands where the next turn fetches (log entry 12): a partition with one
page, and a block with one group at its first word, or a stream with its instruction fetched. It stands for the work of
firmware, driver and host that brings a program in. -/

namespace Sys2Proof.Machine

/-- Page table of the placed partition: three pointers and a leaf of 32 MiB, readable and writable, for address 0. -/
def bootTables : List (Nat × Nat) :=
  [(0x4000000, 0x4001001), (0x4001000, 0x4002001), (0x4002000, 0x4003001), (0x4003000, 0x2000027)]
/-- Where the word lies: offset 0x40 of a code object at address 0. -/
def bootPa : Nat := 0x2000040
def State.bootMem (s : State) (bs : List Byte) : State :=
  let m := bootTables.foldl (fun m e => Cells.writes 0 m e.1 (toBytes 8 e.2)) s.mem
  { s with mem := Cells.writes 0 m bootPa bs }
/-- The placed partition: it holds die 0 and its core 0. -/
def bootPart : Part :=
  { Part.empty with en := true, vecs := 64, maxprio := 11, aidq := 256, ptroot := 0x4000001, scr := 2 ^ 40, frames := 2 ^ 41, dies := [0] }
def bootHdr : Hdr := { Hdr.empty with base := 0, size := 0x80, entry := 0x40, floor := 32, cap := 64, shapes := 32, scratch := 65536 }
def bootBlock (order : Nat) : Block :=
  { Block.empty with hdr := bootHdr, groups := [2], shapes := List.replicate 32 ⟨none, [], false⟩, launched := order, placed := 1,
                     retired := false }
/-- The placed group, in the trap handler where the word is one of its own. -/
def bootGroup (inHandler : Bool) : Group :=
  let g := Group.start 0 1 0 0 bootHdr
  if inHandler then
    { g with handler := some { pcs := g.pcs, s := zeroS, v := List.replicate 8 (List.replicate 16 0), tcause := 0, taddr := 0,
                               tlanes := 0, own := zeroLog, base := 0, size := 0x80 } }
  else g
/-- Place the word of a group. -/
def State.placeWord (s : State) (w : Nat) : State :=
  let t := s.bootMem (toBytes 4 w)
  { t with
    powered := true, broken := false, parts := t.parts.ins 0 bootPart, blocks := t.blocks.ins 1 (bootBlock t.wclock),
    groups := t.groups.ins 2 (bootGroup (privileged w)), cores := t.cores.ins 0 { Core.empty with part := some 0 },
    turns := [⟨0, .issue 0 0 0⟩] }
/-- Place the instruction of a stream. -/
def State.placeStream (s : State) (n : Nat) : State :=
  let t := s.bootMem (toBytes 16 n)
  { t with
    powered := true, broken := false, parts := t.parts.ins 0 bootPart, cores := t.cores.ins 0 { Core.empty with part := some 0 },
    streams := t.streams.ins 0 { Stream.empty with state := .running, ctx := { StreamCtx.empty with pc := 0x40 }, run := [(0x40, .word n)] },
    turns := [⟨0, .front 0 0⟩] }

end Sys2Proof.Machine
end

