-- ==== Sys2Proof/Machine/Control.lean ====
section
/-! DEFINITION. Lane control, TRAPI and WAITCY (R160 to R163, R167, R168). EXIT stands in Handler.lean beside TEND. -/

namespace Sys2Proof.Machine

/-- ia plus a signed count of words (R127, R161). -/
def Group.target (g : Group) (words : Int) : Word := g.ia + BitVec.ofInt 32 (4 * words)
/-- Send each executing lane to its place; the word has issued. -/
def State.branch (s : State) (sw : Bool) (f : Nat → Word) : State := ({ s with cg := s.cg.jump f } : State).issued sw

def execBrc (sw : Bool) (p : PReg) (neg : Bool) (off : BitVec 20) (s : State) : Out :=
  .next (s.branch sw fun l => if s.rdP p l != neg then s.cg.target off.toInt else s.cg.ia + 4)
def execJmpx (sw : Bool) (a : VSrc) (s : State) : Out :=
  let t := a.touch false
  .next (s.operands t ((s.freeV t.vf).branch sw fun l => s.rdV a.reg l))
def execBra (sw : Bool) (off : BitVec 24) (s : State) : Out := .next (s.branch sw fun _ => s.cg.target off.toInt)
def execBru (sw : Bool) (c : UCnd) (r : SReg) (off : BitVec 16) (s : State) : Out :=
  .next (s.operands (readS r false) (s.branch sw fun _ =>
    if c.holds (s.rdS r) then s.cg.target off.toInt else s.cg.ia + 4))
/-- CALL: s30 := ia + 4, s31 := ia (R161, R163). -/
def execCall (sw : Bool) (off : BitVec 24) (s : State) : Out :=
  .next (s.operands (writeS 30 true) (((s.wrS 30 (s.cg.ia + 4)).wrS 31 s.cg.ia).branch sw fun _ => s.cg.target off.toInt))
def execRet (sw : Bool) (s : State) : Out :=
  .next (s.operands (readS 30 false) (s.branch sw fun _ => s.rdS 30))

/-- TRAPI: the PCs move on before the trap (R167). -/
def execTrapi (sw : Bool) (code : BitVec 16) (s : State) : Out :=
  .next (({ s with cg := (s.cg.raise s.now 0x0C 0 code.toNat s.wordAddr (laneMask s.cg.exLanes)).advance } : State).issued sw)
/-- WAITCY n: nothing issues for n cycles (R168). -/
def execWaitcy (sw : Bool) (n : BitVec 16) (s : State) : Out :=
  let t := s.finish sw
  .next (if n = 0 then t else t.parkAt (.waitcy (s.now + n.toNat)))

end Sys2Proof.Machine
end

