-- ==== Sys2Proof/Machine/Convert.lean ====
section
/-! DEFINITION. Conversion and packing words (R189 to R193). -/

namespace Sys2Proof.Machine

/-- CVT and CVTSAT (R189, R190). -/
def State.cvt (s : State) (sw sat : Bool) (dst src : Fmt) (d a : VReg) : State :=
  s.fpWord sw d dst.wide (readV a src.wide) fun l =>
    convert sat s.cg.mode dst src (s.vNum a src.wide l % 2 ^ Fmt.bits src)
def execCvt (sw : Bool) (dst src : Fmt) (d a : VReg) (s : State) : Out := .next (s.cvt sw false dst src d a)
def execCvtsat (sw : Bool) (dst src : Fmt) (d a : VReg) (s : State) : Out := .next (s.cvt sw true dst src d a)
/-- CVTS: the random bits come from b (R191). -/
def execCvts (sw : Bool) (dst : Fmt) (d a b : VReg) (s : State) : Out :=
  .next (s.fpWord sw d false ((readV a false).plus (readV b false)) fun l =>
    convertSr dst (s.vNum a false l) (s.vNum b false l % 2 ^ 16))

def byteAt (x i : Nat) : Nat := x / 2 ^ (8 * i) % 2 ^ 8
def nibbleAt (x i : Nat) : Nat := x / 2 ^ (4 * i) % 2 ^ 4

/-- PACK (R192). -/
def pack (f : Piece) (x y : Nat) : Nat :=
  match f with
  | .b16 => x % 2 ^ 16 + y % 2 ^ 16 * 2 ^ 16
  | .b8 => byteAt x 0 + byteAt x 2 * 2 ^ 8 + byteAt y 0 * 2 ^ 16 + byteAt y 2 * 2 ^ 24
  | .b4 => sumTo 4 fun j => byteAt x j % 16 * 2 ^ (4 * j) + byteAt y j % 16 * 2 ^ (4 * j + 16)
/-- UNPK: d in the low word, d + 1 in the high word (R192). -/
def unpk (f : Piece) (x : Nat) : Nat :=
  match f with
  | .b16 => x % 2 ^ 16 + x / 2 ^ 16 % 2 ^ 16 * 2 ^ 32
  | .b8 => byteAt x 0 + byteAt x 1 * 2 ^ 16 + byteAt x 2 * 2 ^ 32 + byteAt x 3 * 2 ^ 48
  | .b4 => sumTo 8 fun j => nibbleAt x j * 2 ^ (8 * j)
def execPack (sw : Bool) (f : Piece) (d : VReg) (a : VSrc) (b : BSrc) (s : State) : Out :=
  .next (s.intWord sw d false ((a.touch false).plus (b.touch false)) fun l =>
    pack f (s.vNum a.reg false l) (s.bNum b false l))
def execUnpk (sw : Bool) (f : Piece) (d : VReg) (a : VSrc) (s : State) : Out :=
  .next (s.intWord sw d true (a.touch false) fun l => unpk f (s.vNum a.reg false l))

/-- SCLE: the scale is bits [7:0] of the 32-bit b (R193). -/
def execScle (sw : Bool) (t : F4) (d : VReg) (a : VSrc) (b : BSrc) (s : State) : Out :=
  let f := Fmt.fpD t.fmt
  .next (s.fpWord sw d t.wide ((a.touch t.wide).plus (b.touch false)) fun l =>
    f.scale s.cg.mode (f.decode (s.vNum a.reg t.wide l % 2 ^ Fmt.bits t.fmt)) (s.bNum b false l % 256))

end Sys2Proof.Machine
end

