-- ==== Sys2Proof/Machine/Dispatch.lean ====
section
/-! DEFINITION. The dispatch: one arm per constructor of `Instr`. -/

namespace Sys2Proof.Machine

def exec (i : Instr) (s : State) : Host.Outcome State Fault Refusal :=
  match i with
  | .iadd sw t d a b => Sys2Proof.Machine.execIadd sw t d a b s
  | .isub sw t d a b => Sys2Proof.Machine.execIsub sw t d a b s
  | .imul sw t d a b => Sys2Proof.Machine.execImul sw t d a b s
  | .imulh sw t d a b => Sys2Proof.Machine.execImulh sw t d a b s
  | .imad sw t d a b => Sys2Proof.Machine.execImad sw t d a b s
  | .imin sw t d a b => Sys2Proof.Machine.execImin sw t d a b s
  | .imax sw t d a b => Sys2Proof.Machine.execImax sw t d a b s
  | .iabs sw w64 d a => Sys2Proof.Machine.execIabs sw w64 d a s
  | .logic sw f d a b => Sys2Proof.Machine.execLogic sw f d a b s
  | .shift sw f d a b => Sys2Proof.Machine.execShift sw f d a b s
  | .bits sw f d a => Sys2Proof.Machine.execBits sw f d a s
  | .bfx sw signed d a b => Sys2Proof.Machine.execBfx sw signed d a b s
  | .bfi sw d a b => Sys2Proof.Machine.execBfi sw d a b s
  | .iset sw c p a b => Sys2Proof.Machine.execIset sw c p a b s
  | .iaddi sw d a k => Sys2Proof.Machine.execIaddi sw d a k s
  | .lea sw sh d a b => Sys2Proof.Machine.execLea sw sh d a b s
  | .fadd sw t d a b => Sys2Proof.Machine.execFadd sw t d a b s
  | .fsub sw t d a b => Sys2Proof.Machine.execFsub sw t d a b s
  | .fmul sw t d a b => Sys2Proof.Machine.execFmul sw t d a b s
  | .ffma sw t d a b => Sys2Proof.Machine.execFfma sw t d a b s
  | .fmin sw t d a b => Sys2Proof.Machine.execFmin sw t d a b s
  | .fmax sw t d a b => Sys2Proof.Machine.execFmax sw t d a b s
  | .fdiv sw t d a b => Sys2Proof.Machine.execFdiv sw t d a b s
  | .fsqrt sw t d a => Sys2Proof.Machine.execFsqrt sw t d a s
  | .fsetF32 sw c p a b => Sys2Proof.Machine.execFsetF32 sw c p a b s
  | .fsetF64 sw c p a b => Sys2Proof.Machine.execFsetF64 sw c p a b s
  | .fclass sw t d a => Sys2Proof.Machine.execFclass sw t d a s
  | .fsgn sw f t d a b => Sys2Proof.Machine.execFsgn sw f t d a b s
  | .rsqa sw t d a => Sys2Proof.Machine.execRsqa sw t d a s
  | .rcpa sw t d a => Sys2Proof.Machine.execRcpa sw t d a s
  | .ex2a sw t d a => Sys2Proof.Machine.execEx2a sw t d a s
  | .lg2a sw t d a => Sys2Proof.Machine.execLg2a sw t d a s
  | .cvt sw dst src d a => Sys2Proof.Machine.execCvt sw dst src d a s
  | .cvtsat sw dst src d a => Sys2Proof.Machine.execCvtsat sw dst src d a s
  | .cvts sw dst d a b => Sys2Proof.Machine.execCvts sw dst d a b s
  | .pack sw f d a b => Sys2Proof.Machine.execPack sw f d a b s
  | .unpk sw f d a => Sys2Proof.Machine.execUnpk sw f d a s
  | .scle sw t d a b => Sys2Proof.Machine.execScle sw t d a b s
  | .matchLanes sw t d a => Sys2Proof.Machine.execMatchLanes sw t d a s
  | .lsr sw r d => Sys2Proof.Machine.execLsr sw r d s
  | .movi sw d k => Sys2Proof.Machine.execMovi sw d k s
  | .movu sw w64 d b => Sys2Proof.Machine.execMovu sw w64 d b s
  | .sel sw p d a b => Sys2Proof.Machine.execSel sw p d a b s
  | .shfl sw m d a b => Sys2Proof.Machine.execShfl sw m d a b s
  | .vote sw m d p => Sys2Proof.Machine.execVote sw m d p s
  | .redl sw t op d a => Sys2Proof.Machine.execRedl sw t op d a s
  | .scanl sw t op d a => Sys2Proof.Machine.execScanl sw t op d a s
  | .topk sw k d a => Sys2Proof.Machine.execTopk sw k d a s
  | .ld sw t h d a r => Sys2Proof.Machine.execLd sw t h d a r s
  | .st sw t h d a r => Sys2Proof.Machine.execSt sw t h d a r s
  | .lds sw t d a r => Sys2Proof.Machine.execLds sw t d a r s
  | .sts sw t d a r => Sys2Proof.Machine.execSts sw t d a r s
  | .ldc sw t d a r => Sys2Proof.Machine.execLdc sw t d a r s
  | .stc sw t d a r => Sys2Proof.Machine.execStc sw t d a r s
  | .atom sw w64 op sem d a b => Sys2Proof.Machine.execAtom sw w64 op sem d a b s
  | .redAtom sw w64 op sem a b => Sys2Proof.Machine.execRedAtom sw w64 op sem a b s
  | .atomf sw op sem d a b => Sys2Proof.Machine.execAtomf sw op sem d a b s
  | .redAtomf sw op sem a b => Sys2Proof.Machine.execRedAtomf sw op sem a b s
  | .gld sw comp anyStep h d a r => Sys2Proof.Machine.execGld sw comp anyStep h d a r s
  | .brc sw p neg off => Sys2Proof.Machine.execBrc sw p neg off s
  | .jmpx sw a => Sys2Proof.Machine.execJmpx sw a s
  | .uadd sw t d a b => Sys2Proof.Machine.execUadd sw t d a b s
  | .usub sw t d a b => Sys2Proof.Machine.execUsub sw t d a b s
  | .umul sw t d a b => Sys2Proof.Machine.execUmul sw t d a b s
  | .umulh sw t d a b => Sys2Proof.Machine.execUmulh sw t d a b s
  | .ulog sw f d a b => Sys2Proof.Machine.execUlog sw f d a b s
  | .ush sw f d a b => Sys2Proof.Machine.execUsh sw f d a b s
  | .umin sw t d a b => Sys2Proof.Machine.execUmin sw t d a b s
  | .umax sw t d a b => Sys2Proof.Machine.execUmax sw t d a b s
  | .uaddi sw d a k => Sys2Proof.Machine.execUaddi sw d a k s
  | .ulil sw sx d k => Sys2Proof.Machine.execUlil sw sx d k s
  | .ulih sw d k => Sys2Proof.Machine.execUlih sw d k s
  | .ucmp sw w64 c d a b => Sys2Proof.Machine.execUcmp sw w64 c d a b s
  | .movsr sw d r => Sys2Proof.Machine.execMovsr sw d r s
  | .movrs sw r d => Sys2Proof.Machine.execMovrs sw r d s
  | .vget sw d a v => Sys2Proof.Machine.execVget sw d a v s
  | .ulea sw sh d a b => Sys2Proof.Machine.execUlea sw sh d a b s
  | .bra sw off => Sys2Proof.Machine.execBra sw off s
  | .bru sw c r off => Sys2Proof.Machine.execBru sw c r off s
  | .call sw off => Sys2Proof.Machine.execCall sw off s
  | .ret sw => Sys2Proof.Machine.execRet sw s
  | .exit sw => Sys2Proof.Machine.execExit sw s
  | .trapi sw code => Sys2Proof.Machine.execTrapi sw code s
  | .waitcy sw n => Sys2Proof.Machine.execWaitcy sw n s
  | .bar sw count => Sys2Proof.Machine.execBar sw count s
  | .cbar sw => Sys2Proof.Machine.execCbar sw s
  | .fence sw k sc => Sys2Proof.Machine.execFence sw k sc s
  | .waita sw sc w64 c x y z => Sys2Proof.Machine.execWaita sw sc w64 c x y z s
  | .qinit sw cons prod x y => Sys2Proof.Machine.execQinit sw cons prod x y s
  | .qpush sw x y => Sys2Proof.Machine.execQpush sw x y s
  | .qpop sw x y => Sys2Proof.Machine.execQpop sw x y s
  | .uatom sw discard op sem x y z => Sys2Proof.Machine.execUatom sw discard op sem x y z s
  | .ldsh sw scr x y => Sys2Proof.Machine.execLdsh sw scr x y s
  | .evsh sw x => Sys2Proof.Machine.execEvsh sw x s
  | .copy sw sp24 mc arr acq x y z => Sys2Proof.Machine.execCopy sw sp24 mc arr acq x y z s
  | .mxlw sw acq x => Sys2Proof.Machine.execMxlw sw acq x s
  | .mxrun sw z0 acq x y z => Sys2Proof.Machine.execMxrun sw z0 acq x y z s
  | .hpub sw x y z => Sys2Proof.Machine.execHpub sw x y z s
  | .xsend sw acq x => Sys2Proof.Machine.execXsend sw acq x s
  | .xwait sw poll x y => Sys2Proof.Machine.execXwait sw poll x y s
  | .xdone sw wlo x y z => Sys2Proof.Machine.execXdone sw wlo x y z s
  | .guess sw x y z => Sys2Proof.Machine.execGuess sw x y z s
  | .affirm sw x => Sys2Proof.Machine.execAffirm sw x s
  | .deny sw x => Sys2Proof.Machine.execDeny sw x s
  | .hold sw any => Sys2Proof.Machine.execHold sw any s
  | .tret sw => Sys2Proof.Machine.execTret sw s
  | .tend sw fail => Sys2Proof.Machine.execTend sw fail s
  | .treg sw x op => Sys2Proof.Machine.execTreg sw x op s
  | .errld sw f x => Sys2Proof.Machine.execErrld sw f x s
  | .defb n len => Sys2Proof.Machine.execDefb n len s
  | .bindb n qa len => Sys2Proof.Machine.execBindb n qa len s
  | .relb n => Sys2Proof.Machine.execRelb n s
  | .launch qa => Sys2Proof.Machine.execLaunch qa s
  | .copyt whole dst qa src qb len => Sys2Proof.Machine.execCopyt whole dst qa src qb len s
  | .fill whole dst qa qb len => Sys2Proof.Machine.execFill whole dst qa qb len s
  | .jmp t => Sys2Proof.Machine.execJmp t s
  | .streamCall t => Sys2Proof.Machine.execStreamCall t s
  | .streamRet => Sys2Proof.Machine.execStreamRet s
  | .brq c qa y off => Sys2Proof.Machine.execBrq c qa y off s
  | .when c x qb n => Sys2Proof.Machine.execWhen c x qb n s
  | .loop qa off => Sys2Proof.Machine.execLoop qa off s
  | .ffence => Sys2Proof.Machine.execFfence s
  | .ldq sz sx qa qb disp => Sys2Proof.Machine.execLdq sz sx qa qb disp s
  | .stq sz qa qb disp => Sys2Proof.Machine.execStq sz qa qb disp s
  | .aluq op qa qb y => Sys2Proof.Machine.execAluq op qa qb y s
  | .movq qa src => Sys2Proof.Machine.execMovq qa src s
  | .halt => Sys2Proof.Machine.execHalt s
  | .waits sc qa qb us => Sys2Proof.Machine.execWaits sc qa qb us s
  | .signal sc add qa qb => Sys2Proof.Machine.execSignal sc add qa qb s
  | .mark qa => Sys2Proof.Machine.execMark qa s
  | .hostint vec => Sys2Proof.Machine.execHostint vec s
  | .prio level => Sys2Proof.Machine.execPrio level s
  | .detm on => Sys2Proof.Machine.execDetm on s
  | .gdef qa => Sys2Proof.Machine.execGdef qa s
  | .gstep qa qb => Sys2Proof.Machine.execGstep qa qb s
  | .xdef qa layer count => Sys2Proof.Machine.execXdef qa layer count s
  | .xfill qa layer expert die len => Sys2Proof.Machine.execXfill qa layer expert die len s
  | .xpin off layer expert die => Sys2Proof.Machine.execXpin off layer expert die s
  | .xmerge qa layer expert len => Sys2Proof.Machine.execXmerge qa layer expert len s
  | .scmdStart part stream addr => Sys2Proof.Machine.execScmdStart part stream addr s
  | .scmdResume part stream => Sys2Proof.Machine.execScmdResume part stream s
  | .scmdAbort part stream => Sys2Proof.Machine.execScmdAbort part stream s
  | .abortComplete part stream => Sys2Proof.Machine.execAbortComplete part stream s
  | .frontEndAccess part stream => Sys2Proof.Machine.execFrontEndAccess part stream s
  | .decodeAfterWait part => Sys2Proof.Machine.execDecodeAfterWait part s
  | .taskIssue part => Sys2Proof.Machine.execTaskIssue part s
  | .taskComplete task => Sys2Proof.Machine.execTaskComplete task s
  | .taskRetire part stream => Sys2Proof.Machine.execTaskRetire part stream s
  | .streamFault part stream => Sys2Proof.Machine.execStreamFault part stream s
  | .dieLostResume part stream => Sys2Proof.Machine.execDieLostResume part stream s
  | .waitsTimeout task => Sys2Proof.Machine.execWaitsTimeout task s
  | .blockPlace part die => Sys2Proof.Machine.execBlockPlace part die s
  | .gangLaunchAdmit task => Sys2Proof.Machine.execGangLaunchAdmit task s
  | .stealRequest task thief => Sys2Proof.Machine.execStealRequest task thief s
  | .stealAnswer task thief => Sys2Proof.Machine.execStealAnswer task thief s
  | .coreRescue die core => Sys2Proof.Machine.execCoreRescue die core s
  | .tlbWalkComplete group => Sys2Proof.Machine.execTlbWalkComplete group s
  | .loadReturn group seq => Sys2Proof.Machine.execLoadReturn group seq s
  | .homeLoad req => Sys2Proof.Machine.execHomeLoad req s
  | .homeWrite req => Sys2Proof.Machine.execHomeWrite req s
  | .homeAtomic req => Sys2Proof.Machine.execHomeAtomic req s
  | .storeAck req => Sys2Proof.Machine.execStoreAck req s
  | .errorResponse req => Sys2Proof.Machine.execErrorResponse req s
  | .movedResponse req => Sys2Proof.Machine.execMovedResponse req s
  | .flushMarker req => Sys2Proof.Machine.execFlushMarker req s
  | .wcbDrainTimeout die core line => Sys2Proof.Machine.execWcbDrainTimeout die core line s
  | .migcmdGo part v => Sys2Proof.Machine.execMigcmdGo part v s
  | .migrationFinal part => Sys2Proof.Machine.execMigrationFinal part s
  | .migrationSwitch part => Sys2Proof.Machine.execMigrationSwitch part s
  | .migrationDone part => Sys2Proof.Machine.execMigrationDone part s
  | .tlbinvPage part va => Sys2Proof.Machine.execTlbinvPage part va s
  | .tlbinvRegion part va => Sys2Proof.Machine.execTlbinvRegion part va s
  | .tlbinvPartition part => Sys2Proof.Machine.execTlbinvPartition part s
  | .tlbinvComplete part => Sys2Proof.Machine.execTlbinvComplete part s
  | .copyBegin block => Sys2Proof.Machine.execCopyBegin block s
  | .copyUnitWrite copy unit => Sys2Proof.Machine.execCopyUnitWrite copy unit s
  | .copyComplete copy => Sys2Proof.Machine.execCopyComplete copy s
  | .mxlwLatch die cluster pos => Sys2Proof.Machine.execMxlwLatch die cluster pos s
  | .mxrunGrant die cluster => Sys2Proof.Machine.execMxrunGrant die cluster s
  | .mxrunPassEnd die cluster => Sys2Proof.Machine.execMxrunPassEnd die cluster s
  | .hpubCapture group => Sys2Proof.Machine.execHpubCapture group s
  | .haloDelivery grid part => Sys2Proof.Machine.execHaloDelivery grid part s
  | .ringTagSet grid part ring => Sys2Proof.Machine.execRingTagSet grid part ring s
  | .staleHalo group => Sys2Proof.Machine.execStaleHalo group s
  | .xsendArrival send => Sys2Proof.Machine.execXsendArrival send s
  | .inboundSlotFree send => Sys2Proof.Machine.execInboundSlotFree send s
  | .xsendAck send => Sys2Proof.Machine.execXsendAck send s
  | .xsendTimeout send => Sys2Proof.Machine.execXsendTimeout send s
  | .replicaTableUpdate part layer expert die => Sys2Proof.Machine.execReplicaTableUpdate part layer expert die s
  | .prismWindowEnd part => Sys2Proof.Machine.execPrismWindowEnd part s
  | .fillComplete part layer expert die => Sys2Proof.Machine.execFillComplete part layer expert die s
  | .evictComplete part layer expert die => Sys2Proof.Machine.execEvictComplete part layer expert die s
  | .pxctlWrite part v => Sys2Proof.Machine.execPxctlWrite part v s
  | .barRelease block => Sys2Proof.Machine.execBarRelease block s
  | .cbarRelease gang => Sys2Proof.Machine.execCbarRelease gang s
  | .waitTimeout group => Sys2Proof.Machine.execWaitTimeout group s
  | .waitcyExpiry group => Sys2Proof.Machine.execWaitcyExpiry group s
  | .parkResume group => Sys2Proof.Machine.execParkResume group s
  | .trapEntry group => Sys2Proof.Machine.execTrapEntry group s
  | .aidAffirmation aid => Sys2Proof.Machine.execAidAffirmation aid s
  | .aidDenial aid => Sys2Proof.Machine.execAidDenial aid s
  | .preempt block why => Sys2Proof.Machine.execPreempt block why s
  | .blockRestore block die core => Sys2Proof.Machine.execBlockRestore block die core s
  | .dieEvacuation die spare => Sys2Proof.Machine.execDieEvacuation die spare s
  | .dieLoss die => Sys2Proof.Machine.execDieLoss die s
  | .partitionTeardown part => Sys2Proof.Machine.execPartitionTeardown part s
  | .corePartitionMove die core => Sys2Proof.Machine.execCorePartitionMove die core s
  | .blockRetire block => Sys2Proof.Machine.execBlockRetire block s
  | .gridComplete task => Sys2Proof.Machine.execGridComplete task s
  | .leaseRenew => Sys2Proof.Machine.execLeaseRenew s
  | .leaseLapse die => Sys2Proof.Machine.execLeaseLapse die s
  | .leaseClaim die => Sys2Proof.Machine.execLeaseClaim die s
  | .takeoverComplete => Sys2Proof.Machine.execTakeoverComplete s
  | .journalEntry d => Sys2Proof.Machine.execJournalEntry d s
  | .journalAckTimeout die => Sys2Proof.Machine.execJournalAckTimeout die s
  | .powerUp => Sys2Proof.Machine.execPowerUp s
  | .firmwareLoad image => Sys2Proof.Machine.execFirmwareLoad image s
  | .thermalThrottle die temp budget => Sys2Proof.Machine.execThermalThrottle die temp budget s
  | .thermalShutdown die temp => Sys2Proof.Machine.execThermalShutdown die temp s
  | .linkDown link => Sys2Proof.Machine.execLinkDown link s
  | .linkUp link => Sys2Proof.Machine.execLinkUp link s
  | .hostWindowAccess part off acc => Sys2Proof.Machine.execHostWindowAccess part off acc s
  | .hostAtomicop part off op => Sys2Proof.Machine.execHostAtomicop part off op s
  | .bufadd part v => Sys2Proof.Machine.execBufadd part v s
  | .attgo part v => Sys2Proof.Machine.execAttgo part v s
  | .reportWritten part => Sys2Proof.Machine.execReportWritten part s
  | .pctlWrite part v => Sys2Proof.Machine.execPctlWrite part v s
  | .registerWrite r v => Sys2Proof.Machine.execRegisterWrite r v s
  | .packagePowerLoss => Sys2Proof.Machine.execPackagePowerLoss s
  | .journalAcknowledge die seq => Sys2Proof.Machine.execJournalAcknowledge die seq s

end Sys2Proof.Machine
end

