-- ==== Sys2Proof/Machine/Step.lean ====
section
/-! DEFINITION. One step of the machine: the next turn. -/

namespace Sys2Proof.Machine

/-- One step: the next turn runs, with `exec` as the meaning of what it decodes or of what happens in it. -/
def step (s : State) : Host.Outcome State Fault Refusal :=
  s.nextTurn.2.runAct exec s.nextTurn.1.act

/-- The state with an instruction where the next step fetches: a word of a group for 32 bits, an S instruction for more. -/
def State.withFetchWord (s : State) (nbits w : Nat) : State := if 32 < nbits then s.placeStream w else s.placeWord w

end Sys2Proof.Machine
end

