-- ==== Sys2Proof/Safety.lean ====
section
/-! DEFINITION. What statements about this machine speak of: when a word's operands let it run, what a word leaves alone,
and what every run keeps. -/

namespace Sys2Proof.Machine

/-! ## Words of a group -/

/-- The v names exist in the bank in use: v0 to v63 outside the handler, the handler's own within it (R369). -/
def Group.hasV (g : Group) (ns : List Nat) : Bool :=
  ns.all fun r => decide (r < 64) && (match g.handler with
    | some h => decide (r < h.v.length)
    | none => true)
/-- The s names exist. -/
def hasS (ns : List Nat) : Bool := ns.all fun r => decide (r < 32)

/-- The operands of a word let it run: REGTRAP does not trap it, its registers neither trap it nor park it (R138 to R140,
R144), and the names it writes exist. -/
def State.canRun (s : State) (tc : Touch) : Bool :=
  !(s.cb.hdr.regtrap && s.cg.undefHit tc) && s.verdict tc.holds tc.vf tc.vw == .ok && s.cg.hasV tc.vw && hasS tc.sw

/-- A word has issued and its executing lanes went on by 4; the other lanes stand where they stood (R155). -/
def WentOn (s t : State) : Prop :=
  ∀ l, l < s.cg.width →
    t.cg.curPcs.getD l none = if s.cg.ex l then some (s.cg.ia + 4) else s.cg.curPcs.getD l none

/-- What a word that only computes leaves alone. `tc` names the v registers it frees or writes and the s registers it
writes, `ps` the predicates. -/
structure Framed (s t : State) (tc : Touch) (ps : List Nat) : Prop where
  /-- every register, table and memory outside the group that issued -/
  rest : t = { s with cg := t.cg, free := t.free, nextId := t.nextId }
  dev : ∀ pa, t.devByte pa = s.devByte pa
  host : ∀ l ba, t.hostByte l ba = s.hostByte l ba
  pad : ∀ a, t.cb.padByte a = s.cb.padByte a
  /-- every v name that is neither written nor freed -/
  v : ∀ r, r ∉ tc.vw → r ∉ tc.vf → s.cg.undefV r = false →
    t.cg.undefV r = false ∧ ∀ l, t.rdV r l = s.rdV r l
  /-- every s name that is not written -/
  u : ∀ r, r ∉ tc.sw → s.cg.pendS r = false → t.cg.pendS r = false ∧ t.rdS r = s.rdS r
  /-- every predicate that is not written -/
  p : ∀ q l, q ∉ ps → t.rdP q l = s.rdP q l
  /-- the rounding mode, the flag masks, the assumption set and its snapshots, a trap and the traps that wait, the
  handler's cause registers, and the writes that are outstanding -/
  frm : t.cg.frm = s.cg.frm
  fmask : t.cg.fmask = s.cg.fmask
  aset : t.cg.aset = s.cg.aset
  snaps : t.cg.snaps = s.cg.snaps
  trap : t.cg.trap = s.cg.trap ∧ t.cg.pend = s.cg.pend ∧ t.cg.park = s.cg.park
  hand : (s.cg.handler = none ∧ t.cg.handler = none) ∨
    (∃ h k, s.cg.handler = some h ∧ t.cg.handler = some k ∧ k.tcause = h.tcause ∧ k.taddr = h.taddr ∧
      k.tlanes = h.tlanes ∧ k.base = h.base ∧ k.size = h.size ∧ k.own = h.own)
  /-- while the handler runs, the registers and lanes of the program it interrupted -/
  prog : s.cg.inH = true → t.cg.pcs = s.cg.pcs ∧ t.cg.s = s.cg.s ∧ t.cg.vmap = s.cg.vmap ∧ t.cg.phys = s.cg.phys
  out : t.cg.out.map (·.seq) = s.cg.out.map (·.seq)
  shape : t.cg.width = s.cg.width ∧ t.cg.num = s.cg.num ∧ t.cg.blk = s.cg.blk ∧ t.cg.done = s.cg.done

/-- The executing lanes of the v names `ns` hold the words of `val`, lowest first; a name whose earlier write is still
outstanding becomes undefined instead (R144). -/
def WroteV (s t : State) (ns : List Nat) (lanes : Nat → Bool) (val : Nat → Nat) : Prop :=
  ∀ k r, ns[k]? = some r → s.cg.pendV r = false →
    t.cg.undefV r = false ∧ ∀ l, l < s.cg.width → lanes l = true → t.rdV r l = wordOf k (val l)
/-- The lanes that a word does not write keep what the name held, unless a snapshot keeps its register (R136). -/
def KeptV (s t : State) (ns vf : List Nat) (lanes : Nat → Bool) : Prop :=
  ∀ r, r ∈ ns → r ∉ vf → s.cg.undefV r = false → s.cg.kept r = false →
    ∀ l, l < s.cg.width → lanes l = false → t.rdV r l = s.rdV r l
/-- A v name that the word frees and does not write reads as undefined afterwards (R137); the handler ignores last use. -/
def FreedV (s t : State) (tc : Touch) : Prop :=
  s.cg.inH = false → ∀ r, r ∈ tc.vf → r < 64 → r ∉ tc.vw → t.cg.mapOf r = none
/-- The s name, or pair, holds a value. -/
def WroteS (s t : State) (ns : List Nat) (val : Nat) : Prop :=
  ∀ k r, ns[k]? = some r → s.cg.pendS r = false → t.cg.pendS r = false ∧ t.rdS r = wordOf k val
/-- Predicate q: the lanes given hold `val`, the others what they held; p0 stays all true (R130). -/
def WroteP (s t : State) (q : Nat) (lanes : Nat → Bool) (val : Nat → Bool) : Prop :=
  ∀ l, l < 64 → t.rdP q l = if q = 0 then true else if lanes l then val l else s.rdP q l

/-! ## Rows: what a computing word writes, as the manual's tables give it -/

/-- A row of a lane word: its switch marker, the names it reads and frees, the v names it writes, the lanes that receive
them, and the number whose words each lane receives. -/
structure LaneRow where
  sw    : Bool
  tc    : Touch
  d     : VReg
  w     : Bool
  lanes : Nat → Bool
  val   : Nat → Nat
/-- All the names of a row. -/
def LaneRow.all (r : LaneRow) : Touch := r.tc.plus (writeV r.d r.w)
/-- The row's word has issued: its lanes hold the values, the other lanes, registers, predicates and memory are as they were,
and the executing lanes went on. -/
def LaneRow.Done (r : LaneRow) (s t : State) : Prop :=
  Framed s t r.all [] ∧ WentOn s t ∧ t.cg.mark = r.sw ∧ t.cg.fflags = s.cg.fflags ∧
  WroteV s t (names r.d r.w) r.lanes r.val ∧ KeptV s t (names r.d r.w) r.tc.vf r.lanes ∧ FreedV s t r.all

/-- A row of a word that writes an s register or a pair. -/
structure UniRow where
  sw  : Bool
  tc  : Touch
  d   : SReg
  w   : Bool
  val : Nat
def UniRow.all (r : UniRow) : Touch := r.tc.plus (writeS r.d r.w)
def UniRow.Done (r : UniRow) (s t : State) : Prop :=
  Framed s t r.all [] ∧ WentOn s t ∧ t.cg.mark = r.sw ∧ t.cg.fflags = s.cg.fflags ∧ WroteS s t (names r.d r.w) r.val

/-- A row of a comparison that writes a predicate in the executing lanes, with the flags each lane raises. -/
structure PredRow where
  sw  : Bool
  tc  : Touch
  p   : PReg
  val : Nat → Bool
  fl  : Nat → Nat
def PredRow.Done (r : PredRow) (s t : State) : Prop :=
  Framed s t r.tc [r.p.val] ∧ WentOn s t ∧ t.cg.mark = r.sw ∧ WroteP s t r.p s.cg.ex r.val ∧ FreedV s t r.tc

/-! ### Integer words by bit vectors (R173, R177, R202) -/

def signedT (t : T4) : Bool :=
  match t with
  | .i32 | .i64 => true
  | _ => false
def bvAdd (t : T4) (x y : Nat) : Nat := (BitVec.ofNat t.nb x + BitVec.ofNat t.nb y).toNat
def bvSub (t : T4) (x y : Nat) : Nat := (BitVec.ofNat t.nb x - BitVec.ofNat t.nb y).toNat
def bvMul (t : T4) (x y : Nat) : Nat := (BitVec.ofNat t.nb x * BitVec.ofNat t.nb y).toNat
/-- The high half of the double-width product. -/
def bvMulh (t : T4) (x y : Nat) : Nat :=
  let ext (v : Nat) : BitVec (2 * t.nb) :=
    if signedT t then (BitVec.ofNat t.nb v).signExtend (2 * t.nb) else (BitVec.ofNat t.nb v).setWidth (2 * t.nb)
  ((ext x * ext y).extractLsb' t.nb t.nb).toNat
def bvMad (t : T4) (x y z : Nat) : Nat :=
  (BitVec.ofNat t.nb z + BitVec.ofNat t.nb x * BitVec.ofNat t.nb y).toNat
def bvLe (t : T4) (x y : Nat) : Bool :=
  if signedT t then (BitVec.ofNat t.nb x).sle (BitVec.ofNat t.nb y) else (BitVec.ofNat t.nb x).ule (BitVec.ofNat t.nb y)
def bvMin (t : T4) (x y : Nat) : Nat := if bvLe t x y then x % 2 ^ t.nb else y % 2 ^ t.nb
def bvMax (t : T4) (x y : Nat) : Nat := if bvLe t x y then y % 2 ^ t.nb else x % 2 ^ t.nb
def bvAbs (n x : Nat) : Nat := if (BitVec.ofNat n x).msb then (-(BitVec.ofNat n x)).toNat else x % 2 ^ n
/-- x + y × 2^sh on 64 bits, y a signed word. -/
def bvLea (x y sh : Nat) : Nat := (BitVec.ofNat 64 x + (BitVec.ofNat 32 y).signExtend 64 <<< sh).toNat
def bvLog (f : Log8) (x y : Nat) : Nat :=
  let mask := 2 ^ 32 - 1
  match f with
  | .and => x % 2 ^ 32 &&& y % 2 ^ 32
  | .or => x % 2 ^ 32 ||| y % 2 ^ 32
  | .xor => x % 2 ^ 32 ^^^ y % 2 ^ 32
  | .andn => x % 2 ^ 32 &&& (y % 2 ^ 32 ^^^ mask)
  | .orn => x % 2 ^ 32 ||| (y % 2 ^ 32 ^^^ mask)
  | .xnor => (x % 2 ^ 32 ^^^ y % 2 ^ 32) ^^^ mask
  | .nand => (x % 2 ^ 32 &&& y % 2 ^ 32) ^^^ mask
  | .nor => (x % 2 ^ 32 ||| y % 2 ^ 32) ^^^ mask
def bvShift (f : Sh7) (x y : Nat) : Nat :=
  match f with
  | .shl => (BitVec.ofNat 32 x <<< (y % 32)).toNat
  | .shr => (BitVec.ofNat 32 x >>> (y % 32)).toNat
  | .sra => ((BitVec.ofNat 32 x).sshiftRight (y % 32)).toNat
  | .rotl => ((BitVec.ofNat 32 x).rotateLeft (y % 32)).toNat
  | .shl64 => (BitVec.ofNat 64 x <<< (y % 64)).toNat
  | .shr64 => (BitVec.ofNat 64 x >>> (y % 64)).toNat
  | .sra64 => ((BitVec.ofNat 64 x).sshiftRight (y % 64)).toNat
/-- BFX: the field of L bits at p, p = y[4:0] and L = min(y[13:8], 32 − p), sign-extended where asked (R178). -/
def bvBfx (signed : Bool) (x y : Nat) : Nat :=
  let p := y % 32
  let len := min (y / 2 ^ 8 % 64) (32 - p)
  let f := (BitVec.ofNat 32 x).extractLsb' p len
  if signed then (f.signExtend 32).toNat else f.toNat
/-- BFI: the low L bits of x take the place of the field of z (R178). -/
def bvBfi (x y z : Nat) : Nat :=
  let p := y % 32
  let len := min (y / 2 ^ 8 % 64) (32 - p)
  let m : BitVec 32 := BitVec.ofNat 32 (2 ^ len - 1) <<< p
  ((BitVec.ofNat 32 z &&& ~~~m) ||| (BitVec.ofNat 32 x <<< p &&& m)).toNat

/-- One operand pair of a lane row. -/
def State.pair (s : State) (sw : Bool) (d : VReg) (w wa wb : Bool) (a : VSrc) (b : BSrc) (f : Nat → Nat → Nat) : LaneRow :=
  ⟨sw, (a.touch wa).plus (b.touch wb), d, w, s.cg.ex, fun l => f (s.vNum a.reg wa l) (s.bNum b wb l)⟩
/-- One operand pair and the old destination. -/
def State.triple (s : State) (sw : Bool) (d : VReg) (w : Bool) (a : VSrc) (b : BSrc) (f : Nat → Nat → Nat → Nat) : LaneRow :=
  ⟨sw, ((a.touch w).plus (b.touch w)).plus (readV d w), d, w, s.cg.ex,
   fun l => f (s.vNum a.reg w l) (s.bNum b w l) (s.vNum d w l)⟩

/-- Integer lane words (R177, R178, R194). -/
def State.integerRow (s : State) : Instr → Option LaneRow
  | .iadd sw t d a b => some (s.pair sw d t.wide t.wide t.wide a b (bvAdd t))
  | .isub sw t d a b => some (s.pair sw d t.wide t.wide t.wide a b (bvSub t))
  | .imul sw t d a b => some (s.pair sw d t.wide t.wide t.wide a b (bvMul t))
  | .imulh sw t d a b => some (s.pair sw d t.wide t.wide t.wide a b (bvMulh t))
  | .imad sw t d a b => some (s.triple sw d t.wide a b (bvMad t))
  | .imin sw t d a b => some (s.pair sw d t.wide t.wide t.wide a b (bvMin t))
  | .imax sw t d a b => some (s.pair sw d t.wide t.wide t.wide a b (bvMax t))
  | .iabs sw w d a => some ⟨sw, a.touch w, d, w, s.cg.ex, fun l => bvAbs (if w then 64 else 32) (s.vNum a.reg w l)⟩
  | .iaddi sw d a k => some ⟨sw, a.touch false, d, false, s.cg.ex, fun l => (s.rdV a.reg l + k.signExtend 32).toNat⟩
  | .lea sw sh d a b => some (s.pair sw d true true false a b fun x y => bvLea x y sh.val)
  | .movi sw d k => some ⟨sw, {}, d, false, s.cg.ex, fun _ => (k.signExtend 32).toNat⟩
  | .movu sw w d b => some ⟨sw, readS b w, d, w, s.cg.ex, fun _ => s.sNum b w⟩
  | _ => none

/-- Bit and packing words (R178, R192, R194). -/
def State.bitRow (s : State) : Instr → Option LaneRow
  | .logic sw f d a b => some (s.pair sw d false false false a b (bvLog f))
  | .shift sw f d a b => some (s.pair sw d f.wide f.wide false a b (bvShift f))
  | .bits sw f d a => some ⟨sw, a.touch false, d, false, s.cg.ex, fun l =>
      let x := s.rdV a.reg l
      match f with
      | .clz => if x = 0 then 32 else 31 - Nat.log2 x.toNat
      | .popc => (List.range 32).countP fun i => x.getLsbD i
      | .brev => x.reverse.toNat
      | .ffs => if x = 0 then 32 else ((List.range 32).filter fun i => x.getLsbD i).headD 32⟩
  | .bfx sw sg d a b => some (s.pair sw d false false false a b (bvBfx sg))
  | .bfi sw d a b => some (s.triple sw d false a b bvBfi)
  | .pack sw f d a b => some (s.pair sw d false false false a b fun x y =>
      let bx (i : Nat) : Nat := x / 2 ^ (8 * i) % 256
      let bY (i : Nat) : Nat := y / 2 ^ (8 * i) % 256
      match f with
      | .b16 => (BitVec.ofNat 16 y ++ BitVec.ofNat 16 x).toNat
      | .b8 => ofBytes [BitVec.ofNat 8 (bx 0), BitVec.ofNat 8 (bx 2), BitVec.ofNat 8 (bY 0), BitVec.ofNat 8 (bY 2)]
      | .b4 => bx 0 % 16 + bx 1 % 16 * 2 ^ 4 + bx 2 % 16 * 2 ^ 8 + bx 3 % 16 * 2 ^ 12 +
          bY 0 % 16 * 2 ^ 16 + bY 1 % 16 * 2 ^ 20 + bY 2 % 16 * 2 ^ 24 + bY 3 % 16 * 2 ^ 28)
  | .unpk sw f d a => some ⟨sw, a.touch false, d, true, s.cg.ex, fun l =>
      let x := (s.rdV a.reg l).toNat
      let byte_ (i : Nat) : Byte := BitVec.ofNat 8 (x / 2 ^ (8 * i))
      let nib (i : Nat) : Byte := BitVec.ofNat 8 (x / 2 ^ (4 * i) % 16)
      match f with
      | .b16 => ofBytes [byte_ 0, byte_ 1, 0, 0, byte_ 2, byte_ 3, 0, 0]
      | .b8 => ofBytes [byte_ 0, 0, byte_ 1, 0, byte_ 2, 0, byte_ 3, 0]
      | .b4 => ofBytes [nib 0, nib 1, nib 2, nib 3, nib 4, nib 5, nib 6, nib 7]⟩
  | .sel sw p d a b => some ⟨sw, (a.touch false).plus (b.touch false), d, false, s.cg.ex, fun l =>
      if s.rdP p l then (s.rdV a.reg l).toNat else s.bNum b false l⟩
  | _ => none

/-- Cross-lane words without flags (R171, R195, R200, R201). TOPK writes the first k + 1 of the executing lanes' places. -/
def State.crossRow (s : State) : Instr → Option LaneRow
  | .lsr sw r d => some ⟨sw, {}, d, false, s.cg.liveLane, fun l =>
      match r with
      | .lane => l
      | .lpc => match s.cg.pcs.getD l none with
        | some a => a.toNat
        | none => 0xFFFF_FFFF⟩
  | .shfl sw m d a b => some ⟨sw, (a.touch false).plus (b.touch false), d, false, s.cg.ex, fun l =>
      let c := s.bNum b false l
      let src : Option Nat := match m with
        | .idx => some c
        | .up => if c ≤ l then some (l - c) else none
        | .down => some (l + c)
        | .xor => some (l ^^^ c)
      match src with
      | some j => if j < s.cg.width ∧ s.cg.ex j = true then (s.rdV a.reg j).toNat else (s.rdV a.reg l).toNat
      | none => (s.rdV a.reg l).toNat⟩
  | .matchLanes sw t d a => some ⟨sw, a.touch t.wide, d, true, s.cg.ex, fun l =>
      laneMask (s.cg.exLanes.filter fun j => matchKeys t (s.vNum a.reg t.wide l) (s.vNum a.reg t.wide j))⟩
  | .topk sw k d a => some ⟨sw, a.touch false, d, true, fun l => s.cg.ex l && Nat.ble l k.val, fun r =>
      match (s.topkOrder a.reg)[r]? with
      | some j => (s.rdV a.reg j).toNat + j * 2 ^ 32
      | none => 0xFFFF_FFFF_7FC0_0000⟩
  | _ => none

/-- Words whose float fields carry no flags (R183, R184). -/
def State.signRow (s : State) : Instr → Option LaneRow
  | .fclass sw t d a => some ⟨sw, a.touch t.wide, d, false, s.cg.ex, fun l =>
      2 ^ (Fmt.fpD t.fmt).classBit ((Fmt.fpD t.fmt).decode (s.vNum a.reg t.wide l % 2 ^ Fmt.bits t.fmt))⟩
  | .fsgn sw f t d a b =>
    let n := if t.wide then 64 else 32
    some ⟨sw, (a.touch t.wide).plus (if f == .copysign then b.touch t.wide else {}), d, t.wide, s.cg.ex, fun l =>
      let x := BitVec.ofNat n (s.vNum a.reg t.wide l)
      let top : BitVec n := BitVec.twoPow n (n - 1)
      match f with
      | .abs => (x &&& ~~~top).toNat
      | .neg => (x ^^^ top).toNat
      | .negabs => (x ||| top).toNat
      | .copysign => ((x &&& ~~~top) ||| (BitVec.ofNat n (s.bNum b t.wide l) &&& top)).toNat⟩
  | _ => none

/-- Uniform words (R172, R196, R202). -/
def State.uniformRow (s : State) : Instr → Option UniRow
  | .uadd sw t d a b => some ⟨sw, (readS a t.wide).plus (readS b t.wide), d, t.wide, bvAdd t (s.sNum a t.wide) (s.sNum b t.wide)⟩
  | .usub sw t d a b => some ⟨sw, (readS a t.wide).plus (readS b t.wide), d, t.wide, bvSub t (s.sNum a t.wide) (s.sNum b t.wide)⟩
  | .umul sw t d a b => some ⟨sw, (readS a t.wide).plus (readS b t.wide), d, t.wide, bvMul t (s.sNum a t.wide) (s.sNum b t.wide)⟩
  | .umulh sw t d a b => some ⟨sw, (readS a t.wide).plus (readS b t.wide), d, t.wide, bvMulh t (s.sNum a t.wide) (s.sNum b t.wide)⟩
  | .umin sw t d a b => some ⟨sw, (readS a t.wide).plus (readS b t.wide), d, t.wide, bvMin t (s.sNum a t.wide) (s.sNum b t.wide)⟩
  | .umax sw t d a b => some ⟨sw, (readS a t.wide).plus (readS b t.wide), d, t.wide, bvMax t (s.sNum a t.wide) (s.sNum b t.wide)⟩
  | .ulog sw f d a b => some ⟨sw, (readS a false).plus (readS b false), d, false, bvLog f (s.rdS a).toNat (s.rdS b).toNat⟩
  | .ush sw f d a b => some ⟨sw, (readS a f.wide).plus (readS b false), d, f.wide, bvShift f (s.sNum a f.wide) (s.rdS b).toNat⟩
  | .uaddi sw d a k => some ⟨sw, readS a false, d, false, (s.rdS a + k.signExtend 32).toNat⟩
  | .ulil sw sx d k => some ⟨sw, {}, d, false, if sx then (k.signExtend 32).toNat else k.toNat⟩
  | .ulih sw d k => some ⟨sw, readS d false, d, false, (k ++ (s.rdS d).setWidth 16).toNat⟩
  | .ucmp sw w c d a b => some ⟨sw, (readS a w).plus (readS b w), d, false,
      if c.holds (if w then 64 else 32) (s.sNum a w) (s.sNum b w) then 1 else 0⟩
  | .ulea sw sh d a b => some ⟨sw, (readS a true).plus (readS b false), d, true, bvLea (s.rdS64 a) (s.rdS b).toNat sh.val⟩
  | .vget sw d a v => some ⟨sw, (readS a false).plus (readV v false), d, false, (s.rdV v ((s.rdS a).toNat % s.cg.width)).toNat⟩
  | .vote sw m d p =>
    let set := s.cg.exLanes.filter fun l => s.rdP p l
    some ⟨sw, {}, d, false, match m with
      | .any => if set = [] then 0 else 1
      | .all => if s.cg.exLanes.all fun l => s.rdP p l then 1 else 0
      | .ballotLo => laneMask set % 2 ^ 32
      | .ballotHi => laneMask set / 2 ^ 32 % 2 ^ 32
      | .count => set.length⟩
  | _ => none

/-! ### Floating words: a code and its flags for each lane (R42, R176) -/

/-- A row of a floating word: the names, and for each lane the code and the flags its operation gives. -/
structure FloatRow where
  sw  : Bool
  tc  : Touch
  d   : VReg
  w   : Bool
  op  : Nat → Nat × Nat
def FloatRow.all (r : FloatRow) : Touch := r.tc.plus (writeV r.d r.w)
/-- The flags that the executing lanes raise together. -/
def FloatRow.raised (r : FloatRow) (s : State) : Nat := s.cg.raised fun l => (r.op l).2
/-- The word has issued: values written, flags collected. -/
def FloatRow.Done (r : FloatRow) (s t : State) : Prop :=
  Framed s t r.all [] ∧ WentOn s t ∧ t.cg.mark = r.sw ∧ t.cg.fflags = s.cg.fflags ||| BitVec.ofNat 5 (r.raised s) ∧
  WroteV s t (names r.d r.w) s.cg.ex (fun l => (r.op l).1) ∧ KeptV s t (names r.d r.w) r.tc.vf s.cg.ex ∧ FreedV s t r.all
/-- A precise trap at the word (R43, R364, R366): nothing is written, the trap is recorded and waits for the handler. -/
def TrappedAt (s t : State) (cause sub code addr lanes : Nat) (flags : BitVec 5) : Prop :=
  t = { s with cg := { s.cg with fflags := flags, trap := some ⟨cause, sub, code, addr, lanes, none, s.cg.ia.toNat, s.cg.seq⟩,
                                 park := some .trap, trapAt := s.now, walked := [], tried := 0 } }

def State.fPair (s : State) (sw : Bool) (d : VReg) (w : Bool) (a : VSrc) (b : BSrc) (f : Nat → Nat → Nat × Nat) : FloatRow :=
  ⟨sw, (a.touch w).plus (b.touch w), d, w, fun l => f (s.vNum a.reg w l) (s.bNum b w l)⟩
def State.fOne (s : State) (sw : Bool) (t : F2) (d : VReg) (a : VSrc) (f : FP → FVal → Nat × Nat) : FloatRow :=
  ⟨sw, a.touch t.wide, d, t.wide, fun l => f (Fmt.fpD t.fmt) ((Fmt.fpD t.fmt).decode (s.vNum a.reg t.wide l))⟩

/-- Floating arithmetic (R179 to R181, R185, R189 to R191, R193). -/
def State.floatRow (s : State) : Instr → Option FloatRow
  | .fadd sw t d a b => some (s.fPair sw d t.wide a b (F6.lift2 t fun f x y => f.add s.cg.mode (f.decode x) (f.decode y)))
  | .fsub sw t d a b => some (s.fPair sw d t.wide a b (F6.lift2 t fun f x y => f.sub s.cg.mode (f.decode x) (f.decode y)))
  | .fmul sw t d a b => some (s.fPair sw d t.wide a b (F6.lift2 t fun f x y => f.mul s.cg.mode (f.decode x) (f.decode y)))
  | .ffma sw t d a b => some ⟨sw, ((a.touch t.wide).plus (b.touch t.wide)).plus (readV d t.wide), d, t.wide, fun l =>
      F6.lift3 t (fun f x y z => f.fma s.cg.mode (f.decode x) (f.decode y) (f.decode z))
        (s.vNum a.reg t.wide l) (s.bNum b t.wide l) (s.vNum d t.wide l)⟩
  | .fmin sw t d a b => some (s.fPair sw d t.wide a b (F6.lift2 t fun f x y => f.minMax false x y))
  | .fmax sw t d a b => some (s.fPair sw d t.wide a b (F6.lift2 t fun f x y => f.minMax true x y))
  | .fdiv sw t d a b => some (s.fPair sw d t.wide a b fun x y =>
      (Fmt.fpD t.fmt).div s.cg.mode ((Fmt.fpD t.fmt).decode x) ((Fmt.fpD t.fmt).decode y))
  | .fsqrt sw t d a => some (s.fOne sw t d a fun f x => f.sqrt s.cg.mode x)
  | .rsqa sw t d a => some (s.fOne sw t d a FP.rsqa)
  | .rcpa sw t d a => some (s.fOne sw t d a FP.rcpa)
  | .ex2a sw t d a => some (s.fOne sw t d a FP.ex2a)
  | .lg2a sw t d a => some (s.fOne sw t d a FP.lg2a)
  | .cvt sw dst src d a => some ⟨sw, readV a src.wide, d, dst.wide, fun l =>
      convert false s.cg.mode dst src (s.vNum a src.wide l % 2 ^ Fmt.bits src)⟩
  | .cvtsat sw dst src d a => some ⟨sw, readV a src.wide, d, dst.wide, fun l =>
      convert true s.cg.mode dst src (s.vNum a src.wide l % 2 ^ Fmt.bits src)⟩
  | .cvts sw dst d a b => some ⟨sw, (readV a false).plus (readV b false), d, false, fun l =>
      convertSr dst (s.rdV a l).toNat ((s.rdV b l).toNat % 2 ^ 16)⟩
  | .scle sw t d a b => some ⟨sw, (a.touch t.wide).plus (b.touch false), d, t.wide, fun l =>
      (Fmt.fpD t.fmt).scale s.cg.mode ((Fmt.fpD t.fmt).decode (s.vNum a.reg t.wide l % 2 ^ Fmt.bits t.fmt)) (s.bNum b false l % 256)⟩
  | _ => none
/-- Reductions and scans: the fixed tree over the executing lanes (R197 to R199). -/
def State.treeRow (s : State) : Instr → Option FloatRow
  | .redl sw t op d a => some ⟨sw, a.touch t.wide, d, t.wide, fun _ => s.treeOf t op a.reg s.cg.width⟩
  | .scanl sw t op d a => some ⟨sw, a.touch t.wide, d, t.wide, fun l => s.treeOf t op a.reg l⟩
  | _ => none
/-- Comparisons (R178, R182). -/
def State.predRow (s : State) : Instr → Option PredRow
  | .iset sw c p a b => some ⟨sw, (a.touch false).plus (b.touch false), p, fun l =>
      c.holds 32 (s.rdV a.reg l).toNat (s.bNum b false l), fun _ => 0⟩
  | .fsetF32 sw c p a b => some ⟨sw, (a.touch false).plus (b.touch false), p,
      fun l => (FCmp.eval c ((Fmt.fpD .f32).decode (s.vNum a.reg false l)) ((Fmt.fpD .f32).decode (s.bNum b false l))).1,
      fun l => (FCmp.eval c ((Fmt.fpD .f32).decode (s.vNum a.reg false l)) ((Fmt.fpD .f32).decode (s.bNum b false l))).2⟩
  | .fsetF64 sw c p a b => some ⟨sw, (a.touch true).plus (b.touch true), p,
      fun l => (FCmp.eval c ((Fmt.fpD .f64).decode (s.vNum a.reg true l)) ((Fmt.fpD .f64).decode (s.bNum b true l))).1,
      fun l => (FCmp.eval c ((Fmt.fpD .f64).decode (s.vNum a.reg true l)) ((Fmt.fpD .f64).decode (s.bNum b true l))).2⟩
  | _ => none

/-! ## Words that send requests (R143, R214, R219, R228, R232, R336) -/

/-- What the frame of such a word starts from: the requests, the core's combining buffer, the writes outstanding and the
park are those after it. -/
def State.after (s t : State) : State :=
  { s with cc := { s.cc with wcb := t.cc.wcb }, reqs := t.reqs, cg := { s.cg with out := t.cg.out, park := t.cg.park } }
/-- Requests that stood before the word stand as they stood. -/
def KeptReqs (s t : State) : Prop := ∀ k, k < s.nextId → t.reqs.find k = s.reqs.find k
/-- A request is on its way under a new number. -/
def Posted (s t : State) (q : Req) : Prop := ∃ k, s.nextId ≤ k ∧ t.reqs.find k = some q
/-- Of the core's combining buffer the entries that pass a test have left as stores of their bytes, and no others (R228). -/
def Drained (s t : State) (p : WcbEntry → Bool) : Prop :=
  t.cc.wcb = s.cc.wcb.filter (fun e => !p e) ∧
  ∀ e, e ∈ s.cc.wcb → p e = true → ∃ k q, s.nextId ≤ k ∧ t.reqs.find k = some q ∧ q.kind = .store e.bytes ∧
    q.loc = .dev (e.line * 128) ∧ q.owners = e.owners
/-- An owner of combined bytes is the word that was issued, in a lane. -/
def Owner.isWord (o : Owner) (s : State) (lane : Nat) : Prop :=
  o.grp = s.cgId ∧ o.seq = s.cg.seq ∧ lane ∈ o.lanes
/-- The bytes of a lane's store at a device address are in the buffer, or on their way in a store of their line (R228). -/
def Carried (s t : State) (pa lane : Nat) : Prop :=
  (∃ e, e ∈ t.cc.wcb ∧ e.line = lineOf pa ∧ ∃ o, o ∈ e.owners ∧ o.isWord s lane) ∨
  ∃ k q, s.nextId ≤ k ∧ t.reqs.find k = some q ∧ q.loc = .dev (lineOf pa * 128) ∧ ∃ o, o ∈ q.owners ∧ o.isWord s lane
/-- The word's result is outstanding: the names it goes to, the lanes that wait, what it waits for (R143); `keep` says that
the group's state is kept until it comes (R336). -/
def Flying (s t : State) (vs ss lanes : List Nat) (w : Waits) (keep : Bool) : Prop :=
  t.cg.out.map (·.seq) = s.cg.out.map (·.seq) ++ [s.cg.seq] ∧
  ∃ f, f ∈ t.cg.out ∧ f.seq = s.cg.seq ∧ f.dest.vNames = vs ∧ f.dest.sNames = ss ∧ f.lanes = lanes ∧ f.waits = w ∧
    f.bank = s.cg.inH ∧ f.drop = false ∧ f.hold = if keep then some (s.cg.snap []) else none
/-- A core's entry of a device line that some lane of an access names. -/
def onLine (lanes : List Nat) (loc : Nat → Loc) (e : WcbEntry) : Bool :=
  lanes.any fun l => match loc l with
    | .dev pa => e.line == lineOf pa
    | _ => false
/-- The word has issued: its executing lanes went on, its switch marker holds, its flags are untouched. -/
def IssuedOn (s t : State) (sw : Bool) : Prop := WentOn s t ∧ t.cg.mark = sw ∧ t.cg.fflags = s.cg.fflags

/-- A row of a load or a store: the names, the type, the data names, and each lane's address and check. -/
structure MemRow where
  sw   : Bool
  tc   : Touch
  ty   : MemTy
  d    : VReg
  va   : Nat → Nat
  chk  : Nat → MemCheck
/-- LD, LDS and LDC (R218, R219). -/
def State.loadRow (s : State) : Instr → Option MemRow
  | .ld sw t _ d a r => some ⟨sw, { (a.touch false).plus (readS r true) with vw := memNames t d, holds := true }, t, d, s.ldAddr a.reg r,
      fun l => s.memCheck t.size true false true none (s.ldAddr a.reg r l)⟩
  | .lds sw t d a r => some ⟨sw, { (a.touch false).plus (readS r false) with vw := memNames t d, holds := true }, t, d,
      fun l => s.cp.scr + (s.padOff a.reg r l).toNat, fun l => s.padCheck t.size (s.padOff a.reg r l)⟩
  | .ldc sw t d a r => some ⟨sw, { (a.touch false).plus (readS r false) with vw := memNames t d, holds := true }, t, d,
      fun l => s.cp.scr + (s.rdV a.reg l).toNat, fun l => s.gangCheck t.size (s.rdS r).toNat (s.rdV a.reg l).toNat⟩
  | _ => none
def storeTouch (t : MemTy) (d : VSrc) (tc : Touch) : Touch :=
  tc.plus { vr := memNames t d.reg, vf := if d.last then memNames t d.reg else [] }
/-- ST, STS and STC (R218, R219). -/
def State.storeRow (s : State) : Instr → Option MemRow
  | .st sw t _ d a r => some ⟨sw, storeTouch t d ((a.touch false).plus (readS r true)), t, d.reg, s.ldAddr a.reg r,
      fun l => s.memCheck t.size false true false none (s.ldAddr a.reg r l)⟩
  | .sts sw t d a r => some ⟨sw, storeTouch t d ((a.touch false).plus (readS r false)), t, d.reg,
      fun l => s.cp.scr + (s.padOff a.reg r l).toNat, fun l => s.padCheck t.size (s.padOff a.reg r l)⟩
  | .stc sw t d a r => some ⟨sw, storeTouch t d ((a.touch false).plus (readS r false)), t, d.reg,
      fun l => s.cp.scr + (s.rdV a.reg l).toNat, fun l => s.gangCheck t.size (s.rdS r).toNat (s.rdV a.reg l).toNat⟩
  | _ => none

/-- A row of an atomic: its operation and semantics, the destination of the returning forms, the address and data names. -/
structure AtomRow where
  sw  : Bool
  op  : UOp
  sem : Sem
  d   : Option VReg
  a   : Nat
  b   : Nat
/-- ATOM, ATOMF and their RED forms (R222). -/
def atomRow : Instr → Option AtomRow
  | .atom sw w op sem d a b => some ⟨sw, .i w op, sem, some d, 2 * a.val, b.val⟩
  | .redAtom sw w op sem a b => some ⟨sw, .i w op, sem, none, 2 * a.val, b.val⟩
  | .atomf sw op sem d a b => some ⟨sw, .f op, sem, some d, a.val, b.val⟩
  | .redAtomf sw op sem a b => some ⟨sw, .f op, sem, none, a.val, b.val⟩
  | _ => none
/-- A compare-and-swap, whose data names hold the comparand and then the new value (R222). -/
def casOp : UOp → Bool
  | .f .casB32 | .f .casB64 => true
  | _ => false
def uopTy (op : UOp) : MemTy := if op.wide then .b64 else .b32
def uopWords (op : UOp) : Nat := if op.wide then 2 else 1
def AtomRow.dest (r : AtomRow) : List Nat := match r.d with
  | some d => memNames (uopTy r.op) d
  | none => []
def AtomRow.tc (r : AtomRow) : Touch :=
  { vr := names r.a true ++ namesN r.b (uopWords r.op * if casOp r.op then 2 else 1), vw := r.dest, holds := true }
def AtomRow.chk (r : AtomRow) (s : State) (l : Nat) : MemCheck := s.memCheck (uopBytes r.op) true true false (some r.op) (s.rdV64 r.a l)
/-- The request of a lane. -/
def AtomRow.req (r : AtomRow) (s : State) (l : Nat) (loc : Loc) : Req :=
  s.atomReq r.op r.sem l (s.rdV64 r.a l) loc (s.vNum r.b r.op.wide l)
    (if casOp r.op then s.vNum (r.b + uopWords r.op) r.op.wide l else 0)
/-- An atomic may be sent (R223, R224, R227, R338 to R340): no floating sum in deterministic mode, no tainted access to the
host or at sys scope, room for undo entries, and no held write before an acquire or release. -/
def State.mayAtom (s : State) (op : UOp) (sem : Sem) (locs : List Loc) : Bool :=
  !(floatAdd op && s.cb.det) && (s.cg.aset.isEmpty || (sem.scope != .sys && !locs.any Loc.isHost)) && !s.undoFull locs &&
  !((sem.acq || sem.rel) && s.heldWrite)

/-- A set that taints nothing, or fits (R336, R340); and the group with it. -/
def State.canTaint (s : State) (set : ASet) : Bool := s.cg.taintFit set == .same || s.cg.taintFit set == .fits
def State.tainted (s : State) (set : ASet) : State := { s with cg := s.cg.taint set (s.cg.snap []) }
/-- A word that needs the group's reads need not wait: no acquire in progress, every read returned (R307, R312, R336). -/
def State.syncReady (s : State) : Bool := !s.cg.acquiring && s.cg.readsOut.isEmpty
/-- `.acq` of an engine word is satisfied: what FENCE.blk.e drains has left the buffer, and what it waits for has been
performed (R263, R306). -/
def State.acqReady (s : State) (acq : Bool) : Bool :=
  let u := if acq then s.drainWhere s.ccId (fenceDrains .e .blk s.cgId s.cbId) else s
  !(acq && u.fenceWaits .e .blk)

/-- Requests other than watches stand as they stood. -/
def KeptOthers (s t : State) : Prop :=
  ∀ k q, s.reqs.find k = some q → (∀ c v, q.kind ≠ .watch c v) → t.reqs.find k = some q
/-- Some writes of an agent of a partition, each an address, a length and a place in device memory: every one is allowed and
reaches its place, whose home answers and whose words have not failed; the places lie apart, and apart from the page table
entries that lead to them. -/
def State.Plain (s : State) (part : Nat) (ws : List (Nat × Nat × Nat)) : Prop :=
  (∀ va n pa, (va, n, pa) ∈ ws → s.reach part va n false true = .ok (.dev pa) ∧ s.heldPage (.dev pa) = false ∧
    s.homeUp (.dev pa) = true ∧ s.eccHits pa n = []) ∧
  (∀ x y, x ∈ ws → y ∈ ws → x ≠ y → x.2.2 + x.2.1 ≤ y.2.2 ∨ y.2.2 + y.2.1 ≤ x.2.2) ∧
  ∀ x y p, x ∈ ws → y ∈ ws → p ∈ (s.walkSteps part x.1).1 → p.at_ + 8 ≤ y.2.2 ∨ y.2.2 + y.2.1 ≤ p.at_
/-- The writes by which Prism mirrors an expert's entry (R281) and an area's control block (R287), at given places. -/
def Layer.entryWrites (l : Layer) (e p0 p1 : Nat) : List (Nat × Nat × Nat) :=
  [(l.va + 0x40 + 32 * e, 4, p0), (l.va + 0x40 + 32 * e + 4, 28, p1)]
def Layer.areaWrites (l : Layer) (d e p : Nat) : List (Nat × Nat × Nat) := [(l.areaVa d e, 20, p)]

/-- The state with the scratchpad of the block as a word leaves it: bytes, when they were written, tags, undo entries, the
line of queue words and what their pops come after, and the watches that a write serves. -/
def State.padAfter (s t : State) : State :=
  { s with reqs := t.reqs, wclock := t.wclock,
           cb := { s.cb with pad := t.cb.pad, padAt := t.cb.padAt, tags := t.cb.tags, undo := t.cb.undo,
                             queueAt := t.cb.queueAt, pushes := t.cb.pushes } }

/-! ## Streams (R51 to R67) -/

/-- op(x, y) on 64 bits (R56, R67), by bit vectors. -/
def bvQ (o : QOp) (x y : Nat) : Nat :=
  let a : BitVec 64 := BitVec.ofNat 64 x
  let b : BitVec 64 := BitVec.ofNat 64 y
  match o with
  | .add => (a + b).toNat
  | .sub => (a - b).toNat
  | .mul => (a * b).toNat
  | .and => (a &&& b).toNat
  | .or => (a ||| b).toNat
  | .xor => (a ^^^ b).toNat
  | .shl => (a <<< (y % 64)).toNat
  | .shr => (a >>> (y % 64)).toNat
  | .sra => (a.sshiftRight (y % 64)).toNat
  | .min => if a.sle b then a.toNat else b.toNat
  | .max => if a.sle b then b.toNat else a.toNat
  | .minn => if a.ule b then a.toNat else b.toNat
  | .maxn => if a.ule b then b.toNat else a.toNat
/-- The address k instructions on. -/
def StreamCtx.next (c : StreamCtx) (k : Nat) : Nat := (c.pc + 16 * k) % 2 ^ 64
def StreamCtx.setQ (c : StreamCtx) (r : QReg) (v : Nat) : StreamCtx := { c with q := c.q.setIfInBounds r.val (BitVec.ofNat 64 v) }
def StreamCtx.go (c : StreamCtx) (a : Nat) : StreamCtx := { c with pc := a }
/-- What a control instruction that does not fault makes of its stream (R65 to R67, R87, R89). -/
def State.ctxAfter (s : State) (i : Instr) : Option StreamCtx :=
  let c := s.cst.ctx
  match i with
  | .jmp t => if s.crooked t then none else some (c.go (s.target t))
  | .streamCall t =>
    if s.crooked t || Nat.ble 8 c.ret.length then none else some { c with ret := c.next 1 :: c.ret, pc := s.target t }
  | .streamRet => match c.ret with
    | a :: rest => some { c with ret := rest, pc := a }
    | [] => none
  | .brq cc qa y off => some (c.go (if cc.holds (.ofNat 64 (s.q qa)) (.ofNat 64 (s.ySrc y)) then s.rel off else c.next 1))
  | .when cc (.reg r) qb n =>
    if n.toNat == 0 || Nat.ble 16 n.toNat then none
    else some (c.go (c.next (if cc.holds (.ofNat 64 (s.q r)) (.ofNat 64 (s.q qb)) then 1 else n.toNat + 1)))
  | .loop qa off =>
    let v := (s.q qa + 2 ^ 64 - 1) % 2 ^ 64
    some ((c.setQ qa v).go (if v == 0 then c.next 1 else s.rel off))
  | .ffence => some (c.go (c.next 1))
  | .aluq op qa qb y => some ((c.setQ qa (bvQ op (s.q qb) (s.ySrc y))).go (c.next 1))
  | .movq qa src => some ((c.setQ qa (match src with
      | .imm v => (v.signExtend 64).toNat
      | .imm64 v => v.toNat
      | .reg r => s.q r)).go (c.next 1))
  | .prio level => if Nat.ble level.val s.cp.maxprio then some ({ c with prio := level.val }.go (c.next 1)) else none
  | .detm on => some ({ c with detm := on }.go (c.next 1))
  | _ => none
/-- The cause with which a control instruction faults instead (R65, R66, R89). -/
def State.ctlFault (s : State) (i : Instr) : Option Nat :=
  match i with
  | .jmp t => if s.crooked t then some 0x04 else none
  | .streamCall t => if s.crooked t then some 0x04 else if Nat.ble 8 s.cst.ctx.ret.length then some 0x24 else none
  | .streamRet => if s.cst.ctx.ret.isEmpty then some 0x24 else none
  | .when _ _ _ n => if n.toNat == 0 || Nat.ble 16 n.toNat then some 0x20 else none
  | .prio level => if Nat.ble level.val s.cp.maxprio then none else some 0x20
  | _ => none
/-- What passing an instruction leaves alone: of the stream only its registers, its fetched copies and the instruction it
stands at may change; the fetches may leave entries with the walkers, and log errors that they met. -/
def FrontFramed (s t : State) : Prop :=
  t = { s with cst := t.cst, cp := t.cp, ecc := t.ecc, corrected := t.corrected, ptes := t.ptes, free := t.free } ∧
  t.cst = { s.cst with ctx := t.cst.ctx, waiting := false, run := t.cst.run } ∧
  t.cp = { s.cp with log := t.cp.log, logSeq := t.cp.logSeq, elost := t.cp.elost }
/-- A task has entered the window under a new number, behind those that stand there (R59, R87). -/
def Entered (s t : State) (T : Task) : Prop :=
  t.nextId = s.nextId + 1 ∧ t.tasks.find s.nextId = some T ∧ ∀ k, k ≠ s.nextId → t.tasks.find k = s.tasks.find k
/-- The instruction went into the window: its stream goes on to the next, with a buffer map and free lists as given. -/
def Decoded (s t : State) (T : Task) (map : Vector (Option Buf) 64) (free : List (List Nat)) : Prop :=
  Entered s t { T with lostOnce := s.cst.again } ∧
  t = { s with tasks := t.tasks, nextId := t.nextId, cst := t.cst, cp := t.cp, ecc := t.ecc, corrected := t.corrected, ptes := t.ptes,
                free := t.free } ∧
  t.cst = { s.cst with ctx := { s.cst.ctx with pc := s.cst.ctx.next 1, map := map }, waiting := false, again := false, run := t.cst.run } ∧
  t.cp = { s.cp with log := t.cp.log, logSeq := t.cp.logSeq, elost := t.cp.elost, turn := s.strm, free := free }
/-- The task of a decoded instruction whose operands are only q registers, when its limits hold (R91, R92, R98, R99). -/
def State.plainTask (s : State) (i : Instr) : Option Task :=
  let T := s.newTask i
  match i with
  | .waits sc qa qb _ => if s.q qa % 8 == 0 && Nat.ble 4 sc.code then some { T with qa := s.q qa, qb := s.q qb } else none
  | .signal sc _ qa qb => if s.q qa % 8 == 0 && Nat.ble 4 sc.code then some { T with qa := s.q qa, qb := s.q qb } else none
  | .mark qa => some { T with qa := s.q qa }
  | .hostint vec => if Nat.ble (vec.toNat + 1) s.cp.vecs then some T else none
  | .gdef qa => some { T with qa := s.q qa }
  | .gstep qa qb => some { T with qa := s.q qa, qb := s.q qb }
  | .xdef qa _ count => if count.toNat == 0 || Nat.ble 1025 count.toNat then none else some { T with qa := s.q qa }
  | .xfill qa _ _ die _ => if Nat.ble (die.val + 1) s.cp.dies.length then some { T with qa := s.q qa } else none
  | .xpin _ _ _ die => if Nat.ble (die.val + 1) s.cp.dies.length then some T else none
  | .xmerge qa _ _ _ => some { T with qa := s.q qa }
  | _ => none

/-- No entity is in focus: the tables alone hold every group, block, partition, core and stream, as they do between steps. -/
structure State.Unfocused (s : State) : Prop where
  ids : s.cgId = nobody ∧ s.cbId = nobody ∧ s.cpId = nobody ∧ s.ccId = nobody ∧ s.cstId = nobody
  copies : s.cg = .empty ∧ s.cb = .empty ∧ s.cp = .empty ∧ s.cc = .empty ∧ s.cst = .empty

/-- No run of any number of steps from the state ends in a fault or a refusal. -/
def State.Safe (s : State) : Prop := ∀ n, ∃ t, Sys2Proof.core.run n s = .next t
/-- Device and host memory stand in their canonical form: rising addresses, and no byte listed that an unlisted address
reads as. -/
def State.Canonical (s : State) : Prop := Cells.wf 0 s.mem = true ∧ Cells.wf 0 s.hostMem = true

end Sys2Proof.Machine
end

