-- ==== Sys2Proof/Certificates/Slice0/Obligations.lean ====
section
/-! DEFINITION. The statements for the provers. -/

open Sys2Proof Sys2Proof.Machine

/-! ## Decoding, stepping, reset -/

/-- Words and S instructions written out from the manual's strips decode to what they stand for (R122 to R126, R55, R57). -/
def Obligations.WrittenWordsDecode : Prop :=
  -- IADD.n64 v2, v4.last, v6: LR, opcode 0x00, d = 2, a = 4, b = 6, fn = 3, La
  decodeWord 0x0008_41A3 = .ok (.iadd false .n64 2 ⟨4, true⟩ (.v 6 false)) ∧
  -- UADDI s3, s4, -1, with the switch marker: UI, opcode 0x08
  decodeWord 0xC819_3FFF = .ok (.uaddi true 3 4 (-1)) ∧
  -- BRA -1: UJ, opcode 0x10
  decodeWord 0x90FF_FFFF = .ok (.bra false (-1)) ∧
  -- TRET, TEND and TEND.fail (R372)
  decodeWord 0xB000_0000 = .ok (.tret false) ∧ decodeWord 0xB100_0000 = .ok (.tend false false) ∧
  decodeWord 0xB100_0001 = .ok (.tend false true) ∧
  -- a reserved major opcode, and a must-be-zero bit
  decodeWord 0x8E00_0001 = .error .reservedField ∧ decodeWord 0x3F00_0000 = .error .illegal ∧
  -- HALT, and MOVQ q1, imm 5
  decodeS 0x1B00_0000 = .ok .halt ∧ decodeS 0x1A10_0005 = .ok (.movq 1 (.imm 5))

/-- Decoding what the encoder writes gives the instruction back, for every well-formed instruction that has an encoding, with
whatever bytes follow it (R122 to R126, R55 to R57). -/
def Obligations.DecodeInvertsEncode : Prop :=
  ∀ (i : Instr) (rest bs : List Byte), i.WF → encode i = some bs →
    (bs.length = 4 ∧ decodeBytes false (bs ++ rest) = .ok (i, rest)) ∨
    (bs.length = 16 ∧ decodeBytes true (bs ++ rest) = .ok (i, rest))

/-- A step that a core's turn begins runs the decoded word: for the chosen group of the core, with no deferred trap, whose
aligned issue address lies in its code object on a readable device page, the word there that decodes is run by `exec`, and the
entities it acted for are written back; the fetch changes only what the core and the walkers keep, and what is known of ECC
words (R123, R151, R157, R211, R235). A word written since the launch has its value at the launch or one it was given since
(R124). Its model choices: log entries 1, 10, 14, 15 (what the core's translation buffer keeps), 45 (the fetch's walk) and 56 (the
choice among the groups able to issue). -/
def Obligations.StepRunsDecodedWord : Prop :=
  (∀ (s t : State) (die core skip g pa : Nat) (l : Leaf) (i : Instr),
    let va := t.codeBase + t.cg.ia.toNat
    let w := ofBytes (t.devBytes pa 4)
    s.nextTurn.1.act = .issue die core skip → s.nextTurn.2.powered = true → s.nextTurn.2.broken = false →
    (s.nextTurn.2.ableGroups (die * 64 + core))[skip]? = some g → s.nextTurn.2.focus g = some t →
    t.cg.pend = [] → t.cg.ia.toNat % 4 = 0 → 0x40 ≤ t.cg.ia.toNat → t.cg.ia.toNat < t.codeSize → va < 2 ^ 57 →
    t.cp.refused va 4 = false → t.leafFor va = .leaf l → l.r = true → l.host = false →
    t.movedLoc (.dev (l.pbase + (va - l.vbase))) = .dev pa → t.homeUp (.dev pa) = true → t.eccLost pa 4 = false →
    t.codeWrites pa = [] → decodeWord w = .ok i → (privileged w = true → t.cg.inH = true) →
    (t.cg.inH = true → ∀ r, r ∈ i.vNames → r.val < 8) →
    ∃ u : State, step s = Out.commit (exec i u) ∧ l ∈ u.cc.tlb ∧
      u = { t with cg := { t.cg with tried := if t.cg.tried = 0 then t.nextId else t.cg.tried },
                   cc := { t.cc with tlb := u.cc.tlb }, ptes := u.ptes, ecc := u.ecc, corrected := u.corrected,
                   cp := { t.cp with log := u.cp.log, logSeq := u.cp.logSeq, elost := u.cp.elost } }) ∧
  ∀ (s : State) (pa : Nat), s.codeWrites pa ≠ [] → ∃ p, (p = s.cb.launched ∨ p ∈ s.codeWrites pa) ∧
    ∀ i, i < 4 → s.codeWord pa / 2 ^ (8 * i) % 256 = (byteThen ((s.wrote.find (pa + i)).getD []) (s.devByte (pa + i)) p).toNat

/-- A step that a front end's turn begins passes the decoded instruction of its stream by `exec` (R59); one whose turn names a
step of the device, or an input, is `exec` of it; no step refuses, and one faults only outside the operating limits (R405).
Its model choices: log entries 1, 10 and 11. -/
def Obligations.StepsHappen : Prop :=
  (∀ (s t : State) (part k n : Nat) (i : Instr),
     s.nextTurn.1.act = .front part k → s.nextTurn.2.powered = true → s.nextTurn.2.broken = false →
     s.nextTurn.2.focusStream part k = some t → t.cst.state = .running → t.cst.waiting = false → t.cst.halt = false →
     t.cst.stuck = false → t.cst.copyHere = some (.word n) → decodeS n = .ok i →
     (i.isTask = true → t.waiters t.cpId t.cp.turn = []) →
     step s = Out.commit (exec i t)) ∧
  (∀ (s : State) (i : Instr),
     s.nextTurn.1.act = .dev i → encode i = none → s.nextTurn.2.broken = false →
     (s.nextTurn.2.powered = true ∨ i = .powerUp) → step s = exec i s.nextTurn.2) ∧
  (∀ s : State, (∃ t, step s = .next t) ∨ (step s = .fault .outsideLimits ∧ s.broken = true))

/-- What reset leaves: epoch 1, no takeover (R394); no partition, no firmware; and memory reads as it does where nothing has
been written (log entries 4, 5 and 9 name the values that are the model's own). -/
def Obligations.ResetLeaves : Prop :=
  State.reset.fw.epoch = 1 ∧ State.reset.fw.take = false ∧ State.reset.fw.loaded = false ∧ State.reset.parts = [] ∧
  State.reset.groups = [] ∧ State.reset.blocks = [] ∧ State.reset.tasks = [] ∧ State.reset.aids = [] ∧
  (∀ pa, State.reset.devByte pa = 0) ∧ (∀ l ba, State.reset.hostByte l ba = 0) ∧ State.reset.Canonical

/-- Every step keeps device and host memory in their canonical form. Its model choices: log entries 4 and 5. -/
def Obligations.StepKeepsMemoryCanonical : Prop := ∀ s t : State, s.Canonical → step s = .next t → t.Canonical

/-! ## Words that only compute -/

/-- Lane words that raise no flag: integer, bit and packing words, SEL, LSR, SHFL, MATCH, TOPK, FCLASS and FSGN write their
results in the executing lanes and nothing else (R171, R173, R177, R178, R183, R184, R192, R194, R195, R200 to R202). TOPK's
order holds the executing lanes, each once, with falling keys, and the lower lane first between equal keys (R200). -/
def Obligations.LaneWords : Prop :=
  (∀ (s : State) (i : Instr) (r : LaneRow),
    (s.integerRow i = some r ∨ s.bitRow i = some r ∨ s.crossRow i = some r ∨ s.signRow i = some r) → s.canRun r.all = true →
    ∃ t, exec i s = .next t ∧ r.Done s t) ∧
  (∀ (s : State) (a : VReg),
    (s.topkOrder a).Perm s.cg.exLanes ∧
    (s.topkOrder a).Pairwise fun j k => topkRank (s.vNum a false k) < topkRank (s.vNum a false j) ∨
      (topkRank (s.vNum a false k) = topkRank (s.vNum a false j) ∧ j < k))

/-- Uniform words write one s register or pair, once for the group (R172, R196, R202). -/
def Obligations.UniformWords : Prop :=
  ∀ (s : State) (i : Instr) (r : UniRow), s.uniformRow i = some r → s.canRun r.all = true →
    ∃ t, exec i s = .next t ∧ r.Done s t

/-- Floating words, conversions, reductions and scans: with no enabled flag among those raised, the codes are written and the
flags collect (R42, R176, R179 to R191, R193, R197 to R199). -/
def Obligations.FloatWords : Prop :=
  ∀ (s : State) (i : Instr) (r : FloatRow), (s.floatRow i = some r ∨ s.treeRow i = some r) → s.canRun r.all = true →
    (s.cg.inH = true ∨ r.raised s &&& s.cg.fmask.toNat = 0) → ∃ t, exec i s = .next t ∧ r.Done s t

/-- A floating word that raises an enabled flag outside the handler writes nothing, keeps the flags it raised, and traps with
FP_EXCEPTION, naming the lanes that raised an enabled flag, or every executing lane where the flags belong to none (R43,
R199). -/
def Obligations.FloatTraps : Prop :=
  ∀ (s : State) (i : Instr), s.cg.inH = false →
    (∀ r : FloatRow, s.floatRow i = some r → s.canRun r.all = true → r.raised s &&& s.cg.fmask.toNat ≠ 0 → ∃ t, exec i s = .next t ∧ TrappedAt s t 0x0B 0 0 s.wordAddr
      (laneMask (s.cg.exLanes.filter fun l => (r.op l).2 &&& s.cg.fmask.toNat != 0)) (s.cg.fflags ||| BitVec.ofNat 5 (r.raised s))) ∧
    (∀ r : FloatRow, s.treeRow i = some r → s.canRun r.all = true → r.raised s &&& s.cg.fmask.toNat ≠ 0 → ∃ t, exec i s = .next t ∧ TrappedAt s t 0x0B 0 0 s.wordAddr (laneMask s.cg.exLanes)
      (s.cg.fflags ||| BitVec.ofNat 5 (r.raised s))) ∧
    ∀ q : PredRow, s.predRow i = some q → s.canRun q.tc = true → s.cg.raised q.fl &&& s.cg.fmask.toNat ≠ 0 →
      ∃ t, exec i s = .next t ∧ TrappedAt s t 0x0B 0 0 s.wordAddr
        (laneMask (s.cg.exLanes.filter fun l => q.fl l &&& s.cg.fmask.toNat != 0)) (s.cg.fflags ||| BitVec.ofNat 5 (s.cg.raised q.fl))

/-- Comparisons write a predicate in the executing lanes, never p0, and collect their flags (R130, R178, R182). -/
def Obligations.CompareWords : Prop :=
  (∀ (s : State) (l : Nat), s.rdP 0 l = true) ∧
  ∀ (s : State) (i : Instr) (r : PredRow), s.predRow i = some r → s.canRun r.tc = true →
    (s.cg.inH = true ∨ s.cg.raised r.fl &&& s.cg.fmask.toNat = 0) →
    ∃ t, exec i s = .next t ∧ r.Done s t ∧ t.cg.fflags = s.cg.fflags ||| BitVec.ofNat 5 (s.cg.raised r.fl) ∧
      (r.p = 0 → ∀ q l, t.rdP q l = s.rdP q l)

/-- A REGTRAP kernel traps with UNDEF_REG at a computing word that reads an unallocated v name, or names a register whose
earlier write is outstanding, before anything is written (R138, R144).
Its model choices: log entry 42. -/
def Obligations.UndefinedReadTraps : Prop :=
  ∀ (s : State) (i : Instr) (tc : Touch), s.cb.hdr.regtrap = true → s.cg.undefHit tc = true →
    ((∃ r : LaneRow, (s.integerRow i = some r ∨ s.bitRow i = some r ∨ s.crossRow i = some r ∨ s.signRow i = some r) ∧ tc = r.all) ∨
     (∃ r : UniRow, s.uniformRow i = some r ∧ tc = r.all) ∨
     (∃ r : FloatRow, (s.floatRow i = some r ∨ s.treeRow i = some r) ∧ tc = r.all) ∨
     ∃ r : PredRow, s.predRow i = some r ∧ tc = r.tc) →
    ∃ u, exec i s = .next u ∧ TrappedAt s u 0x03 0 0 s.wordAddr (laneMask s.cg.exLanes) s.cg.fflags

/-! ## Special registers and control -/

/-- MOVSR writes the special register's value to an s register or pair, and those of the handler trap with PROTECTION outside
it; %bix, %biy and %biz decompose the block's index (R106, R132, R169). MOVRS: %frm and %fmask take the low bits, %fflags
loses the bits that are set; nothing else changes (R170). -/
def Obligations.SpecialRegisters : Prop :=
  (∀ (s : State) (sw : Bool) (d : SReg) (r : SpecReg),
     (s.canRun (writeS d r.pair) = true → (r.handlerOnly = true → s.cg.inH = true) →
       ∃ t, exec (.movsr sw d r) s = .next t ∧ UniRow.Done ⟨sw, {}, d, r.pair, s.special r⟩ s t) ∧
     (r.handlerOnly = true → s.cg.inH = false →
       ∃ t, exec (.movsr sw d r) s = .next t ∧ TrappedAt s t 0x06 0 0 s.wordAddr (laneMask s.cg.exLanes) s.cg.fflags) ∧
     (0 < s.cb.gdx → 0 < s.cb.gdy → s.special .bix < s.cb.gdx ∧ s.special .biy < s.cb.gdy ∧
       s.cb.index = s.special .bix + s.cb.gdx * (s.special .biy + s.cb.gdy * s.special .biz)) ∧
     (s.special .group = s.cg.num ∧ s.special .width = s.cg.width ∧ s.special .gdx = s.cb.gdx ∧ s.special .gdy = s.cb.gdy ∧
       s.special .gdz = s.cb.gdz ∧ s.special .stage = s.cg.num / (s.cb.hdr.groups / s.cb.hdr.stages) ∧ s.special .die = s.cb.ldie ∧
       s.special .clock = s.now % 2 ^ 64 ∧ s.special .frm = s.cg.frm.toNat ∧ s.special .fflags = s.cg.fflags.toNat ∧
       s.special .fmask = s.cg.fmask.toNat ∧ s.special .args = s.cb.args ∧ s.special .scrbase = s.cp.scr ∧
       s.special .detm = (if s.cb.det then 1 else 0) ∧
       ∀ h, s.cg.handler = some h → s.special .tcause = h.tcause.toNat ∧ s.special .taddr = h.taddr.toNat ∧ s.special .tlanes = h.tlanes.toNat)) ∧
  (∀ (s : State) (sw : Bool) (r : WSpec) (d : SReg), s.canRun (readS d false) = true →
     let s1 : State := { s with cg := match r with
       | .frm => { s.cg with frm := (s.rdS d).setWidth 2 }
       | .fmask => { s.cg with fmask := (s.rdS d).setWidth 5 }
       | .fflags => { s.cg with fflags := s.cg.fflags &&& ~~~((s.rdS d).setWidth 5) } }
     ∃ t, exec (.movrs sw r d) s = .next t ∧ Framed s1 t {} [] ∧ IssuedOn s1 t sw)

/-- A branch word sends every executing lane to its place and leaves the others: BRC by predicate, JMPX by register, BRA and
BRU uniformly, CALL with the return address in s30 and its own in s31, RET to s30 (R161, R163). -/
def Obligations.BranchWords : Prop :=
  ∀ (s : State) (sw : Bool),
    let goes (t : State) (f : Nat → Word) : Prop := t.cg.mark = sw ∧ t.cg.fflags = s.cg.fflags ∧ ∀ l, l < s.cg.width →
      t.cg.curPcs.getD l none = if s.cg.ex l then some (f l) else s.cg.curPcs.getD l none
    (∀ p neg off, ∃ t, exec (.brc sw p neg off) s = .next t ∧ Framed s t {} [] ∧
      goes t fun l => if s.rdP p l = !neg then s.cg.ia + 4 * off.signExtend 32 else s.cg.ia + 4) ∧
    (∀ a, s.canRun (VSrc.touch a false) = true → ∃ t, exec (.jmpx sw a) s = .next t ∧ Framed s t (VSrc.touch a false) [] ∧
      FreedV s t (VSrc.touch a false) ∧ goes t fun l => s.rdV a.reg l) ∧
    (∀ off, ∃ t, exec (.bra sw off) s = .next t ∧ Framed s t {} [] ∧ goes t fun _ => s.cg.ia + 4 * off.signExtend 32) ∧
    (∀ c (r : SReg) off, s.canRun (readS r false) = true → ∃ t, exec (.bru sw c r off) s = .next t ∧ Framed s t {} [] ∧
      goes t fun _ => if c.holds (s.rdS r) then s.cg.ia + 4 * off.signExtend 32 else s.cg.ia + 4) ∧
    (∀ off, s.canRun (writeS 30 true) = true → ∃ t, exec (.call sw off) s = .next t ∧ Framed s t (writeS 30 true) [] ∧
      WroteS s t [30, 31] ((s.cg.ia + 4).toNat + 2 ^ 32 * s.cg.ia.toNat) ∧
      goes t fun _ => s.cg.ia + 4 * off.signExtend 32) ∧
    (s.canRun (readS 30 false) = true → ∃ t, exec (.ret sw) s = .next t ∧ Framed s t {} [] ∧ goes t fun _ => s.rdS 30)

/-! ## The end of a group, TRAPI, WAITCY, and the handler's words -/

/-- EXIT ends the executing lanes; with the last live lane the group ends and frees its registers, once nothing of it is
outstanding, and a store of its that waited for a read goes on without a set; a group whose set is not empty, or whose write a
home holds, waits with its lanes (R142, R164 to R166, R336, R338). In the handler it acts as TEND (R372). Its model choices: log
entry 26. -/
def Obligations.ExitEndsLanes : Prop :=
  (∀ (s : State) (sw : Bool), s.cg.inH = true → exec (.exit sw) s = exec (.tend sw false) s) ∧
  ∀ (s : State) (sw : Bool), s.cg.inH = false →
    (s.exitWaits = false → s.cg.liveLanes.all s.cg.ex = false →
      ∃ t, exec (.exit sw) s = .next t ∧ t.cg.mark = sw ∧
        t = { s with cg := { s.cg with pcs := t.cg.pcs, seq := t.cg.seq, last := t.cg.last, walked := [], tried := 0, mark := sw,
                                       rescued := t.cg.rescued, base := t.cg.base },
                     free := t.free, nextId := t.nextId } ∧
        ∀ l, l < s.cg.width → t.cg.pcs.getD l none = if s.cg.ex l then none else s.cg.pcs.getD l none) ∧
    (s.exitWaits = false → s.cg.liveLanes.all s.cg.ex = true → s.exitBusy = false → s.cb.hdr.cluster = 0 →
      ∃ t, exec (.exit sw) s = .next t ∧ t.cg.done = true ∧ t.cg.failed = s.cg.failed ∧ t.cg.phys = [] ∧
        (∀ l, t.cg.liveLane l = false) ∧ (∀ r, t.cg.mapOf r = none) ∧
        (∀ k, t.reqs.find k = (s.reqs.find k).map fun q =>
          if q.grp = s.cgId ∧ q.wait ≠ [] then { q with wait := [], set := [] } else q) ∧
        t = { s with cg := t.cg, reqs := t.reqs, cb := { s.cb with queueAt := s.cb.queueAt.filter fun e => e.1 != s.cgId } }) ∧
    (s.exitWaits = false → s.cg.liveLanes.all s.cg.ex = true → s.exitBusy = true →
      ∃ t, exec (.exit sw) s = .next t ∧ t.cg.park = some (.exiting false) ∧ (∀ l, t.cg.liveLane l = false) ∧
        t = { s with cg := { s.cg with pcs := t.cg.pcs, park := t.cg.park } }) ∧
    (s.exitWaits = true → exec (.exit sw) s = .next { s with cg := { s.cg with park := some .again } })

/-- TRAPI raises cause 0x0C with its code after the lanes have gone on, whatever the assumption set; a word of its opcode with
a nonzero d or sub traps with RESERVED_FIELD or ILLEGAL (R167). WAITCY n keeps the group from issuing for n cycles (R168), counted
from its issue. Its model choices: log entry 3. -/
def Obligations.TrapiAndWaitcy : Prop :=
  ∀ (s : State) (sw : Bool),
    (∀ code : BitVec 16, ∃ t, exec (.trapi sw code) s = .next t ∧ IssuedOn s t sw ∧
      t.cg.trap = some ⟨0x0C, 0, code.toNat, s.wordAddr, laneMask s.cg.exLanes, none, s.cg.ia.toNat, s.cg.seq⟩ ∧
      t.cg.park = some .trap ∧ t = { s with cg := t.cg, free := t.free, nextId := t.nextId } ∧ t.cg.last = s.nextId ∧ t.cg.s = s.cg.s ∧ t.cg.p = s.cg.p ∧
      t.cg.phys = s.cg.phys ∧ t.cg.vmap = s.cg.vmap ∧ t.cg.out = s.cg.out) ∧
    (∀ (code : BitVec 16) (run : Instr → State → Out),
      let word (d sub : Nat) : Nat := 0x9500_0000 + b2n sw * 2 ^ 30 + d * 2 ^ 19 + sub * 2 ^ 16 + code.toNat
      decodeWord (word 0 0) = .ok (.trapi sw code) ∧
      (∀ d, d < 32 → d ≠ 0 → decodeWord (word d 0) = .error .reservedField ∧ ∃ t, s.issueWord run (word d 0) = .next t ∧
        TrappedAt s t 0x02 0 0 s.wordAddr (laneMask s.cg.exLanes) s.cg.fflags) ∧
      ∀ sub, sub < 8 → sub ≠ 0 → decodeWord (word 0 sub) = .error .illegal ∧ ∃ t, s.issueWord run (word 0 sub) = .next t ∧
        TrappedAt s t 0x01 0 0 s.wordAddr (laneMask s.cg.exLanes) s.cg.fflags) ∧
    (∀ n : BitVec 16, ∃ t, exec (.waitcy sw n) s = .next t ∧ Framed { s with cg := { s.cg with park := t.cg.park } } t {} [] ∧
      IssuedOn s t sw ∧ t.cg.park = if n = 0 then s.cg.park else some (.waitcy (s.now + n.toNat)))

/-- TRET goes back to the trapped state; TEND ends the group, TEND.fail as failed, with the trap in the error log (R372). A
word of the handler that issues outside it traps with PROTECTION and has no effect (R151, R372, R373, R377). Its model choices:
log entries 26 (what an ending group waits for) and 54 (the fields of the log entry). -/
def Obligations.HandlerEnds : Prop :=
  (∀ (s : State) (sw : Bool) (h : Handler), s.cg.handler = some h →
     (∃ t, exec (.tret sw) s = .next t ∧ t.cg.handler = none ∧ t.cg.pcs = s.cg.pcs ∧ t.cg.s = s.cg.s ∧ t.cg.vmap = s.cg.vmap ∧
       t.cg.phys = s.cg.phys ∧ t.cg.p = s.cg.p ∧ t.cg.frm = s.cg.frm ∧ t.cg.fflags = s.cg.fflags ∧ t.cg.fmask = s.cg.fmask ∧
       t.cg.aset = s.cg.aset ∧ t = { s with cg := t.cg, free := t.free, nextId := t.nextId }) ∧
     (s.exitWaits = true → ∀ fail, exec (.tend sw fail) s = .next { s with cg := { s.cg with park := some .again } }) ∧
     (s.exitWaits = false → s.exitBusy = true → ∀ fail, ∃ t, exec (.tend sw fail) s = .next t ∧
       t.cg.park = some (.exiting fail) ∧ ∀ l, t.cg.liveLane l = false) ∧
     (s.exitWaits = false → s.exitBusy = false → s.cb.hdr.cluster = 0 →
       (∃ t, exec (.tend sw false) s = .next t ∧ t.cg.done = true ∧ t.cg.failed = s.cg.failed ∧ t.cg.handler = none ∧
         t.cp = s.cp ∧ t.tasks = s.tasks) ∧
       (∃ t, exec (.tend sw true) s = .next t ∧ t.cg.done = true ∧ t.cg.failed = true ∧
         (s.cp.log.length < 256 → t.cp.log = s.cp.log ++ [⟨8, h.tcause.toNat % 256, h.tcause.toNat / 2 ^ 8 % 2 ^ 8,
           s.groupAgent s.cg, h.taddr.toNat, 0, ((leastPc s.cg.pcs).map BitVec.toNat).getD noPc, (s.cp.logSeq + 1) % 2 ^ 32⟩])))) ∧
  (∀ (s : State) (run : Instr → State → Out) (w : Nat), privileged w = true → s.cg.inH = false → parseWord w ≠ .noOp →
     ∃ t, s.issueWord run w = .next t ∧ TrappedAt s t 0x06 0 0 s.wordAddr (laneMask s.cg.exLanes) s.cg.fflags)

/-- TREG moves a register of the interrupted program: a read copies it into the handler's register, a write takes the
handler's value, and lanes that had exited take nothing (R373, R374). ERRLD writes the eight words of an entry of the error
log, and its pop form removes the oldest (R375 to R377). -/
def Obligations.HandlerReads : Prop :=
  (∀ (s : State) (sw : Bool) (x : SReg) (h : Handler), s.cg.handler = some h → s.cg.out = [] → x.val < 8 → h.v.length = 8 →
     s.cb.hdr.regtrap = false → s.cg.pcs.length = s.cg.width →
     (∀ y : SReg, ∃ t, exec (.treg sw x (.s y false)) s = .next t ∧ IssuedOn s t sw ∧ t.rdS x = (s.cg.s[y.val]?).getD 0 ∧
       t.cg.s = s.cg.s ∧ t.cg.phys = s.cg.phys ∧ t.cg.pcs = s.cg.pcs) ∧
     (∀ y : SReg, ∃ t, exec (.treg sw x (.s y true)) s = .next t ∧ IssuedOn s t sw ∧
       (∀ r : SReg, (t.cg.s[r.val]?).getD 0 = if r = y then s.rdS x else (s.cg.s[r.val]?).getD 0) ∧ t.cg.phys = s.cg.phys) ∧
     (∀ y : VReg, s.beneath.cg.undefV y = false → ∃ t, exec (.treg sw x (.v y false)) s = .next t ∧ IssuedOn s t sw ∧
       (∀ l, l < s.cg.width → t.rdV x l = s.beneath.rdV y l) ∧ t.cg.phys = s.cg.phys ∧ t.cg.s = s.cg.s) ∧
     (∀ y : VReg, s.beneath.verdict false [] [y.val] = .ok → s.beneath.cg.kept y = false → s.beneath.cg.undefV y = false →
       ∃ t, exec (.treg sw x (.v y true)) s = .next t ∧ IssuedOn s t sw ∧
         (∀ l, l < s.cg.width → t.beneath.rdV y l = if s.cg.trappedLive l then s.rdV x l else s.beneath.rdV y l) ∧
         (∀ r : VReg, r ≠ y → s.beneath.cg.undefV r = false → ∀ l, t.beneath.rdV r l = s.beneath.rdV r l)) ∧
     (∀ p : PReg, ∃ t, exec (.treg sw x (.p p true)) s = .next t ∧ IssuedOn s t sw ∧
       (∀ l, l < s.cg.width → t.rdP p l = if p = 0 then true else (s.rdS64 x).testBit l) ∧
       (∀ q : PReg, q ≠ p → ∀ l, t.rdP q l = s.rdP q l)) ∧
     (∀ p : PReg, s.cg.width ≤ 64 → ∃ t, exec (.treg sw x (.p p false)) s = .next t ∧ IssuedOn s t sw ∧
       ∀ l, l < s.cg.width → (t.rdS64 x).testBit l = s.rdP p l) ∧
     (∃ t, exec (.treg sw x (.lpc false)) s = .next t ∧ IssuedOn s t sw ∧
       ∀ l, l < s.cg.width → t.rdV x l = (s.cg.pcs.getD l none).getD 0xFFFF_FFFF) ∧
     (∃ t, exec (.treg sw x (.lpc true)) s = .next t ∧ IssuedOn s t sw ∧
       ∀ l, l < s.cg.width → t.cg.pcs.getD l none = if s.cg.trappedLive l then some (s.rdV x l) else none)) ∧
  (∀ (s : State) (sw : Bool) (f : ErrForm) (x : SReg) (h : Handler), s.cg.handler = some h → s.cg.out = [] → x.val ≤ 24 →
     (f = .pop → s.cg.aset = []) →
     let e := match f with
       | .own => h.own
       | .peek | .pop => s.cp.log.headD zeroLog
     ∃ t, exec (.errld sw f x) s = .next t ∧ IssuedOn s t sw ∧ t.cp = { s.cp with log := if f = .pop then s.cp.log.drop 1 else s.cp.log } ∧
       t.rdS x = BitVec.ofNat 32 (2 ^ 16 * e.sub + 2 ^ 8 * e.cause + e.kind) ∧ t.rdS (x + 1) = BitVec.ofNat 32 e.agent ∧
       t.rdS (x + 2) = BitVec.ofNat 32 e.vaddr ∧ t.rdS (x + 3) = BitVec.ofNat 32 (e.vaddr / 2 ^ 32) ∧
       t.rdS (x + 4) = BitVec.ofNat 32 e.paddr ∧ t.rdS (x + 5) = BitVec.ofNat 32 (e.paddr / 2 ^ 32) ∧
       t.rdS (x + 6) = BitVec.ofNat 32 e.pc ∧ t.rdS (x + 7) = BitVec.ofNat 32 e.seq)

/-! ## Memory words -/

/-- A load sends one read for each executing lane, of the address its form gives, and its destination waits for the data; a
store sends one write of its data for each, or its bytes enter the combining buffer: memory itself changes only at the home
(R143, R146, R218 to R220, R228, R336 to R340). Its model choices: log entry 45. -/
def Obligations.LoadsAndStoresAreSent : Prop :=
  (∀ (s : State) (i : Instr) (r : MemRow) (loc : Nat → Loc), s.loadRow i = some r → s.canRun r.tc = true →
     s.cg.acquiring = false → (∀ l, l ∈ s.cg.exLanes → r.chk l = .ok (loc l)) →
     ∃ t, exec i s = .next t ∧ Framed (s.after t) t r.tc [] ∧ IssuedOn s t r.sw ∧ FreedV s t r.tc ∧ t.cg.park = s.cg.park ∧
       KeptReqs s t ∧ Drained s t (onLine s.cg.exLanes loc) ∧ Flying s t (memNames r.ty r.d) [] s.cg.exLanes .load true ∧
       ∀ l, l ∈ s.cg.exLanes → Posted s t { s.newReq .load l (r.va l) (loc l) r.ty.size with wait := [] }) ∧
  (∀ (s : State) (i : Instr) (r : MemRow) (loc : Nat → Loc), s.storeRow i = some r → s.canRun r.tc = true →
     s.cg.acquiring = false → (∀ l, l ∈ s.cg.exLanes → r.chk l = .ok (loc l)) →
     (s.cg.aset = [] ∨ ∀ l, l ∈ s.cg.exLanes → (loc l).isHost = false) → s.undoFull (s.cg.exLanes.map loc) = false →
     s.canTaint (s.homeSet false (s.cg.exLanes.map loc)) = true →
     ∃ t, exec i s = .next t ∧ Framed (s.after t) t r.tc [] ∧ IssuedOn s t r.sw ∧ FreedV s t r.tc ∧ t.cg.park = s.cg.park ∧
       KeptReqs s t ∧
       (if s.storeHolds (s.cg.exLanes.map loc) then Flying s t [] [] s.cg.exLanes .load true else t.cg.out = s.cg.out) ∧
       ∀ l, l ∈ s.cg.exLanes →
         if s.combines (loc l) then ∃ pa, loc l = .dev pa ∧ Carried s t pa l
         else Posted s t (s.newReq (.store (s.storeData r.ty r.d l)) l (r.va l) (loc l) r.ty.size))

/-- A store that combines keeps the bytes of its line: the entry, or the store that took it away, holds the new bytes over the
old ones; the buffer keeps one entry a line (R228). -/
def Obligations.CombiningKeepsBytes : Prop :=
  ∀ (s : State) (pa va lane : Nat) (data : List (Option Byte)), (s.cc.wcb.map (·.line)).Nodup →
    let t := s.combine pa va lane data
    let old (i : Nat) : Option Byte := ((s.cc.wcb.find? fun e => e.line == lineOf pa).map fun e => e.bytes.getD i none).getD none
    let want (i : Nat) : Option Byte := if i < pa % 128 then old i else match data.getD (i - pa % 128) none with
      | some b => some b
      | none => old i
    (t.cc.wcb.map (·.line)).Nodup ∧ KeptReqs s t ∧ t = { s with cc := { s.cc with wcb := t.cc.wcb }, reqs := t.reqs, nextId := t.nextId } ∧
    ∃ bs : List (Option Byte), (∀ i, i < 128 → bs.getD i none = want i) ∧
      ((∃ e, e ∈ t.cc.wcb ∧ e.line = lineOf pa ∧ e.bytes = bs) ∨
        ∃ k q, s.nextId ≤ k ∧ t.reqs.find k = some q ∧ q.kind = .store bs ∧ q.loc = .dev (lineOf pa * 128))

/-- An atomic word sends one read-modify-write for each executing lane, UATOM one for the group, with its operands; the RED
forms return nothing, and one with acquire waits for its acknowledgement (R222 to R225, R228, R309). -/
def Obligations.AtomicsAreSent : Prop :=
  (∀ (s : State) (i : Instr) (r : AtomRow) (loc : Nat → Loc), atomRow i = some r → s.canRun r.tc = true →
     s.cg.acquiring = false → (∀ l, l ∈ s.cg.exLanes → r.chk s l = .ok (loc l)) →
     s.mayAtom r.op r.sem (s.cg.exLanes.map loc) = true → s.canTaint (s.homeSet true (s.cg.exLanes.map loc)) = true →
     ∃ t, exec i s = .next t ∧ Framed (s.after t) t r.tc [] ∧ IssuedOn s t r.sw ∧ KeptReqs s t ∧
       Drained s t (fun e => r.sem.rel || onLine s.cg.exLanes loc e) ∧ Flying s t r.dest [] s.cg.exLanes .load true ∧
       t.cg.park = (if r.d.isNone && r.sem.acq then some (.performed s.cg.seq) else s.cg.park) ∧
       ∀ l, l ∈ s.cg.exLanes → Posted s t (r.req s l (loc l))) ∧
  (∀ (s : State) (sw disc : Bool) (op : UOp) (sem : Sem) (x y z : SReg) (loc : Loc),
     let d := if disc then [] else names x op.wide
     s.canRun { sr := names y true ++ namesN z (uopWords op * if casOp op then 2 else 1), sw := d } = true →
     s.cg.acquiring = false → s.memCheck (uopBytes op) true true false (some op) (s.rdS64 y) = .ok loc →
     s.mayAtom op sem [loc] = true → s.canTaint (s.homeSet true [loc]) = true →
     ∃ t, exec (.uatom sw disc op sem x y z) s = .next t ∧
       Framed (s.after t) t { sw := d } [] ∧ IssuedOn s t sw ∧ KeptReqs s t ∧
       Drained s t (fun e => sem.rel || onLine [0] (fun _ => loc) e) ∧ Flying s t [] d [] .load true ∧
       t.cg.park = (if disc && sem.acq then some (.performed s.cg.seq) else s.cg.park) ∧
       Posted s t (s.atomReq op sem 0 (s.rdS64 y) loc (s.sNum z op.wide) (if casOp op then s.sNum (z + uopWords op) op.wide else 0)))

/-- The functions of the atomics on n bits (R223), by bit vectors; a float sum is the code that FADD gives in the mode RNE,
which rounds the exact sum once, flushes no subnormal and quietens a signalling NaN. -/
def Obligations.AtomicFunctions : Prop :=
  (∀ (s : State) (sw : Bool) (d : VReg) (a : VSrc) (b : BSrc) (l e : Nat), s.cg.mode = .rne →
    (∃ r : FloatRow, s.floatRow (.fadd sw .f32 d a b) = some r ∧
      (r.op l).1 = atomicFn (.f .addF32) (s.vNum a.reg false l % 2 ^ 32) (s.bNum b false l % 2 ^ 32) e) ∧
    ∃ r : FloatRow, s.floatRow (.fadd sw .f64 d a b) = some r ∧
      (r.op l).1 = atomicFn (.f .addF64) (s.vNum a.reg true l % 2 ^ 64) (s.bNum b true l % 2 ^ 64) e) ∧
  (∀ (wide neg neg2 : Bool) (m n e x y : Nat) (e1 e2 : Int), let f := Fmt.fpD (if wide then .f64 else .f32)
    let op : AopF := if wide then .addF64 else .addF32
    -- two finite operands, brought to the finer of their units: the exact sum rounds once
    let q := min e1 e2
    let a := m * 2 ^ (e1 - q).toNat
    let b := n * 2 ^ (e2 - q).toNat
    f.decode x = .fin neg m e1 → f.decode y = .fin neg2 n e2 →
      atomicFn (.f op) x y e = if neg = neg2 then (f.roundTo .rne neg (a + b) q).1
        else if a = b then f.zeroCode false
        else if b < a then (f.roundTo .rne neg (a - b) q).1 else (f.roundTo .rne neg2 (b - a) q).1) ∧
  (∀ (wide : Bool) (x y e : Nat), let f := Fmt.fpD (if wide then .f64 else .f32)
    let op : AopF := if wide then .addF64 else .addF32
    (f.decode x).isNan = true → atomicFn (.f op) x y e = f.nanFrom (f.decode x)) ∧
  ∀ (w : Bool) (old y e : Nat),
    let n := if w then 64 else 32
    let o : BitVec n := BitVec.ofNat n old
    let v : BitVec n := BitVec.ofNat n y
    old < 2 ^ n → y < 2 ^ n → e < 2 ^ n →
    atomicFn (.i w .add) old y e = (o + v).toNat ∧ atomicFn (.i w .and) old y e = (o &&& v).toNat ∧
    atomicFn (.i w .or) old y e = (o ||| v).toNat ∧ atomicFn (.i w .xor) old y e = (o ^^^ v).toNat ∧
    atomicFn (.i w .mini) old y e = (if o.sle v then old else y) ∧ atomicFn (.i w .maxi) old y e = (if v.sle o then old else y) ∧
    atomicFn (.i w .minn) old y e = min old y ∧ atomicFn (.i w .maxn) old y e = max old y ∧
    atomicFn (.f (if w then .exchB64 else .exchB32)) old y e = y ∧
    atomicFn (.f (if w then .casB64 else .casB32)) old y e = (if old = y then e else old) ∧
    atomicFn (.f .incWrap) old y e = (if old ≥ y then 0 else old + 1) ∧
    atomicFn (.f .decWrap) old y e = (if old = 0 ∨ old > y then y else old - 1)

/-- GLD reads the cell of each executing lane once every cell is current for its step (R275). -/
def Obligations.GridLoadIsSent : Prop :=
  ∀ (s : State) (sw : Bool) (comp : Fin 8) (anyStep : Bool) (h : Hint) (d a : VReg) (r : SReg) (key : Nat) (g : MirrorReg)
    (loc : Nat → Loc),
    let ty := g.desc.memTy
    let p := (s.rdS (r + 3)).toNat
    let cell (l : Nat) := (s.rdV a l).toNat
    let va (l : Nat) := g.desc.addr p comp (cell l)
    let set := if anyStep then [] else g.tagSets p (s.cg.exLanes.map cell)
    let s1 := s.tainted set
    s.canRun { vr := [a.val], sr := namesN r 4 } = true → s.canRun { vw := memNames ty d, holds := true } = true → s.cg.acquiring = false →
    s.gridOf s.cpId (s.rdS64 r) = some (key, g) → p < g.desc.nparts → comp.val < g.desc.ncomp →
    (∀ l, l ∈ s.cg.exLanes → cell l < g.desc.cells) → (g.desc.b = 64 → d.val % 2 = 0) →
    (∀ l, l ∈ s.cg.exLanes → s.memCheck ty.size true false false none (va l) = .ok (loc l) ∧ ∀ b o, loc l ≠ .pad b o) →
    (anyStep = true ∨ ∀ l, l ∈ s.cg.exLanes → g.current p (cell l) (s.rdS (r + 2)).toNat = true) → s.canTaint set = true →
    ∃ t, exec (.gld sw comp anyStep h d a r) s = .next t ∧ Framed (s1.after t) t { vw := memNames ty d } [] ∧ IssuedOn s t sw ∧ t.cg.park = s.cg.park ∧
      KeptReqs s t ∧ Drained s t (onLine s.cg.exLanes loc) ∧ Flying s1 t (memNames ty d) [] s.cg.exLanes .load true ∧
      ∀ l, l ∈ s.cg.exLanes → Posted s t { s1.newReq .load l (va l) (loc l) ty.size with wait := [] }

/-- The checks of a memory address, one after another: bits above 56 are PROTECTION; in the scratchpad window, beyond the
allocation is PROTECTION before MISALIGNED; outside the windows MISALIGNED comes first, then NOT_PRESENT, then PROTECTION for
rights; a host page takes only the atomics that PCIe has (R203, R204, R214, R225, R419). Where a lane of a load fails and no
walk is missing, the word traps before any lane acts, with the lowest failing lane's cause; where a walk is missing it parks
(R213, R214, R219); a page-table entry that cannot be read leaves a deferred MEM_ERROR (R235, R237). Its model choices: log
entries 15, 41 and 57. -/
def Obligations.MemoryIsChecked : Prop :=
  (∀ (s : State) (n : Nat) (r w : Bool) (atom : Option UOp) (va : Nat),
     let chk := s.memCheck n r w false atom va
     (2 ^ 57 ≤ va → chk = .fail 0x06) ∧
     (va < 2 ^ 57 → s.cp.inWindow va = true →
       (s.cb.hdr.alloc < va - s.cp.scr + n → chk = .fail 0x06) ∧
       (va - s.cp.scr + n ≤ s.cb.hdr.alloc → va % n ≠ 0 → chk = .fail 0x04) ∧
       (va - s.cp.scr + n ≤ s.cb.hdr.alloc → va % n = 0 → chk = .ok (.pad s.cbId (va - s.cp.scr)))) ∧
     (va < 2 ^ 57 → s.cp.inWindow va = false → s.cp.inFrames va = true → chk = .fail 0x06) ∧
     (va < 2 ^ 57 → s.cp.inWindow va = false → s.cp.inFrames va = false →
       (va % n ≠ 0 → chk = .fail 0x04) ∧
       (va % n = 0 → (s.translated va = some .notPresent → chk = .fail 0x05) ∧
         (s.translated va = some .protection → chk = .fail 0x06) ∧ (∀ a, s.translated va = some (.error a) → chk = .fail 0x07) ∧
         (s.translated va = none → chk = .miss (va / 2 ^ 16)) ∧
         ∀ l, s.translated va = some (.leaf l) →
           ((r = true ∧ l.r = false) ∨ (w = true ∧ l.w = false) → chk = .fail 0x06) ∧
           ((r = true → l.r = true) → (w = true → l.w = true) → l.host = false → chk = .ok (.dev (l.pbase + (va - l.vbase)))) ∧
           ((r = true → l.r = true) → (w = true → l.w = true) → l.host = true →
             (∀ op, atom = some op → hostOk op = false → chk = .fail 0x06) ∧
             ((∀ op, atom = some op → hostOk op = true) → chk = .ok (.host s.cp.link (l.pbase + (va - l.vbase)))))))) ∧
  (∀ (s : State) (i : Instr) (r : MemRow), s.loadRow i = some r → s.canRun r.tc = true → s.cg.acquiring = false →
     ((∃ l p, l ∈ s.cg.exLanes ∧ r.chk l = .miss p) → ∃ ps, exec i s = .next { s with cg := { s.cg with park := some (.tlb ps) } } ∧
       ∀ p, p ∈ ps ↔ ∃ l, l ∈ s.cg.exLanes ∧ r.chk l = .miss p) ∧
     (∀ l0 c, (∀ l p, l ∈ s.cg.exLanes → r.chk l ≠ .miss p) → l0 ∈ s.cg.exLanes → r.chk l0 = .fail c →
       (∀ l, l ∈ s.cg.exLanes → l < l0 → ∀ c', r.chk l ≠ .fail c') →
       (c = 0x07 → ∃ t x, exec i s = .next t ∧ x.cause = 0x07 ∧ x.pc = s.cg.ia.toNat ∧
         x.lanes = laneMask (s.cg.exLanes.filter fun l => decide (r.chk l = .fail c)) ∧
         t = { s with cg := { s.cg with mark := false, pend := s.cg.pend ++ [x] }, cp := t.cp, parts := t.parts }) ∧
       (c ≠ 0x07 → ∃ t va, exec i s = .next t ∧ TrappedAt s t c 0 0 va (laneMask (s.cg.exLanes.filter fun l => decide (r.chk l = .fail c))) s.cg.fflags ∧
         (∀ sw ty h d a b, i = .ld sw ty h d a b → va = r.va l0))))

/-! ## Synchronisation -/

/-- BAR arrives once and waits for its generation, with the accesses that its release comes after; one whose generation has
arrivals enough waits for the next; a count above the block's groups, or another than the slot's, traps (R300 to R302, R323).
CBAR arrives at its gang's barrier once the block's writes, and what its release comes after, are performed, and traps in a block
of no gang (R304, R323). Its model choices: log entries 13 (what the arrivals have acquired) and 23. -/
def Obligations.BarriersArrive : Prop :=
  (∀ (s : State) (sw : Bool) (count : Option (Fin 16)), s.syncReady = true →
     let n := (count.map fun c => c.val + 1).getD 0
     let b := s.cb.bar
     (s.heldWrite = true ∨ s.barMet s.cb = true → exec (.bar sw count) s = .next { s with cg := { s.cg with park := some .again } }) ∧
     (s.heldWrite = false → s.barMet s.cb = false →
       (n ≤ s.cb.hdr.groups → (b.arrived = [] ∨ b.need = n) → exec (.bar sw count) s = .next
         { s with cb := { s.cb with bar := { b with need := n, arrived := b.arrived ++ [s.cgId], uset := union b.uset s.cg.aset,
                                                    behind := union b.behind s.pending, vis := visMax b.vis s.cg.vis } },
                  cg := { s.cg with park := some (.bar b.gen), mark := sw, last := s.nextId }, nextId := s.nextId + 1 }) ∧
       (s.cb.hdr.groups < n → ∃ t, exec (.bar sw count) s = .next t ∧
         TrappedAt s t 0x06 0x31 0 s.wordAddr (laneMask s.cg.exLanes) s.cg.fflags) ∧
       (n ≤ s.cb.hdr.groups → b.arrived ≠ [] → b.need ≠ n → ∃ t, exec (.bar sw count) s = .next t ∧
         TrappedAt s t 0x06 0x30 0 s.wordAddr (laneMask s.cg.exLanes) s.cg.fflags))) ∧
  (∀ (s : State) (k : Nat), k ∈ s.pending ↔ ∃ q, (k, q) ∈ s.reqs ∧ q.status.over_ = false ∧ (q.grp = s.cgId ∨ k ∈ s.cg.behind)) ∧
  (∀ (s : State) (sw : Bool) (G : Gang),
     (s.cb.hdr.cluster = 0 → ∃ t, exec (.cbar sw) s = .next t ∧
       TrappedAt s t 0x06 0x32 0 s.wordAddr (laneMask s.cg.exLanes) s.cg.fflags) ∧
     (s.cb.hdr.cluster ≠ 0 → s.syncReady = true → s.heldWrite = false → s.blockDrains = false → s.accessesOut = false → s.behindOut = false →
       (∀ e o, e ∈ s.cc.wcb → o ∈ e.owners → o.blk ≠ s.cbId) →
       s.gangs.find s.cb.gang = some G → exec (.cbar sw) s = .next
         { s with cb := { s.cb with cbarIn := s.cb.cbarIn ++ [s.cgId] },
                  cg := { s.cg with park := some (.cbar G.gen), mark := sw, last := s.nextId }, nextId := s.nextId + 1,
                  gangs := s.gangs.upd s.cb.gang fun g => { g with uset := union g.uset s.cg.aset, vis := visMax g.vis s.cg.vis } }))

/-- FENCE.m and FENCE.a drain the core's combining buffer, FENCE.e what its scope's groups have there; a FENCE completes once
the accesses it orders are performed, and at dom or sys scope once the flush markers it sent are gathered; after .e and .a the
group's engine reads see every write so far of the scope's agents and what the group has acquired (R233, R263, R298, R306,
R322). WAITA sends a watch to the home
with its condition, and its register waits for the answer; it does not watch the host (R307, R308). Its model choices: log
entries 13 and 22. -/
def Obligations.FencesAndWatches : Prop :=
  (∀ (s : State) (sw : Bool) (k : FenceKind) (sc : Scope),
     let p := fenceDrains k sc s.cgId s.cbId
     let u := s.drainWhere s.ccId p
     let passed (t : State) : Prop := IssuedOn s t sw ∧ Drained s t p ∧ t.cg.park = s.cg.park ∧
       t.cg.vis = (if k = .e then s.cg.vis else s.cg.vis.set (scopeNo sc) (Nat.max (s.cg.vis.getD (scopeNo sc) 0) s.cg.saw)) ∧
       t.cg.eord = (if k = .m then s.cg.eord else (tab 7 fun j => Nat.max (s.cg.eord.getD j 0) (t.cg.vis.getD j 0)).set (scopeNo sc) s.wclock) ∧
       Framed { s.after t with cg := { s.cg with eord := t.cg.eord, vis := t.cg.vis } } t {} []
     s.cg.acquiring = false → u.fenceWaits k sc = false →
     (k = .e ∨ s.fenceMarks sc = 0 → ∃ t, exec (.fence sw k sc) s = .next t ∧ KeptReqs s t ∧ passed t) ∧
     (k ≠ .e → 0 < s.fenceMarks sc → u.fenceReq = none → ∃ t, exec (.fence sw k sc) s = .next t ∧ KeptReqs s t ∧ Drained s t p ∧
       Posted s t { s.newReq .fence 0 0 (.pad s.cbId 0) 0 with wait := [], marks := s.fenceMarks sc } ∧
       t = { s with cc := { s.cc with wcb := t.cc.wcb }, reqs := t.reqs, nextId := t.nextId, cg := { s.cg with park := some .again } }) ∧
     (∀ id q, k ≠ .e → 0 < s.fenceMarks sc → u.fenceReq = some (id, q) → q.marks = 0 → id < s.nextId →
       ∃ t, exec (.fence sw k sc) s = .next t ∧ passed t ∧ t.reqs.find id = none ∧
         ∀ j, j < s.nextId → j ≠ id → t.reqs.find j = s.reqs.find j)) ∧
  (∀ (s : State) (sw : Bool) (sc : Scope) (w64 : Bool) (c : WaitCond) (x y z : SReg) (loc : Loc),
     let n := if w64 then 8 else 4
     s.canRun (((readS x false).plus (readS y true)).plus ((readS z w64).plus (writeS x w64))) = true → s.cg.acquiring = false →
     s.memCheck n true false false none (s.rdS64 y) = .ok loc →
     (loc.isHost = false → ∃ t, exec (.waita sw sc w64 c x y z) s = .next t ∧ Framed (s.after t) t (writeS x w64) [] ∧
       IssuedOn s t sw ∧ KeptReqs s t ∧ Drained s t (onLine [0] fun _ => loc) ∧ t.cg.park = s.cg.park ∧
       Flying s t [] (names x w64) [] .watch true ∧ (∃ f, f ∈ t.cg.out ∧ f.seq = s.cg.seq ∧ f.limit = (s.rdS x).toNat) ∧
       Posted s t { s.newReq (.watch c (s.sNum z w64)) 0 (s.rdS64 y) loc n with wait := [], acq := true, scope := sc }) ∧
     (loc.isHost = true → ∃ t, exec (.waita sw sc w64 c x y z) s = .next t ∧
       TrappedAt s t 0x06 0 0 (s.rdS64 y) (laneMask s.cg.exLanes) s.cg.fflags))

/-- QINIT writes a queue's header: stages and capacity, an empty ring. QPUSH by a group of the producer's stage puts its value
behind the others, with the accesses its pop comes after, or waits in line. QPOP by a group of the consumer's stage takes its
place in line, and its pair waits for the entry; a group of another stage traps (R310 to R313, R323). A QINIT or QPUSH behind
an outstanding read of its group goes on at once, and acts when the read has returned (R336). -/
def Obligations.StageQueues : Prop :=
  (∀ (s : State) (sw : Bool) (cons prod : Fin 16) (x y : SReg),
     let q := (s.rdS x).toNat
     let cap := (s.rdS y).toNat
     let tag := s.cb.tag (q / 128)
     let s1 := s.tainted tag
     s.canRun ((readS x false).plus (readS y false)) = true → s.cg.acquiring = false → q % 16 = 0 → 1 ≤ cap → cap ≤ 256 →
     cons.val < s.cb.hdr.stages → prod.val < s.cb.hdr.stages → q + 16 + 8 * cap ≤ s.cb.hdr.alloc →
     (s.cg.readsOut ≠ [] → ∃ t, exec (.qinit sw cons prod x y) s = .next t ∧ IssuedOn s t sw ∧ Framed (s.after t) t {} [] ∧
       t.cg.park = s.cg.park ∧ t.reqs = s.reqs ∧
       Flying s t [] [] [] (.init q (2 ^ 12 * cons.val + 2 ^ 8 * prod.val + (cap - 1))) true) ∧
     (s.cg.readsOut = [] → s.noUndo s.cbId q (union s.cg.aset tag) = false → s.canTaint tag = true →
       ∃ t, exec (.qinit sw cons prod x y) s = .next t ∧ IssuedOn s t sw ∧ KeptOthers s t ∧ Framed (s1.padAfter t) t {} [] ∧
         ∀ a, t.cb.padByte a = if a = q then BitVec.ofNat 8 (cap - 1) else
           if a = q + 1 then BitVec.ofNat 8 (16 * cons.val + prod.val) else
           if q + 1 < a ∧ a < q + 16 then 0 else s.cb.padByte a)) ∧
  (∀ (s : State) (sw : Bool) (x y : SReg),
     let q := (s.rdS x).toNat
     let h := s.qHead q
     let e := h.entry q h.tail
     let tag := s.queueTag q e
     let s1 := s.tainted tag
     s.canRun ((readS x false).plus (readS y true)) = true → s.cg.acquiring = false → q % 16 = 0 → s.cg.park ≠ some .trap →
     q + 16 + 8 * h.cap ≤ s.cb.hdr.alloc → h.res = 0 → h.cstage < s.cb.hdr.stages → h.pstage < s.cb.hdr.stages →
     stageOf s.cb s.cg = h.pstage →
     (s.cg.readsOut ≠ [] → ∃ t, exec (.qpush sw x y) s = .next t ∧ IssuedOn s t sw ∧ (s.cgId, q, s.cg.seq) ∈ t.cb.queueAt ∧
       Framed { s.after t with cb := { s.cb with queueAt := t.cb.queueAt } } t {} [] ∧ t.cg.park = s.cg.park ∧ t.reqs = s.reqs ∧
       Flying s t [] [] [] (.push q (s.rdS64 y)) true) ∧
     (s.cg.readsOut = [] → s.pushAhead q s.cg.seq = false → h.used < h.cap → s.noUndoFor s.cbId [q / 128, e / 128] (union s.cg.aset tag) = false →
       s.canTaint tag = true →
       ∃ t, exec (.qpush sw x y) s = .next t ∧ IssuedOn s t sw ∧ KeptOthers s t ∧ Framed (s1.padAfter t) t {} [] ∧
         t.cb.queueAt = (s.cb.queueAt.filter fun w => w != (s.cgId, q, s.cg.seq)) ∧
         t.cb.pushes = s.cb.pushes.ins (pushKey q h.tail) (s.pending, s.cg.vis) ∧
         ∀ a, t.cb.padByte a = if e ≤ a ∧ a < e + 8 then BitVec.ofNat 8 (s.rdS64 y / 2 ^ (8 * (a - e))) else
           if q + 8 ≤ a ∧ a < q + 12 then BitVec.ofNat 8 ((h.tail + 1) / 2 ^ (8 * (a - (q + 8)))) else s.cb.padByte a) ∧
     (s.cg.readsOut = [] → s.pushAhead q s.cg.seq = true ∨ h.cap ≤ h.used → ∃ t, exec (.qpush sw x y) s = .next t ∧
       (s.cgId, q, s.cg.seq) ∈ t.cb.queueAt ∧
       t = { s with cb := { s.cb with queueAt := t.cb.queueAt }, cg := { s.cg with park := some .again } })) ∧
  (∀ (s : State) (sw : Bool) (x y : SReg),
     let q := (s.rdS y).toNat
     let h := s.qHead q
     s.canRun ((readS y false).plus (writeS x true)) = true → s.cg.acquiring = false → q % 16 = 0 →
     q + 16 + 8 * h.cap ≤ s.cb.hdr.alloc → h.res = 0 → h.cstage < s.cb.hdr.stages → h.pstage < s.cb.hdr.stages →
     (stageOf s.cb s.cg = h.cstage → ∃ t, exec (.qpop sw x y) s = .next t ∧ IssuedOn s t sw ∧ t.reqs = s.reqs ∧
       t.cb.queueAt = (if (s.cgId, q, s.cg.seq) ∈ s.cb.queueAt then s.cb.queueAt else s.cb.queueAt ++ [(s.cgId, q, s.cg.seq)]) ∧ Flying s t [] (names x true) [] (.pop q) true ∧ t.cg.park = s.cg.park ∧
       Framed { s.after t with cb := { s.cb with queueAt := t.cb.queueAt } } t (writeS x true) []) ∧
     (stageOf s.cb s.cg ≠ h.cstage → ∃ t, exec (.qpop sw x y) s = .next t ∧
       TrappedAt s t 0x06 0x36 0 s.wordAddr (laneMask s.cg.exLanes) s.cg.fflags))

/-! ## Engines -/

/-- LDSH sends one read of 64 bytes for a shape slot, which waits for it; EVSH empties a slot at once, under the sets of the
slot and the group, or after an outstanding read of its group has returned (R243, R244, R336). -/
def Obligations.ShapeSlots : Prop :=
  (∀ (s : State) (sw scr : Bool) (x : Fin 32) (y : SReg) (loc : Loc),
     let va := if scr then s.cp.scr + (s.rdS y).toNat else s.rdS64 y
     s.canRun (readS y (!scr)) = true → s.cg.acquiring = false → x.val < s.cb.hdr.shapes →
     (scr = true → (s.rdS y).toNat % 64 = 0 ∧ (s.rdS y).toNat + 64 ≤ s.cb.hdr.alloc ∧ loc = .pad s.cbId (s.rdS y).toNat) →
     (scr = false → s.cp.inWindow va = false ∧ s.memCheck 64 true false false none va = .ok loc) →
     (∀ h, s.shape x = some h → h.loading = false) →
     ∃ t, exec (.ldsh sw scr x y) s = .next t ∧ IssuedOn s t sw ∧ KeptReqs s t ∧ Drained s t (onLine [0] fun _ => loc) ∧
       Framed { s.after t with cb := { s.cb with shapes := s.cb.shapes.modify x fun h => { h with loading := true } } } t {} [] ∧
       Flying s t [] [] [] .load true ∧ t.cg.park = s.cg.park ∧
       Posted s t { s.newReq (.shape x) 0 va loc 64 with wait := [] }) ∧
  (∀ (s : State) (sw : Bool) (x : Fin 32) (h : Shape), s.cg.acquiring = false → x.val < s.cb.hdr.shapes →
     s.shape x = some h → h.loading = false →
     (s.cg.readsOut ≠ [] → ∃ t, exec (.evsh sw x) s = .next t ∧ IssuedOn s t sw ∧ t.reqs = s.reqs ∧ t.cg.park = s.cg.park ∧
       Framed { s.after t with cb := { s.cb with shapes := s.cb.shapes.modify x fun h => { h with loading := true } } } t {} [] ∧
       Flying s t [] [] [] (.evict x.val) true) ∧
     (s.cg.readsOut = [] → s.canTaint (s.slotTags [x.val]) = true →
     ∃ t, exec (.evsh sw x) s = .next t ∧ IssuedOn s t sw ∧ t.reqs = s.reqs ∧
       Framed { s.tainted (s.slotTags [x.val]) with cb := { s.cb with shapes := t.cb.shapes, undo := t.cb.undo } } t {} [] ∧
       (∃ k, t.cb.shapes[x.val]? = some k ∧ k.img = none ∧ k.loading = false ∧ k.tag = union t.cg.aset h.tag) ∧
       (∀ j, j ≠ x.val → t.cb.shapes[j]? = s.cb.shapes[j]?) ∧
       t.cb.undo = s.cb.undo ++ if sameSet (union t.cg.aset h.tag) h.tag then [] else
         [⟨0, union t.cg.aset h.tag, h.tag, [], [], some (x.val, h)⟩]))

/-- COPY takes a record with the images of its two slots and its origins, begins where one of the block's copy slots is free,
and its status goes to its register; a tainted group's copy that touches a host page waits (R245, R246, R252, R262, R263,
R343). With `.acq` its reads are ordered after the block's writes so far and what its group has acquired. Its model choices: log
entry 13. -/
def Obligations.CopyIsTaken : Prop :=
  (∀ s : State, s.engineOrd false = s.cg.eord ∧
    s.engineOrd true = (tab 7 fun j => Nat.max (s.cg.eord.getD j 0) (s.cg.vis.getD j 0)).set 1 s.wclock) ∧
  ∀ (s : State) (sw sp24 mc arr acq : Bool) (x y : Fin 32) (z : SReg) (hx hy : Shape) (bx bY : List Byte),
    let D := Img.of bx
    let C := Img.of bY
    let off := (s.rdS (z.val + 6)).toNat
    let mask := (s.rdS (z.val + 7)).toNat
    let orig := tab 5 fun i => (s.rdS (z.val + 1 + i)).toInt
    let s1 := s.tainted (s.slotTags [x.val, y.val])
    let used := (List.filter (fun (_, c) => c.blk == s.cbId && c.begun) s.copies).length
    s.canRun { sr := namesN (z.val + 1) 5 ++ (if arr then [z.val + 6] else []) ++ (if mc then [z.val + 7] else []), sw := [z.val] }
      = true → s.cg.acquiring = false → x.val < s.cb.hdr.shapes → y.val < s.cb.hdr.shapes → 1 ≤ s.cb.hdr.copies →
    s.shape x = some hx → s.shape y = some hy → hx.loading = false → hy.loading = false → hx.img = some bx → hy.img = some bY →
    D.bad = false → C.bad = false → D.rank = C.rank → D.fmt = C.fmt →
    (sp24 = true → C.scaled = false ∧ C.plane = false ∧ D.dim 0 % 4 = 0 ∧ (s.rdS (z.val + 1)).toInt % 4 = 0) →
    (mc = true → D.space = 1 ∧ s.cb.hdr.cluster ≠ 0 ∧ mask ≠ 0 ∧ mask < 2 ^ s.cb.hdr.cluster) →
    (D.plane = true ∨ D.fmt ≠ .e2m1 ∨ D.dim 0 % 2 = 0) →
    D.beyond s.cb.hdr.alloc false = false → C.beyond s.cb.hdr.alloc sp24 = false →
    (arr = true → off % 16 = 0 ∧ off + 16 ≤ s.cb.hdr.alloc) → s.acqReady acq = true →
    s.canTaint (s.slotTags [x.val, y.val]) = true →
    (s1.cg.aset ≠ [] → s.onHost D = true ∨ s.onHost C = true →
      exec (.copy sw sp24 mc arr acq x y z) s = .next { s with cg := { s.cg with park := some .again } }) ∧
    ((s1.cg.aset = [] ∨ (s.onHost D = false ∧ s.onHost C = false)) → ∃ t, exec (.copy sw sp24 mc arr acq x y z) s = .next t ∧ IssuedOn s t sw ∧ KeptReqs s t ∧
      Drained s t (fun e => acq && fenceDrains .e .blk s.cgId s.cbId e) ∧
      Framed { s1.after t with copies := t.copies } t (writeS z false) [] ∧
      ∃ id c, s.nextId ≤ id ∧ t.copies.find id = some c ∧ (∀ k, k ≠ id → t.copies.find k = s.copies.find k) ∧
        Flying s t [] [z.val] [] (.copy id) true ∧ c.grp = s.cgId ∧ c.blk = s.cbId ∧ c.seq = s.cg.seq ∧ c.wait = s.cg.readsOut ∧ c.dst = bx ∧ c.src = bY ∧ c.orig = orig ∧ c.sp24 = sp24 ∧
        c.arr = (if arr then some off else none) ∧ c.mask = (if mc then some mask else none) ∧ c.set = s1.cg.aset ∧
        c.ord = s.engineOrd acq ∧ c.err = none ∧ c.partial_ = false ∧ c.left = List.range D.units.length ∧
        c.begun = decide (used < s.cb.hdr.copies) ∧ t.cg.park = if used < s.cb.hdr.copies then s.cg.park else some (.copySlot id))

/-- MXLW and MXRUN enter their core's queue with the images of their slots (R257, R258, R260, R263); a full table makes MXLW
wait. Its model choices: log entry 13. -/
def Obligations.MatrixWordsAreQueued : Prop :=
  ∀ (s : State) (sw acq : Bool),
    let k := s.cluster s.myCluster
    let queued (t : State) (e : MxEntry) : Prop := t.clusters.find s.myCluster = some { k with table := k.table ++ [e] } ∧
      (∀ c, c ≠ s.myCluster → t.clusters.find c = s.clusters.find c) ∧ e.grp = s.cgId ∧ e.blk = s.cbId ∧ e.seq = s.cg.seq ∧
      e.pos = corePhys s.ccId % 4 ∧ e.prio = s.cb.prio ∧ e.passed = 0 ∧ e.ord = s.engineOrd acq
    s.cg.acquiring = false →
    (∀ (x : Fin 32) h b, s.shape x = some h → x.val < s.cb.hdr.shapes → h.loading = false → h.img = some b → (Img.of b).bad = false →
      (Img.of b).rank = 2 → (Img.of b).space = 1 → weightFmt (Img.of b).fmt = true → (Img.of b).dim 0 ≤ 128 → (Img.of b).dim 1 ≤ 128 →
      (Img.of b).beyond s.cb.hdr.alloc false = false →
      (16 ≤ k.table.length → exec (.mxlw sw acq x) s = .next { s with cg := { s.cg with park := some .again } }) ∧
      (k.table.length < 16 → s.acqReady acq = true → s.canTaint (s.slotTags [x.val]) = true →
        ∃ t e, exec (.mxlw sw acq x) s = .next t ∧ IssuedOn s t sw ∧ KeptReqs s t ∧
          Drained s t (fun e => acq && fenceDrains .e .blk s.cgId s.cbId e) ∧ Framed { (s.tainted (s.slotTags [x.val])).after t with clusters := t.clusters } t {} [] ∧ t.cg.park = s.cg.park ∧
          Flying s t [] [] [] .pass true ∧ queued t e ∧ e.run = false ∧ e.img1 = b ∧ e.set = t.cg.aset)) ∧
    (∀ (z0 : Bool) (x y : Fin 32) (z : SReg) hx hy bx bY,
      let A := Img.of bx
      let C := Img.of bY
      let m := (s.rdS (z.val + 1)).toNat
      let n := (s.rdS (z.val + 2)).toNat
      let kk := (s.rdS (z.val + 3)).toNat
      let set := s.slotTags [x.val, y.val]
      s.canRun { sr := namesN (z.val + 1) 3, sw := [z.val] } = true → x.val < s.cb.hdr.shapes → y.val < s.cb.hdr.shapes →
      s.shape x = some hx → s.shape y = some hy → hx.loading = false → hy.loading = false → hx.img = some bx → hy.img = some bY →
      A.bad = false → C.bad = false → A.rank = 2 → C.rank = 2 → A.plane = true → C.plane = false → A.space = 1 → C.space = 1 →
      (Fmt.fp A.fmt).isSome = true → (C.fmt = .f32 ∨ C.fmt = .f64) → C.scaled = false → 1 ≤ m → m ≤ 1024 → m ≤ A.dim 1 →
      m ≤ C.dim 1 → 1 ≤ kk → kk ≤ A.dim 0 → 1 ≤ n → n ≤ C.dim 0 → A.beyond s.cb.hdr.alloc false = false →
      C.beyond s.cb.hdr.alloc false = false → k.table.length < 16 → s.acqReady acq = true → s.canTaint set = true →
      ∃ t e, exec (.mxrun sw z0 acq x y z) s = .next t ∧ IssuedOn s t sw ∧ KeptReqs s t ∧
        Drained s t (fun e => acq && fenceDrains .e .blk s.cgId s.cbId e) ∧ Framed { (s.tainted set).after t with clusters := t.clusters } t (writeS z false) [] ∧ t.cg.park = s.cg.park ∧
        Flying s t [] [z.val] [] .pass true ∧ queued t e ∧ e.run = true ∧ e.img1 = bx ∧ e.img2 = bY ∧ e.zero = z0 ∧ e.m = m ∧
        e.n = n ∧ e.k = kk ∧ e.set = t.cg.aset)

/-! ## Grids and experts -/

/-- HPUB waits until its interior is read; then its partition's counter advances to the step, the capture stands for every
partition it supplies, and the word is over (R272, R273). Its model choices: log entry 23. -/
def Obligations.HpubPublishes : Prop :=
  (∀ (s : State) (sw : Bool) (x y z : SReg) (key : Nat) (r : MirrorReg),
    let p := (s.rdS z).toNat
    let top := (newestOf r.counter p).getD ⟨0, []⟩
    let u := s.drainWhere s.ccId fun _ => true
    s.canRun ((readS x true).plus ((readS y false).plus (readS z false))) = true → s.syncReady = true → s.heldWrite = false →
    s.gridOf s.cpId (s.rdS64 x) = some (key, r) → p < r.desc.nparts → s.canTaint top.set = true →
    above (s.rdS y).toNat top.val = true → r.undelivered p = false → u.accessesOut = false → u.blockWritesOut = false →
    u.behindOut = false →
    ∃ t, exec (.hpub sw x y z) s = .next t ∧ KeptReqs s t ∧ Drained s t (fun _ => true) ∧ s.nextId ≤ t.cg.last ∧
      t = { s with cc := { s.cc with wcb := t.cc.wcb }, reqs := t.reqs, nextId := t.nextId,
                   cg := { (s.tainted top.set).cg with park := some (.hpub (s.rdS64 x) p (s.rdS y).toNat sw), last := t.cg.last } }) ∧
  (∀ (s t u : State) (g h p step key : Nat) (sw : Bool) (r : MirrorReg) (data : Tab Nat),
    s.focus g = some t → g ≠ nobody → t.cb.saved = false → t.cg.park = some (.hpub h p step sw) → t.gridOf t.cpId h = some (key, r) →
    p < r.desc.nparts → above step ((newestOf r.counter p).getD ⟨0, []⟩).val = true → r.undelivered p = false →
    ((newestOf r.counter p).getD ⟨0, []⟩).set = [] → t.cg.aset = [] → t.capture r.desc t.cpId p = (.ok (data, []), u) →
    ∃ v, exec (.hpubCapture g) s = .next v ∧ (v.groups.find g).map Group.park = some none ∧
      ∃ r1, v.mirrors.find key = some r1 ∧ newestOf r1.counter p = some ⟨step, []⟩ ∧
        (∀ q, q ≠ p → newestOf r1.counter q = newestOf r.counter q) ∧ r1.tags = r.tags ∧
        (r.desc.takers p ≠ [] → r1.captures = r.captures ++ [⟨p, t.cb.task, step, data, [], r.desc.takers p, []⟩]) ∧
        ∀ k, k ≠ key → v.mirrors.find k = u.mirrors.find k)

/-- XSEND sends a row to a replica: the token picks it from its die's copy of the table; a key or a length that does not fit
traps, and so does a row that lies in the frame window or beyond the allocation; a tainted group's row from or to a host page
waits (R290, R291, R343, R419). Its model choices: log entry 13. -/
def Obligations.RowIsSent : Prop :=
  ∀ (s : State) (sw acq : Bool) (x : SReg) (l : Layer) (e : Nat),
    let n := x.val
    let key := (s.rdS (n + 1)).toNat
    let a := s.rdS64 (n + 2)
    let nb := (s.rdS (n + 4)).toNat
    let tok := (s.rdS (n + 5)).toNat
    let tab := ((l.experts[e]?).bind fun x => x.copies.find s.cb.ldie).getD (0, [])
    let dest := tab.2.getD (tok % Nat.max 1 tab.2.length) 0
    s.canRun { sr := namesN (n + 1) 6, sw := [n] } = true → s.cg.acquiring = false →
    (∀ sub, s.expertOf s.cpId key = .error sub → ∃ t, exec (.xsend sw acq x) s = .next t ∧
      TrappedAt s t 0x0D sub 0 s.wordAddr (laneMask s.cg.exLanes) s.cg.fflags) ∧
    (s.expertOf s.cpId key = .ok (l, e) → nb = 0 ∨ l.rowb < nb ∨ nb % 16 ≠ 0 → ∃ t, exec (.xsend sw acq x) s = .next t ∧
      TrappedAt s t 0x0D 0x22 0 s.wordAddr (laneMask s.cg.exLanes) s.cg.fflags) ∧
    (s.expertOf s.cpId key = .ok (l, e) → 0 < nb → nb ≤ l.rowb → nb % 16 = 0 → a % 16 = 0 →
      ((s.cp.inWindow a = true ∧ s.cb.hdr.alloc < a - s.cp.scr + nb) ∨ (a < s.cp.frames + 2 ^ 16 ∧ s.cp.frames < a + nb) →
        ∃ t, exec (.xsend sw acq x) s = .next t ∧ TrappedAt s t 0x06 0 0 s.wordAddr (laneMask s.cg.exLanes) s.cg.fflags) ∧
      ((s.cp.inWindow a = true → a - s.cp.scr + nb ≤ s.cb.hdr.alloc) → s.cp.meetsFrames a nb = false →
      (List.filter (fun (_, c) => c.core == s.ccId && c.grp != nobody) s.sends).length < 16 →
      (s.cg.aset ≠ [] → s.sendOnHost a nb (l.areaVa dest e) (128 + l.slots * (l.rowb + 128)) = true →
        exec (.xsend sw acq x) s = .next { s with cg := { s.cg with park := some .again } }) ∧
      ((s.cg.aset = [] ∨ s.sendOnHost a nb (l.areaVa dest e) (128 + l.slots * (l.rowb + 128)) = false) → s.acqReady acq = true →
      ∃ t id c, exec (.xsend sw acq x) s = .next t ∧ IssuedOn s t sw ∧ KeptReqs s t ∧
        Drained s t (fun e => acq && fenceDrains .e .blk s.cgId s.cbId e) ∧
        Framed { s.after t with sends := t.sends } t (writeS x false) [] ∧ t.cg.park = s.cg.park ∧
        Flying s t [] [n] [] (.send id) true ∧ s.nextId ≤ id ∧ t.sends.find id = some c ∧
        (∀ k, k ≠ id → t.sends.find k = s.sends.find k) ∧ c.grp = s.cgId ∧ c.blk = s.cbId ∧ c.seq = s.cg.seq ∧ c.key = key ∧
        c.rowLoc = a ∧ c.nbytes = nb ∧ c.token = tok ∧ c.gate = (s.rdS (n + 6)).toNat ∧ c.version = tab.1 ∧ c.target = dest ∧
        c.redir = false ∧ c.read = false ∧ c.set = s.cg.aset ∧ c.wait = s.cg.readsOut ∧ c.ord = s.engineOrd acq ∧ c.sender = s.groupAgent s.cg ∧
        c.parked = false ∧ c.status = if tab.2 = [] then some 0x10 else none)))

/-- XWAIT takes its place in its die's line for the expert's rows; the poll form answers FFFF_FFFFH at once where every row is
spoken for (R292). XDONE by the block that claimed the slot clears its header flag, frees it, and raises the window floor
where it is asked to; another block's, or an empty, slot traps (R293, R294). Its model choices: log entry 23. -/
def Obligations.RowsAreTaken : Prop :=
  (∀ (s : State) (sw poll : Bool) (x y : SReg) (l : Layer) (e : Nat),
     let key := (s.rdS y).toNat
     let a := l.area s.cb.ldie e
     s.canRun ((readS y false).plus (writeS x false)) = true → s.cg.acquiring = false → s.expertOf s.cpId key = .ok (l, e) →
     (poll = true ∧ a.unclaimed.length ≤ (s.activeWaiters a).length → ∃ t, exec (.xwait sw poll x y) s = .next t ∧ IssuedOn s t sw ∧
       Framed (s.after t) t (writeS x false) [] ∧ Flying s t [] [x.val] [] (.now 0xFFFF_FFFF) true ∧ t.reqs = s.reqs ∧
       t.cc = s.cc ∧ t.cg.park = s.cg.park) ∧
     (poll = false ∨ (s.activeWaiters a).length < a.unclaimed.length → ∃ t, exec (.xwait sw poll x y) s = .next t ∧ IssuedOn s t sw ∧
       Framed { s.after t with layers := t.layers } t (writeS x false) [] ∧ Flying s t [] [x.val] [] (.xwait key poll) true ∧
       t.reqs = s.reqs ∧ t.cc = s.cc ∧ t.cg.park = s.cg.park ∧
       t.layers = (s.setLayer (l.setArea s.cb.ldie e { a with waiters := a.waiters ++ [(s.cgId, s.cg.seq)] })).layers)) ∧
  (∀ (s : State) (sw wlo : Bool) (x y z : SReg) (l : Layer) (e : Nat),
     let key := (s.rdS y).toNat
     let i := (s.rdS z).toNat
     let w := (s.rdS x).toNat
     let d := s.cb.ldie
     let a := l.area d e
     s.canRun (((readS y false).plus (readS z false)).plus (if wlo then readS x false else {})) = true → s.syncReady = true →
     s.heldWrite = false → s.engineOut = false → s.expertOf s.cpId key = .ok (l, e) →
     (∀ (r : Row) (u : State) set, a.slots.getD i none = some r → r.claim = some (s.cbId, set) → r.gone = none → s.cg.aset = [] →
       s.mirrorWrite s.cpId (l.slotVa d e i + 0x14) 4 (toBytes 4 (2 * b2n r.redir)) [] (s.unitOf s.cpId d) = .ok u →
       ∃ t a1 l1, exec (.xdone sw wlo x y z) s = .next t ∧ IssuedOn s t sw ∧ l1 = l.setArea d e a1 ∧
         a1 = { a with slots := a.slots.set i none, wlo := a1.wlo } ∧
         a1.wlo = (if wlo = true ∧ (w + 2 ^ 32 - a.wlo) % 2 ^ 32 < 2 ^ 31 then w else a.wlo) ∧
         t.cb = { s.cb with claims := s.cb.claims.filter fun c => c != (key, i) } ∧
         Framed (((({ u with cb := t.cb } : State).setLayer l1).mirrorArea l1 d e).mirrorEntry l1 e) t {} []) ∧
     (a.slots.getD i none = none → ∃ t, exec (.xdone sw wlo x y z) s = .next t ∧
       TrappedAt s t 0x0D 0x23 0 s.wordAddr (laneMask s.cg.exLanes) s.cg.fflags) ∧
     (∀ r : Row, a.slots.getD i none = some r → (r.claim.map (·.1) ≠ some s.cbId ∨ r.gone ≠ none) →
       ∃ t, exec (.xdone sw wlo x y z) s = .next t ∧
       TrappedAt s t 0x0D 0x23 0 s.wordAddr (laneMask s.cg.exLanes) s.cg.fflags))

/-- A write that Mirror or Prism reports with reaches the bytes at its address and no others; of one that meets an ECC word
whose data are lost, the other words are written (R236, R268, R281, R287). Its model choices: log entries 43, and 52 (such a write does not wait
for the final phase of its page's migration). -/
def Obligations.ReportsWriteTheirBytes : Prop :=
  ∀ (s : State) (part ldie va n v : Nat) (loc : Loc), s.reach part va n false true = .ok loc →
    let t := s.report part ldie va n v
    let lost (a p : Nat) : Prop := ∃ x, x ∈ s.rmwHits p (someBytes (toBytes n v)) ∧ x.2 = .lasting ∧ x.1 = a / 32
    (∀ pa, (∀ p, loc = .dev p → pa < p ∨ p + n ≤ pa) → t.devByte pa = s.devByte pa) ∧
    (∀ k ba, (∀ j b, loc = .host j b → k * 2 ^ 64 + ba < j * 2 ^ 64 + b ∨ j * 2 ^ 64 + b + n ≤ k * 2 ^ 64 + ba) →
      t.hostByte k ba = s.hostByte k ba) ∧
    (∀ p, loc = .dev p → s.homeUp loc = true → ∀ i, i < n →
      (¬lost (p + i) p → t.devByte (p + i) = BitVec.ofNat 8 (v / 2 ^ (8 * i))) ∧
      (lost (p + i) p → t.devByte (p + i) = s.devByte (p + i)))

/-! ## Assumptions -/

/-- GUESS: where the truth cell's sequence has come, its value arrives; else an identifier is minted on the cell, joins the
group's set after a snapshot, and the predicted value arrives (R330, R334, R335). Its model choices: log entry 23. -/
def Obligations.GuessMints : Prop :=
  ∀ (s : State) (sw : Bool) (x y z : SReg) (pa : Nat),
    let c := s.rdS64 y
    let pv := s.rdS64 z
    let es := s.rdS64 (z.val + 2)
    s.canRun { sr := names y true ++ namesN z 4, sw := names x true } = true → c % 16 = 0 →
    s.memCheck 16 true false false none c = .ok (.dev pa) → s.syncReady = true → s.cg.vlOut = false → s.migOf (.dev pa) = none →
    s.lineBusy pa = false → (∀ e, e ∈ s.cc.wcb → e.line ≠ lineOf pa) → s.homeUp (.dev pa) = true → s.eccHits pa 16 = [] →
    (es ≤ (s.cellAt pa).2 → ∃ t, exec (.guess sw x y z) s = .next t ∧ IssuedOn s t sw ∧ t.reqs = s.reqs ∧ t.cc = s.cc ∧
      Framed (s.after t) t (writeS x true) [] ∧ Flying s t [] (names x true) [] (.now (s.cellAt pa).1) false ∧
      t.cg.park = s.cg.park) ∧
    (∀ slot, (s.cellAt pa).2 < es → (∀ k a, (k, a) ∈ s.aids → a.part = s.cpId → a.refusal.isSome = true → a.cell = pa → a.es ≠ es) →
      s.cg.aset.length < 4 → s.cg.snaps.length < 2 → s.heldSlots s.cpId < s.cp.aidq → s.nextSlot = some slot →
      s.aidOf slot ∉ s.cg.aset →
      ∃ t, exec (.guess sw x y z) s = .next t ∧ IssuedOn s t sw ∧ Flying s t [] (names x true) [] (.now pv) false ∧
        t.cg.aset = s.cg.aset ++ [s.aidOf slot] ∧ t.cg.snaps = s.cg.snaps ++ [s.cg.snap [s.aidOf slot]] ∧
        t.aids.find (s.aidOf slot) = some ⟨s.cpId, s.cgId, s.cb.task, coreDie s.ccId, pa, c, es, pv, s.cg.aset, none⟩ ∧
        (∀ k, k ≠ s.aidOf slot → t.aids.find k = s.aids.find k) ∧
        (s.unused < 4096 → slot = s.unused ∧ t.unused = slot + 1) ∧ (¬ s.unused < 4096 → t.freeSlots = s.freeSlots.drop 1) ∧
        Framed ({ s.after t with aids := t.aids, gens := t.gens, unused := t.unused, freeSlots := t.freeSlots,
                                 cg := { s.cg with aset := t.cg.aset, snaps := t.cg.snaps, out := t.cg.out } } : State) t (writeS x true) [])

/-- AFFIRM and DENY by a group whose set is only the identifier and its descendants send the decision to its minting unit,
where the first counts, after the group's outstanding reads; a group whose set holds more waits; of an identifier that is not
live they do nothing (R336, R349). HOLD with an empty set goes on; else it waits for an empty set, or HOLD.any for any
identifier to leave the set (R350). -/
def Obligations.GroupsResolve : Prop :=
  (∀ (s : State) (sw yes : Bool) (x : SReg),
     let i : Instr := if yes then .affirm sw x else .deny sw x
     let id := (s.rdS x).toNat % 2 ^ 24
     s.canRun (readS x false) = true →
     (∀ a, s.aids.find id = some a → a.part = s.cpId → a.refusal = none →
       (subset s.cg.aset (s.descend [id]) = true → s.cg.readsOut = [] → ∃ t, exec i s = .next t ∧ IssuedOn s t sw ∧
         Framed { s with resol := t.resol } t {} [] ∧
         t.resol = if s.resol.any (fun r => r.1 == id) then s.resol else s.resol ++ [(id, yes)]) ∧
       (subset s.cg.aset (s.descend [id]) = true → s.cg.readsOut ≠ [] → ∃ t, exec i s = .next t ∧ IssuedOn s t sw ∧
         Framed (s.after t) t {} [] ∧ t.cg.park = s.cg.park ∧ t.reqs = s.reqs ∧ Flying s t [] [] [] (.rule id yes) true) ∧
       (subset s.cg.aset (s.descend [id]) = false → exec i s = .next { s with cg := { s.cg with park := some .again } })) ∧
     ((∀ a, s.aids.find id = some a → a.part ≠ s.cpId ∨ a.refusal.isSome = true) →
       ∃ t, exec i s = .next t ∧ IssuedOn s t sw ∧ Framed s t {} [])) ∧
  (∀ (s : State) (sw any : Bool),
     (s.cg.aset = [] → ∃ t, exec (.hold sw any) s = .next t ∧ IssuedOn s t sw ∧ Framed s t {} []) ∧
     (s.cg.aset ≠ [] → exec (.hold sw any) s = .next (if any
       then { s with cg := { s.cg with park := some (.holdAny s.cg.aset), mark := sw, last := s.nextId }, nextId := s.nextId + 1 }
       else { s with cg := { s.cg with park := some .again } })))

/-! ## Streams -/

/-- A control instruction gives its stream the registers, return stack and address of its rule, and changes nothing else;
where its rule faults it becomes a faulted entry of the window instead (R64 to R67, R89). A control transfer and FFENCE begin
a run: the 64 instructions from the new address are fetched anew (R60). -/
def Obligations.StreamControl : Prop :=
  (∀ (s : State) (i : Instr),
     (∀ c, s.ctxAfter i = some c → ∃ t, exec i s = .next t ∧ t.cst.ctx = c ∧ FrontFramed s t) ∧
     (∀ cause, s.ctlFault i = some cause → s.windowRoom s.cpId s.strm = true → ∃ t T, exec i s = .next t ∧ Entered s t T ∧
       T.cause = some cause ∧ T.state = .complete ∧ T.part = s.cpId ∧ T.stream = s.strm ∧ T.addr = s.cst.ctx.pc ∧
       T.opc = i.opByte ∧ T.resume = s.cst.ctx ∧
       t = { s with tasks := t.tasks, nextId := t.nextId, cst := { s.cst with stuck := true, waiting := false } })) ∧
  (∀ (s t : State) (i : Instr) (c : StreamCtx), (i = .ffence ∨ i = .streamRet ∨ (∃ g, i = .jmp g) ∨ (∃ g, i = .streamCall g)) →
     s.ctxAfter i = some c → exec i s = .next t → t.cst.run.map (·.1) = tab 64 fun k => (c.pc + 16 * k) % 2 ^ 64)

/-- LDQ, STQ and WHEN of memory wait until every older task of the stream has retired, and then access memory: LDQ extends
what it reads, STQ stores the low bytes of its register and nothing else; HALT stops the stream (R63, R65 to R67). Its model
choices: log entry 51. -/
def Obligations.StreamAccesses : Prop :=
  ∀ s : State,
    (s.inWindow s.cpId s.strm = 0 →
      (∀ (sz : QSize) (sx : Bool) (qa qb : QReg) (disp : BitVec 32) (bs : List Byte) (u : State),
        s.qAddr qb disp % sz.bytes = 0 → s.readAs s.cpId (s.qAddr qb disp) sz.bytes = (.ok bs, u) →
        ∃ t, exec (.ldq sz sx qa qb disp) s = .next t ∧ FrontFramed s t ∧
          t.cst.ctx = (s.cst.ctx.setQ qa (if sx then ((BitVec.ofNat (8 * sz.bytes) (ofBytes bs)).signExtend 64).toNat else ofBytes bs)).go
            (s.cst.ctx.next 1)) ∧
      (∀ (c : QCond) (r qb : QReg) (disp : BitVec 32) (n : BitVec 16) (bs : List Byte) (u : State), 1 ≤ n.toNat → n.toNat ≤ 15 →
        s.qAddr r disp % 8 = 0 → s.readAs s.cpId (s.qAddr r disp) 8 = (.ok bs, u) →
        ∃ t, exec (.when c (.mem r disp) qb n) s = .next t ∧ FrontFramed s t ∧ t.cst.ctx = s.cst.ctx.go
          (s.cst.ctx.next (if c.holds (.ofNat 64 (ofBytes bs)) (.ofNat 64 (s.q qb)) then 1 else n.toNat + 1))) ∧
      (∀ (sz : QSize) (qa qb : QReg) (disp : BitVec 32) (pa : Nat), s.qAddr qb disp % sz.bytes = 0 →
        s.reach s.cpId (s.qAddr qb disp) sz.bytes false true = .ok (.dev pa) → s.homeUp (.dev pa) = true →
        s.heldPage (.dev pa) = false → s.eccLost pa sz.bytes = false →
        ∃ t, exec (.stq sz qa qb disp) s = .next t ∧ t.cst.ctx = s.cst.ctx.go (s.cst.ctx.next 1) ∧
          (∀ a, t.devByte a = if pa ≤ a ∧ a < pa + sz.bytes then BitVec.ofNat 8 (s.q qa / 2 ^ (8 * (a - pa))) else s.devByte a) ∧
          t = { s with mem := t.mem, wrote := t.wrote, vers := t.vers, wclock := t.wclock, reqs := t.reqs, resol := t.resol,
                       aids := t.aids, freeSlots := t.freeSlots, tasks := t.tasks, cst := t.cst, cp := t.cp, ecc := t.ecc,
                       corrected := t.corrected, ptes := t.ptes, free := t.free, parts := t.parts } ∧
          t.cst = { s.cst with ctx := t.cst.ctx, waiting := false, run := t.cst.run } ∧
          t.cp = { s.cp with log := t.cp.log, logSeq := t.cp.logSeq, elost := t.cp.elost }) ∧
      exec .halt s = .next { s with cst := { s.cst with state := .halted, waiting := false, run := [] } }) ∧
    (s.inWindow s.cpId s.strm ≠ 0 →
      (∀ sz sx qa qb disp, s.qAddr qb disp % sz.bytes = 0 →
        exec (.ldq sz sx qa qb disp) s = .next { s with cst := { s.cst with waiting := true } }) ∧
      exec .halt s = .next { s with cst := { s.cst with halt := true, waiting := false } })

/-- DEFB, BINDB and RELB remap a logical buffer; the buffer it had goes back when the task retires (R68 to R71, R74). A task
whose operands are q registers goes into the window with their values; a misaligned WAITS becomes a faulted entry (R59, R87,
R91, R92, R98, R99, R277, R285, R286). Its model choices: log entry 49. -/
def Obligations.TasksAreDecoded : Prop :=
  (∀ (s : State) (n : LBuf), s.windowRoom s.cpId s.strm = true →
     let put (b : Option Buf) := s.cst.ctx.map.setIfInBounds n.val b
     (∀ (len : QLen) (b : Nat) (rest : List Nat),
       let l := match len with
         | .imm v => v.toNat
         | .reg r => s.q r
       1 ≤ l → l ≤ 2 ^ 31 → s.cp.free.getD (classOf l) [] = b :: rest → l ≤ classSize (classOf l) ∧
       ∃ t, exec (.defb n len) s = .next t ∧ Decoded s t
         { s.newTask (.defb n len) with give := Buf.owned (s.bufAt n), took := [⟨b, some (classOf l), l⟩] } (put (some ⟨b, some (classOf l), l⟩)) (s.cp.free.set (classOf l) rest)) ∧
     (∀ (qa : QReg) (len : BitVec 32), s.q qa % 128 = 0 → 1 ≤ len.toNat → len.toNat ≤ 2 ^ 31 →
       s.cp.refused (s.q qa) len.toNat = false →
       ∃ t, exec (.bindb n qa len) s = .next t ∧ Decoded s t { s.newTask (.bindb n qa len) with give := Buf.owned (s.bufAt n) }
         (put (some ⟨s.q qa, none, len.toNat⟩)) s.cp.free) ∧
     ∃ t, exec (.relb n) s = .next t ∧ Decoded s t { s.newTask (.relb n) with give := Buf.owned (s.bufAt n) } (put none) s.cp.free) ∧
  (∀ (s : State) (i : Instr), s.windowRoom s.cpId s.strm = true →
     (∀ T, s.plainTask i = some T → ∃ t, exec i s = .next t ∧ Decoded s t T s.cst.ctx.map s.cp.free) ∧
     (∀ sc qa qb us, i = .waits sc qa qb us → s.q qa % 8 ≠ 0 → ∃ t T, exec i s = .next t ∧ Entered s t T ∧ T.cause = some 0x04))

/-- COPYT and FILL go into the window with their operands and regions; a whole write of a buffer from a free list takes a
fresh one, and the old goes back when the task retires (R72, R83, R84). LAUNCH reads its record, and one that passes its
checks becomes a task with the record's code, dimensions and flags, its footprint, and an argument frame (R75 to R80, R419).
Its model choices: log entries 49 and 51. -/
def Obligations.LaunchAndBlockMoves : Prop :=
  (∀ (s : State) (whole : Bool) (dst : LBuf) (qa qb : QReg) (len : BitVec 32) (bd : Buf), s.windowRoom s.cpId s.strm = true →
     s.bufAt dst = some bd → 1 ≤ len.toNat → len.toNat ≤ 2 ^ 31 → s.q qa < 2 ^ 32 → s.q qa + len.toNat ≤ bd.len →
     (whole = true → s.q qa = 0 ∧ len.toNat = bd.len) →
     let dest (i : Instr) (foot : List Region) : Prop :=
       let T : Task := { s.newTask i with qa := s.q qa, qb := s.q qb }
       (whole = false → ∃ t, exec i s = .next t ∧
         Decoded s t { T with foot := foot ++ [⟨bd, s.q qa, len.toNat, 0, 1, 1⟩] } s.cst.ctx.map s.cp.free) ∧
       (whole = true → bd.cls = none → ∃ t, exec i s = .next t ∧
         Decoded s t { T with foot := foot ++ [⟨bd, 0, bd.len, 0, 1, 1⟩] } s.cst.ctx.map s.cp.free) ∧
       (∀ c f rest, whole = true → bd.cls = some c → s.cp.free.getD c [] = f :: rest → ∃ t, exec i s = .next t ∧ Decoded s t
         { T with foot := foot ++ [⟨⟨f, some c, bd.len⟩, 0, bd.len, 0, 1, 3⟩], give := [bd], took := [⟨f, some c, bd.len⟩] }
           (s.cst.ctx.map.setIfInBounds dst.val (some ⟨f, some c, bd.len⟩)) (s.cp.free.set c rest))
     (s.q qa % 8 = 0 → len.toNat % 8 = 0 → dest (.fill whole dst qa qb len) []) ∧
     (∀ (src : LBuf) (bs : Buf), s.bufAt src = some bs → s.q qb < 2 ^ 32 → s.q qb + len.toNat ≤ bs.len →
       ((whole = true ∧ bd.cls.isSome = true) ∨ bd.base + s.q qa + len.toNat ≤ bs.base + s.q qb ∨
         bs.base + s.q qb + len.toNat ≤ bd.base + s.q qa) →
       dest (.copyt whole dst qa src qb len) [⟨bs, s.q qb, len.toNat, 0, 1, 0⟩])) ∧
  (∀ (s u v w : State) (qa : QReg) (bs : List Byte) (es : List (List Byte)) (T : Task), s.windowRoom s.cpId s.strm = true →
     s.q qa % 64 = 0 → s.readSeen s.cpId (s.q qa) 64 = (.ok bs, u) →
     u.readEnts s.cpId (s.q qa + 64) (bits (word4 bs 0x14) 12 8) = (.ok es, v) → bits (word4 bs 0x14) 12 8 ≤ 16 →
     v.launchRecord (s.newTask (.launch qa)) bs es = .task T w →
     (∃ t, exec (.launch qa) s = .next t ∧ Decoded s t T w.cst.ctx.map w.cp.free) ∧
     T.code = word8 bs 0 ∧ T.gdx = word4 bs 8 ∧ T.gdy = word4 bs 12 ∧ T.gdz = word4 bs 16 ∧ T.gang = bit (word4 bs 0x14) 0 ∧
     T.det = (bit (word4 bs 0x14) 1 || s.cst.ctx.detm) ∧ T.foot.length = es.length ∧ T.state = .waiting ∧ T.cause = none ∧
     (∀ i, i < 16 → T.frame[i]? = some ((T.foot[i]?.map fun r => r.buf.base).getD 0)) ∧ T.frame[16]? = some (word8 bs 0x18) ∧
     T.code % 64 = 0 ∧ word8 bs 0x18 % 8 = 0 ∧ 0 < T.gdx ∧ 0 < T.gdy ∧ T.gdy ≤ 65535 ∧ 0 < T.gdz ∧ T.gdz ≤ 65535)

/-! ## Steps of the streams and the Loupe -/

/-- Between steps no entity is in focus. Its model choices: log entry 10. -/
def Obligations.StepLeavesNoFocus : Prop :=
  State.reset.Unfocused ∧ ∀ s t : State, s.Unfocused → step s = .next t → t.Unfocused

/-- The commands of a stream, and its faults: START, RESUME, ABORT and the end of an abort; the oldest task's fault stops the
stream at its resume point with every task squashed, or where the task lost a die the Loupe resumes it (R52 to R54, R64, R93
to R96, R389). Its model choices: log entries 7 (START clears SFADDR and SDADDR) and 39. -/
def Obligations.StreamsStartAndStop : Prop :=
  ∀ (s : State) (part k : Nat) (P : Part) (x : Stream), s.Unfocused → part ≠ nobody → part * 16 + k ≠ nobody →
    s.parts.find part = some P → s.streams.find (part * 16 + k) = some x →
    let squashed (v : State) : Prop := v.streamTasks part k = [] ∧
      (∀ j, j ≠ part * 16 + k → v.streams.find j = s.streams.find j)
    (s.hostReach part = true →
      (∀ addr, (x.state = .idle ∨ x.state = .halted) → ∃ v y, exec (.scmdStart part k addr) s = .next v ∧
        v.streams.find (part * 16 + k) = some y ∧ y = { Stream.empty with state := .running, ctx := y.ctx, run := y.run, began := s.wclock, past := x.past } ∧
        y.ctx = { StreamCtx.empty with pc := 16 * addr.toNat } ∧
        y.run.map (·.1) = tab 64 (fun i => (16 * addr.toNat + 16 * i) % 2 ^ 64) ∧ v.tasks = s.tasks ∧ v.mem = s.mem ∧
        ∀ j, j ≠ part * 16 + k → v.streams.find j = s.streams.find j) ∧
      (x.state = .faulted → ∃ v y, exec (.scmdResume part k) s = .next v ∧ v.streams.find (part * 16 + k) = some y ∧
        y.state = .running ∧ y.ctx = x.ctx ∧ y.cause = 0 ∧ y.opc = 0 ∧ y.mark = x.mark ∧ y.stuck = false ∧ v.tasks = s.tasks ∧
        v.mem = s.mem) ∧
      ((x.state = .running ∨ x.state = .halted ∨ x.state = .faulted) → ∃ v y, exec (.scmdAbort part k) s = .next v ∧
        v.streams.find (part * 16 + k) = some y ∧ y.state = .aborting ∧ y.cause = 0 ∧ y.opc = 0 ∧
        y.ctx.map = Vector.replicate 64 none ∧ y.mark = x.mark ∧ squashed v)) ∧
    (x.state = .aborting → s.orphansOut part = false →
      ∃ v, exec (.abortComplete part k) s = .next v ∧ v.streams.find (part * 16 + k) = some { x with state := .idle } ∧
        v = { s with streams := v.streams } ∧ ∀ j, j ≠ part * 16 + k → v.streams.find j = s.streams.find j) ∧
    (∀ id T rest c, s.streamTasks part k = (id, T) :: rest → T.cause = some c → T.state = .complete →
      (s.selfResume T = false → ∃ v y, exec (.streamFault part k) s = .next v ∧ v.streams.find (part * 16 + k) = some y ∧
        y = { x.stop .faulted with cause := c, opc := T.opc, sfaddr := T.addr, sdaddr := T.daddr, ctx := T.resume } ∧ squashed v) ∧
      (s.selfResume T = true → ∃ v y, exec (.dieLostResume part k) s = .next v ∧ v.streams.find (part * 16 + k) = some y ∧
        y.state = .running ∧ y.ctx = T.resume ∧ y.again = true ∧ squashed v))

/-- Tasks issue and complete: a marker completes at its issue, a launch becomes a grid of its header and record, a block move
writes the source's bytes or the pattern to its destination and no other byte, a WAITS times out; a grid ends with its last
block, a grid that lost a die once what its blocks sent has been performed (R81, R83 to R92, R105, R109, R326, R327, R386,
R388). Its model choices: log entries 3, 27, 44, 49 and 50. -/
def Obligations.TasksIssueAndComplete : Prop :=
  ∀ s : State, s.Unfocused →
    (∀ part id T, firstReady (List.filter (fun (id, t) => t.part == part && s.mayIssue id t) s.tasks) = some (id, T) →
      s.tasks.find id = some T →
      (T.kind = .marker → exec (.taskIssue part) s = .next
        { s with tasks := s.tasks.ins id { T with state := .complete, since := s.now } }) ∧
      ((∃ w a b c d n, T.instr = .copyt w a b c d n) ∨ (∃ w a b c n, T.instr = .fill w a b c n) → exec (.taskIssue part) s = .next
        { s with tasks := s.tasks.ins id { T with state := .issued, since := s.now } }) ∧
      (∀ q bs u h P, T.instr = .launch q → ({ s with tasks := s.tasks.ins id { T with state := .issued, since := s.now } } : State).readSeen
          T.part T.code 64 = (.ok bs, u) → Hdr.parse T.code bs = some h → u.part T.part = some P → u.launchFault T h P = none →
        ∃ v G, exec (.taskIssue part) s = .next v ∧
          v.tasks.find id = some { T with state := .issued, since := s.now, grid := some G } ∧ G.hdr = h ∧ G.gdx = T.gdx ∧
          G.gdy = T.gdy ∧ G.gdz = T.gdz ∧ G.det = T.det ∧ G.gangL = T.gang ∧ G.retired = 0 ∧ G.failed = false ∧
          G.cls = T.ecls.getD h.energy)) ∧
    (∀ id T, s.tasks.find id = some T → T.state = .issued →
      (T.met = true → exec (.taskComplete id) s = .next (s.updTask id fun _ =>
        { T with state := .complete, cause := T.cause, daddr := if T.cause = none then 0 else T.daddr })) ∧
      (∀ (n : BitVec 32) (copies : Bool) (l : Leaf), T.met = false →
        (if copies then ∃ w d a c b, T.instr = .copyt w d a c b n else ∃ w d a b, T.instr = .fill w d a b n) →
        (∀ u, s.copyBytes id T n.toNat 0 n.toNat = .ok u → exec (.taskComplete id) s = .next (u.updTask id fun T =>
          { T with state := .complete, cause := none, daddr := 0 })) ∧
        (∀ u c a, s.copyBytes id T n.toNat 0 n.toNat = .bad u c a → exec (.taskComplete id) s = .next (u.updTask id fun T =>
          { T with state := .complete, cause := some 0x0D, daddr := a })) ∧
        -- each of the two regions on one device page
        let d := l.pbase + (T.dstAt - l.vbase)
        let fits (l : Leaf) (va pa : Nat) : Prop := s.walk T.part va = .leaf l ∧ va + n.toNat ≤ l.vbase + l.size ∧ va + n.toNat ≤ 2 ^ 57 ∧
          l.host = false ∧ s.eccLost pa n.toNat = false ∧ (∀ i, i < n.toNat → s.homeUp (.dev (pa + i)) = true) ∧
          ∀ P, s.part T.part = some P → P.refused va n.toNat = false
        (s.migs = [] → fits l T.dstAt d → l.w = true →
          (copies = false → ∃ v, exec (.taskComplete id) s = .next v ∧
            v.tasks.find id = some { T with state := .complete, cause := none, daddr := 0 } ∧
            ∀ a, v.devByte a = if d ≤ a ∧ a < d + n.toNat then BitVec.ofNat 8 (T.qb / 2 ^ (8 * ((a - d) % 8))) else s.devByte a) ∧
          (∀ m : Leaf, let o := m.pbase + (T.srcAt - m.vbase)
            copies = true → fits m T.srcAt o → m.r = true → (o + n.toNat ≤ d ∨ d + n.toNat ≤ o) → ∃ v, exec (.taskComplete id) s = .next v ∧
            v.tasks.find id = some { T with state := .complete, cause := none, daddr := 0 } ∧
            ∀ a, v.devByte a = if d ≤ a ∧ a < d + n.toNat then s.devByte (o + (a - d)) else s.devByte a))) ∧
      (∀ sc a b us, T.instr = .waits sc a b us → T.met = false → us ≠ 0 → T.since + us.toNat * usec ≤ s.now →
        exec (.waitsTimeout id) s = .next (s.updTask id fun _ => { T with state := .complete, cause := some 0x0F, daddr := 0 })) ∧
      (∀ G, T.grid = some G → G.lost = false → G.retired = G.blocks → s.gridQuiet id G = true → ∃ v T', exec (.gridComplete id) s = .next v ∧
        v.tasks.find id = some T' ∧ T'.state = .complete ∧ T'.instr = T.instr ∧ v.taskBlocks id = [] ∧
        T'.cause = (if G.storeErr.isSome then some 0x07 else if G.failed then some 0x26 else none) ∧
        T'.daddr = G.storeErr.getD 0) ∧
      (∀ G q, T.instr = .launch q → T.grid = some G → G.lost = true →
        (s.taskBlocks id ≠ [] → ∃ v, exec (.gridComplete id) s = .next v ∧ v.taskBlocks id = [] ∧
          v.tasks.find id = some { T with grid := some { G with killed := G.killed ++ s.taskBlocks id } }) ∧
        (s.taskBlocks id = [] → s.gridQuiet id G = true → ∃ v, exec (.gridComplete id) s = .next v ∧
          v.tasks.find id = some { T with state := .complete, cause := some 0x27, daddr := 0 })))

/-- Tasks retire in order; then the buffers that the task gives up return to their free lists, and MARK, HOSTINT and SIGNAL
act, the last two once what older work of the partition had sent has been performed; an instruction that waited at its stream's front end passes once it may (R59, R63, R69 to R72, R86, R87, R90, R91, R328,
R401). Its model choices: log entries 27 and 33. -/
def Obligations.TasksRetire : Prop :=
  ∀ s : State, s.Unfocused →
    (∀ part k id T rest P x, s.parts.find part = some P → s.streams.find (part * 16 + k) = some x → part ≠ nobody →
      part * 16 + k ≠ nobody → T.part = part → T.stream = k → s.streamTasks part k = (id, T) :: rest → T.state = .complete → T.cause = none →
      (T.comesAfter = true → s.orphansOut part = true → exec (.taskRetire part k) s = .next s) ∧
      ((∀ sc add a b, T.instr ≠ .signal sc add a b) → T.comesAfter = false ∨ s.orphansOut part = false → ∃ v P', exec (.taskRetire part k) s = .next v ∧ v.parts.find part = some P' ∧
        v.tasks.find id = none ∧ v.mem = s.mem ∧
        (∀ c, c < P.free.length → P'.free.getD c [] =
          P.free.getD c [] ++ T.give.filterMap fun b => if b.cls = some c then some b.base else none) ∧
        (∀ qa, T.instr = .mark qa → ∃ y, v.streams.find (part * 16 + k) = some y ∧ y.mark = BitVec.ofNat 64 T.qa ∧ y.ctx = x.ctx) ∧
        (∀ vec, T.instr = .hostint vec → (s.links[P.link]?).getD false = true →
          (∀ e, P.msix.find vec.toNat = some e → e.mask = false → v.sent = s.sent ++ [(P.link, part, e.addr, e.data)]) ∧
          (∀ e, P.msix.find vec.toNat = some e → e.mask = true → P'.msix.find vec.toNat = some { e with pend := true } ∧ v.sent = s.sent))) ∧
      (∀ sc add a b pa, T.instr = .signal sc add a b → s.orphansOut part = false → T.give = [] → s.migs = [] → s.reach part T.qa 8 add true = .ok (.dev pa) →
        s.homeUp (.dev pa) = true → s.eccLost pa 8 = false →
        let new := if add then ofBytes (s.devBytes pa 8) + T.qb else T.qb
        ∃ v, exec (.taskRetire part k) s = .next v ∧ v.tasks.find id = none ∧
          ∀ a, v.devByte a = if pa ≤ a ∧ a < pa + 8 then BitVec.ofNat 8 (new / 2 ^ (8 * (a - pa))) else s.devByte a)) ∧
    (∀ part k t n i, s.focusStream part k = some t → t.cst.accessWaits = true → t.inWindow part k = 0 → t.cst.copyHere = some (.word n) →
      decodeS n = .ok i → ∃ u, exec i t = .next u ∧ exec (.frontEndAccess part k) s = .next u.commit) ∧
    (∀ part k ks t n i T, s.waiters part (((s.part part).map Part.turn).getD 15) = k :: ks → s.focusStream part k = some t →
      t.cst.copyHere = some (.word n) → decodeS n = .ok i → t.plainTask i = some T →
      ∃ u, exec i t = .next u ∧ Decoded t u T t.cst.ctx.map t.cp.free ∧ exec (.decodeAfterWait part) s = .next u.commit) ∧
    (∀ part k ks t n i u, s.waiters part (((s.part part).map Part.turn).getD 15) = k :: ks → s.focusStream part k = some t →
      t.cst.copyHere = some (.word n) → decodeS n = .ok i → exec i t = .next u → u.cst.waiting = false →
      exec (.decodeAfterWait part) s = .next u.commit)

/-! ## Steps of the distributors and cores -/

/-- A distributor places the next unit of its first candidate on the chosen cores: its block starts with its groups, all lanes
at ENTRY and no register allocated; a gang launch starts whole; granules are stolen from the richest die; a core whose groups
all wait rescues its oldest; a block whose groups have exited retires (R106, R107, R110 to R119, R133, R141, R154, R387). Its
model choices: log entries 6, 24, 39 and 46. -/
def Obligations.BlocksComeAndGo : Prop :=
  ∀ s : State, s.Unfocused →
    (∀ part die c ahead, s.dispatch (s.physOf part die) die [] (s.candidates part die) = some (c, ahead) →
      s.gangAhead part [die] c.t.prio c.grid.order = false → c.grid.hdr.cluster = 0 → ∃ v B, exec (.blockPlace part die) s = .next v ∧
        v.blocks.find s.nextId = some B ∧ B.core = c.cores.getD 0 0 ∧ B.index = c.unit ∧ B.task = c.task ∧ B.hdr = c.grid.hdr ∧
        B.ldie = die ∧ B.groups = tab c.grid.hdr.groups (fun i => s.nextId + 1 + i) ∧ B.retired = false ∧ B.saved = false ∧
        B.pad = [] ∧ B.old = (s.core B.core).left ∧ B.bar = .empty ∧ B.undo = [] ∧ B.tags = [] ∧ B.prio = c.t.prio ∧ B.det = c.grid.det ∧ B.gdx = c.grid.gdx ∧ B.gdy = c.grid.gdy ∧ B.gdz = c.grid.gdz ∧
        (∀ i, i < c.grid.hdr.groups → ∃ G, v.groups.find (s.nextId + 1 + i) = some G ∧ G.blk = s.nextId ∧ G.num = i ∧
          G.width = c.grid.hdr.width ∧ G.done = false ∧ G.aset = [] ∧ G.phys = [] ∧
          (∀ l, l < G.width → G.pcs.getD l none = some (BitVec.ofNat 32 c.grid.hdr.entry)) ∧ ∀ r, G.mapOf r = none) ∧
        (∀ j, j < s.nextId → v.blocks.find j = s.blocks.find j ∧ v.groups.find j = s.groups.find j) ∧ v.mem = s.mem) ∧
    (∀ part die c ahead, s.dispatch (s.physOf part die) die [] (s.candidates part die) = some (c, ahead) →
      s.gangAhead part [die] c.t.prio c.grid.order = false → c.grid.hdr.cluster ≠ 0 → ∃ v K, exec (.blockPlace part die) s = .next v ∧
        v.gangs.find s.nextId = some K ∧ K.task = c.task ∧ K.gen = 0 ∧ K.uset = [] ∧ K.gone = [] ∧
        K.members = tab c.cores.length (fun i => s.nextId + 1 + i * (1 + c.grid.hdr.groups)) ∧
        (∀ i core, c.cores[i]? = some core → ∃ B, v.blocks.find (s.nextId + 1 + i * (1 + c.grid.hdr.groups)) = some B ∧
          B.core = core ∧ B.index = c.unit * c.grid.hdr.cluster + i ∧ B.member = i ∧ B.gang = s.nextId ∧ B.task = c.task ∧
          B.ldie = die ∧ B.hdr = c.grid.hdr ∧ B.retired = false) ∧ v.mem = s.mem) ∧
    (∀ task T G plan, s.tasks.find task = some T → s.gangPlan T = some (G, plan) → s.gangAhead T.part (plan.map fun x => x.2.1) T.prio G.order = false →
      (plan.all fun x => !s.blockAhead T.part x.2.1 T.prio G.order) = true →
      ∃ v G1, exec (.gangLaunchAdmit task) s = .next v ∧ v.tasks.find task = some { T with grid := some G1 } ∧ G1.admitted = true ∧
        (∀ x, x ∈ G1.gran → x.left = 0 ∧ x.begun = true) ∧ s.nextId ≤ v.nextId ∧
        (G.hdr.cluster = 0 → ∀ u d cs, (u, d, cs) ∈ plan → ∃ k B, s.nextId ≤ k ∧ v.blocks.find k = some B ∧ B.task = task ∧
          B.index = u ∧ B.ldie = d ∧ B.core = cs.getD 0 0 ∧ B.hdr = G.hdr ∧ B.retired = false) ∧
        ∀ j, j < s.nextId → v.blocks.find j = s.blocks.find j ∧ v.groups.find j = s.groups.find j) ∧
    (∀ task T P G thief d nones, s.tasks.find task = some T → s.part T.part = some P → T.grid = some G → T.state = .issued →
      G.det = false → G.gangL = false → G.lost = false →
      (G.hdr.cluster = 0 ∨ s.gangCap T.part (P.physDie thief) G.hdr.cluster ≠ 0) →
      (((G.steals.find? fun x => x.1 == thief).map Prod.snd).getD (none, [])) = (none, nones) →
      (∀ x, x ∈ G.gran → x.die = thief → x.left = 0) → (s.chooseCores s.room T.part (P.physDie thief) T.prio false G.hdr).isSome = true →
      G.richest ((List.range P.dies.length).filter fun e => e != thief && !nones.contains e && !(s.die (P.physDie e)).leaving) = some d → s.dieSilent T.part d = false →
      ∃ v G1, exec (.stealRequest task thief) s = .next v ∧ v = { s with tasks := v.tasks } ∧
        v.tasks.find task = some { T with grid := some G1 } ∧ G1.steals = (G.steals.filter fun x => x.1 != thief) ++ [(thief, some d, nones)] ∧
        (G.unstarted d = [] → G1.gran = G.gran) ∧
        (G.unstarted d ≠ [] → ∃ (i : Nat) (x : Granule), G.gran[i]? = some x ∧ x.die = d ∧ x.begun = false ∧ x.away = false ∧
          G1.gran[i]? = some { x with die := thief, away := true } ∧ ∀ j : Nat, j ≠ i → G1.gran[j]? = G.gran[j]?)) ∧
    (∀ task T G thief d nones, s.tasks.find task = some T → T.grid = some G →
      G.steals.find? (fun x => x.1 == thief) = some (thief, some d, nones) →
      ∃ v G1, exec (.stealAnswer task thief) s = .next v ∧ v = { s with tasks := v.tasks } ∧
        v.tasks.find task = some { T with grid := some G1 } ∧
        (∀ i : Nat, G1.gran[i]? = (G.gran[i]?).map fun x => if x.die = thief then { x with away := false } else x) ∧
        G1.steals = (G.steals.filter fun x => x.1 != thief) ++
          if G.gran.any (fun x => x.die == thief && x.away) then [] else [(thief, none, nones ++ [d])]) ∧
    (∀ die core g G B, s.groups.find g = some G → g ≠ nobody → s.blocks.find G.blk = some B → B.core = die * 64 + core → B.saved = false →
      B.retired = false → G.done = false → G.park = some .pool → (∀ h H b, (h, H) ∈ s.groups → s.blocks.find H.blk = some b →
        b.core = die * 64 + core → b.saved = false → b.retired = false → H.done = false → h = g ∧ H = G) → G.rescued = false →
      ∃ v, exec (.coreRescue die core) s = .next v ∧ v = { s with groups := v.groups } ∧
        v.groups.find g = some { G with rescued := true, base := G.phys.length, park := none } ∧ ∀ h, h ≠ g → v.groups.find h = s.groups.find h) ∧
    (∀ b B T G, s.blocks.find b = some B → b ≠ nobody → B.retired = false → B.saved = false → B.hdr.cluster = 0 → B.claims = [] →
      s.gangs.find B.gang = none →
      (∀ g, g ∈ B.groups → ∃ H, s.groups.find g = some H ∧ H.done = true) → s.tasks.find B.task = some T → T.grid = some G →
      ∃ v B', exec (.blockRetire b) s = .next v ∧ v.blocks.find b = some B' ∧ B'.retired = true ∧ B'.undo = [] ∧ B'.tags = [] ∧ B'.bar = .empty ∧
        (∀ h, h ∈ B'.shapes → h = ⟨none, [], false⟩) ∧ v.tasks.find B.task = some { T with grid := some { G with retired := G.retired + 1 } } ∧
        (∀ c k l x, v.clusters.find c = some k → k.banks.find l = some x → ∀ y, y ∈ x → y.owner ≠ b) ∧ v.mem = s.mem)

/-! ## Steps of homes and the fabric -/

/-- A home serves a request of a line that no earlier request of its core, and no migration, holds back: a load returns the
bytes of the line; a store without a set changes exactly its bytes, or enters the core's combining buffer; one with a set
leaves memory and makes a version that the group's reads see, or waits as a third one; a write past a bound waits or fails, and denies a watch on its own cell all the same;
an atomic writes its function of the old value and returns the old; a word that has failed for good fails the read and stays
as it is (R223, R228, R235, R236, R317, R337, R338, R340, R345). Its model choices: log entries 2, 13, 43, 45 and 52. -/
def Obligations.HomesServe : Prop :=
  ∀ (s : State) (id : Nat) (q : Req), s.reqs.find id = some q → s.mayServe id q = true → s.migOf q.loc = none →
    s.homeUp q.loc = true →
    (∀ pa, q.loc = .dev pa → s.eccHits pa q.n = [] →
      (q.kind = .load → ∃ v, exec (.homeLoad id) s = .next v ∧ v = { s with reqs := v.reqs, free := v.free } ∧
        v.reqs.find id = some { q with status := .done, res := (s.readNewest pa q.n).1, rset := (s.readNewest pa q.n).2,
                                          saw := s.placeOf q.loc q.n } ∧
        (∀ k, k ≠ id → v.reqs.find k = s.reqs.find k)) ∧
      (∀ data, q.kind = .store data → data.length = q.n → q.set = [] → s.entersBuffer id q = false →
        ∃ v, exec (.homeWrite id) s = .next v ∧
        (∀ a, v.devByte a = if pa ≤ a then ((data[a - pa]?).getD none).getD (s.devByte a) else s.devByte a) ∧
        (∃ q', v.reqs.find id = some q' ∧ q'.status = .done) ∧ KeptOthers { s with reqs := s.reqs.del id } v ∧
        v = { s with mem := v.mem, wrote := v.wrote, vers := v.vers, wclock := s.wclock + 1, reqs := v.reqs, resol := v.resol,
                     aids := v.aids, freeSlots := v.freeSlots, tasks := v.tasks, free := v.free, ecc := v.ecc, corrected := v.corrected,
                     parts := v.parts, cp := v.cp }) ∧
      (∀ data, q.kind = .store data → q.set = [] → s.entersBuffer id q = true → id < s.nextId →
        ∃ v, exec (.homeWrite id) s = .next v ∧ v.reqs.find id = some { q with status := .done } ∧ v.mem = s.mem ∧
        ((∃ e o, e ∈ (v.core q.core).wcb ∧ e.line = lineOf pa ∧ o ∈ e.owners ∧ o.grp = q.grp ∧ o.seq = q.seq ∧ q.lane ∈ o.lanes) ∨
          ∃ k x o, s.nextId ≤ k ∧ v.reqs.find k = some x ∧ x.loc = .dev (lineOf pa * 128) ∧ o ∈ x.owners ∧ o.grp = q.grp ∧
            o.seq = q.seq ∧ q.lane ∈ o.lanes)) ∧
      (∀ data, q.kind = .store data → data.length = q.n → q.set ≠ [] → pa % 128 + q.n ≤ 128 →
        (∀ x, x ∈ s.versions (lineOf pa) → x.bytes.length = 128) →
        let u := union q.set (s.readNewest pa q.n).2
        let same := ((s.newest (lineOf pa)).map fun x => sameSet x.set u) = some true
        s.overBound q = none → u.length ≤ 4 →
        (same ∨ (s.versions (lineOf pa)).length < 2 → ∃ v, exec (.homeWrite id) s = .next v ∧ v.mem = s.mem ∧
          (∀ a, lineOf a = lineOf pa → v.readNewest a 1 = ([
            let old := ((s.readNewest a 1).1).getD 0 0
            if pa ≤ a then ((data[a - pa]?).getD none).getD old else old], u)) ∧
          ∀ a, lineOf a ≠ lineOf pa → v.readNewest a 1 = s.readNewest a 1) ∧
        (¬ same → 2 ≤ (s.versions (lineOf pa)).length → ∃ v, exec (.homeWrite id) s = .next v ∧ v.mem = s.mem ∧ v.vers = s.vers ∧
          v.reqs.find id = some { q with status := .held })) ∧
      (∀ op y e, q.kind = .atomic op y e → q.set = [] → s.versions (lineOf pa) = [] →
        let old := s.devBytes pa q.n
        ∃ v q', exec (.homeAtomic id) s = .next v ∧ v.reqs.find id = some q' ∧ q'.status = .done ∧ q'.res = old ∧
          ∀ a, v.devByte a = if pa ≤ a ∧ a < pa + q.n then
            BitVec.ofNat 8 (atomicFn op (ofBytes old) y e / 2 ^ (8 * (a - pa))) else s.devByte a)) ∧
    (∀ pa, q.loc = .dev pa →
      (q.kind = .load → s.eccLost pa q.n = true →
        exec (.homeLoad id) s = .next { s with reqs := s.reqs.ins id { q with status := .failed 0x07 } }) ∧
      ∀ data, q.kind = .store data → data.length = q.n → q.set = [] → s.entersBuffer id q = false →
        (∃ w, (w, Ecc.lasting) ∈ s.rmwHits pa data) → ∃ v q', exec (.homeWrite id) s = .next v ∧ v.reqs.find id = some q' ∧
          q'.status = .failed 0x07 ∧
          ∀ a, v.devByte a = if pa ≤ a ∧ (a / 32, Ecc.lasting) ∉ s.rmwHits pa data then
            ((data[a - pa]?).getD none).getD (s.devByte a) else s.devByte a) ∧
    (∀ l ba, q.loc = .host l ba →
      (q.kind = .load → ∃ v, exec (.homeLoad id) s = .next v ∧ v = { s with reqs := v.reqs, free := v.free } ∧
        v.reqs.find id = some { q with status := .done, res := s.hostBytes l ba q.n, rset := [], saw := s.placeOf q.loc q.n }) ∧
      ∀ data, q.kind = .store data → ∃ v, exec (.homeWrite id) s = .next v ∧ v.mem = s.mem ∧
        v.reqs.find id = some { q with status := .done } ∧
        ∀ i, v.hostByte l (ba + i) = ((data[i]?).getD none).getD (s.hostByte l (ba + i))) ∧
    (∀ data c, q.kind = .store data → s.overBound q = some c → exec (.homeWrite id) s = .next { s with
      resol := (match q.loc with
        | .dev pa => (s.selfCell pa q.n (union q.set (s.meetsSet q))).resol
        | _ => s.resol)
      reqs := s.reqs.ins id { q with status := if ((s.block q.blk).map fun b => b.hdr.astrict) = some true then .failed c else .held } })

/-- Responses and markers: an acknowledgement ends its request, and with the last of its word the word's hold; a failed read or
store leaves its group a deferred MEM_ERROR and ends its switch-marker park; a moved page answers with its new place; a flush
marker is gathered; an entry of the combining buffer drains 2 µs after it opened; a walk's leaves are kept and its word issues
again; a load's data reaches the lanes that asked (R143, R146, R213, R217, R228, R232, R233, R237). Its model choices: log
entries 15, 22 (a flush marker), 44 and 45. -/
def Obligations.ResponsesArrive : Prop :=
  ∀ s : State, s.Unfocused →
    (∀ id q, s.reqs.find id = some q → q.status = .done → q.kind.isShape = false →
      (∀ G, s.groups.find q.grp = some G → ∀ f, f ∈ G.out → f.seq ≠ q.seq) →
      exec (.storeAck id) s = .next { s with reqs := s.reqs.del id }) ∧
    (∀ id q t f, s.reqs.find id = some q → q.status = .done → q.kind.isShape = false → s.focus q.grp = some t → q.grp ≠ nobody →
      t.cb.saved = false → t.cg.out = [f] → f.seq = q.seq → f.dest = .none → f.waits = .load → f.drop = false →
      (∀ k x, (k, x) ∈ t.wordReqs q.grp q.seq → x.status = .done ∧ x.rset = []) → ∃ v G, exec (.storeAck id) s = .next v ∧
        v.groups.find q.grp = some G ∧ G.out = [] ∧ (∀ k x, (k, x) ∈ t.wordReqs q.grp q.seq → v.reqs.find k = none) ∧ v.mem = s.mem) ∧
    (∀ id q, s.reqs.find id = some q → 0 < q.marks →
      exec (.flushMarker id) s = .next { s with reqs := s.reqs.ins id { q with marks := q.marks - 1 } }) ∧
    (∀ id q m, s.reqs.find id = some q → q.core ≠ nobody → q.status = .moved → s.leftPage q.loc = some m →
      (∀ k e, (k, e) ∈ s.reqs → k < id → e.core = q.core → e.status.over_ = false → m.oldHas e.loc = false) →
      ∃ v, exec (.movedResponse id) s = .next v ∧
        v = { s with reqs := v.reqs, cores := v.cores, ptes := v.ptes, nextId := v.nextId } ∧
        v.reqs.find id = some { q with status := .sent, loc := s.movedLoc q.loc } ∧
        (∀ pa, q.loc = .dev pa → s.migs = [m] → s.movedLoc q.loc = .dev (m.new + (pa - m.old))) ∧
        (∀ l, l ∈ (v.core q.core).tlb → l.host = true ∨ m.old + m.size ≤ l.pbase ∨ l.pbase + l.size ≤ m.old) ∧
        (∀ e, e ∈ (v.core q.core).wcb → m.oldHas (.dev (e.line * 128)) = false) ∧
        (∀ p, p ∈ v.ptes → p.part = m.part → p.leaf = true → m.va < p.va ∨ p.va + p.size ≤ m.va)) ∧
    (∀ die core c e, s.cores.find (die * 64 + core) = some c → e ∈ c.wcb → (∀ x, x ∈ c.wcb → x.line = e.line → x = e) →
      e.opened + 2 * usec ≤ s.now → die * 64 + core ≠ nobody →
      ∃ v k q, exec (.wcbDrainTimeout die core e.line) s = .next v ∧
        v.cores.find (die * 64 + core) = some { c with wcb := c.wcb.filter fun x => x.line != e.line } ∧
        s.nextId ≤ k ∧ v.reqs.find k = some q ∧ q.kind = .store e.bytes ∧ q.loc = .dev (e.line * 128) ∧ q.owners = e.owners) ∧
    (∀ id q g G B P, s.reqs.find id = some q → q.status = .failed 0x07 → q.grp = g → s.groups.find g = some G → g ≠ nobody →
      s.blocks.find G.blk = some B → s.parts.find G.part = some P → B.saved = false → q.owners = [] →
      (∀ k r, (k, r) ∈ s.reqs → r.grp = g → (k, r) = (id, q)) →
      (∀ f, q.kind = .load → G.out = [f] → f.seq = q.seq → f.drop = false →
        ∃ v G' t, exec (.errorResponse id) s = .next v ∧ v.groups.find g = some G' ∧ G'.pend = G.pend ++ [t] ∧ t.cause = 0x07 ∧
          t.addr = q.va ∧
          t.lanes = (match f.dest with
            | .s _ => 0
            | _ => if f.lanes = [] then 0 else 2 ^ q.lane) ∧ t.pc = q.pc ∧ G'.out = [] ∧ G'.mark = false) ∧
      (∀ data, q.kind = .store data → G.out = [] → G.done = false →
        ∃ v G' t, exec (.errorResponse id) s = .next v ∧ v.groups.find g = some G' ∧ G'.pend = G.pend ++ [t] ∧ t.cause = 0x07 ∧
          t.addr = q.va ∧ t.lanes = 2 ^ q.lane ∧ t.pc = q.pc ∧ G'.mark = false ∧ v.reqs.find id = none)) ∧
    (∀ g t ps, s.focus g = some t → g ≠ nobody → t.ccId ≠ nobody → t.cb.saved = false → t.cg.park = some (.tlb ps) →
      ∃ v G c, exec (.tlbWalkComplete g) s = .next v ∧ v.groups.find g = some G ∧
        G = { t.cg with walked := ps.map (fun p => (p, t.walk t.cpId (p * 2 ^ 16))), park := none } ∧ v.cores.find t.ccId = some c ∧
        ∀ p l, p ∈ ps → t.walk t.cpId (p * 2 ^ 16) = .leaf l → l ∈ c.tlb) ∧
    (∀ g t f r p ty old, s.focus g = some t → g ≠ nobody → t.cb.saved = false → t.shapeReq g f.seq = none → t.cg.out = [f] →
      f.waits = .load → f.dest = .v [r] [p] ty → f.drop = false → f.bank = false → f.spoiled = [] → t.cg.mapOf r = some p →
      t.cg.phys.find p = some old → (∀ k q, (k, q) ∈ t.wordReqs g f.seq → q.status = .done ∧ q.rset = []) →
      ∃ v G new, exec (.loadReturn g f.seq) s = .next v ∧ v.groups.find g = some G ∧ G.out = [] ∧ G.phys.find p = some new ∧
        (∀ l k q, l < t.cg.width → l ∈ f.lanes → (t.wordReqs g f.seq).find? (fun x => x.2.lane == l) = some (k, q) →
          new.getD l 0 = wordOf 0 (memExtend ty q.res)) ∧
        (∀ l, l < t.cg.width → l ∉ f.lanes → new.getD l 0 = old.getD l 0) ∧ v.mem = s.mem)

/-! ## Migration and invalidation -/

/-- TLBINV and MIGCMD: a write keeps its fields and its GO bit; an invalidation ends with no translation of its range kept, by a
core or a walker; a migration is refused, or asked of the leader, holds its page in its final phase, switches with every byte
in the new place and the page's entry naming it, and ends once nothing of the old page is on its way (R211, R212, R216, R217,
R393, R398). Its model choices: log entries 15, 41 and 52. -/
def Obligations.PagesMove : Prop :=
  (∀ (s : State) (part : Nat) (P : Part), s.Unfocused → s.parts.find part = some P → part ≠ nobody →
    (s.hostReach part = true → P.tlbinv.getLsbD 0 = false →
      let asked (v : State) (w : Nat) : Prop := ∃ P', v.parts.find part = some P' ∧
        P' = { P with tlbinv := BitVec.ofNat 64 w, invAt := v.nextId } ∧ v.mem = s.mem ∧ v.groups = s.groups
      (∀ va, ∃ v, exec (.tlbinvPage part va) s = .next v ∧ asked v (va / 2 ^ 16 % 2 ^ 41 * 2 ^ 16 + 1)) ∧
      (∀ va, ∃ v, exec (.tlbinvRegion part va) s = .next v ∧ asked v (va / 2 ^ 16 % 2 ^ 41 * 2 ^ 16 + 5)) ∧
      ∃ v, exec (.tlbinvPartition part) s = .next v ∧ asked v 9) ∧
    (P.tlbinv.getLsbD 0 = true → s.olderOut part P.invAt (invRange P.tlbinv.toNat) = false →
      ∃ v, exec (.tlbinvComplete part) s = .next v ∧ v.parts.find part = some { P with tlbinv := P.tlbinv - 1 } ∧
        (∀ k c l, v.cores.find k = some c → l ∈ c.tlb → l.part = part → ∀ va, l.vbase ≤ va → va < l.vbase + l.size →
          inRange (invRange P.tlbinv.toNat) va = false) ∧
        (∀ p, p ∈ v.ptes → p.part = part → p.leaf = true ∧ ∀ va, p.va ≤ va → va < p.va + p.size →
          inRange (invRange P.tlbinv.toNat) va = false) ∧
        (∀ g G, v.groups.find g = some G → G.part = part → G.walked = []) ∧ v.mem = s.mem ∧ v.reqs = s.reqs) ∧
    (∀ v : BitVec 64, s.hostReach part = true → P.migcmd.getLsbD 0 = true → exec (.migcmdGo part v) s = .next s) ∧
    (∀ v : BitVec 64, s.hostReach part = true → P.migcmd.getLsbD 0 = false → v.getLsbD 0 = false → exec (.migcmdGo part v) s = .next
      { s with parts := s.parts.ins part { P with migcmd := (v &&& 0x01FF_FFFF_FFFF_000E#64) ||| (P.migcmd &&& 0x8000#64) } }) ∧
    (∀ v : BitVec 64, s.hostReach part = true → P.migcmd.getLsbD 0 = false → v.getLsbD 0 = true →
      let Q : Part := { P with migcmd := BitVec.ofNat 64 (bits v.toNat 56 16 * 2 ^ 16 + bits v.toNat 3 1 * 2 + 1) }
      (({ s with parts := s.parts.ins part Q } : State).migLeaf part Q = none → ∃ t Q', exec (.migcmdGo part v) s = .next t ∧
        t.parts.find part = some Q' ∧ Q'.migcmd.getLsbD 0 = false ∧ Q'.migcmd.getLsbD 15 = true ∧ t.fw = s.fw ∧ t.migs = s.migs) ∧
      (∀ l, ({ s with parts := s.parts.ins part Q } : State).migLeaf part Q = some l → Q.migHome l s.const.pkg = true →
        ∃ t Q', exec (.migcmdGo part v) s = .next t ∧ t.parts.find part = some Q' ∧ Q'.migcmd.getLsbD 0 = false ∧
          Q'.migcmd.getLsbD 15 = false ∧ t.fw = s.fw ∧ t.migs = s.migs ∧ t.mem = s.mem) ∧
      (∀ l, ({ s with parts := s.parts.ins part Q } : State).migLeaf part Q = some l → Q.migHome l s.const.pkg = false →
        exec (.migcmdGo part v) s = .next
          { s with parts := s.parts.ins part Q, fw := { s.fw with held := s.fw.held ++ [.migrate part] } }))) ∧
  (∀ (s : State) (part : Nat) (m : Migration) (xs ys : List Migration), s.migs = xs ++ m :: ys → m.part = part →
    (∀ x, x ∈ xs ++ ys → x.part ≠ part ∨ x.switched = true) → m.switched = false →
    (∃ v, exec (.migrationFinal part) s = .next v ∧ v = { s with migs := xs ++ { m with final := true } :: ys } ∧
      ∀ id q pa, xs ++ ys = [] → s.reqs.find id = some q → q.loc = .dev pa → m.old ≤ pa → pa < m.old + m.size →
        exec (.homeLoad id) v = .next v ∧ exec (.homeWrite id) v = .next v ∧ exec (.homeAtomic id) v = .next v) ∧
    (m.final = true → ∃ v, exec (.migrationSwitch part) s = .next v ∧ v.migs = xs ++ { m with switched := true } :: ys ∧
      v.cores = s.cores ∧ v.groups = s.groups ∧
      (∀ P, s.cpId ≠ part → s.parts.find part = some P → ∃ P', v.parts.find part = some P' ∧ P'.migcmd.getLsbD 0 = false ∧
        P'.migcmd.getLsbD 15 = false) ∧
      (s.Canonical →
        let w := (s.pageReads part m).move (.page m.old m.new m.size) false
        let at_ (a : Nat) : Byte := if m.new ≤ a ∧ a < m.new + m.size then s.devByte (m.old + (a - m.new)) else s.devByte a
        (w.entryOf part m.va = none → ∀ a, v.devByte a = at_ a) ∧
        (∀ e, w.entryOf part m.va = some e → (∀ a, a < e ∨ e + 8 ≤ a → v.devByte a = at_ a) ∧
          let old := ofBytes (tab 8 fun i => at_ (e + i))
          ofBytes (v.devBytes e 8) = (bits old 63 52 * 2 ^ 52 + m.new + bits old 7 0) % 2 ^ 64)))) ∧
  (∀ (s : State) (part : Nat) (m : Migration), s.migs.find? (fun x => x.part == part && x.switched) = some m →
    ((∀ k e, e ∈ (s.core k).wcb → m.oldHas (.dev (e.line * 128)) = false) →
      (∀ k q, (k, q) ∈ s.reqs → q.outstanding = true → m.oldHas q.loc = false) →
      ∃ v, exec (.migrationDone part) s = .next v ∧ v.migs = s.migs.filter (fun x => x != m) ∧ v.mem = s.mem ∧ v.reqs = s.reqs ∧
        (∀ k c l, v.cores.find k = some c → l ∈ c.tlb → l.part = part → l.vbase + l.size ≤ m.va ∨ m.va + m.size ≤ l.vbase) ∧
        ∀ p, p ∈ v.ptes → p.part = part → p.leaf = true ∧ (m.va + m.size ≤ p.va ∨ p.va + p.size ≤ m.va)) ∧
    (∀ k c e, s.ccId ≠ k → s.cores = [(k, c)] → c.wcb = [e] → m.oldHas (.dev (e.line * 128)) = true → ∃ v j q,
      exec (.migrationDone part) s = .next v ∧ v.migs = s.migs ∧ v.mem = s.mem ∧ s.nextId ≤ j ∧ v.reqs.find j = some q ∧
        q.kind = .store e.bytes ∧ q.loc = .dev (e.line * 128)))

/-! ## Engines -/

/-- COPY's units, the matrix engine's latches and passes: a copy begins in a free slot, each unit writes its bytes of the
destination and no others, and its status word arrives; a head is granted by its place, its bank compared and its undo entries
reserved; MXLW latches its tile's codes and scales, or a bank that is not valid; a pass writes every accumulator's new value and
nothing else, or reports what its bank's comparison found (R246 to R253, R255 to R260, R265). Its model choices: log entries 2,
13 and 25. -/
def Obligations.EnginesWork : Prop :=
  ∀ s : State, s.Unfocused →
    (∀ b B id c G, s.blocks.find b = some B → b ≠ nobody → s.copies = [(id, c)] → c.blk = b → c.begun = false → 1 ≤ B.hdr.copies →
      s.groups.find c.grp = some G → c.grp ≠ nobody → G.park = some (.copySlot id) → ∃ v, exec (.copyBegin b) s = .next v ∧
        v.copies.find id = some { c with begun := true } ∧ v.groups.find c.grp = some { G with park := none }) ∧
    (∀ id c b B unit r k n g, s.copies.find id = some c → c.begun = true → c.wait = [] → c.err = none → unit ∈ c.left → c.blk = b →
      s.blocks.find b = some B → b ≠ nobody → c.mask = none → c.arr = none → (Img.of c.dst).units[unit]? = some (r, k, n) →
      let dst := Img.of c.dst
      let src := Img.of c.src
      let rd := s.reader c.grp b id c.ord false
      let at_ := dst.base + dst.rowOff (dst.coords r) + k
      let reads := union (union c.set g.set) (s.copyReads B rd c dst src)
      Eng.all (fun i => s.copyByte B rd c dst src r (k + i)) n = .ok g →
      (dst.space = 1 → (union reads (B.tag (at_ / 128))).length ≤ 4 → s.noUndoFor b [at_ / 128] (union reads (B.tag (at_ / 128))) = false →
        ∃ v B', exec (.copyUnitWrite id unit) s = .next v ∧ v.blocks.find b = some B' ∧
        v.copies.find id = some { c with set := union reads (B.tag (at_ / 128)), left := c.left.filter fun x => x != unit } ∧ v.mem = s.mem ∧
        (∀ i, i < n → overlaps dst src (at_ + i) = false → B'.padByte (at_ + i) = BitVec.ofNat 8 (g.val.getD i 0)) ∧
        ∀ a, a < at_ ∨ at_ + n ≤ a → B'.padByte a = B.padByte a) ∧
      (∀ pa, let u := s.engineMeets c.part (s.opPlace c.grp c.seq).1 (s.opPlace c.grp c.seq).2 g.seen
        dst.space = 0 → reads = [] → u.reach c.part at_ n false true = .ok (.dev pa) → u.heldPage (.dev pa) = false →
        u.homeUp (.dev pa) = true → u.eccHits pa n = [] → ∃ v, exec (.copyUnitWrite id unit) s = .next v ∧
        v.copies.find id = some { c with set := [], left := c.left.filter fun x => x != unit } ∧
        (∀ i, i < n → overlaps dst src (at_ + i) = false → v.devByte (pa + i) = BitVec.ofNat 8 (g.val.getD i 0)) ∧
        ∀ a, a < pa ∨ pa + n ≤ a → v.devByte a = s.devByte a)) ∧
    (∀ id c t f z, s.copies.find id = some c → c.begun = true → c.wait = [] → c.left = [] ∨ c.err.isSome = true → c.grp ≠ nobody →
      s.focus c.grp = some t → subset c.set t.cg.aset = true → t.cg.out = [f] → f.waits = .copy id → f.drop = false → f.bank = false →
      f.spoiled = [] → f.dest = .s [z] → z < 32 → ∃ v G, exec (.copyComplete id) s = .next v ∧ v.groups.find c.grp = some G ∧ G.out = [] ∧
        G.ops = t.cg.ops ++ [id] ∧ v.copies.find id = none ∧ G.s[z]? = some (BitVec.ofNat 32 (1 + 2 * b2n c.err.isSome + 4 * b2n c.partial_ +
          8 * (c.err.getD (if c.partial_ then 0x09 else 0) % 32) + 256 * min (s.now - c.issued) 0xFF_FFFF))) ∧
    (∀ die cluster c e, s.clusters.find (die * 16 + cluster) = some c → s.fullHead c = none → c.pass = none →
      chooseHead (c.heads.filter (s.ready c)) = some e → let B := (s.block e.blk).getD .empty
      ∃ v c', exec (.mxrunGrant die cluster) s = .next v ∧ v = { s with clusters := v.clusters } ∧
        v.clusters.find (die * 16 + cluster) = some c' ∧ c'.banks = c.banks ∧ e.run = true ∧
        c'.pass = some { e with set := passSet c e B, room := passRoom c e B, verdict := c.verdict e,
                                 lines := if (c.verdict e).isSome then [] else passLines e } ∧
        c'.table.map (·.id) = c.table.map (·.id)) ∧
    (∀ die cluster pos c e t f, s.clusters.find (die * 16 + cluster) = some c → c.headOf pos = some e → e.run = false → e.wait = [] →
      s.focus e.grp = some t → e.grp ≠ nobody → t.cg.out = [f] → f.seq = e.seq → f.drop = false → f.dest = .none →
      let m := Img.of e.img1
      let set := union e.set (tagsOf t.cb (m.lines ++ m.scaleLines))
      let tile := Eng.all (fun i => t.tileAt t.cb (t.reader e.grp e.blk e.id e.ord false) m (i % m.dim 0) (i / m.dim 0)) (m.dim 0 * m.dim 1)
      set.length ≤ 4 → subset set t.cg.aset = true →
      ∃ v c' b, exec (.mxlwLatch die cluster pos) s = .next v ∧ v.clusters.find (die * 16 + cluster) = some c' ∧
        c'.bankAt pos = some b ∧ b.owner = e.blk ∧ b.fmt = m.fmt ∧ b.k = m.dim 0 ∧ b.n = m.dim 1 ∧ b.tag = set ∧
        (∀ g, tile = .ok g → b.bad = none ∧ b.codes = g.val.map (fun x => x.1) ∧
          b.scales = if m.scaled then some (g.val.map fun x => x.2.getD 0) else none) ∧
        (∀ cause va pa w, tile = .error (.bad cause va pa w) → b.bad = some cause) ∧
        (∀ x, x ∈ c'.table → x.id ≠ e.id) ∧ (∀ p, p ≠ pos → c'.bankAt p = c.bankAt p)) ∧
    (∀ die cluster c e t f z, s.clusters.find (die * 16 + cluster) = some c → c.pass = some e → s.focus e.grp = some t → e.grp ≠ nobody →
      t.cg.out = [f] → f.seq = e.seq → f.drop = false → f.bank = false → f.spoiled = [] → e.blk = t.cbId → e.blk ≠ nobody →
      f.dest = .s [z] → z < 32 →
      let ended (v : State) (B : Block) (cause : Nat) : Prop := ∃ c' G, exec (.mxrunPassEnd die cluster) s = .next v ∧
        v.clusters.find (die * 16 + cluster) = some c' ∧ c'.pass = none ∧ c'.banks = c.banks ∧ (∀ x, x ∈ c'.table → x.id ≠ e.id) ∧
        v.groups.find e.grp = some G ∧ G.out = [] ∧ G.ops = t.cg.ops ++ [e.id] ∧ G.s[z]? = some (BitVec.ofNat 32
          (1 + 2 * b2n (cause != 0) + 8 * (cause % 32) + 256 * min (s.now - e.issued) 0xFF_FFFF)) ∧
        v.blocks.find e.blk = some B ∧ v.mem = s.mem
      (∀ cause, e.verdict = some cause → cause ≠ 0 → subset e.set t.cg.aset = true →
        ∃ v B, ended v B cause ∧ ∀ a, B.padByte a = t.cb.padByte a) ∧
      (∀ b, e.verdict = none → c.bankAt e.pos = some b → subset e.set t.cg.aset = true →
        let d := Img.of e.img2
        let w := Fmt.bits d.fmt / 8
        e.n * w ≤ d.stride 1 → ∃ v B, ended v B 0 ∧
          (∀ i j k, i < e.m → j < e.n → k < w → B.padByte (d.base + j * w + i * d.stride 1 + k) = BitVec.ofNat 8
            (t.macElement t.cb (t.reader e.grp e.blk e.id e.ord true) e b j i / 2 ^ (8 * k))) ∧
          ∀ a, (∀ i j k, i < e.m → j < e.n → k < w → a ≠ d.base + j * w + i * d.stride 1 + k) → B.padByte a = t.cb.padByte a))

/-! ## Mirror and Prism -/

/-- Mirror's deliveries write a partition's ghosts: a ghost cell outside one face takes its value by the face's rule, an unset
one keeps what it holds; then the rings are tagged one by one; a GLD that stays stale past the grid's TIMEOUT traps (R270, R271,
R274, R276). Its model choices: log entry 44. -/
def Obligations.HalosArrive : Prop :=
  (∀ (s t : State) (key p step : Nat) (r : MirrorReg) (set : ASet), s.mirrors.find key = some r → r.due p = some (step, set) →
    set.length ≤ 4 → s.dieSilent r.part (r.desc.dieOf p) = false →
    s.ghostWrites r p set (!r.first p) ((List.range r.desc.ncomp).flatMap fun m => r.desc.ghosts.map fun i => (m, i)) = .ok (t, [], none) →
    r.desc.depth ≠ 0 → ∃ v r', exec (.haloDelivery key p) s = .next v ∧ v.mirrors.find key = some r' ∧ r'.tags = r.tags ∧
      r'.counter = r.counter ∧ (p, step) ∈ r'.done ∧
      r'.deliver = r.deliver ++ [(step, p, set, (List.range r.desc.depth).map (· + 1))] ∧ v.mem = t.mem) ∧
  (∀ (s : State) (key p step : Nat) (r : MirrorReg) (place : Nat → Nat → Nat), s.mirrors.find key = some r → r.due p = some (step, []) →
    s.dieSilent r.part (r.desc.dieOf p) = false → s.Plain r.part ((List.range r.desc.ncomp).flatMap fun m => r.desc.ghosts.map fun i => (r.desc.addr p m i, r.desc.b / 8, place m i)) →
    ∃ v, exec (.haloDelivery key p) s = .next v ∧ ∀ m i k, m < r.desc.ncomp → i ∈ r.desc.ghosts → k < r.desc.b / 8 →
      (∀ code, r.desc.source p i = .fixed code → v.devByte (place m i + k) = BitVec.ofNat 8 (code / 2 ^ (8 * k))) ∧
      (∀ q j c code, r.desc.source p i = .cell q j → r.capFor q p = some c → c.data.find (m * r.desc.cells + j) = some code →
        v.devByte (place m i + k) = BitVec.ofNat 8 (code / 2 ^ (8 * k))) ∧
      (r.desc.source p i = .unset → v.devByte (place m i + k) = s.devByte (place m i + k))) ∧
  (∀ (d : GridDesc) (p i k : Nat), k < 3 → (∀ j, j < 3 → 1 ≤ d.inner j ∧ d.inner j * d.pcOf j = d.dimOf j) →
    let at_ (p i j : Nat) : Int := (d.inner j * d.place p j : Nat) + d.local_ i j
    let n : Int := d.dimOf k
    (at_ p i k < 0 ∨ n ≤ at_ p i k) → (∀ j, j < 3 → k < j → 0 ≤ at_ p i j ∧ at_ p i j < d.dimOf j) →
    let f := if at_ p i k < 0 then 2 * k else 2 * k + 1
    (d.ruleOf f = 0 → d.source p i = .unset) ∧
    (d.ruleOf f = 3 → d.source p i = .fixed (d.fix.getD f 0 % 2 ^ d.b)) ∧
    (∀ w : Int, (d.ruleOf f = 1 ∧ w = at_ p i k % n) ∨ (d.ruleOf f = 2 ∧ w = if at_ p i k < 0 then -1 - at_ p i k else 2 * n - 1 - at_ p i k) ∨
        (d.ruleOf f = 4 ∧ w = if at_ p i k < 0 then 0 else n - 1) → 0 ≤ w → w < n →
      (∀ j, j < k → 0 ≤ at_ p i j ∧ at_ p i j < d.dimOf j) →
      ∃ q c, d.source p i = .cell q c ∧ q < d.nparts ∧ d.delta c = 0 ∧ ∀ j, j < 3 → at_ q c j = if j = k then w else at_ p i j)) ∧
  (∀ (s : State) (key p ring step : Nat) (r : MirrorReg) (set : ASet) (left : List Nat), s.mirrors.find key = some r →
    r.deliver = [(step, p, set, left)] → ring ∈ left → ∃ r', exec (.ringTagSet key p ring) s = .next { s with mirrors := s.mirrors.ins key r' } ∧
      newestOf r'.tags (tagKey p ring) = some ⟨step, set⟩ ∧ (∀ j, j ≠ tagKey p ring → newestOf r'.tags j = newestOf r.tags j) ∧
      r'.counter = r.counter) ∧
  (∀ (s t : State) (g since h step p comp l i : Nat) cells rest (r : MirrorReg), s.focus g = some t → g ≠ nobody → t.cb.saved = false →
    t.cg.park = some (.stale since h step p comp cells) → t.staleLanes h step p cells = some (r, (l, i) :: rest) → r.desc.timeout ≠ 0 →
    since + r.desc.timeout * usec ≤ s.now → ∃ v G x, exec (.staleHalo g) s = .next v ∧ v.groups.find g = some G ∧ G.trap = some x ∧
      x.cause = 0x08 ∧ x.sub = r.desc.ring i ∧ x.addr = r.desc.addr p comp i ∧ G.park = some .trap ∧ v.mem = s.mem)

/-- A row that arrives at a dead die is not acknowledged as done; one is stale below the window, a duplicate, redirected by a
die that is no replica, waits for a free slot, or fills one, as one that has waited does without a further test: the slot holds
it, and memory its row, header and VALID; its sender's status is written when its acknowledgement arrives, or at the send timeout,
once the row has been read (R251, R288, R289, R291, R296). Its model choices: log entries 32 and 44. -/
def Obligations.RowsArrive : Prop :=
  (∀ (s : State) (id : Nat) (c : Send) (l : Layer) (e : Nat) (x : Expert), s.sends.find id = some c → c.status = none → c.wait = [] →
    c.read = true → c.set.length ≤ 4 → s.expertOf c.part c.key = .ok (l, e) → l.experts[e]? = some x →
    let a := l.area c.target e
    let kept := (c.token + 2 ^ 32 - a.wlo) % 2 ^ 32 < 2 ^ 31
    let fresh := kept ∧ a.receipts.contains (c.sender, c.token) = false
    let counted (v : State) (b : Area) : Prop := v.sends.find id = some { c with status := some 0 } ∧
      ∃ l', v.layer c.part l.num = some l' ∧ l'.area c.target e = b
    exec (.inboundSlotFree id) s = exec (.xsendArrival id) s ∧
    (s.dieGone c.part c.target = true →
      exec (.xsendArrival id) s = .next { s with sends := s.sends.ins id { c with status := some 0x10 } }) ∧
    (s.dieGone c.part c.target = false → s.dieSilent c.part c.target = true → exec (.xsendArrival id) s = .next s) ∧
    (s.dieGone c.part c.target = false → s.dieSilent c.part c.target = false →
      (c.parked = false → ¬ kept → ∃ v, exec (.xsendArrival id) s = .next v ∧ counted v { a with stale := bump a.stale }) ∧
      (c.parked = false → kept → a.receipts.contains (c.sender, c.token) = true →
        ∃ v, exec (.xsendArrival id) s = .next v ∧ counted v { a with dups := bump a.dups }) ∧
      (c.parked = false → fresh → x.here c.target = false → ∀ n list, x.copies.find c.target = some (n, list) → list ≠ [] →
        ∃ v, exec (.xsendArrival id) s = .next v ∧ v = { s with sends := v.sends } ∧ v.sends.find id =
          some { c with version := n, redir := true, target := list.getD (c.token % list.length) 0 }) ∧
      (c.parked = false → fresh → x.here c.target = false → ((x.copies.find c.target).getD (0, [])).2 = [] →
        exec (.xsendArrival id) s = .next { s with sends := s.sends.ins id { c with status := some 0x10 } }) ∧
      (c.parked = true ∨ (fresh ∧ x.here c.target = true) → a.nextFree = none →
        exec (.xsendArrival id) s = .next { s with sends := s.sends.ins id { c with parked := true } }) ∧
      (∀ i, c.parked = true ∨ (fresh ∧ x.here c.target = true) → a.nextFree = some i →
        let va := l.slotVa c.target e i
        let taken (v : State) : Prop := ∃ b, counted v b ∧ b.accepted = bump a.accepted ∧
          b.redirs = (if c.redir then bump a.redirs else a.redirs) ∧ b.dups = a.dups ∧ b.stale = a.stale ∧ b.wlo = a.wlo ∧ b.last = some i ∧
          (∀ j : Nat, j ≠ i → b.slots[j]? = a.slots[j]?) ∧
          b.slots[i]? = some (some ⟨s.nextId, c.set, (c.sender, c.token), c.redir, none, none⟩)
        (∀ t, s.slotWrites c va { s.unitOf c.part c.target with grp := s.nextId } = .ok t →
          ∃ v, exec (.xsendArrival id) s = .next v ∧ exec (.inboundSlotFree id) s = .next v ∧ taken v) ∧
        (∀ (row : Nat → Nat) (hp vp ap p0 p1 : Nat), c.set = [] → va % 128 = 0 → c.row.length ≤ 128 * 130 →
          s.Plain c.part ((tab (ceilDiv c.row.length 128) fun k => (va + 128 + 128 * k, min 128 (c.row.length - 128 * k), row k)) ++
            [(va, 20, hp), (va + 0x14, 4, vp)] ++ l.areaWrites c.target e ap ++ l.entryWrites e p0 p1) →
          ∃ v, exec (.xsendArrival id) s = .next v ∧ taken v ∧
            (∀ k, k < c.row.length → v.devByte (row (k / 128) + k % 128) = c.row.getD k 0) ∧
            v.devBytes hp 20 = toBytes 4 c.sender ++ toBytes 4 c.token ++ toBytes 4 c.gate ++ toBytes 4 c.version ++ toBytes 4 c.nbytes ∧
            v.devBytes vp 4 = toBytes 4 (2 * b2n c.redir + 1))))) ∧
  (∀ (s t : State) (id : Nat) (c : Send) (f : Flight) (z : Nat), s.Unfocused → s.sends.find id = some c → s.focus c.grp = some t →
    subset c.set t.cg.aset = true → c.grp ≠ nobody → t.cg.out = [f] → f.waits = .send id → f.drop = false → f.bank = false →
    f.spoiled = [] → f.dest = .s [z] → z < 32 →
    let answered (v : State) (cause : Nat) : Prop := ∃ G, v.groups.find c.grp = some G ∧ G.out = [] ∧ G.ops = t.cg.ops ++ [id] ∧
      G.s[z]? = some (BitVec.ofNat 32 (1 + 2 * b2n (cause != 0) + 8 * (cause % 32) + 256 * min (s.now - c.issued) 0xFF_FFFF))
    (∀ cause, c.status = some cause → ∃ v, exec (.xsendAck id) s = .next v ∧ answered v cause ∧ v.sends.find id = none) ∧
    (∀ P, s.parts.find c.part = some P → P.timeout ≠ 0 → c.part ≠ nobody → c.issued + P.timeout * usec ≤ s.now →
      (c.read = true → ∃ v, exec (.xsendTimeout id) s = .next v ∧ answered v 0x10 ∧ v.sends.find id = some { c with grp := nobody }) ∧
      -- the row is read first
      (∀ u c1, c.read = false → c.status = none → c.wait = [] → s.readRow id c = (u, c1) → c1.read = true → c1.set.length ≤ 4 →
        subset c1.set t.cg.aset = true →
        ∃ v, exec (.xsendTimeout id) s = .next v ∧ answered v 0x10 ∧ v.sends.find id = some { c1 with grp := nobody })))

/-- Prism's placement: a table reaches a die, a window ends and may begin a fill or an eviction, a decided PXCTL begins a new
one, a fill copies its bytes and makes a replica or fails, an eviction ends (R282 to R286). Its model
choices: log entries 37 and 44. -/
def Obligations.PlacementWorks : Prop :=
  ∀ (s : State) (part num e d : Nat) (l : Layer) (P : Part) (x : Expert), s.Unfocused → s.layers = [l] → l.part = part → l.num = num →
    part ≠ nobody → s.parts.find part = some P → l.experts[e]? = some x → d < P.dies.length →
    (∃ v l' x', exec (.replicaTableUpdate part num e d) s = .next v ∧ v = { s with layers := [l'] } ∧ l'.experts[e]? = some x' ∧
      x' = { x with copies := x.copies.ins d (x.version, x.list) } ∧ l'.areas = l.areas) ∧
    (∀ win hi lo load : Nat, win = bits P.pxctl.toNat 15 1 → win ≠ 0 → P.window + win * usec ≤ s.now → hi = bits P.pxctl.toNat 63 40 →
      lo = bits P.pxctl.toNat 39 16 → load = x.window.foldl (· + ·) 0 →
      let ended (t : State) (l' : Layer) (x' : Expert) : Prop := exec (.prismWindowEnd part) s = .next t ∧ t.layers = [l'] ∧
        (∃ P', t.parts.find part = some P' ∧ P'.window = P.window + win * usec) ∧ l'.experts[e]? = some x' ∧ x'.load = load ∧
        x'.window = List.replicate 8 0
      (P.pxctl.getLsbD 0 = false ∨ hi ≤ lo → ∃ t l' x', ended t l' x' ∧ x'.list = x.list ∧ x'.state = x.state ∧ l'.fills = l.fills) ∧
      (P.pxctl.getLsbD 0 = true → lo < hi → l.experts = [x] → e = 0 → s.merging part num 0 = false →
        (∀ goal p, hi < load → x.list.length < 8 → x.list.head? = some p → goal < x.state.length →
          fewest (s.windowOf part) ((List.range P.dies.length).filter fun k =>
            x.stateOf k == .absent && (s.die (P.physDie k)).state == .active && !s.dieSilent part k) = some goal →
          ∃ t l' x', ended t l' x' ∧ l'.fills = l.fills ++ [(0, goal, l.weightVa p 0, l.wstride, none)] ∧ x'.stateOf goal = .filling ∧
            x'.list = x.list) ∧
        (∀ off, load < lo → (x.list.drop 1).reverse.find? (fun k => x.stateOf k == .resident) = some off → off < x.state.length →
          ∃ t l' x', ended t l' x' ∧ l'.fills = l.fills ∧ x'.stateOf off = .evicting ∧ x'.list = x.list.filter (fun r => r != off) ∧
            x'.version = bump x.version))) ∧
    (∀ v : BitVec 64,
      (s.fw.pxctl.find? (fun y => y.1 == part) = some (part, v) → ∃ t l', exec (.pxctlWrite part v) s = .next t ∧
        t.parts.find part = some { P with pxctl := v, window := s.now } ∧ t.fw.pxctl = s.fw.pxctl.erase (part, v) ∧
        t.layers = [l'] ∧ ∃ x', l'.experts[e]? = some x' ∧ x' = { x with window := List.replicate 8 0 }) ∧
      (s.fw.pxctl.find? (fun y => y.1 == part) ≠ some (part, v) → exec (.pxctlWrite part v) s = .next s)) ∧
    (∀ src len task, l.fills = [(e, d, src, len, task)] → s.merging part num e = false → d < x.state.length →
      let done (v : State) (st : Residency) (list : List Nat) (n : Nat) : Prop := ∃ l' x', exec (.fillComplete part num e d) s = .next v ∧
        v.layer part num = some l' ∧ l'.fills = [] ∧ l'.experts[e]? = some x' ∧ x'.stateOf d = st ∧ x'.list = list ∧ x'.version = n
      (∀ u, s.fillBytes part d src (l.weightVa d e) len 0 = .ok u → ∃ v, done v .resident (x.list ++ [d]) (bump x.version)) ∧
      (∀ u c va, s.fillBytes part d src (l.weightVa d e) len 0 = .bad u c va → ∃ v, done v .absent x.list x.version ∧
        ∀ k T, task = some k → s.tasks.find k = some T → ∃ T', v.tasks.find k = some T' ∧ T'.cause = some 0x0D ∧ T'.daddr = va) ∧
      (∀ from_ goal : Nat → Nat, ∀ p0 p1,
        s.Plain part ((tab len fun i => (l.weightVa d e + i, 1, goal i)) ++ l.entryWrites e p0 p1) →
        (∀ i, i < len → s.reach part (src + i) 1 true false = .ok (.dev (from_ i)) ∧ s.homeUp (.dev (from_ i)) = true ∧
          s.eccHits (from_ i) 1 = [] ∧ s.versions (lineOf (from_ i)) = [] ∧ (∀ j, j < len → from_ i ≠ goal j) ∧
          ∀ p j, p ∈ (s.walkSteps part (src + i)).1 → j < len → goal j < p.at_ ∨ p.at_ + 8 ≤ goal j) →
        ∃ v, done v .resident (x.list ++ [d]) (bump x.version) ∧ ∀ i, i < len → v.devByte (goal i) = s.devByte (from_ i))) ∧
    (x.stateOf d = .evicting → (l.area d e).refs = 0 → s.merging part num e = false → d < x.state.length →
      (∀ k, k < P.dies.length → (x.copies.find k).map Prod.fst = some x.version) →
      ∃ v l' x', exec (.evictComplete part num e d) s = .next v ∧ v.layer part num = some l' ∧ l'.experts[e]? = some x' ∧
        x'.stateOf d = .absent ∧ x'.list = x.list ∧ x'.version = x.version)

/-! ## Barriers, waits, parks and traps -/

/-- Releases and the ends of waits: a barrier whose groups have all arrived lets each go on under the union of their sets; a
watch that is still armed at its time is met, fails where its word cannot be read, or times out with a deferred WAIT_TIMEOUT; WAITCY ends after its cycles; a parked
word issues again; an exited group ends once nothing of it is out; a trap enters the handler at its ENTRY, keeping the trapped
state beneath, or ends the group where there is no handler, none that is valid, or it is in the handler already (R8, R164, R168,
R301, R303, R304, R307, R366 to R371, R386). Its model choices: log entries 13, 19 and 39 (when a parked word issues again), 26,
38, 42 and 44. -/
def Obligations.WaitsEnd : Prop :=
  ∀ s : State, s.Unfocused →
    (∀ b B, s.blocks.find b = some B → b ≠ nobody → s.barMet B = true → B.saved = false →
      B.bar.arrived.Nodup → (∀ g, g ∈ B.bar.arrived → g ≠ nobody) →
      ∃ v B', exec (.barRelease b) s = .next v ∧ v.blocks.find b = some B' ∧
        B' = { B with bar := ⟨B.bar.need, [], B.bar.gen + 1, [], [], zeroOrd⟩, barLog := B'.barLog } ∧
        (∀ g G, g ∈ B.bar.arrived → s.groups.find g = some G → G.taintFit B.bar.uset = .same ∨ G.taintFit B.bar.uset = .fits →
          G.park = some (.bar B.bar.gen) → ∃ G', v.groups.find g = some G' ∧ G'.park = none ∧ G'.seq = G.seq + 1 ∧
          G'.curPcs = G.advance.curPcs ∧ G'.aset = union G.aset B.bar.uset ∧ G'.behind = union G.behind B.bar.behind) ∧
        (∀ g, g ∉ B.bar.arrived → v.groups.find g = s.groups.find g) ∧ v.mem = s.mem) ∧
    (∀ k G, s.gangs.find k = some G →
      let arrived := G.members.flatMap fun m => ((s.blocks.find m).map Block.cbarIn).getD []
      G.members.Nodup → arrived ≠ [] → arrived.Nodup → (∀ g, g ∈ arrived → g ≠ nobody) →
      (∀ m b, m ∈ G.members → s.blocks.find m = some b → b.saved = false ∧ subset (s.liveGroups b) b.cbarIn = true) →
      (∀ m, m ∈ G.members → m ≠ nobody) →
      ∃ v G', exec (.cbarRelease k) s = .next v ∧ v.gangs.find k = some G' ∧ G'.gen = G.gen + 1 ∧ G'.uset = [] ∧ G'.members = G.members ∧
        (∀ m b, m ∈ G.members → s.blocks.find m = some b → v.blocks.find m = some { b with
          cbarIn := [], passedCbar := b.passedCbar || !b.cbarIn.isEmpty }) ∧
        ∀ g H, g ∈ arrived → s.groups.find g = some H → H.taintFit G.uset = .same ∨ H.taintFit G.uset = .fits →
          H.park = some (.cbar G.gen) → ∃ H', v.groups.find g = some H' ∧
          H'.park = none ∧ H'.curPcs = H.advance.curPcs ∧ H'.aset = union H.aset G.uset) ∧
    (∀ g t f id q c cmp, s.focus g = some t → g ≠ nobody → t.cb.saved = false → t.cg.out = [f] → f.waits = .watch → f.drop = false →
      f.limit ≠ 0 → f.since + f.limit * usec ≤ s.now → t.wordReqs g f.seq = [(id, q)] → q.status = .held → q.kind = .watch c cmp →
      let fails := t.homeUp q.loc = false ∨ ∃ pa, q.loc = .dev pa ∧ t.eccLost pa q.n = true
      (fails → ∃ v, exec (.waitTimeout g) s = .next v ∧ v.groups.find g = some t.cg ∧
        v.reqs.find id = some { q with status := .failed 0x07 } ∧ v.mem = s.mem) ∧
      (¬ fails → watchHit c cmp q.n (t.readLoc q.loc q.n).1 = false →
        ∃ v G x, exec (.waitTimeout g) s = .next v ∧ v.groups.find g = some G ∧ G.out = [] ∧ G.pend = t.cg.pend ++ [x] ∧ x.cause = 0x0F ∧
          x.addr = q.va ∧ x.pc = f.pc ∧ v.mem = s.mem) ∧
      (¬ fails → watchHit c cmp q.n (t.readLoc q.loc q.n).1 = true →
        ∃ v, exec (.waitTimeout g) s = .next v ∧ v.groups.find g = some t.cg ∧ v.reqs.find id =
          some { q with status := .done, res := (t.readLoc q.loc q.n).1, rset := (t.readLoc q.loc q.n).2, saw := t.placeOf q.loc q.n } ∧ v.mem = s.mem)) ∧
    (∀ g t u, s.focus g = some t → g ≠ nobody → t.cb.saved = false → t.cg.park = some (.waitcy u) → u ≤ s.now →
      ∃ v, exec (.waitcyExpiry g) s = .next v ∧ v.groups.find g = some { t.cg with park := none } ∧ v.mem = s.mem) ∧
    (∀ g t, s.focus g = some t → g ≠ nobody → t.cb.saved = false →
      (t.cg.park = some .again ∨ t.cg.park = some .assume ∨ (t.cg.park = some .pool ∧ t.cg.granule ≤ t.pool t.cb.core) ∨
        ∃ q, t.cg.park = some (.performed q) ∧ ∀ x, x ∈ t.wordReqs g q → x.2.status.over_ = true) →
      ∃ v, exec (.parkResume g) s = .next v ∧ v.groups.find g = some { t.cg with park := none } ∧ v.mem = s.mem) ∧
    (∀ g t failed, s.focus g = some t → g ≠ nobody → t.cb.saved = false → t.cg.park = some (.exiting failed) → t.exitWaits = false →
      t.exitBusy = false → ∃ v G, exec (.parkResume g) s = .next v ∧ v.groups.find g = some G ∧ G.done = true ∧
        G.failed = (t.cg.failed || failed) ∧ G.phys = [] ∧ (∀ r, G.mapOf r = none) ∧ v.mem = s.mem) ∧
    (∀ g t x u bs size entry, s.focus g = some t → g ≠ nobody → t.cb.saved = false → t.cg.park = some .trap → t.cg.trap = some x →
      t.cg.vlOut = false → t.cg.inH = false → t.cp.thandler.getLsbD 0 = true → t.handlerBusy = false →
      t.codeRead (bits t.cp.thandler.toNat 56 6 * 64) 16 = (some bs, u) → handlerHeader bs = some (size, entry) →
      ∃ v G h, exec (.trapEntry g) s = .next v ∧ v.groups.find g = some G ∧ G.handler = some h ∧ G.trap = none ∧ G.park = none ∧
        G.pcs = t.cg.pcs ∧ G.s = t.cg.s ∧ G.vmap = t.cg.vmap ∧ G.phys = t.cg.phys ∧ G.p = t.cg.p ∧ G.frm = t.cg.frm ∧
        G.fflags = t.cg.fflags ∧ G.fmask = t.cg.fmask ∧ G.aset = t.cg.aset ∧
        (∀ l, l < t.cg.width → h.pcs.getD l none = if (t.cg.pcs.getD l none).isSome then some (BitVec.ofNat 32 entry) else none) ∧
        h.tcause = BitVec.ofNat 32 (x.cause + 2 ^ 8 * x.sub + 2 ^ 16 * x.code) ∧ h.taddr = BitVec.ofNat 64 x.addr ∧
        h.tlanes = BitVec.ofNat 64 x.lanes ∧ (∀ r : SReg, (h.s[r.val]?).getD 1 = 0) ∧ h.base = bits t.cp.thandler.toNat 56 6 * 64 ∧
        h.size = size ∧ h.own = x.entry.getD zeroLog) ∧
    (∀ g t x, s.focus g = some t → g ≠ nobody → t.cb.saved = false → t.cg.park = some .trap → t.cg.trap = some x → t.cg.vlOut = false →
      t.cg.inH = true ∨ t.cp.thandler.getLsbD 0 = false ∨ (t.handlerBusy = false ∧
        (t.codeRead (bits t.cp.thandler.toNat 56 6 * 64) 16).1.bind handlerHeader = none) →
      t.exitWaits = false → t.exitBusy = false → ∃ v G, exec (.trapEntry g) s = .next v ∧
        v.groups.find g = some G ∧ G.done = true ∧ G.failed = true) ∧
    (∀ g t, s.focus g = some t → g ≠ nobody → t.cb.saved = false → t.handlerBusy = false →
      (∀ n, t.cg.park = some (.barOff n) → ∃ v, exec (.trapEntry g) s = .next v ∧ v.groups.find g = some { t.cg with park := some (.bar n) }) ∧
      (∀ n, t.cg.park = some (.cbarOff n) →
        ∃ v, exec (.trapEntry g) s = .next v ∧ v.groups.find g = some { t.cg with park := some (.cbar n) }) ∧
      (t.cg.park = some .trap → t.cg.trap = none →
        ∃ v, exec (.trapEntry g) s = .next v ∧ v.groups.find g = some { t.cg with park := none }))

/-- An affirmation takes its identifier out of every group's set and every identifier's parents, and its decision is over; a
denial puts back a group that rests on the identifier as its snapshot stands, and one to which data that rest on it are still on
their way as it stood at that read, and drops the versions made under it (R330, R346 to R348, R355). Its model choices: log
entries 11, 24 and 58. -/
def Obligations.AssumptionsResolve : Prop :=
  (∀ (s : State) (a : Nat) (A : Aid), (a, true) ∈ s.resol → s.aids.find a = some A → s.inOrder a [a] = true →
    ∃ v, exec (.aidAffirmation a) s = .next v ∧
      (∀ g G, s.groups.find g = some G → ∃ G', v.groups.find g = some G' ∧ G'.aset = G.aset.filter (fun x => x != a) ∧ G'.s = G.s ∧ G'.pcs = G.pcs) ∧
      (∀ k x, (k, x) ∈ v.aids → a ∉ x.parents) ∧ (∀ x, x ∈ v.resol → x.1 ≠ a)) ∧
  (∀ (s : State) (a g : Nat) (A : Aid) (G : Group) (n : Snap), (a, false) ∈ s.resol → s.aids.find a = some A →
    let d := s.descend [a]
    s.inOrder a d = true → s.passBlocks d (s.toRestore d) = false → s.groups.find g = some G → G.done = false →
    (s.groups.map (·.1)).Nodup →
    (a ∈ G.aset ∧ G.snaps = [n] ∧ a ∈ n.guard ∧
        ∀ f, f ∈ G.out → f.drop = false → f.hold.isSome = true → meets (s.pendingSet g f) d = false) ∨
      (meets G.aset d = false ∧ G.snaps = [] ∧ ∃ f, G.out = [f] ∧ f.drop = false ∧ f.hold = some n ∧ meets (s.pendingSet g f) d = true) →
    ∃ v G', exec (.aidDenial a) s = .next v ∧ v.groups.find g = some G' ∧ G'.pcs = n.pcs ∧ G'.s = n.s ∧ G'.p = n.p ∧
      G'.vmap = n.vmap ∧ G'.aset = n.aset ∧ G'.snaps = [] ∧ G'.handler = none ∧ G'.trap = none ∧ G'.park = none ∧
      (s.layers = [] → v.mem = s.mem) ∧ (∀ line vs x, v.vers.find line = some vs → x ∈ vs → a ∉ x.set) ∧
      (∀ x, x ∈ v.resol → x.1 ≠ a))

/-! ## Interruption -/

/-- Pre-emption saves a block with its groups' registers, lanes, sets and parks; a restore puts the block back on the core
named, with what was saved; a teardown discards the partition's streams, tasks, blocks, groups, identifiers, versions, grids,
layers and requests, but for stores that had been sent, and frees its cores; a leaving core moves once it holds no block (R18,
R116, R378 to R383). Its model choices: log entries 25 (what a saved block keeps of its bank), 30 and 38. -/
def Obligations.WorkIsInterrupted : Prop :=
  ∀ s : State, s.Unfocused →
    (∀ b B why, s.blocks.find b = some B → b ≠ nobody → B.saved = false → B.retired = false → B.hdr.cluster = 0 → s.liveGroups B ≠ [] →
      s.mayPreempt B why = true → s.stops b B = true → ∃ v B', exec (.preempt b why) s = .next v ∧ v.blocks.find b = some B' ∧
        B' = { B with saved := true, bank := B'.bank, entries := (s.cluster (coreCluster B.core)).table.filter fun e => e.blk == b } ∧
        B'.bank = (splitBank b (((s.cluster (coreCluster B.core)).banks.find (corePhys B.core % 4)).getD [])).1 ∧
        (∀ g G, s.groups.find g = some G → v.groups.find g = some (if g ∈ B.groups then
          { G with park := G.park.bind Park.kept, rescued := false, base := 0, walked := [] } else G)) ∧
        (∀ e, e ∈ (v.cluster (coreCluster B.core)).table → e.blk ≠ b) ∧ v.mem = s.mem ∧
        ∀ e, e ∈ (v.core B.core).wcb → ∀ o, o ∈ e.owners → o.blk ≠ b) ∧
    (∀ b B why x, s.blocks.find b = some B → x ∈ s.company b B → s.liveGroups x.2 = [] → exec (.preempt b why) s = .next s) ∧
    (∀ b B die core, s.blocks.find b = some B → b ≠ nobody → B.saved = true → B.hdr.cluster = 0 → s.physOf B.part B.ldie = die →
      (s.partCores B.part die).contains (die * 64 + core) = true → coreDie (die * 64 + core) = die → s.takesBack B (die * 64 + core) = true →
      ∃ v, exec (.blockRestore b die core) s = .next v ∧
        v.blocks.find b = some { B with saved := false, core := die * 64 + core, bank := [], entries := [] } ∧ v.mem = s.mem ∧
        (∀ x, B.bank.head? = some x →
          (v.cluster (coreCluster (die * 64 + core))).bankAt (corePhys (die * 64 + core) % 4) = some x) ∧
        ∀ g G, g ∈ B.groups → s.groups.find g = some G → ∃ G', v.groups.find g = some G' ∧ G'.pcs = G.pcs ∧ G'.s = G.s ∧ G'.p = G.p ∧
          G'.vmap = G.vmap ∧ G'.phys = G.phys ∧ G'.frm = G.frm ∧ G'.fflags = G.fflags ∧ G'.fmask = G.fmask ∧ G'.aset = G.aset ∧
          G'.snaps = G.snaps ∧ G'.trap = G.trap ∧ G'.pend = G.pend ∧ G'.handler = G.handler ∧
          (B.groups.Nodup → G.inH = true → G.done = false → G.park = none → G'.park = some .trap)) ∧
    (∀ part, part ∈ s.fw.tears → ∃ v, exec (.partitionTeardown part) s = .next v ∧ v.parts.find part = none ∧ part ∉ v.fw.tears ∧
      (∀ k x, (k, x) ∈ v.streams → k / 16 ≠ part) ∧ (∀ k T, (k, T) ∈ v.tasks → T.part ≠ part) ∧
      (∀ k B, (k, B) ∈ v.blocks → B.part ≠ part) ∧ (∀ k A, (k, A) ∈ v.aids → A.part ≠ part) ∧
      (∀ k G B, (k, G) ∈ v.groups → s.blocks.find G.blk = some B → B.part ≠ part) ∧
      (∀ k q, (k, q) ∈ v.reqs → q.part = part → ∃ data, q.kind = .store data ∧ q.set = []) ∧
      ((s.aids.map (·.1)).Nodup → ∀ line vs x id A, v.vers.find line = some vs → x ∈ vs → s.aids.find id = some A → A.part = part →
        A.refusal = none → id ∉ x.set) ∧
      (∀ k r, (k, r) ∈ v.mirrors → r.part ≠ part) ∧ (∀ l, l ∈ v.layers → l.part ≠ part) ∧
      ∀ k c, (k, c) ∈ v.cores → c.part ≠ some part) ∧
    (∀ die core c p, s.cores.find (die * 64 + core) = some c → die * 64 + core ≠ nobody → c.leaving = some p →
      s.resident (die * 64 + core) = [] → c.wcb = [] → ∃ v c', exec (.corePartitionMove die core) s = .next v ∧
        v = { s with cores := v.cores } ∧ v.cores.find (die * 64 + core) = some c' ∧ c'.part = some p ∧ c'.leaving = none ∧ c'.tlb = [] ∧ c'.left = [] ∧
        ∀ k, k ≠ die * 64 + core → v.cores.find k = s.cores.find k)

/-- An evacuation moves the die's pages and logical numbers to the spare; a die that stops, or is shut down by heat, loses its
memory and its blocks, and once its loss has been decided it is failed and a spare takes its number; of a die that was evacuated
the base die is lost, and its link with it (R11, R17, R384, R386, R393, R406). Its model choices: log entries 4, 11 (a loss that
cannot happen is no change), 27, 31 and 32. -/
def Obligations.DiesAreLost : Prop :=
  ∀ s : State, s.Unfocused →
    (∀ die spare, s.leading = true → s.fw.evac = some (die, spare, 5) → die ≠ spare → die < s.dies.length → spare < s.dies.length →
      (s.die spare).state = .spare → (s.die die).lost = false → (s.die spare).lost = false → s.migs = [] →
      (∀ b B, (b, B) ∈ s.blocks → coreDie B.core = die → B.saved = true ∨ B.retired = true) →
      ∃ v, exec (.dieEvacuation die spare) s = .next v ∧ (v.die die).state = .failed ∧ (v.die spare).state = .active ∧
        (v.die spare).leaving = true ∧ v.fw.evac = s.fw.evac ∧
        (∀ p P, s.parts.find p = some P → ∃ P', v.parts.find p = some P' ∧ P'.dies = P.dies.map fun d => if d = die then spare else d) ∧
        (∀ p m e i, s.mappedOn ((s.holders die).map (·.1)) die = [(p, m)] → m.at_ = some e → inRange (s.dieRange die) e = false →
          inRange (s.dieRange spare) e = false → inRange (s.dieRange spare) (e + 7) = false → inRange (s.dieRange die) (e + 7) = false →
          s.Canonical → m.pa + m.size ≤ (s.dieRange die).1 + (s.dieRange die).2 → i < m.size →
          v.devByte ((s.dieRange spare).1 + (m.pa - (s.dieRange die).1) + i) = s.devByte (m.pa + i))) ∧
    (∀ die, die < s.const.dies → die < s.dies.length → (s.die die).lost = false → (s.die die).state ≠ .failed →
      ∃ v, exec (.dieLoss die) s = .next v ∧ (∀ temp, 115 ≤ temp → exec (.thermalShutdown die temp) s = .next v) ∧
      let stopped : Prop := (v.die die).lost = true ∧
        ((∀ x, x ∈ s.holders die → x.2.dies.length ≠ 1) → ∀ pa, inRange (s.dieRange die) pa = true → v.devByte pa = 0) ∧
        (∀ b B, s.blocks.find b = some B → coreDie B.core = die → B.saved = false → B.retired = false → v.blocks.find b = none) ∧
        (die = 0 → ∀ up rest, s.links = up :: rest → v.links[0]? = some false) ∧
        (die = 4 → ∀ x up rest, s.links = x :: up :: rest → v.links[1]? = some false)
      let undeclared : Prop := (v.die die).state = (s.die die).state ∧
        ∀ p P, s.parts.find p = some P → ∃ P', v.parts.find p = some P' ∧ P'.dies = P.dies
      -- no core leads any more: the loss waits for a decision
      (s.leading = false ∨ s.fw.leader = die → stopped ∧ undeclared ∧ v.fw.journal = s.fw.journal) ∧
      (s.leading = true → s.fw.leader ≠ die → (∀ e, e ∈ s.fw.journal → e.done = true) →
        -- other followers have to acknowledge it first
        ((∃ d, d ∈ s.fw.active ∧ d ≠ s.fw.leader ∧ d ≠ die) → stopped ∧ undeclared ∧ v.fw.journal = s.fw.journal ++
          [⟨s.fw.epoch, ((s.fw.journal.getLast?).map fun e => e.seq + 1).getD 0, .dieFailed die, [s.fw.leader], s.now, false⟩]) ∧
        -- no other follows: the die is declared failed at once
        ((∀ d, d ∈ s.fw.active → d = s.fw.leader ∨ d = die) → stopped ∧ (v.die die).state = .failed ∧
          ∀ x p P, (List.range 8).find? (fun x => (s.die x).state == .spare && !(s.die x).lost && x != die) = some x →
            s.parts.find p = some P → die ∈ P.dies →
            ∃ P', v.parts.find p = some P' ∧ P'.dies = P.dies.map fun d => if d = die then x else d))) ∧
    (∀ die, die < s.const.dies → die < s.dies.length → (s.die die).lost = false → (s.die die).state = .failed →
      ∃ v, exec (.dieLoss die) s = .next v ∧ (∀ temp, 115 ≤ temp → exec (.thermalShutdown die temp) s = .next v) ∧
      (v.die die).lost = true ∧ v.mem = s.mem ∧ v.blocks = s.blocks ∧ v.fw.active = s.fw.active.filter (fun d => d != die) ∧
      (die = 0 → ∀ up rest, s.links = up :: rest → v.links = false :: rest) ∧
      (die = 4 → ∀ x up rest, s.links = x :: up :: rest → v.links = x :: false :: rest)) ∧
    (∀ die temp, (s.const.dies ≤ die ∨ (s.die die).lost = true → exec (.dieLoss die) s = .next s) ∧
      (temp < 115 → exec (.thermalShutdown die temp) s = .next s))

/-! ## Firmware -/

/-- Leases, claims and the journal: a renewal reaches every active follower; a lease lapses 1 ms after it; a follower claims
in its rank's turn with the next epoch; a claimer completes what its journal holds; a decision takes effect once every active
follower has acknowledged it, and a follower that does not within 20 µs is removed; the last step of an evacuation lets the spare
take blocks, and a decided migration begins to copy to a page of the die asked for (R384, R390 to R394, R398). Its model choices:
log entries 28, 29, 31, 44 (how times are counted) and 52. -/
def Obligations.FirmwareDecides : Prop :=
  ∀ s : State, s.Unfocused →
    (s.leading = true → (s.die s.fw.leader).renewed + 250 * usec ≤ s.now → ∃ v, exec .leaseRenew s = .next v ∧ v = { s with dies := v.dies } ∧
      ∀ d, d ∈ s.fw.active → d < s.dies.length → (v.die d).renewed = s.now ∧ (v.die d).seen = s.fw.epoch) ∧
    (∀ die, s.fw.loaded = true → s.fw.take = false → s.fw.active.contains die = true → die < 8 → die ≠ s.fw.leader →
      (s.die die).renewed + 1000 * usec ≤ s.now → exec (.leaseLapse die) s = .next
        { s with fw := { s.fw with take := true, leads := false, claim := none } }) ∧
    (∀ die r, s.fw.take = true → s.fw.claim = none → s.fw.followers[r]? = some die →
      (s.die die).renewed + 1000 * usec + 10 * usec * r ≤ s.now → ∃ v, exec (.leaseClaim die) s = .next v ∧
        v.fw = { s.fw with epoch := (s.die die).seen + 1, claim := some (die, s.now) } ∧ v = { s with fw := v.fw, dies := v.dies } ∧
        ∀ d, d ∈ s.fw.active → d < s.dies.length → (s.die die).seen + 1 ≤ (v.die d).seen) ∧
    (∀ die at_, s.fw.claim = some (die, at_) → ∃ v, exec .takeoverComplete s = .next v ∧ v.fw.leads = true ∧ v.fw.take = false ∧
      v.fw.leader = die ∧ v.fw.claim = none ∧ v.fw.epoch = s.fw.epoch ∧ v.fw.active = s.fw.active ∧
      v.fw.journal = (s.fw.journal.filter fun e => e.done || e.acks.contains die).map fun e => { e with done := true }) ∧
    (∀ d : Decision, s.leading = true → (∀ e, e ∈ s.fw.journal → e.done = true) →
      let seq := ((s.fw.journal.getLast?).map fun e => e.seq + 1).getD 0
      let e : Entry := ⟨s.fw.epoch, seq, d, [s.fw.leader], s.now, false⟩
      let made (held : List Decision) (e : Entry) : State := { s with fw := { s.fw with held := held, journal := s.fw.journal ++ [e] } }
      (d.isRequest = false → exec (.journalEntry d) s = .next
        (if s.fw.active.all (fun x => x == s.fw.leader) = true then (made s.fw.held { e with done := true }).decide d else made s.fw.held e)) ∧
      (∀ rest, d.isRequest = true → s.fw.held = d :: rest → exec (.journalEntry d) s = .next
        (if s.fw.active.all (fun x => x == s.fw.leader) = true then (made rest { e with done := true }).decide d else made rest e))) ∧
    (∀ die e, die ∈ s.fw.active → s.fw.journal = [e] → e.done = false → e.epoch = s.fw.epoch → s.fw.leads = true →
      let f : Entry := { e with acks := union e.acks [die] }
      exec (.journalAcknowledge die e.seq) s = .next (if s.fw.active.all f.acks.contains = true then
        ({ s with fw := { s.fw with journal := [{ f with done := true }] } } : State).decide e.dec
        else { s with fw := { s.fw with journal := [f] } })) ∧
    (∀ die e, s.leading = true → die ≠ s.fw.leader → s.fw.active.contains die = true → e ∈ s.fw.journal → e.done = false →
      die ∉ e.acks → e.at_ + 20 * usec ≤ s.now → ∃ v, exec (.journalAckTimeout die) s = .next v ∧
        v.fw.active = s.fw.active.filter (fun d => d != die) ∧ v.fw.leader = s.fw.leader ∧ v.fw.epoch = s.fw.epoch) ∧
    (s.leading = true → (∀ e, e ∈ s.fw.journal → e.done = true) → s.fw.active = [s.fw.leader] →
      (∀ die spare, s.fw.evac = some (die, spare, 5) → (s.die die).state = .failed → spare < s.dies.length →
        ∃ v, exec (.journalEntry (.evacStep 6)) s = .next v ∧ v.fw.evac = none ∧ (v.die spare).leaving = false) ∧
      (∀ part rest P l, s.fw.held = .migrate part :: rest → part ≠ nobody → s.parts.find part = some P → s.migLeaf part P = some l →
        P.migHome l s.const.pkg = false → (s.pickPage (P.physDie (bits P.migcmd.toNat 3 1)) l.size).isSome = true → l.size ≠ 0 →
        ∃ v new, exec (.journalEntry (.migrate part)) s = .next v ∧
          inRange (s.dieRange (P.physDie (bits P.migcmd.toNat 3 1))) new = true ∧ v.fw.held = rest ∧
          v.migs = s.migs ++ [⟨part, l.vbase, l.size, l.pbase, new, false, false⟩]))

/-- Power, loading, heat and links: a power-up starts afresh under the lowest die that passes its self-test; an image runs
only if the ROM accepts it; a hot die's budget falls; a link that goes down discards pending vectors (R390, R401, R402, R405,
R406). Its model choices: log entries 4, 9, 16 (what the ROM accepts), 33, 34 and 46. -/
def Obligations.PowerAndLinks : Prop :=
  ∀ s : State, s.Unfocused →
    (s.powered = false → ∃ v, exec .powerUp s = .next v ∧ v.powered = true ∧ v.fw.epoch = 1 ∧ v.fw.take = false ∧ v.fw.loaded = false ∧
      v.parts = [] ∧ v.blocks = [] ∧ v.streams = [] ∧ v.mem = [] ∧ v.hostMem = s.hostMem ∧
      (0 < s.const.dies → v.links[0]? = some (!(v.die 0).lost)) ∧ (4 < s.const.dies → s.const.form ≠ 3 → v.links[1]? = some (!(v.die 4).lost)) ∧
      (∀ d, d < s.const.dies → ((v.die d).lost = true ↔ (v.die d).state = .failed)) ∧
      (∀ d, d ∈ v.fw.active ↔ d < s.const.dies ∧ (v.die d).state = .active) ∧
      (v.fw.leads = true → v.fw.leader ∈ v.fw.active ∧ ∀ d, d ∈ v.fw.active → v.fw.leader ≤ d) ∧ (v.fw.leads = false → v.fw.active = [])) ∧
    (s.powered = true → ∃ v, exec .packagePowerLoss s = .next v ∧ v.powered = false ∧ v.parts = [] ∧ v.blocks = [] ∧ v.streams = [] ∧
      v.mem = [] ∧ v.fw.loaded = false ∧ v.fw.journal = [] ∧ v.ident = false ∧ v.akey = none ∧ v.hostMem = s.hostMem) ∧
    (∀ image, s.fw.loaded = false → (∀ (i : Nat) (b : Byte), image[i]? = some b → i < 524288 ∧ Cells.read 0 s.loadWin i = b) →
      let good := Config.imageSigned image = true ∧ exact 64 (Config.digest (Config.imageKey image)) = s.const.keyDigest ∧
        s.const.minSvn ≤ Config.imageSvn image
      ∃ v, exec (.firmwareLoad image) s = .next v ∧ (¬ good → v = s) ∧
      (good → v.fw = { s.fw with loaded := true, image := image } ∧ v.ident = s.fw.active.contains 0 ∧
        (v.akey.isSome = true ↔ 0 ∈ s.fw.active) ∧ v.parts = s.parts ∧ v.mem = s.mem)) ∧
    (∀ die temp budget, 95 < temp → s.leading = true → budget < (s.die die).budget → die < s.dies.length → s.fw.journal = [] →
      s.fw.active = [s.fw.leader] → ∃ v, exec (.thermalThrottle die temp budget) s = .next v ∧ (v.die die).budget = budget ∧
        (v.die die).charges = (s.die die).charges ∧ (v.die die).state = (s.die die).state ∧ ∀ d, d ≠ die → v.die d = s.die d) ∧
    (∀ link, ∃ v, exec (.linkDown link) s = .next v ∧ v = { s with links := s.links.set link false, parts := v.parts } ∧
      (∀ p P, s.parts.find p = some P → P.link ≠ link → v.parts.find p = some P) ∧
      ∀ p P, s.parts.find p = some P → P.link = link → ∃ P', v.parts.find p = some P' ∧ P' = { P with msix := P'.msix } ∧
        ∀ n e, P'.msix.find n = some e → e.pend = false ∧ e.mask = true) ∧
    (∀ link, (s.const.form = 3 → link = 0) → (s.die (4 * link)).lost = false →
      exec (.linkUp link) s = .next { s with links := s.links.set link true })

/-! ## The host -/

/-- The host window and AtomicOps: an access goes through the partition's page table, reads committed data, and writes its
bytes; an AtomicOp acts at the home and returns the old value (R342, R395, R399). Its model choices: log entries 36, and 52 (an
access does not wait for the final phase of its page's migration). -/
def Obligations.HostReachesPartition : Prop :=
  ∀ (s : State) (part : Nat) (P : Part), s.Unfocused → part ≠ nobody → s.parts.find part = some P → s.hostReach part = true →
    (∀ off, let va := P.windowVa off
      let met (v : State) : State := { s with cpls := v.cpls, ptes := v.ptes, ecc := v.ecc, corrected := v.corrected, parts := v.parts }
      (∀ n pa, packetOk off n = true → va % 128 + n ≤ 128 → s.reach part va n true false = .ok (.dev pa) → s.homeUp (.dev pa) = true →
        (s.eccHits pa n = [] → ∃ v, exec (.hostWindowAccess part off (.read n)) s = .next v ∧ v = met v ∧
          v.cpls = s.cpls ++ [(.success, s.devBytes pa n)]) ∧
        (s.eccLost pa n = true → ∃ v, exec (.hostWindowAccess part off (.read n)) s = .next v ∧ v = met v ∧
          v.cpls = s.cpls ++ [(.abort, [])])) ∧
      (∀ n c, packetOk off n = true → va % 128 + n ≤ 128 → s.reach part va n true false = .error c → c ≠ 0x07 →
        ∃ v, exec (.hostWindowAccess part off (.read n)) s = .next v ∧ v = met v ∧ v.cpls = s.cpls ++ [(.unsupported, [])]) ∧
      (∀ bs pa, packetOk off bs.length = true → va % 128 + bs.length ≤ 128 → s.reach part va bs.length false true = .ok (.dev pa) →
        s.homeUp (.dev pa) = true → s.eccHits pa bs.length = [] → ∃ v, exec (.hostWindowAccess part off (.write bs)) s = .next v ∧
        (∀ a, v.devByte a = if pa ≤ a then bs.getD (a - pa) (s.devByte a) else s.devByte a) ∧ v.groups = s.groups ∧ v.cpls = s.cpls) ∧
      (∀ bs c, packetOk off bs.length = true → va % 128 + bs.length ≤ 128 → s.reach part va bs.length false true = .error c → c ≠ 0x07 →
        exec (.hostWindowAccess part off (.write bs)) s = .next s) ∧
      (∀ op pa, (let n := (hostOpOf op).1
        (n = 4 ∨ n = 8) ∧ off % n = 0 ∧ off + n ≤ 2 ^ 32 ∧ s.reach part va n true true = .ok (.dev pa) ∧ s.homeUp (.dev pa) = true ∧
          s.eccHits pa n = []) →
        let n := (hostOpOf op).1
        let old := ofBytes (s.devBytes pa n)
        let new := match op with
          | .fetchAdd _ x => old + x
          | .swap _ x => x
          | .cas _ c x => if old = c then x else old
        ∃ v, exec (.hostAtomicop part off op) s = .next v ∧ v.cpls = s.cpls ++ [(.success, toBytes n old)] ∧
          ∀ a, v.devByte a = if pa ≤ a ∧ a < pa + n then BitVec.ofNat 8 (new / 2 ^ (8 * (a - pa))) else s.devByte a))

/-- BUFADD, reports and register writes: a buffer goes to its class, a report carries fields of R404 and its bytes reach host
memory, a request of the PF waits for the leader, each register keeps its defined bits (R210, R212, R367, R393, R396, R397,
R400, R401, R404). Its model choices: log entries 18 (an MSI-X entry before it is written, and its address), 33, 35 and 37. -/
def Obligations.HostWritesRegisters : Prop :=
  ∀ (s : State) (part : Nat) (P : Part), s.Unfocused → part ≠ nobody → s.parts.find part = some P → s.hostReach part = true →
    (∀ v : BitVec 64,
      let c := v.toNat % 8
      let base := v.toNat / 2 ^ 16 % 2 ^ 41 * 2 ^ 16
      (c ≤ 4 → P.refused base (classSize c) = false → exec (.bufadd part v) s = .next
        { s with parts := s.parts.ins part { P with free := P.free.set c (P.free.getD c [] ++ [base]) } }) ∧
      (4 < c ∨ P.refused base (classSize c) = true → exec (.bufadd part v) s = .next s)) ∧
    (∀ boot, P.attgo ≠ 1 → s.akey = some boot → P.attn.length = 8 → ∃ v P' r, exec (.attgo part 1) s = .next v ∧
      v.parts.find part = some P' ∧ P' = { P with attgo := 1, attref := false, report := some (P.attaddr.toNat, r) } ∧ v = { s with parts := v.parts } ∧
      r.length = 0x100A0 ∧ r.take 4 = toBytes 4 0x41545201 ∧ (r.drop 4).take 4 = toBytes 4 s.const.devid ∧
      (r.drop 0x0C).take 4 = toBytes 4 (part % 16) ∧ (r.drop 0x90).take 0x20 = P.attn.flatMap (fun w => toBytes 4 w.toNat) ∧
      (r.drop 0xE0).take 0x10 = List.replicate 16 0) ∧
    (P.attgo ≠ 1 → s.akey = none → exec (.attgo part 1) s = .next { s with parts := s.parts.ins part { P with attgo := 2, attref := true } }) ∧
    (∀ v, P.attgo ≠ 1 → v ≠ 1 → exec (.attgo part v) s = .next
      (if P.attref then s else { s with parts := s.parts.ins part { P with attgo := v.toNat } })) ∧
    (P.attgo = 1 → ∀ v, exec (.attgo part v) s = .next s) ∧
    (∀ a bs, P.report = some (a, bs) → P.attgo = 1 → ∃ v, exec (.reportWritten part) s = .next v ∧
      v.parts.find part = some { P with attgo := 0, report := none } ∧ v.mem = s.mem ∧
      ∀ link ba, ba < 2 ^ 64 → a + bs.length ≤ 2 ^ 64 → v.hostByte link ba = if link = P.link ∧ a ≤ ba then bs.getD (ba - a) (s.hostByte link ba) else s.hostByte link ba) ∧
    (∀ v : BitVec 64,
      let held (d : Decision) : State := { s with fw := { s.fw with held := s.fw.held ++ [d] } }
      let set (Q : Part) : State := { s with parts := s.parts.ins part Q }
      exec (.pctlWrite part v) s = .next (held (.pctl part v)) ∧
      exec (.registerWrite (.pfPtroot part) v) s = .next (held (.ptroot part v)) ∧
      exec (.registerWrite (.pfPxctl part) v) s = .next (held (.pxctl part v)) ∧
      exec (.registerWrite (.pfSendTimeout part) v) s = .next (held (.sendTimeout part v.toNat)) ∧
      (∀ off, exec (.registerWrite (.reserved off) v) s = .next s) ∧
      (∀ off, off % 8 = 0 → off + 8 ≤ 524288 → ∃ t, exec (.registerWrite (.loadWindow off) v) s = .next t ∧ t = { s with loadWin := t.loadWin } ∧
        ∀ i, Cells.read 0 t.loadWin i = if off ≤ i ∧ i < off + 8 then BitVec.ofNat 8 (v.toNat / 2 ^ (8 * (i - off))) else Cells.read 0 s.loadWin i) ∧
      exec (.registerWrite (.thandler part) v) s = .next (set { P with thandler := v &&& 0x01FF_FFFF_FFFF_FFC1#64 }) ∧
      exec (.registerWrite (.hwin part) v) s = .next (set { P with hwin := v &&& 0x01FF_FFFF_0000_0000#64 }) ∧
      exec (.registerWrite (.attaddr part) v) s = .next (set { P with attaddr := v }) ∧
      (∀ w, exec (.registerWrite (.attn part w) v) s = .next (set { P with attn := P.attn.set w (v.setWidth 32) })) ∧
      (P.tlbinv.getLsbD 0 = false → v.toNat / 4 % 4 ≠ 3 → ∃ t P', exec (.registerWrite (.tlbinv part) v) s = .next t ∧
        t.parts.find part = some P' ∧ P' = { P with tlbinv := v &&& 0x01FF_FFFF_FFFF_000D#64, invAt := P'.invAt } ∧ t.mem = s.mem) ∧
      (P.tlbinv.getLsbD 0 = true ∨ v.toNat / 4 % 4 = 3 → exec (.registerWrite (.tlbinv part) v) s = .next s) ∧
      ∀ e w, e < 64 → w < 4 →
        let old : MsixEntry := (P.msix.find e).getD ⟨0, 0, true, false⟩
        let n := v.toNat % 2 ^ 32
        let new : MsixEntry := match w with
          | 0 => { old with addr := old.addr / 2 ^ 32 * 2 ^ 32 + n / 4 * 4 }
          | 1 => { old with addr := n * 2 ^ 32 + old.addr % 2 ^ 32 }
          | 2 => { old with data := n }
          | _ => { old with mask := v.getLsbD 0 }
        (old.pend = false → exec (.registerWrite (.msixEntry part e w) v) s = .next (set { P with msix := P.msix.ins e new })) ∧
        (old.pend = true → new.mask = true → exec (.registerWrite (.msixEntry part e w) v) s = .next (set { P with msix := P.msix.ins e new })) ∧
        (old.pend = true → new.mask = false → exec (.registerWrite (.msixEntry part e w) v) s = .next
          { set { P with msix := P.msix.ins e { new with pend := false } } with sent := s.sent ++ [(P.link, part, new.addr, new.data)] }))
end

