-- ==== Sys2Proof/Laws/Table.lean ====
section
/-! SUPPORT. Laws of tables and of memory cells: read after write, and that every memory operation keeps the canonical form. -/

namespace Sys2Proof

/-! ## Tables -/

@[simp] theorem Tab.find_ins_same {α : Type} (j : Nat) (v : α) : ∀ t : Tab α, (Tab.ins j v t).find j = some v
  | [] => by simp [Tab.ins, Tab.find]
  | (k, w) :: t => by
    unfold Tab.ins
    split
    · simp [Tab.find]
    · split
      · simp [Tab.find]
      · rename_i h; simp [Tab.find, h, Tab.find_ins_same j v t]

theorem Tab.find_ins_other {α : Type} {i j : Nat} (v : α) (h : i ≠ j) : ∀ t : Tab α, (Tab.ins j v t).find i = t.find i
  | [] => by simp [Tab.ins, Tab.find, Ne.symm h]
  | (k, w) :: t => by
    unfold Tab.ins
    split
    · simp [Tab.find, Ne.symm h]
    · split
      · rename_i h2; subst h2; simp [Tab.find, Ne.symm h]
      · simp only [Tab.find, Tab.find_ins_other v h t]

theorem Tab.find_ins {α : Type} (i j : Nat) (v : α) (t : Tab α) :
    (Tab.ins j v t).find i = if i = j then some v else t.find i := by
  by_cases h : i = j
  · subst h; simp
  · simp [h, Tab.find_ins_other v h t]

theorem Tab.find_del {α : Type} (i j : Nat) : ∀ t : Tab α, (Tab.del j t).find i = if i = j then none else t.find i
  | [] => by simp [Tab.del, Tab.find]
  | (k, w) :: t => by
    unfold Tab.del
    by_cases hk : k = j
    · subst hk; rw [if_pos rfl, Tab.find_del i k t]
      by_cases hi : i = k
      · simp [hi]
      · simp [hi, Tab.find, Ne.symm hi]
    · rw [if_neg hk]
      by_cases hi : i = j
      · subst hi; simp [Tab.find, hk, Tab.find_del i i t]
      · simp [Tab.find, hi, Tab.find_del i j t]

theorem Tab.find_upd {α : Type} (i j : Nat) (f : α → α) (t : Tab α) :
    (Tab.upd j f t).find i = if i = j then (t.find j).map f else t.find i := by
  unfold Tab.upd
  cases h : t.find j with
  | none => by_cases hi : i = j <;> simp [hi, h]
  | some v => simp only [Tab.find_ins, Option.map_some]

theorem Tab.find_mapAll {α : Type} (i : Nat) (f : Nat → α → α) :
    ∀ t : Tab α, (Tab.mapAll f t).find i = (t.find i).map (f i)
  | [] => by simp [Tab.mapAll, Tab.find]
  | (k, w) :: t => by
    have ih := Tab.find_mapAll i f t
    unfold Tab.mapAll at ih ⊢
    simp only [List.map_cons, Tab.find]
    by_cases h : k = i
    · subst h; simp
    · simp [h, ih]

/-- Leaving out entries by their keys does not change what a kept key finds. -/
theorem Tab.find_filter_key {α : Type} (i : Nat) (p : Nat → Bool) (hp : p i = true) :
    ∀ t : Tab α, Tab.find (List.filter (fun x => p x.1) t) i = t.find i
  | [] => by simp [Tab.find]
  | (k, w) :: t => by
    have ih := Tab.find_filter_key i p hp t
    by_cases hk : p k = true
    · simp only [List.filter, hk, Tab.find, ih]
    · have hne : k ≠ i := fun h => hk (h ▸ hp)
      simp only [List.filter, hk, Tab.find, ih, hne, if_false]

/-! ## Rising keys -/

/-- Every key is at least n. -/
def Tab.from_ {α : Type} (n : Nat) (t : Tab α) : Prop := ∀ x ∈ t, n ≤ x.1

theorem Tab.sorted_cons {α : Type} (k : Nat) (w : α) (t : Tab α) :
    Tab.sorted ((k, w) :: t) = true ↔ Tab.sorted t = true ∧ Tab.from_ (k + 1) t := by
  induction t generalizing k w with
  | nil => simp [Tab.sorted, Tab.from_]
  | cons x t ih =>
    obtain ⟨j, v⟩ := x
    simp only [Tab.sorted, Bool.and_eq_true, decide_eq_true_eq, Tab.from_, List.mem_cons, forall_eq_or_imp]
    constructor
    · rintro ⟨h1, h2⟩
      refine ⟨h2, h1, fun y hy => ?_⟩
      have := ((ih j v).1 h2).2 y hy
      omega
    · rintro ⟨h1, h2, _⟩
      exact ⟨h2, h1⟩

theorem Tab.from_ins {α : Type} {n j : Nat} (v : α) (h : n ≤ j) : ∀ t : Tab α, Tab.from_ n t → Tab.from_ n (Tab.ins j v t)
  | [], _ => by simpa [Tab.ins, Tab.from_] using h
  | (k, w) :: t, ht => by
    have hk : n ≤ k := ht (k, w) (by simp)
    have htl : Tab.from_ n t := fun x hx => ht x (by simp [hx])
    unfold Tab.ins
    split
    · intro x hx
      simp only [List.mem_cons] at hx
      rcases hx with rfl | rfl | hx
      · exact h
      · exact hk
      · exact htl x hx
    · split
      · intro x hx
        simp only [List.mem_cons] at hx
        rcases hx with rfl | hx
        · exact h
        · exact htl x hx
      · intro x hx
        simp only [List.mem_cons] at hx
        rcases hx with rfl | hx
        · exact hk
        · exact Tab.from_ins v h t htl x hx

theorem Tab.sorted_ins {α : Type} (j : Nat) (v : α) : ∀ t : Tab α, t.sorted = true → (Tab.ins j v t).sorted = true
  | [], _ => rfl
  | (k, w) :: t, ht => by
    have h := (Tab.sorted_cons k w t).1 ht
    unfold Tab.ins
    split
    · rename_i hjk
      refine (Tab.sorted_cons j v _).2 ⟨ht, ?_⟩
      intro x hx
      simp only [List.mem_cons] at hx
      rcases hx with rfl | hx
      · exact hjk
      · have := h.2 x hx; omega
    · split
      · rename_i _ hkj; subst hkj
        exact (Tab.sorted_cons k v t).2 h
      · rename_i h1 h2
        exact (Tab.sorted_cons k w _).2 ⟨Tab.sorted_ins j v t h.1, Tab.from_ins v (by omega) t h.2⟩

theorem Tab.mem_del {α : Type} (j : Nat) : ∀ (t : Tab α) (x : Nat × α), x ∈ Tab.del j t → x ∈ t
  | [], _, h => h
  | (k, w) :: t, x, h => by
    unfold Tab.del at h
    split at h
    · exact List.mem_cons_of_mem _ (Tab.mem_del j t x h)
    · rcases List.mem_cons.1 h with rfl | h
      · simp
      · exact List.mem_cons_of_mem _ (Tab.mem_del j t x h)

theorem Tab.sorted_del {α : Type} (j : Nat) : ∀ t : Tab α, t.sorted = true → (Tab.del j t).sorted = true
  | [], _ => rfl
  | (k, w) :: t, ht => by
    have h := (Tab.sorted_cons k w t).1 ht
    unfold Tab.del
    split
    · exact Tab.sorted_del j t h.1
    · exact (Tab.sorted_cons k w _).2 ⟨Tab.sorted_del j t h.1, fun x hx => h.2 x (Tab.mem_del j t x hx)⟩

theorem Tab.sorted_filter {α : Type} (p : Nat × α → Bool) : ∀ t : Tab α, t.sorted = true → Tab.sorted (List.filter p t) = true
  | [], _ => rfl
  | (k, w) :: t, ht => by
    have h := (Tab.sorted_cons k w t).1 ht
    by_cases hp : p (k, w) = true
    · rw [List.filter_cons_of_pos hp]
      exact (Tab.sorted_cons k w _).2 ⟨Tab.sorted_filter p t h.1, fun x hx => h.2 x (List.mem_filter.1 hx).1⟩
    · rw [List.filter_cons_of_neg hp]
      exact Tab.sorted_filter p t h.1

/-! ## Memory cells -/

@[simp] theorem Cells.read_nil (d : Byte) (a : Nat) : Cells.read d [] a = d := rfl

/-- Read after write. -/
theorem Cells.read_write (d : Byte) (m : Tab Byte) (a i : Nat) (b : Byte) :
    Cells.read d (Cells.write d m a b) i = if i = a then b else Cells.read d m i := by
  unfold Cells.read Cells.write
  by_cases hb : b = d
  · rw [if_pos hb, Tab.find_del]
    by_cases hi : i = a <;> simp [hi, hb]
  · rw [if_neg hb, Tab.find_ins]
    by_cases hi : i = a <;> simp [hi]

theorem Cells.read_writes (d : Byte) : ∀ (bs : List Byte) (m : Tab Byte) (a i : Nat),
    Cells.read d (Cells.writes d m a bs) i = if a ≤ i ∧ i < a + bs.length then bs.getD (i - a) d else Cells.read d m i
  | [], m, a, i => by
    have h : ¬(a ≤ i ∧ i < a) := by omega
    simp [Cells.writes, h]
  | b :: bs, m, a, i => by
    rw [Cells.writes, Cells.read_writes d bs, Cells.read_write, List.length_cons]
    by_cases h : i = a
    · subst h
      rw [if_neg (by omega), if_pos rfl, if_pos (by omega)]
      simp
    · by_cases h2 : a ≤ i ∧ i < a + (bs.length + 1)
      · rw [if_pos h2, if_pos (by omega), show i - a = (i - (a + 1)) + 1 by omega]
        simp
      · rw [if_neg h2, if_neg (by omega), if_neg h]

theorem Cells.wf_iff (d : Byte) (m : Tab Byte) : Cells.wf d m = true ↔ m.sorted = true ∧ ∀ x ∈ m, x.2 ≠ d := by
  simp [Cells.wf, List.all_eq_true]

@[simp] theorem Cells.wf_nil (d : Byte) : Cells.wf d [] = true := rfl

theorem Tab.mem_ins {α : Type} (j : Nat) (v : α) : ∀ (t : Tab α) (x : Nat × α), x ∈ Tab.ins j v t → x = (j, v) ∨ x ∈ t
  | [], x, h => by simpa [Tab.ins] using h
  | (k, w) :: t, x, h => by
    unfold Tab.ins at h
    split at h
    · rcases List.mem_cons.1 h with rfl | h
      · exact .inl rfl
      · exact .inr h
    · split at h
      · rcases List.mem_cons.1 h with rfl | h
        · exact .inl rfl
        · exact .inr (List.mem_cons_of_mem _ h)
      · rcases List.mem_cons.1 h with rfl | h
        · exact .inr (by simp)
        · rcases Tab.mem_ins j v t x h with h | h
          · exact .inl h
          · exact .inr (List.mem_cons_of_mem _ h)

/-- A byte written keeps the canonical form. -/
theorem Cells.wf_write (d : Byte) (m : Tab Byte) (a : Nat) (b : Byte) (h : Cells.wf d m = true) :
    Cells.wf d (Cells.write d m a b) = true := by
  have hm := (Cells.wf_iff d m).1 h
  unfold Cells.write
  split
  · exact (Cells.wf_iff d _).2 ⟨Tab.sorted_del a m hm.1, fun x hx => hm.2 x (Tab.mem_del a m x hx)⟩
  · rename_i hb
    refine (Cells.wf_iff d _).2 ⟨Tab.sorted_ins a b m hm.1, fun x hx => ?_⟩
    rcases Tab.mem_ins a b m x hx with rfl | hx
    · exact hb
    · exact hm.2 x hx

theorem Cells.wf_writes (d : Byte) : ∀ (bs : List Byte) (m : Tab Byte) (a : Nat), Cells.wf d m = true →
    Cells.wf d (Cells.writes d m a bs) = true
  | [], _, _, h => h
  | b :: bs, m, a, h => Cells.wf_writes d bs _ _ (Cells.wf_write d m a b h)

theorem Cells.wf_filter (d : Byte) (m : Tab Byte) (p : Nat × Byte → Bool) (h : Cells.wf d m = true) :
    Cells.wf d (List.filter p m) = true := by
  have hm := (Cells.wf_iff d m).1 h
  exact (Cells.wf_iff d _).2 ⟨Tab.sorted_filter p m hm.1, fun x hx => hm.2 x (List.mem_filter.1 hx).1⟩

/-! ## Lists -/

theorem tab_getD {α : Type} (n : Nat) (f : Nat → α) (i : Nat) (d : α) : (tab n f).getD i d = if i < n then f i else d := by
  unfold tab
  by_cases h : i < n
  · simp [h, List.getD]
  · simp [h, List.getD]

@[simp] theorem tab_length {α : Type} (n : Nat) (f : Nat → α) : (tab n f).length = n := by simp [tab]

end Sys2Proof
end

