-- ==== Sys2Proof/Laws/Registers.lean ====
section
/-! SUPPORT. Laws of the register accessors: what writing a v name, an s name or a predicate does, and that it does nothing
else. -/

namespace Sys2Proof.Machine

/-! ## Outstanding writes are not lost by a write (R144) -/

theorem spoil_any (l : List Flight) (isS bank : Bool) (r n : Nat) (p : Flight → Bool)
    (hp : ∀ f x, p { f with spoiled := x } = p f) : (spoil l isS bank r n).any p = l.any p := by
  unfold spoil
  induction l with
  | nil => rfl
  | cons f l ih =>
    simp only [List.map_cons, List.any_cons, ih]
    congr 1
    by_cases h : (f.bank == bank && (if isS = true then f.dest.sNames else f.dest.vNames).contains r) = true
    · rw [if_pos h]; exact hp f _
    · rw [if_neg h]
theorem spoil_seq (l : List Flight) (isS bank : Bool) (r n : Nat) : (spoil l isS bank r n).map (·.seq) = l.map (·.seq) := by
  unfold spoil
  rw [List.map_map]
  apply List.map_congr_left
  intro f _
  simp only [Function.comp]
  by_cases h : (f.bank == bank && (if isS = true then f.dest.sNames else f.dest.vNames).contains r) = true
  · rw [if_pos h]
  · rw [if_neg h]
theorem spoil_hold (l : List Flight) (isS bank : Bool) (r n : Nat) : (spoil l isS bank r n).map (·.hold) = l.map (·.hold) := by
  unfold spoil
  rw [List.map_map]
  apply List.map_congr_left
  intro f _
  simp only [Function.comp]
  by_cases h : (f.bank == bank && (if isS = true then f.dest.sNames else f.dest.vNames).contains r) = true
  · rw [if_pos h]
  · rw [if_neg h]

/-! ## A write of one v name -/

/-- The group after its v registers were written: the names `ws` aside, nothing reads otherwise. -/
structure VOnly (s t : State) (ws : List Nat) : Prop where
  rest : t = { s with cg := t.cg }
  cg : t.cg = { s.cg with vmap := t.cg.vmap, phys := t.cg.phys, handler := t.cg.handler, out := t.cg.out, rescued := t.cg.rescued, base := t.cg.base }
  hand : (s.cg.handler = none ∧ t.cg.handler = none) ∨
    (∃ h v, s.cg.handler = some h ∧ t.cg.handler = some { h with v := v } ∧ v.length = h.v.length)
  prog : s.cg.inH = true → t.cg.vmap = s.cg.vmap ∧ t.cg.phys = s.cg.phys
  seqs : t.cg.out.map (·.seq) = s.cg.out.map (·.seq)
  holds : t.cg.out.map (·.hold) = s.cg.out.map (·.hold)
  pv : ∀ r, t.cg.pendV r = s.cg.pendV r
  ps : ∀ r, t.cg.pendS r = s.cg.pendS r
  map : ∀ r, r ∉ ws → t.cg.mapOf r = s.cg.mapOf r
  val : ∀ r, r ∉ ws → s.cg.undefV r = false → t.cg.undefV r = false ∧ ∀ l, t.rdV r l = s.rdV r l

theorem VOnly.inH {s t : State} {ws : List Nat} (h : VOnly s t ws) : t.cg.inH = s.cg.inH := by
  unfold Group.inH
  rcases h.hand with ⟨a, b⟩ | ⟨x, v, a, b, _⟩ <;> rw [a, b] <;> rfl

theorem VOnly.refl (s : State) : VOnly s s [] :=
  ⟨rfl, rfl, by
    cases h : s.cg.handler with
    | none => exact .inl ⟨rfl, rfl⟩
    | some x => exact .inr ⟨x, x.v, rfl, rfl, rfl⟩,
   fun _ => ⟨rfl, rfl⟩, rfl, rfl, fun _ => rfl, fun _ => rfl, fun _ _ => rfl, fun _ _ h => ⟨h, fun _ => rfl⟩⟩

theorem VOnly.trans {s t u : State} {xs ys : List Nat} (h : VOnly s t xs) (k : VOnly t u ys) : VOnly s u (xs ++ ys) where
  rest := by rw [k.rest, h.rest]
  cg := by rw [k.cg, h.cg]
  hand := by
    rcases h.hand with ⟨a, b⟩ | ⟨x, v, a, b, c⟩ <;> rcases k.hand with ⟨d, e⟩ | ⟨y, w, d, e, f⟩
    · exact .inl ⟨a, e⟩
    · rw [b] at d; cases d
    · rw [b] at d; cases d
    · rw [b] at d
      cases d
      exact .inr ⟨x, w, a, e, by simpa [c] using f⟩
  prog := fun hh => by
    have h1 := h.prog hh
    have h2 := k.prog (by rw [h.inH]; exact hh)
    exact ⟨h2.1.trans h1.1, h2.2.trans h1.2⟩
  seqs := k.seqs.trans h.seqs
  holds := k.holds.trans h.holds
  pv := fun r => (k.pv r).trans (h.pv r)
  ps := fun r => (k.ps r).trans (h.ps r)
  map := fun r hr => (k.map r (fun x => hr (by simp [x]))).trans (h.map r (fun x => hr (by simp [x])))
  val := fun r hr hu => by
    have h1 := h.val r (fun x => hr (by simp [x])) hu
    have h2 := k.val r (fun x => hr (by simp [x])) h1.1
    exact ⟨h2.1, fun l => (h2.2 l).trans (h1.2 l)⟩

theorem regNo_inj {r q j k : Nat} (hr : r < 64) (hq : q < 64) (h : regNo r j = regNo q k) : r = q ∧ j = k := by
  unfold regNo at h
  omega
theorem mapOf_some {g : Group} {r p : Nat} (h : g.mapOf r = some p) : r < 64 ∧ p % 64 = r := by
  unfold Group.mapOf at h
  by_cases hr : r < 64
  · refine ⟨hr, ?_⟩
    rcases hx : (g.vmap[r]?).getD none with _ | k
    · rw [hx] at h; cases h
    · rw [hx] at h
      simp only [Option.map_some, Option.some.injEq, regNo] at h
      omega
  · have : g.vmap[r]? = none := by simp; omega
    rw [this] at h; cases h
/-- Two names never share a register (R135). -/
theorem mapOf_inj {g k : Group} {r q p : Nat} (h : g.mapOf r = some p) (h2 : k.mapOf q = some p) : r = q := by
  have a := mapOf_some h
  have b := mapOf_some h2
  omega

theorem handler_none {g : Group} (h : g.inH = false) : g.handler = none := by
  unfold Group.inH at h
  cases hh : g.handler with
  | none => rfl
  | some x => rw [hh] at h; cases h

theorem allocV_only (s : State) (r : Nat) (hr : r < 64) (hh : s.cg.inH = false) : VOnly s (s.allocV r) [r] := by
  have hn := handler_none hh
  have hm : ∀ q, q ∉ [r] → (s.allocV r).cg.mapOf q = s.cg.mapOf q := by
    intro q hq
    have hne : r ≠ q := fun e => hq (by simp [e])
    simp only [State.allocV, Group.mapOf, Vector.getElem?_setIfInBounds_ne hne]
  have hpv : ∀ q, (s.allocV r).cg.pendV q = s.cg.pendV q := fun _ => rfl
  refine ⟨rfl, rfl, .inl ⟨hn, hn⟩, (fun h => by rw [hh] at h; cases h), rfl, rfl, hpv, fun _ => rfl, hm, ?_⟩
  intro q hq hu
  have hq2 := hm q hq
  have hu2 : (s.allocV r).cg.undefV q = false := by
    unfold Group.undefV at hu ⊢
    rw [hpv, hq2]
    exact hu
  refine ⟨hu2, fun l => ?_⟩
  have hn2 : (s.allocV r).cg.handler = none := hn
  unfold State.rdV
  rw [hu, hu2, hn, hn2, hq2]
  simp only [Bool.false_eq_true, if_false]
  cases hp : s.cg.mapOf q with
  | none => rfl
  | some p =>
    have hb := mapOf_some hp
    have hne : p ≠ regNo r s.cg.freshPhys := by
      intro e
      have : r ≠ q := fun e => hq (by simp [e])
      unfold regNo at e; omega
    simp only [Option.bind_some, State.allocV, Tab.find_ins_other _ hne]
theorem allocV_mapOf (s : State) (r : Nat) (hr : r < 64) : (s.allocV r).cg.mapOf r = some (regNo r s.cg.freshPhys) := by
  simp only [State.allocV, Group.mapOf, Vector.getElem?_setIfInBounds_self, hr, if_true, Option.getD_some, Option.map_some]

theorem VOnly.mono {s t : State} {xs ys : List Nat} (h : VOnly s t xs) (sub : ∀ r, r ∈ xs → r ∈ ys) : VOnly s t ys :=
  { h with
    map := fun r hr => h.map r fun x => hr (sub r x)
    val := fun r hr => h.val r fun x => hr (sub r x) }

theorem readyV_only (s : State) (r : Nat) (hr : r < 64) : VOnly s (s.readyV r) [r] := by
  unfold State.readyV
  split
  · rename_i h
    simp only [Bool.and_eq_true, Bool.not_eq_true'] at h
    exact allocV_only s r hr h.1
  · exact (VOnly.refl s).mono (by simp)
/-- After `readyV` a name outside the handler has a register. -/
theorem readyV_mapOf (s : State) (r : Nat) (hr : r < 64) (hh : s.cg.inH = false) : ((s.readyV r).cg.mapOf r).isSome = true := by
  unfold State.readyV
  split
  · rw [allocV_mapOf s r hr]; rfl
  · rename_i h
    simp only [hh, Bool.not_false, Bool.true_and, Bool.or_eq_true, not_or, Option.isNone_iff_eq_none] at h
    cases hm : s.cg.mapOf r with
    | none => exact absurd hm h.1
    | some p => rfl
/-- A name whose register nothing keeps stays on it. -/
theorem readyV_same (s : State) (r : Nat) (hm : s.cg.inH = false → (s.cg.mapOf r).isSome = true) (hk : s.cg.kept r = false) :
    s.readyV r = s := by
  unfold State.readyV
  rw [if_neg]
  simp only [Bool.and_eq_true, Bool.not_eq_true', Bool.or_eq_true, hk, not_and]
  intro hh
  have := hm hh
  cases h : s.cg.mapOf r with
  | none => rw [h] at this; cases this
  | some p => simp

/-- A defined v name outside the handler reads its physical register. -/
theorem rdV_out (t : State) (q l : Nat) (hu : t.cg.undefV q = false) (hh : t.cg.handler = none) :
    t.rdV q l = (((t.cg.mapOf q).bind fun p => t.cg.phys.find p).getD []).getD l 0 := by
  unfold State.rdV
  rw [hu, hh]
  rfl

theorem rdV_phys (s : State) (P : Tab (List Word)) (q l : Nat) (hu : s.cg.undefV q = false) (hh : s.cg.handler = none) :
    State.rdV { s with cg := { s.cg with phys := P } } q l = (((s.cg.mapOf q).bind fun p => P.find p).getD []).getD l 0 :=
  rdV_out { s with cg := { s.cg with phys := P } } q l hu hh

/-- A register's lanes are set, and nothing else of the group. -/
theorem putVRaw_only (s : State) (r : Nat) (lanes : Nat → Bool) (v : Nat → Word) :
    VOnly s { s with cg := s.cg.putVRaw r lanes v } [r] := by
  cases hh : s.cg.handler with
  | some h =>
    have e : s.cg.putVRaw r lanes v = { s.cg with handler := some { h with
        v := h.v.set r (tab s.cg.width fun l => if lanes l then v l else (h.v.getD r []).getD l 0) } } := by
      simp only [Group.putVRaw, hh]
    rw [e]
    refine ⟨rfl, rfl, .inr ⟨h, _, hh, rfl, by simp⟩, fun _ => ⟨rfl, rfl⟩, rfl, rfl, ?_, ?_, fun _ _ => rfl, ?_⟩
    · intro q; simp only [Group.pendV, Group.inH, hh, Option.isSome_some]
    · intro q; simp only [Group.pendS, Group.inH, hh, Option.isSome_some]
    · intro q hq hu
      have hne : r ≠ q := fun e => hq (by simp [e])
      simp only [Group.undefV, Group.pendV, Group.inH, hh, Option.isSome_some, State.rdV] at hu ⊢
      refine ⟨hu, fun l => ?_⟩
      simp only [Bool.not_true, Bool.false_and, Bool.or_false] at hu ⊢
      simp only [hu, List.getD_eq_getElem?_getD, List.getElem?_set_ne hne]
      rfl
  | none =>
    have hi : s.cg.inH = false := by simp [Group.inH, hh]
    cases hm : s.cg.mapOf r with
    | none =>
      have e : s.cg.putVRaw r lanes v = s.cg := by simp only [Group.putVRaw, hh, hm]
      rw [e]
      exact (VOnly.refl s).mono (by simp)
    | some p =>
      have e : s.cg.putVRaw r lanes v = { s.cg with phys := s.cg.phys.ins p (tab s.cg.width fun l => if lanes l then v l else ((s.cg.phys.find p).getD []).getD l 0) } := by
        simp only [Group.putVRaw, hh, hm]
      rw [e]
      refine ⟨rfl, rfl, .inl ⟨hh, hh⟩, (fun h => by rw [hi] at h; cases h), rfl, rfl, fun _ => rfl, fun _ => rfl, fun _ _ => rfl, ?_⟩
      intro q hq hu
      have hne : r ≠ q := fun e => hq (by simp [e])
      refine ⟨hu, fun l => ?_⟩
      rw [rdV_out s q l hu hh]
      rw [rdV_phys s _ q l hu hh]
      cases hp : s.cg.mapOf q with
      | none => rfl
      | some k =>
        have : k ≠ p := fun e => hne (mapOf_inj hm (e ▸ hp))
        simp only [Option.bind_some, Tab.find_ins_other _ this]
/-- What a register's lanes read after they were set. -/
theorem putVRaw_rd (s : State) (r : Nat) (lanes : Nat → Bool) (v : Nat → Word) (hu : s.cg.undefV r = false)
    (hv : s.cg.hasV [r] = true) (l : Nat) (hl : l < s.cg.width) :
    State.rdV { s with cg := s.cg.putVRaw r lanes v } r l = if lanes l then v l else s.rdV r l := by
  cases hh : s.cg.handler with
  | some h =>
    have e : s.cg.putVRaw r lanes v = { s.cg with handler := some { h with
        v := h.v.set r (tab s.cg.width fun l => if lanes l then v l else (h.v.getD r []).getD l 0) } } := by
      simp only [Group.putVRaw, hh]
    have hlen : r < h.v.length := by
      simp only [Group.hasV, hh, List.all_cons, List.all_nil, Bool.and_true, Bool.and_eq_true, decide_eq_true_eq] at hv
      exact hv.2
    rw [e]
    simp only [Group.undefV, Group.pendV, Group.inH, hh, Option.isSome_some, State.rdV, Bool.not_true, Bool.false_and,
      Bool.or_false] at hu ⊢
    simp only [hu, List.getD_eq_getElem?_getD, List.getElem?_set_self hlen, Option.getD_some]
    have := tab_getD s.cg.width (fun l => if lanes l = true then v l else (h.v[r]?.getD [])[l]?.getD 0) l 0
    simp only [List.getD_eq_getElem?_getD, hl, if_true] at this
    simpa using this
  | none =>
    have hi : s.cg.inH = false := by simp [Group.inH, hh]
    cases hm : s.cg.mapOf r with
    | none => simp [Group.undefV, hm, hi] at hu
    | some p =>
      have e : s.cg.putVRaw r lanes v = { s.cg with phys := s.cg.phys.ins p (tab s.cg.width fun l => if lanes l then v l else ((s.cg.phys.find p).getD []).getD l 0) } := by
        simp only [Group.putVRaw, hh, hm]
      rw [e]
      rw [rdV_phys s _ r l hu hh, rdV_out s r l hu hh, hm]
      simp only [Option.bind_some, Tab.find_ins_same, Option.getD_some, tab_getD, hl, if_true]
theorem putVRaw_undef (s : State) (r q : Nat) (lanes : Nat → Bool) (v : Nat → Word) :
    (s.cg.putVRaw r lanes v).undefV q = s.cg.undefV q := by
  unfold Group.putVRaw
  split
  · rename_i h hh; simp only [Group.undefV, Group.pendV, Group.inH, hh, Option.isSome_some, Group.mapOf]
  · split <;> rfl

/-- A spoiled outstanding write changes nothing that reads. -/
theorem spoil_only (s : State) (r : Nat) :
    VOnly s { s with cg := { s.cg with out := spoil s.cg.out false s.cg.inH r s.cg.seq } } [] := by
  have hp : ∀ q, Group.pendV { s.cg with out := spoil s.cg.out false s.cg.inH r s.cg.seq } q = s.cg.pendV q :=
    fun q => spoil_any _ _ _ _ _ _ fun _ _ => rfl
  have hs : ∀ q, Group.pendS { s.cg with out := spoil s.cg.out false s.cg.inH r s.cg.seq } q = s.cg.pendS q :=
    fun q => spoil_any _ _ _ _ _ _ fun _ _ => rfl
  have hu : ∀ q, Group.undefV { s.cg with out := spoil s.cg.out false s.cg.inH r s.cg.seq } q = s.cg.undefV q := fun q => by
    simp only [Group.undefV, hp]; rfl
  refine ⟨rfl, rfl, ?_, fun _ => ⟨rfl, rfl⟩, spoil_seq _ _ _ _ _, spoil_hold _ _ _ _ _, hp, hs, fun _ _ => rfl, fun q _ h => ⟨(hu q).trans h, fun l => ?_⟩⟩
  · cases h : s.cg.handler with
    | none => exact .inl ⟨rfl, rfl⟩
    | some x => exact .inr ⟨x, x.v, rfl, rfl, rfl⟩
  · unfold State.rdV; rw [hu]; rfl
theorem spoilV_only (s : State) (r : Nat) (had : Option Nat) : VOnly s (s.spoilV r had) [] := by
  unfold State.spoilV
  split
  · exact spoil_only s r
  · exact VOnly.refl s

/-- A write of a v name: the name aside, nothing reads otherwise (R136, R144). -/
theorem wrV_only (s : State) (r : Nat) (lanes : Nat → Bool) (v : Nat → Word) (hr : r < 64) : VOnly s (s.wrV r lanes v) [r] := by
  have h1 := readyV_only s r hr
  unfold State.wrV
  simp only []
  split
  · have h2 := putVRaw_only (s.readyV r) r (fun _ => true) fun l => s.freeWord (12288 + r * 64 + l)
    exact ((h1.trans h2).trans (spoilV_only _ r _)).mono (by simp)
  · exact (h1.trans (putVRaw_only (s.readyV r) r lanes v)).mono (by simp)
/-- What the name reads after the write (R136). -/
theorem wrV_rd (s : State) (r : Nat) (lanes : Nat → Bool) (v : Nat → Word) (hv : s.cg.hasV [r] = true)
    (hp : s.cg.pendV r = false) :
    (s.wrV r lanes v).cg.undefV r = false ∧ (∀ l, l < s.cg.width → lanes l = true → (s.wrV r lanes v).rdV r l = v l) ∧
    (s.cg.undefV r = false → s.cg.kept r = false → ∀ l, l < s.cg.width → lanes l = false →
      (s.wrV r lanes v).rdV r l = s.rdV r l) := by
  have hr : r < 64 := by
    simp only [Group.hasV, List.all_cons, List.all_nil, Bool.and_true, Bool.and_eq_true, decide_eq_true_eq] at hv
    exact hv.1
  have h1 := readyV_only s r hr
  have hp1 : (s.readyV r).cg.pendV r = false := (h1.pv r).trans hp
  have hu : (s.readyV r).cg.undefV r = false := by
    unfold Group.undefV
    rw [hp1, h1.inH]
    cases hh : s.cg.inH with
    | true => rfl
    | false =>
      have := readyV_mapOf s r hr hh
      cases hm : (s.readyV r).cg.mapOf r with
      | none => rw [hm] at this; cases this
      | some p => rfl
  have hv1 : (s.readyV r).cg.hasV [r] = true := by
    simp only [Group.hasV, List.all_cons, List.all_nil, Bool.and_true, Bool.and_eq_true, decide_eq_true_eq] at hv ⊢
    refine ⟨hr, ?_⟩
    rcases h1.hand with ⟨a, b⟩ | ⟨h, w, a, b, c⟩
    · rw [b]
    · rw [b]; rw [a] at hv; simpa [c] using hv.2
  have hw : (s.readyV r).cg.width = s.cg.width := by rw [h1.cg]
  have e : s.wrV r lanes v = { s.readyV r with cg := (s.readyV r).cg.putVRaw r lanes v } := by
    unfold State.wrV
    simp only [hp1, Bool.false_eq_true, if_false]
  rw [e]
  refine ⟨?_, ?_, ?_⟩
  · rw [← hu]; exact putVRaw_undef (s.readyV r) r r lanes v
  · intro l hl hx
    rw [putVRaw_rd _ r lanes v hu hv1 l (by rw [hw]; exact hl), hx]
    rfl
  · intro hu0 hk l hl hx
    rw [putVRaw_rd _ r lanes v hu hv1 l (by rw [hw]; exact hl), hx]
    simp only [Bool.false_eq_true, if_false]
    rw [readyV_same s r ?_ hk]
    intro hh
    unfold Group.undefV at hu0
    rw [hp, hh] at hu0
    cases hm : s.cg.mapOf r with
    | none => rw [hm] at hu0; cases hu0
    | some p => rfl

/-! ## Several names -/

theorem VOnly.hasV {s t : State} {ws : List Nat} (h : VOnly s t ws) (ns : List Nat) : t.cg.hasV ns = s.cg.hasV ns := by
  unfold Group.hasV
  congr 1
  funext r
  rcases h.hand with ⟨a, b⟩ | ⟨x, v, a, b, c⟩
  · rw [a, b]
  · rw [a, b]; simp only [c]
theorem hasV_mem {g : Group} {ns : List Nat} (h : g.hasV ns = true) {r : Nat} (hr : r ∈ ns) : g.hasV [r] = true := by
  simp only [Group.hasV, List.all_eq_true] at h
  simp only [Group.hasV, List.all_cons, List.all_nil, Bool.and_true]
  exact h r hr
theorem hasV_lt {g : Group} {r : Nat} (h : g.hasV [r] = true) : r < 64 := by
  simp only [Group.hasV, List.all_cons, List.all_nil, Bool.and_true, Bool.and_eq_true, decide_eq_true_eq] at h
  exact h.1

/-- The words written to a list of names from place k on. -/
def putFrom (s : State) (ns : List (Nat × Nat)) (lanes : Nat → Bool) (f : Nat → Nat) : State :=
  ns.foldl (fun t ri => t.wrV ri.1 lanes fun l => wordOf ri.2 (f l)) s
theorem putFrom_only (lanes : Nat → Bool) (f : Nat → Nat) : ∀ (ns : List (Nat × Nat)) (s : State),
    s.cg.hasV (ns.map (·.1)) = true → VOnly s (putFrom s ns lanes f) (ns.map (·.1))
  | [], s, _ => VOnly.refl s
  | (r, i) :: ns, s, h => by
    have hr := hasV_lt (hasV_mem h (r := r) (by simp))
    have h1 := wrV_only s r lanes (fun l => wordOf i (f l)) hr
    have h2 := putFrom_only lanes f ns (s.wrV r lanes fun l => wordOf i (f l)) (by
      rw [h1.hasV]
      simp only [Group.hasV, List.all_eq_true] at h ⊢
      exact fun x hx => h x (by simp [hx]))
    exact (h1.trans h2).mono (by simp)

theorem holdPhys_eq {g k : Group} (h : g.out.map (·.hold) = k.out.map (·.hold)) : g.holdPhys = k.holdPhys := by
  have e : ∀ l : List Flight, (l.flatMap fun f => (f.hold.map Snap.phys).getD []) =
      (l.map fun f => f.hold).flatMap fun (x : Option Snap) => (x.map Snap.phys).getD [] := by
    intro l
    induction l with
    | nil => rfl
    | cons f l ih => simp only [List.flatMap_cons, List.map_cons, ih]
  unfold Group.holdPhys
  rw [e, e, h]

/-- Writing distinct names: each holds its word in the lanes written, and what it held in the others. -/
theorem putFrom_rd (lanes : Nat → Bool) (f : Nat → Nat) : ∀ (ns : List (Nat × Nat)) (s : State),
    s.cg.hasV (ns.map (·.1)) = true → (ns.map (·.1)).Nodup → ∀ ri ∈ ns, s.cg.pendV ri.1 = false →
    (putFrom s ns lanes f).cg.undefV ri.1 = false ∧
    (∀ l, l < s.cg.width → lanes l = true → (putFrom s ns lanes f).rdV ri.1 l = wordOf ri.2 (f l)) ∧
    (s.cg.undefV ri.1 = false → s.cg.kept ri.1 = false → ∀ l, l < s.cg.width → lanes l = false →
      (putFrom s ns lanes f).rdV ri.1 l = s.rdV ri.1 l)
  | [], _, _, _, _, h, _ => by cases h
  | (r, i) :: ns, s, h, nd, ri, hm, hp => by
    have hv := hasV_mem h (r := r) (by simp)
    have h1 := wrV_only s r lanes (fun l => wordOf i (f l)) (hasV_lt hv)
    have hw : (s.wrV r lanes fun l => wordOf i (f l)).cg.width = s.cg.width := by rw [h1.cg]
    have htl : (s.wrV r lanes fun l => wordOf i (f l)).cg.hasV (ns.map (·.1)) = true := by
      rw [h1.hasV]
      simp only [Group.hasV, List.all_eq_true] at h ⊢
      exact fun x hx => h x (by simp [hx])
    have nd2 := List.nodup_cons.1 (show (r :: ns.map (·.1)).Nodup from nd)
    have h2 := putFrom_only lanes f ns _ htl
    show (putFrom (s.wrV r lanes fun l => wordOf i (f l)) ns lanes f).cg.undefV ri.1 = false ∧ _
    by_cases hri : ri.1 = r
    · have hn : ri.1 ∉ ns.map (·.1) := hri ▸ nd2.1
      have hrd := wrV_rd s r lanes (fun l => wordOf i (f l)) hv (hri ▸ hp)
      have hval := h2.val ri.1 hn (hri ▸ hrd.1)
      have hi : ri.2 = i := by
        rcases List.mem_cons.1 hm with e | e
        · rw [e]
        · exact absurd (List.mem_map.2 ⟨ri, e, rfl⟩) hn
      refine ⟨hval.1, fun l hl hx => ?_, fun hu hk l hl hx => ?_⟩
      · refine (hval.2 l).trans ?_
        rw [hri, hi]; exact hrd.2.1 l hl hx
      · refine (hval.2 l).trans ?_
        rw [hri]; exact hrd.2.2 (hri ▸ hu) (hri ▸ hk) l hl hx
    · have hmem : ri ∈ ns := by
        rcases List.mem_cons.1 hm with e | e
        · exact absurd (by rw [e]) hri
        · exact e
      have ih := putFrom_rd lanes f ns _ htl nd2.2 ri hmem ((h1.pv ri.1).trans hp)
      refine ⟨ih.1, fun l hl hx => ih.2.1 l (by rw [hw]; exact hl) hx, fun hu hk l hl hx => ?_⟩
      have hne : ri.1 ∉ [r] := by simp [hri]
      have hv1 := h1.val ri.1 hne hu
      refine (ih.2.2 hv1.1 ?_ l (by rw [hw]; exact hl) hx).trans (hv1.2 l)
      have hmo := h1.map ri.1 hne
      unfold Group.kept at hk ⊢
      rw [hmo]
      have e1 : (s.wrV r lanes fun l => wordOf i (f l)).cg.snapPhys = s.cg.snapPhys := by unfold Group.snapPhys; rw [h1.cg]
      have e2 : (s.wrV r lanes fun l => wordOf i (f l)).cg.holdPhys = s.cg.holdPhys := by
        exact holdPhys_eq h1.holds
      rw [e1, e2]; exact hk

/-! ## Last uses (R137) -/

/-- A name's register is among those the group's names map to. -/
theorem mapOf_mem {g : Group} {r p : Nat} (h : g.mapOf r = some p) : p ∈ g.mapped := by
  have hb := mapOf_some h
  unfold Group.mapOf at h
  have e : g.vmap[r]? = some (g.vmap[r]'hb.1) := Vector.getElem?_eq_getElem hb.1
  rw [e, Option.getD_some] at h
  unfold Group.mapped regsOf
  refine List.mem_filterMap.2 ⟨(g.vmap[r]'hb.1, r), ?_, h⟩
  rw [List.mem_zipIdx_iff_getElem?]
  simp [hb.1]

/-- Freeing what nothing keeps does not touch a mapped register. -/
theorem collect_find {g : Group} {p : Nat} (h : p ∈ g.mapped) : g.collect.phys.find p = g.phys.find p := by
  unfold Group.collect
  have := Tab.find_filter_key (α := List Word) p (fun k => g.mapped.contains k || g.snapPhys.contains k ||
    g.holdPhys.contains k || g.out.any fun f => !f.drop && f.dest.phys.contains k) (by simp [h]) g.phys
  exact this

theorem unmap_mapOf (rs : List Nat) : ∀ (g : Group) (q : Nat),
    (rs.foldl (fun (h : Group) r => { h with vmap := h.vmap.setIfInBounds r none }) g).mapOf q =
      if q ∈ rs then none else g.mapOf q := by
  induction rs with
  | nil => intro g q; simp
  | cons r rs ih =>
    intro g q
    rw [List.foldl_cons, ih]
    by_cases hq : q ∈ rs
    · simp [hq]
    · by_cases hr : q = r
      · subst hr
        have : Group.mapOf { g with vmap := g.vmap.setIfInBounds q none } q = none := by
          unfold Group.mapOf
          by_cases h : q < 64 <;> simp [h]
        simp [hq, this]
      · have : Group.mapOf { g with vmap := g.vmap.setIfInBounds r none } q = g.mapOf q := by
          unfold Group.mapOf
          rw [Vector.getElem?_setIfInBounds_ne (Ne.symm hr)]
        simp [hq, hr, this]
theorem unmap_rest (rs : List Nat) : ∀ g : Group,
    rs.foldl (fun (h : Group) r => { h with vmap := h.vmap.setIfInBounds r none }) g =
      { g with vmap := (rs.foldl (fun (h : Group) r => { h with vmap := h.vmap.setIfInBounds r none }) g).vmap } := by
  induction rs with
  | nil => intro g; rfl
  | cons r rs ih => intro g; rw [List.foldl_cons, ih]

theorem freeV_only (s : State) (rs : List Nat) : VOnly s (s.freeV rs) rs := by
  unfold State.freeV
  cases hh : s.cg.inH with
  | true =>
    have : s.cg.lastUse rs = s.cg := by unfold Group.lastUse; rw [hh]; rfl
    rw [this]
    refine ⟨rfl, rfl, ?_, fun _ => ⟨rfl, rfl⟩, rfl, rfl, fun _ => rfl, fun _ => rfl, fun _ _ => rfl, fun _ _ h => ⟨h, fun _ => rfl⟩⟩
    cases h : s.cg.handler with
    | none => exact .inl ⟨rfl, rfl⟩
    | some x => exact .inr ⟨x, x.v, rfl, rfl, rfl⟩
  | false =>
    have hn := handler_none hh
    let u := rs.foldl (fun (h : Group) r => { h with vmap := h.vmap.setIfInBounds r none }) s.cg
    have hl : s.cg.lastUse rs = u.collect := by unfold Group.lastUse; rw [hh]; rfl
    have hu : u = { s.cg with vmap := u.vmap } := unmap_rest rs s.cg
    have hc : u.collect = { s.cg with vmap := u.vmap, phys := u.collect.phys, base := u.collect.base } := by
      have h1 : u.collect = { u with phys := u.collect.phys, base := u.collect.base } := rfl
      generalize u.collect.phys = P, u.collect.base = B at h1 ⊢
      rw [h1, hu]
    have hmap : ∀ q, u.collect.mapOf q = if q ∈ rs then none else s.cg.mapOf q := fun q => unmap_mapOf rs s.cg q
    rw [hl, hc]
    refine ⟨rfl, rfl, .inl ⟨hn, hn⟩, (fun h => by rw [hh] at h; cases h), rfl, rfl, fun _ => rfl, fun _ => rfl, ?_, ?_⟩
    · intro q hq
      have := hmap q
      rw [if_neg hq] at this
      exact this
    · intro q hq hud
      have hm := hmap q
      rw [if_neg hq] at hm
      have hud2 : Group.undefV { s.cg with vmap := u.vmap, phys := u.collect.phys, base := u.collect.base } q = false := by
        unfold Group.undefV at hud ⊢
        rw [show Group.mapOf { s.cg with vmap := u.vmap, phys := u.collect.phys, base := u.collect.base } q = u.collect.mapOf q from rfl, hm]
        exact hud
      refine ⟨hud2, fun l => ?_⟩
      rw [rdV_out s q l hud hn]
      refine (rdV_out { s with cg := { s.cg with vmap := u.vmap, phys := u.collect.phys, base := u.collect.base } } q l hud2 hn).trans ?_
      show ((Option.bind (u.collect.mapOf q) fun p => u.collect.phys.find p).getD []).getD l 0 = _
      rw [hm]
      cases hp : s.cg.mapOf q with
      | none => rfl
      | some p =>
        have hmem : p ∈ u.mapped := mapOf_mem (g := u) (r := q) (by rw [show u.mapOf q = _ from unmap_mapOf rs s.cg q, if_neg hq, hp])
        simp only [Option.bind_some]
        rw [collect_find hmem, show u.phys = s.cg.phys by rw [hu]]
/-- A name freed outside the handler has no register. -/
theorem freeV_mapOf (s : State) (rs : List Nat) (hh : s.cg.inH = false) (q : Nat) (hq : q ∈ rs) :
    (s.freeV rs).cg.mapOf q = none := by
  unfold State.freeV Group.lastUse
  rw [hh]
  have := unmap_mapOf rs s.cg q
  rw [if_pos hq] at this
  exact this

end Sys2Proof.Machine
end

