-- ==== Sys2Proof/Laws/Words.lean ====
section
/-! SUPPORT. Laws of the operations that the words of a group share: operand checks, the end of a word, and the frames of the
words that compute. -/

namespace Sys2Proof.Machine

/-! ## The end of a word -/

theorem VOnly.pcs {s t : State} {ws : List Nat} (h : VOnly s t ws) : t.cg.curPcs = s.cg.curPcs := by
  unfold Group.curPcs
  rcases h.hand with ⟨a, b⟩ | ⟨x, v, a, b, _⟩
  · rw [a, b, h.cg]
  · rw [a, b]
theorem VOnly.ia {s t : State} {ws : List Nat} (h : VOnly s t ws) : t.cg.ia = s.cg.ia := by unfold Group.ia; rw [h.pcs]
theorem VOnly.ex {s t : State} {ws : List Nat} (h : VOnly s t ws) : t.cg.ex = s.cg.ex := by
  funext l; unfold Group.ex; rw [h.pcs, h.ia]
theorem VOnly.width {s t : State} {ws : List Nat} (h : VOnly s t ws) : t.cg.width = s.cg.width := by rw [h.cg]

theorem jump_cur (g : Group) (f : Nat → Word) :
    (g.jump f).curPcs = tab g.width fun l => if g.ex l then some (f l) else g.curPcs.getD l none := by
  unfold Group.jump Group.setPcs
  cases h : g.handler with
  | none => simp only [Group.curPcs, h]
  | some x => simp only [Group.curPcs]
/-- Moving the lanes changes nothing but where they stand. -/
theorem jump_rest (g : Group) (f : Nat → Word) :
    (g.handler = none ∧ g.jump f = { g with pcs := (g.jump f).pcs }) ∨
    (∃ h q, g.handler = some h ∧ g.jump f = { g with handler := some { h with pcs := q } }) := by
  unfold Group.jump Group.setPcs
  cases h : g.handler with
  | none => exact .inl ⟨rfl, rfl⟩
  | some x => exact .inr ⟨x, _, rfl, rfl⟩

/-- Where a word ends that sends each executing lane to f: every register reads as before. -/
structure Moved (s t : State) : Prop where
  rest : t = { s with cg := t.cg, free := t.free, nextId := t.nextId }
  cg : t.cg = { s.cg with pcs := t.cg.pcs, handler := t.cg.handler, seq := t.cg.seq, last := t.cg.last, walked := t.cg.walked,
                          mark := t.cg.mark, rescued := t.cg.rescued, base := t.cg.base, tried := t.cg.tried }
  hand : (s.cg.handler = none ∧ t.cg.handler = none) ∨
    (∃ h q, s.cg.handler = some h ∧ t.cg.handler = some { h with pcs := q })
  prog : s.cg.inH = true → t.cg.pcs = s.cg.pcs

/-- Ending a rescue changes nothing that reads (R141). -/
theorem settle_rest (g : Group) (n : Nat) : ∃ b k, g.settle n = { g with rescued := b, base := k } := by
  unfold Group.settle
  split
  · exact ⟨false, 0, rfl⟩
  · exact ⟨g.rescued, g.base, rfl⟩

theorem branch_moved (s : State) (sw : Bool) (f : Nat → Word) :
    Moved s (({ s with cg := s.cg.jump f } : State).issued sw) := by
  obtain ⟨b, k, hb⟩ := settle_rest (s.cg.jump f) s.cb.hdr.floor
  have e0 : (({ s with cg := s.cg.jump f } : State).issued sw).cg =
      { (s.cg.jump f).settle s.cb.hdr.floor with seq := (s.cg.jump f).seq + 1, last := s.nextId, walked := [], mark := sw, tried := 0 } := rfl
  rw [hb] at e0
  rcases jump_rest s.cg f with ⟨h, e⟩ | ⟨x, q, h, e⟩
  · refine ⟨rfl, ?_, .inl ⟨h, ?_⟩, fun hh => ?_⟩
    · rw [e0, e]
    · rw [e0, e]; exact h
    · simp [Group.inH, h] at hh
  · refine ⟨rfl, ?_, .inr ⟨x, q, h, ?_⟩, fun _ => ?_⟩
    · rw [e0, e]
    · rw [e0, e]
    · rw [e0, e]

theorem Moved.inH {s t : State} (h : Moved s t) : t.cg.inH = s.cg.inH := by
  unfold Group.inH
  rcases h.hand with ⟨a, b⟩ | ⟨x, q, a, b⟩ <;> rw [a, b] <;> rfl
theorem Moved.pv {s t : State} (h : Moved s t) (r : Nat) : t.cg.pendV r = s.cg.pendV r := by
  unfold Group.pendV; rw [h.inH, show t.cg.out = s.cg.out by rw [h.cg]]
theorem Moved.ps {s t : State} (h : Moved s t) (r : Nat) : t.cg.pendS r = s.cg.pendS r := by
  unfold Group.pendS; rw [h.inH, show t.cg.out = s.cg.out by rw [h.cg]]
theorem Moved.map {s t : State} (h : Moved s t) (r : Nat) : t.cg.mapOf r = s.cg.mapOf r := by
  unfold Group.mapOf; rw [show t.cg.vmap = s.cg.vmap by rw [h.cg]]
theorem Moved.undef {s t : State} (h : Moved s t) (r : Nat) : t.cg.undefV r = s.cg.undefV r := by
  unfold Group.undefV; rw [h.pv, h.inH, h.map]
theorem Moved.rdV {s t : State} (h : Moved s t) (r l : Nat) (hu : s.cg.undefV r = false) : t.rdV r l = s.rdV r l := by
  unfold State.rdV
  rw [h.undef, hu, h.map]
  rcases h.hand with ⟨a, b⟩ | ⟨x, q, a, b⟩
  · rw [a, b, show t.cg.phys = s.cg.phys by rw [h.cg]]; rfl
  · rw [a, b]; rfl
theorem Moved.rdS {s t : State} (h : Moved s t) (r : Nat) (hp : s.cg.pendS r = false) : t.rdS r = s.rdS r := by
  unfold State.rdS
  rw [h.ps, hp]
  rcases h.hand with ⟨a, b⟩ | ⟨x, q, a, b⟩
  · rw [a, b, show t.cg.s = s.cg.s by rw [h.cg]]; rfl
  · rw [a, b]; rfl
theorem Moved.rdP {s t : State} (h : Moved s t) (q l : Nat) : t.rdP q l = s.rdP q l := by
  unfold State.rdP; rw [show t.cg.p = s.cg.p by rw [h.cg]]

/-- The lanes after a word that sends each executing lane to f. -/
theorem branch_lanes (s : State) (sw : Bool) (f : Nat → Word) (l : Nat) (hl : l < s.cg.width) :
    (({ s with cg := s.cg.jump f } : State).issued sw).cg.curPcs.getD l none =
      if s.cg.ex l then some (f l) else s.cg.curPcs.getD l none := by
  obtain ⟨b, k, hb⟩ := settle_rest (s.cg.jump f) s.cb.hdr.floor
  show ({ (s.cg.jump f).settle s.cb.hdr.floor with seq := _, last := _, walked := _, mark := _, tried := _ } : Group).curPcs.getD l none = _
  rw [hb]
  show (s.cg.jump f).curPcs.getD l none = _
  rw [jump_cur, tab_getD, if_pos hl]

/-! ## Frames -/

/-- A word that wrote v names and went on. -/
theorem Framed.of_v {s u : State} {ws : List Nat} (h : VOnly s u ws) (sw : Bool) (tc : Touch) (ps : List Nat)
    (hw : ∀ r, r ∈ ws → r ∈ tc.vw ∨ r ∈ tc.vf) : Framed s (u.finish sw) tc ps := by
  have m : Moved u (u.finish sw) := branch_moved u sw fun _ => u.cg.ia + 4
  have hc := h.cg
  have mc := m.cg
  constructor
  · rw [m.rest, h.rest]
  · intro pa; rw [m.rest, h.rest]; rfl
  · intro l ba; rw [m.rest, h.rest]; rfl
  · intro a; rw [m.rest, h.rest]
  · intro r h1 h2 hu
    have hv := h.val r (fun x => (hw r x).elim h1 h2) hu
    exact ⟨(m.undef r).trans hv.1, fun l => (m.rdV r l hv.1).trans (hv.2 l)⟩
  · intro r _ hp
    have hp2 : u.cg.pendS r = false := (h.ps r).trans hp
    refine ⟨(m.ps r).trans hp2, (m.rdS r hp2).trans ?_⟩
    unfold State.rdS
    rw [hp, hp2]
    rcases h.hand with ⟨a, b⟩ | ⟨x, v, a, b, _⟩
    · rw [a, b, show u.cg.s = s.cg.s by rw [hc]]; rfl
    · rw [a, b]; rfl
  · intro q l _
    refine (m.rdP q l).trans ?_
    unfold State.rdP
    rw [hc]
  · rw [mc, hc]
  · rw [mc, hc]
  · rw [mc, hc]
  · rw [mc, hc]
  · rw [mc, hc]; exact ⟨rfl, rfl, rfl⟩
  · rcases h.hand with ⟨a, b⟩ | ⟨x, v, a, b, _⟩ <;> rcases m.hand with ⟨c, d⟩ | ⟨y, q, c, d⟩
    · exact .inl ⟨a, d⟩
    · rw [b] at c; cases c
    · rw [b] at c; cases c
    · rw [b] at c; cases c
      exact .inr ⟨x, _, a, d, rfl, rfl, rfl, rfl, rfl, rfl⟩
  · intro hh
    have h1 := h.prog hh
    have h2 := m.prog (by rw [h.inH]; exact hh)
    refine ⟨h2.trans (by rw [hc]), ?_, ?_, ?_⟩
    · rw [mc, hc]
    · rw [mc]; exact h1.1
    · rw [mc]; exact h1.2
  · rw [mc]; exact h.seqs
  · rw [mc, hc]; exact ⟨rfl, rfl, rfl, rfl⟩
theorem WentOn.of_v {s u : State} {ws : List Nat} (h : VOnly s u ws) (sw : Bool) : WentOn s (u.finish sw) := by
  intro l hl
  have := branch_lanes u sw (fun _ => u.cg.ia + 4) l (by rw [h.width]; exact hl)
  rw [h.ex, h.ia, h.pcs] at this
  have e : u.finish sw = (({ u with cg := u.cg.jump fun _ => u.cg.ia + 4 } : State).issued sw) := rfl
  rw [e, h.ia]
  exact this

/-! ## Operand checks -/

theorem operands_run {s : State} {tc : Touch} (h : s.canRun tc = true) (ok : State) : s.operands tc ok = ok := by
  simp only [State.canRun, Bool.and_eq_true, Bool.not_eq_true'] at h
  unfold State.operands
  rw [if_neg (by rw [h.1.1.1]; simp)]
  have : s.verdict tc.holds tc.vf tc.vw = .ok := by simpa using h.1.1.2
  rw [this]
theorem canRun_hasV {s : State} {tc : Touch} (h : s.canRun tc = true) : s.cg.hasV tc.vw = true := by
  simp only [State.canRun, Bool.and_eq_true] at h
  exact h.1.2
theorem canRun_hasS {s : State} {tc : Touch} (h : s.canRun tc = true) : hasS tc.sw = true := by
  simp only [State.canRun, Bool.and_eq_true] at h
  exact h.2

theorem names_nodup (r : Nat) (w : Bool) : (names r w).Nodup := by
  cases w <;> simp [names]
theorem zipIdx_fst (l : List Nat) : l.zipIdx.map (·.1) = l := by
  apply List.ext_getElem?
  intro i
  simp

/-- What writing lanes of v names does, after last uses were freed, once the names exist: the names hold their words, and
nothing else changes. -/
theorem laneWrite_does (s : State) (sw : Bool) (d : VReg) (w : Bool) (tc : Touch) (lanes : Nat → Bool) (f : Nat → Nat)
    (hvw : tc.vw = []) (hv : s.cg.hasV (names d w) = true) :
    Framed s (((s.freeV tc.vf).putV (names d w) lanes f).finish sw) (tc.plus (writeV d w)) [] ∧
    WentOn s (((s.freeV tc.vf).putV (names d w) lanes f).finish sw) ∧
    (((s.freeV tc.vf).putV (names d w) lanes f).finish sw).cg.fflags = s.cg.fflags ∧
    WroteV s (((s.freeV tc.vf).putV (names d w) lanes f).finish sw) (names d w) lanes f ∧
    KeptV s (((s.freeV tc.vf).putV (names d w) lanes f).finish sw) (names d w) tc.vf lanes ∧
    FreedV s (((s.freeV tc.vf).putV (names d w) lanes f).finish sw) (tc.plus (writeV d w)) := by
  have hn : (tc.plus (writeV d w)).vw = names d w := by simp [Touch.plus, writeV, hvw]
  have hf : (tc.plus (writeV d w)).vf = tc.vf := by simp [Touch.plus, writeV]
  have h1 := freeV_only s tc.vf
  have hv1 : (s.freeV tc.vf).cg.hasV ((names d w).zipIdx.map (·.1)) = true := by rw [h1.hasV, zipIdx_fst]; exact hv
  have hu : (s.freeV tc.vf).putV (names d w) lanes f = putFrom (s.freeV tc.vf) (names d w).zipIdx lanes f := rfl
  have h2 := putFrom_only lanes f _ _ hv1
  rw [zipIdx_fst] at h2
  have h3 := h1.trans h2
  have m : Moved _ ((putFrom (s.freeV tc.vf) (names d w).zipIdx lanes f).finish sw) :=
    branch_moved _ sw fun _ => (putFrom (s.freeV tc.vf) (names d w).zipIdx lanes f).cg.ia + 4
  rw [hu]
  refine ⟨Framed.of_v h3 sw _ _ ?_, WentOn.of_v h3 sw, ?_, ?_, ?_, ?_⟩
  · intro r hr
    rw [hn, hf]
    rcases List.mem_append.1 hr with hr | hr
    · exact .inr hr
    · exact .inl hr
  · rw [m.cg, h3.cg]
  · intro k r hk hp
    have hmem : (r, k) ∈ (names d w).zipIdx := by rw [List.mem_zipIdx_iff_getElem?]; exact hk
    have hrd := putFrom_rd lanes f _ _ hv1 (by rw [zipIdx_fst]; exact names_nodup d w) (r, k) hmem ((h1.pv r).trans hp)
    refine ⟨(m.undef r).trans hrd.1, fun l hl hx => (m.rdV r l hrd.1).trans (hrd.2.1 l (by rw [h1.width]; exact hl) hx)⟩
  · intro r hr hnf hud hk l hl hx
    obtain ⟨k, hk1⟩ := List.mem_iff_getElem?.1 hr
    have hmem : (r, k) ∈ (names d w).zipIdx := by rw [List.mem_zipIdx_iff_getElem?]; exact hk1
    have hp : s.cg.pendV r = false := by
      unfold Group.undefV at hud
      cases hpp : s.cg.pendV r with
      | true => rw [hpp] at hud; simp at hud
      | false => rfl
    have hrd := putFrom_rd lanes f _ _ hv1 (by rw [zipIdx_fst]; exact names_nodup d w) (r, k) hmem ((h1.pv r).trans hp)
    have hv2 := h1.val r hnf hud
    refine (m.rdV r l hrd.1).trans ((hrd.2.2 hv2.1 ?_ l (by rw [h1.width]; exact hl) hx).trans (hv2.2 l))
    unfold Group.kept at hk ⊢
    rw [h1.map r hnf, show (s.freeV tc.vf).cg.snapPhys = s.cg.snapPhys by unfold Group.snapPhys; rw [h1.cg],
      holdPhys_eq h1.holds]
    exact hk
  · intro hh r hr hr64 hnw
    rw [hf] at hr
    rw [hn] at hnw
    refine (m.map r).trans ((h2.map r hnw).trans ?_)
    exact freeV_mapOf s tc.vf hh r hr

/-- What a word that writes the executing lanes of v names does, once its operands let it run. -/
theorem intWord_does (s : State) (sw : Bool) (d : VReg) (w : Bool) (tc : Touch) (f : Nat → Nat)
    (hvw : tc.vw = []) (h : s.canRun (tc.plus (writeV d w)) = true) :
    Framed s (s.intWord sw d w tc f) (tc.plus (writeV d w)) [] ∧ WentOn s (s.intWord sw d w tc f) ∧
    (s.intWord sw d w tc f).cg.fflags = s.cg.fflags ∧
    WroteV s (s.intWord sw d w tc f) (names d w) s.cg.ex f ∧ KeptV s (s.intWord sw d w tc f) (names d w) tc.vf s.cg.ex ∧
    FreedV s (s.intWord sw d w tc f) (tc.plus (writeV d w)) := by
  have e : s.intWord sw d w tc f = ((s.freeV tc.vf).putV (names d w) s.cg.ex f).finish sw := by
    unfold State.intWord; rw [operands_run h]
  have hv := canRun_hasV h
  rw [show (tc.plus (writeV d w)).vw = names d w by simp [Touch.plus, writeV, hvw]] at hv
  rw [e]
  exact laneWrite_does s sw d w tc s.cg.ex f hvw hv

/-- A word that writes the executing lanes is its row, once their values agree. -/
theorem laneRow_done {s : State} (r : LaneRow) (f : Nat → Nat) (hf : ∀ l, f l = r.val l) (hvw : r.tc.vw = [])
    (hl : r.lanes = s.cg.ex) (h : s.canRun r.all = true) : r.Done s (s.intWord r.sw r.d r.w r.tc f) := by
  rw [show f = r.val from funext hf]
  obtain ⟨a, b, c, d, e, g⟩ := intWord_does s r.sw r.d r.w r.tc r.val hvw h
  refine ⟨a, b, ?_, c, hl ▸ d, hl ▸ e, g⟩
  have x : s.intWord r.sw r.d r.w r.tc r.val = ((s.freeV r.tc.vf).putV (names r.d r.w) s.cg.ex r.val).finish r.sw := by
    unfold State.intWord
    rw [show r.tc.plus (writeV r.d r.w) = r.all from rfl, operands_run h]
  rw [x]
  rfl

end Sys2Proof.Machine
end

