-- ==== Sys2Proof/Laws/Uniform.lean ====
section
/-! SUPPORT. Laws of the words that write s registers, predicates and flags, and of the branches. -/

namespace Sys2Proof.Machine

/-! ## Writes of s registers (R144) -/

/-- The group after its s registers were written: the names `ws` aside, nothing reads otherwise. -/
structure SOnly (s t : State) (ws : List Nat) : Prop where
  rest : t = { s with cg := t.cg }
  cg : t.cg = { s.cg with s := t.cg.s, handler := t.cg.handler, out := t.cg.out }
  hand : (s.cg.handler = none ∧ t.cg.handler = none) ∨
    (∃ h u, s.cg.handler = some h ∧ t.cg.handler = some { h with s := u })
  prog : s.cg.inH = true → t.cg.s = s.cg.s
  seqs : t.cg.out.map (·.seq) = s.cg.out.map (·.seq)
  pv : ∀ r, t.cg.pendV r = s.cg.pendV r
  ps : ∀ r, t.cg.pendS r = s.cg.pendS r
  val : ∀ r, r ∉ ws → s.cg.pendS r = false → t.rdS r = s.rdS r

theorem SOnly.inH {s t : State} {ws : List Nat} (h : SOnly s t ws) : t.cg.inH = s.cg.inH := by
  unfold Group.inH
  rcases h.hand with ⟨a, b⟩ | ⟨x, v, a, b⟩ <;> rw [a, b] <;> rfl
theorem SOnly.refl (s : State) : SOnly s s [] :=
  ⟨rfl, rfl, by
    cases h : s.cg.handler with
    | none => exact .inl ⟨rfl, rfl⟩
    | some x => exact .inr ⟨x, x.s, rfl, rfl⟩,
   fun _ => rfl, rfl, fun _ => rfl, fun _ => rfl, fun _ _ _ => rfl⟩
theorem SOnly.trans {s t u : State} {xs ys : List Nat} (h : SOnly s t xs) (k : SOnly t u ys) : SOnly s u (xs ++ ys) where
  rest := by rw [k.rest, h.rest]
  cg := by rw [k.cg, h.cg]
  hand := by
    rcases h.hand with ⟨a, b⟩ | ⟨x, v, a, b⟩ <;> rcases k.hand with ⟨d, e⟩ | ⟨y, w, d, e⟩
    · exact .inl ⟨a, e⟩
    · rw [b] at d; cases d
    · rw [b] at d; cases d
    · rw [b] at d
      cases d
      exact .inr ⟨x, w, a, e⟩
  prog := fun hh => (k.prog (by rw [h.inH]; exact hh)).trans (h.prog hh)
  seqs := k.seqs.trans h.seqs
  pv := fun r => (k.pv r).trans (h.pv r)
  ps := fun r => (k.ps r).trans (h.ps r)
  val := fun r hr hp => (k.val r (fun x => hr (by simp [x])) ((h.ps r).trans hp)).trans
    (h.val r (fun x => hr (by simp [x])) hp)
theorem SOnly.mono {s t : State} {xs ys : List Nat} (h : SOnly s t xs) (sub : ∀ r, r ∈ xs → r ∈ ys) : SOnly s t ys :=
  { h with val := fun r hr => h.val r fun x => hr (sub r x) }

theorem rdS_out (t : State) (r : Nat) (hp : t.cg.pendS r = false) (hh : t.cg.handler = none) :
    t.rdS r = (t.cg.s[r]?).getD 0 := by
  unfold State.rdS; rw [hp, hh]; rfl
theorem rdS_in (t : State) (r : Nat) (h : Handler) (hp : t.cg.pendS r = false) (hh : t.cg.handler = some h) :
    t.rdS r = (h.s[r]?).getD 0 := by
  unfold State.rdS; rw [hp, hh]; rfl

theorem putSRaw_only (s : State) (r : Nat) (v : Word) : SOnly s { s with cg := s.cg.putSRaw r v } [r] := by
  cases hh : s.cg.handler with
  | none =>
    have e : s.cg.putSRaw r v = { s.cg with s := s.cg.s.setIfInBounds r v } := by simp only [Group.putSRaw, hh]
    have hi : s.cg.inH = false := by simp [Group.inH, hh]
    rw [e]
    refine ⟨rfl, rfl, .inl ⟨hh, hh⟩, (fun h => by rw [hi] at h; cases h), rfl, fun _ => rfl, fun _ => rfl, ?_⟩
    intro q hq hp
    have hne : r ≠ q := fun e => hq (by simp [e])
    rw [rdS_out s q hp hh]
    refine (rdS_out { s with cg := { s.cg with s := s.cg.s.setIfInBounds r v } } q hp hh).trans ?_
    show ((s.cg.s.setIfInBounds r v)[q]?).getD 0 = _
    rw [Vector.getElem?_setIfInBounds_ne hne]
  | some h =>
    have e : s.cg.putSRaw r v = { s.cg with handler := some { h with s := h.s.setIfInBounds r v } } := by
      simp only [Group.putSRaw, hh]
    rw [e]
    refine ⟨rfl, rfl, .inr ⟨h, _, hh, rfl⟩, fun _ => rfl, rfl, ?_, ?_, ?_⟩
    · intro q; simp only [Group.pendV, Group.inH, hh, Option.isSome_some]
    · intro q; simp only [Group.pendS, Group.inH, hh, Option.isSome_some]
    · intro q hq hp
      have hne : r ≠ q := fun e => hq (by simp [e])
      rw [rdS_in s q h hp hh]
      have hp2 : Group.pendS { s.cg with handler := some { h with s := h.s.setIfInBounds r v } } q = false := by
        rw [← hp]; simp only [Group.pendS, Group.inH, hh, Option.isSome_some]
      refine (rdS_in { s with cg := { s.cg with handler := some { h with s := h.s.setIfInBounds r v } } } q _ hp2 rfl).trans ?_
      show ((h.s.setIfInBounds r v)[q]?).getD 0 = _
      rw [Vector.getElem?_setIfInBounds_ne hne]
theorem putSRaw_rd (s : State) (r : Nat) (v : Word) (hr : r < 32) (hp : s.cg.pendS r = false) :
    Group.pendS (s.cg.putSRaw r v) r = false ∧ State.rdS { s with cg := s.cg.putSRaw r v } r = v := by
  have h1 := putSRaw_only s r v
  have hp2 : Group.pendS (s.cg.putSRaw r v) r = false := (h1.ps r).trans hp
  refine ⟨hp2, ?_⟩
  cases hh : s.cg.handler with
  | none =>
    have e : s.cg.putSRaw r v = { s.cg with s := s.cg.s.setIfInBounds r v } := by simp only [Group.putSRaw, hh]
    rw [e] at hp2 ⊢
    refine (rdS_out { s with cg := { s.cg with s := s.cg.s.setIfInBounds r v } } r hp2 hh).trans ?_
    show ((s.cg.s.setIfInBounds r v)[r]?).getD 0 = v
    simp [hr]
  | some h =>
    have e : s.cg.putSRaw r v = { s.cg with handler := some { h with s := h.s.setIfInBounds r v } } := by
      simp only [Group.putSRaw, hh]
    rw [e] at hp2 ⊢
    refine (rdS_in { s with cg := { s.cg with handler := some { h with s := h.s.setIfInBounds r v } } } r _ hp2 rfl).trans ?_
    show ((h.s.setIfInBounds r v)[r]?).getD 0 = v
    simp [hr]

theorem spoilS_only (s : State) (b : Bool) (r n : Nat) :
    SOnly s { s with cg := { s.cg with out := spoil s.cg.out true b r n } } [] := by
  have hp : ∀ q, Group.pendV { s.cg with out := spoil s.cg.out true b r n } q = s.cg.pendV q :=
    fun q => spoil_any _ _ _ _ _ _ fun _ _ => rfl
  have hs : ∀ q, Group.pendS { s.cg with out := spoil s.cg.out true b r n } q = s.cg.pendS q :=
    fun q => spoil_any _ _ _ _ _ _ fun _ _ => rfl
  refine ⟨rfl, rfl, ?_, fun _ => rfl, spoil_seq _ _ _ _ _, hp, hs, fun q _ h => ?_⟩
  · cases h : s.cg.handler with
    | none => exact .inl ⟨rfl, rfl⟩
    | some x => exact .inr ⟨x, x.s, rfl, rfl⟩
  · unfold State.rdS; rw [hs]; rfl

theorem wrS_only (s : State) (r : Nat) (v : Word) : SOnly s (s.wrS r v) [r] := by
  unfold State.wrS
  split
  · have h1 := putSRaw_only s r (s.freeWord (4160 + r))
    have h2 := spoilS_only { s with cg := s.cg.putSRaw r (s.freeWord (4160 + r)) } s.cg.inH r s.cg.seq
    have e : (s.cg.putSRaw r (s.freeWord (4160 + r))).out = s.cg.out := by
      have := h1.cg
      unfold Group.putSRaw; split <;> rfl
    have h3 := (h1.trans h2).mono (show ∀ q, q ∈ [r] ++ [] → q ∈ [r] by simp)
    simp only [e] at h3
    exact h3
  · exact putSRaw_only s r v
theorem wrS_rd (s : State) (r : Nat) (v : Word) (hr : r < 32) (hp : s.cg.pendS r = false) :
    (s.wrS r v).cg.pendS r = false ∧ (s.wrS r v).rdS r = v := by
  unfold State.wrS
  rw [if_neg (by rw [hp]; simp)]
  exact putSRaw_rd s r v hr hp

/-- A 64-bit or 32-bit value in an s pair or register. -/
theorem putS_only (s : State) (r : Nat) (w : Bool) (v : Nat) : SOnly s (s.putS r w v) (names r w) := by
  unfold State.putS State.wrS64 names
  cases w with
  | true => exact (wrS_only s r _).trans (wrS_only _ (r + 1) _)
  | false => exact wrS_only s r _
theorem putS_rd (s : State) (r : Nat) (w : Bool) (v : Nat) (hr : hasS (names r w) = true) :
    ∀ k q, (names r w)[k]? = some q → s.cg.pendS q = false →
      (s.putS r w v).cg.pendS q = false ∧ (s.putS r w v).rdS q = wordOf k v := by
  intro k q hk hp
  unfold State.putS State.wrS64
  unfold names at hk hr
  cases w with
  | false =>
    simp only [Bool.false_eq_true, if_false, List.getElem?_cons] at hk hr ⊢
    cases k with
    | succ k => simp at hk
    | zero =>
      simp only [if_true, Option.some.injEq] at hk
      subst hk
      simp only [hasS, List.all_cons, List.all_nil, Bool.and_true, decide_eq_true_eq] at hr
      have := wrS_rd s r (BitVec.ofNat 32 v) hr hp
      refine ⟨this.1, this.2.trans ?_⟩
      simp [wordOf]
  | true =>
    simp only [if_true, hasS, List.all_cons, List.all_nil, Bool.and_true, Bool.and_eq_true, decide_eq_true_eq] at hk hr ⊢
    cases k with
    | zero =>
      simp only [List.getElem?_cons_zero, Option.some.injEq] at hk
      subst hk
      have h1 := wrS_rd s r (BitVec.ofNat 32 v) hr.1 hp
      have h2 := wrS_only (s.wrS r (BitVec.ofNat 32 v)) (r + 1) (BitVec.ofNat 32 (v / 2 ^ 32))
      refine ⟨(h2.ps r).trans h1.1, (h2.val r (by simp) h1.1).trans (h1.2.trans ?_)⟩
      simp [wordOf]
    | succ k =>
      cases k with
      | succ k => simp at hk
      | zero =>
        simp only [List.getElem?_cons_succ, List.getElem?_cons_zero, Option.some.injEq] at hk
        subst hk
        have h0 := wrS_only s r (BitVec.ofNat 32 v)
        have h1 := wrS_rd (s.wrS r (BitVec.ofNat 32 v)) (r + 1) (BitVec.ofNat 32 (v / 2 ^ 32)) hr.2 ((h0.ps _).trans hp)
        exact ⟨h1.1, h1.2.trans (by simp [wordOf])⟩

theorem SOnly.pcs {s t : State} {ws : List Nat} (h : SOnly s t ws) : t.cg.curPcs = s.cg.curPcs := by
  unfold Group.curPcs
  rcases h.hand with ⟨a, b⟩ | ⟨x, v, a, b⟩
  · rw [a, b, h.cg]
  · rw [a, b]
theorem SOnly.ia {s t : State} {ws : List Nat} (h : SOnly s t ws) : t.cg.ia = s.cg.ia := by unfold Group.ia; rw [h.pcs]
theorem SOnly.ex {s t : State} {ws : List Nat} (h : SOnly s t ws) : t.cg.ex = s.cg.ex := by
  funext l; unfold Group.ex; rw [h.pcs, h.ia]
theorem SOnly.width {s t : State} {ws : List Nat} (h : SOnly s t ws) : t.cg.width = s.cg.width := by rw [h.cg]
theorem SOnly.map {s t : State} {ws : List Nat} (h : SOnly s t ws) (r : Nat) : t.cg.mapOf r = s.cg.mapOf r := by
  unfold Group.mapOf; rw [show t.cg.vmap = s.cg.vmap by rw [h.cg]]
theorem SOnly.undef {s t : State} {ws : List Nat} (h : SOnly s t ws) (r : Nat) : t.cg.undefV r = s.cg.undefV r := by
  unfold Group.undefV; rw [h.pv, h.inH, h.map]
theorem SOnly.rdV {s t : State} {ws : List Nat} (h : SOnly s t ws) (r l : Nat) (hu : s.cg.undefV r = false) :
    t.rdV r l = s.rdV r l := by
  unfold State.rdV
  rw [h.undef, hu, h.map]
  rcases h.hand with ⟨a, b⟩ | ⟨x, q, a, b⟩
  · rw [a, b, show t.cg.phys = s.cg.phys by rw [h.cg]]; rfl
  · rw [a, b]; rfl

/-- A word that wrote s names, and then sent its lanes on. -/
theorem Framed.of_s {s u t : State} {ws : List Nat} (h : SOnly s u ws) (m : Moved u t) (tc : Touch) (ps : List Nat)
    (hw : ∀ r, r ∈ ws → r ∈ tc.sw) : Framed s t tc ps := by
  have hc := h.cg
  have mc := m.cg
  constructor
  · rw [m.rest, h.rest]
  · intro pa; rw [m.rest, h.rest]; rfl
  · intro l ba; rw [m.rest, h.rest]; rfl
  · intro a; rw [m.rest, h.rest]
  · intro r _ _ hu
    have hv : u.cg.undefV r = false := (h.undef r).trans hu
    exact ⟨(m.undef r).trans hv, fun l => (m.rdV r l hv).trans (h.rdV r l hu)⟩
  · intro r hr hp
    have hp2 : u.cg.pendS r = false := (h.ps r).trans hp
    exact ⟨(m.ps r).trans hp2, (m.rdS r hp2).trans (h.val r (fun x => hr (hw r x)) hp)⟩
  · intro q l _
    refine (m.rdP q l).trans ?_
    unfold State.rdP
    rw [hc]
  · rw [mc, hc]
  · rw [mc, hc]
  · rw [mc, hc]
  · rw [mc, hc]
  · rw [mc, hc]; exact ⟨rfl, rfl, rfl⟩
  · rcases h.hand with ⟨a, b⟩ | ⟨x, v, a, b⟩ <;> rcases m.hand with ⟨c, d⟩ | ⟨y, q, c, d⟩
    · exact .inl ⟨a, d⟩
    · rw [b] at c; cases c
    · rw [b] at c; cases c
    · rw [b] at c; cases c
      exact .inr ⟨x, _, a, d, rfl, rfl, rfl, rfl, rfl, rfl⟩
  · intro hh
    have h1 := h.prog hh
    have h2 := m.prog (by rw [h.inH]; exact hh)
    refine ⟨h2.trans (by rw [hc]), ?_, ?_, ?_⟩
    · rw [mc]; exact h1
    · rw [mc, hc]
    · rw [mc, hc]
  · rw [mc]; exact h.seqs
  · rw [mc, hc]; exact ⟨rfl, rfl, rfl, rfl⟩
theorem WentOn.of_s {s u : State} {ws : List Nat} (h : SOnly s u ws) (sw : Bool) : WentOn s (u.finish sw) := by
  intro l hl
  have := branch_lanes u sw (fun _ => u.cg.ia + 4) l (by rw [h.width]; exact hl)
  rw [h.ex, h.ia, h.pcs] at this
  have e : u.finish sw = (({ u with cg := u.cg.jump fun _ => u.cg.ia + 4 } : State).issued sw) := rfl
  rw [e, h.ia]
  exact this

/-- What a uniform word does, once its operands let it run. -/
theorem uniWord_does (s : State) (sw : Bool) (d : SReg) (w : Bool) (tc : Touch) (v : Nat) (hsw : tc.sw = [])
    (h : s.canRun (tc.plus (writeS d w)) = true) :
    Framed s (s.uniWord sw d w tc v) (tc.plus (writeS d w)) [] ∧ WentOn s (s.uniWord sw d w tc v) ∧
    (s.uniWord sw d w tc v).cg.fflags = s.cg.fflags ∧ WroteS s (s.uniWord sw d w tc v) (names d w) v := by
  have e : s.uniWord sw d w tc v = (s.putS d w v).finish sw := by unfold State.uniWord; rw [operands_run h]
  have hn : (tc.plus (writeS d w)).sw = names d w := by simp [Touch.plus, writeS, hsw]
  have hv := canRun_hasS h
  rw [hn] at hv
  have h1 := putS_only s d w v
  have m : Moved _ ((s.putS d w v).finish sw) := branch_moved _ sw fun _ => (s.putS d w v).cg.ia + 4
  rw [e]
  refine ⟨Framed.of_s h1 m _ _ (by rw [hn]; exact fun _ x => x), WentOn.of_s h1 sw, ?_, ?_⟩
  · rw [m.cg, h1.cg]
  · intro k r hk hp
    have := putS_rd s d w v hv k r hk hp
    exact ⟨(m.ps r).trans this.1, (m.rdS r this.1).trans this.2⟩

/-- A uniform word is its row. -/
theorem uniRow_done {s : State} (r : UniRow) (v : Nat) (hv : v = r.val) (hsw : r.tc.sw = []) (h : s.canRun r.all = true) :
    r.Done s (s.uniWord r.sw r.d r.w r.tc v) := by
  subst hv
  obtain ⟨a, b, c, d⟩ := uniWord_does s r.sw r.d r.w r.tc r.val hsw h
  refine ⟨a, b, ?_, c, d⟩
  have x : s.uniWord r.sw r.d r.w r.tc r.val = (s.putS r.d r.w r.val).finish r.sw := by
    unfold State.uniWord
    rw [show r.tc.plus (writeS r.d r.w) = r.all from rfl, operands_run h]
  rw [x]
  rfl

end Sys2Proof.Machine
end

