-- ==== Sys2Proof/Laws/Flags.lean ====
section
/-! SUPPORT. Laws of the words that write predicates or collect floating flags, and of the branches. -/

namespace Sys2Proof.Machine

/-! ## Predicates (R130) -/

theorem laneMask_testBit (ls : List Nat) (l : Nat) : (laneMask ls).testBit l = decide (l ∈ ls) := by
  have aux : ∀ (ls : List Nat) (a l : Nat),
      (ls.foldl (fun m l => Nat.lor m (2 ^ l)) a).testBit l = (a.testBit l || decide (l ∈ ls)) := by
    intro ls
    induction ls with
    | nil => intro a l; simp
    | cons x ls ih =>
      intro a l
      rw [List.foldl_cons, ih]
      have : (Nat.lor a (2 ^ x)).testBit l = (a.testBit l || decide (x = l)) := by
        have h := Nat.testBit_or a (2 ^ x) l
        rw [Nat.testBit_two_pow] at h
        exact h
      rw [this]
      by_cases h : x = l
      · simp [h]
      · simp [h, Ne.symm h]
  simpa [laneMask] using aux ls 0 l

theorem wrP_rd (s : State) (q : Nat) (hq : q < 8) (lanes v : Nat → Bool) (l : Nat) (hl : l < 64) :
    State.rdP { s with cg := s.cg.wrP q lanes v } q l = if q = 0 then true else if lanes l then v l else s.rdP q l := by
  by_cases h0 : q = 0
  · subst h0; simp [State.rdP]
  · have e : (q == 0) = false := by simp [h0]
    simp only [State.rdP, Group.wrP, h0, if_false, e, Bool.false_or, Vector.getElem?_setIfInBounds_self, hq, if_true,
      Option.getD_some]
    rw [BitVec.getLsbD_ofNat, laneMask_testBit]
    by_cases hx : lanes l = true <;> simp [hl, hx, List.mem_filter]
theorem wrP_other (s : State) (q p l : Nat) (lanes v : Nat → Bool) (h : p ≠ q) :
    State.rdP { s with cg := s.cg.wrP q lanes v } p l = s.rdP p l := by
  unfold State.rdP Group.wrP
  by_cases h0 : q = 0
  · simp [h0]
  · simp only [h0, if_false]
    rw [Vector.getElem?_setIfInBounds_ne (Ne.symm h)]
theorem wrP_rest (g : Group) (q : Nat) (lanes v : Nat → Bool) : g.wrP q lanes v = { g with p := (g.wrP q lanes v).p } := by
  unfold Group.wrP; split <;> rfl

/-! ## Flags do not change what a frame speaks of -/

/-- The state with other floating flags. -/
def withFlags (s : State) (x : BitVec 5) : State := { s with cg := { s.cg with fflags := x } }
theorem Framed.ofFlags {s t : State} {tc : Touch} {ps : List Nat} {x : BitVec 5} (h : Framed (withFlags s x) t tc ps) :
    Framed s t tc ps :=
  ⟨h.rest, h.dev, h.host, h.pad, h.v, h.u, h.p, h.frm, h.fmask, h.aset, h.snaps, h.trap, h.hand, h.prog, h.out, h.shape⟩

/-- A word that wrote v names and predicates, and then sent its lanes on. -/
theorem Framed.of_vp {s u t : State} {ws : List Nat} (h : VOnly s u ws) (P : Vector Dword 8)
    (m : Moved { u with cg := { u.cg with p := P } } t) (tc : Touch) (ps : List Nat)
    (hw : ∀ r, r ∈ ws → r ∈ tc.vw ∨ r ∈ tc.vf)
    (hP : ∀ q l, q ∉ ps → State.rdP { u with cg := { u.cg with p := P } } q l = s.rdP q l) : Framed s t tc ps := by
  have hc := h.cg
  have mc := m.cg
  constructor
  · rw [m.rest, h.rest]
  · intro pa; rw [m.rest, h.rest]; rfl
  · intro l ba; rw [m.rest, h.rest]; rfl
  · intro a; rw [m.rest, h.rest]
  · intro r h1 h2 hu
    have hv := h.val r (fun x => (hw r x).elim h1 h2) hu
    exact ⟨(m.undef r).trans hv.1, fun l => (m.rdV r l hv.1).trans (hv.2 l)⟩
  · intro r _ hp
    have hp2 : u.cg.pendS r = false := (h.ps r).trans hp
    refine ⟨(m.ps r).trans hp2, (m.rdS r hp2).trans ?_⟩
    show u.rdS r = s.rdS r
    unfold State.rdS
    rw [hp, hp2]
    rcases h.hand with ⟨a, b⟩ | ⟨x, v, a, b, _⟩
    · rw [a, b, show u.cg.s = s.cg.s by rw [hc]]; rfl
    · rw [a, b]; rfl
  · intro q l hq
    exact (m.rdP q l).trans (hP q l hq)
  · rw [mc, hc]
  · rw [mc, hc]
  · rw [mc, hc]
  · rw [mc, hc]
  · rw [mc, hc]; exact ⟨rfl, rfl, rfl⟩
  · rcases h.hand with ⟨a, b⟩ | ⟨x, v, a, b, _⟩ <;> rcases m.hand with ⟨c, d⟩ | ⟨y, q, c, d⟩
    · exact .inl ⟨a, d⟩
    · rw [show ({ u with cg := { u.cg with p := P } } : State).cg.handler = u.cg.handler from rfl, b] at c; cases c
    · rw [show ({ u with cg := { u.cg with p := P } } : State).cg.handler = u.cg.handler from rfl, b] at c; cases c
    · rw [show ({ u with cg := { u.cg with p := P } } : State).cg.handler = u.cg.handler from rfl, b] at c; cases c
      exact .inr ⟨x, _, a, d, rfl, rfl, rfl, rfl, rfl, rfl⟩
  · intro hh
    have h1 := h.prog hh
    have h2 := m.prog (show u.cg.inH = true by rw [h.inH]; exact hh)
    refine ⟨h2.trans (by rw [hc]), ?_, ?_, ?_⟩
    · rw [mc, hc]
    · rw [mc]; exact h1.1
    · rw [mc]; exact h1.2
  · rw [mc]; exact h.seqs
  · rw [mc, hc]; exact ⟨rfl, rfl, rfl, rfl⟩

/-- The lanes after a word that goes on. -/
theorem finish_lanes (u : State) (sw : Bool) (l : Nat) (hl : l < u.cg.width) :
    (u.finish sw).cg.curPcs.getD l none = if u.cg.ex l then some (u.cg.ia + 4) else u.cg.curPcs.getD l none :=
  branch_lanes u sw (fun _ => u.cg.ia + 4) l hl

/-- What a word does that frees last uses and writes a predicate in the executing lanes. -/
theorem predWrite_does (s : State) (sw : Bool) (q : PReg) (tc : Touch) (f : Nat → Bool) :
    Framed s (((s.freeV tc.vf).putP q f).finish sw) tc [q.val] ∧ WentOn s (((s.freeV tc.vf).putP q f).finish sw) ∧
    (((s.freeV tc.vf).putP q f).finish sw).cg.fflags = s.cg.fflags ∧
    WroteP s (((s.freeV tc.vf).putP q f).finish sw) q s.cg.ex f ∧
    FreedV s (((s.freeV tc.vf).putP q f).finish sw) tc := by
  have h := freeV_only s tc.vf
  have hex : (s.freeV tc.vf).cg.ex = s.cg.ex := h.ex
  have e : (s.freeV tc.vf).putP q f = { s.freeV tc.vf with cg := { (s.freeV tc.vf).cg with
      p := ((s.freeV tc.vf).cg.wrP q s.cg.ex f).p } } := by
    unfold State.putP
    rw [hex]
    congr 1
    exact wrP_rest _ _ _ _
  have m : Moved ((s.freeV tc.vf).putP q f) (((s.freeV tc.vf).putP q f).finish sw) :=
    branch_moved _ sw fun _ => ((s.freeV tc.vf).putP q f).cg.ia + 4
  have ep : ∀ r l, ((s.freeV tc.vf).putP q f).rdP r l =
      State.rdP { s.freeV tc.vf with cg := (s.freeV tc.vf).cg.wrP q s.cg.ex f } r l := by
    intro r l; unfold State.putP; rw [hex]
  have e0 : ∀ r l, (s.freeV tc.vf).rdP r l = s.rdP r l := by
    intro r l; unfold State.rdP; rw [h.cg]
  refine ⟨?_, ?_, ?_, ?_, ?_⟩
  · refine Framed.of_vp h ((s.freeV tc.vf).cg.wrP q s.cg.ex f).p (by rw [← e]; exact m) tc [q.val] (fun r hr => .inr hr) ?_
    intro p l hp
    rw [← e, ep, wrP_other _ _ _ _ _ _ (by simpa using hp), e0]
  · intro l hl
    have hcur : ((s.freeV tc.vf).putP q f).cg.curPcs = s.cg.curPcs := by rw [e]; exact h.pcs
    have hia : ((s.freeV tc.vf).putP q f).cg.ia = s.cg.ia := by unfold Group.ia; rw [hcur]
    have hx : ((s.freeV tc.vf).putP q f).cg.ex = s.cg.ex := by funext l; unfold Group.ex; rw [hcur, hia]
    rw [finish_lanes _ sw l (by rw [e]; show l < (s.freeV tc.vf).cg.width; rw [h.width]; exact hl), hx, hia, hcur]
  · rw [m.cg, e]; show (s.freeV tc.vf).cg.fflags = _; rw [h.cg]
  · intro l hl
    rw [m.rdP, ep, wrP_rd _ _ q.isLt _ _ _ hl, e0]
  · intro hh r hr hr64 hnw
    refine (m.map r).trans ?_
    rw [e]
    exact freeV_mapOf s tc.vf hh r hr

/-! ## Floating words (R42, R43) -/

/-- A floating word whose operands let it run: an enabled flag writes nothing but the flags and traps (R43); else the flags
collect and the word writes (R42). -/
theorem floatWord_does {s : State} {tc : Touch} (h : s.canRun tc = true) (cross : Bool) (fl : Nat → Nat)
    (write : State → State) :
    (s.cg.enabled (s.cg.raised fl) = false →
      s.floatWord tc cross fl write = write (withFlags s (s.cg.fflags ||| BitVec.ofNat 5 (s.cg.raised fl)))) ∧
    (s.cg.enabled (s.cg.raised fl) = true →
      s.floatWord tc cross fl write = (withFlags s (s.cg.fflags ||| BitVec.ofNat 5 (s.cg.raised fl))).trapWith 0x0B 0 s.wordAddr
        (laneMask (s.cg.exLanes.filter fun l => cross || Nat.land (fl l) s.cg.fmask.toNat != 0))) := by
  unfold State.floatWord
  rw [operands_run h]
  refine ⟨fun he => ?_, fun he => ?_⟩
  · simp only [he, Bool.false_eq_true, if_false]; rfl
  · simp only [he, if_true]; rfl

end Sys2Proof.Machine
end

