-- ==== Sys2Proof/Laws/Integer.lean ====
section
/-! SUPPORT. The exact integer operations of R177 and R178 and the bit vectors that statements name. -/

namespace Sys2Proof.Machine

theorem wrap_ofInt (n : Nat) (x : Int) : wrap n x = (BitVec.ofInt n x).toNat := by
  rw [BitVec.toNat_ofInt]; rfl
theorem sext_toInt (n x : Nat) : 0 < n → sext n x = (BitVec.ofNat n x).toInt := by
  intro hn
  obtain ⟨m, rfl⟩ : ∃ m, n = m + 1 := ⟨n - 1, by omega⟩
  unfold sext
  rw [BitVec.toInt_eq_toNat_cond, BitVec.toNat_ofNat]
  have h2 : 2 ^ (m + 1) = 2 * 2 ^ m := by rw [Nat.pow_succ]; omega
  have h1 : m + 1 - 1 = m := rfl
  rw [h1]
  by_cases h : 2 ^ m ≤ x % 2 ^ (m + 1)
  · rw [if_pos h, if_neg (by omega)]
  · rw [if_neg h, if_pos (by omega)]
theorem ofNat_mod (n x : Nat) : BitVec.ofNat n (x % 2 ^ n) = BitVec.ofNat n x := by
  apply BitVec.eq_of_toNat_eq
  rw [BitVec.toNat_ofNat, BitVec.toNat_ofNat, Nat.mod_mod]
/-- The bit vector of an operand's integer (R177). -/
theorem ofInt_val (t : T4) (x : Nat) : BitVec.ofInt t.nb (T4.val t x) = BitVec.ofNat t.nb x := by
  cases t
  · show BitVec.ofInt 32 (sext 32 x) = BitVec.ofNat 32 x
    rw [sext_toInt 32 x (by decide), BitVec.ofInt_toInt]
  · show BitVec.ofInt 32 ((x % 2 ^ 32 : Nat) : Int) = BitVec.ofNat 32 x
    rw [BitVec.ofInt_natCast, ofNat_mod]
  · show BitVec.ofInt 64 (sext 64 x) = BitVec.ofNat 64 x
    rw [sext_toInt 64 x (by decide), BitVec.ofInt_toInt]
  · show BitVec.ofInt 64 ((x % 2 ^ 64 : Nat) : Int) = BitVec.ofNat 64 x
    rw [BitVec.ofInt_natCast, ofNat_mod]

theorem iopAdd_bv (t : T4) (x y : Nat) : iopAdd t x y = bvAdd t x y := by
  rw [iopAdd, wrap_ofInt, BitVec.ofInt_add, ofInt_val, ofInt_val, bvAdd]
theorem iopSub_bv (t : T4) (x y : Nat) : iopSub t x y = bvSub t x y := by
  rw [iopSub, wrap_ofInt, Int.sub_eq_add_neg, BitVec.ofInt_add, BitVec.ofInt_neg, ofInt_val, ofInt_val, bvSub,
    BitVec.sub_eq_add_neg]
theorem iopMul_bv (t : T4) (x y : Nat) : iopMul t x y = bvMul t x y := by
  rw [iopMul, wrap_ofInt, BitVec.ofInt_mul, ofInt_val, ofInt_val, bvMul]
theorem iopMad_bv (t : T4) (x y z : Nat) : iopMad t x y z = bvMad t x y z := by
  rw [iopMad, wrap_ofInt, BitVec.ofInt_add, BitVec.ofInt_mul, ofInt_val, ofInt_val, ofInt_val, bvMad]

theorem wrap_val (t : T4) (x : Nat) : wrap t.nb (T4.val t x) = x % 2 ^ t.nb := by
  rw [wrap_ofInt, ofInt_val, BitVec.toNat_ofNat]
theorem bvLe_val (t : T4) (x y : Nat) : bvLe t x y = decide (T4.val t x ≤ T4.val t y) := by
  cases t
  · show (BitVec.ofNat 32 x).sle (BitVec.ofNat 32 y) = decide (sext 32 x ≤ sext 32 y)
    rw [sext_toInt 32 x (by decide), sext_toInt 32 y (by decide)]; rfl
  · show (BitVec.ofNat 32 x).ule (BitVec.ofNat 32 y) = decide (((x % 2 ^ 32 : Nat) : Int) ≤ ((y % 2 ^ 32 : Nat) : Int))
    exact decide_eq_decide.2 Int.ofNat_le.symm
  · show (BitVec.ofNat 64 x).sle (BitVec.ofNat 64 y) = decide (sext 64 x ≤ sext 64 y)
    rw [sext_toInt 64 x (by decide), sext_toInt 64 y (by decide)]; rfl
  · show (BitVec.ofNat 64 x).ule (BitVec.ofNat 64 y) = decide (((x % 2 ^ 64 : Nat) : Int) ≤ ((y % 2 ^ 64 : Nat) : Int))
    exact decide_eq_decide.2 Int.ofNat_le.symm
theorem iopMin_bv (t : T4) (x y : Nat) : iopMin t x y = bvMin t x y := by
  unfold iopMin bvMin
  rw [bvLe_val]
  by_cases h : T4.val t x ≤ T4.val t y
  · rw [Int.min_eq_left h, wrap_val, if_pos (decide_eq_true h)]
  · rw [Int.min_eq_right (by omega), wrap_val, if_neg (by simpa using h)]
theorem iopMax_bv (t : T4) (x y : Nat) : iopMax t x y = bvMax t x y := by
  unfold iopMax bvMax
  rw [bvLe_val]
  by_cases h : T4.val t x ≤ T4.val t y
  · rw [Int.max_eq_right h, wrap_val, if_pos (decide_eq_true h)]
  · rw [Int.max_eq_left (by omega), wrap_val, if_neg (by simpa using h)]

/-- The high half of a number reduced twice as wide. -/
theorem emod_ediv_pow (p : Int) (n : Nat) :
    ((p % ((2 ^ (2 * n) : Nat) : Int)).toNat >>> n) % 2 ^ n = (p / ((2 ^ n : Nat) : Int) % ((2 ^ n : Nat) : Int)).toNat := by
  have hp : (0 : Int) < ((2 ^ n : Nat) : Int) := by exact_mod_cast Nat.two_pow_pos n
  have e2 : ((2 ^ (2 * n) : Nat) : Int) = ((2 ^ n : Nat) : Int) * ((2 ^ n : Nat) : Int) := by
    rw [show 2 * n = n + n by omega, Nat.pow_add]; push_cast; rfl
  have hq : 0 ≤ p % ((2 ^ (2 * n) : Nat) : Int) := Int.emod_nonneg _ (by rw [e2]; exact Int.ne_of_gt (Int.mul_pos hp hp))
  have hr : 0 ≤ p / ((2 ^ n : Nat) : Int) % ((2 ^ n : Nat) : Int) := Int.emod_nonneg _ (Int.ne_of_gt hp)
  have key : p % (((2 ^ n : Nat) : Int) * ((2 ^ n : Nat) : Int)) / ((2 ^ n : Nat) : Int) =
      p / ((2 ^ n : Nat) : Int) % ((2 ^ n : Nat) : Int) := by
    generalize ((2 ^ n : Nat) : Int) = b at hp
    have h1 : p % (b * b) = p - b * b * (p / (b * b)) := by rw [Int.emod_def]
    have h2 : p / (b * b) = p / b / b := (Int.ediv_ediv_of_nonneg (Int.le_of_lt hp)).symm
    rw [h1, h2, Int.emod_def (p / b) b, show p - b * b * (p / b / b) = p + b * (-(b * (p / b / b))) by
      rw [Int.mul_assoc, Int.mul_neg]; omega, Int.add_mul_ediv_left _ _ (Int.ne_of_gt hp)]
    omega
  rw [e2] at hq ⊢
  rw [← key]
  apply Int.ofNat_inj.1
  rw [Int.toNat_of_nonneg (by rw [key]; exact hr), Nat.shiftRight_eq_div_pow, Int.natCast_emod, Int.natCast_ediv,
    Int.toNat_of_nonneg hq, key, Int.emod_emod]
theorem ext_ofInt (t : T4) (x : Nat) :
    (if signedT t then (BitVec.ofNat t.nb x).signExtend (2 * t.nb) else (BitVec.ofNat t.nb x).setWidth (2 * t.nb)) =
      BitVec.ofInt (2 * t.nb) (T4.val t x) := by
  cases t
  · show (BitVec.ofNat 32 x).signExtend 64 = BitVec.ofInt 64 (sext 32 x)
    rw [sext_toInt 32 x (by decide)]; rfl
  · show (BitVec.ofNat 32 x).setWidth 64 = BitVec.ofInt 64 ((x % 2 ^ 32 : Nat) : Int)
    rw [BitVec.ofInt_natCast]
    apply BitVec.eq_of_toNat_eq
    simp
  · show (BitVec.ofNat 64 x).signExtend 128 = BitVec.ofInt 128 (sext 64 x)
    rw [sext_toInt 64 x (by decide)]; rfl
  · show (BitVec.ofNat 64 x).setWidth 128 = BitVec.ofInt 128 ((x % 2 ^ 64 : Nat) : Int)
    rw [BitVec.ofInt_natCast]
    apply BitVec.eq_of_toNat_eq
    simp
theorem iopMulh_bv (t : T4) (x y : Nat) : iopMulh t x y = bvMulh t x y := by
  unfold iopMulh bvMulh
  simp only []
  rw [ext_ofInt, ext_ofInt, ← BitVec.ofInt_mul, BitVec.extractLsb'_toNat, BitVec.toNat_ofInt, emod_ediv_pow]
  rfl
theorem abs_bv (n x : Nat) (hn : 0 < n) : wrap n (sext n x).natAbs = bvAbs n x := by
  unfold bvAbs
  rw [sext_toInt n x hn]
  by_cases h : (BitVec.ofNat n x).msb = true
  · rw [if_pos h, wrap_ofInt]
    have : (((BitVec.ofNat n x).toInt.natAbs : Nat) : Int) = -(BitVec.ofNat n x).toInt := by
      have := BitVec.toInt_neg_of_msb_true h
      omega
    rw [this, BitVec.ofInt_neg, BitVec.ofInt_toInt]
  · rw [if_neg h, wrap_ofInt]
    have : (((BitVec.ofNat n x).toInt.natAbs : Nat) : Int) = (BitVec.ofNat n x).toInt := by
      have := BitVec.toInt_nonneg_of_msb_false (by simpa using h : (BitVec.ofNat n x).msb = false)
      omega
    rw [this, BitVec.ofInt_toInt, BitVec.toNat_ofNat]
theorem lea_bv (x y sh : Nat) : lea x y sh = bvLea x y sh := by
  unfold lea bvLea
  rw [wrap_ofInt, BitVec.ofInt_add, BitVec.ofInt_mul, sext_toInt 32 y (by decide), BitVec.ofInt_natCast, BitVec.ofInt_natCast,
    BitVec.shiftLeft_eq_mul_twoPow]
  congr 3
  apply BitVec.eq_of_toNat_eq
  simp [BitVec.toNat_twoPow]

theorem not_ofNat (y : Nat) : ~~~(BitVec.ofNat 32 y) = BitVec.ofNat 32 (y % 2 ^ 32 ^^^ (2 ^ 32 - 1)) := by
  apply BitVec.eq_of_getLsbD_eq
  intro i hi
  rw [BitVec.getLsbD_not, BitVec.getLsbD_ofNat, BitVec.getLsbD_ofNat, Nat.testBit_xor, Nat.testBit_mod_two_pow,
    Nat.testBit_two_pow_sub_one]
  simp [hi]
theorem log8_bv (f : Log8) (x y : Nat) : log8 f x y = bvLog f x y := by
  have m : ∀ z, (z % 2 ^ 32 ^^^ (2 ^ 32 - 1)) % 2 ^ 32 = z % 2 ^ 32 ^^^ (2 ^ 32 - 1) := fun z =>
    Nat.mod_eq_of_lt (Nat.xor_lt_two_pow (Nat.mod_lt _ (by decide)) (by decide))
  have e : ∀ v : BitVec 32, (~~~v).toNat = v.toNat ^^^ (2 ^ 32 - 1) := by
    intro v
    have := not_ofNat v.toNat
    rw [BitVec.ofNat_toNat, BitVec.setWidth_eq] at this
    rw [this, BitVec.toNat_ofNat, Nat.mod_eq_of_lt v.isLt, Nat.mod_eq_of_lt (Nat.xor_lt_two_pow v.isLt (by decide))]
  cases f <;> simp only [log8, bvLog, e, BitVec.toNat_and, BitVec.toNat_or, BitVec.toNat_xor, BitVec.toNat_ofNat]

/-- A shift of a two's complement number to the right stays in its range. -/
theorem bmod_ediv {n : Nat} (v : BitVec n) (k : Nat) :
    (v.toInt / ((2 ^ k : Nat) : Int)).bmod (2 ^ n) = v.toInt / ((2 ^ k : Nat) : Int) := by
  have h := BitVec.toInt_sshiftRight (x := v) (n := k)
  rw [Int.shiftRight_eq_div_pow] at h
  rw [← h]
  exact BitVec.toInt_bmod_cancel _

theorem sh7_bv (f : Sh7) (x y : Nat) (hx : x < if f.wide then 2 ^ 64 else 2 ^ 32) : sh7 f x y = bvShift f x y := by
  cases f
  · simp [sh7, bvShift, BitVec.toNat_shiftLeft, Nat.shiftLeft_eq, Nat.mod_mul_mod]
  · have hx' : x < 2 ^ 32 := hx
    simp only [sh7, bvShift, BitVec.toNat_ushiftRight, BitVec.toNat_ofNat, Nat.shiftRight_eq_div_pow]
    rw [Nat.mod_eq_of_lt hx']
  · simp only [sh7, bvShift]
    rw [wrap_ofInt, sext_toInt 32 x (by decide)]
    congr 1
    apply BitVec.eq_of_toInt_eq
    rw [BitVec.toInt_sshiftRight, BitVec.toInt_ofInt, Int.shiftRight_eq_div_pow]
    apply bmod_ediv
  · simp only [sh7, bvShift]
    have hx' : x < 2 ^ 32 := hx
    rw [BitVec.toNat_rotateLeft, BitVec.toNat_ofNat, Nat.mod_eq_of_lt hx', Nat.shiftLeft_eq, Nat.shiftRight_eq_div_pow,
      Nat.mod_mod]
    have hk : y % 32 < 32 := Nat.mod_lt _ (by decide)
    generalize y % 32 = k at hk
    have hb : x / 2 ^ (32 - k) < 2 ^ k := by
      rw [Nat.div_lt_iff_lt_mul (Nat.two_pow_pos _), ← Nat.pow_add, show k + (32 - k) = 32 by omega]
      exact hx'
    have ha : x * 2 ^ k % 2 ^ 32 = 2 ^ k * (x % 2 ^ (32 - k)) := by
      rw [show (2 : Nat) ^ 32 = 2 ^ k * 2 ^ (32 - k) by rw [← Nat.pow_add]; congr 1; omega, Nat.mul_comm x,
        Nat.mul_mod_mul_left]
    have hl : 2 ^ k * (x % 2 ^ (32 - k)) + x / 2 ^ (32 - k) < 2 ^ 32 := by
      have h1 : x % 2 ^ (32 - k) + 1 ≤ 2 ^ (32 - k) := Nat.mod_lt _ (Nat.two_pow_pos _)
      have h2 := Nat.mul_le_mul_left (2 ^ k) h1
      rw [← Nat.pow_add, show k + (32 - k) = 32 by omega, Nat.mul_add] at h2
      omega
    rw [Nat.add_mod, ha, ← Nat.two_pow_add_eq_or_of_lt hb, Nat.mod_eq_of_lt (Nat.lt_trans hb (Nat.pow_lt_pow_right (by decide) hk)),
      Nat.mod_eq_of_lt hl]
  · simp [sh7, bvShift, BitVec.toNat_shiftLeft, Nat.shiftLeft_eq, Nat.mod_mul_mod]
  · have hx' : x < 2 ^ 64 := hx
    simp only [sh7, bvShift, BitVec.toNat_ushiftRight, BitVec.toNat_ofNat, Nat.shiftRight_eq_div_pow]
    rw [Nat.mod_eq_of_lt hx']
  · simp only [sh7, bvShift]
    rw [wrap_ofInt, sext_toInt 64 x (by decide)]
    congr 1
    apply BitVec.eq_of_toInt_eq
    rw [BitVec.toInt_sshiftRight, BitVec.toInt_ofInt, Int.shiftRight_eq_div_pow]
    apply bmod_ediv


theorem bit_testBit (x i : Nat) : bit x i = x.testBit i := by
  unfold bit
  rw [Nat.testBit_eq_decide_div_mod_eq]
  by_cases h : x / 2 ^ i % 2 = 1 <;> simp [h]
theorem findIdx_head (p : Nat → Bool) (n a : Nat) :
    ((List.range' a n).findIdx? p).map (· + a) = ((List.range' a n).filter p).head? := by
  induction n generalizing a with
  | zero => rfl
  | succ n ih =>
    rw [List.range'_succ, List.findIdx?_cons, List.filter_cons]
    by_cases h : p a = true
    · simp [h]
    · rw [if_neg h, if_neg h, ← ih (a + 1)]
      simp only [Option.map_map]
      congr 1
      funext i
      show i + 1 + a = i + (a + 1)
      omega
theorem ffs_bv (x : Nat) : bitsFn .ffs x = ((List.range 32).filter fun i => x.testBit i).headD 32 := by
  have h := findIdx_head (fun i => bit x i) 32 0
  have e : (List.range 32).filter (fun i => bit x i) = (List.range 32).filter fun i => x.testBit i := by
    simp only [bit_testBit]
  rw [← e, List.headD_eq_head?_getD, List.range_eq_range', ← h]
  simp [bitsFn, List.range_eq_range']
theorem clz_bv (x : Nat) (hx : x < 2 ^ 32) : bitsFn .clz x = if x = 0 then 32 else 31 - Nat.log2 x := by
  unfold bitsFn
  simp only [bit_testBit]
  by_cases h0 : x = 0
  · subst h0; simp only [Nat.zero_testBit, if_true]; decide
  · rw [if_neg h0]
    have hl : Nat.log2 x < 32 := (Nat.log2_lt h0).2 hx
    have : (List.range 32).findIdx? (fun i => x.testBit (31 - i)) = some (31 - Nat.log2 x) := by
      rw [List.findIdx?_eq_some_iff_getElem]
      refine ⟨by simp; omega, ?_, ?_⟩
      · rw [List.getElem_range, show 31 - (31 - Nat.log2 x) = Nat.log2 x by omega]
        exact Nat.testBit_log2 h0
      · intro j hj
        rw [List.getElem_range]
        have hlt : x < 2 ^ (31 - j) := by
          rw [← Nat.log2_lt h0]; omega
        simp [Nat.testBit_lt_two_pow hlt]
    rw [this]; rfl
theorem sumTo_succ (n : Nat) (f : Nat → Nat) : sumTo (n + 1) f = sumTo n f + f n := by
  simp [sumTo, tab, List.range_succ]
theorem sumTo_zero (f : Nat → Nat) : sumTo 0 f = 0 := rfl
theorem popc_bv (x n : Nat) : sumTo n (fun i => b2n (bit x i)) = (List.range n).countP fun i => x.testBit i := by
  induction n with
  | zero => rfl
  | succ n ih =>
    rw [sumTo_succ, ih, List.range_succ, List.countP_append, bit_testBit]
    by_cases h : x.testBit n <;> simp [b2n, h]
theorem sumTo_bits (p : Nat → Bool) (n : Nat) :
    sumTo n (fun j => b2n (p j) * 2 ^ j) < 2 ^ n ∧ ∀ i, (sumTo n fun j => b2n (p j) * 2 ^ j).testBit i = (decide (i < n) && p i) := by
  induction n with
  | zero => exact ⟨by simp [sumTo, tab], fun i => by simp [sumTo, tab]⟩
  | succ n ih =>
    rw [sumTo_succ]
    have hb : b2n (p n) ≤ 1 := by unfold b2n; split <;> decide
    refine ⟨?_, fun i => ?_⟩
    · rw [Nat.pow_succ]
      have : b2n (p n) * 2 ^ n ≤ 1 * 2 ^ n := Nat.mul_le_mul_right _ hb
      omega
    · rw [Nat.add_comm, Nat.mul_comm, Nat.two_pow_add_eq_or_of_lt ih.1, Nat.testBit_or, ih.2, Nat.testBit_two_pow_mul]
      by_cases h1 : i < n
      · have : ¬ n ≤ i := by omega
        simp [h1, this, show i < n + 1 by omega]
      · by_cases h2 : i = n
        · subst h2
          cases hp : p i <;> simp [b2n]
        · have : i - n ≠ 0 := by omega
          have h3 : ¬ i < n + 1 := by omega
          have h4 : Nat.testBit 1 (i - n) = false := Nat.testBit_lt_two_pow (Nat.one_lt_two_pow this)
          cases hp : p n <;> simp [b2n, h1, h3, h4]
theorem brev_bv (x : Nat) : bitsFn .brev x = (BitVec.ofNat 32 x).reverse.toNat := by
  apply Nat.eq_of_testBit_eq
  intro i
  have h := (sumTo_bits (fun j => bit x (31 - j)) 32).2 i
  refine (show (bitsFn .brev x).testBit i = _ from h).trans ?_
  rw [BitVec.testBit_toNat, BitVec.getLsbD_reverse, BitVec.getMsbD, BitVec.getLsbD_ofNat, bit_testBit]
  by_cases hi : i < 32
  · simp [hi, show 31 - i < 32 by omega]
  · simp [hi]
theorem bitsFn_bv (f : BitsFn) (x : Word) : bitsFn f x.toNat = match f with
    | .clz => if x = 0 then 32 else 31 - Nat.log2 x.toNat
    | .popc => (List.range 32).countP fun i => x.getLsbD i
    | .brev => x.reverse.toNat
    | .ffs => if x = 0 then 32 else ((List.range 32).filter fun i => x.getLsbD i).headD 32 := by
  have hz : x = 0 ↔ x.toNat = 0 := BitVec.toNat_eq.trans (by simp)
  cases f
  · rw [clz_bv _ x.isLt]; simp only [hz]
  · exact popc_bv x.toNat 32
  · show bitsFn .brev x.toNat = x.reverse.toNat
    rw [brev_bv]; simp
  · show bitsFn .ffs x.toNat = _
    rw [ffs_bv]
    by_cases h : x = 0
    · subst h; rfl
    · simp only [if_neg h]; rfl

theorem bfx_bv (sg : Bool) (x y : Nat) : bfx sg x y = bvBfx sg x y := by
  have hp : bits y 4 0 = y % 32 := by simp [bits]
  have hL : bits y 13 8 = y / 2 ^ 8 % 64 := rfl
  simp only [bfx, bvBfx, fieldAt, hp, hL]
  have hlt : y % 32 < 32 := Nat.mod_lt _ (by decide)
  generalize y % 32 = p at hlt
  have hle : min (y / 2 ^ 8 % 64) (32 - p) ≤ 32 - p := Nat.min_le_right _ _
  generalize min (y / 2 ^ 8 % 64) (32 - p) = len at hle
  have hf : ((BitVec.ofNat 32 x).extractLsb' p len).toNat = x / 2 ^ p % 2 ^ len := by
    rw [BitVec.extractLsb'_toNat, BitVec.toNat_ofNat, Nat.shiftRight_eq_div_pow,
      show (2 : Nat) ^ 32 = 2 ^ p * 2 ^ (32 - p) by rw [← Nat.pow_add]; congr 1; omega, Nat.mod_mul_right_div_self,
      Nat.mod_mod_of_dvd _ (Nat.pow_dvd_pow 2 hle)]
  by_cases h0 : len = 0
  · subst h0
    cases sg
    · simp
    · simp only [if_true]
      rw [show (BitVec.ofNat 32 x).extractLsb' p 0 = 0#0 from BitVec.eq_of_toNat_eq (by rw [hf]; simp [Nat.mod_one])]
      rfl
  · rw [if_neg h0]
    cases sg
    · exact hf.symm
    · simp only [if_true]
      rw [wrap_ofInt, sext_toInt _ _ (by omega), ← hf, BitVec.ofNat_toNat, BitVec.setWidth_eq]
      rfl
theorem bfi_bv (x y z : Nat) (hz : z < 2 ^ 32) : bfi x y z = bvBfi x y z := by
  have hp : bits y 4 0 = y % 32 := by simp [bits]
  have hL : bits y 13 8 = y / 2 ^ 8 % 64 := rfl
  simp only [bfi, bvBfi, fieldAt, hp, hL]
  have hlt : y % 32 < 32 := Nat.mod_lt _ (by decide)
  generalize y % 32 = p at hlt
  have hle : min (y / 2 ^ 8 % 64) (32 - p) ≤ 32 - p := Nat.min_le_right _ _
  generalize min (y / 2 ^ 8 % 64) (32 - p) = len at hle
  apply Nat.eq_of_testBit_eq
  intro i
  have e : z / 2 ^ (p + len) * 2 ^ (p + len) + x % 2 ^ len * 2 ^ p + z % 2 ^ p =
      2 ^ (p + len) * (z / 2 ^ (p + len)) + (2 ^ p * (x % 2 ^ len) + z % 2 ^ p) := by
    rw [Nat.mul_comm _ (2 ^ (p + len)), Nat.mul_comm _ (2 ^ p), Nat.add_assoc]
  have h1 : z % 2 ^ p < 2 ^ p := Nat.mod_lt _ (Nat.two_pow_pos _)
  have h2 : 2 ^ p * (x % 2 ^ len) + z % 2 ^ p < 2 ^ (p + len) := by
    have h3 : x % 2 ^ len + 1 ≤ 2 ^ len := Nat.mod_lt _ (Nat.two_pow_pos _)
    have h4 := Nat.mul_le_mul_left (2 ^ p) h3
    rw [← Nat.pow_add, Nat.mul_add] at h4
    omega
  rw [e, Nat.two_pow_add_eq_or_of_lt h2, Nat.two_pow_add_eq_or_of_lt h1, BitVec.testBit_toNat]
  simp only [Nat.testBit_or, Nat.testBit_two_pow_mul, Nat.testBit_div_two_pow, Nat.testBit_mod_two_pow, BitVec.getLsbD_or,
    BitVec.getLsbD_and, BitVec.getLsbD_not, BitVec.getLsbD_shiftLeft, BitVec.getLsbD_ofNat, Nat.testBit_two_pow_sub_one]
  by_cases hi : i < 32
  · by_cases c1 : i < p
    · simp [hi, c1, show ¬ p + len ≤ i by omega, show ¬ p ≤ i by omega]
    · by_cases c2 : p + len ≤ i
      · simp [hi, c1, c2, show p ≤ i by omega, show ¬ i - p < len by omega, show i - (p + len) + (p + len) = i by omega]
      · simp [hi, c1, c2, show p ≤ i by omega, show i - p < len by omega, show i - p < 32 by omega]
  · have : z.testBit i = false := Nat.testBit_lt_two_pow (Nat.lt_of_lt_of_le hz (Nat.pow_le_pow_right (by decide) (by omega)))
    by_cases c2 : p + len ≤ i
    · simp [hi, c2, show p ≤ i by omega, show ¬ i - p < len by omega, show ¬ i < p by omega, show i - (p + len) + (p + len) = i by omega, this]
    · omega

/-- FSGN's value: the magnitude of x under a sign (R184). -/
theorem fsgn_bv (f : SgnFn) (n x y : Nat) (hn : 0 < n) (hx : x < 2 ^ n) :
    fsgn f n x y = (match f with
      | .abs => (BitVec.ofNat n x &&& ~~~BitVec.twoPow n (n - 1)).toNat
      | .neg => (BitVec.ofNat n x ^^^ BitVec.twoPow n (n - 1)).toNat
      | .negabs => (BitVec.ofNat n x ||| BitVec.twoPow n (n - 1)).toNat
      | .copysign => ((BitVec.ofNat n x &&& ~~~BitVec.twoPow n (n - 1)) |||
          (BitVec.ofNat n y &&& BitVec.twoPow n (n - 1))).toNat) := by
  have key : ∀ c : Bool, x % 2 ^ (n - 1) + 2 ^ (n - 1) * b2n c =
      2 ^ (n - 1) * b2n c ||| x % 2 ^ (n - 1) := by
    intro c
    rw [Nat.add_comm, Nat.two_pow_add_eq_or_of_lt (Nat.mod_lt _ (Nat.two_pow_pos _))]
  have sg : ∀ z, z / 2 ^ (n - 1) % 2 = b2n (z.testBit (n - 1)) := by
    intro z
    rw [Nat.testBit_eq_decide_div_mod_eq]
    unfold b2n
    by_cases h : z / 2 ^ (n - 1) % 2 = 1
    · simp [h]
    · simp only [h, decide_false, Bool.false_eq_true, if_false]; omega
  have bt : ∀ (c : Bool) (i : Nat), (2 ^ (n - 1) * b2n c ||| x % 2 ^ (n - 1)).testBit i =
      if i = n - 1 then c else x.testBit i := by
    intro c i
    rw [Nat.testBit_or, Nat.testBit_two_pow_mul, Nat.testBit_mod_two_pow]
    by_cases h : i = n - 1
    · subst h; cases c <;> simp [b2n]
    · rw [if_neg h]
      by_cases h2 : i < n - 1
      · simp [h2, show ¬ n - 1 ≤ i by omega]
      · have h3 : x.testBit i = false :=
          Nat.testBit_lt_two_pow (Nat.lt_of_lt_of_le hx (Nat.pow_le_pow_right (by decide) (by omega)))
        have h4 : Nat.testBit 1 (i - (n - 1)) = false := Nat.testBit_lt_two_pow (Nat.one_lt_two_pow (by omega))
        cases c <;> simp [b2n, h2, h3, h4]
  have tp : ∀ i, (BitVec.twoPow n (n - 1)).getLsbD i = decide (i = n - 1) := by
    intro i
    rw [BitVec.getLsbD_twoPow]
    by_cases h : i = n - 1
    · subst h; simp [show n - 1 < n by omega]
    · simp [h, show n - 1 ≠ i by omega]
  have big : ∀ i, n ≤ i → x.testBit i = false := fun i h =>
    Nat.testBit_lt_two_pow (Nat.lt_of_lt_of_le hx (Nat.pow_le_pow_right (by decide) h))
  have fin : ∀ (c : Bool) (v : BitVec n), (∀ i, i < n → v.getLsbD i = if i = n - 1 then c else x.testBit i) →
      x % 2 ^ (n - 1) + 2 ^ (n - 1) * b2n c = v.toNat := by
    intro c v h
    rw [key]
    apply Nat.eq_of_testBit_eq
    intro i
    rw [bt, BitVec.testBit_toNat]
    by_cases hi : i < n
    · rw [h i hi]
    · rw [if_neg (by omega), big i (by omega), BitVec.getLsbD_of_ge _ _ (by omega)]
  cases f
  · simp only [fsgn]
    refine fin false _ fun i hi => ?_
    rw [BitVec.getLsbD_and, BitVec.getLsbD_not, tp, BitVec.getLsbD_ofNat]
    by_cases h : i = n - 1 <;> simp [h, hi]
  · simp only [fsgn]
    have : 1 - x / 2 ^ (n - 1) % 2 = b2n (!x.testBit (n - 1)) := by
      rw [sg]; cases x.testBit (n - 1) <;> rfl
    rw [this]
    refine fin _ _ fun i hi => ?_
    rw [BitVec.getLsbD_xor, tp, BitVec.getLsbD_ofNat]
    by_cases h : i = n - 1
    · subst h; simp [hi]
    · simp [h, hi]
  · simp only [fsgn]
    rw [sg]
    refine fin _ _ fun i hi => ?_
    rw [BitVec.getLsbD_or, BitVec.getLsbD_and, BitVec.getLsbD_and, BitVec.getLsbD_not, tp, BitVec.getLsbD_ofNat, BitVec.getLsbD_ofNat]
    by_cases h : i = n - 1
    · subst h; simp [hi]
    · simp [h, hi]
  · simp only [fsgn]
    refine fin true _ fun i hi => ?_
    rw [BitVec.getLsbD_or, tp, BitVec.getLsbD_ofNat]
    by_cases h : i = n - 1 <;> simp [h, hi]

/-- PACK and UNPK place whole pieces (R192). -/
theorem pack_bv (f : Piece) (x y : Nat) : pack f x y =
    (let bx (i : Nat) : Nat := x / 2 ^ (8 * i) % 256
    let bY (i : Nat) : Nat := y / 2 ^ (8 * i) % 256
    match f with
    | .b16 => (BitVec.ofNat 16 y ++ BitVec.ofNat 16 x).toNat
    | .b8 => ofBytes [BitVec.ofNat 8 (bx 0), BitVec.ofNat 8 (bx 2), BitVec.ofNat 8 (bY 0), BitVec.ofNat 8 (bY 2)]
    | .b4 => bx 0 % 16 + bx 1 % 16 * 2 ^ 4 + bx 2 % 16 * 2 ^ 8 + bx 3 % 16 * 2 ^ 12 +
        bY 0 % 16 * 2 ^ 16 + bY 1 % 16 * 2 ^ 20 + bY 2 % 16 * 2 ^ 24 + bY 3 % 16 * 2 ^ 28) := by
  cases f
  · simp only [pack]
    rw [BitVec.toNat_append, BitVec.toNat_ofNat, BitVec.toNat_ofNat,
      ← Nat.shiftLeft_add_eq_or_of_lt (Nat.mod_lt _ (by decide)), Nat.shiftLeft_eq]
    omega
  · simp [pack, byteAt, ofBytes]
    omega
  · simp only [pack, sumTo_succ, sumTo_zero, byteAt]
    rw [show (2 : Nat) ^ 8 = 256 by decide]
    generalize x / 2 ^ (8 * 0) % 256 % 16 = a0
    generalize x / 2 ^ (8 * 1) % 256 % 16 = a1
    generalize x / 2 ^ (8 * 2) % 256 % 16 = a2
    generalize x / 2 ^ (8 * 3) % 256 % 16 = a3
    generalize y / 2 ^ (8 * 0) % 256 % 16 = a4
    generalize y / 2 ^ (8 * 1) % 256 % 16 = a5
    generalize y / 2 ^ (8 * 2) % 256 % 16 = a6
    generalize y / 2 ^ (8 * 3) % 256 % 16 = a7
    omega
theorem nibble_bv (x j : Nat) : (BitVec.ofNat 8 (x / 2 ^ (4 * j) % 16)).toNat = nibbleAt x j := by
  rw [BitVec.toNat_ofNat, nibbleAt]
  exact Nat.mod_eq_of_lt (Nat.lt_trans (Nat.mod_lt _ (by decide)) (by decide))
theorem unpk_bv (f : Piece) (x : Nat) : unpk f x =
    (let byte_ (i : Nat) : Byte := BitVec.ofNat 8 (x / 2 ^ (8 * i))
    let nib (i : Nat) : Byte := BitVec.ofNat 8 (x / 2 ^ (4 * i) % 16)
    match f with
    | .b16 => ofBytes [byte_ 0, byte_ 1, 0, 0, byte_ 2, byte_ 3, 0, 0]
    | .b8 => ofBytes [byte_ 0, 0, byte_ 1, 0, byte_ 2, 0, byte_ 3, 0]
    | .b4 => ofBytes [nib 0, nib 1, nib 2, nib 3, nib 4, nib 5, nib 6, nib 7]) := by
  cases f
  · simp [unpk, ofBytes]
    omega
  · simp [unpk, byteAt, ofBytes]
    omega
  · simp only [unpk, sumTo_succ, sumTo_zero, ofBytes, nibble_bv]
    generalize nibbleAt x 0 = a0
    generalize nibbleAt x 1 = a1
    generalize nibbleAt x 2 = a2
    generalize nibbleAt x 3 = a3
    generalize nibbleAt x 4 = a4
    generalize nibbleAt x 5 = a5
    generalize nibbleAt x 6 = a6
    generalize nibbleAt x 7 = a7
    omega
/-- A v operand is a word or a pair of words. -/
theorem vNum_lt (s : State) (r : Nat) (w : Bool) (l : Nat) : s.vNum r w l < if w then 2 ^ 64 else 2 ^ 32 := by
  unfold State.vNum
  cases w
  · exact (s.rdV r l).isLt
  · simp only [if_true, State.rdV64]
    have := (s.rdV r l).isLt
    have := (s.rdV (r + 1) l).isLt
    omega
theorem sNum_lt (s : State) (r : Nat) (w : Bool) : s.sNum r w < if w then 2 ^ 64 else 2 ^ 32 := by
  unfold State.sNum
  cases w
  · exact (s.rdS r).isLt
  · simp only [if_true, State.rdS64]
    have := (s.rdS r).isLt
    have := (s.rdS (r + 1)).isLt
    omega
/-- A 32-bit word plus a signed constant. -/
theorem addK_bv {n : Nat} (x : Word) (k : BitVec n) : wrap 32 ((x.toNat : Int) + k.toInt) = (x + k.signExtend 32).toNat := by
  rw [wrap_ofInt, BitVec.ofInt_add, BitVec.ofInt_natCast, BitVec.ofNat_toNat, BitVec.setWidth_eq]
  rfl
theorem signK_bv {n : Nat} (k : BitVec n) : wrap 32 k.toInt = (k.signExtend 32).toNat := by
  rw [wrap_ofInt]
  rfl

end Sys2Proof.Machine
end

