-- ==== Sys2Proof/Laws/State.lean ====
section
/-! SUPPORT. What each update of the state does to each of its fields: rewriting rules, so that no proof unfolds an update. -/

namespace Sys2Proof.Machine

@[simp] theorem State.spend_fields (s : State) (n : Nat) :
    (s.spend n).const = s.const ∧ (s.spend n).powered = s.powered ∧ (s.spend n).broken = s.broken ∧ (s.spend n).now = s.now ∧
    (s.spend n).mem = s.mem ∧ (s.spend n).hostMem = s.hostMem ∧ (s.spend n).ecc = s.ecc ∧ (s.spend n).corrected = s.corrected ∧
    (s.spend n).vers = s.vers ∧ (s.spend n).wclock = s.wclock ∧ (s.spend n).wrote = s.wrote ∧
    (s.spend n).hostWrote = s.hostWrote ∧ (s.spend n).ptes = s.ptes ∧ (s.spend n).dies = s.dies ∧ (s.spend n).links = s.links ∧
    (s.spend n).sent = s.sent ∧ (s.spend n).cpls = s.cpls ∧ (s.spend n).fw = s.fw ∧ (s.spend n).loadWin = s.loadWin ∧
    (s.spend n).ident = s.ident ∧ (s.spend n).akey = s.akey ∧ (s.spend n).parts = s.parts ∧ (s.spend n).streams = s.streams ∧
    (s.spend n).tasks = s.tasks ∧ (s.spend n).groups = s.groups ∧ (s.spend n).blocks = s.blocks ∧ (s.spend n).gangs = s.gangs ∧
    (s.spend n).cores = s.cores ∧ (s.spend n).clusters = s.clusters ∧ (s.spend n).reqs = s.reqs ∧
    (s.spend n).copies = s.copies ∧ (s.spend n).sends = s.sends ∧ (s.spend n).mirrors = s.mirrors ∧
    (s.spend n).layers = s.layers ∧ (s.spend n).aids = s.aids ∧ (s.spend n).gens = s.gens ∧
    (s.spend n).freeSlots = s.freeSlots ∧ (s.spend n).unused = s.unused ∧ (s.spend n).resol = s.resol ∧
    (s.spend n).migs = s.migs ∧ (s.spend n).cp = s.cp ∧ (s.spend n).cpId = s.cpId ∧ (s.spend n).cst = s.cst ∧
    (s.spend n).cstId = s.cstId ∧ (s.spend n).cb = s.cb ∧ (s.spend n).cbId = s.cbId ∧ (s.spend n).cg = s.cg ∧
    (s.spend n).cgId = s.cgId ∧ (s.spend n).cc = s.cc ∧ (s.spend n).ccId = s.ccId ∧ (s.spend n).turns = s.turns ∧
    (s.spend n).tick = s.tick ∧ (s.spend n).free = s.free + n ∧ (s.spend n).nextId = s.nextId := by
  exact ⟨rfl, rfl, rfl, rfl, rfl, rfl, rfl, rfl, rfl, rfl, rfl, rfl, rfl, rfl, rfl, rfl, rfl, rfl, rfl, rfl, rfl, rfl, rfl, rfl, rfl, rfl, rfl, rfl, rfl, rfl, rfl, rfl, rfl, rfl, rfl, rfl, rfl, rfl, rfl, rfl, rfl, rfl, rfl, rfl, rfl, rfl, rfl, rfl, rfl, rfl, rfl, rfl, rfl, rfl⟩

@[simp] theorem State.updTask_fields (s : State) (k : Nat) (f : Task → Task) :
    (s.updTask k f).const = s.const ∧ (s.updTask k f).powered = s.powered ∧ (s.updTask k f).broken = s.broken ∧
    (s.updTask k f).now = s.now ∧ (s.updTask k f).mem = s.mem ∧ (s.updTask k f).hostMem = s.hostMem ∧
    (s.updTask k f).ecc = s.ecc ∧ (s.updTask k f).corrected = s.corrected ∧ (s.updTask k f).vers = s.vers ∧
    (s.updTask k f).wclock = s.wclock ∧ (s.updTask k f).wrote = s.wrote ∧ (s.updTask k f).hostWrote = s.hostWrote ∧
    (s.updTask k f).ptes = s.ptes ∧ (s.updTask k f).dies = s.dies ∧ (s.updTask k f).links = s.links ∧
    (s.updTask k f).sent = s.sent ∧ (s.updTask k f).cpls = s.cpls ∧ (s.updTask k f).fw = s.fw ∧
    (s.updTask k f).loadWin = s.loadWin ∧ (s.updTask k f).ident = s.ident ∧ (s.updTask k f).akey = s.akey ∧
    (s.updTask k f).parts = s.parts ∧ (s.updTask k f).streams = s.streams ∧ (s.updTask k f).tasks = s.tasks.upd k f ∧
    (s.updTask k f).groups = s.groups ∧ (s.updTask k f).blocks = s.blocks ∧ (s.updTask k f).gangs = s.gangs ∧
    (s.updTask k f).cores = s.cores ∧ (s.updTask k f).clusters = s.clusters ∧ (s.updTask k f).reqs = s.reqs ∧
    (s.updTask k f).copies = s.copies ∧ (s.updTask k f).sends = s.sends ∧ (s.updTask k f).mirrors = s.mirrors ∧
    (s.updTask k f).layers = s.layers ∧ (s.updTask k f).aids = s.aids ∧ (s.updTask k f).gens = s.gens ∧
    (s.updTask k f).freeSlots = s.freeSlots ∧ (s.updTask k f).unused = s.unused ∧ (s.updTask k f).resol = s.resol ∧
    (s.updTask k f).migs = s.migs ∧ (s.updTask k f).cp = s.cp ∧ (s.updTask k f).cpId = s.cpId ∧ (s.updTask k f).cst = s.cst ∧
    (s.updTask k f).cstId = s.cstId ∧ (s.updTask k f).cb = s.cb ∧ (s.updTask k f).cbId = s.cbId ∧ (s.updTask k f).cg = s.cg ∧
    (s.updTask k f).cgId = s.cgId ∧ (s.updTask k f).cc = s.cc ∧ (s.updTask k f).ccId = s.ccId ∧
    (s.updTask k f).turns = s.turns ∧ (s.updTask k f).tick = s.tick ∧ (s.updTask k f).free = s.free ∧
    (s.updTask k f).nextId = s.nextId := by
  exact ⟨rfl, rfl, rfl, rfl, rfl, rfl, rfl, rfl, rfl, rfl, rfl, rfl, rfl, rfl, rfl, rfl, rfl, rfl, rfl, rfl, rfl, rfl, rfl, rfl, rfl, rfl, rfl, rfl, rfl, rfl, rfl, rfl, rfl, rfl, rfl, rfl, rfl, rfl, rfl, rfl, rfl, rfl, rfl, rfl, rfl, rfl, rfl, rfl, rfl, rfl, rfl, rfl, rfl, rfl⟩

@[simp] theorem State.updDie_fields (s : State) (d : Nat) (f : Die → Die) :
    (s.updDie d f).const = s.const ∧ (s.updDie d f).powered = s.powered ∧ (s.updDie d f).broken = s.broken ∧
    (s.updDie d f).now = s.now ∧ (s.updDie d f).mem = s.mem ∧ (s.updDie d f).hostMem = s.hostMem ∧ (s.updDie d f).ecc = s.ecc ∧
    (s.updDie d f).corrected = s.corrected ∧ (s.updDie d f).vers = s.vers ∧ (s.updDie d f).wclock = s.wclock ∧
    (s.updDie d f).wrote = s.wrote ∧ (s.updDie d f).hostWrote = s.hostWrote ∧ (s.updDie d f).ptes = s.ptes ∧
    (s.updDie d f).dies = s.dies.modify d f ∧ (s.updDie d f).links = s.links ∧ (s.updDie d f).sent = s.sent ∧
    (s.updDie d f).cpls = s.cpls ∧ (s.updDie d f).fw = s.fw ∧ (s.updDie d f).loadWin = s.loadWin ∧
    (s.updDie d f).ident = s.ident ∧ (s.updDie d f).akey = s.akey ∧ (s.updDie d f).parts = s.parts ∧
    (s.updDie d f).streams = s.streams ∧ (s.updDie d f).tasks = s.tasks ∧ (s.updDie d f).groups = s.groups ∧
    (s.updDie d f).blocks = s.blocks ∧ (s.updDie d f).gangs = s.gangs ∧ (s.updDie d f).cores = s.cores ∧
    (s.updDie d f).clusters = s.clusters ∧ (s.updDie d f).reqs = s.reqs ∧ (s.updDie d f).copies = s.copies ∧
    (s.updDie d f).sends = s.sends ∧ (s.updDie d f).mirrors = s.mirrors ∧ (s.updDie d f).layers = s.layers ∧
    (s.updDie d f).aids = s.aids ∧ (s.updDie d f).gens = s.gens ∧ (s.updDie d f).freeSlots = s.freeSlots ∧
    (s.updDie d f).unused = s.unused ∧ (s.updDie d f).resol = s.resol ∧ (s.updDie d f).migs = s.migs ∧
    (s.updDie d f).cp = s.cp ∧ (s.updDie d f).cpId = s.cpId ∧ (s.updDie d f).cst = s.cst ∧ (s.updDie d f).cstId = s.cstId ∧
    (s.updDie d f).cb = s.cb ∧ (s.updDie d f).cbId = s.cbId ∧ (s.updDie d f).cg = s.cg ∧ (s.updDie d f).cgId = s.cgId ∧
    (s.updDie d f).cc = s.cc ∧ (s.updDie d f).ccId = s.ccId ∧ (s.updDie d f).turns = s.turns ∧ (s.updDie d f).tick = s.tick ∧
    (s.updDie d f).free = s.free ∧ (s.updDie d f).nextId = s.nextId := by
  exact ⟨rfl, rfl, rfl, rfl, rfl, rfl, rfl, rfl, rfl, rfl, rfl, rfl, rfl, rfl, rfl, rfl, rfl, rfl, rfl, rfl, rfl, rfl, rfl, rfl, rfl, rfl, rfl, rfl, rfl, rfl, rfl, rfl, rfl, rfl, rfl, rfl, rfl, rfl, rfl, rfl, rfl, rfl, rfl, rfl, rfl, rfl, rfl, rfl, rfl, rfl, rfl, rfl, rfl, rfl⟩

@[simp] theorem State.setReq_fields (s : State) (k : Nat) (q : Req) :
    (s.setReq k q).const = s.const ∧ (s.setReq k q).powered = s.powered ∧ (s.setReq k q).broken = s.broken ∧
    (s.setReq k q).now = s.now ∧ (s.setReq k q).mem = s.mem ∧ (s.setReq k q).hostMem = s.hostMem ∧ (s.setReq k q).ecc = s.ecc ∧
    (s.setReq k q).corrected = s.corrected ∧ (s.setReq k q).vers = s.vers ∧ (s.setReq k q).wclock = s.wclock ∧
    (s.setReq k q).wrote = s.wrote ∧ (s.setReq k q).hostWrote = s.hostWrote ∧ (s.setReq k q).ptes = s.ptes ∧
    (s.setReq k q).dies = s.dies ∧ (s.setReq k q).links = s.links ∧ (s.setReq k q).sent = s.sent ∧
    (s.setReq k q).cpls = s.cpls ∧ (s.setReq k q).fw = s.fw ∧ (s.setReq k q).loadWin = s.loadWin ∧
    (s.setReq k q).ident = s.ident ∧ (s.setReq k q).akey = s.akey ∧ (s.setReq k q).parts = s.parts ∧
    (s.setReq k q).streams = s.streams ∧ (s.setReq k q).tasks = s.tasks ∧ (s.setReq k q).groups = s.groups ∧
    (s.setReq k q).blocks = s.blocks ∧ (s.setReq k q).gangs = s.gangs ∧ (s.setReq k q).cores = s.cores ∧
    (s.setReq k q).clusters = s.clusters ∧ (s.setReq k q).reqs = s.reqs.ins k q ∧ (s.setReq k q).copies = s.copies ∧
    (s.setReq k q).sends = s.sends ∧ (s.setReq k q).mirrors = s.mirrors ∧ (s.setReq k q).layers = s.layers ∧
    (s.setReq k q).aids = s.aids ∧ (s.setReq k q).gens = s.gens ∧ (s.setReq k q).freeSlots = s.freeSlots ∧
    (s.setReq k q).unused = s.unused ∧ (s.setReq k q).resol = s.resol ∧ (s.setReq k q).migs = s.migs ∧
    (s.setReq k q).cp = s.cp ∧ (s.setReq k q).cpId = s.cpId ∧ (s.setReq k q).cst = s.cst ∧ (s.setReq k q).cstId = s.cstId ∧
    (s.setReq k q).cb = s.cb ∧ (s.setReq k q).cbId = s.cbId ∧ (s.setReq k q).cg = s.cg ∧ (s.setReq k q).cgId = s.cgId ∧
    (s.setReq k q).cc = s.cc ∧ (s.setReq k q).ccId = s.ccId ∧ (s.setReq k q).turns = s.turns ∧ (s.setReq k q).tick = s.tick ∧
    (s.setReq k q).free = s.free ∧ (s.setReq k q).nextId = s.nextId := by
  exact ⟨rfl, rfl, rfl, rfl, rfl, rfl, rfl, rfl, rfl, rfl, rfl, rfl, rfl, rfl, rfl, rfl, rfl, rfl, rfl, rfl, rfl, rfl, rfl, rfl, rfl, rfl, rfl, rfl, rfl, rfl, rfl, rfl, rfl, rfl, rfl, rfl, rfl, rfl, rfl, rfl, rfl, rfl, rfl, rfl, rfl, rfl, rfl, rfl, rfl, rfl, rfl, rfl, rfl, rfl⟩

@[simp] theorem State.dropReqs_fields (s : State) (ks : List Nat) :
    (s.dropReqs ks).const = s.const ∧ (s.dropReqs ks).powered = s.powered ∧ (s.dropReqs ks).broken = s.broken ∧
    (s.dropReqs ks).now = s.now ∧ (s.dropReqs ks).mem = s.mem ∧ (s.dropReqs ks).hostMem = s.hostMem ∧
    (s.dropReqs ks).ecc = s.ecc ∧ (s.dropReqs ks).corrected = s.corrected ∧ (s.dropReqs ks).vers = s.vers ∧
    (s.dropReqs ks).wclock = s.wclock ∧ (s.dropReqs ks).wrote = s.wrote ∧ (s.dropReqs ks).hostWrote = s.hostWrote ∧
    (s.dropReqs ks).ptes = s.ptes ∧ (s.dropReqs ks).dies = s.dies ∧ (s.dropReqs ks).links = s.links ∧
    (s.dropReqs ks).sent = s.sent ∧ (s.dropReqs ks).cpls = s.cpls ∧ (s.dropReqs ks).fw = s.fw ∧
    (s.dropReqs ks).loadWin = s.loadWin ∧ (s.dropReqs ks).ident = s.ident ∧ (s.dropReqs ks).akey = s.akey ∧
    (s.dropReqs ks).parts = s.parts ∧ (s.dropReqs ks).streams = s.streams ∧ (s.dropReqs ks).tasks = s.tasks ∧
    (s.dropReqs ks).groups = s.groups ∧ (s.dropReqs ks).blocks = s.blocks ∧ (s.dropReqs ks).gangs = s.gangs ∧
    (s.dropReqs ks).cores = s.cores ∧ (s.dropReqs ks).clusters = s.clusters ∧
    (s.dropReqs ks).reqs = ks.foldl (fun t i => t.del i) s.reqs ∧ (s.dropReqs ks).copies = s.copies ∧
    (s.dropReqs ks).sends = s.sends ∧ (s.dropReqs ks).mirrors = s.mirrors ∧ (s.dropReqs ks).layers = s.layers ∧
    (s.dropReqs ks).aids = s.aids ∧ (s.dropReqs ks).gens = s.gens ∧ (s.dropReqs ks).freeSlots = s.freeSlots ∧
    (s.dropReqs ks).unused = s.unused ∧ (s.dropReqs ks).resol = s.resol ∧ (s.dropReqs ks).migs = s.migs ∧
    (s.dropReqs ks).cp = s.cp ∧ (s.dropReqs ks).cpId = s.cpId ∧ (s.dropReqs ks).cst = s.cst ∧ (s.dropReqs ks).cstId = s.cstId ∧
    (s.dropReqs ks).cb = s.cb ∧ (s.dropReqs ks).cbId = s.cbId ∧ (s.dropReqs ks).cg = s.cg ∧ (s.dropReqs ks).cgId = s.cgId ∧
    (s.dropReqs ks).cc = s.cc ∧ (s.dropReqs ks).ccId = s.ccId ∧ (s.dropReqs ks).turns = s.turns ∧
    (s.dropReqs ks).tick = s.tick ∧ (s.dropReqs ks).free = s.free ∧ (s.dropReqs ks).nextId = s.nextId := by
  exact ⟨rfl, rfl, rfl, rfl, rfl, rfl, rfl, rfl, rfl, rfl, rfl, rfl, rfl, rfl, rfl, rfl, rfl, rfl, rfl, rfl, rfl, rfl, rfl, rfl, rfl, rfl, rfl, rfl, rfl, rfl, rfl, rfl, rfl, rfl, rfl, rfl, rfl, rfl, rfl, rfl, rfl, rfl, rfl, rfl, rfl, rfl, rfl, rfl, rfl, rfl, rfl, rfl, rfl, rfl⟩

@[simp] theorem State.setGrid_fields (s : State) (k : Nat) (r : MirrorReg) :
    (s.setGrid k r).const = s.const ∧ (s.setGrid k r).powered = s.powered ∧ (s.setGrid k r).broken = s.broken ∧
    (s.setGrid k r).now = s.now ∧ (s.setGrid k r).mem = s.mem ∧ (s.setGrid k r).hostMem = s.hostMem ∧
    (s.setGrid k r).ecc = s.ecc ∧ (s.setGrid k r).corrected = s.corrected ∧ (s.setGrid k r).vers = s.vers ∧
    (s.setGrid k r).wclock = s.wclock ∧ (s.setGrid k r).wrote = s.wrote ∧ (s.setGrid k r).hostWrote = s.hostWrote ∧
    (s.setGrid k r).ptes = s.ptes ∧ (s.setGrid k r).dies = s.dies ∧ (s.setGrid k r).links = s.links ∧
    (s.setGrid k r).sent = s.sent ∧ (s.setGrid k r).cpls = s.cpls ∧ (s.setGrid k r).fw = s.fw ∧
    (s.setGrid k r).loadWin = s.loadWin ∧ (s.setGrid k r).ident = s.ident ∧ (s.setGrid k r).akey = s.akey ∧
    (s.setGrid k r).parts = s.parts ∧ (s.setGrid k r).streams = s.streams ∧ (s.setGrid k r).tasks = s.tasks ∧
    (s.setGrid k r).groups = s.groups ∧ (s.setGrid k r).blocks = s.blocks ∧ (s.setGrid k r).gangs = s.gangs ∧
    (s.setGrid k r).cores = s.cores ∧ (s.setGrid k r).clusters = s.clusters ∧ (s.setGrid k r).reqs = s.reqs ∧
    (s.setGrid k r).copies = s.copies ∧ (s.setGrid k r).sends = s.sends ∧ (s.setGrid k r).mirrors = s.mirrors.ins k r ∧
    (s.setGrid k r).layers = s.layers ∧ (s.setGrid k r).aids = s.aids ∧ (s.setGrid k r).gens = s.gens ∧
    (s.setGrid k r).freeSlots = s.freeSlots ∧ (s.setGrid k r).unused = s.unused ∧ (s.setGrid k r).resol = s.resol ∧
    (s.setGrid k r).migs = s.migs ∧ (s.setGrid k r).cp = s.cp ∧ (s.setGrid k r).cpId = s.cpId ∧ (s.setGrid k r).cst = s.cst ∧
    (s.setGrid k r).cstId = s.cstId ∧ (s.setGrid k r).cb = s.cb ∧ (s.setGrid k r).cbId = s.cbId ∧ (s.setGrid k r).cg = s.cg ∧
    (s.setGrid k r).cgId = s.cgId ∧ (s.setGrid k r).cc = s.cc ∧ (s.setGrid k r).ccId = s.ccId ∧
    (s.setGrid k r).turns = s.turns ∧ (s.setGrid k r).tick = s.tick ∧ (s.setGrid k r).free = s.free ∧
    (s.setGrid k r).nextId = s.nextId := by
  exact ⟨rfl, rfl, rfl, rfl, rfl, rfl, rfl, rfl, rfl, rfl, rfl, rfl, rfl, rfl, rfl, rfl, rfl, rfl, rfl, rfl, rfl, rfl, rfl, rfl, rfl, rfl, rfl, rfl, rfl, rfl, rfl, rfl, rfl, rfl, rfl, rfl, rfl, rfl, rfl, rfl, rfl, rfl, rfl, rfl, rfl, rfl, rfl, rfl, rfl, rfl, rfl, rfl, rfl, rfl⟩

@[simp] theorem State.setSend_fields (s : State) (k : Nat) (c : Send) :
    (s.setSend k c).const = s.const ∧ (s.setSend k c).powered = s.powered ∧ (s.setSend k c).broken = s.broken ∧
    (s.setSend k c).now = s.now ∧ (s.setSend k c).mem = s.mem ∧ (s.setSend k c).hostMem = s.hostMem ∧
    (s.setSend k c).ecc = s.ecc ∧ (s.setSend k c).corrected = s.corrected ∧ (s.setSend k c).vers = s.vers ∧
    (s.setSend k c).wclock = s.wclock ∧ (s.setSend k c).wrote = s.wrote ∧ (s.setSend k c).hostWrote = s.hostWrote ∧
    (s.setSend k c).ptes = s.ptes ∧ (s.setSend k c).dies = s.dies ∧ (s.setSend k c).links = s.links ∧
    (s.setSend k c).sent = s.sent ∧ (s.setSend k c).cpls = s.cpls ∧ (s.setSend k c).fw = s.fw ∧
    (s.setSend k c).loadWin = s.loadWin ∧ (s.setSend k c).ident = s.ident ∧ (s.setSend k c).akey = s.akey ∧
    (s.setSend k c).parts = s.parts ∧ (s.setSend k c).streams = s.streams ∧ (s.setSend k c).tasks = s.tasks ∧
    (s.setSend k c).groups = s.groups ∧ (s.setSend k c).blocks = s.blocks ∧ (s.setSend k c).gangs = s.gangs ∧
    (s.setSend k c).cores = s.cores ∧ (s.setSend k c).clusters = s.clusters ∧ (s.setSend k c).reqs = s.reqs ∧
    (s.setSend k c).copies = s.copies ∧ (s.setSend k c).sends = s.sends.ins k c ∧ (s.setSend k c).mirrors = s.mirrors ∧
    (s.setSend k c).layers = s.layers ∧ (s.setSend k c).aids = s.aids ∧ (s.setSend k c).gens = s.gens ∧
    (s.setSend k c).freeSlots = s.freeSlots ∧ (s.setSend k c).unused = s.unused ∧ (s.setSend k c).resol = s.resol ∧
    (s.setSend k c).migs = s.migs ∧ (s.setSend k c).cp = s.cp ∧ (s.setSend k c).cpId = s.cpId ∧ (s.setSend k c).cst = s.cst ∧
    (s.setSend k c).cstId = s.cstId ∧ (s.setSend k c).cb = s.cb ∧ (s.setSend k c).cbId = s.cbId ∧ (s.setSend k c).cg = s.cg ∧
    (s.setSend k c).cgId = s.cgId ∧ (s.setSend k c).cc = s.cc ∧ (s.setSend k c).ccId = s.ccId ∧
    (s.setSend k c).turns = s.turns ∧ (s.setSend k c).tick = s.tick ∧ (s.setSend k c).free = s.free ∧
    (s.setSend k c).nextId = s.nextId := by
  exact ⟨rfl, rfl, rfl, rfl, rfl, rfl, rfl, rfl, rfl, rfl, rfl, rfl, rfl, rfl, rfl, rfl, rfl, rfl, rfl, rfl, rfl, rfl, rfl, rfl, rfl, rfl, rfl, rfl, rfl, rfl, rfl, rfl, rfl, rfl, rfl, rfl, rfl, rfl, rfl, rfl, rfl, rfl, rfl, rfl, rfl, rfl, rfl, rfl, rfl, rfl, rfl, rfl, rfl, rfl⟩

@[simp] theorem State.setLayer_fields (s : State) (l : Layer) :
    (s.setLayer l).const = s.const ∧ (s.setLayer l).powered = s.powered ∧ (s.setLayer l).broken = s.broken ∧
    (s.setLayer l).now = s.now ∧ (s.setLayer l).mem = s.mem ∧ (s.setLayer l).hostMem = s.hostMem ∧ (s.setLayer l).ecc = s.ecc ∧
    (s.setLayer l).corrected = s.corrected ∧ (s.setLayer l).vers = s.vers ∧ (s.setLayer l).wclock = s.wclock ∧
    (s.setLayer l).wrote = s.wrote ∧ (s.setLayer l).hostWrote = s.hostWrote ∧ (s.setLayer l).ptes = s.ptes ∧
    (s.setLayer l).dies = s.dies ∧ (s.setLayer l).links = s.links ∧ (s.setLayer l).sent = s.sent ∧
    (s.setLayer l).cpls = s.cpls ∧ (s.setLayer l).fw = s.fw ∧ (s.setLayer l).loadWin = s.loadWin ∧
    (s.setLayer l).ident = s.ident ∧ (s.setLayer l).akey = s.akey ∧ (s.setLayer l).parts = s.parts ∧
    (s.setLayer l).streams = s.streams ∧ (s.setLayer l).tasks = s.tasks ∧ (s.setLayer l).groups = s.groups ∧
    (s.setLayer l).blocks = s.blocks ∧ (s.setLayer l).gangs = s.gangs ∧ (s.setLayer l).cores = s.cores ∧
    (s.setLayer l).clusters = s.clusters ∧ (s.setLayer l).reqs = s.reqs ∧ (s.setLayer l).copies = s.copies ∧
    (s.setLayer l).sends = s.sends ∧ (s.setLayer l).mirrors = s.mirrors ∧ (s.setLayer l).aids = s.aids ∧
    (s.setLayer l).gens = s.gens ∧ (s.setLayer l).freeSlots = s.freeSlots ∧ (s.setLayer l).unused = s.unused ∧
    (s.setLayer l).resol = s.resol ∧ (s.setLayer l).migs = s.migs ∧ (s.setLayer l).cp = s.cp ∧ (s.setLayer l).cpId = s.cpId ∧
    (s.setLayer l).cst = s.cst ∧ (s.setLayer l).cstId = s.cstId ∧ (s.setLayer l).cb = s.cb ∧ (s.setLayer l).cbId = s.cbId ∧
    (s.setLayer l).cg = s.cg ∧ (s.setLayer l).cgId = s.cgId ∧ (s.setLayer l).cc = s.cc ∧ (s.setLayer l).ccId = s.ccId ∧
    (s.setLayer l).turns = s.turns ∧ (s.setLayer l).tick = s.tick ∧ (s.setLayer l).free = s.free ∧
    (s.setLayer l).nextId = s.nextId := by
  exact ⟨rfl, rfl, rfl, rfl, rfl, rfl, rfl, rfl, rfl, rfl, rfl, rfl, rfl, rfl, rfl, rfl, rfl, rfl, rfl, rfl, rfl, rfl, rfl, rfl, rfl, rfl, rfl, rfl, rfl, rfl, rfl, rfl, rfl, rfl, rfl, rfl, rfl, rfl, rfl, rfl, rfl, rfl, rfl, rfl, rfl, rfl, rfl, rfl, rfl, rfl, rfl, rfl, rfl⟩

@[simp] theorem State.completed_fields (s : State) (c : Cpl) (bs : List Byte) :
    (s.completed c bs).const = s.const ∧ (s.completed c bs).powered = s.powered ∧ (s.completed c bs).broken = s.broken ∧
    (s.completed c bs).now = s.now ∧ (s.completed c bs).mem = s.mem ∧ (s.completed c bs).hostMem = s.hostMem ∧
    (s.completed c bs).ecc = s.ecc ∧ (s.completed c bs).corrected = s.corrected ∧ (s.completed c bs).vers = s.vers ∧
    (s.completed c bs).wclock = s.wclock ∧ (s.completed c bs).wrote = s.wrote ∧ (s.completed c bs).hostWrote = s.hostWrote ∧
    (s.completed c bs).ptes = s.ptes ∧ (s.completed c bs).dies = s.dies ∧ (s.completed c bs).links = s.links ∧
    (s.completed c bs).sent = s.sent ∧ (s.completed c bs).cpls = s.cpls ++ [(c, bs)] ∧ (s.completed c bs).fw = s.fw ∧
    (s.completed c bs).loadWin = s.loadWin ∧ (s.completed c bs).ident = s.ident ∧ (s.completed c bs).akey = s.akey ∧
    (s.completed c bs).parts = s.parts ∧ (s.completed c bs).streams = s.streams ∧ (s.completed c bs).tasks = s.tasks ∧
    (s.completed c bs).groups = s.groups ∧ (s.completed c bs).blocks = s.blocks ∧ (s.completed c bs).gangs = s.gangs ∧
    (s.completed c bs).cores = s.cores ∧ (s.completed c bs).clusters = s.clusters ∧ (s.completed c bs).reqs = s.reqs ∧
    (s.completed c bs).copies = s.copies ∧ (s.completed c bs).sends = s.sends ∧ (s.completed c bs).mirrors = s.mirrors ∧
    (s.completed c bs).layers = s.layers ∧ (s.completed c bs).aids = s.aids ∧ (s.completed c bs).gens = s.gens ∧
    (s.completed c bs).freeSlots = s.freeSlots ∧ (s.completed c bs).unused = s.unused ∧ (s.completed c bs).resol = s.resol ∧
    (s.completed c bs).migs = s.migs ∧ (s.completed c bs).cp = s.cp ∧ (s.completed c bs).cpId = s.cpId ∧
    (s.completed c bs).cst = s.cst ∧ (s.completed c bs).cstId = s.cstId ∧ (s.completed c bs).cb = s.cb ∧
    (s.completed c bs).cbId = s.cbId ∧ (s.completed c bs).cg = s.cg ∧ (s.completed c bs).cgId = s.cgId ∧
    (s.completed c bs).cc = s.cc ∧ (s.completed c bs).ccId = s.ccId ∧ (s.completed c bs).turns = s.turns ∧
    (s.completed c bs).tick = s.tick ∧ (s.completed c bs).free = s.free ∧ (s.completed c bs).nextId = s.nextId := by
  exact ⟨rfl, rfl, rfl, rfl, rfl, rfl, rfl, rfl, rfl, rfl, rfl, rfl, rfl, rfl, rfl, rfl, rfl, rfl, rfl, rfl, rfl, rfl, rfl, rfl, rfl, rfl, rfl, rfl, rfl, rfl, rfl, rfl, rfl, rfl, rfl, rfl, rfl, rfl, rfl, rfl, rfl, rfl, rfl, rfl, rfl, rfl, rfl, rfl, rfl, rfl, rfl, rfl, rfl, rfl⟩

@[simp] theorem State.parkAt_fields (s : State) (p : Park) :
    (s.parkAt p).const = s.const ∧ (s.parkAt p).powered = s.powered ∧ (s.parkAt p).broken = s.broken ∧
    (s.parkAt p).now = s.now ∧ (s.parkAt p).mem = s.mem ∧ (s.parkAt p).hostMem = s.hostMem ∧ (s.parkAt p).ecc = s.ecc ∧
    (s.parkAt p).corrected = s.corrected ∧ (s.parkAt p).vers = s.vers ∧ (s.parkAt p).wclock = s.wclock ∧
    (s.parkAt p).wrote = s.wrote ∧ (s.parkAt p).hostWrote = s.hostWrote ∧ (s.parkAt p).ptes = s.ptes ∧
    (s.parkAt p).dies = s.dies ∧ (s.parkAt p).links = s.links ∧ (s.parkAt p).sent = s.sent ∧ (s.parkAt p).cpls = s.cpls ∧
    (s.parkAt p).fw = s.fw ∧ (s.parkAt p).loadWin = s.loadWin ∧ (s.parkAt p).ident = s.ident ∧ (s.parkAt p).akey = s.akey ∧
    (s.parkAt p).parts = s.parts ∧ (s.parkAt p).streams = s.streams ∧ (s.parkAt p).tasks = s.tasks ∧
    (s.parkAt p).groups = s.groups ∧ (s.parkAt p).blocks = s.blocks ∧ (s.parkAt p).gangs = s.gangs ∧
    (s.parkAt p).cores = s.cores ∧ (s.parkAt p).clusters = s.clusters ∧ (s.parkAt p).reqs = s.reqs ∧
    (s.parkAt p).copies = s.copies ∧ (s.parkAt p).sends = s.sends ∧ (s.parkAt p).mirrors = s.mirrors ∧
    (s.parkAt p).layers = s.layers ∧ (s.parkAt p).aids = s.aids ∧ (s.parkAt p).gens = s.gens ∧
    (s.parkAt p).freeSlots = s.freeSlots ∧ (s.parkAt p).unused = s.unused ∧ (s.parkAt p).resol = s.resol ∧
    (s.parkAt p).migs = s.migs ∧ (s.parkAt p).cp = s.cp ∧ (s.parkAt p).cpId = s.cpId ∧ (s.parkAt p).cst = s.cst ∧
    (s.parkAt p).cstId = s.cstId ∧ (s.parkAt p).cb = s.cb ∧ (s.parkAt p).cbId = s.cbId ∧
    (s.parkAt p).cg = { s.cg with park := some p } ∧ (s.parkAt p).cgId = s.cgId ∧ (s.parkAt p).cc = s.cc ∧
    (s.parkAt p).ccId = s.ccId ∧ (s.parkAt p).turns = s.turns ∧ (s.parkAt p).tick = s.tick ∧ (s.parkAt p).free = s.free ∧
    (s.parkAt p).nextId = s.nextId := by
  exact ⟨rfl, rfl, rfl, rfl, rfl, rfl, rfl, rfl, rfl, rfl, rfl, rfl, rfl, rfl, rfl, rfl, rfl, rfl, rfl, rfl, rfl, rfl, rfl, rfl, rfl, rfl, rfl, rfl, rfl, rfl, rfl, rfl, rfl, rfl, rfl, rfl, rfl, rfl, rfl, rfl, rfl, rfl, rfl, rfl, rfl, rfl, rfl, rfl, rfl, rfl, rfl, rfl, rfl, rfl⟩

@[simp] theorem State.trapWith_fields (s : State) (cause sub addr lanes : Nat) :
    (s.trapWith cause sub addr lanes).const = s.const ∧ (s.trapWith cause sub addr lanes).powered = s.powered ∧
    (s.trapWith cause sub addr lanes).broken = s.broken ∧ (s.trapWith cause sub addr lanes).now = s.now ∧
    (s.trapWith cause sub addr lanes).mem = s.mem ∧ (s.trapWith cause sub addr lanes).hostMem = s.hostMem ∧
    (s.trapWith cause sub addr lanes).ecc = s.ecc ∧ (s.trapWith cause sub addr lanes).corrected = s.corrected ∧
    (s.trapWith cause sub addr lanes).vers = s.vers ∧ (s.trapWith cause sub addr lanes).wclock = s.wclock ∧
    (s.trapWith cause sub addr lanes).wrote = s.wrote ∧ (s.trapWith cause sub addr lanes).hostWrote = s.hostWrote ∧
    (s.trapWith cause sub addr lanes).ptes = s.ptes ∧ (s.trapWith cause sub addr lanes).dies = s.dies ∧
    (s.trapWith cause sub addr lanes).links = s.links ∧ (s.trapWith cause sub addr lanes).sent = s.sent ∧
    (s.trapWith cause sub addr lanes).cpls = s.cpls ∧ (s.trapWith cause sub addr lanes).fw = s.fw ∧
    (s.trapWith cause sub addr lanes).loadWin = s.loadWin ∧ (s.trapWith cause sub addr lanes).ident = s.ident ∧
    (s.trapWith cause sub addr lanes).akey = s.akey ∧ (s.trapWith cause sub addr lanes).parts = s.parts ∧
    (s.trapWith cause sub addr lanes).streams = s.streams ∧ (s.trapWith cause sub addr lanes).tasks = s.tasks ∧
    (s.trapWith cause sub addr lanes).groups = s.groups ∧ (s.trapWith cause sub addr lanes).blocks = s.blocks ∧
    (s.trapWith cause sub addr lanes).gangs = s.gangs ∧ (s.trapWith cause sub addr lanes).cores = s.cores ∧
    (s.trapWith cause sub addr lanes).clusters = s.clusters ∧ (s.trapWith cause sub addr lanes).reqs = s.reqs ∧
    (s.trapWith cause sub addr lanes).copies = s.copies ∧ (s.trapWith cause sub addr lanes).sends = s.sends ∧
    (s.trapWith cause sub addr lanes).mirrors = s.mirrors ∧ (s.trapWith cause sub addr lanes).layers = s.layers ∧
    (s.trapWith cause sub addr lanes).aids = s.aids ∧ (s.trapWith cause sub addr lanes).gens = s.gens ∧
    (s.trapWith cause sub addr lanes).freeSlots = s.freeSlots ∧ (s.trapWith cause sub addr lanes).unused = s.unused ∧
    (s.trapWith cause sub addr lanes).resol = s.resol ∧ (s.trapWith cause sub addr lanes).migs = s.migs ∧
    (s.trapWith cause sub addr lanes).cp = s.cp ∧ (s.trapWith cause sub addr lanes).cpId = s.cpId ∧
    (s.trapWith cause sub addr lanes).cst = s.cst ∧ (s.trapWith cause sub addr lanes).cstId = s.cstId ∧
    (s.trapWith cause sub addr lanes).cb = s.cb ∧ (s.trapWith cause sub addr lanes).cbId = s.cbId ∧
    (s.trapWith cause sub addr lanes).cg = s.cg.raise s.now cause sub 0 addr lanes ∧
    (s.trapWith cause sub addr lanes).cgId = s.cgId ∧ (s.trapWith cause sub addr lanes).cc = s.cc ∧
    (s.trapWith cause sub addr lanes).ccId = s.ccId ∧ (s.trapWith cause sub addr lanes).turns = s.turns ∧
    (s.trapWith cause sub addr lanes).tick = s.tick ∧ (s.trapWith cause sub addr lanes).free = s.free ∧
    (s.trapWith cause sub addr lanes).nextId = s.nextId := by
  exact ⟨rfl, rfl, rfl, rfl, rfl, rfl, rfl, rfl, rfl, rfl, rfl, rfl, rfl, rfl, rfl, rfl, rfl, rfl, rfl, rfl, rfl, rfl, rfl, rfl, rfl, rfl, rfl, rfl, rfl, rfl, rfl, rfl, rfl, rfl, rfl, rfl, rfl, rfl, rfl, rfl, rfl, rfl, rfl, rfl, rfl, rfl, rfl, rfl, rfl, rfl, rfl, rfl, rfl, rfl⟩

@[simp] theorem State.trapNow_fields (s : State) (cause sub : Nat) :
    (s.trapNow cause sub).const = s.const ∧ (s.trapNow cause sub).powered = s.powered ∧
    (s.trapNow cause sub).broken = s.broken ∧ (s.trapNow cause sub).now = s.now ∧ (s.trapNow cause sub).mem = s.mem ∧
    (s.trapNow cause sub).hostMem = s.hostMem ∧ (s.trapNow cause sub).ecc = s.ecc ∧
    (s.trapNow cause sub).corrected = s.corrected ∧ (s.trapNow cause sub).vers = s.vers ∧
    (s.trapNow cause sub).wclock = s.wclock ∧ (s.trapNow cause sub).wrote = s.wrote ∧
    (s.trapNow cause sub).hostWrote = s.hostWrote ∧ (s.trapNow cause sub).ptes = s.ptes ∧ (s.trapNow cause sub).dies = s.dies ∧
    (s.trapNow cause sub).links = s.links ∧ (s.trapNow cause sub).sent = s.sent ∧ (s.trapNow cause sub).cpls = s.cpls ∧
    (s.trapNow cause sub).fw = s.fw ∧ (s.trapNow cause sub).loadWin = s.loadWin ∧ (s.trapNow cause sub).ident = s.ident ∧
    (s.trapNow cause sub).akey = s.akey ∧ (s.trapNow cause sub).parts = s.parts ∧ (s.trapNow cause sub).streams = s.streams ∧
    (s.trapNow cause sub).tasks = s.tasks ∧ (s.trapNow cause sub).groups = s.groups ∧ (s.trapNow cause sub).blocks = s.blocks ∧
    (s.trapNow cause sub).gangs = s.gangs ∧ (s.trapNow cause sub).cores = s.cores ∧
    (s.trapNow cause sub).clusters = s.clusters ∧ (s.trapNow cause sub).reqs = s.reqs ∧
    (s.trapNow cause sub).copies = s.copies ∧ (s.trapNow cause sub).sends = s.sends ∧
    (s.trapNow cause sub).mirrors = s.mirrors ∧ (s.trapNow cause sub).layers = s.layers ∧ (s.trapNow cause sub).aids = s.aids ∧
    (s.trapNow cause sub).gens = s.gens ∧ (s.trapNow cause sub).freeSlots = s.freeSlots ∧
    (s.trapNow cause sub).unused = s.unused ∧ (s.trapNow cause sub).resol = s.resol ∧ (s.trapNow cause sub).migs = s.migs ∧
    (s.trapNow cause sub).cp = s.cp ∧ (s.trapNow cause sub).cpId = s.cpId ∧ (s.trapNow cause sub).cst = s.cst ∧
    (s.trapNow cause sub).cstId = s.cstId ∧ (s.trapNow cause sub).cb = s.cb ∧ (s.trapNow cause sub).cbId = s.cbId ∧
    (s.trapNow cause sub).cg = s.cg.raise s.now cause sub 0 s.wordAddr (laneMask s.cg.exLanes) ∧
    (s.trapNow cause sub).cgId = s.cgId ∧ (s.trapNow cause sub).cc = s.cc ∧ (s.trapNow cause sub).ccId = s.ccId ∧
    (s.trapNow cause sub).turns = s.turns ∧ (s.trapNow cause sub).tick = s.tick ∧ (s.trapNow cause sub).free = s.free ∧
    (s.trapNow cause sub).nextId = s.nextId := by
  exact ⟨rfl, rfl, rfl, rfl, rfl, rfl, rfl, rfl, rfl, rfl, rfl, rfl, rfl, rfl, rfl, rfl, rfl, rfl, rfl, rfl, rfl, rfl, rfl, rfl, rfl, rfl, rfl, rfl, rfl, rfl, rfl, rfl, rfl, rfl, rfl, rfl, rfl, rfl, rfl, rfl, rfl, rfl, rfl, rfl, rfl, rfl, rfl, rfl, rfl, rfl, rfl, rfl, rfl, rfl⟩

@[simp] theorem State.issued_fields (s : State) (sw : Bool) :
    (s.issued sw).const = s.const ∧ (s.issued sw).powered = s.powered ∧ (s.issued sw).broken = s.broken ∧
    (s.issued sw).now = s.now ∧ (s.issued sw).mem = s.mem ∧ (s.issued sw).hostMem = s.hostMem ∧ (s.issued sw).ecc = s.ecc ∧
    (s.issued sw).corrected = s.corrected ∧ (s.issued sw).vers = s.vers ∧ (s.issued sw).wclock = s.wclock ∧
    (s.issued sw).wrote = s.wrote ∧ (s.issued sw).hostWrote = s.hostWrote ∧ (s.issued sw).ptes = s.ptes ∧
    (s.issued sw).dies = s.dies ∧ (s.issued sw).links = s.links ∧ (s.issued sw).sent = s.sent ∧ (s.issued sw).cpls = s.cpls ∧
    (s.issued sw).fw = s.fw ∧ (s.issued sw).loadWin = s.loadWin ∧ (s.issued sw).ident = s.ident ∧ (s.issued sw).akey = s.akey ∧
    (s.issued sw).parts = s.parts ∧ (s.issued sw).streams = s.streams ∧ (s.issued sw).tasks = s.tasks ∧
    (s.issued sw).groups = s.groups ∧ (s.issued sw).blocks = s.blocks ∧ (s.issued sw).gangs = s.gangs ∧
    (s.issued sw).cores = s.cores ∧ (s.issued sw).clusters = s.clusters ∧ (s.issued sw).reqs = s.reqs ∧
    (s.issued sw).copies = s.copies ∧ (s.issued sw).sends = s.sends ∧ (s.issued sw).mirrors = s.mirrors ∧
    (s.issued sw).layers = s.layers ∧ (s.issued sw).aids = s.aids ∧ (s.issued sw).gens = s.gens ∧
    (s.issued sw).freeSlots = s.freeSlots ∧ (s.issued sw).unused = s.unused ∧ (s.issued sw).resol = s.resol ∧
    (s.issued sw).migs = s.migs ∧ (s.issued sw).cp = s.cp ∧ (s.issued sw).cpId = s.cpId ∧ (s.issued sw).cst = s.cst ∧
    (s.issued sw).cstId = s.cstId ∧ (s.issued sw).cb = s.cb ∧ (s.issued sw).cbId = s.cbId ∧
    (s.issued sw).cg = { s.cg.settle s.cb.hdr.floor with seq := s.cg.seq + 1, last := s.nextId, walked := [], mark := sw, tried := 0 } ∧
    (s.issued sw).cgId = s.cgId ∧ (s.issued sw).cc = s.cc ∧ (s.issued sw).ccId = s.ccId ∧ (s.issued sw).turns = s.turns ∧
    (s.issued sw).tick = s.tick ∧ (s.issued sw).free = s.free + wordFree ∧ (s.issued sw).nextId = s.nextId + 1 := by
  exact ⟨rfl, rfl, rfl, rfl, rfl, rfl, rfl, rfl, rfl, rfl, rfl, rfl, rfl, rfl, rfl, rfl, rfl, rfl, rfl, rfl, rfl, rfl, rfl, rfl, rfl, rfl, rfl, rfl, rfl, rfl, rfl, rfl, rfl, rfl, rfl, rfl, rfl, rfl, rfl, rfl, rfl, rfl, rfl, rfl, rfl, rfl, rfl, rfl, rfl, rfl, rfl, rfl, rfl, rfl⟩

@[simp] theorem State.finish_fields (s : State) (sw : Bool) :
    (s.finish sw).const = s.const ∧ (s.finish sw).powered = s.powered ∧ (s.finish sw).broken = s.broken ∧
    (s.finish sw).now = s.now ∧ (s.finish sw).mem = s.mem ∧ (s.finish sw).hostMem = s.hostMem ∧ (s.finish sw).ecc = s.ecc ∧
    (s.finish sw).corrected = s.corrected ∧ (s.finish sw).vers = s.vers ∧ (s.finish sw).wclock = s.wclock ∧
    (s.finish sw).wrote = s.wrote ∧ (s.finish sw).hostWrote = s.hostWrote ∧ (s.finish sw).ptes = s.ptes ∧
    (s.finish sw).dies = s.dies ∧ (s.finish sw).links = s.links ∧ (s.finish sw).sent = s.sent ∧ (s.finish sw).cpls = s.cpls ∧
    (s.finish sw).fw = s.fw ∧ (s.finish sw).loadWin = s.loadWin ∧ (s.finish sw).ident = s.ident ∧ (s.finish sw).akey = s.akey ∧
    (s.finish sw).parts = s.parts ∧ (s.finish sw).streams = s.streams ∧ (s.finish sw).tasks = s.tasks ∧
    (s.finish sw).groups = s.groups ∧ (s.finish sw).blocks = s.blocks ∧ (s.finish sw).gangs = s.gangs ∧
    (s.finish sw).cores = s.cores ∧ (s.finish sw).clusters = s.clusters ∧ (s.finish sw).reqs = s.reqs ∧
    (s.finish sw).copies = s.copies ∧ (s.finish sw).sends = s.sends ∧ (s.finish sw).mirrors = s.mirrors ∧
    (s.finish sw).layers = s.layers ∧ (s.finish sw).aids = s.aids ∧ (s.finish sw).gens = s.gens ∧
    (s.finish sw).freeSlots = s.freeSlots ∧ (s.finish sw).unused = s.unused ∧ (s.finish sw).resol = s.resol ∧
    (s.finish sw).migs = s.migs ∧ (s.finish sw).cp = s.cp ∧ (s.finish sw).cpId = s.cpId ∧ (s.finish sw).cst = s.cst ∧
    (s.finish sw).cstId = s.cstId ∧ (s.finish sw).cb = s.cb ∧ (s.finish sw).cbId = s.cbId ∧
    (s.finish sw).cg = { s.cg.advance.settle s.cb.hdr.floor with seq := s.cg.advance.seq + 1, last := s.nextId, walked := [], mark := sw, tried := 0 } ∧
    (s.finish sw).cgId = s.cgId ∧ (s.finish sw).cc = s.cc ∧ (s.finish sw).ccId = s.ccId ∧ (s.finish sw).turns = s.turns ∧
    (s.finish sw).tick = s.tick ∧ (s.finish sw).free = s.free + wordFree ∧ (s.finish sw).nextId = s.nextId + 1 := by
  exact ⟨rfl, rfl, rfl, rfl, rfl, rfl, rfl, rfl, rfl, rfl, rfl, rfl, rfl, rfl, rfl, rfl, rfl, rfl, rfl, rfl, rfl, rfl, rfl, rfl, rfl, rfl, rfl, rfl, rfl, rfl, rfl, rfl, rfl, rfl, rfl, rfl, rfl, rfl, rfl, rfl, rfl, rfl, rfl, rfl, rfl, rfl, rfl, rfl, rfl, rfl, rfl, rfl, rfl, rfl⟩

@[simp] theorem State.enterHandler_fields (s : State) (t : Trap) (base size entry : Nat) :
    (s.enterHandler t base size entry).const = s.const ∧ (s.enterHandler t base size entry).powered = s.powered ∧
    (s.enterHandler t base size entry).broken = s.broken ∧ (s.enterHandler t base size entry).now = s.now ∧
    (s.enterHandler t base size entry).mem = s.mem ∧ (s.enterHandler t base size entry).hostMem = s.hostMem ∧
    (s.enterHandler t base size entry).ecc = s.ecc ∧ (s.enterHandler t base size entry).corrected = s.corrected ∧
    (s.enterHandler t base size entry).vers = s.vers ∧ (s.enterHandler t base size entry).wclock = s.wclock ∧
    (s.enterHandler t base size entry).wrote = s.wrote ∧ (s.enterHandler t base size entry).hostWrote = s.hostWrote ∧
    (s.enterHandler t base size entry).ptes = s.ptes ∧ (s.enterHandler t base size entry).dies = s.dies ∧
    (s.enterHandler t base size entry).links = s.links ∧ (s.enterHandler t base size entry).sent = s.sent ∧
    (s.enterHandler t base size entry).cpls = s.cpls ∧ (s.enterHandler t base size entry).fw = s.fw ∧
    (s.enterHandler t base size entry).loadWin = s.loadWin ∧ (s.enterHandler t base size entry).ident = s.ident ∧
    (s.enterHandler t base size entry).akey = s.akey ∧ (s.enterHandler t base size entry).parts = s.parts ∧
    (s.enterHandler t base size entry).streams = s.streams ∧ (s.enterHandler t base size entry).tasks = s.tasks ∧
    (s.enterHandler t base size entry).groups = s.groups ∧ (s.enterHandler t base size entry).blocks = s.blocks ∧
    (s.enterHandler t base size entry).gangs = s.gangs ∧ (s.enterHandler t base size entry).cores = s.cores ∧
    (s.enterHandler t base size entry).clusters = s.clusters ∧ (s.enterHandler t base size entry).reqs = s.reqs ∧
    (s.enterHandler t base size entry).copies = s.copies ∧ (s.enterHandler t base size entry).sends = s.sends ∧
    (s.enterHandler t base size entry).mirrors = s.mirrors ∧ (s.enterHandler t base size entry).layers = s.layers ∧
    (s.enterHandler t base size entry).aids = s.aids ∧ (s.enterHandler t base size entry).gens = s.gens ∧
    (s.enterHandler t base size entry).freeSlots = s.freeSlots ∧ (s.enterHandler t base size entry).unused = s.unused ∧
    (s.enterHandler t base size entry).resol = s.resol ∧ (s.enterHandler t base size entry).migs = s.migs ∧
    (s.enterHandler t base size entry).cp = s.cp ∧ (s.enterHandler t base size entry).cpId = s.cpId ∧
    (s.enterHandler t base size entry).cst = s.cst ∧ (s.enterHandler t base size entry).cstId = s.cstId ∧
    (s.enterHandler t base size entry).cb = s.cb ∧ (s.enterHandler t base size entry).cbId = s.cbId ∧
    (s.enterHandler t base size entry).cgId = s.cgId ∧ (s.enterHandler t base size entry).cc = s.cc ∧
    (s.enterHandler t base size entry).ccId = s.ccId ∧ (s.enterHandler t base size entry).turns = s.turns ∧
    (s.enterHandler t base size entry).tick = s.tick ∧ (s.enterHandler t base size entry).free = s.free + 512 ∧
    (s.enterHandler t base size entry).nextId = s.nextId := by
  exact ⟨rfl, rfl, rfl, rfl, rfl, rfl, rfl, rfl, rfl, rfl, rfl, rfl, rfl, rfl, rfl, rfl, rfl, rfl, rfl, rfl, rfl, rfl, rfl, rfl, rfl, rfl, rfl, rfl, rfl, rfl, rfl, rfl, rfl, rfl, rfl, rfl, rfl, rfl, rfl, rfl, rfl, rfl, rfl, rfl, rfl, rfl, rfl, rfl, rfl, rfl, rfl, rfl, rfl⟩

@[simp] theorem State.freeSlot_fields (s : State) (k : Nat) :
    (s.freeSlot k).const = s.const ∧ (s.freeSlot k).powered = s.powered ∧ (s.freeSlot k).broken = s.broken ∧
    (s.freeSlot k).now = s.now ∧ (s.freeSlot k).mem = s.mem ∧ (s.freeSlot k).hostMem = s.hostMem ∧ (s.freeSlot k).ecc = s.ecc ∧
    (s.freeSlot k).corrected = s.corrected ∧ (s.freeSlot k).vers = s.vers ∧ (s.freeSlot k).wclock = s.wclock ∧
    (s.freeSlot k).wrote = s.wrote ∧ (s.freeSlot k).hostWrote = s.hostWrote ∧ (s.freeSlot k).ptes = s.ptes ∧
    (s.freeSlot k).dies = s.dies ∧ (s.freeSlot k).links = s.links ∧ (s.freeSlot k).sent = s.sent ∧
    (s.freeSlot k).cpls = s.cpls ∧ (s.freeSlot k).fw = s.fw ∧ (s.freeSlot k).loadWin = s.loadWin ∧
    (s.freeSlot k).ident = s.ident ∧ (s.freeSlot k).akey = s.akey ∧ (s.freeSlot k).parts = s.parts ∧
    (s.freeSlot k).streams = s.streams ∧ (s.freeSlot k).tasks = s.tasks ∧ (s.freeSlot k).groups = s.groups ∧
    (s.freeSlot k).blocks = s.blocks ∧ (s.freeSlot k).gangs = s.gangs ∧ (s.freeSlot k).cores = s.cores ∧
    (s.freeSlot k).clusters = s.clusters ∧ (s.freeSlot k).reqs = s.reqs ∧ (s.freeSlot k).copies = s.copies ∧
    (s.freeSlot k).sends = s.sends ∧ (s.freeSlot k).mirrors = s.mirrors ∧ (s.freeSlot k).layers = s.layers ∧
    (s.freeSlot k).aids = s.aids.del k ∧ (s.freeSlot k).gens = s.gens ∧
    (s.freeSlot k).freeSlots = s.freeSlots ++ [k % 2 ^ 12] ∧ (s.freeSlot k).unused = s.unused ∧
    (s.freeSlot k).resol = s.resol ∧ (s.freeSlot k).migs = s.migs ∧ (s.freeSlot k).cp = s.cp ∧ (s.freeSlot k).cpId = s.cpId ∧
    (s.freeSlot k).cst = s.cst ∧ (s.freeSlot k).cstId = s.cstId ∧ (s.freeSlot k).cb = s.cb ∧ (s.freeSlot k).cbId = s.cbId ∧
    (s.freeSlot k).cg = s.cg ∧ (s.freeSlot k).cgId = s.cgId ∧ (s.freeSlot k).cc = s.cc ∧ (s.freeSlot k).ccId = s.ccId ∧
    (s.freeSlot k).turns = s.turns ∧ (s.freeSlot k).tick = s.tick ∧ (s.freeSlot k).free = s.free ∧
    (s.freeSlot k).nextId = s.nextId := by
  exact ⟨rfl, rfl, rfl, rfl, rfl, rfl, rfl, rfl, rfl, rfl, rfl, rfl, rfl, rfl, rfl, rfl, rfl, rfl, rfl, rfl, rfl, rfl, rfl, rfl, rfl, rfl, rfl, rfl, rfl, rfl, rfl, rfl, rfl, rfl, rfl, rfl, rfl, rfl, rfl, rfl, rfl, rfl, rfl, rfl, rfl, rfl, rfl, rfl, rfl, rfl, rfl, rfl, rfl, rfl⟩

@[simp] theorem State.evalWaits_fields (s : State) (line : Nat) :
    (s.evalWaits line).const = s.const ∧ (s.evalWaits line).powered = s.powered ∧ (s.evalWaits line).broken = s.broken ∧
    (s.evalWaits line).now = s.now ∧ (s.evalWaits line).mem = s.mem ∧ (s.evalWaits line).hostMem = s.hostMem ∧
    (s.evalWaits line).ecc = s.ecc ∧ (s.evalWaits line).corrected = s.corrected ∧ (s.evalWaits line).vers = s.vers ∧
    (s.evalWaits line).wclock = s.wclock ∧ (s.evalWaits line).wrote = s.wrote ∧ (s.evalWaits line).hostWrote = s.hostWrote ∧
    (s.evalWaits line).ptes = s.ptes ∧ (s.evalWaits line).dies = s.dies ∧ (s.evalWaits line).links = s.links ∧
    (s.evalWaits line).sent = s.sent ∧ (s.evalWaits line).cpls = s.cpls ∧ (s.evalWaits line).fw = s.fw ∧
    (s.evalWaits line).loadWin = s.loadWin ∧ (s.evalWaits line).ident = s.ident ∧ (s.evalWaits line).akey = s.akey ∧
    (s.evalWaits line).parts = s.parts ∧ (s.evalWaits line).streams = s.streams ∧ (s.evalWaits line).groups = s.groups ∧
    (s.evalWaits line).blocks = s.blocks ∧ (s.evalWaits line).gangs = s.gangs ∧ (s.evalWaits line).cores = s.cores ∧
    (s.evalWaits line).clusters = s.clusters ∧ (s.evalWaits line).reqs = s.reqs ∧ (s.evalWaits line).copies = s.copies ∧
    (s.evalWaits line).sends = s.sends ∧ (s.evalWaits line).mirrors = s.mirrors ∧ (s.evalWaits line).layers = s.layers ∧
    (s.evalWaits line).aids = s.aids ∧ (s.evalWaits line).gens = s.gens ∧ (s.evalWaits line).freeSlots = s.freeSlots ∧
    (s.evalWaits line).unused = s.unused ∧ (s.evalWaits line).resol = s.resol ∧ (s.evalWaits line).migs = s.migs ∧
    (s.evalWaits line).cp = s.cp ∧ (s.evalWaits line).cpId = s.cpId ∧ (s.evalWaits line).cst = s.cst ∧
    (s.evalWaits line).cstId = s.cstId ∧ (s.evalWaits line).cb = s.cb ∧ (s.evalWaits line).cbId = s.cbId ∧
    (s.evalWaits line).cg = s.cg ∧ (s.evalWaits line).cgId = s.cgId ∧ (s.evalWaits line).cc = s.cc ∧
    (s.evalWaits line).ccId = s.ccId ∧ (s.evalWaits line).turns = s.turns ∧ (s.evalWaits line).tick = s.tick ∧
    (s.evalWaits line).free = s.free ∧ (s.evalWaits line).nextId = s.nextId := by
  exact ⟨rfl, rfl, rfl, rfl, rfl, rfl, rfl, rfl, rfl, rfl, rfl, rfl, rfl, rfl, rfl, rfl, rfl, rfl, rfl, rfl, rfl, rfl, rfl, rfl, rfl, rfl, rfl, rfl, rfl, rfl, rfl, rfl, rfl, rfl, rfl, rfl, rfl, rfl, rfl, rfl, rfl, rfl, rfl, rfl, rfl, rfl, rfl, rfl, rfl, rfl, rfl, rfl, rfl⟩

@[simp] theorem State.released_fields (s : State) (g n : Nat) (u : ASet) :
    (s.released g n u).const = s.const ∧ (s.released g n u).powered = s.powered ∧ (s.released g n u).broken = s.broken ∧
    (s.released g n u).now = s.now ∧ (s.released g n u).mem = s.mem ∧ (s.released g n u).hostMem = s.hostMem ∧
    (s.released g n u).ecc = s.ecc ∧ (s.released g n u).corrected = s.corrected ∧ (s.released g n u).vers = s.vers ∧
    (s.released g n u).wclock = s.wclock ∧ (s.released g n u).wrote = s.wrote ∧ (s.released g n u).hostWrote = s.hostWrote ∧
    (s.released g n u).ptes = s.ptes ∧ (s.released g n u).dies = s.dies ∧ (s.released g n u).links = s.links ∧
    (s.released g n u).sent = s.sent ∧ (s.released g n u).cpls = s.cpls ∧ (s.released g n u).fw = s.fw ∧
    (s.released g n u).loadWin = s.loadWin ∧ (s.released g n u).ident = s.ident ∧ (s.released g n u).akey = s.akey ∧
    (s.released g n u).parts = s.parts ∧ (s.released g n u).streams = s.streams ∧ (s.released g n u).tasks = s.tasks ∧
    (s.released g n u).groups = s.groups ∧ (s.released g n u).blocks = s.blocks ∧ (s.released g n u).gangs = s.gangs ∧
    (s.released g n u).cores = s.cores ∧ (s.released g n u).mirrors = s.mirrors ∧ (s.released g n u).layers = s.layers ∧
    (s.released g n u).aids = s.aids ∧ (s.released g n u).gens = s.gens ∧ (s.released g n u).freeSlots = s.freeSlots ∧
    (s.released g n u).unused = s.unused ∧ (s.released g n u).resol = s.resol ∧ (s.released g n u).migs = s.migs ∧
    (s.released g n u).cp = s.cp ∧ (s.released g n u).cpId = s.cpId ∧ (s.released g n u).cst = s.cst ∧
    (s.released g n u).cstId = s.cstId ∧ (s.released g n u).cb = s.cb ∧ (s.released g n u).cbId = s.cbId ∧
    (s.released g n u).cg = s.cg ∧ (s.released g n u).cgId = s.cgId ∧ (s.released g n u).cc = s.cc ∧
    (s.released g n u).ccId = s.ccId ∧ (s.released g n u).turns = s.turns ∧ (s.released g n u).tick = s.tick ∧
    (s.released g n u).free = s.free ∧ (s.released g n u).nextId = s.nextId := by
  exact ⟨rfl, rfl, rfl, rfl, rfl, rfl, rfl, rfl, rfl, rfl, rfl, rfl, rfl, rfl, rfl, rfl, rfl, rfl, rfl, rfl, rfl, rfl, rfl, rfl, rfl, rfl, rfl, rfl, rfl, rfl, rfl, rfl, rfl, rfl, rfl, rfl, rfl, rfl, rfl, rfl, rfl, rfl, rfl, rfl, rfl, rfl, rfl, rfl, rfl, rfl⟩

@[simp] theorem State.forget_fields (s : State) (p : Nat) (r : Nat × Nat) :
    (s.forget p r).const = s.const ∧ (s.forget p r).powered = s.powered ∧ (s.forget p r).broken = s.broken ∧
    (s.forget p r).now = s.now ∧ (s.forget p r).mem = s.mem ∧ (s.forget p r).hostMem = s.hostMem ∧ (s.forget p r).ecc = s.ecc ∧
    (s.forget p r).corrected = s.corrected ∧ (s.forget p r).vers = s.vers ∧ (s.forget p r).wclock = s.wclock ∧
    (s.forget p r).wrote = s.wrote ∧ (s.forget p r).hostWrote = s.hostWrote ∧ (s.forget p r).dies = s.dies ∧
    (s.forget p r).links = s.links ∧ (s.forget p r).sent = s.sent ∧ (s.forget p r).cpls = s.cpls ∧ (s.forget p r).fw = s.fw ∧
    (s.forget p r).loadWin = s.loadWin ∧ (s.forget p r).ident = s.ident ∧ (s.forget p r).akey = s.akey ∧
    (s.forget p r).parts = s.parts ∧ (s.forget p r).streams = s.streams ∧ (s.forget p r).tasks = s.tasks ∧
    (s.forget p r).blocks = s.blocks ∧ (s.forget p r).gangs = s.gangs ∧ (s.forget p r).clusters = s.clusters ∧
    (s.forget p r).reqs = s.reqs ∧ (s.forget p r).copies = s.copies ∧ (s.forget p r).sends = s.sends ∧
    (s.forget p r).mirrors = s.mirrors ∧ (s.forget p r).layers = s.layers ∧ (s.forget p r).aids = s.aids ∧
    (s.forget p r).gens = s.gens ∧ (s.forget p r).freeSlots = s.freeSlots ∧ (s.forget p r).unused = s.unused ∧
    (s.forget p r).resol = s.resol ∧ (s.forget p r).migs = s.migs ∧ (s.forget p r).cp = s.cp ∧ (s.forget p r).cpId = s.cpId ∧
    (s.forget p r).cst = s.cst ∧ (s.forget p r).cstId = s.cstId ∧ (s.forget p r).cb = s.cb ∧ (s.forget p r).cbId = s.cbId ∧
    (s.forget p r).cg = s.cg ∧ (s.forget p r).cgId = s.cgId ∧ (s.forget p r).cc = s.cc ∧ (s.forget p r).ccId = s.ccId ∧
    (s.forget p r).turns = s.turns ∧ (s.forget p r).tick = s.tick ∧ (s.forget p r).free = s.free ∧
    (s.forget p r).nextId = s.nextId := by
  exact ⟨rfl, rfl, rfl, rfl, rfl, rfl, rfl, rfl, rfl, rfl, rfl, rfl, rfl, rfl, rfl, rfl, rfl, rfl, rfl, rfl, rfl, rfl, rfl, rfl, rfl, rfl, rfl, rfl, rfl, rfl, rfl, rfl, rfl, rfl, rfl, rfl, rfl, rfl, rfl, rfl, rfl, rfl, rfl, rfl, rfl, rfl, rfl, rfl, rfl, rfl, rfl⟩

@[simp] theorem State.updMig_fields (s : State) (p : Nat) (f : Migration → Migration) :
    (s.updMig p f).const = s.const ∧ (s.updMig p f).powered = s.powered ∧ (s.updMig p f).broken = s.broken ∧
    (s.updMig p f).now = s.now ∧ (s.updMig p f).mem = s.mem ∧ (s.updMig p f).hostMem = s.hostMem ∧ (s.updMig p f).ecc = s.ecc ∧
    (s.updMig p f).corrected = s.corrected ∧ (s.updMig p f).vers = s.vers ∧ (s.updMig p f).wclock = s.wclock ∧
    (s.updMig p f).wrote = s.wrote ∧ (s.updMig p f).hostWrote = s.hostWrote ∧ (s.updMig p f).ptes = s.ptes ∧
    (s.updMig p f).dies = s.dies ∧ (s.updMig p f).links = s.links ∧ (s.updMig p f).sent = s.sent ∧
    (s.updMig p f).cpls = s.cpls ∧ (s.updMig p f).fw = s.fw ∧ (s.updMig p f).loadWin = s.loadWin ∧
    (s.updMig p f).ident = s.ident ∧ (s.updMig p f).akey = s.akey ∧ (s.updMig p f).parts = s.parts ∧
    (s.updMig p f).streams = s.streams ∧ (s.updMig p f).tasks = s.tasks ∧ (s.updMig p f).groups = s.groups ∧
    (s.updMig p f).blocks = s.blocks ∧ (s.updMig p f).gangs = s.gangs ∧ (s.updMig p f).cores = s.cores ∧
    (s.updMig p f).clusters = s.clusters ∧ (s.updMig p f).reqs = s.reqs ∧ (s.updMig p f).copies = s.copies ∧
    (s.updMig p f).sends = s.sends ∧ (s.updMig p f).mirrors = s.mirrors ∧ (s.updMig p f).layers = s.layers ∧
    (s.updMig p f).aids = s.aids ∧ (s.updMig p f).gens = s.gens ∧ (s.updMig p f).freeSlots = s.freeSlots ∧
    (s.updMig p f).unused = s.unused ∧ (s.updMig p f).resol = s.resol ∧ (s.updMig p f).cp = s.cp ∧
    (s.updMig p f).cpId = s.cpId ∧ (s.updMig p f).cst = s.cst ∧ (s.updMig p f).cstId = s.cstId ∧ (s.updMig p f).cb = s.cb ∧
    (s.updMig p f).cbId = s.cbId ∧ (s.updMig p f).cg = s.cg ∧ (s.updMig p f).cgId = s.cgId ∧ (s.updMig p f).cc = s.cc ∧
    (s.updMig p f).ccId = s.ccId ∧ (s.updMig p f).turns = s.turns ∧ (s.updMig p f).tick = s.tick ∧
    (s.updMig p f).free = s.free ∧ (s.updMig p f).nextId = s.nextId := by
  exact ⟨rfl, rfl, rfl, rfl, rfl, rfl, rfl, rfl, rfl, rfl, rfl, rfl, rfl, rfl, rfl, rfl, rfl, rfl, rfl, rfl, rfl, rfl, rfl, rfl, rfl, rfl, rfl, rfl, rfl, rfl, rfl, rfl, rfl, rfl, rfl, rfl, rfl, rfl, rfl, rfl, rfl, rfl, rfl, rfl, rfl, rfl, rfl, rfl, rfl, rfl, rfl, rfl, rfl⟩

@[simp] theorem State.linkDown_fields (s : State) (k : Nat) :
    (s.linkDown k).const = s.const ∧ (s.linkDown k).powered = s.powered ∧ (s.linkDown k).broken = s.broken ∧
    (s.linkDown k).now = s.now ∧ (s.linkDown k).mem = s.mem ∧ (s.linkDown k).hostMem = s.hostMem ∧ (s.linkDown k).ecc = s.ecc ∧
    (s.linkDown k).corrected = s.corrected ∧ (s.linkDown k).vers = s.vers ∧ (s.linkDown k).wclock = s.wclock ∧
    (s.linkDown k).wrote = s.wrote ∧ (s.linkDown k).hostWrote = s.hostWrote ∧ (s.linkDown k).ptes = s.ptes ∧
    (s.linkDown k).dies = s.dies ∧ (s.linkDown k).links = s.links.set k false ∧ (s.linkDown k).sent = s.sent ∧
    (s.linkDown k).cpls = s.cpls ∧ (s.linkDown k).fw = s.fw ∧ (s.linkDown k).loadWin = s.loadWin ∧
    (s.linkDown k).ident = s.ident ∧ (s.linkDown k).akey = s.akey ∧ (s.linkDown k).streams = s.streams ∧
    (s.linkDown k).tasks = s.tasks ∧ (s.linkDown k).groups = s.groups ∧ (s.linkDown k).blocks = s.blocks ∧
    (s.linkDown k).gangs = s.gangs ∧ (s.linkDown k).cores = s.cores ∧ (s.linkDown k).clusters = s.clusters ∧
    (s.linkDown k).reqs = s.reqs ∧ (s.linkDown k).copies = s.copies ∧ (s.linkDown k).sends = s.sends ∧
    (s.linkDown k).mirrors = s.mirrors ∧ (s.linkDown k).layers = s.layers ∧ (s.linkDown k).aids = s.aids ∧
    (s.linkDown k).gens = s.gens ∧ (s.linkDown k).freeSlots = s.freeSlots ∧ (s.linkDown k).unused = s.unused ∧
    (s.linkDown k).resol = s.resol ∧ (s.linkDown k).migs = s.migs ∧ (s.linkDown k).cp = s.cp ∧ (s.linkDown k).cpId = s.cpId ∧
    (s.linkDown k).cst = s.cst ∧ (s.linkDown k).cstId = s.cstId ∧ (s.linkDown k).cb = s.cb ∧ (s.linkDown k).cbId = s.cbId ∧
    (s.linkDown k).cg = s.cg ∧ (s.linkDown k).cgId = s.cgId ∧ (s.linkDown k).cc = s.cc ∧ (s.linkDown k).ccId = s.ccId ∧
    (s.linkDown k).turns = s.turns ∧ (s.linkDown k).tick = s.tick ∧ (s.linkDown k).free = s.free ∧
    (s.linkDown k).nextId = s.nextId := by
  exact ⟨rfl, rfl, rfl, rfl, rfl, rfl, rfl, rfl, rfl, rfl, rfl, rfl, rfl, rfl, rfl, rfl, rfl, rfl, rfl, rfl, rfl, rfl, rfl, rfl, rfl, rfl, rfl, rfl, rfl, rfl, rfl, rfl, rfl, rfl, rfl, rfl, rfl, rfl, rfl, rfl, rfl, rfl, rfl, rfl, rfl, rfl, rfl, rfl, rfl, rfl, rfl, rfl, rfl⟩

@[simp] theorem State.sync_fields (s : State) :
    (s.sync).const = s.const ∧ (s.sync).powered = s.powered ∧ (s.sync).broken = s.broken ∧ (s.sync).now = s.now ∧
    (s.sync).mem = s.mem ∧ (s.sync).hostMem = s.hostMem ∧ (s.sync).ecc = s.ecc ∧ (s.sync).corrected = s.corrected ∧
    (s.sync).vers = s.vers ∧ (s.sync).wclock = s.wclock ∧ (s.sync).wrote = s.wrote ∧ (s.sync).hostWrote = s.hostWrote ∧
    (s.sync).ptes = s.ptes ∧ (s.sync).dies = s.dies ∧ (s.sync).links = s.links ∧ (s.sync).sent = s.sent ∧
    (s.sync).cpls = s.cpls ∧ (s.sync).fw = s.fw ∧ (s.sync).loadWin = s.loadWin ∧ (s.sync).ident = s.ident ∧
    (s.sync).akey = s.akey ∧ (s.sync).parts = put s.parts s.cpId s.cp ∧ (s.sync).streams = put s.streams s.cstId s.cst ∧
    (s.sync).tasks = s.tasks ∧ (s.sync).groups = put s.groups s.cgId s.cg ∧ (s.sync).blocks = put s.blocks s.cbId s.cb ∧
    (s.sync).gangs = s.gangs ∧ (s.sync).cores = put s.cores s.ccId s.cc ∧ (s.sync).clusters = s.clusters ∧
    (s.sync).reqs = s.reqs ∧ (s.sync).copies = s.copies ∧ (s.sync).sends = s.sends ∧ (s.sync).mirrors = s.mirrors ∧
    (s.sync).layers = s.layers ∧ (s.sync).aids = s.aids ∧ (s.sync).gens = s.gens ∧ (s.sync).freeSlots = s.freeSlots ∧
    (s.sync).unused = s.unused ∧ (s.sync).resol = s.resol ∧ (s.sync).migs = s.migs ∧ (s.sync).cp = s.cp ∧
    (s.sync).cpId = s.cpId ∧ (s.sync).cst = s.cst ∧ (s.sync).cstId = s.cstId ∧ (s.sync).cb = s.cb ∧ (s.sync).cbId = s.cbId ∧
    (s.sync).cg = s.cg ∧ (s.sync).cgId = s.cgId ∧ (s.sync).cc = s.cc ∧ (s.sync).ccId = s.ccId ∧ (s.sync).turns = s.turns ∧
    (s.sync).tick = s.tick ∧ (s.sync).free = s.free ∧ (s.sync).nextId = s.nextId := by
  exact ⟨rfl, rfl, rfl, rfl, rfl, rfl, rfl, rfl, rfl, rfl, rfl, rfl, rfl, rfl, rfl, rfl, rfl, rfl, rfl, rfl, rfl, rfl, rfl, rfl, rfl, rfl, rfl, rfl, rfl, rfl, rfl, rfl, rfl, rfl, rfl, rfl, rfl, rfl, rfl, rfl, rfl, rfl, rfl, rfl, rfl, rfl, rfl, rfl, rfl, rfl, rfl, rfl, rfl, rfl⟩

@[simp] theorem State.commit_fields (s : State) :
    (s.commit).const = s.const ∧ (s.commit).powered = s.powered ∧ (s.commit).broken = s.broken ∧ (s.commit).now = s.now ∧
    (s.commit).mem = s.mem ∧ (s.commit).hostMem = s.hostMem ∧ (s.commit).ecc = s.ecc ∧ (s.commit).corrected = s.corrected ∧
    (s.commit).vers = s.vers ∧ (s.commit).wclock = s.wclock ∧ (s.commit).wrote = s.wrote ∧ (s.commit).hostWrote = s.hostWrote ∧
    (s.commit).ptes = s.ptes ∧ (s.commit).dies = s.dies ∧ (s.commit).links = s.links ∧ (s.commit).sent = s.sent ∧
    (s.commit).cpls = s.cpls ∧ (s.commit).fw = s.fw ∧ (s.commit).loadWin = s.loadWin ∧ (s.commit).ident = s.ident ∧
    (s.commit).akey = s.akey ∧ (s.commit).parts = put s.parts s.cpId s.cp ∧ (s.commit).streams = put s.streams s.cstId s.cst ∧
    (s.commit).tasks = s.tasks ∧ (s.commit).groups = put s.groups s.cgId s.cg ∧ (s.commit).blocks = put s.blocks s.cbId s.cb ∧
    (s.commit).gangs = s.gangs ∧ (s.commit).cores = put s.cores s.ccId s.cc ∧ (s.commit).clusters = s.clusters ∧
    (s.commit).reqs = s.reqs ∧ (s.commit).copies = s.copies ∧ (s.commit).sends = s.sends ∧ (s.commit).mirrors = s.mirrors ∧
    (s.commit).layers = s.layers ∧ (s.commit).aids = s.aids ∧ (s.commit).gens = s.gens ∧ (s.commit).freeSlots = s.freeSlots ∧
    (s.commit).unused = s.unused ∧ (s.commit).resol = s.resol ∧ (s.commit).migs = s.migs ∧ (s.commit).cp = .empty ∧
    (s.commit).cpId = nobody ∧ (s.commit).cst = .empty ∧ (s.commit).cstId = nobody ∧ (s.commit).cb = .empty ∧
    (s.commit).cbId = nobody ∧ (s.commit).cg = .empty ∧ (s.commit).cgId = nobody ∧ (s.commit).cc = .empty ∧
    (s.commit).ccId = nobody ∧ (s.commit).turns = s.turns ∧ (s.commit).tick = s.tick ∧ (s.commit).free = s.free ∧
    (s.commit).nextId = s.nextId := by
  exact ⟨rfl, rfl, rfl, rfl, rfl, rfl, rfl, rfl, rfl, rfl, rfl, rfl, rfl, rfl, rfl, rfl, rfl, rfl, rfl, rfl, rfl, rfl, rfl, rfl, rfl, rfl, rfl, rfl, rfl, rfl, rfl, rfl, rfl, rfl, rfl, rfl, rfl, rfl, rfl, rfl, rfl, rfl, rfl, rfl, rfl, rfl, rfl, rfl, rfl, rfl, rfl, rfl, rfl, rfl⟩

@[simp] theorem State.updPart_fields (s : State) (p : Nat) (f : Part → Part) :
    (s.updPart p f).const = s.const ∧ (s.updPart p f).powered = s.powered ∧ (s.updPart p f).broken = s.broken ∧
    (s.updPart p f).now = s.now ∧ (s.updPart p f).mem = s.mem ∧ (s.updPart p f).hostMem = s.hostMem ∧
    (s.updPart p f).ecc = s.ecc ∧ (s.updPart p f).corrected = s.corrected ∧ (s.updPart p f).vers = s.vers ∧
    (s.updPart p f).wclock = s.wclock ∧ (s.updPart p f).wrote = s.wrote ∧ (s.updPart p f).hostWrote = s.hostWrote ∧
    (s.updPart p f).ptes = s.ptes ∧ (s.updPart p f).dies = s.dies ∧ (s.updPart p f).links = s.links ∧
    (s.updPart p f).sent = s.sent ∧ (s.updPart p f).cpls = s.cpls ∧ (s.updPart p f).fw = s.fw ∧
    (s.updPart p f).loadWin = s.loadWin ∧ (s.updPart p f).ident = s.ident ∧ (s.updPart p f).akey = s.akey ∧
    (s.updPart p f).parts = (if p = s.cpId then s.parts else s.parts.upd p f) ∧ (s.updPart p f).streams = s.streams ∧
    (s.updPart p f).tasks = s.tasks ∧ (s.updPart p f).groups = s.groups ∧ (s.updPart p f).blocks = s.blocks ∧
    (s.updPart p f).gangs = s.gangs ∧ (s.updPart p f).cores = s.cores ∧ (s.updPart p f).clusters = s.clusters ∧
    (s.updPart p f).reqs = s.reqs ∧ (s.updPart p f).copies = s.copies ∧ (s.updPart p f).sends = s.sends ∧
    (s.updPart p f).mirrors = s.mirrors ∧ (s.updPart p f).layers = s.layers ∧ (s.updPart p f).aids = s.aids ∧
    (s.updPart p f).gens = s.gens ∧ (s.updPart p f).freeSlots = s.freeSlots ∧ (s.updPart p f).unused = s.unused ∧
    (s.updPart p f).resol = s.resol ∧ (s.updPart p f).migs = s.migs ∧
    (s.updPart p f).cp = (if p = s.cpId then f s.cp else s.cp) ∧ (s.updPart p f).cpId = s.cpId ∧ (s.updPart p f).cst = s.cst ∧
    (s.updPart p f).cstId = s.cstId ∧ (s.updPart p f).cb = s.cb ∧ (s.updPart p f).cbId = s.cbId ∧ (s.updPart p f).cg = s.cg ∧
    (s.updPart p f).cgId = s.cgId ∧ (s.updPart p f).cc = s.cc ∧ (s.updPart p f).ccId = s.ccId ∧
    (s.updPart p f).turns = s.turns ∧ (s.updPart p f).tick = s.tick ∧ (s.updPart p f).free = s.free ∧
    (s.updPart p f).nextId = s.nextId := by
  unfold State.updPart; split <;> simp [*]

@[simp] theorem State.updGroup_fields (s : State) (g : Nat) (f : Group → Group) :
    (s.updGroup g f).const = s.const ∧ (s.updGroup g f).powered = s.powered ∧ (s.updGroup g f).broken = s.broken ∧
    (s.updGroup g f).now = s.now ∧ (s.updGroup g f).mem = s.mem ∧ (s.updGroup g f).hostMem = s.hostMem ∧
    (s.updGroup g f).ecc = s.ecc ∧ (s.updGroup g f).corrected = s.corrected ∧ (s.updGroup g f).vers = s.vers ∧
    (s.updGroup g f).wclock = s.wclock ∧ (s.updGroup g f).wrote = s.wrote ∧ (s.updGroup g f).hostWrote = s.hostWrote ∧
    (s.updGroup g f).ptes = s.ptes ∧ (s.updGroup g f).dies = s.dies ∧ (s.updGroup g f).links = s.links ∧
    (s.updGroup g f).sent = s.sent ∧ (s.updGroup g f).cpls = s.cpls ∧ (s.updGroup g f).fw = s.fw ∧
    (s.updGroup g f).loadWin = s.loadWin ∧ (s.updGroup g f).ident = s.ident ∧ (s.updGroup g f).akey = s.akey ∧
    (s.updGroup g f).parts = s.parts ∧ (s.updGroup g f).streams = s.streams ∧ (s.updGroup g f).tasks = s.tasks ∧
    (s.updGroup g f).groups = (if g = s.cgId then s.groups else s.groups.upd g f) ∧ (s.updGroup g f).blocks = s.blocks ∧
    (s.updGroup g f).gangs = s.gangs ∧ (s.updGroup g f).cores = s.cores ∧ (s.updGroup g f).clusters = s.clusters ∧
    (s.updGroup g f).reqs = s.reqs ∧ (s.updGroup g f).copies = s.copies ∧ (s.updGroup g f).sends = s.sends ∧
    (s.updGroup g f).mirrors = s.mirrors ∧ (s.updGroup g f).layers = s.layers ∧ (s.updGroup g f).aids = s.aids ∧
    (s.updGroup g f).gens = s.gens ∧ (s.updGroup g f).freeSlots = s.freeSlots ∧ (s.updGroup g f).unused = s.unused ∧
    (s.updGroup g f).resol = s.resol ∧ (s.updGroup g f).migs = s.migs ∧ (s.updGroup g f).cp = s.cp ∧
    (s.updGroup g f).cpId = s.cpId ∧ (s.updGroup g f).cst = s.cst ∧ (s.updGroup g f).cstId = s.cstId ∧
    (s.updGroup g f).cb = s.cb ∧ (s.updGroup g f).cbId = s.cbId ∧ (s.updGroup g f).cg = (if g = s.cgId then f s.cg else s.cg) ∧
    (s.updGroup g f).cgId = s.cgId ∧ (s.updGroup g f).cc = s.cc ∧ (s.updGroup g f).ccId = s.ccId ∧
    (s.updGroup g f).turns = s.turns ∧ (s.updGroup g f).tick = s.tick ∧ (s.updGroup g f).free = s.free ∧
    (s.updGroup g f).nextId = s.nextId := by
  unfold State.updGroup; split <;> simp [*]

@[simp] theorem State.updBlock_fields (s : State) (b : Nat) (f : Block → Block) :
    (s.updBlock b f).const = s.const ∧ (s.updBlock b f).powered = s.powered ∧ (s.updBlock b f).broken = s.broken ∧
    (s.updBlock b f).now = s.now ∧ (s.updBlock b f).mem = s.mem ∧ (s.updBlock b f).hostMem = s.hostMem ∧
    (s.updBlock b f).ecc = s.ecc ∧ (s.updBlock b f).corrected = s.corrected ∧ (s.updBlock b f).vers = s.vers ∧
    (s.updBlock b f).wclock = s.wclock ∧ (s.updBlock b f).wrote = s.wrote ∧ (s.updBlock b f).hostWrote = s.hostWrote ∧
    (s.updBlock b f).ptes = s.ptes ∧ (s.updBlock b f).dies = s.dies ∧ (s.updBlock b f).links = s.links ∧
    (s.updBlock b f).sent = s.sent ∧ (s.updBlock b f).cpls = s.cpls ∧ (s.updBlock b f).fw = s.fw ∧
    (s.updBlock b f).loadWin = s.loadWin ∧ (s.updBlock b f).ident = s.ident ∧ (s.updBlock b f).akey = s.akey ∧
    (s.updBlock b f).parts = s.parts ∧ (s.updBlock b f).streams = s.streams ∧ (s.updBlock b f).tasks = s.tasks ∧
    (s.updBlock b f).groups = s.groups ∧ (s.updBlock b f).blocks = (if b = s.cbId then s.blocks else s.blocks.upd b f) ∧
    (s.updBlock b f).gangs = s.gangs ∧ (s.updBlock b f).cores = s.cores ∧ (s.updBlock b f).clusters = s.clusters ∧
    (s.updBlock b f).reqs = s.reqs ∧ (s.updBlock b f).copies = s.copies ∧ (s.updBlock b f).sends = s.sends ∧
    (s.updBlock b f).mirrors = s.mirrors ∧ (s.updBlock b f).layers = s.layers ∧ (s.updBlock b f).aids = s.aids ∧
    (s.updBlock b f).gens = s.gens ∧ (s.updBlock b f).freeSlots = s.freeSlots ∧ (s.updBlock b f).unused = s.unused ∧
    (s.updBlock b f).resol = s.resol ∧ (s.updBlock b f).migs = s.migs ∧ (s.updBlock b f).cp = s.cp ∧
    (s.updBlock b f).cpId = s.cpId ∧ (s.updBlock b f).cst = s.cst ∧ (s.updBlock b f).cstId = s.cstId ∧
    (s.updBlock b f).cb = (if b = s.cbId then f s.cb else s.cb) ∧ (s.updBlock b f).cbId = s.cbId ∧ (s.updBlock b f).cg = s.cg ∧
    (s.updBlock b f).cgId = s.cgId ∧ (s.updBlock b f).cc = s.cc ∧ (s.updBlock b f).ccId = s.ccId ∧
    (s.updBlock b f).turns = s.turns ∧ (s.updBlock b f).tick = s.tick ∧ (s.updBlock b f).free = s.free ∧
    (s.updBlock b f).nextId = s.nextId := by
  unfold State.updBlock; split <;> simp [*]

@[simp] theorem State.updCore_fields (s : State) (c : Nat) (f : Core → Core) :
    (s.updCore c f).const = s.const ∧ (s.updCore c f).powered = s.powered ∧ (s.updCore c f).broken = s.broken ∧
    (s.updCore c f).now = s.now ∧ (s.updCore c f).mem = s.mem ∧ (s.updCore c f).hostMem = s.hostMem ∧
    (s.updCore c f).ecc = s.ecc ∧ (s.updCore c f).corrected = s.corrected ∧ (s.updCore c f).vers = s.vers ∧
    (s.updCore c f).wclock = s.wclock ∧ (s.updCore c f).wrote = s.wrote ∧ (s.updCore c f).hostWrote = s.hostWrote ∧
    (s.updCore c f).ptes = s.ptes ∧ (s.updCore c f).dies = s.dies ∧ (s.updCore c f).links = s.links ∧
    (s.updCore c f).sent = s.sent ∧ (s.updCore c f).cpls = s.cpls ∧ (s.updCore c f).fw = s.fw ∧
    (s.updCore c f).loadWin = s.loadWin ∧ (s.updCore c f).ident = s.ident ∧ (s.updCore c f).akey = s.akey ∧
    (s.updCore c f).parts = s.parts ∧ (s.updCore c f).streams = s.streams ∧ (s.updCore c f).tasks = s.tasks ∧
    (s.updCore c f).groups = s.groups ∧ (s.updCore c f).blocks = s.blocks ∧ (s.updCore c f).gangs = s.gangs ∧
    (s.updCore c f).cores = (if c = s.ccId then s.cores else s.cores.ins c (f (s.core c))) ∧
    (s.updCore c f).clusters = s.clusters ∧ (s.updCore c f).reqs = s.reqs ∧ (s.updCore c f).copies = s.copies ∧
    (s.updCore c f).sends = s.sends ∧ (s.updCore c f).mirrors = s.mirrors ∧ (s.updCore c f).layers = s.layers ∧
    (s.updCore c f).aids = s.aids ∧ (s.updCore c f).gens = s.gens ∧ (s.updCore c f).freeSlots = s.freeSlots ∧
    (s.updCore c f).unused = s.unused ∧ (s.updCore c f).resol = s.resol ∧ (s.updCore c f).migs = s.migs ∧
    (s.updCore c f).cp = s.cp ∧ (s.updCore c f).cpId = s.cpId ∧ (s.updCore c f).cst = s.cst ∧ (s.updCore c f).cstId = s.cstId ∧
    (s.updCore c f).cb = s.cb ∧ (s.updCore c f).cbId = s.cbId ∧ (s.updCore c f).cg = s.cg ∧ (s.updCore c f).cgId = s.cgId ∧
    (s.updCore c f).cc = (if c = s.ccId then f s.cc else s.cc) ∧ (s.updCore c f).ccId = s.ccId ∧
    (s.updCore c f).turns = s.turns ∧ (s.updCore c f).tick = s.tick ∧ (s.updCore c f).free = s.free ∧
    (s.updCore c f).nextId = s.nextId := by
  unfold State.updCore; split <;> simp [*]

@[simp] theorem State.updStream_fields (s : State) (k : Nat) (f : Stream → Stream) :
    (s.updStream k f).const = s.const ∧ (s.updStream k f).powered = s.powered ∧ (s.updStream k f).broken = s.broken ∧
    (s.updStream k f).now = s.now ∧ (s.updStream k f).mem = s.mem ∧ (s.updStream k f).hostMem = s.hostMem ∧
    (s.updStream k f).ecc = s.ecc ∧ (s.updStream k f).corrected = s.corrected ∧ (s.updStream k f).vers = s.vers ∧
    (s.updStream k f).wclock = s.wclock ∧ (s.updStream k f).wrote = s.wrote ∧ (s.updStream k f).hostWrote = s.hostWrote ∧
    (s.updStream k f).ptes = s.ptes ∧ (s.updStream k f).dies = s.dies ∧ (s.updStream k f).links = s.links ∧
    (s.updStream k f).sent = s.sent ∧ (s.updStream k f).cpls = s.cpls ∧ (s.updStream k f).fw = s.fw ∧
    (s.updStream k f).loadWin = s.loadWin ∧ (s.updStream k f).ident = s.ident ∧ (s.updStream k f).akey = s.akey ∧
    (s.updStream k f).parts = s.parts ∧ (s.updStream k f).streams = (if k = s.cstId then s.streams else s.streams.upd k f) ∧
    (s.updStream k f).tasks = s.tasks ∧ (s.updStream k f).groups = s.groups ∧ (s.updStream k f).blocks = s.blocks ∧
    (s.updStream k f).gangs = s.gangs ∧ (s.updStream k f).cores = s.cores ∧ (s.updStream k f).clusters = s.clusters ∧
    (s.updStream k f).reqs = s.reqs ∧ (s.updStream k f).copies = s.copies ∧ (s.updStream k f).sends = s.sends ∧
    (s.updStream k f).mirrors = s.mirrors ∧ (s.updStream k f).layers = s.layers ∧ (s.updStream k f).aids = s.aids ∧
    (s.updStream k f).gens = s.gens ∧ (s.updStream k f).freeSlots = s.freeSlots ∧ (s.updStream k f).unused = s.unused ∧
    (s.updStream k f).resol = s.resol ∧ (s.updStream k f).migs = s.migs ∧ (s.updStream k f).cp = s.cp ∧
    (s.updStream k f).cpId = s.cpId ∧ (s.updStream k f).cst = (if k = s.cstId then f s.cst else s.cst) ∧
    (s.updStream k f).cstId = s.cstId ∧ (s.updStream k f).cb = s.cb ∧ (s.updStream k f).cbId = s.cbId ∧
    (s.updStream k f).cg = s.cg ∧ (s.updStream k f).cgId = s.cgId ∧ (s.updStream k f).cc = s.cc ∧
    (s.updStream k f).ccId = s.ccId ∧ (s.updStream k f).turns = s.turns ∧ (s.updStream k f).tick = s.tick ∧
    (s.updStream k f).free = s.free ∧ (s.updStream k f).nextId = s.nextId := by
  unfold State.updStream; split <;> simp [*]

@[simp] theorem State.keepLeaf_fields (s : State) (l : Leaf) :
    (s.keepLeaf l).const = s.const ∧ (s.keepLeaf l).powered = s.powered ∧ (s.keepLeaf l).broken = s.broken ∧
    (s.keepLeaf l).now = s.now ∧ (s.keepLeaf l).mem = s.mem ∧ (s.keepLeaf l).hostMem = s.hostMem ∧ (s.keepLeaf l).ecc = s.ecc ∧
    (s.keepLeaf l).corrected = s.corrected ∧ (s.keepLeaf l).vers = s.vers ∧ (s.keepLeaf l).wclock = s.wclock ∧
    (s.keepLeaf l).wrote = s.wrote ∧ (s.keepLeaf l).hostWrote = s.hostWrote ∧ (s.keepLeaf l).ptes = s.ptes ∧
    (s.keepLeaf l).dies = s.dies ∧ (s.keepLeaf l).links = s.links ∧ (s.keepLeaf l).sent = s.sent ∧
    (s.keepLeaf l).cpls = s.cpls ∧ (s.keepLeaf l).fw = s.fw ∧ (s.keepLeaf l).loadWin = s.loadWin ∧
    (s.keepLeaf l).ident = s.ident ∧ (s.keepLeaf l).akey = s.akey ∧ (s.keepLeaf l).parts = s.parts ∧
    (s.keepLeaf l).streams = s.streams ∧ (s.keepLeaf l).tasks = s.tasks ∧ (s.keepLeaf l).groups = s.groups ∧
    (s.keepLeaf l).blocks = s.blocks ∧ (s.keepLeaf l).gangs = s.gangs ∧ (s.keepLeaf l).cores = s.cores ∧
    (s.keepLeaf l).clusters = s.clusters ∧ (s.keepLeaf l).reqs = s.reqs ∧ (s.keepLeaf l).copies = s.copies ∧
    (s.keepLeaf l).sends = s.sends ∧ (s.keepLeaf l).mirrors = s.mirrors ∧ (s.keepLeaf l).layers = s.layers ∧
    (s.keepLeaf l).aids = s.aids ∧ (s.keepLeaf l).gens = s.gens ∧ (s.keepLeaf l).freeSlots = s.freeSlots ∧
    (s.keepLeaf l).unused = s.unused ∧ (s.keepLeaf l).resol = s.resol ∧ (s.keepLeaf l).migs = s.migs ∧
    (s.keepLeaf l).cp = s.cp ∧ (s.keepLeaf l).cpId = s.cpId ∧ (s.keepLeaf l).cst = s.cst ∧ (s.keepLeaf l).cstId = s.cstId ∧
    (s.keepLeaf l).cb = s.cb ∧ (s.keepLeaf l).cbId = s.cbId ∧ (s.keepLeaf l).cg = s.cg ∧ (s.keepLeaf l).cgId = s.cgId ∧
    (s.keepLeaf l).cc = (if s.cc.tlb.contains l then s.cc else { s.cc with tlb := l :: s.cc.tlb }) ∧
    (s.keepLeaf l).ccId = s.ccId ∧ (s.keepLeaf l).turns = s.turns ∧ (s.keepLeaf l).tick = s.tick ∧
    (s.keepLeaf l).free = s.free ∧ (s.keepLeaf l).nextId = s.nextId := by
  unfold State.keepLeaf; split <;> simp [*]

@[simp] theorem State.failWord_fields (s : State) (pa : Nat) (kind : Ecc) :
    (s.failWord pa kind).const = s.const ∧ (s.failWord pa kind).powered = s.powered ∧ (s.failWord pa kind).broken = s.broken ∧
    (s.failWord pa kind).now = s.now ∧ (s.failWord pa kind).mem = s.mem ∧ (s.failWord pa kind).hostMem = s.hostMem ∧
    (s.failWord pa kind).corrected = s.corrected ∧ (s.failWord pa kind).vers = s.vers ∧
    (s.failWord pa kind).wclock = s.wclock ∧ (s.failWord pa kind).wrote = s.wrote ∧
    (s.failWord pa kind).hostWrote = s.hostWrote ∧ (s.failWord pa kind).ptes = s.ptes ∧ (s.failWord pa kind).dies = s.dies ∧
    (s.failWord pa kind).links = s.links ∧ (s.failWord pa kind).sent = s.sent ∧ (s.failWord pa kind).cpls = s.cpls ∧
    (s.failWord pa kind).fw = s.fw ∧ (s.failWord pa kind).loadWin = s.loadWin ∧ (s.failWord pa kind).ident = s.ident ∧
    (s.failWord pa kind).akey = s.akey ∧ (s.failWord pa kind).parts = s.parts ∧ (s.failWord pa kind).streams = s.streams ∧
    (s.failWord pa kind).tasks = s.tasks ∧ (s.failWord pa kind).groups = s.groups ∧ (s.failWord pa kind).blocks = s.blocks ∧
    (s.failWord pa kind).gangs = s.gangs ∧ (s.failWord pa kind).cores = s.cores ∧ (s.failWord pa kind).clusters = s.clusters ∧
    (s.failWord pa kind).reqs = s.reqs ∧ (s.failWord pa kind).copies = s.copies ∧ (s.failWord pa kind).sends = s.sends ∧
    (s.failWord pa kind).mirrors = s.mirrors ∧ (s.failWord pa kind).layers = s.layers ∧ (s.failWord pa kind).aids = s.aids ∧
    (s.failWord pa kind).gens = s.gens ∧ (s.failWord pa kind).freeSlots = s.freeSlots ∧
    (s.failWord pa kind).unused = s.unused ∧ (s.failWord pa kind).resol = s.resol ∧ (s.failWord pa kind).migs = s.migs ∧
    (s.failWord pa kind).cp = s.cp ∧ (s.failWord pa kind).cpId = s.cpId ∧ (s.failWord pa kind).cst = s.cst ∧
    (s.failWord pa kind).cstId = s.cstId ∧ (s.failWord pa kind).cb = s.cb ∧ (s.failWord pa kind).cbId = s.cbId ∧
    (s.failWord pa kind).cg = s.cg ∧ (s.failWord pa kind).cgId = s.cgId ∧ (s.failWord pa kind).cc = s.cc ∧
    (s.failWord pa kind).ccId = s.ccId ∧ (s.failWord pa kind).turns = s.turns ∧ (s.failWord pa kind).tick = s.tick ∧
    (s.failWord pa kind).free = s.free ∧ (s.failWord pa kind).nextId = s.nextId := by
  unfold State.failWord; split <;> simp [*]

@[simp] theorem State.wrS_fields (s : State) (r : Nat) (v : Word) :
    (s.wrS r v).const = s.const ∧ (s.wrS r v).powered = s.powered ∧ (s.wrS r v).broken = s.broken ∧ (s.wrS r v).now = s.now ∧
    (s.wrS r v).mem = s.mem ∧ (s.wrS r v).hostMem = s.hostMem ∧ (s.wrS r v).ecc = s.ecc ∧ (s.wrS r v).corrected = s.corrected ∧
    (s.wrS r v).vers = s.vers ∧ (s.wrS r v).wclock = s.wclock ∧ (s.wrS r v).wrote = s.wrote ∧
    (s.wrS r v).hostWrote = s.hostWrote ∧ (s.wrS r v).ptes = s.ptes ∧ (s.wrS r v).dies = s.dies ∧ (s.wrS r v).links = s.links ∧
    (s.wrS r v).sent = s.sent ∧ (s.wrS r v).cpls = s.cpls ∧ (s.wrS r v).fw = s.fw ∧ (s.wrS r v).loadWin = s.loadWin ∧
    (s.wrS r v).ident = s.ident ∧ (s.wrS r v).akey = s.akey ∧ (s.wrS r v).parts = s.parts ∧ (s.wrS r v).streams = s.streams ∧
    (s.wrS r v).tasks = s.tasks ∧ (s.wrS r v).groups = s.groups ∧ (s.wrS r v).blocks = s.blocks ∧ (s.wrS r v).gangs = s.gangs ∧
    (s.wrS r v).cores = s.cores ∧ (s.wrS r v).clusters = s.clusters ∧ (s.wrS r v).reqs = s.reqs ∧
    (s.wrS r v).copies = s.copies ∧ (s.wrS r v).sends = s.sends ∧ (s.wrS r v).mirrors = s.mirrors ∧
    (s.wrS r v).layers = s.layers ∧ (s.wrS r v).aids = s.aids ∧ (s.wrS r v).gens = s.gens ∧
    (s.wrS r v).freeSlots = s.freeSlots ∧ (s.wrS r v).unused = s.unused ∧ (s.wrS r v).resol = s.resol ∧
    (s.wrS r v).migs = s.migs ∧ (s.wrS r v).cp = s.cp ∧ (s.wrS r v).cpId = s.cpId ∧ (s.wrS r v).cst = s.cst ∧
    (s.wrS r v).cstId = s.cstId ∧ (s.wrS r v).cb = s.cb ∧ (s.wrS r v).cbId = s.cbId ∧ (s.wrS r v).cgId = s.cgId ∧
    (s.wrS r v).cc = s.cc ∧ (s.wrS r v).ccId = s.ccId ∧ (s.wrS r v).turns = s.turns ∧ (s.wrS r v).tick = s.tick ∧
    (s.wrS r v).free = s.free ∧ (s.wrS r v).nextId = s.nextId := by
  unfold State.wrS; split <;> simp [*]

@[simp] theorem State.endGroup_fields (s : State) (b : Bool) :
    (s.endGroup b).const = s.const ∧ (s.endGroup b).powered = s.powered ∧ (s.endGroup b).broken = s.broken ∧
    (s.endGroup b).now = s.now ∧ (s.endGroup b).mem = s.mem ∧ (s.endGroup b).hostMem = s.hostMem ∧ (s.endGroup b).ecc = s.ecc ∧
    (s.endGroup b).corrected = s.corrected ∧ (s.endGroup b).vers = s.vers ∧ (s.endGroup b).wclock = s.wclock ∧
    (s.endGroup b).wrote = s.wrote ∧ (s.endGroup b).hostWrote = s.hostWrote ∧ (s.endGroup b).ptes = s.ptes ∧
    (s.endGroup b).dies = s.dies ∧ (s.endGroup b).links = s.links ∧ (s.endGroup b).sent = s.sent ∧
    (s.endGroup b).cpls = s.cpls ∧ (s.endGroup b).fw = s.fw ∧ (s.endGroup b).loadWin = s.loadWin ∧
    (s.endGroup b).ident = s.ident ∧ (s.endGroup b).akey = s.akey ∧ (s.endGroup b).parts = s.parts ∧
    (s.endGroup b).streams = s.streams ∧ (s.endGroup b).groups = s.groups ∧ (s.endGroup b).blocks = s.blocks ∧
    (s.endGroup b).gangs = s.gangs ∧ (s.endGroup b).cores = s.cores ∧ (s.endGroup b).clusters = s.clusters ∧
    (s.endGroup b).reqs = s.reqs ∧ (s.endGroup b).copies = s.copies ∧ (s.endGroup b).sends = s.sends ∧
    (s.endGroup b).mirrors = s.mirrors ∧ (s.endGroup b).layers = s.layers ∧ (s.endGroup b).aids = s.aids ∧
    (s.endGroup b).gens = s.gens ∧ (s.endGroup b).freeSlots = s.freeSlots ∧ (s.endGroup b).unused = s.unused ∧
    (s.endGroup b).resol = s.resol ∧ (s.endGroup b).migs = s.migs ∧ (s.endGroup b).cp = s.cp ∧ (s.endGroup b).cpId = s.cpId ∧
    (s.endGroup b).cst = s.cst ∧ (s.endGroup b).cstId = s.cstId ∧ (s.endGroup b).cb = s.cb ∧ (s.endGroup b).cbId = s.cbId ∧
    (s.endGroup b).cgId = s.cgId ∧ (s.endGroup b).cc = s.cc ∧ (s.endGroup b).ccId = s.ccId ∧ (s.endGroup b).turns = s.turns ∧
    (s.endGroup b).tick = s.tick ∧ (s.endGroup b).free = s.free ∧ (s.endGroup b).nextId = s.nextId := by
  unfold State.endGroup; repeat (first | split | dsimp only) <;> simp [*]

@[simp] theorem State.ruling_fields (s : State) (k : Nat) (yes : Bool) :
    (s.ruling k yes).const = s.const ∧ (s.ruling k yes).powered = s.powered ∧ (s.ruling k yes).broken = s.broken ∧
    (s.ruling k yes).now = s.now ∧ (s.ruling k yes).mem = s.mem ∧ (s.ruling k yes).hostMem = s.hostMem ∧
    (s.ruling k yes).ecc = s.ecc ∧ (s.ruling k yes).corrected = s.corrected ∧ (s.ruling k yes).vers = s.vers ∧
    (s.ruling k yes).wclock = s.wclock ∧ (s.ruling k yes).wrote = s.wrote ∧ (s.ruling k yes).hostWrote = s.hostWrote ∧
    (s.ruling k yes).ptes = s.ptes ∧ (s.ruling k yes).dies = s.dies ∧ (s.ruling k yes).links = s.links ∧
    (s.ruling k yes).sent = s.sent ∧ (s.ruling k yes).cpls = s.cpls ∧ (s.ruling k yes).fw = s.fw ∧
    (s.ruling k yes).loadWin = s.loadWin ∧ (s.ruling k yes).ident = s.ident ∧ (s.ruling k yes).akey = s.akey ∧
    (s.ruling k yes).parts = s.parts ∧ (s.ruling k yes).streams = s.streams ∧ (s.ruling k yes).tasks = s.tasks ∧
    (s.ruling k yes).groups = s.groups ∧ (s.ruling k yes).blocks = s.blocks ∧ (s.ruling k yes).gangs = s.gangs ∧
    (s.ruling k yes).cores = s.cores ∧ (s.ruling k yes).clusters = s.clusters ∧ (s.ruling k yes).reqs = s.reqs ∧
    (s.ruling k yes).copies = s.copies ∧ (s.ruling k yes).sends = s.sends ∧ (s.ruling k yes).mirrors = s.mirrors ∧
    (s.ruling k yes).layers = s.layers ∧ (s.ruling k yes).aids = s.aids ∧ (s.ruling k yes).gens = s.gens ∧
    (s.ruling k yes).freeSlots = s.freeSlots ∧ (s.ruling k yes).unused = s.unused ∧ (s.ruling k yes).migs = s.migs ∧
    (s.ruling k yes).cp = s.cp ∧ (s.ruling k yes).cpId = s.cpId ∧ (s.ruling k yes).cst = s.cst ∧
    (s.ruling k yes).cstId = s.cstId ∧ (s.ruling k yes).cb = s.cb ∧ (s.ruling k yes).cbId = s.cbId ∧
    (s.ruling k yes).cg = s.cg ∧ (s.ruling k yes).cgId = s.cgId ∧ (s.ruling k yes).cc = s.cc ∧ (s.ruling k yes).ccId = s.ccId ∧
    (s.ruling k yes).turns = s.turns ∧ (s.ruling k yes).tick = s.tick ∧ (s.ruling k yes).free = s.free ∧
    (s.ruling k yes).nextId = s.nextId := by
  unfold State.ruling; repeat (first | split | dsimp only) <;> simp [*]

end Sys2Proof.Machine
end

