-- ==== Sys2Proof/Laws/Memory.lean ====
section
/-! SUPPORT. Laws of memory: what a read returns after a write, that a write changes nothing else, and that each operation
over memory keeps the canonical form. -/

namespace Sys2Proof.Machine

/-! ## Device and host bytes -/

/-- Bytes over a memory, from an address upward: what is given replaces what stood there. -/
def laid (data : List (Option Byte)) (pa a : Nat) (old : Byte) : Byte :=
  if pa ≤ a then ((data[a - pa]?).getD none).getD old else old

theorem laid_cons (x : Option Byte) (ds : List (Option Byte)) (pa a : Nat) (old : Byte) :
    laid (x :: ds) pa a old = if a = pa then x.getD old else laid ds (pa + 1) a old := by
  unfold laid
  by_cases h : a = pa
  · subst h; simp
  · by_cases h2 : pa ≤ a
    · rw [if_pos h2, if_neg h, if_pos (by omega), show a - pa = (a - (pa + 1)) + 1 by omega]
      simp
    · rw [if_neg h2, if_neg h, if_neg (by omega)]

theorem laid_before (data : List (Option Byte)) {pa a : Nat} (h : a < pa) (old : Byte) : laid data pa a old = old := by
  unfold laid
  rw [if_neg (by omega)]

theorem State.writeDev_rest (w : Agent) : ∀ (ds : List (Option Byte)) (s : State) (pa : Nat),
    s.writeDev pa w ds = { s with mem := (s.writeDev pa w ds).mem, wrote := (s.writeDev pa w ds).wrote }
  | [], _, _ => rfl
  | none :: ds, s, pa => State.writeDev_rest w ds s (pa + 1)
  | some b :: ds, s, pa => by
    unfold State.writeDev
    dsimp only
    rw [State.writeDev_rest w ds _ (pa + 1)]

/-- Device memory, read after write. -/
theorem State.devByte_writeDev (w : Agent) : ∀ (ds : List (Option Byte)) (s : State) (pa a : Nat),
    (s.writeDev pa w ds).devByte a = laid ds pa a (s.devByte a)
  | [], s, pa, a => by simp [State.writeDev, laid]
  | none :: ds, s, pa, a => by
    rw [State.writeDev, State.devByte_writeDev w ds s (pa + 1) a, laid_cons]
    by_cases h : a = pa
    · subst h; simp [laid_before]
    · rw [if_neg h]
  | some b :: ds, s, pa, a => by
    rw [State.writeDev, State.devByte_writeDev w ds _ (pa + 1) a, laid_cons]
    unfold State.devByte
    simp only [Cells.read_write]
    by_cases h : a = pa
    · subst h; simp [laid_before]
    · rw [if_neg h, if_neg h]

theorem State.wf_writeDev (w : Agent) : ∀ (ds : List (Option Byte)) (s : State) (pa : Nat), Cells.wf 0 s.mem = true →
    Cells.wf 0 (s.writeDev pa w ds).mem = true
  | [], _, _, h => h
  | none :: ds, s, pa, h => State.wf_writeDev w ds s (pa + 1) h
  | some _ :: ds, _, _, h => State.wf_writeDev w ds _ _ (Cells.wf_write 0 _ _ _ h)

theorem State.hostPut_rest (w : Agent) : ∀ (ds : List (Option Byte)) (s : State) (link ba : Nat),
    s.hostPut link ba w ds = { s with hostMem := (s.hostPut link ba w ds).hostMem, hostWrote := (s.hostPut link ba w ds).hostWrote }
  | [], _, _, _ => rfl
  | none :: ds, s, link, ba => State.hostPut_rest w ds s link (ba + 1)
  | some b :: ds, s, link, ba => by
    unfold State.hostPut
    dsimp only
    rw [State.hostPut_rest w ds _ link (ba + 1)]

theorem State.wf_hostPut (w : Agent) : ∀ (ds : List (Option Byte)) (s : State) (link ba : Nat), Cells.wf 0 s.hostMem = true →
    Cells.wf 0 (s.hostPut link ba w ds).hostMem = true
  | [], _, _, _, h => h
  | none :: ds, s, link, ba, h => State.wf_hostPut w ds s link (ba + 1) h
  | some _ :: ds, _, _, _, h => State.wf_hostPut w ds _ _ _ (Cells.wf_write 0 _ _ _ h)

/-- Host memory, read after write, on any link. -/
theorem State.hostByte_hostPut (w : Agent) : ∀ (ds : List (Option Byte)) (s : State) (link ba l a : Nat), a < 2 ^ 64 → ba + ds.length ≤ 2 ^ 64 →
    (s.hostPut link ba w ds).hostByte l a = if l = link then laid ds ba a (s.hostByte l a) else s.hostByte l a
  | [], s, link, ba, l, a, _, _ => by simp [State.hostPut, laid]
  | none :: ds, s, link, ba, l, a, ha, hb => by
    rw [List.length_cons] at hb
    rw [State.hostPut, State.hostByte_hostPut w ds s link (ba + 1) l a ha (by omega), laid_cons]
    by_cases h : a = ba
    · subst h; simp [laid_before]
    · rw [if_neg h]
  | some b :: ds, s, link, ba, l, a, ha, hb => by
    rw [List.length_cons] at hb
    rw [State.hostPut, State.hostByte_hostPut w ds _ link (ba + 1) l a ha (by omega), laid_cons]
    unfold State.hostByte
    dsimp only
    simp only [Cells.read_write]
    by_cases hl : l = link
    · subst hl
      by_cases h : a = ba
      · subst h; simp [laid_before]
      · simp [h]
    · have hn : ¬l * 2 ^ 64 + a = link * 2 ^ 64 + ba := by omega
      rw [if_neg hl, if_neg hl, if_neg hn]
theorem State.writeHost_rest (s : State) (link ba : Nat) (w : Agent) (ds : List (Option Byte)) :
    s.writeHost link ba w ds = { s with
      hostMem := (s.writeHost link ba w ds).hostMem, hostWrote := (s.writeHost link ba w ds).hostWrote, wclock := s.wclock + 1 } := by
  unfold State.writeHost
  rw [State.hostPut_rest]
theorem State.hostByte_writeHost (w : Agent) (ds : List (Option Byte)) (s : State) (link ba l a : Nat) (ha : a < 2 ^ 64)
    (hb : ba + ds.length ≤ 2 ^ 64) :
    (s.writeHost link ba w ds).hostByte l a = if l = link then laid ds ba a (s.hostByte l a) else s.hostByte l a :=
  State.hostByte_hostPut w ds s link ba l a ha hb

/-! ## Writes at a home -/

theorem State.ruling_rest (s : State) (id : Nat) (yes : Bool) : s.ruling id yes = { s with resol := (s.ruling id yes).resol } := by
  unfold State.ruling
  repeat (first | split | dsimp only)
  all_goals rfl

/-- What the evaluations after a write may touch (R308, R344, R92), the ECC words that a watch's read meets among it (R235). -/
def Evaluated (s t : State) : Prop :=
  t = { s with reqs := t.reqs, resol := t.resol, aids := t.aids, freeSlots := t.freeSlots, tasks := t.tasks,
               ecc := t.ecc, corrected := t.corrected, cp := t.cp, parts := t.parts }
theorem Evaluated.refl (s : State) : Evaluated s s := rfl
theorem Evaluated.trans {s t u : State} (h : Evaluated s t) (k : Evaluated t u) : Evaluated s u := by
  unfold Evaluated at *
  rw [k, h]
theorem Evaluated.mem {s t : State} (h : Evaluated s t) : t.mem = s.mem ∧ t.hostMem = s.hostMem := by
  rw [h]; exact ⟨rfl, rfl⟩
theorem State.evalWaits_only (s : State) (line : Nat) : Evaluated s (s.evalWaits line) := rfl
theorem State.ruling_only (s : State) (id : Nat) (yes : Bool) : Evaluated s (s.ruling id yes) := by
  unfold Evaluated
  rw [State.ruling_rest]
/-- A fold of steps each of which touches only those fields. -/
theorem Evaluated.foldl {α : Type} (f : State → α → State) (hf : ∀ t x, Evaluated t (f t x)) :
    ∀ (l : List α) (s : State), Evaluated s (l.foldl f s)
  | [], s => Evaluated.refl s
  | x :: l, s => (hf s x).trans (Evaluated.foldl f hf l (f s x))
/-- A read touches nothing but the ECC words it meets and the log (R235). -/
theorem State.eccMeet_only (s : State) (part : Nat) (e : LogEntry) (x : Nat × Ecc) : Evaluated s (s.eccMeet part e x) := by
  unfold State.eccMeet State.logPart State.updPart
  split
  · rfl
  · split <;> rfl
  · exact .refl s
theorem State.eccRead_only (s : State) (part agent pc va pa n : Nat) : Evaluated s (s.eccRead part agent pc va pa n).2 :=
  Evaluated.foldl _ (fun t x => State.eccMeet_only t part _ x) _ s
theorem State.evalWatches_only (s : State) (line : Nat) : Evaluated s (s.evalWatches line) := by
  refine .trans (Evaluated.foldl _ (fun t x => ?_) s.reqs s) (t := s.reqs.foldl _ s) rfl
  obtain ⟨k, q⟩ := x
  dsimp only
  split
  · exact State.eccRead_only _ _ _ _ _ _ _
  · exact .refl t
theorem State.evalTruth_only (s : State) (line : Nat) : Evaluated s (s.evalTruth line) := by
  refine Evaluated.foldl _ (fun t x => ?_) s.aids s
  obtain ⟨id, a⟩ := x
  dsimp only
  split
  · exact .refl t
  · split
    · split
      · rfl
      · exact .refl t
    · split
      · exact State.ruling_only t _ _
      · split
        · exact State.ruling_only t _ _
        · exact .refl t
theorem State.committed_only (s : State) (line : Nat) : Evaluated s (s.committed line) :=
  ((s.evalWatches_only line).trans (State.evalTruth_only _ line)).trans (State.evalWaits_only _ line)
theorem State.selfCell_only (s : State) (pa n : Nat) (set : ASet) : Evaluated s (s.selfCell pa n set) := by
  refine Evaluated.foldl _ (fun t x => ?_) s.aids s
  obtain ⟨id, a⟩ := x
  dsimp only
  split
  · exact State.ruling_only t _ _
  · exact .refl t

/-- A write without a set changes exactly its bytes of committed data (R337). -/
theorem State.mem_storeClean (s : State) (pa : Nat) (data : List (Option Byte)) (w : Agent) :
    (s.storeClean pa data w).mem = (s.writeDev pa w data).mem ∧ (s.storeClean pa data w).hostMem = s.hostMem := by
  unfold State.storeClean
  dsimp only
  rw [(State.committed_only _ _).mem.1, (State.committed_only _ _).mem.2]
  refine ⟨rfl, ?_⟩
  dsimp only
  rw [State.writeDev_rest]
theorem State.devByte_storeClean (s : State) (pa : Nat) (data : List (Option Byte)) (w : Agent) (a : Nat) :
    (s.storeClean pa data w).devByte a = laid data pa a (s.devByte a) := by
  rw [← State.devByte_writeDev w]
  unfold State.devByte
  rw [(State.mem_storeClean s pa data w).1]
theorem State.canonical_storeClean (s : State) (pa : Nat) (data : List (Option Byte)) (w : Agent) (h : s.Canonical) :
    (s.storeClean pa data w).Canonical := by
  have e := State.mem_storeClean s pa data w
  exact ⟨e.1 ▸ State.wf_writeDev w data s pa h.1, e.2 ▸ h.2⟩
theorem State.canonical_writeHost (s : State) (link ba : Nat) (w : Agent) (data : List (Option Byte)) (h : s.Canonical) :
    (s.writeHost link ba w data).Canonical := by
  refine ⟨?_, State.wf_hostPut w data s link ba h.2⟩
  rw [State.writeHost_rest]
  exact h.1

/-- A write of a group keeps both memories canonical; one whose bytes carry a set leaves them as they were (R337). -/
theorem State.storeAt_mem (s t : State) (pa n : Nat) (set r : ASet) (atomic : Bool) (w : Agent)
    (f : List Byte → List (Option Byte)) (old : List Byte) (h : s.storeAt pa n set atomic w f = .done t old r) :
    (t = s.storeClean pa (f (s.readNewest pa n).1) w) ∨ (t.mem = s.mem ∧ t.hostMem = s.hostMem) := by
  unfold State.storeAt at h
  dsimp only at h
  generalize (if (set.isEmpty && atomic) = true then (s.readNewest pa n).2 else set) = set1 at h
  split at h
  · injection h with h1 h2 h3
    exact .inl h1.symm
  · split at h
    · cases h
    · repeat' split at h
      all_goals first
        | (injection h with h1 h2 h3; right
           rw [← h1, (State.selfCell_only _ pa n _).mem.1, (State.selfCell_only _ pa n _).mem.2,
             (State.evalWatches_only _ _).mem.1, (State.evalWatches_only _ _).mem.2]
           exact ⟨rfl, rfl⟩)
        | injection h
theorem State.canonical_storeAt (s t : State) (pa n : Nat) (set r : ASet) (atomic : Bool) (w : Agent)
    (f : List Byte → List (Option Byte)) (old : List Byte) (h : s.storeAt pa n set atomic w f = .done t old r) (hc : s.Canonical) : t.Canonical := by
  rcases State.storeAt_mem s t pa n set r atomic w f old h with e | e
  · exact e ▸ State.canonical_storeClean s pa _ w hc
  · exact ⟨e.1 ▸ hc.1, e.2 ▸ hc.2⟩
theorem State.canonical_cleanAtomic (s : State) (pa n : Nat) (op : CleanOp) (w : Agent) (h : s.Canonical) :
    (s.cleanAtomic pa n op w).2.Canonical := by
  unfold State.cleanAtomic
  cases op with
  | swap v => exact State.canonical_storeClean s pa _ w h
  | cas c e =>
    dsimp only
    split
    · exact State.canonical_storeClean s pa _ w h
    · exact h
  | add v =>
    refine ⟨?_, ?_⟩
    · rw [(State.committed_only _ _).mem.1]; exact State.wf_writeDev _ _ s pa h.1
    · rw [(State.committed_only _ _).mem.2]; dsimp only; rw [State.writeDev_rest]; exact h.2

/-! ## Moves and losses -/

theorem Tab.find_foldl_ins {α : Type} (g : Nat × α → Nat) (i : Nat) : ∀ (l : List (Nat × α)) (t : Tab α), (∀ x, x ∈ l → g x ≠ i) →
    (l.foldl (fun t x => t.ins (g x) x.2) t).find i = t.find i
  | [], _, _ => rfl
  | x :: l, t, h => by
    rw [List.foldl_cons, Tab.find_foldl_ins g i l _ fun y hy => h y (by simp [hy]), Tab.find_ins, if_neg fun e => h x (by simp) e.symm]
theorem Cells.wf_foldl_ins (d : Byte) (g : Nat × Byte → Nat) : ∀ (l : List (Nat × Byte)) (t : Tab Byte), (∀ x, x ∈ l → x.2 ≠ d) →
    Cells.wf d t = true → Cells.wf d (l.foldl (fun t x => t.ins (g x) x.2) t) = true
  | [], _, _, h => h
  | x :: l, t, hl, h => by
    refine Cells.wf_foldl_ins d g l _ (fun y hy => hl y (by simp [hy])) ?_
    have hm := (Cells.wf_iff d t).1 h
    refine (Cells.wf_iff d _).2 ⟨Tab.sorted_ins _ _ t hm.1, fun y hy => ?_⟩
    rcases Tab.mem_ins _ _ t y hy with rfl | hy
    · exact hl x (by simp)
    · exact hm.2 y hy
theorem Shift.wf_carry (m : Shift) (t : Tab Byte) (h : Cells.wf 0 t = true) : Cells.wf 0 (m.carry 1 t) = true := by
  have hm := (Cells.wf_iff 0 t).1 h
  exact Cells.wf_foldl_ins 0 _ _ _ (fun x hx => hm.2 x (List.mem_filter.1 hx).1) (Cells.wf_filter 0 t _ h)
theorem State.canonical_move (s : State) (m : Shift) (all : Bool) (h : s.Canonical) : (s.move m all).Canonical :=
  ⟨Shift.wf_carry m s.mem h.1, h.2⟩
theorem State.canonical_blank (s : State) (on : Bool) (h : s.Canonical) : (s.blank on).Canonical := ⟨rfl, h.2⟩
theorem State.canonical_reset : State.reset.Canonical := ⟨rfl, rfl⟩
theorem State.wf_bootMem (s : State) (bs : List Byte) (h : Cells.wf 0 s.mem = true) : Cells.wf 0 (s.bootMem bs).mem = true := by
  unfold State.bootMem bootTables
  simp only [List.foldl_cons, List.foldl_nil]
  exact Cells.wf_writes 0 _ _ _ (Cells.wf_writes 0 _ _ _ (Cells.wf_writes 0 _ _ _ (Cells.wf_writes 0 _ _ _
    (Cells.wf_writes 0 _ _ _ h))))
/-- A state with the memories of another is canonical with it. -/
theorem State.Canonical.of {s t : State} (h : s.Canonical) (hm : t.mem = s.mem) (hh : t.hostMem = s.hostMem) : t.Canonical :=
  ⟨hm ▸ h.1, hh ▸ h.2⟩

/-! ## Commits, scratchpad, focus -/

theorem State.canonical_committed (s : State) (line : Nat) (h : s.Canonical) : (s.committed line).Canonical :=
  .of h (s.committed_only line).mem.1 (s.committed_only line).mem.2
theorem State.canonical_commitLine (line : Nat) : ∀ (n : Nat) (s : State), s.Canonical → (s.commitLine line n).Canonical
  | 0, _, h => h
  | n + 1, s, h => by
    unfold State.commitLine
    split
    · split
      · exact h
      · exact State.canonical_commitLine line n _ (State.canonical_committed _ line ⟨Cells.wf_writes 0 _ _ _ h.1, h.2⟩)
    · exact h
theorem State.evalPadWatches_rest (s : State) (blk line : Nat) :
    s.evalPadWatches blk line = { s with reqs := (s.evalPadWatches blk line).reqs } := by
  unfold State.evalPadWatches
  split <;> rfl
/-- A write of scratchpad touches its block, the watches on it and the count of writes, and no memory. -/
theorem State.storePad_rest (s : State) (blk off : Nat) (data : List (Option Byte)) (set : ASet) (w : Agent) (p : WrHow) :
    s.storePad blk off data set w p = { s with
      cb := (s.storePad blk off data set w p).cb, blocks := (s.storePad blk off data set w p).blocks,
      reqs := (s.storePad blk off data set w p).reqs, wclock := s.wclock + 1 } := by
  unfold State.storePad State.updBlock
  dsimp only
  rw [State.evalPadWatches_rest]
  split <;> rfl
theorem State.canonical_storePad (s : State) (blk off : Nat) (data : List (Option Byte)) (set : ASet) (w : Agent) (p : WrHow) (h : s.Canonical) :
    (s.storePad blk off data set w p).Canonical := by
  rw [State.storePad_rest]
  exact h
/-- Keeping only some addresses keeps the canonical form. -/
theorem State.canonical_filter (s t : State) (p : Nat × Byte → Bool) (h : s.Canonical) (hm : t.mem = List.filter p s.mem)
    (hh : t.hostMem = s.hostMem) : t.Canonical := ⟨hm ▸ Cells.wf_filter 0 s.mem p h.1, hh ▸ h.2⟩
theorem State.canonical_commit (s : State) : s.commit.Canonical ↔ s.Canonical := .rfl
theorem State.canonical_focus (s t : State) (g : Nat) (hf : s.focus g = some t) : t.Canonical ↔ s.Canonical := by
  unfold State.focus at hf
  repeat' split at hf
  all_goals first
    | (injection hf with e; rw [← e]; exact .rfl)
    | injection hf
/-- A step for one group keeps what its effect on the group in focus keeps. -/
theorem State.canonical_onGroup (s : State) (g : Nat) (f : State → State) (hf : ∀ t : State, t.Canonical → (f t).Canonical)
    (h : s.Canonical) : (s.onGroup g f).Canonical := by
  unfold State.onGroup
  split
  · rename_i t e
    split
    · exact h
    · exact (State.canonical_commit _).2 (hf t ((State.canonical_focus s t g e).2 h))
  · exact h

end Sys2Proof.Machine
end

