-- ==== Sys2Proof/Laws/PerInstr.lean ====
section
/-! SUPPORT. Decoding what the encoder writes, one lemma per instruction: no bit of an encoding is dropped (R55 to R58, R122
to R127, R147 to R149). A step of the device has no encoding. -/

namespace Sys2Proof.Laws.RoundTrip

set_option linter.all false
set_option Elab.async false

/-- The word, or the 128 bits, of a well-formed instruction decode to the instruction. -/
def Statement (i : Instr) : Prop := i.wf = true →
  (∀ w, encodeWord i = some w → decodeWord w = .ok i ∧ w < 2 ^ 32) ∧
  (∀ n, encodeS i = some n → decodeS n = .ok i ∧ n < 2 ^ 128)

theorem stmt_word {i : Instr} {w : Nat} (h1 : encodeWord i = some w) (h2 : encodeS i = none)
    (h : i.wf = true → decodeWord w = .ok i ∧ w < 2 ^ 32) : Statement i := fun hw =>
  ⟨fun v hv => by rw [h1] at hv; cases hv; exact h hw, fun n hn => by rw [h2] at hn; cases hn⟩
theorem stmt_stream {i : Instr} {n : Nat} (h1 : encodeWord i = none) (h2 : encodeS i = some n)
    (h : i.wf = true → decodeS n = .ok i ∧ n < 2 ^ 128) : Statement i := fun hw =>
  ⟨(fun v hv => by rw [h1] at hv; cases hv), fun m hm => by rw [h2] at hm; cases hm; exact h hw⟩
theorem stmt_none {i : Instr} (h1 : encodeWord i = none) (h2 : encodeS i = none) : Statement i := fun _ =>
  ⟨(fun v hv => by rw [h1] at hv; cases hv), fun n hn => by rw [h2] at hn; cases hn⟩
theorem of_ok {i : Instr} (h : i.wf = true) : (Parse.of (some i) true).result = .ok i := by
  simp only [Instr.wf, Bool.and_eq_true] at h
  simp [Parse.of, Parse.result, h.1, h.2]

/-! Fields and codes. -/

theorem b2n_lt (b : Bool) : b2n b < 2 := by cases b <;> decide
theorem b2n_false : b2n false = 0 := rfl
theorem b2n_true : b2n true = 1 := rfl
theorem b2n_beq (b : Bool) : (b2n b == 1) = b := by cases b <;> rfl
theorem fin_ofNat {n : Nat} (x : Fin (n + 1)) : Fin.ofNat (n + 1) x.val = x := Fin.ext (Nat.mod_eq_of_lt x.isLt)
theorem bv_ofNat {n : Nat} (x : BitVec n) : BitVec.ofNat n x.toNat = x := by simp
theorem v_split (g : VReg) : Fin.ofNat 64 (g.val % 32 + 32 * (g.val / 32)) = g :=
  Fin.ext (by show (g.val % 32 + 32 * (g.val / 32)) % 64 = g.val; have := g.isLt; omega)
theorem T4_lt (t : T4) : t.code < 8 := by cases t <;> decide
theorem T4_of (t : T4) : T4.ofCode t.code = some t := by cases t <;> rfl
theorem F6_lt (t : F6) : t.code < 8 := by cases t <;> decide
theorem F6_of (t : F6) : F6.ofCode t.code = some t := by cases t <;> rfl
theorem F4_lt (t : F4) : t.code < 8 := by cases t <;> decide
theorem F4_of (t : F4) : F4.ofCode t.code = some t := by cases t <;> rfl
theorem F2_lt (t : F2) : t.code < 8 := by cases t <;> decide
theorem F2_of (t : F2) : F2.ofCode t.code = some t := by cases t <;> rfl
theorem Log8_lt (t : Log8) : t.code < 8 := by cases t <;> decide
theorem Log8_of (t : Log8) : Log8.ofCode t.code = some t := by cases t <;> rfl
theorem Sh7_lt (t : Sh7) : t.code < 8 := by cases t <;> decide
theorem Sh7_of (t : Sh7) : Sh7.ofCode t.code = some t := by cases t <;> rfl
theorem BitsFn_lt (t : BitsFn) : t.code < 8 := by cases t <;> decide
theorem BitsFn_of (t : BitsFn) : BitsFn.ofCode t.code = some t := by cases t <;> rfl
theorem ICmp_lt (t : ICmp) : t.code < 8 := by cases t <;> decide
theorem ICmp_of (t : ICmp) : ICmp.ofCode t.code = some t := by cases t <;> rfl
theorem FCmp_lt (t : FCmp) : t.code < 8 := by cases t <;> decide
theorem FCmp_of (t : FCmp) : FCmp.ofCode t.code = some t := by cases t <;> rfl
theorem SgnFn_lt (t : SgnFn) : t.code < 4 := by cases t <;> decide
theorem SgnFn_of (t : SgnFn) : SgnFn.ofCode t.code = some t := by cases t <;> rfl
theorem Piece_lt (t : Piece) : t.code < 8 := by cases t <;> decide
theorem Piece_of (t : Piece) : Piece.ofCode t.code = some t := by cases t <;> rfl
theorem MatchTy_lt (t : MatchTy) : t.code < 8 := by cases t <;> decide
theorem MatchTy_of (t : MatchTy) : MatchTy.ofCode t.code = some t := by cases t <;> rfl
theorem LaneTy_lt (t : LaneTy) : t.code < 8 := by cases t <;> decide
theorem LaneTy_of (t : LaneTy) : LaneTy.ofCode t.code = some t := by cases t <;> rfl
theorem Red6_lt (t : Red6) : t.code < 8 := by cases t <;> decide
theorem Red6_of (t : Red6) : Red6.ofCode t.code = some t := by cases t <;> rfl
theorem Vote5_lt (t : Vote5) : t.code < 8 := by cases t <;> decide
theorem Vote5_of (t : Vote5) : Vote5.ofCode t.code = some t := by cases t <;> rfl
theorem Shf4_lt (t : Shf4) : t.code < 8 := by cases t <;> decide
theorem Shf4_of (t : Shf4) : Shf4.ofCode t.code = some t := by cases t <;> rfl
theorem MemTy_lt (t : MemTy) : t.code < 8 := by cases t <;> decide
theorem MemTy_of (t : MemTy) : MemTy.ofCode t.code = some t := by cases t <;> rfl
theorem Hint_lt (t : Hint) : t.code < 4 := by cases t <;> decide
theorem Hint_of (t : Hint) : Hint.ofCode t.code = some t := by cases t <;> rfl
theorem AopI_lt (t : AopI) : t.code < 8 := by cases t <;> decide
theorem AopI_of (t : AopI) : AopI.ofCode t.code = some t := by cases t <;> rfl
theorem AopF_lt (t : AopF) : t.code < 8 := by cases t <;> decide
theorem AopF_of (t : AopF) : AopF.ofCode t.code = some t := by cases t <;> rfl
theorem Sem_lt (t : Sem) : t.code < 8 := by cases t <;> decide
theorem Sem_of (t : Sem) : Sem.ofCode t.code = some t := by cases t <;> rfl
theorem UCnd_lt (t : UCnd) : t.code < 8 := by cases t <;> decide
theorem UCnd_of (t : UCnd) : UCnd.ofCode t.code = some t := by cases t <;> rfl
theorem Scope_lt (t : Scope) : t.code < 8 := by cases t <;> decide
theorem Scope_of (t : Scope) : Scope.ofCode t.code = some t := by cases t <;> rfl
theorem FenceKind_lt (t : FenceKind) : t.code < 4 := by cases t <;> decide
theorem FenceKind_of (t : FenceKind) : FenceKind.ofCode t.code = some t := by cases t <;> rfl
theorem WaitCond_lt (t : WaitCond) : t.code < 8 := by cases t <;> decide
theorem WaitCond_of (t : WaitCond) : WaitCond.ofCode t.code = some t := by cases t <;> rfl
theorem LaneSpec_lt (t : LaneSpec) : t.code < 64 := by cases t <;> decide
theorem LaneSpec_of (t : LaneSpec) : LaneSpec.ofCode t.code = some t := by cases t <;> rfl
theorem WSpec_lt (t : WSpec) : t.code < 65536 := by cases t <;> decide
theorem WSpec_of (t : WSpec) : WSpec.ofCode t.code = some t := by cases t <;> rfl
theorem ErrForm_lt (t : ErrForm) : t.code < 4 := by cases t <;> decide
theorem ErrForm_of (t : ErrForm) : ErrForm.ofCode t.code = some t := by cases t <;> rfl
theorem QCond_lt (t : QCond) : t.code < 8 := by cases t <;> decide
theorem QCond_of (t : QCond) : QCond.ofCode t.code = some t := by cases t <;> rfl
theorem QSize_lt (t : QSize) : t.code < 4 := by cases t <;> decide
theorem QSize_of (t : QSize) : QSize.ofCode t.code = some t := by cases t <;> rfl
theorem QOp_lt (t : QOp) : t.code < 16 := by cases t <;> decide
theorem QOp_of (t : QOp) : QOp.ofCode t.code = some t := by cases t <;> rfl
theorem SpecReg_lt (r : SpecReg) : r.code.2 < 8 ∧ r.code.1 < 256 := by
  cases r with
  | aset hi => cases hi <;> decide
  | _ => decide
theorem SpecReg_of (r : SpecReg) : SpecReg.ofCode r.code.1 r.code.2 = some r := by
  cases r with
  | aset hi => cases hi <;> rfl
  | _ => rfl
theorem fmt_lt (f : Fmt) (_h : f.ok = true) : f.code < 64 := by
  cases f with
  | b8 k u n =>
    have hk := k.isLt
    cases u <;> cases n <;> simp only [Fmt.code, b2n_false, b2n_true] <;> omega
  | _ => decide
theorem fmt_of (f : Fmt) (h : f.ok = true) : Fmt.ofCode f.code = some f := by
  cases f with
  | b8 k u n =>
    revert h
    revert k u n
    decide
  | _ => rfl
theorem fmt_cvt {sw : Bool} {dst src : Fmt} {d a : VReg} (h : (Instr.cvt sw dst src d a).wf = true) :
    dst.ok = true ∧ src.ok = true := by
  simp only [Instr.wf, Instr.regsOk, Bool.and_eq_true] at h
  exact h.1.1.1
theorem fmt_cvtsat {sw : Bool} {dst src : Fmt} {d a : VReg} (h : (Instr.cvtsat sw dst src d a).wf = true) :
    dst.ok = true ∧ src.ok = true := by
  simp only [Instr.wf, Instr.regsOk, Bool.and_eq_true] at h
  exact h.1.1.1
theorem fmt_cvts {sw : Bool} {dst : Fmt} {d a b : VReg} (h : (Instr.cvts sw dst d a b).wf = true) : dst.ok = true := by
  have h1 : dst.cvtsDst = true := by
    simp only [Instr.wf, Instr.regsOk, Bool.and_eq_true] at h
    exact h.1
  cases dst <;> first
    | rfl
    | exact h1
theorem atom_d {sw w : Bool} {op : AopI} {sem : Sem} {d : VReg} {a : Fin 32} {b : VReg}
    (h : (Instr.atom sw w op sem d a b).wf = true) : d.val ≠ 63 := by
  simp only [Instr.wf, Instr.fieldsOk, Bool.and_eq_true] at h
  intro e
  have : d = 63 := Fin.ext e
  simp [this] at h
theorem atomf_d {sw : Bool} {op : AopF} {sem : Sem} {d a b : VReg}
    (h : (Instr.atomf sw op sem d a b).wf = true) : d.val ≠ 63 := by
  simp only [Instr.wf, Instr.fieldsOk, Bool.and_eq_true] at h
  intro e
  have : d = 63 := Fin.ext e
  simp [this] at h

/-! The formats. -/

/-- An LR word: its fields, with the b operand as a number, its last-use bit and its uniform bit (R125). -/
structure IsLR (W : Nat) (sw : Bool) (op d : Nat) (a : VSrc) (p q u fn : Nat) : Prop where
  lt : W < 2 ^ 32
  f31_1 : fld W 31 1 = 0
  f30_1 : fld W 30 1 = b2n sw
  f24_6 : fld W 24 6 = op
  f18_6 : fld W 18 6 = d
  f12_6 : fld W 12 6 = a.reg.val
  f5_1 : fld W 5 1 = b2n a.last
  f0_3 : fld W 0 3 = fn
  f6_6 : fld W 6 6 = p
  f4_1 : fld W 4 1 = q
  f3_1 : fld W 3 1 = u
  f3_2 : fld W 3 2 = u + 2 * q
  f11_1 : fld W 11 1 = p / 32
  f6_5 : fld W 6 5 = p % 32
  f6_3 : fld W 6 3 = p % 8
  f9_3 : fld W 9 3 = p / 8
  f0_2 : fld W 0 2 = fn % 4
  f2_1 : fld W 2 1 = fn / 4
  f18_3 : fld W 18 3 = d % 8
  f21_3 : fld W 21 3 = d / 8
theorem IsLR.make (sw : Bool) (op d : Nat) (a : VSrc) (p q u fn : Nat) (B : Nat) (hB : B = 2 ^ 6 * p + 2 ^ 4 * q + 2 ^ 3 * u) (h1 : op < 64) (h2 : d < 64) (h3 : p < 64) (h4 : q < 2) (h5 : u < 2) (h6 : fn < 8) (h7 : a.reg.val < 64) (h8 : b2n a.last < 2) (h9 : b2n sw < 2) : IsLR (encLR sw op d a B fn) sw op d a p q u fn := by
  simp only [encLR, encHead, b2n_false, b2n_true, Nat.reducePow] at *
  constructor
  · omega
  · unfold fld; omega
  · unfold fld; omega
  · unfold fld; omega
  · unfold fld; omega
  · unfold fld; omega
  · unfold fld; omega
  · unfold fld; omega
  · unfold fld; omega
  · unfold fld; omega
  · unfold fld; omega
  · unfold fld; omega
  · unfold fld; omega
  · unfold fld; omega
  · unfold fld; omega
  · unfold fld; omega
  · unfold fld; omega
  · unfold fld; omega
  · unfold fld; omega
  · unfold fld; omega
/-- An LM word (R125). -/
structure IsLM (W : Nat) (sw : Bool) (op : Nat) (d a : VSrc) (r : SReg) (t : MemTy) (h : Nat) : Prop where
  lt : W < 2 ^ 32
  f31_1 : fld W 31 1 = 0
  f30_1 : fld W 30 1 = b2n sw
  f24_6 : fld W 24 6 = op
  f18_6 : fld W 18 6 = d.reg.val
  f12_6 : fld W 12 6 = a.reg.val
  f11_1 : fld W 11 1 = b2n a.last
  f10_1 : fld W 10 1 = b2n d.last
  f5_5 : fld W 5 5 = r.val
  f2_3 : fld W 2 3 = t.code
  f0_2 : fld W 0 2 = h
theorem IsLM.make (sw : Bool) (op : Nat) (d a : VSrc) (r : SReg) (t : MemTy) (h : Nat) (h1 : op < 64) (h2 : h < 4) (h3 : t.code < 8) (h4 : r.val < 32) (h5 : d.reg.val < 64) (h6 : b2n d.last < 2) (h7 : a.reg.val < 64) (h8 : b2n a.last < 2) (h9 : b2n sw < 2) : IsLM (encLM sw op d a r t h) sw op d a r t h := by
  simp only [encLM, encHead, b2n_false, b2n_true, Nat.reducePow] at *
  constructor
  · omega
  · unfold fld; omega
  · unfold fld; omega
  · unfold fld; omega
  · unfold fld; omega
  · unfold fld; omega
  · unfold fld; omega
  · unfold fld; omega
  · unfold fld; omega
  · unfold fld; omega
  · unfold fld; omega
/-- A UX word, and a UR word with m = 16 × fn (R126). -/
structure IsUX (W : Nat) (sw : Bool) (op x y z m : Nat) : Prop where
  lt : W < 2 ^ 32
  f31_1 : fld W 31 1 = 1
  f30_1 : fld W 30 1 = b2n sw
  f24_6 : fld W 24 6 = op
  f19_5 : fld W 19 5 = x
  f14_5 : fld W 14 5 = y
  f9_5 : fld W 9 5 = z
  f0_9 : fld W 0 9 = m
  f4_5 : fld W 4 5 = m / 16
  f0_4 : fld W 0 4 = m % 16
  f4_3 : fld W 4 3 = m / 16 % 8
  f3_1 : fld W 3 1 = m / 8 % 2
  f2_1 : fld W 2 1 = m / 4 % 2
  f1_1 : fld W 1 1 = m / 2 % 2
  f0_1 : fld W 0 1 = m % 2
  f0_2 : fld W 0 2 = m % 4
  f0_3 : fld W 0 3 = m % 8
  f3_3 : fld W 3 3 = m / 8 % 8
  f3_2 : fld W 3 2 = m / 8 % 4
  f1_2 : fld W 1 2 = m / 2 % 4
  f4_1 : fld W 4 1 = m / 16 % 2
  f6_1 : fld W 6 1 = m / 64 % 2
  f7_1 : fld W 7 1 = m / 128 % 2
  f8_1 : fld W 8 1 = m / 256
  f7_2 : fld W 7 2 = m / 128
  f4_4 : fld W 4 4 = m / 16 % 16
  f5_4 : fld W 5 4 = m / 32
  f1_8 : fld W 1 8 = m / 2
  f2_7 : fld W 2 7 = m / 4
  f3_5 : fld W 3 5 = m / 8 % 32
  f8_6 : fld W 8 6 = m / 256 + 2 * z
  f9_15 : fld W 9 15 = z + 32 * y + 1024 * x
  f0_14 : fld W 0 14 = m + 512 * z
  f0_19 : fld W 0 19 = m + 512 * z + 16384 * y
  f0_24 : fld W 0 24 = m + 512 * z + 16384 * y + 524288 * x
  f5_19 : fld W 5 19 = m / 32 + 16 * z + 512 * y + 16384 * x
  f1_13 : fld W 1 13 = m / 2 + 256 * z
  f1_18 : fld W 1 18 = m / 2 + 256 * z + 8192 * y
  f1_23 : fld W 1 23 = m / 2 + 256 * z + 8192 * y + 262144 * x
  f2_17 : fld W 2 17 = m / 4 + 128 * z + 4096 * y
  f14_3 : fld W 14 3 = y % 8
  f17_2 : fld W 17 2 = y / 8
theorem IsUX.make (sw : Bool) (op x y z m : Nat) (h1 : op < 64) (h2 : x < 32) (h3 : y < 32) (h4 : z < 32) (h5 : m < 512) (h9 : b2n sw < 2) : IsUX (encUX sw op x y z m) sw op x y z m := by
  simp only [encUX, encHead, b2n_false, b2n_true, Nat.reducePow] at *
  constructor
  · omega
  · unfold fld; omega
  · unfold fld; omega
  · unfold fld; omega
  · unfold fld; omega
  · unfold fld; omega
  · unfold fld; omega
  · unfold fld; omega
  · unfold fld; omega
  · unfold fld; omega
  · unfold fld; omega
  · unfold fld; omega
  · unfold fld; omega
  · unfold fld; omega
  · unfold fld; omega
  · unfold fld; omega
  · unfold fld; omega
  · unfold fld; omega
  · unfold fld; omega
  · unfold fld; omega
  · unfold fld; omega
  · unfold fld; omega
  · unfold fld; omega
  · unfold fld; omega
  · unfold fld; omega
  · unfold fld; omega
  · unfold fld; omega
  · unfold fld; omega
  · unfold fld; omega
  · unfold fld; omega
  · unfold fld; omega
  · unfold fld; omega
  · unfold fld; omega
  · unfold fld; omega
  · unfold fld; omega
  · unfold fld; omega
  · unfold fld; omega
  · unfold fld; omega
  · unfold fld; omega
  · unfold fld; omega
  · unfold fld; omega
  · unfold fld; omega
/-- A UK word (R126). -/
structure IsUK (W : Nat) (sw : Bool) (op d sub imm : Nat) : Prop where
  lt : W < 2 ^ 32
  f31_1 : fld W 31 1 = 1
  f30_1 : fld W 30 1 = b2n sw
  f24_6 : fld W 24 6 = op
  f19_5 : fld W 19 5 = d
  f16_3 : fld W 16 3 = sub
  f16_1 : fld W 16 1 = sub % 2
  f0_16 : fld W 0 16 = imm
  f0_8 : fld W 0 8 = imm % 256
  f8_8 : fld W 8 8 = imm / 256
theorem IsUK.make (sw : Bool) (op d sub imm : Nat) (h1 : op < 64) (h2 : d < 32) (h3 : sub < 8) (h4 : imm < 65536) (h9 : b2n sw < 2) : IsUK (encUK sw op d sub imm) sw op d sub imm := by
  simp only [encUK, encHead, b2n_false, b2n_true, Nat.reducePow] at *
  constructor
  · omega
  · unfold fld; omega
  · unfold fld; omega
  · unfold fld; omega
  · unfold fld; omega
  · unfold fld; omega
  · unfold fld; omega
  · unfold fld; omega
  · unfold fld; omega
  · unfold fld; omega
/-- An S instruction (R55, R57). -/
structure IsS (W : Nat) (op qa qb imm w1 w2 w3 : Nat) : Prop where
  lt : W < 2 ^ 128
  f24_8 : fld W 24 8 = op
  f20_4 : fld W 20 4 = qa
  f16_4 : fld W 16 4 = qb
  f0_16 : fld W 0 16 = imm
  f0_4 : fld W 0 4 = imm % 16
  f0_1 : fld W 0 1 = imm % 2
  f1_15 : fld W 1 15 = imm / 2
  f4_12 : fld W 4 12 = imm / 16
  f32_32 : fld W 32 32 = w1
  f64_32 : fld W 64 32 = w2
  f96_32 : fld W 96 32 = w3
  f96_2 : fld W 96 2 = w3 % 4
  f98_30 : fld W 98 30 = w3 / 4
  f32_64 : fld W 32 64 = w1 + 4294967296 * w2
  f32_3 : fld W 32 3 = w1 % 8
  f32_4 : fld W 32 4 = w1 % 16
  f32_6 : fld W 32 6 = w1 % 64
  f32_8 : fld W 32 8 = w1 % 256
  f35_1 : fld W 35 1 = w1 / 8 % 2
  f35_29 : fld W 35 29 = w1 / 8
  f36_1 : fld W 36 1 = w1 / 16 % 2
  f36_28 : fld W 36 28 = w1 / 16
  f37_27 : fld W 37 27 = w1 / 32
  f37_3 : fld W 37 3 = w1 / 32 % 8
  f38_2 : fld W 38 2 = w1 / 64 % 4
  f38_10 : fld W 38 10 = w1 / 64 % 1024
  f38_26 : fld W 38 26 = w1 / 64
  f40_1 : fld W 40 1 = w1 / 256 % 2
  f40_4 : fld W 40 4 = w1 / 256 % 16
  f40_6 : fld W 40 6 = w1 / 256 % 64
  f40_10 : fld W 40 10 = w1 / 256 % 1024
  f40_24 : fld W 40 24 = w1 / 256
  f41_23 : fld W 41 23 = w1 / 512
  f44_20 : fld W 44 20 = w1 / 4096
  f46_2 : fld W 46 2 = w1 / 16384 % 4
  f48_1 : fld W 48 1 = w1 / 65536 % 2
  f49_15 : fld W 49 15 = w1 / 131072
  f50_3 : fld W 50 3 = w1 / 262144 % 8
  f50_14 : fld W 50 14 = w1 / 262144
  f53_3 : fld W 53 3 = w1 / 2097152 % 8
  f53_11 : fld W 53 11 = w1 / 2097152
  f56_1 : fld W 56 1 = w1 / 16777216 % 2
  f57_7 : fld W 57 7 = w1 / 33554432
  f64_1 : fld W 64 1 = w2 % 2
  f64_2 : fld W 64 2 = w2 % 4
  f64_3 : fld W 64 3 = w2 % 8
  f65_31 : fld W 65 31 = w2 / 2
  f66_1 : fld W 66 1 = w2 / 4 % 2
  f66_30 : fld W 66 30 = w2 / 4
  f67_1 : fld W 67 1 = w2 / 8 % 2
  f67_29 : fld W 67 29 = w2 / 8
  f68_28 : fld W 68 28 = w2 / 16
theorem IsS.make (op qa qb imm w1 w2 w3 : Nat) (h1 : op < 256) (h2 : qa < 16) (h3 : qb < 16) (h4 : imm < 65536) (h5 : w1 < 4294967296) (h6 : w2 < 4294967296) (h7 : w3 < 4294967296) : IsS (encS op qa qb imm w1 w2 w3) op qa qb imm w1 w2 w3 := by
  simp only [encS, b2n_false, b2n_true, Nat.reducePow] at *
  constructor
  · omega
  · unfold fld; omega
  · unfold fld; omega
  · unfold fld; omega
  · unfold fld; omega
  · unfold fld; omega
  · unfold fld; omega
  · unfold fld; omega
  · unfold fld; omega
  · unfold fld; omega
  · unfold fld; omega
  · unfold fld; omega
  · unfold fld; omega
  · unfold fld; omega
  · unfold fld; omega
  · unfold fld; omega
  · unfold fld; omega
  · unfold fld; omega
  · unfold fld; omega
  · unfold fld; omega
  · unfold fld; omega
  · unfold fld; omega
  · unfold fld; omega
  · unfold fld; omega
  · unfold fld; omega
  · unfold fld; omega
  · unfold fld; omega
  · unfold fld; omega
  · unfold fld; omega
  · unfold fld; omega
  · unfold fld; omega
  · unfold fld; omega
  · unfold fld; omega
  · unfold fld; omega
  · unfold fld; omega
  · unfold fld; omega
  · unfold fld; omega
  · unfold fld; omega
  · unfold fld; omega
  · unfold fld; omega
  · unfold fld; omega
  · unfold fld; omega
  · unfold fld; omega
  · unfold fld; omega
  · unfold fld; omega
  · unfold fld; omega
  · unfold fld; omega
  · unfold fld; omega
  · unfold fld; omega
  · unfold fld; omega
  · unfold fld; omega
  · unfold fld; omega
  · unfold fld; omega

/-! The instructions. -/

theorem iadd (sw : Bool) (t : T4) (d : VReg) (a : VSrc) (b : BSrc) : Statement (.iadd sw t d a b) := by
  refine stmt_word rfl rfl fun hwf => ?_
  cases b with
  | v r l =>
    have h0 := b2n_lt sw
    have h1 := T4_lt t
    have h2 := d.isLt
    have h3 := a.reg.isLt
    have h4 := b2n_lt a.last
    have h5 := r.isLt
    have h6 := b2n_lt l
    obtain ⟨W, hW, F⟩ : ∃ W, W = encLR sw 0x00 d.val a (encB (.v r l)) t.code ∧ IsLR W sw 0x00 d.val a r.val (b2n l) 0 t.code := ⟨_, rfl, IsLR.make sw 0x00 d.val a r.val (b2n l) 0 t.code (encB (.v r l)) (by first | rfl | (simp only [encB]; omega)) (by decide) (by omega) (by omega) (by omega) (by decide) (by first | omega | (simp only [b2n_false, b2n_true, F2.bit64] at *; omega)) a.reg.isLt (b2n_lt a.last) (b2n_lt sw)⟩
    rw [← hW]
    have e2 : fld W 24 6 = 0 := F.f24_6.trans (by first | rfl | omega | (simp only [b2n_false, b2n_true, F2.bit64] at *; omega))
    refine ⟨?_, F.lt⟩
    simp only [decodeWord, parseWord, parseL, parseU, lrA, lrB, lrBClean, lrNoB, lrNoA, lmA, lmD, fbit, fv, fs, fp, fq, fbv, fz, b2n_beq, fin_ofNat, bv_ofNat, Option.map_some, if_true, if_false, Bool.false_eq_true, Bool.not_false, Bool.not_true, Bool.true_or, Bool.or_true, Bool.false_or, Bool.and_self, Bool.true_and, Bool.and_true, Nat.reduceBEq, beq_self_eq_true, reduceIte, T4_of, F.f31_1, F.f30_1, e2, F.f18_6, F.f12_6, F.f5_1, F.f0_3, F.f6_6, F.f3_1, F.f4_1]
    exact of_ok hwf
  | s r =>
    have h0 := b2n_lt sw
    have h1 := T4_lt t
    have h2 := d.isLt
    have h3 := a.reg.isLt
    have h4 := b2n_lt a.last
    have h5 := r.isLt
    obtain ⟨W, hW, F⟩ : ∃ W, W = encLR sw 0x00 d.val a (encB (.s r)) t.code ∧ IsLR W sw 0x00 d.val a r.val 0 1 t.code := ⟨_, rfl, IsLR.make sw 0x00 d.val a r.val 0 1 t.code (encB (.s r)) (by first | rfl | (simp only [encB]; omega)) (by decide) (by omega) (by omega) (by omega) (by decide) (by first | omega | (simp only [b2n_false, b2n_true, F2.bit64] at *; omega)) a.reg.isLt (b2n_lt a.last) (b2n_lt sw)⟩
    rw [← hW]
    have e2 : fld W 24 6 = 0 := F.f24_6.trans (by first | rfl | omega | (simp only [b2n_false, b2n_true, F2.bit64] at *; omega))
    have e7 : fld W 6 5 = r.val := F.f6_5.trans (by first | rfl | omega | (simp only [b2n_false, b2n_true, F2.bit64] at *; omega))
    have e10 : fld W 11 1 = 0 := F.f11_1.trans (by first | rfl | omega | (simp only [b2n_false, b2n_true, F2.bit64] at *; omega))
    refine ⟨?_, F.lt⟩
    simp only [decodeWord, parseWord, parseL, parseU, lrA, lrB, lrBClean, lrNoB, lrNoA, lmA, lmD, fbit, fv, fs, fp, fq, fbv, fz, b2n_beq, fin_ofNat, bv_ofNat, Option.map_some, if_true, if_false, Bool.false_eq_true, Bool.not_false, Bool.not_true, Bool.true_or, Bool.or_true, Bool.false_or, Bool.and_self, Bool.true_and, Bool.and_true, Nat.reduceBEq, beq_self_eq_true, reduceIte, T4_of, F.f31_1, F.f30_1, e2, F.f18_6, F.f12_6, F.f5_1, F.f0_3, e7, F.f3_1, F.f4_1, e10]
    exact of_ok hwf
theorem isub (sw : Bool) (t : T4) (d : VReg) (a : VSrc) (b : BSrc) : Statement (.isub sw t d a b) := by
  refine stmt_word rfl rfl fun hwf => ?_
  cases b with
  | v r l =>
    have h0 := b2n_lt sw
    have h1 := T4_lt t
    have h2 := d.isLt
    have h3 := a.reg.isLt
    have h4 := b2n_lt a.last
    have h5 := r.isLt
    have h6 := b2n_lt l
    obtain ⟨W, hW, F⟩ : ∃ W, W = encLR sw 0x01 d.val a (encB (.v r l)) t.code ∧ IsLR W sw 0x01 d.val a r.val (b2n l) 0 t.code := ⟨_, rfl, IsLR.make sw 0x01 d.val a r.val (b2n l) 0 t.code (encB (.v r l)) (by first | rfl | (simp only [encB]; omega)) (by decide) (by omega) (by omega) (by omega) (by decide) (by first | omega | (simp only [b2n_false, b2n_true, F2.bit64] at *; omega)) a.reg.isLt (b2n_lt a.last) (b2n_lt sw)⟩
    rw [← hW]
    have e2 : fld W 24 6 = 1 := F.f24_6.trans (by first | rfl | omega | (simp only [b2n_false, b2n_true, F2.bit64] at *; omega))
    refine ⟨?_, F.lt⟩
    simp only [decodeWord, parseWord, parseL, parseU, lrA, lrB, lrBClean, lrNoB, lrNoA, lmA, lmD, fbit, fv, fs, fp, fq, fbv, fz, b2n_beq, fin_ofNat, bv_ofNat, Option.map_some, if_true, if_false, Bool.false_eq_true, Bool.not_false, Bool.not_true, Bool.true_or, Bool.or_true, Bool.false_or, Bool.and_self, Bool.true_and, Bool.and_true, Nat.reduceBEq, beq_self_eq_true, reduceIte, T4_of, F.f31_1, F.f30_1, e2, F.f18_6, F.f12_6, F.f5_1, F.f0_3, F.f6_6, F.f3_1, F.f4_1]
    exact of_ok hwf
  | s r =>
    have h0 := b2n_lt sw
    have h1 := T4_lt t
    have h2 := d.isLt
    have h3 := a.reg.isLt
    have h4 := b2n_lt a.last
    have h5 := r.isLt
    obtain ⟨W, hW, F⟩ : ∃ W, W = encLR sw 0x01 d.val a (encB (.s r)) t.code ∧ IsLR W sw 0x01 d.val a r.val 0 1 t.code := ⟨_, rfl, IsLR.make sw 0x01 d.val a r.val 0 1 t.code (encB (.s r)) (by first | rfl | (simp only [encB]; omega)) (by decide) (by omega) (by omega) (by omega) (by decide) (by first | omega | (simp only [b2n_false, b2n_true, F2.bit64] at *; omega)) a.reg.isLt (b2n_lt a.last) (b2n_lt sw)⟩
    rw [← hW]
    have e2 : fld W 24 6 = 1 := F.f24_6.trans (by first | rfl | omega | (simp only [b2n_false, b2n_true, F2.bit64] at *; omega))
    have e7 : fld W 6 5 = r.val := F.f6_5.trans (by first | rfl | omega | (simp only [b2n_false, b2n_true, F2.bit64] at *; omega))
    have e10 : fld W 11 1 = 0 := F.f11_1.trans (by first | rfl | omega | (simp only [b2n_false, b2n_true, F2.bit64] at *; omega))
    refine ⟨?_, F.lt⟩
    simp only [decodeWord, parseWord, parseL, parseU, lrA, lrB, lrBClean, lrNoB, lrNoA, lmA, lmD, fbit, fv, fs, fp, fq, fbv, fz, b2n_beq, fin_ofNat, bv_ofNat, Option.map_some, if_true, if_false, Bool.false_eq_true, Bool.not_false, Bool.not_true, Bool.true_or, Bool.or_true, Bool.false_or, Bool.and_self, Bool.true_and, Bool.and_true, Nat.reduceBEq, beq_self_eq_true, reduceIte, T4_of, F.f31_1, F.f30_1, e2, F.f18_6, F.f12_6, F.f5_1, F.f0_3, e7, F.f3_1, F.f4_1, e10]
    exact of_ok hwf
theorem imul (sw : Bool) (t : T4) (d : VReg) (a : VSrc) (b : BSrc) : Statement (.imul sw t d a b) := by
  refine stmt_word rfl rfl fun hwf => ?_
  cases b with
  | v r l =>
    have h0 := b2n_lt sw
    have h1 := T4_lt t
    have h2 := d.isLt
    have h3 := a.reg.isLt
    have h4 := b2n_lt a.last
    have h5 := r.isLt
    have h6 := b2n_lt l
    obtain ⟨W, hW, F⟩ : ∃ W, W = encLR sw 0x02 d.val a (encB (.v r l)) t.code ∧ IsLR W sw 0x02 d.val a r.val (b2n l) 0 t.code := ⟨_, rfl, IsLR.make sw 0x02 d.val a r.val (b2n l) 0 t.code (encB (.v r l)) (by first | rfl | (simp only [encB]; omega)) (by decide) (by omega) (by omega) (by omega) (by decide) (by first | omega | (simp only [b2n_false, b2n_true, F2.bit64] at *; omega)) a.reg.isLt (b2n_lt a.last) (b2n_lt sw)⟩
    rw [← hW]
    have e2 : fld W 24 6 = 2 := F.f24_6.trans (by first | rfl | omega | (simp only [b2n_false, b2n_true, F2.bit64] at *; omega))
    refine ⟨?_, F.lt⟩
    simp only [decodeWord, parseWord, parseL, parseU, lrA, lrB, lrBClean, lrNoB, lrNoA, lmA, lmD, fbit, fv, fs, fp, fq, fbv, fz, b2n_beq, fin_ofNat, bv_ofNat, Option.map_some, if_true, if_false, Bool.false_eq_true, Bool.not_false, Bool.not_true, Bool.true_or, Bool.or_true, Bool.false_or, Bool.and_self, Bool.true_and, Bool.and_true, Nat.reduceBEq, beq_self_eq_true, reduceIte, T4_of, F.f31_1, F.f30_1, e2, F.f18_6, F.f12_6, F.f5_1, F.f0_3, F.f6_6, F.f3_1, F.f4_1]
    exact of_ok hwf
  | s r =>
    have h0 := b2n_lt sw
    have h1 := T4_lt t
    have h2 := d.isLt
    have h3 := a.reg.isLt
    have h4 := b2n_lt a.last
    have h5 := r.isLt
    obtain ⟨W, hW, F⟩ : ∃ W, W = encLR sw 0x02 d.val a (encB (.s r)) t.code ∧ IsLR W sw 0x02 d.val a r.val 0 1 t.code := ⟨_, rfl, IsLR.make sw 0x02 d.val a r.val 0 1 t.code (encB (.s r)) (by first | rfl | (simp only [encB]; omega)) (by decide) (by omega) (by omega) (by omega) (by decide) (by first | omega | (simp only [b2n_false, b2n_true, F2.bit64] at *; omega)) a.reg.isLt (b2n_lt a.last) (b2n_lt sw)⟩
    rw [← hW]
    have e2 : fld W 24 6 = 2 := F.f24_6.trans (by first | rfl | omega | (simp only [b2n_false, b2n_true, F2.bit64] at *; omega))
    have e7 : fld W 6 5 = r.val := F.f6_5.trans (by first | rfl | omega | (simp only [b2n_false, b2n_true, F2.bit64] at *; omega))
    have e10 : fld W 11 1 = 0 := F.f11_1.trans (by first | rfl | omega | (simp only [b2n_false, b2n_true, F2.bit64] at *; omega))
    refine ⟨?_, F.lt⟩
    simp only [decodeWord, parseWord, parseL, parseU, lrA, lrB, lrBClean, lrNoB, lrNoA, lmA, lmD, fbit, fv, fs, fp, fq, fbv, fz, b2n_beq, fin_ofNat, bv_ofNat, Option.map_some, if_true, if_false, Bool.false_eq_true, Bool.not_false, Bool.not_true, Bool.true_or, Bool.or_true, Bool.false_or, Bool.and_self, Bool.true_and, Bool.and_true, Nat.reduceBEq, beq_self_eq_true, reduceIte, T4_of, F.f31_1, F.f30_1, e2, F.f18_6, F.f12_6, F.f5_1, F.f0_3, e7, F.f3_1, F.f4_1, e10]
    exact of_ok hwf
theorem imulh (sw : Bool) (t : T4) (d : VReg) (a : VSrc) (b : BSrc) : Statement (.imulh sw t d a b) := by
  refine stmt_word rfl rfl fun hwf => ?_
  cases b with
  | v r l =>
    have h0 := b2n_lt sw
    have h1 := T4_lt t
    have h2 := d.isLt
    have h3 := a.reg.isLt
    have h4 := b2n_lt a.last
    have h5 := r.isLt
    have h6 := b2n_lt l
    obtain ⟨W, hW, F⟩ : ∃ W, W = encLR sw 0x03 d.val a (encB (.v r l)) t.code ∧ IsLR W sw 0x03 d.val a r.val (b2n l) 0 t.code := ⟨_, rfl, IsLR.make sw 0x03 d.val a r.val (b2n l) 0 t.code (encB (.v r l)) (by first | rfl | (simp only [encB]; omega)) (by decide) (by omega) (by omega) (by omega) (by decide) (by first | omega | (simp only [b2n_false, b2n_true, F2.bit64] at *; omega)) a.reg.isLt (b2n_lt a.last) (b2n_lt sw)⟩
    rw [← hW]
    have e2 : fld W 24 6 = 3 := F.f24_6.trans (by first | rfl | omega | (simp only [b2n_false, b2n_true, F2.bit64] at *; omega))
    refine ⟨?_, F.lt⟩
    simp only [decodeWord, parseWord, parseL, parseU, lrA, lrB, lrBClean, lrNoB, lrNoA, lmA, lmD, fbit, fv, fs, fp, fq, fbv, fz, b2n_beq, fin_ofNat, bv_ofNat, Option.map_some, if_true, if_false, Bool.false_eq_true, Bool.not_false, Bool.not_true, Bool.true_or, Bool.or_true, Bool.false_or, Bool.and_self, Bool.true_and, Bool.and_true, Nat.reduceBEq, beq_self_eq_true, reduceIte, T4_of, F.f31_1, F.f30_1, e2, F.f18_6, F.f12_6, F.f5_1, F.f0_3, F.f6_6, F.f3_1, F.f4_1]
    exact of_ok hwf
  | s r =>
    have h0 := b2n_lt sw
    have h1 := T4_lt t
    have h2 := d.isLt
    have h3 := a.reg.isLt
    have h4 := b2n_lt a.last
    have h5 := r.isLt
    obtain ⟨W, hW, F⟩ : ∃ W, W = encLR sw 0x03 d.val a (encB (.s r)) t.code ∧ IsLR W sw 0x03 d.val a r.val 0 1 t.code := ⟨_, rfl, IsLR.make sw 0x03 d.val a r.val 0 1 t.code (encB (.s r)) (by first | rfl | (simp only [encB]; omega)) (by decide) (by omega) (by omega) (by omega) (by decide) (by first | omega | (simp only [b2n_false, b2n_true, F2.bit64] at *; omega)) a.reg.isLt (b2n_lt a.last) (b2n_lt sw)⟩
    rw [← hW]
    have e2 : fld W 24 6 = 3 := F.f24_6.trans (by first | rfl | omega | (simp only [b2n_false, b2n_true, F2.bit64] at *; omega))
    have e7 : fld W 6 5 = r.val := F.f6_5.trans (by first | rfl | omega | (simp only [b2n_false, b2n_true, F2.bit64] at *; omega))
    have e10 : fld W 11 1 = 0 := F.f11_1.trans (by first | rfl | omega | (simp only [b2n_false, b2n_true, F2.bit64] at *; omega))
    refine ⟨?_, F.lt⟩
    simp only [decodeWord, parseWord, parseL, parseU, lrA, lrB, lrBClean, lrNoB, lrNoA, lmA, lmD, fbit, fv, fs, fp, fq, fbv, fz, b2n_beq, fin_ofNat, bv_ofNat, Option.map_some, if_true, if_false, Bool.false_eq_true, Bool.not_false, Bool.not_true, Bool.true_or, Bool.or_true, Bool.false_or, Bool.and_self, Bool.true_and, Bool.and_true, Nat.reduceBEq, beq_self_eq_true, reduceIte, T4_of, F.f31_1, F.f30_1, e2, F.f18_6, F.f12_6, F.f5_1, F.f0_3, e7, F.f3_1, F.f4_1, e10]
    exact of_ok hwf
theorem imad (sw : Bool) (t : T4) (d : VReg) (a : VSrc) (b : BSrc) : Statement (.imad sw t d a b) := by
  refine stmt_word rfl rfl fun hwf => ?_
  cases b with
  | v r l =>
    have h0 := b2n_lt sw
    have h1 := T4_lt t
    have h2 := d.isLt
    have h3 := a.reg.isLt
    have h4 := b2n_lt a.last
    have h5 := r.isLt
    have h6 := b2n_lt l
    obtain ⟨W, hW, F⟩ : ∃ W, W = encLR sw 0x04 d.val a (encB (.v r l)) t.code ∧ IsLR W sw 0x04 d.val a r.val (b2n l) 0 t.code := ⟨_, rfl, IsLR.make sw 0x04 d.val a r.val (b2n l) 0 t.code (encB (.v r l)) (by first | rfl | (simp only [encB]; omega)) (by decide) (by omega) (by omega) (by omega) (by decide) (by first | omega | (simp only [b2n_false, b2n_true, F2.bit64] at *; omega)) a.reg.isLt (b2n_lt a.last) (b2n_lt sw)⟩
    rw [← hW]
    have e2 : fld W 24 6 = 4 := F.f24_6.trans (by first | rfl | omega | (simp only [b2n_false, b2n_true, F2.bit64] at *; omega))
    refine ⟨?_, F.lt⟩
    simp only [decodeWord, parseWord, parseL, parseU, lrA, lrB, lrBClean, lrNoB, lrNoA, lmA, lmD, fbit, fv, fs, fp, fq, fbv, fz, b2n_beq, fin_ofNat, bv_ofNat, Option.map_some, if_true, if_false, Bool.false_eq_true, Bool.not_false, Bool.not_true, Bool.true_or, Bool.or_true, Bool.false_or, Bool.and_self, Bool.true_and, Bool.and_true, Nat.reduceBEq, beq_self_eq_true, reduceIte, T4_of, F.f31_1, F.f30_1, e2, F.f18_6, F.f12_6, F.f5_1, F.f0_3, F.f6_6, F.f3_1, F.f4_1]
    exact of_ok hwf
  | s r =>
    have h0 := b2n_lt sw
    have h1 := T4_lt t
    have h2 := d.isLt
    have h3 := a.reg.isLt
    have h4 := b2n_lt a.last
    have h5 := r.isLt
    obtain ⟨W, hW, F⟩ : ∃ W, W = encLR sw 0x04 d.val a (encB (.s r)) t.code ∧ IsLR W sw 0x04 d.val a r.val 0 1 t.code := ⟨_, rfl, IsLR.make sw 0x04 d.val a r.val 0 1 t.code (encB (.s r)) (by first | rfl | (simp only [encB]; omega)) (by decide) (by omega) (by omega) (by omega) (by decide) (by first | omega | (simp only [b2n_false, b2n_true, F2.bit64] at *; omega)) a.reg.isLt (b2n_lt a.last) (b2n_lt sw)⟩
    rw [← hW]
    have e2 : fld W 24 6 = 4 := F.f24_6.trans (by first | rfl | omega | (simp only [b2n_false, b2n_true, F2.bit64] at *; omega))
    have e7 : fld W 6 5 = r.val := F.f6_5.trans (by first | rfl | omega | (simp only [b2n_false, b2n_true, F2.bit64] at *; omega))
    have e10 : fld W 11 1 = 0 := F.f11_1.trans (by first | rfl | omega | (simp only [b2n_false, b2n_true, F2.bit64] at *; omega))
    refine ⟨?_, F.lt⟩
    simp only [decodeWord, parseWord, parseL, parseU, lrA, lrB, lrBClean, lrNoB, lrNoA, lmA, lmD, fbit, fv, fs, fp, fq, fbv, fz, b2n_beq, fin_ofNat, bv_ofNat, Option.map_some, if_true, if_false, Bool.false_eq_true, Bool.not_false, Bool.not_true, Bool.true_or, Bool.or_true, Bool.false_or, Bool.and_self, Bool.true_and, Bool.and_true, Nat.reduceBEq, beq_self_eq_true, reduceIte, T4_of, F.f31_1, F.f30_1, e2, F.f18_6, F.f12_6, F.f5_1, F.f0_3, e7, F.f3_1, F.f4_1, e10]
    exact of_ok hwf
theorem imin (sw : Bool) (t : T4) (d : VReg) (a : VSrc) (b : BSrc) : Statement (.imin sw t d a b) := by
  refine stmt_word rfl rfl fun hwf => ?_
  cases b with
  | v r l =>
    have h0 := b2n_lt sw
    have h1 := T4_lt t
    have h2 := d.isLt
    have h3 := a.reg.isLt
    have h4 := b2n_lt a.last
    have h5 := r.isLt
    have h6 := b2n_lt l
    obtain ⟨W, hW, F⟩ : ∃ W, W = encLR sw 0x05 d.val a (encB (.v r l)) t.code ∧ IsLR W sw 0x05 d.val a r.val (b2n l) 0 t.code := ⟨_, rfl, IsLR.make sw 0x05 d.val a r.val (b2n l) 0 t.code (encB (.v r l)) (by first | rfl | (simp only [encB]; omega)) (by decide) (by omega) (by omega) (by omega) (by decide) (by first | omega | (simp only [b2n_false, b2n_true, F2.bit64] at *; omega)) a.reg.isLt (b2n_lt a.last) (b2n_lt sw)⟩
    rw [← hW]
    have e2 : fld W 24 6 = 5 := F.f24_6.trans (by first | rfl | omega | (simp only [b2n_false, b2n_true, F2.bit64] at *; omega))
    refine ⟨?_, F.lt⟩
    simp only [decodeWord, parseWord, parseL, parseU, lrA, lrB, lrBClean, lrNoB, lrNoA, lmA, lmD, fbit, fv, fs, fp, fq, fbv, fz, b2n_beq, fin_ofNat, bv_ofNat, Option.map_some, if_true, if_false, Bool.false_eq_true, Bool.not_false, Bool.not_true, Bool.true_or, Bool.or_true, Bool.false_or, Bool.and_self, Bool.true_and, Bool.and_true, Nat.reduceBEq, beq_self_eq_true, reduceIte, T4_of, F.f31_1, F.f30_1, e2, F.f18_6, F.f12_6, F.f5_1, F.f0_3, F.f6_6, F.f3_1, F.f4_1]
    exact of_ok hwf
  | s r =>
    have h0 := b2n_lt sw
    have h1 := T4_lt t
    have h2 := d.isLt
    have h3 := a.reg.isLt
    have h4 := b2n_lt a.last
    have h5 := r.isLt
    obtain ⟨W, hW, F⟩ : ∃ W, W = encLR sw 0x05 d.val a (encB (.s r)) t.code ∧ IsLR W sw 0x05 d.val a r.val 0 1 t.code := ⟨_, rfl, IsLR.make sw 0x05 d.val a r.val 0 1 t.code (encB (.s r)) (by first | rfl | (simp only [encB]; omega)) (by decide) (by omega) (by omega) (by omega) (by decide) (by first | omega | (simp only [b2n_false, b2n_true, F2.bit64] at *; omega)) a.reg.isLt (b2n_lt a.last) (b2n_lt sw)⟩
    rw [← hW]
    have e2 : fld W 24 6 = 5 := F.f24_6.trans (by first | rfl | omega | (simp only [b2n_false, b2n_true, F2.bit64] at *; omega))
    have e7 : fld W 6 5 = r.val := F.f6_5.trans (by first | rfl | omega | (simp only [b2n_false, b2n_true, F2.bit64] at *; omega))
    have e10 : fld W 11 1 = 0 := F.f11_1.trans (by first | rfl | omega | (simp only [b2n_false, b2n_true, F2.bit64] at *; omega))
    refine ⟨?_, F.lt⟩
    simp only [decodeWord, parseWord, parseL, parseU, lrA, lrB, lrBClean, lrNoB, lrNoA, lmA, lmD, fbit, fv, fs, fp, fq, fbv, fz, b2n_beq, fin_ofNat, bv_ofNat, Option.map_some, if_true, if_false, Bool.false_eq_true, Bool.not_false, Bool.not_true, Bool.true_or, Bool.or_true, Bool.false_or, Bool.and_self, Bool.true_and, Bool.and_true, Nat.reduceBEq, beq_self_eq_true, reduceIte, T4_of, F.f31_1, F.f30_1, e2, F.f18_6, F.f12_6, F.f5_1, F.f0_3, e7, F.f3_1, F.f4_1, e10]
    exact of_ok hwf
theorem imax (sw : Bool) (t : T4) (d : VReg) (a : VSrc) (b : BSrc) : Statement (.imax sw t d a b) := by
  refine stmt_word rfl rfl fun hwf => ?_
  cases b with
  | v r l =>
    have h0 := b2n_lt sw
    have h1 := T4_lt t
    have h2 := d.isLt
    have h3 := a.reg.isLt
    have h4 := b2n_lt a.last
    have h5 := r.isLt
    have h6 := b2n_lt l
    obtain ⟨W, hW, F⟩ : ∃ W, W = encLR sw 0x06 d.val a (encB (.v r l)) t.code ∧ IsLR W sw 0x06 d.val a r.val (b2n l) 0 t.code := ⟨_, rfl, IsLR.make sw 0x06 d.val a r.val (b2n l) 0 t.code (encB (.v r l)) (by first | rfl | (simp only [encB]; omega)) (by decide) (by omega) (by omega) (by omega) (by decide) (by first | omega | (simp only [b2n_false, b2n_true, F2.bit64] at *; omega)) a.reg.isLt (b2n_lt a.last) (b2n_lt sw)⟩
    rw [← hW]
    have e2 : fld W 24 6 = 6 := F.f24_6.trans (by first | rfl | omega | (simp only [b2n_false, b2n_true, F2.bit64] at *; omega))
    refine ⟨?_, F.lt⟩
    simp only [decodeWord, parseWord, parseL, parseU, lrA, lrB, lrBClean, lrNoB, lrNoA, lmA, lmD, fbit, fv, fs, fp, fq, fbv, fz, b2n_beq, fin_ofNat, bv_ofNat, Option.map_some, if_true, if_false, Bool.false_eq_true, Bool.not_false, Bool.not_true, Bool.true_or, Bool.or_true, Bool.false_or, Bool.and_self, Bool.true_and, Bool.and_true, Nat.reduceBEq, beq_self_eq_true, reduceIte, T4_of, F.f31_1, F.f30_1, e2, F.f18_6, F.f12_6, F.f5_1, F.f0_3, F.f6_6, F.f3_1, F.f4_1]
    exact of_ok hwf
  | s r =>
    have h0 := b2n_lt sw
    have h1 := T4_lt t
    have h2 := d.isLt
    have h3 := a.reg.isLt
    have h4 := b2n_lt a.last
    have h5 := r.isLt
    obtain ⟨W, hW, F⟩ : ∃ W, W = encLR sw 0x06 d.val a (encB (.s r)) t.code ∧ IsLR W sw 0x06 d.val a r.val 0 1 t.code := ⟨_, rfl, IsLR.make sw 0x06 d.val a r.val 0 1 t.code (encB (.s r)) (by first | rfl | (simp only [encB]; omega)) (by decide) (by omega) (by omega) (by omega) (by decide) (by first | omega | (simp only [b2n_false, b2n_true, F2.bit64] at *; omega)) a.reg.isLt (b2n_lt a.last) (b2n_lt sw)⟩
    rw [← hW]
    have e2 : fld W 24 6 = 6 := F.f24_6.trans (by first | rfl | omega | (simp only [b2n_false, b2n_true, F2.bit64] at *; omega))
    have e7 : fld W 6 5 = r.val := F.f6_5.trans (by first | rfl | omega | (simp only [b2n_false, b2n_true, F2.bit64] at *; omega))
    have e10 : fld W 11 1 = 0 := F.f11_1.trans (by first | rfl | omega | (simp only [b2n_false, b2n_true, F2.bit64] at *; omega))
    refine ⟨?_, F.lt⟩
    simp only [decodeWord, parseWord, parseL, parseU, lrA, lrB, lrBClean, lrNoB, lrNoA, lmA, lmD, fbit, fv, fs, fp, fq, fbv, fz, b2n_beq, fin_ofNat, bv_ofNat, Option.map_some, if_true, if_false, Bool.false_eq_true, Bool.not_false, Bool.not_true, Bool.true_or, Bool.or_true, Bool.false_or, Bool.and_self, Bool.true_and, Bool.and_true, Nat.reduceBEq, beq_self_eq_true, reduceIte, T4_of, F.f31_1, F.f30_1, e2, F.f18_6, F.f12_6, F.f5_1, F.f0_3, e7, F.f3_1, F.f4_1, e10]
    exact of_ok hwf
theorem iabs (sw : Bool) (w64 : Bool) (d : VReg) (a : VSrc) : Statement (.iabs sw w64 d a) := by
  refine stmt_word rfl rfl fun hwf => ?_
  cases w64 with
  | false =>
    have h0 := b2n_lt sw
    have h1 := d.isLt
    have h2 := a.reg.isLt
    have h3 := b2n_lt a.last
    obtain ⟨W, hW, F⟩ : ∃ W, W = encLR sw 0x07 d.val a 0 (2 * b2n false) ∧ IsLR W sw 0x07 d.val a 0 0 0 (2 * b2n false) := ⟨_, rfl, IsLR.make sw 0x07 d.val a 0 0 0 (2 * b2n false) 0 (by first | rfl | (simp only [encB]; omega)) (by decide) (by omega) (by omega) (by omega) (by decide) (by first | omega | (simp only [b2n_false, b2n_true, F2.bit64] at *; omega)) a.reg.isLt (b2n_lt a.last) (b2n_lt sw)⟩
    rw [← hW]
    have e2 : fld W 24 6 = 7 := F.f24_6.trans (by first | rfl | omega | (simp only [b2n_false, b2n_true, F2.bit64] at *; omega))
    have e6 : fld W 0 3 = 0 := F.f0_3.trans (by first | rfl | omega | (simp only [b2n_false, b2n_true, F2.bit64] at *; omega))
    have e8 : fld W 3 2 = 0 := F.f3_2.trans (by first | rfl | omega | (simp only [b2n_false, b2n_true, F2.bit64] at *; omega))
    refine ⟨?_, F.lt⟩
    simp only [decodeWord, parseWord, parseL, parseU, lrA, lrB, lrBClean, lrNoB, lrNoA, lmA, lmD, fbit, fv, fs, fp, fq, fbv, fz, b2n_beq, fin_ofNat, bv_ofNat, Option.map_some, if_true, if_false, Bool.false_eq_true, Bool.not_false, Bool.not_true, Bool.true_or, Bool.or_true, Bool.false_or, Bool.and_self, Bool.true_and, Bool.and_true, Nat.reduceBEq, beq_self_eq_true, reduceIte, F.f31_1, F.f30_1, e2, F.f18_6, F.f12_6, F.f5_1, e6, F.f6_6, e8]
    exact of_ok hwf
  | true =>
    have h0 := b2n_lt sw
    have h1 := d.isLt
    have h2 := a.reg.isLt
    have h3 := b2n_lt a.last
    obtain ⟨W, hW, F⟩ : ∃ W, W = encLR sw 0x07 d.val a 0 (2 * b2n true) ∧ IsLR W sw 0x07 d.val a 0 0 0 (2 * b2n true) := ⟨_, rfl, IsLR.make sw 0x07 d.val a 0 0 0 (2 * b2n true) 0 (by first | rfl | (simp only [encB]; omega)) (by decide) (by omega) (by omega) (by omega) (by decide) (by first | omega | (simp only [b2n_false, b2n_true, F2.bit64] at *; omega)) a.reg.isLt (b2n_lt a.last) (b2n_lt sw)⟩
    rw [← hW]
    have e2 : fld W 24 6 = 7 := F.f24_6.trans (by first | rfl | omega | (simp only [b2n_false, b2n_true, F2.bit64] at *; omega))
    have e6 : fld W 0 3 = 2 := F.f0_3.trans (by first | rfl | omega | (simp only [b2n_false, b2n_true, F2.bit64] at *; omega))
    have e8 : fld W 3 2 = 0 := F.f3_2.trans (by first | rfl | omega | (simp only [b2n_false, b2n_true, F2.bit64] at *; omega))
    refine ⟨?_, F.lt⟩
    simp only [decodeWord, parseWord, parseL, parseU, lrA, lrB, lrBClean, lrNoB, lrNoA, lmA, lmD, fbit, fv, fs, fp, fq, fbv, fz, b2n_beq, fin_ofNat, bv_ofNat, Option.map_some, if_true, if_false, Bool.false_eq_true, Bool.not_false, Bool.not_true, Bool.true_or, Bool.or_true, Bool.false_or, Bool.and_self, Bool.true_and, Bool.and_true, Nat.reduceBEq, beq_self_eq_true, reduceIte, F.f31_1, F.f30_1, e2, F.f18_6, F.f12_6, F.f5_1, e6, F.f6_6, e8]
    exact of_ok hwf
theorem logic (sw : Bool) (f : Log8) (d : VReg) (a : VSrc) (b : BSrc) : Statement (.logic sw f d a b) := by
  refine stmt_word rfl rfl fun hwf => ?_
  cases b with
  | v r l =>
    have h0 := b2n_lt sw
    have h1 := Log8_lt f
    have h2 := d.isLt
    have h3 := a.reg.isLt
    have h4 := b2n_lt a.last
    have h5 := r.isLt
    have h6 := b2n_lt l
    obtain ⟨W, hW, F⟩ : ∃ W, W = encLR sw 0x08 d.val a (encB (.v r l)) f.code ∧ IsLR W sw 0x08 d.val a r.val (b2n l) 0 f.code := ⟨_, rfl, IsLR.make sw 0x08 d.val a r.val (b2n l) 0 f.code (encB (.v r l)) (by first | rfl | (simp only [encB]; omega)) (by decide) (by omega) (by omega) (by omega) (by decide) (by first | omega | (simp only [b2n_false, b2n_true, F2.bit64] at *; omega)) a.reg.isLt (b2n_lt a.last) (b2n_lt sw)⟩
    rw [← hW]
    have e2 : fld W 24 6 = 8 := F.f24_6.trans (by first | rfl | omega | (simp only [b2n_false, b2n_true, F2.bit64] at *; omega))
    refine ⟨?_, F.lt⟩
    simp only [decodeWord, parseWord, parseL, parseU, lrA, lrB, lrBClean, lrNoB, lrNoA, lmA, lmD, fbit, fv, fs, fp, fq, fbv, fz, b2n_beq, fin_ofNat, bv_ofNat, Option.map_some, if_true, if_false, Bool.false_eq_true, Bool.not_false, Bool.not_true, Bool.true_or, Bool.or_true, Bool.false_or, Bool.and_self, Bool.true_and, Bool.and_true, Nat.reduceBEq, beq_self_eq_true, reduceIte, Log8_of, F.f31_1, F.f30_1, e2, F.f18_6, F.f12_6, F.f5_1, F.f0_3, F.f6_6, F.f3_1, F.f4_1]
    exact of_ok hwf
  | s r =>
    have h0 := b2n_lt sw
    have h1 := Log8_lt f
    have h2 := d.isLt
    have h3 := a.reg.isLt
    have h4 := b2n_lt a.last
    have h5 := r.isLt
    obtain ⟨W, hW, F⟩ : ∃ W, W = encLR sw 0x08 d.val a (encB (.s r)) f.code ∧ IsLR W sw 0x08 d.val a r.val 0 1 f.code := ⟨_, rfl, IsLR.make sw 0x08 d.val a r.val 0 1 f.code (encB (.s r)) (by first | rfl | (simp only [encB]; omega)) (by decide) (by omega) (by omega) (by omega) (by decide) (by first | omega | (simp only [b2n_false, b2n_true, F2.bit64] at *; omega)) a.reg.isLt (b2n_lt a.last) (b2n_lt sw)⟩
    rw [← hW]
    have e2 : fld W 24 6 = 8 := F.f24_6.trans (by first | rfl | omega | (simp only [b2n_false, b2n_true, F2.bit64] at *; omega))
    have e7 : fld W 6 5 = r.val := F.f6_5.trans (by first | rfl | omega | (simp only [b2n_false, b2n_true, F2.bit64] at *; omega))
    have e10 : fld W 11 1 = 0 := F.f11_1.trans (by first | rfl | omega | (simp only [b2n_false, b2n_true, F2.bit64] at *; omega))
    refine ⟨?_, F.lt⟩
    simp only [decodeWord, parseWord, parseL, parseU, lrA, lrB, lrBClean, lrNoB, lrNoA, lmA, lmD, fbit, fv, fs, fp, fq, fbv, fz, b2n_beq, fin_ofNat, bv_ofNat, Option.map_some, if_true, if_false, Bool.false_eq_true, Bool.not_false, Bool.not_true, Bool.true_or, Bool.or_true, Bool.false_or, Bool.and_self, Bool.true_and, Bool.and_true, Nat.reduceBEq, beq_self_eq_true, reduceIte, Log8_of, F.f31_1, F.f30_1, e2, F.f18_6, F.f12_6, F.f5_1, F.f0_3, e7, F.f3_1, F.f4_1, e10]
    exact of_ok hwf
theorem shift (sw : Bool) (f : Sh7) (d : VReg) (a : VSrc) (b : BSrc) : Statement (.shift sw f d a b) := by
  refine stmt_word rfl rfl fun hwf => ?_
  cases b with
  | v r l =>
    have h0 := b2n_lt sw
    have h1 := Sh7_lt f
    have h2 := d.isLt
    have h3 := a.reg.isLt
    have h4 := b2n_lt a.last
    have h5 := r.isLt
    have h6 := b2n_lt l
    obtain ⟨W, hW, F⟩ : ∃ W, W = encLR sw 0x09 d.val a (encB (.v r l)) f.code ∧ IsLR W sw 0x09 d.val a r.val (b2n l) 0 f.code := ⟨_, rfl, IsLR.make sw 0x09 d.val a r.val (b2n l) 0 f.code (encB (.v r l)) (by first | rfl | (simp only [encB]; omega)) (by decide) (by omega) (by omega) (by omega) (by decide) (by first | omega | (simp only [b2n_false, b2n_true, F2.bit64] at *; omega)) a.reg.isLt (b2n_lt a.last) (b2n_lt sw)⟩
    rw [← hW]
    have e2 : fld W 24 6 = 9 := F.f24_6.trans (by first | rfl | omega | (simp only [b2n_false, b2n_true, F2.bit64] at *; omega))
    refine ⟨?_, F.lt⟩
    simp only [decodeWord, parseWord, parseL, parseU, lrA, lrB, lrBClean, lrNoB, lrNoA, lmA, lmD, fbit, fv, fs, fp, fq, fbv, fz, b2n_beq, fin_ofNat, bv_ofNat, Option.map_some, if_true, if_false, Bool.false_eq_true, Bool.not_false, Bool.not_true, Bool.true_or, Bool.or_true, Bool.false_or, Bool.and_self, Bool.true_and, Bool.and_true, Nat.reduceBEq, beq_self_eq_true, reduceIte, Sh7_of, F.f31_1, F.f30_1, e2, F.f18_6, F.f12_6, F.f5_1, F.f0_3, F.f6_6, F.f3_1, F.f4_1]
    exact of_ok hwf
  | s r =>
    have h0 := b2n_lt sw
    have h1 := Sh7_lt f
    have h2 := d.isLt
    have h3 := a.reg.isLt
    have h4 := b2n_lt a.last
    have h5 := r.isLt
    obtain ⟨W, hW, F⟩ : ∃ W, W = encLR sw 0x09 d.val a (encB (.s r)) f.code ∧ IsLR W sw 0x09 d.val a r.val 0 1 f.code := ⟨_, rfl, IsLR.make sw 0x09 d.val a r.val 0 1 f.code (encB (.s r)) (by first | rfl | (simp only [encB]; omega)) (by decide) (by omega) (by omega) (by omega) (by decide) (by first | omega | (simp only [b2n_false, b2n_true, F2.bit64] at *; omega)) a.reg.isLt (b2n_lt a.last) (b2n_lt sw)⟩
    rw [← hW]
    have e2 : fld W 24 6 = 9 := F.f24_6.trans (by first | rfl | omega | (simp only [b2n_false, b2n_true, F2.bit64] at *; omega))
    have e7 : fld W 6 5 = r.val := F.f6_5.trans (by first | rfl | omega | (simp only [b2n_false, b2n_true, F2.bit64] at *; omega))
    have e10 : fld W 11 1 = 0 := F.f11_1.trans (by first | rfl | omega | (simp only [b2n_false, b2n_true, F2.bit64] at *; omega))
    refine ⟨?_, F.lt⟩
    simp only [decodeWord, parseWord, parseL, parseU, lrA, lrB, lrBClean, lrNoB, lrNoA, lmA, lmD, fbit, fv, fs, fp, fq, fbv, fz, b2n_beq, fin_ofNat, bv_ofNat, Option.map_some, if_true, if_false, Bool.false_eq_true, Bool.not_false, Bool.not_true, Bool.true_or, Bool.or_true, Bool.false_or, Bool.and_self, Bool.true_and, Bool.and_true, Nat.reduceBEq, beq_self_eq_true, reduceIte, Sh7_of, F.f31_1, F.f30_1, e2, F.f18_6, F.f12_6, F.f5_1, F.f0_3, e7, F.f3_1, F.f4_1, e10]
    exact of_ok hwf
theorem bits (sw : Bool) (f : BitsFn) (d : VReg) (a : VSrc) : Statement (.bits sw f d a) := by
  refine stmt_word rfl rfl fun hwf => ?_
  have h0 := b2n_lt sw
  have h1 := BitsFn_lt f
  have h2 := d.isLt
  have h3 := a.reg.isLt
  have h4 := b2n_lt a.last
  obtain ⟨W, hW, F⟩ : ∃ W, W = encLR sw 0x0A d.val a 0 f.code ∧ IsLR W sw 0x0A d.val a 0 0 0 f.code := ⟨_, rfl, IsLR.make sw 0x0A d.val a 0 0 0 f.code 0 (by first | rfl | (simp only [encB]; omega)) (by decide) (by omega) (by omega) (by omega) (by decide) (by first | omega | (simp only [b2n_false, b2n_true, F2.bit64] at *; omega)) a.reg.isLt (b2n_lt a.last) (b2n_lt sw)⟩
  rw [← hW]
  have e2 : fld W 24 6 = 10 := F.f24_6.trans (by first | rfl | omega | (simp only [b2n_false, b2n_true, F2.bit64] at *; omega))
  have e8 : fld W 3 2 = 0 := F.f3_2.trans (by first | rfl | omega | (simp only [b2n_false, b2n_true, F2.bit64] at *; omega))
  refine ⟨?_, F.lt⟩
  simp only [decodeWord, parseWord, parseL, parseU, lrA, lrB, lrBClean, lrNoB, lrNoA, lmA, lmD, fbit, fv, fs, fp, fq, fbv, fz, b2n_beq, fin_ofNat, bv_ofNat, Option.map_some, if_true, if_false, Bool.false_eq_true, Bool.not_false, Bool.not_true, Bool.true_or, Bool.or_true, Bool.false_or, Bool.and_self, Bool.true_and, Bool.and_true, Nat.reduceBEq, beq_self_eq_true, reduceIte, BitsFn_of, F.f31_1, F.f30_1, e2, F.f18_6, F.f12_6, F.f5_1, F.f0_3, F.f6_6, e8]
  exact of_ok hwf
theorem bfx (sw : Bool) (signed : Bool) (d : VReg) (a : VSrc) (b : BSrc) : Statement (.bfx sw signed d a b) := by
  refine stmt_word rfl rfl fun hwf => ?_
  cases signed with
  | false =>
    cases b with
    | v r l =>
      have h0 := b2n_lt sw
      have h1 := d.isLt
      have h2 := a.reg.isLt
      have h3 := b2n_lt a.last
      have h4 := r.isLt
      have h5 := b2n_lt l
      obtain ⟨W, hW, F⟩ : ∃ W, W = encLR sw 0x0B d.val a (encB (.v r l)) (b2n false) ∧ IsLR W sw 0x0B d.val a r.val (b2n l) 0 (b2n false) := ⟨_, rfl, IsLR.make sw 0x0B d.val a r.val (b2n l) 0 (b2n false) (encB (.v r l)) (by first | rfl | (simp only [encB]; omega)) (by decide) (by omega) (by omega) (by omega) (by decide) (by first | omega | (simp only [b2n_false, b2n_true, F2.bit64] at *; omega)) a.reg.isLt (b2n_lt a.last) (b2n_lt sw)⟩
      rw [← hW]
      have e2 : fld W 24 6 = 11 := F.f24_6.trans (by first | rfl | omega | (simp only [b2n_false, b2n_true, F2.bit64] at *; omega))
      have e6 : fld W 0 3 = 0 := F.f0_3.trans (by first | rfl | omega | (simp only [b2n_false, b2n_true, F2.bit64] at *; omega))
      refine ⟨?_, F.lt⟩
      simp only [decodeWord, parseWord, parseL, parseU, lrA, lrB, lrBClean, lrNoB, lrNoA, lmA, lmD, fbit, fv, fs, fp, fq, fbv, fz, b2n_beq, fin_ofNat, bv_ofNat, Option.map_some, if_true, if_false, Bool.false_eq_true, Bool.not_false, Bool.not_true, Bool.true_or, Bool.or_true, Bool.false_or, Bool.and_self, Bool.true_and, Bool.and_true, Nat.reduceBEq, beq_self_eq_true, reduceIte, Nat.reduceLT, F.f31_1, F.f30_1, e2, F.f18_6, F.f12_6, F.f5_1, e6, F.f6_6, F.f3_1, F.f4_1]
      exact of_ok hwf
    | s r =>
      have h0 := b2n_lt sw
      have h1 := d.isLt
      have h2 := a.reg.isLt
      have h3 := b2n_lt a.last
      have h4 := r.isLt
      obtain ⟨W, hW, F⟩ : ∃ W, W = encLR sw 0x0B d.val a (encB (.s r)) (b2n false) ∧ IsLR W sw 0x0B d.val a r.val 0 1 (b2n false) := ⟨_, rfl, IsLR.make sw 0x0B d.val a r.val 0 1 (b2n false) (encB (.s r)) (by first | rfl | (simp only [encB]; omega)) (by decide) (by omega) (by omega) (by omega) (by decide) (by first | omega | (simp only [b2n_false, b2n_true, F2.bit64] at *; omega)) a.reg.isLt (b2n_lt a.last) (b2n_lt sw)⟩
      rw [← hW]
      have e2 : fld W 24 6 = 11 := F.f24_6.trans (by first | rfl | omega | (simp only [b2n_false, b2n_true, F2.bit64] at *; omega))
      have e6 : fld W 0 3 = 0 := F.f0_3.trans (by first | rfl | omega | (simp only [b2n_false, b2n_true, F2.bit64] at *; omega))
      have e7 : fld W 6 5 = r.val := F.f6_5.trans (by first | rfl | omega | (simp only [b2n_false, b2n_true, F2.bit64] at *; omega))
      have e10 : fld W 11 1 = 0 := F.f11_1.trans (by first | rfl | omega | (simp only [b2n_false, b2n_true, F2.bit64] at *; omega))
      refine ⟨?_, F.lt⟩
      simp only [decodeWord, parseWord, parseL, parseU, lrA, lrB, lrBClean, lrNoB, lrNoA, lmA, lmD, fbit, fv, fs, fp, fq, fbv, fz, b2n_beq, fin_ofNat, bv_ofNat, Option.map_some, if_true, if_false, Bool.false_eq_true, Bool.not_false, Bool.not_true, Bool.true_or, Bool.or_true, Bool.false_or, Bool.and_self, Bool.true_and, Bool.and_true, Nat.reduceBEq, beq_self_eq_true, reduceIte, Nat.reduceLT, F.f31_1, F.f30_1, e2, F.f18_6, F.f12_6, F.f5_1, e6, e7, F.f3_1, F.f4_1, e10]
      exact of_ok hwf
  | true =>
    cases b with
    | v r l =>
      have h0 := b2n_lt sw
      have h1 := d.isLt
      have h2 := a.reg.isLt
      have h3 := b2n_lt a.last
      have h4 := r.isLt
      have h5 := b2n_lt l
      obtain ⟨W, hW, F⟩ : ∃ W, W = encLR sw 0x0B d.val a (encB (.v r l)) (b2n true) ∧ IsLR W sw 0x0B d.val a r.val (b2n l) 0 (b2n true) := ⟨_, rfl, IsLR.make sw 0x0B d.val a r.val (b2n l) 0 (b2n true) (encB (.v r l)) (by first | rfl | (simp only [encB]; omega)) (by decide) (by omega) (by omega) (by omega) (by decide) (by first | omega | (simp only [b2n_false, b2n_true, F2.bit64] at *; omega)) a.reg.isLt (b2n_lt a.last) (b2n_lt sw)⟩
      rw [← hW]
      have e2 : fld W 24 6 = 11 := F.f24_6.trans (by first | rfl | omega | (simp only [b2n_false, b2n_true, F2.bit64] at *; omega))
      have e6 : fld W 0 3 = 1 := F.f0_3.trans (by first | rfl | omega | (simp only [b2n_false, b2n_true, F2.bit64] at *; omega))
      refine ⟨?_, F.lt⟩
      simp only [decodeWord, parseWord, parseL, parseU, lrA, lrB, lrBClean, lrNoB, lrNoA, lmA, lmD, fbit, fv, fs, fp, fq, fbv, fz, b2n_beq, fin_ofNat, bv_ofNat, Option.map_some, if_true, if_false, Bool.false_eq_true, Bool.not_false, Bool.not_true, Bool.true_or, Bool.or_true, Bool.false_or, Bool.and_self, Bool.true_and, Bool.and_true, Nat.reduceBEq, beq_self_eq_true, reduceIte, Nat.reduceLT, F.f31_1, F.f30_1, e2, F.f18_6, F.f12_6, F.f5_1, e6, F.f6_6, F.f3_1, F.f4_1]
      exact of_ok hwf
    | s r =>
      have h0 := b2n_lt sw
      have h1 := d.isLt
      have h2 := a.reg.isLt
      have h3 := b2n_lt a.last
      have h4 := r.isLt
      obtain ⟨W, hW, F⟩ : ∃ W, W = encLR sw 0x0B d.val a (encB (.s r)) (b2n true) ∧ IsLR W sw 0x0B d.val a r.val 0 1 (b2n true) := ⟨_, rfl, IsLR.make sw 0x0B d.val a r.val 0 1 (b2n true) (encB (.s r)) (by first | rfl | (simp only [encB]; omega)) (by decide) (by omega) (by omega) (by omega) (by decide) (by first | omega | (simp only [b2n_false, b2n_true, F2.bit64] at *; omega)) a.reg.isLt (b2n_lt a.last) (b2n_lt sw)⟩
      rw [← hW]
      have e2 : fld W 24 6 = 11 := F.f24_6.trans (by first | rfl | omega | (simp only [b2n_false, b2n_true, F2.bit64] at *; omega))
      have e6 : fld W 0 3 = 1 := F.f0_3.trans (by first | rfl | omega | (simp only [b2n_false, b2n_true, F2.bit64] at *; omega))
      have e7 : fld W 6 5 = r.val := F.f6_5.trans (by first | rfl | omega | (simp only [b2n_false, b2n_true, F2.bit64] at *; omega))
      have e10 : fld W 11 1 = 0 := F.f11_1.trans (by first | rfl | omega | (simp only [b2n_false, b2n_true, F2.bit64] at *; omega))
      refine ⟨?_, F.lt⟩
      simp only [decodeWord, parseWord, parseL, parseU, lrA, lrB, lrBClean, lrNoB, lrNoA, lmA, lmD, fbit, fv, fs, fp, fq, fbv, fz, b2n_beq, fin_ofNat, bv_ofNat, Option.map_some, if_true, if_false, Bool.false_eq_true, Bool.not_false, Bool.not_true, Bool.true_or, Bool.or_true, Bool.false_or, Bool.and_self, Bool.true_and, Bool.and_true, Nat.reduceBEq, beq_self_eq_true, reduceIte, Nat.reduceLT, F.f31_1, F.f30_1, e2, F.f18_6, F.f12_6, F.f5_1, e6, e7, F.f3_1, F.f4_1, e10]
      exact of_ok hwf
theorem bfi (sw : Bool) (d : VReg) (a : VSrc) (b : BSrc) : Statement (.bfi sw d a b) := by
  refine stmt_word rfl rfl fun hwf => ?_
  cases b with
  | v r l =>
    have h0 := b2n_lt sw
    have h1 := d.isLt
    have h2 := a.reg.isLt
    have h3 := b2n_lt a.last
    have h4 := r.isLt
    have h5 := b2n_lt l
    obtain ⟨W, hW, F⟩ : ∃ W, W = encLR sw 0x0C d.val a (encB (.v r l)) 0 ∧ IsLR W sw 0x0C d.val a r.val (b2n l) 0 0 := ⟨_, rfl, IsLR.make sw 0x0C d.val a r.val (b2n l) 0 0 (encB (.v r l)) (by first | rfl | (simp only [encB]; omega)) (by decide) (by omega) (by omega) (by omega) (by decide) (by first | omega | (simp only [b2n_false, b2n_true, F2.bit64] at *; omega)) a.reg.isLt (b2n_lt a.last) (b2n_lt sw)⟩
    rw [← hW]
    have e2 : fld W 24 6 = 12 := F.f24_6.trans (by first | rfl | omega | (simp only [b2n_false, b2n_true, F2.bit64] at *; omega))
    refine ⟨?_, F.lt⟩
    simp only [decodeWord, parseWord, parseL, parseU, lrA, lrB, lrBClean, lrNoB, lrNoA, lmA, lmD, fbit, fv, fs, fp, fq, fbv, fz, b2n_beq, fin_ofNat, bv_ofNat, Option.map_some, if_true, if_false, Bool.false_eq_true, Bool.not_false, Bool.not_true, Bool.true_or, Bool.or_true, Bool.false_or, Bool.and_self, Bool.true_and, Bool.and_true, Nat.reduceBEq, beq_self_eq_true, reduceIte, F.f31_1, F.f30_1, e2, F.f18_6, F.f12_6, F.f5_1, F.f0_3, F.f6_6, F.f3_1, F.f4_1]
    exact of_ok hwf
  | s r =>
    have h0 := b2n_lt sw
    have h1 := d.isLt
    have h2 := a.reg.isLt
    have h3 := b2n_lt a.last
    have h4 := r.isLt
    obtain ⟨W, hW, F⟩ : ∃ W, W = encLR sw 0x0C d.val a (encB (.s r)) 0 ∧ IsLR W sw 0x0C d.val a r.val 0 1 0 := ⟨_, rfl, IsLR.make sw 0x0C d.val a r.val 0 1 0 (encB (.s r)) (by first | rfl | (simp only [encB]; omega)) (by decide) (by omega) (by omega) (by omega) (by decide) (by first | omega | (simp only [b2n_false, b2n_true, F2.bit64] at *; omega)) a.reg.isLt (b2n_lt a.last) (b2n_lt sw)⟩
    rw [← hW]
    have e2 : fld W 24 6 = 12 := F.f24_6.trans (by first | rfl | omega | (simp only [b2n_false, b2n_true, F2.bit64] at *; omega))
    have e7 : fld W 6 5 = r.val := F.f6_5.trans (by first | rfl | omega | (simp only [b2n_false, b2n_true, F2.bit64] at *; omega))
    have e10 : fld W 11 1 = 0 := F.f11_1.trans (by first | rfl | omega | (simp only [b2n_false, b2n_true, F2.bit64] at *; omega))
    refine ⟨?_, F.lt⟩
    simp only [decodeWord, parseWord, parseL, parseU, lrA, lrB, lrBClean, lrNoB, lrNoA, lmA, lmD, fbit, fv, fs, fp, fq, fbv, fz, b2n_beq, fin_ofNat, bv_ofNat, Option.map_some, if_true, if_false, Bool.false_eq_true, Bool.not_false, Bool.not_true, Bool.true_or, Bool.or_true, Bool.false_or, Bool.and_self, Bool.true_and, Bool.and_true, Nat.reduceBEq, beq_self_eq_true, reduceIte, F.f31_1, F.f30_1, e2, F.f18_6, F.f12_6, F.f5_1, F.f0_3, e7, F.f3_1, F.f4_1, e10]
    exact of_ok hwf
theorem iset (sw : Bool) (c : ICmp) (p : PReg) (a : VSrc) (b : BSrc) : Statement (.iset sw c p a b) := by
  refine stmt_word rfl rfl fun hwf => ?_
  cases b with
  | v r l =>
    have h0 := b2n_lt sw
    have h1 := ICmp_lt c
    have h2 := p.isLt
    have h3 := a.reg.isLt
    have h4 := b2n_lt a.last
    have h5 := r.isLt
    have h6 := b2n_lt l
    obtain ⟨W, hW, F⟩ : ∃ W, W = encLR sw 0x0D p.val a (encB (.v r l)) c.code ∧ IsLR W sw 0x0D p.val a r.val (b2n l) 0 c.code := ⟨_, rfl, IsLR.make sw 0x0D p.val a r.val (b2n l) 0 c.code (encB (.v r l)) (by first | rfl | (simp only [encB]; omega)) (by decide) (by omega) (by omega) (by omega) (by decide) (by first | omega | (simp only [b2n_false, b2n_true, F2.bit64] at *; omega)) a.reg.isLt (b2n_lt a.last) (b2n_lt sw)⟩
    rw [← hW]
    have e2 : fld W 24 6 = 13 := F.f24_6.trans (by first | rfl | omega | (simp only [b2n_false, b2n_true, F2.bit64] at *; omega))
    have e10 : fld W 18 3 = p.val := F.f18_3.trans (by first | rfl | omega | (simp only [b2n_false, b2n_true, F2.bit64] at *; omega))
    have e11 : fld W 21 3 = 0 := F.f21_3.trans (by first | rfl | omega | (simp only [b2n_false, b2n_true, F2.bit64] at *; omega))
    refine ⟨?_, F.lt⟩
    simp only [decodeWord, parseWord, parseL, parseU, lrA, lrB, lrBClean, lrNoB, lrNoA, lmA, lmD, fbit, fv, fs, fp, fq, fbv, fz, b2n_beq, fin_ofNat, bv_ofNat, Option.map_some, if_true, if_false, Bool.false_eq_true, Bool.not_false, Bool.not_true, Bool.true_or, Bool.or_true, Bool.false_or, Bool.and_self, Bool.true_and, Bool.and_true, Nat.reduceBEq, beq_self_eq_true, reduceIte, ICmp_of, F.f31_1, F.f30_1, e2, F.f18_6, F.f12_6, F.f5_1, F.f0_3, F.f6_6, F.f3_1, F.f4_1, e10, e11]
    exact of_ok hwf
  | s r =>
    have h0 := b2n_lt sw
    have h1 := ICmp_lt c
    have h2 := p.isLt
    have h3 := a.reg.isLt
    have h4 := b2n_lt a.last
    have h5 := r.isLt
    obtain ⟨W, hW, F⟩ : ∃ W, W = encLR sw 0x0D p.val a (encB (.s r)) c.code ∧ IsLR W sw 0x0D p.val a r.val 0 1 c.code := ⟨_, rfl, IsLR.make sw 0x0D p.val a r.val 0 1 c.code (encB (.s r)) (by first | rfl | (simp only [encB]; omega)) (by decide) (by omega) (by omega) (by omega) (by decide) (by first | omega | (simp only [b2n_false, b2n_true, F2.bit64] at *; omega)) a.reg.isLt (b2n_lt a.last) (b2n_lt sw)⟩
    rw [← hW]
    have e2 : fld W 24 6 = 13 := F.f24_6.trans (by first | rfl | omega | (simp only [b2n_false, b2n_true, F2.bit64] at *; omega))
    have e7 : fld W 6 5 = r.val := F.f6_5.trans (by first | rfl | omega | (simp only [b2n_false, b2n_true, F2.bit64] at *; omega))
    have e10 : fld W 11 1 = 0 := F.f11_1.trans (by first | rfl | omega | (simp only [b2n_false, b2n_true, F2.bit64] at *; omega))
    have e11 : fld W 18 3 = p.val := F.f18_3.trans (by first | rfl | omega | (simp only [b2n_false, b2n_true, F2.bit64] at *; omega))
    have e12 : fld W 21 3 = 0 := F.f21_3.trans (by first | rfl | omega | (simp only [b2n_false, b2n_true, F2.bit64] at *; omega))
    refine ⟨?_, F.lt⟩
    simp only [decodeWord, parseWord, parseL, parseU, lrA, lrB, lrBClean, lrNoB, lrNoA, lmA, lmD, fbit, fv, fs, fp, fq, fbv, fz, b2n_beq, fin_ofNat, bv_ofNat, Option.map_some, if_true, if_false, Bool.false_eq_true, Bool.not_false, Bool.not_true, Bool.true_or, Bool.or_true, Bool.false_or, Bool.and_self, Bool.true_and, Bool.and_true, Nat.reduceBEq, beq_self_eq_true, reduceIte, ICmp_of, F.f31_1, F.f30_1, e2, F.f18_6, F.f12_6, F.f5_1, F.f0_3, e7, F.f3_1, F.f4_1, e10, e11, e12]
    exact of_ok hwf
theorem iaddi (sw : Bool) (d : VReg) (a : VSrc) (k : BitVec 11) : Statement (.iaddi sw d a k) := by
  refine stmt_word rfl rfl fun hwf => ?_
  have h0 := b2n_lt sw
  have h1 := d.isLt
  have h2 := a.reg.isLt
  have h3 := b2n_lt a.last
  have h4 := k.isLt
  obtain ⟨W, hW⟩ : ∃ W, W = encHead false sw 0x0E + 2 ^ 18 * d.val + 2 ^ 12 * a.reg.val + 2 ^ 11 * b2n a.last + k.toNat := ⟨_, rfl⟩
  rw [← hW]
  simp only [encLA, encLC, encHead, b2n_false, b2n_true, Nat.reducePow] at hW
  have e0 : fld W 31 1 = 0 := by unfold fld; omega
  have e1 : fld W 30 1 = b2n sw := by unfold fld; omega
  have e2 : fld W 24 6 = 14 := by unfold fld; omega
  have e3 : fld W 18 6 = d.val := by unfold fld; omega
  have e4 : fld W 12 6 = a.reg.val := by unfold fld; omega
  have e5 : fld W 11 1 = b2n a.last := by unfold fld; omega
  have e6 : fld W 0 11 = k.toNat := by unfold fld; omega
  refine ⟨?_, by omega⟩
  simp only [decodeWord, parseWord, parseL, parseU, lrA, lrB, lrBClean, lrNoB, lrNoA, lmA, lmD, fbit, fv, fs, fp, fq, fbv, fz, b2n_beq, fin_ofNat, bv_ofNat, Option.map_some, if_true, if_false, Bool.false_eq_true, Bool.not_false, Bool.not_true, Bool.true_or, Bool.or_true, Bool.false_or, Bool.and_self, Bool.true_and, Bool.and_true, Nat.reduceBEq, beq_self_eq_true, reduceIte, e0, e1, e2, e3, e4, e5, e6]
  exact of_ok hwf
theorem lea (sw : Bool) (sh : Fin 8) (d : VReg) (a : VSrc) (b : BSrc) : Statement (.lea sw sh d a b) := by
  refine stmt_word rfl rfl fun hwf => ?_
  cases b with
  | v r l =>
    have h0 := b2n_lt sw
    have h1 := sh.isLt
    have h2 := d.isLt
    have h3 := a.reg.isLt
    have h4 := b2n_lt a.last
    have h5 := r.isLt
    have h6 := b2n_lt l
    obtain ⟨W, hW, F⟩ : ∃ W, W = encLR sw 0x0F d.val a (encB (.v r l)) sh.val ∧ IsLR W sw 0x0F d.val a r.val (b2n l) 0 sh.val := ⟨_, rfl, IsLR.make sw 0x0F d.val a r.val (b2n l) 0 sh.val (encB (.v r l)) (by first | rfl | (simp only [encB]; omega)) (by decide) (by omega) (by omega) (by omega) (by decide) (by first | omega | (simp only [b2n_false, b2n_true, F2.bit64] at *; omega)) a.reg.isLt (b2n_lt a.last) (b2n_lt sw)⟩
    rw [← hW]
    have e2 : fld W 24 6 = 15 := F.f24_6.trans (by first | rfl | omega | (simp only [b2n_false, b2n_true, F2.bit64] at *; omega))
    refine ⟨?_, F.lt⟩
    simp only [decodeWord, parseWord, parseL, parseU, lrA, lrB, lrBClean, lrNoB, lrNoA, lmA, lmD, fbit, fv, fs, fp, fq, fbv, fz, b2n_beq, fin_ofNat, bv_ofNat, Option.map_some, if_true, if_false, Bool.false_eq_true, Bool.not_false, Bool.not_true, Bool.true_or, Bool.or_true, Bool.false_or, Bool.and_self, Bool.true_and, Bool.and_true, Nat.reduceBEq, beq_self_eq_true, reduceIte, F.f31_1, F.f30_1, e2, F.f18_6, F.f12_6, F.f5_1, F.f0_3, F.f6_6, F.f3_1, F.f4_1]
    exact of_ok hwf
  | s r =>
    have h0 := b2n_lt sw
    have h1 := sh.isLt
    have h2 := d.isLt
    have h3 := a.reg.isLt
    have h4 := b2n_lt a.last
    have h5 := r.isLt
    obtain ⟨W, hW, F⟩ : ∃ W, W = encLR sw 0x0F d.val a (encB (.s r)) sh.val ∧ IsLR W sw 0x0F d.val a r.val 0 1 sh.val := ⟨_, rfl, IsLR.make sw 0x0F d.val a r.val 0 1 sh.val (encB (.s r)) (by first | rfl | (simp only [encB]; omega)) (by decide) (by omega) (by omega) (by omega) (by decide) (by first | omega | (simp only [b2n_false, b2n_true, F2.bit64] at *; omega)) a.reg.isLt (b2n_lt a.last) (b2n_lt sw)⟩
    rw [← hW]
    have e2 : fld W 24 6 = 15 := F.f24_6.trans (by first | rfl | omega | (simp only [b2n_false, b2n_true, F2.bit64] at *; omega))
    have e7 : fld W 6 5 = r.val := F.f6_5.trans (by first | rfl | omega | (simp only [b2n_false, b2n_true, F2.bit64] at *; omega))
    have e10 : fld W 11 1 = 0 := F.f11_1.trans (by first | rfl | omega | (simp only [b2n_false, b2n_true, F2.bit64] at *; omega))
    refine ⟨?_, F.lt⟩
    simp only [decodeWord, parseWord, parseL, parseU, lrA, lrB, lrBClean, lrNoB, lrNoA, lmA, lmD, fbit, fv, fs, fp, fq, fbv, fz, b2n_beq, fin_ofNat, bv_ofNat, Option.map_some, if_true, if_false, Bool.false_eq_true, Bool.not_false, Bool.not_true, Bool.true_or, Bool.or_true, Bool.false_or, Bool.and_self, Bool.true_and, Bool.and_true, Nat.reduceBEq, beq_self_eq_true, reduceIte, F.f31_1, F.f30_1, e2, F.f18_6, F.f12_6, F.f5_1, F.f0_3, e7, F.f3_1, F.f4_1, e10]
    exact of_ok hwf
theorem fadd (sw : Bool) (t : F6) (d : VReg) (a : VSrc) (b : BSrc) : Statement (.fadd sw t d a b) := by
  refine stmt_word rfl rfl fun hwf => ?_
  cases b with
  | v r l =>
    have h0 := b2n_lt sw
    have h1 := F6_lt t
    have h2 := d.isLt
    have h3 := a.reg.isLt
    have h4 := b2n_lt a.last
    have h5 := r.isLt
    have h6 := b2n_lt l
    obtain ⟨W, hW, F⟩ : ∃ W, W = encLR sw 0x10 d.val a (encB (.v r l)) t.code ∧ IsLR W sw 0x10 d.val a r.val (b2n l) 0 t.code := ⟨_, rfl, IsLR.make sw 0x10 d.val a r.val (b2n l) 0 t.code (encB (.v r l)) (by first | rfl | (simp only [encB]; omega)) (by decide) (by omega) (by omega) (by omega) (by decide) (by first | omega | (simp only [b2n_false, b2n_true, F2.bit64] at *; omega)) a.reg.isLt (b2n_lt a.last) (b2n_lt sw)⟩
    rw [← hW]
    have e2 : fld W 24 6 = 16 := F.f24_6.trans (by first | rfl | omega | (simp only [b2n_false, b2n_true, F2.bit64] at *; omega))
    refine ⟨?_, F.lt⟩
    simp only [decodeWord, parseWord, parseL, parseU, lrA, lrB, lrBClean, lrNoB, lrNoA, lmA, lmD, fbit, fv, fs, fp, fq, fbv, fz, b2n_beq, fin_ofNat, bv_ofNat, Option.map_some, if_true, if_false, Bool.false_eq_true, Bool.not_false, Bool.not_true, Bool.true_or, Bool.or_true, Bool.false_or, Bool.and_self, Bool.true_and, Bool.and_true, Nat.reduceBEq, beq_self_eq_true, reduceIte, F6_of, F.f31_1, F.f30_1, e2, F.f18_6, F.f12_6, F.f5_1, F.f0_3, F.f6_6, F.f3_1, F.f4_1]
    exact of_ok hwf
  | s r =>
    have h0 := b2n_lt sw
    have h1 := F6_lt t
    have h2 := d.isLt
    have h3 := a.reg.isLt
    have h4 := b2n_lt a.last
    have h5 := r.isLt
    obtain ⟨W, hW, F⟩ : ∃ W, W = encLR sw 0x10 d.val a (encB (.s r)) t.code ∧ IsLR W sw 0x10 d.val a r.val 0 1 t.code := ⟨_, rfl, IsLR.make sw 0x10 d.val a r.val 0 1 t.code (encB (.s r)) (by first | rfl | (simp only [encB]; omega)) (by decide) (by omega) (by omega) (by omega) (by decide) (by first | omega | (simp only [b2n_false, b2n_true, F2.bit64] at *; omega)) a.reg.isLt (b2n_lt a.last) (b2n_lt sw)⟩
    rw [← hW]
    have e2 : fld W 24 6 = 16 := F.f24_6.trans (by first | rfl | omega | (simp only [b2n_false, b2n_true, F2.bit64] at *; omega))
    have e7 : fld W 6 5 = r.val := F.f6_5.trans (by first | rfl | omega | (simp only [b2n_false, b2n_true, F2.bit64] at *; omega))
    have e10 : fld W 11 1 = 0 := F.f11_1.trans (by first | rfl | omega | (simp only [b2n_false, b2n_true, F2.bit64] at *; omega))
    refine ⟨?_, F.lt⟩
    simp only [decodeWord, parseWord, parseL, parseU, lrA, lrB, lrBClean, lrNoB, lrNoA, lmA, lmD, fbit, fv, fs, fp, fq, fbv, fz, b2n_beq, fin_ofNat, bv_ofNat, Option.map_some, if_true, if_false, Bool.false_eq_true, Bool.not_false, Bool.not_true, Bool.true_or, Bool.or_true, Bool.false_or, Bool.and_self, Bool.true_and, Bool.and_true, Nat.reduceBEq, beq_self_eq_true, reduceIte, F6_of, F.f31_1, F.f30_1, e2, F.f18_6, F.f12_6, F.f5_1, F.f0_3, e7, F.f3_1, F.f4_1, e10]
    exact of_ok hwf
theorem fsub (sw : Bool) (t : F6) (d : VReg) (a : VSrc) (b : BSrc) : Statement (.fsub sw t d a b) := by
  refine stmt_word rfl rfl fun hwf => ?_
  cases b with
  | v r l =>
    have h0 := b2n_lt sw
    have h1 := F6_lt t
    have h2 := d.isLt
    have h3 := a.reg.isLt
    have h4 := b2n_lt a.last
    have h5 := r.isLt
    have h6 := b2n_lt l
    obtain ⟨W, hW, F⟩ : ∃ W, W = encLR sw 0x11 d.val a (encB (.v r l)) t.code ∧ IsLR W sw 0x11 d.val a r.val (b2n l) 0 t.code := ⟨_, rfl, IsLR.make sw 0x11 d.val a r.val (b2n l) 0 t.code (encB (.v r l)) (by first | rfl | (simp only [encB]; omega)) (by decide) (by omega) (by omega) (by omega) (by decide) (by first | omega | (simp only [b2n_false, b2n_true, F2.bit64] at *; omega)) a.reg.isLt (b2n_lt a.last) (b2n_lt sw)⟩
    rw [← hW]
    have e2 : fld W 24 6 = 17 := F.f24_6.trans (by first | rfl | omega | (simp only [b2n_false, b2n_true, F2.bit64] at *; omega))
    refine ⟨?_, F.lt⟩
    simp only [decodeWord, parseWord, parseL, parseU, lrA, lrB, lrBClean, lrNoB, lrNoA, lmA, lmD, fbit, fv, fs, fp, fq, fbv, fz, b2n_beq, fin_ofNat, bv_ofNat, Option.map_some, if_true, if_false, Bool.false_eq_true, Bool.not_false, Bool.not_true, Bool.true_or, Bool.or_true, Bool.false_or, Bool.and_self, Bool.true_and, Bool.and_true, Nat.reduceBEq, beq_self_eq_true, reduceIte, F6_of, F.f31_1, F.f30_1, e2, F.f18_6, F.f12_6, F.f5_1, F.f0_3, F.f6_6, F.f3_1, F.f4_1]
    exact of_ok hwf
  | s r =>
    have h0 := b2n_lt sw
    have h1 := F6_lt t
    have h2 := d.isLt
    have h3 := a.reg.isLt
    have h4 := b2n_lt a.last
    have h5 := r.isLt
    obtain ⟨W, hW, F⟩ : ∃ W, W = encLR sw 0x11 d.val a (encB (.s r)) t.code ∧ IsLR W sw 0x11 d.val a r.val 0 1 t.code := ⟨_, rfl, IsLR.make sw 0x11 d.val a r.val 0 1 t.code (encB (.s r)) (by first | rfl | (simp only [encB]; omega)) (by decide) (by omega) (by omega) (by omega) (by decide) (by first | omega | (simp only [b2n_false, b2n_true, F2.bit64] at *; omega)) a.reg.isLt (b2n_lt a.last) (b2n_lt sw)⟩
    rw [← hW]
    have e2 : fld W 24 6 = 17 := F.f24_6.trans (by first | rfl | omega | (simp only [b2n_false, b2n_true, F2.bit64] at *; omega))
    have e7 : fld W 6 5 = r.val := F.f6_5.trans (by first | rfl | omega | (simp only [b2n_false, b2n_true, F2.bit64] at *; omega))
    have e10 : fld W 11 1 = 0 := F.f11_1.trans (by first | rfl | omega | (simp only [b2n_false, b2n_true, F2.bit64] at *; omega))
    refine ⟨?_, F.lt⟩
    simp only [decodeWord, parseWord, parseL, parseU, lrA, lrB, lrBClean, lrNoB, lrNoA, lmA, lmD, fbit, fv, fs, fp, fq, fbv, fz, b2n_beq, fin_ofNat, bv_ofNat, Option.map_some, if_true, if_false, Bool.false_eq_true, Bool.not_false, Bool.not_true, Bool.true_or, Bool.or_true, Bool.false_or, Bool.and_self, Bool.true_and, Bool.and_true, Nat.reduceBEq, beq_self_eq_true, reduceIte, F6_of, F.f31_1, F.f30_1, e2, F.f18_6, F.f12_6, F.f5_1, F.f0_3, e7, F.f3_1, F.f4_1, e10]
    exact of_ok hwf
theorem fmul (sw : Bool) (t : F6) (d : VReg) (a : VSrc) (b : BSrc) : Statement (.fmul sw t d a b) := by
  refine stmt_word rfl rfl fun hwf => ?_
  cases b with
  | v r l =>
    have h0 := b2n_lt sw
    have h1 := F6_lt t
    have h2 := d.isLt
    have h3 := a.reg.isLt
    have h4 := b2n_lt a.last
    have h5 := r.isLt
    have h6 := b2n_lt l
    obtain ⟨W, hW, F⟩ : ∃ W, W = encLR sw 0x12 d.val a (encB (.v r l)) t.code ∧ IsLR W sw 0x12 d.val a r.val (b2n l) 0 t.code := ⟨_, rfl, IsLR.make sw 0x12 d.val a r.val (b2n l) 0 t.code (encB (.v r l)) (by first | rfl | (simp only [encB]; omega)) (by decide) (by omega) (by omega) (by omega) (by decide) (by first | omega | (simp only [b2n_false, b2n_true, F2.bit64] at *; omega)) a.reg.isLt (b2n_lt a.last) (b2n_lt sw)⟩
    rw [← hW]
    have e2 : fld W 24 6 = 18 := F.f24_6.trans (by first | rfl | omega | (simp only [b2n_false, b2n_true, F2.bit64] at *; omega))
    refine ⟨?_, F.lt⟩
    simp only [decodeWord, parseWord, parseL, parseU, lrA, lrB, lrBClean, lrNoB, lrNoA, lmA, lmD, fbit, fv, fs, fp, fq, fbv, fz, b2n_beq, fin_ofNat, bv_ofNat, Option.map_some, if_true, if_false, Bool.false_eq_true, Bool.not_false, Bool.not_true, Bool.true_or, Bool.or_true, Bool.false_or, Bool.and_self, Bool.true_and, Bool.and_true, Nat.reduceBEq, beq_self_eq_true, reduceIte, F6_of, F.f31_1, F.f30_1, e2, F.f18_6, F.f12_6, F.f5_1, F.f0_3, F.f6_6, F.f3_1, F.f4_1]
    exact of_ok hwf
  | s r =>
    have h0 := b2n_lt sw
    have h1 := F6_lt t
    have h2 := d.isLt
    have h3 := a.reg.isLt
    have h4 := b2n_lt a.last
    have h5 := r.isLt
    obtain ⟨W, hW, F⟩ : ∃ W, W = encLR sw 0x12 d.val a (encB (.s r)) t.code ∧ IsLR W sw 0x12 d.val a r.val 0 1 t.code := ⟨_, rfl, IsLR.make sw 0x12 d.val a r.val 0 1 t.code (encB (.s r)) (by first | rfl | (simp only [encB]; omega)) (by decide) (by omega) (by omega) (by omega) (by decide) (by first | omega | (simp only [b2n_false, b2n_true, F2.bit64] at *; omega)) a.reg.isLt (b2n_lt a.last) (b2n_lt sw)⟩
    rw [← hW]
    have e2 : fld W 24 6 = 18 := F.f24_6.trans (by first | rfl | omega | (simp only [b2n_false, b2n_true, F2.bit64] at *; omega))
    have e7 : fld W 6 5 = r.val := F.f6_5.trans (by first | rfl | omega | (simp only [b2n_false, b2n_true, F2.bit64] at *; omega))
    have e10 : fld W 11 1 = 0 := F.f11_1.trans (by first | rfl | omega | (simp only [b2n_false, b2n_true, F2.bit64] at *; omega))
    refine ⟨?_, F.lt⟩
    simp only [decodeWord, parseWord, parseL, parseU, lrA, lrB, lrBClean, lrNoB, lrNoA, lmA, lmD, fbit, fv, fs, fp, fq, fbv, fz, b2n_beq, fin_ofNat, bv_ofNat, Option.map_some, if_true, if_false, Bool.false_eq_true, Bool.not_false, Bool.not_true, Bool.true_or, Bool.or_true, Bool.false_or, Bool.and_self, Bool.true_and, Bool.and_true, Nat.reduceBEq, beq_self_eq_true, reduceIte, F6_of, F.f31_1, F.f30_1, e2, F.f18_6, F.f12_6, F.f5_1, F.f0_3, e7, F.f3_1, F.f4_1, e10]
    exact of_ok hwf
theorem ffma (sw : Bool) (t : F6) (d : VReg) (a : VSrc) (b : BSrc) : Statement (.ffma sw t d a b) := by
  refine stmt_word rfl rfl fun hwf => ?_
  cases b with
  | v r l =>
    have h0 := b2n_lt sw
    have h1 := F6_lt t
    have h2 := d.isLt
    have h3 := a.reg.isLt
    have h4 := b2n_lt a.last
    have h5 := r.isLt
    have h6 := b2n_lt l
    obtain ⟨W, hW, F⟩ : ∃ W, W = encLR sw 0x13 d.val a (encB (.v r l)) t.code ∧ IsLR W sw 0x13 d.val a r.val (b2n l) 0 t.code := ⟨_, rfl, IsLR.make sw 0x13 d.val a r.val (b2n l) 0 t.code (encB (.v r l)) (by first | rfl | (simp only [encB]; omega)) (by decide) (by omega) (by omega) (by omega) (by decide) (by first | omega | (simp only [b2n_false, b2n_true, F2.bit64] at *; omega)) a.reg.isLt (b2n_lt a.last) (b2n_lt sw)⟩
    rw [← hW]
    have e2 : fld W 24 6 = 19 := F.f24_6.trans (by first | rfl | omega | (simp only [b2n_false, b2n_true, F2.bit64] at *; omega))
    refine ⟨?_, F.lt⟩
    simp only [decodeWord, parseWord, parseL, parseU, lrA, lrB, lrBClean, lrNoB, lrNoA, lmA, lmD, fbit, fv, fs, fp, fq, fbv, fz, b2n_beq, fin_ofNat, bv_ofNat, Option.map_some, if_true, if_false, Bool.false_eq_true, Bool.not_false, Bool.not_true, Bool.true_or, Bool.or_true, Bool.false_or, Bool.and_self, Bool.true_and, Bool.and_true, Nat.reduceBEq, beq_self_eq_true, reduceIte, F6_of, F.f31_1, F.f30_1, e2, F.f18_6, F.f12_6, F.f5_1, F.f0_3, F.f6_6, F.f3_1, F.f4_1]
    exact of_ok hwf
  | s r =>
    have h0 := b2n_lt sw
    have h1 := F6_lt t
    have h2 := d.isLt
    have h3 := a.reg.isLt
    have h4 := b2n_lt a.last
    have h5 := r.isLt
    obtain ⟨W, hW, F⟩ : ∃ W, W = encLR sw 0x13 d.val a (encB (.s r)) t.code ∧ IsLR W sw 0x13 d.val a r.val 0 1 t.code := ⟨_, rfl, IsLR.make sw 0x13 d.val a r.val 0 1 t.code (encB (.s r)) (by first | rfl | (simp only [encB]; omega)) (by decide) (by omega) (by omega) (by omega) (by decide) (by first | omega | (simp only [b2n_false, b2n_true, F2.bit64] at *; omega)) a.reg.isLt (b2n_lt a.last) (b2n_lt sw)⟩
    rw [← hW]
    have e2 : fld W 24 6 = 19 := F.f24_6.trans (by first | rfl | omega | (simp only [b2n_false, b2n_true, F2.bit64] at *; omega))
    have e7 : fld W 6 5 = r.val := F.f6_5.trans (by first | rfl | omega | (simp only [b2n_false, b2n_true, F2.bit64] at *; omega))
    have e10 : fld W 11 1 = 0 := F.f11_1.trans (by first | rfl | omega | (simp only [b2n_false, b2n_true, F2.bit64] at *; omega))
    refine ⟨?_, F.lt⟩
    simp only [decodeWord, parseWord, parseL, parseU, lrA, lrB, lrBClean, lrNoB, lrNoA, lmA, lmD, fbit, fv, fs, fp, fq, fbv, fz, b2n_beq, fin_ofNat, bv_ofNat, Option.map_some, if_true, if_false, Bool.false_eq_true, Bool.not_false, Bool.not_true, Bool.true_or, Bool.or_true, Bool.false_or, Bool.and_self, Bool.true_and, Bool.and_true, Nat.reduceBEq, beq_self_eq_true, reduceIte, F6_of, F.f31_1, F.f30_1, e2, F.f18_6, F.f12_6, F.f5_1, F.f0_3, e7, F.f3_1, F.f4_1, e10]
    exact of_ok hwf
theorem fmin (sw : Bool) (t : F6) (d : VReg) (a : VSrc) (b : BSrc) : Statement (.fmin sw t d a b) := by
  refine stmt_word rfl rfl fun hwf => ?_
  cases b with
  | v r l =>
    have h0 := b2n_lt sw
    have h1 := F6_lt t
    have h2 := d.isLt
    have h3 := a.reg.isLt
    have h4 := b2n_lt a.last
    have h5 := r.isLt
    have h6 := b2n_lt l
    obtain ⟨W, hW, F⟩ : ∃ W, W = encLR sw 0x14 d.val a (encB (.v r l)) t.code ∧ IsLR W sw 0x14 d.val a r.val (b2n l) 0 t.code := ⟨_, rfl, IsLR.make sw 0x14 d.val a r.val (b2n l) 0 t.code (encB (.v r l)) (by first | rfl | (simp only [encB]; omega)) (by decide) (by omega) (by omega) (by omega) (by decide) (by first | omega | (simp only [b2n_false, b2n_true, F2.bit64] at *; omega)) a.reg.isLt (b2n_lt a.last) (b2n_lt sw)⟩
    rw [← hW]
    have e2 : fld W 24 6 = 20 := F.f24_6.trans (by first | rfl | omega | (simp only [b2n_false, b2n_true, F2.bit64] at *; omega))
    refine ⟨?_, F.lt⟩
    simp only [decodeWord, parseWord, parseL, parseU, lrA, lrB, lrBClean, lrNoB, lrNoA, lmA, lmD, fbit, fv, fs, fp, fq, fbv, fz, b2n_beq, fin_ofNat, bv_ofNat, Option.map_some, if_true, if_false, Bool.false_eq_true, Bool.not_false, Bool.not_true, Bool.true_or, Bool.or_true, Bool.false_or, Bool.and_self, Bool.true_and, Bool.and_true, Nat.reduceBEq, beq_self_eq_true, reduceIte, F6_of, F.f31_1, F.f30_1, e2, F.f18_6, F.f12_6, F.f5_1, F.f0_3, F.f6_6, F.f3_1, F.f4_1]
    exact of_ok hwf
  | s r =>
    have h0 := b2n_lt sw
    have h1 := F6_lt t
    have h2 := d.isLt
    have h3 := a.reg.isLt
    have h4 := b2n_lt a.last
    have h5 := r.isLt
    obtain ⟨W, hW, F⟩ : ∃ W, W = encLR sw 0x14 d.val a (encB (.s r)) t.code ∧ IsLR W sw 0x14 d.val a r.val 0 1 t.code := ⟨_, rfl, IsLR.make sw 0x14 d.val a r.val 0 1 t.code (encB (.s r)) (by first | rfl | (simp only [encB]; omega)) (by decide) (by omega) (by omega) (by omega) (by decide) (by first | omega | (simp only [b2n_false, b2n_true, F2.bit64] at *; omega)) a.reg.isLt (b2n_lt a.last) (b2n_lt sw)⟩
    rw [← hW]
    have e2 : fld W 24 6 = 20 := F.f24_6.trans (by first | rfl | omega | (simp only [b2n_false, b2n_true, F2.bit64] at *; omega))
    have e7 : fld W 6 5 = r.val := F.f6_5.trans (by first | rfl | omega | (simp only [b2n_false, b2n_true, F2.bit64] at *; omega))
    have e10 : fld W 11 1 = 0 := F.f11_1.trans (by first | rfl | omega | (simp only [b2n_false, b2n_true, F2.bit64] at *; omega))
    refine ⟨?_, F.lt⟩
    simp only [decodeWord, parseWord, parseL, parseU, lrA, lrB, lrBClean, lrNoB, lrNoA, lmA, lmD, fbit, fv, fs, fp, fq, fbv, fz, b2n_beq, fin_ofNat, bv_ofNat, Option.map_some, if_true, if_false, Bool.false_eq_true, Bool.not_false, Bool.not_true, Bool.true_or, Bool.or_true, Bool.false_or, Bool.and_self, Bool.true_and, Bool.and_true, Nat.reduceBEq, beq_self_eq_true, reduceIte, F6_of, F.f31_1, F.f30_1, e2, F.f18_6, F.f12_6, F.f5_1, F.f0_3, e7, F.f3_1, F.f4_1, e10]
    exact of_ok hwf
theorem fmax (sw : Bool) (t : F6) (d : VReg) (a : VSrc) (b : BSrc) : Statement (.fmax sw t d a b) := by
  refine stmt_word rfl rfl fun hwf => ?_
  cases b with
  | v r l =>
    have h0 := b2n_lt sw
    have h1 := F6_lt t
    have h2 := d.isLt
    have h3 := a.reg.isLt
    have h4 := b2n_lt a.last
    have h5 := r.isLt
    have h6 := b2n_lt l
    obtain ⟨W, hW, F⟩ : ∃ W, W = encLR sw 0x15 d.val a (encB (.v r l)) t.code ∧ IsLR W sw 0x15 d.val a r.val (b2n l) 0 t.code := ⟨_, rfl, IsLR.make sw 0x15 d.val a r.val (b2n l) 0 t.code (encB (.v r l)) (by first | rfl | (simp only [encB]; omega)) (by decide) (by omega) (by omega) (by omega) (by decide) (by first | omega | (simp only [b2n_false, b2n_true, F2.bit64] at *; omega)) a.reg.isLt (b2n_lt a.last) (b2n_lt sw)⟩
    rw [← hW]
    have e2 : fld W 24 6 = 21 := F.f24_6.trans (by first | rfl | omega | (simp only [b2n_false, b2n_true, F2.bit64] at *; omega))
    refine ⟨?_, F.lt⟩
    simp only [decodeWord, parseWord, parseL, parseU, lrA, lrB, lrBClean, lrNoB, lrNoA, lmA, lmD, fbit, fv, fs, fp, fq, fbv, fz, b2n_beq, fin_ofNat, bv_ofNat, Option.map_some, if_true, if_false, Bool.false_eq_true, Bool.not_false, Bool.not_true, Bool.true_or, Bool.or_true, Bool.false_or, Bool.and_self, Bool.true_and, Bool.and_true, Nat.reduceBEq, beq_self_eq_true, reduceIte, F6_of, F.f31_1, F.f30_1, e2, F.f18_6, F.f12_6, F.f5_1, F.f0_3, F.f6_6, F.f3_1, F.f4_1]
    exact of_ok hwf
  | s r =>
    have h0 := b2n_lt sw
    have h1 := F6_lt t
    have h2 := d.isLt
    have h3 := a.reg.isLt
    have h4 := b2n_lt a.last
    have h5 := r.isLt
    obtain ⟨W, hW, F⟩ : ∃ W, W = encLR sw 0x15 d.val a (encB (.s r)) t.code ∧ IsLR W sw 0x15 d.val a r.val 0 1 t.code := ⟨_, rfl, IsLR.make sw 0x15 d.val a r.val 0 1 t.code (encB (.s r)) (by first | rfl | (simp only [encB]; omega)) (by decide) (by omega) (by omega) (by omega) (by decide) (by first | omega | (simp only [b2n_false, b2n_true, F2.bit64] at *; omega)) a.reg.isLt (b2n_lt a.last) (b2n_lt sw)⟩
    rw [← hW]
    have e2 : fld W 24 6 = 21 := F.f24_6.trans (by first | rfl | omega | (simp only [b2n_false, b2n_true, F2.bit64] at *; omega))
    have e7 : fld W 6 5 = r.val := F.f6_5.trans (by first | rfl | omega | (simp only [b2n_false, b2n_true, F2.bit64] at *; omega))
    have e10 : fld W 11 1 = 0 := F.f11_1.trans (by first | rfl | omega | (simp only [b2n_false, b2n_true, F2.bit64] at *; omega))
    refine ⟨?_, F.lt⟩
    simp only [decodeWord, parseWord, parseL, parseU, lrA, lrB, lrBClean, lrNoB, lrNoA, lmA, lmD, fbit, fv, fs, fp, fq, fbv, fz, b2n_beq, fin_ofNat, bv_ofNat, Option.map_some, if_true, if_false, Bool.false_eq_true, Bool.not_false, Bool.not_true, Bool.true_or, Bool.or_true, Bool.false_or, Bool.and_self, Bool.true_and, Bool.and_true, Nat.reduceBEq, beq_self_eq_true, reduceIte, F6_of, F.f31_1, F.f30_1, e2, F.f18_6, F.f12_6, F.f5_1, F.f0_3, e7, F.f3_1, F.f4_1, e10]
    exact of_ok hwf
theorem fdiv (sw : Bool) (t : F2) (d : VReg) (a : VSrc) (b : BSrc) : Statement (.fdiv sw t d a b) := by
  refine stmt_word rfl rfl fun hwf => ?_
  cases b with
  | v r l =>
    have h0 := b2n_lt sw
    have h1 := F2_lt t
    have h2 := d.isLt
    have h3 := a.reg.isLt
    have h4 := b2n_lt a.last
    have h5 := r.isLt
    have h6 := b2n_lt l
    obtain ⟨W, hW, F⟩ : ∃ W, W = encLR sw 0x16 d.val a (encB (.v r l)) t.code ∧ IsLR W sw 0x16 d.val a r.val (b2n l) 0 t.code := ⟨_, rfl, IsLR.make sw 0x16 d.val a r.val (b2n l) 0 t.code (encB (.v r l)) (by first | rfl | (simp only [encB]; omega)) (by decide) (by omega) (by omega) (by omega) (by decide) (by first | omega | (simp only [b2n_false, b2n_true, F2.bit64] at *; omega)) a.reg.isLt (b2n_lt a.last) (b2n_lt sw)⟩
    rw [← hW]
    have e2 : fld W 24 6 = 22 := F.f24_6.trans (by first | rfl | omega | (simp only [b2n_false, b2n_true, F2.bit64] at *; omega))
    refine ⟨?_, F.lt⟩
    simp only [decodeWord, parseWord, parseL, parseU, lrA, lrB, lrBClean, lrNoB, lrNoA, lmA, lmD, fbit, fv, fs, fp, fq, fbv, fz, b2n_beq, fin_ofNat, bv_ofNat, Option.map_some, if_true, if_false, Bool.false_eq_true, Bool.not_false, Bool.not_true, Bool.true_or, Bool.or_true, Bool.false_or, Bool.and_self, Bool.true_and, Bool.and_true, Nat.reduceBEq, beq_self_eq_true, reduceIte, F2_of, F.f31_1, F.f30_1, e2, F.f18_6, F.f12_6, F.f5_1, F.f0_3, F.f6_6, F.f3_1, F.f4_1]
    exact of_ok hwf
  | s r =>
    have h0 := b2n_lt sw
    have h1 := F2_lt t
    have h2 := d.isLt
    have h3 := a.reg.isLt
    have h4 := b2n_lt a.last
    have h5 := r.isLt
    obtain ⟨W, hW, F⟩ : ∃ W, W = encLR sw 0x16 d.val a (encB (.s r)) t.code ∧ IsLR W sw 0x16 d.val a r.val 0 1 t.code := ⟨_, rfl, IsLR.make sw 0x16 d.val a r.val 0 1 t.code (encB (.s r)) (by first | rfl | (simp only [encB]; omega)) (by decide) (by omega) (by omega) (by omega) (by decide) (by first | omega | (simp only [b2n_false, b2n_true, F2.bit64] at *; omega)) a.reg.isLt (b2n_lt a.last) (b2n_lt sw)⟩
    rw [← hW]
    have e2 : fld W 24 6 = 22 := F.f24_6.trans (by first | rfl | omega | (simp only [b2n_false, b2n_true, F2.bit64] at *; omega))
    have e7 : fld W 6 5 = r.val := F.f6_5.trans (by first | rfl | omega | (simp only [b2n_false, b2n_true, F2.bit64] at *; omega))
    have e10 : fld W 11 1 = 0 := F.f11_1.trans (by first | rfl | omega | (simp only [b2n_false, b2n_true, F2.bit64] at *; omega))
    refine ⟨?_, F.lt⟩
    simp only [decodeWord, parseWord, parseL, parseU, lrA, lrB, lrBClean, lrNoB, lrNoA, lmA, lmD, fbit, fv, fs, fp, fq, fbv, fz, b2n_beq, fin_ofNat, bv_ofNat, Option.map_some, if_true, if_false, Bool.false_eq_true, Bool.not_false, Bool.not_true, Bool.true_or, Bool.or_true, Bool.false_or, Bool.and_self, Bool.true_and, Bool.and_true, Nat.reduceBEq, beq_self_eq_true, reduceIte, F2_of, F.f31_1, F.f30_1, e2, F.f18_6, F.f12_6, F.f5_1, F.f0_3, e7, F.f3_1, F.f4_1, e10]
    exact of_ok hwf
theorem fsqrt (sw : Bool) (t : F2) (d : VReg) (a : VSrc) : Statement (.fsqrt sw t d a) := by
  refine stmt_word rfl rfl fun hwf => ?_
  have h0 := b2n_lt sw
  have h1 := F2_lt t
  have h2 := d.isLt
  have h3 := a.reg.isLt
  have h4 := b2n_lt a.last
  obtain ⟨W, hW, F⟩ : ∃ W, W = encLR sw 0x17 d.val a 0 t.code ∧ IsLR W sw 0x17 d.val a 0 0 0 t.code := ⟨_, rfl, IsLR.make sw 0x17 d.val a 0 0 0 t.code 0 (by first | rfl | (simp only [encB]; omega)) (by decide) (by omega) (by omega) (by omega) (by decide) (by first | omega | (simp only [b2n_false, b2n_true, F2.bit64] at *; omega)) a.reg.isLt (b2n_lt a.last) (b2n_lt sw)⟩
  rw [← hW]
  have e2 : fld W 24 6 = 23 := F.f24_6.trans (by first | rfl | omega | (simp only [b2n_false, b2n_true, F2.bit64] at *; omega))
  have e8 : fld W 3 2 = 0 := F.f3_2.trans (by first | rfl | omega | (simp only [b2n_false, b2n_true, F2.bit64] at *; omega))
  refine ⟨?_, F.lt⟩
  simp only [decodeWord, parseWord, parseL, parseU, lrA, lrB, lrBClean, lrNoB, lrNoA, lmA, lmD, fbit, fv, fs, fp, fq, fbv, fz, b2n_beq, fin_ofNat, bv_ofNat, Option.map_some, if_true, if_false, Bool.false_eq_true, Bool.not_false, Bool.not_true, Bool.true_or, Bool.or_true, Bool.false_or, Bool.and_self, Bool.true_and, Bool.and_true, Nat.reduceBEq, beq_self_eq_true, reduceIte, F2_of, F.f31_1, F.f30_1, e2, F.f18_6, F.f12_6, F.f5_1, F.f0_3, F.f6_6, e8]
  exact of_ok hwf
theorem fsetF32 (sw : Bool) (c : FCmp) (p : PReg) (a : VSrc) (b : BSrc) : Statement (.fsetF32 sw c p a b) := by
  refine stmt_word rfl rfl fun hwf => ?_
  cases b with
  | v r l =>
    have h0 := b2n_lt sw
    have h1 := FCmp_lt c
    have h2 := p.isLt
    have h3 := a.reg.isLt
    have h4 := b2n_lt a.last
    have h5 := r.isLt
    have h6 := b2n_lt l
    obtain ⟨W, hW, F⟩ : ∃ W, W = encLR sw 0x18 p.val a (encB (.v r l)) c.code ∧ IsLR W sw 0x18 p.val a r.val (b2n l) 0 c.code := ⟨_, rfl, IsLR.make sw 0x18 p.val a r.val (b2n l) 0 c.code (encB (.v r l)) (by first | rfl | (simp only [encB]; omega)) (by decide) (by omega) (by omega) (by omega) (by decide) (by first | omega | (simp only [b2n_false, b2n_true, F2.bit64] at *; omega)) a.reg.isLt (b2n_lt a.last) (b2n_lt sw)⟩
    rw [← hW]
    have e2 : fld W 24 6 = 24 := F.f24_6.trans (by first | rfl | omega | (simp only [b2n_false, b2n_true, F2.bit64] at *; omega))
    have e10 : fld W 18 3 = p.val := F.f18_3.trans (by first | rfl | omega | (simp only [b2n_false, b2n_true, F2.bit64] at *; omega))
    have e11 : fld W 21 3 = 0 := F.f21_3.trans (by first | rfl | omega | (simp only [b2n_false, b2n_true, F2.bit64] at *; omega))
    refine ⟨?_, F.lt⟩
    simp only [decodeWord, parseWord, parseL, parseU, lrA, lrB, lrBClean, lrNoB, lrNoA, lmA, lmD, fbit, fv, fs, fp, fq, fbv, fz, b2n_beq, fin_ofNat, bv_ofNat, Option.map_some, if_true, if_false, Bool.false_eq_true, Bool.not_false, Bool.not_true, Bool.true_or, Bool.or_true, Bool.false_or, Bool.and_self, Bool.true_and, Bool.and_true, Nat.reduceBEq, beq_self_eq_true, reduceIte, FCmp_of, F.f31_1, F.f30_1, e2, F.f18_6, F.f12_6, F.f5_1, F.f0_3, F.f6_6, F.f3_1, F.f4_1, e10, e11]
    exact of_ok hwf
  | s r =>
    have h0 := b2n_lt sw
    have h1 := FCmp_lt c
    have h2 := p.isLt
    have h3 := a.reg.isLt
    have h4 := b2n_lt a.last
    have h5 := r.isLt
    obtain ⟨W, hW, F⟩ : ∃ W, W = encLR sw 0x18 p.val a (encB (.s r)) c.code ∧ IsLR W sw 0x18 p.val a r.val 0 1 c.code := ⟨_, rfl, IsLR.make sw 0x18 p.val a r.val 0 1 c.code (encB (.s r)) (by first | rfl | (simp only [encB]; omega)) (by decide) (by omega) (by omega) (by omega) (by decide) (by first | omega | (simp only [b2n_false, b2n_true, F2.bit64] at *; omega)) a.reg.isLt (b2n_lt a.last) (b2n_lt sw)⟩
    rw [← hW]
    have e2 : fld W 24 6 = 24 := F.f24_6.trans (by first | rfl | omega | (simp only [b2n_false, b2n_true, F2.bit64] at *; omega))
    have e7 : fld W 6 5 = r.val := F.f6_5.trans (by first | rfl | omega | (simp only [b2n_false, b2n_true, F2.bit64] at *; omega))
    have e10 : fld W 11 1 = 0 := F.f11_1.trans (by first | rfl | omega | (simp only [b2n_false, b2n_true, F2.bit64] at *; omega))
    have e11 : fld W 18 3 = p.val := F.f18_3.trans (by first | rfl | omega | (simp only [b2n_false, b2n_true, F2.bit64] at *; omega))
    have e12 : fld W 21 3 = 0 := F.f21_3.trans (by first | rfl | omega | (simp only [b2n_false, b2n_true, F2.bit64] at *; omega))
    refine ⟨?_, F.lt⟩
    simp only [decodeWord, parseWord, parseL, parseU, lrA, lrB, lrBClean, lrNoB, lrNoA, lmA, lmD, fbit, fv, fs, fp, fq, fbv, fz, b2n_beq, fin_ofNat, bv_ofNat, Option.map_some, if_true, if_false, Bool.false_eq_true, Bool.not_false, Bool.not_true, Bool.true_or, Bool.or_true, Bool.false_or, Bool.and_self, Bool.true_and, Bool.and_true, Nat.reduceBEq, beq_self_eq_true, reduceIte, FCmp_of, F.f31_1, F.f30_1, e2, F.f18_6, F.f12_6, F.f5_1, F.f0_3, e7, F.f3_1, F.f4_1, e10, e11, e12]
    exact of_ok hwf
theorem fsetF64 (sw : Bool) (c : FCmp) (p : PReg) (a : VSrc) (b : BSrc) : Statement (.fsetF64 sw c p a b) := by
  refine stmt_word rfl rfl fun hwf => ?_
  cases b with
  | v r l =>
    have h0 := b2n_lt sw
    have h1 := FCmp_lt c
    have h2 := p.isLt
    have h3 := a.reg.isLt
    have h4 := b2n_lt a.last
    have h5 := r.isLt
    have h6 := b2n_lt l
    obtain ⟨W, hW, F⟩ : ∃ W, W = encLR sw 0x19 p.val a (encB (.v r l)) c.code ∧ IsLR W sw 0x19 p.val a r.val (b2n l) 0 c.code := ⟨_, rfl, IsLR.make sw 0x19 p.val a r.val (b2n l) 0 c.code (encB (.v r l)) (by first | rfl | (simp only [encB]; omega)) (by decide) (by omega) (by omega) (by omega) (by decide) (by first | omega | (simp only [b2n_false, b2n_true, F2.bit64] at *; omega)) a.reg.isLt (b2n_lt a.last) (b2n_lt sw)⟩
    rw [← hW]
    have e2 : fld W 24 6 = 25 := F.f24_6.trans (by first | rfl | omega | (simp only [b2n_false, b2n_true, F2.bit64] at *; omega))
    have e10 : fld W 18 3 = p.val := F.f18_3.trans (by first | rfl | omega | (simp only [b2n_false, b2n_true, F2.bit64] at *; omega))
    have e11 : fld W 21 3 = 0 := F.f21_3.trans (by first | rfl | omega | (simp only [b2n_false, b2n_true, F2.bit64] at *; omega))
    refine ⟨?_, F.lt⟩
    simp only [decodeWord, parseWord, parseL, parseU, lrA, lrB, lrBClean, lrNoB, lrNoA, lmA, lmD, fbit, fv, fs, fp, fq, fbv, fz, b2n_beq, fin_ofNat, bv_ofNat, Option.map_some, if_true, if_false, Bool.false_eq_true, Bool.not_false, Bool.not_true, Bool.true_or, Bool.or_true, Bool.false_or, Bool.and_self, Bool.true_and, Bool.and_true, Nat.reduceBEq, beq_self_eq_true, reduceIte, FCmp_of, F.f31_1, F.f30_1, e2, F.f18_6, F.f12_6, F.f5_1, F.f0_3, F.f6_6, F.f3_1, F.f4_1, e10, e11]
    exact of_ok hwf
  | s r =>
    have h0 := b2n_lt sw
    have h1 := FCmp_lt c
    have h2 := p.isLt
    have h3 := a.reg.isLt
    have h4 := b2n_lt a.last
    have h5 := r.isLt
    obtain ⟨W, hW, F⟩ : ∃ W, W = encLR sw 0x19 p.val a (encB (.s r)) c.code ∧ IsLR W sw 0x19 p.val a r.val 0 1 c.code := ⟨_, rfl, IsLR.make sw 0x19 p.val a r.val 0 1 c.code (encB (.s r)) (by first | rfl | (simp only [encB]; omega)) (by decide) (by omega) (by omega) (by omega) (by decide) (by first | omega | (simp only [b2n_false, b2n_true, F2.bit64] at *; omega)) a.reg.isLt (b2n_lt a.last) (b2n_lt sw)⟩
    rw [← hW]
    have e2 : fld W 24 6 = 25 := F.f24_6.trans (by first | rfl | omega | (simp only [b2n_false, b2n_true, F2.bit64] at *; omega))
    have e7 : fld W 6 5 = r.val := F.f6_5.trans (by first | rfl | omega | (simp only [b2n_false, b2n_true, F2.bit64] at *; omega))
    have e10 : fld W 11 1 = 0 := F.f11_1.trans (by first | rfl | omega | (simp only [b2n_false, b2n_true, F2.bit64] at *; omega))
    have e11 : fld W 18 3 = p.val := F.f18_3.trans (by first | rfl | omega | (simp only [b2n_false, b2n_true, F2.bit64] at *; omega))
    have e12 : fld W 21 3 = 0 := F.f21_3.trans (by first | rfl | omega | (simp only [b2n_false, b2n_true, F2.bit64] at *; omega))
    refine ⟨?_, F.lt⟩
    simp only [decodeWord, parseWord, parseL, parseU, lrA, lrB, lrBClean, lrNoB, lrNoA, lmA, lmD, fbit, fv, fs, fp, fq, fbv, fz, b2n_beq, fin_ofNat, bv_ofNat, Option.map_some, if_true, if_false, Bool.false_eq_true, Bool.not_false, Bool.not_true, Bool.true_or, Bool.or_true, Bool.false_or, Bool.and_self, Bool.true_and, Bool.and_true, Nat.reduceBEq, beq_self_eq_true, reduceIte, FCmp_of, F.f31_1, F.f30_1, e2, F.f18_6, F.f12_6, F.f5_1, F.f0_3, e7, F.f3_1, F.f4_1, e10, e11, e12]
    exact of_ok hwf
theorem fclass (sw : Bool) (t : F4) (d : VReg) (a : VSrc) : Statement (.fclass sw t d a) := by
  refine stmt_word rfl rfl fun hwf => ?_
  have h0 := b2n_lt sw
  have h1 := F4_lt t
  have h2 := d.isLt
  have h3 := a.reg.isLt
  have h4 := b2n_lt a.last
  obtain ⟨W, hW, F⟩ : ∃ W, W = encLR sw 0x1A d.val a 0 t.code ∧ IsLR W sw 0x1A d.val a 0 0 0 t.code := ⟨_, rfl, IsLR.make sw 0x1A d.val a 0 0 0 t.code 0 (by first | rfl | (simp only [encB]; omega)) (by decide) (by omega) (by omega) (by omega) (by decide) (by first | omega | (simp only [b2n_false, b2n_true, F2.bit64] at *; omega)) a.reg.isLt (b2n_lt a.last) (b2n_lt sw)⟩
  rw [← hW]
  have e2 : fld W 24 6 = 26 := F.f24_6.trans (by first | rfl | omega | (simp only [b2n_false, b2n_true, F2.bit64] at *; omega))
  have e8 : fld W 3 2 = 0 := F.f3_2.trans (by first | rfl | omega | (simp only [b2n_false, b2n_true, F2.bit64] at *; omega))
  refine ⟨?_, F.lt⟩
  simp only [decodeWord, parseWord, parseL, parseU, lrA, lrB, lrBClean, lrNoB, lrNoA, lmA, lmD, fbit, fv, fs, fp, fq, fbv, fz, b2n_beq, fin_ofNat, bv_ofNat, Option.map_some, if_true, if_false, Bool.false_eq_true, Bool.not_false, Bool.not_true, Bool.true_or, Bool.or_true, Bool.false_or, Bool.and_self, Bool.true_and, Bool.and_true, Nat.reduceBEq, beq_self_eq_true, reduceIte, F4_of, F.f31_1, F.f30_1, e2, F.f18_6, F.f12_6, F.f5_1, F.f0_3, F.f6_6, e8]
  exact of_ok hwf
theorem fsgn (sw : Bool) (f : SgnFn) (t : F2) (d : VReg) (a : VSrc) (b : BSrc) : Statement (.fsgn sw f t d a b) := by
  refine stmt_word rfl rfl fun hwf => ?_
  cases t with
  | f32 =>
    cases b with
    | v r l =>
      have h0 := b2n_lt sw
      have h1 := SgnFn_lt f
      have h2 := d.isLt
      have h3 := a.reg.isLt
      have h4 := b2n_lt a.last
      have h5 := r.isLt
      have h6 := b2n_lt l
      obtain ⟨W, hW, F⟩ : ∃ W, W = encLR sw 0x1B d.val a (encB (.v r l)) (f.code + 4 * F2.bit64 .f32) ∧ IsLR W sw 0x1B d.val a r.val (b2n l) 0 (f.code + 4 * F2.bit64 .f32) := ⟨_, rfl, IsLR.make sw 0x1B d.val a r.val (b2n l) 0 (f.code + 4 * F2.bit64 .f32) (encB (.v r l)) (by first | rfl | (simp only [encB]; omega)) (by decide) (by omega) (by omega) (by omega) (by decide) (by first | omega | (simp only [b2n_false, b2n_true, F2.bit64] at *; omega)) a.reg.isLt (b2n_lt a.last) (b2n_lt sw)⟩
      rw [← hW]
      have e2 : fld W 24 6 = 27 := F.f24_6.trans (by first | rfl | omega | (simp only [b2n_false, b2n_true, F2.bit64] at *; omega))
      have e6 : fld W 0 2 = f.code := F.f0_2.trans (by first | rfl | omega | (simp only [b2n_false, b2n_true, F2.bit64] at *; omega))
      have e7 : fld W 2 1 = 0 := F.f2_1.trans (by first | rfl | omega | (simp only [b2n_false, b2n_true, F2.bit64] at *; omega))
      refine ⟨?_, F.lt⟩
      simp only [decodeWord, parseWord, parseL, parseU, lrA, lrB, lrBClean, lrNoB, lrNoA, lmA, lmD, fbit, fv, fs, fp, fq, fbv, fz, b2n_beq, fin_ofNat, bv_ofNat, Option.map_some, if_true, if_false, Bool.false_eq_true, Bool.not_false, Bool.not_true, Bool.true_or, Bool.or_true, Bool.false_or, Bool.and_self, Bool.true_and, Bool.and_true, Nat.reduceBEq, beq_self_eq_true, reduceIte, SgnFn_of, F.f31_1, F.f30_1, e2, F.f18_6, F.f12_6, F.f5_1, e6, e7, F.f6_6, F.f3_1, F.f4_1]
      exact of_ok hwf
    | s r =>
      have h0 := b2n_lt sw
      have h1 := SgnFn_lt f
      have h2 := d.isLt
      have h3 := a.reg.isLt
      have h4 := b2n_lt a.last
      have h5 := r.isLt
      obtain ⟨W, hW, F⟩ : ∃ W, W = encLR sw 0x1B d.val a (encB (.s r)) (f.code + 4 * F2.bit64 .f32) ∧ IsLR W sw 0x1B d.val a r.val 0 1 (f.code + 4 * F2.bit64 .f32) := ⟨_, rfl, IsLR.make sw 0x1B d.val a r.val 0 1 (f.code + 4 * F2.bit64 .f32) (encB (.s r)) (by first | rfl | (simp only [encB]; omega)) (by decide) (by omega) (by omega) (by omega) (by decide) (by first | omega | (simp only [b2n_false, b2n_true, F2.bit64] at *; omega)) a.reg.isLt (b2n_lt a.last) (b2n_lt sw)⟩
      rw [← hW]
      have e2 : fld W 24 6 = 27 := F.f24_6.trans (by first | rfl | omega | (simp only [b2n_false, b2n_true, F2.bit64] at *; omega))
      have e6 : fld W 0 2 = f.code := F.f0_2.trans (by first | rfl | omega | (simp only [b2n_false, b2n_true, F2.bit64] at *; omega))
      have e7 : fld W 2 1 = 0 := F.f2_1.trans (by first | rfl | omega | (simp only [b2n_false, b2n_true, F2.bit64] at *; omega))
      have e8 : fld W 6 5 = r.val := F.f6_5.trans (by first | rfl | omega | (simp only [b2n_false, b2n_true, F2.bit64] at *; omega))
      have e11 : fld W 11 1 = 0 := F.f11_1.trans (by first | rfl | omega | (simp only [b2n_false, b2n_true, F2.bit64] at *; omega))
      refine ⟨?_, F.lt⟩
      simp only [decodeWord, parseWord, parseL, parseU, lrA, lrB, lrBClean, lrNoB, lrNoA, lmA, lmD, fbit, fv, fs, fp, fq, fbv, fz, b2n_beq, fin_ofNat, bv_ofNat, Option.map_some, if_true, if_false, Bool.false_eq_true, Bool.not_false, Bool.not_true, Bool.true_or, Bool.or_true, Bool.false_or, Bool.and_self, Bool.true_and, Bool.and_true, Nat.reduceBEq, beq_self_eq_true, reduceIte, SgnFn_of, F.f31_1, F.f30_1, e2, F.f18_6, F.f12_6, F.f5_1, e6, e7, e8, F.f3_1, F.f4_1, e11]
      exact of_ok hwf
  | f64 =>
    cases b with
    | v r l =>
      have h0 := b2n_lt sw
      have h1 := SgnFn_lt f
      have h2 := d.isLt
      have h3 := a.reg.isLt
      have h4 := b2n_lt a.last
      have h5 := r.isLt
      have h6 := b2n_lt l
      obtain ⟨W, hW, F⟩ : ∃ W, W = encLR sw 0x1B d.val a (encB (.v r l)) (f.code + 4 * F2.bit64 .f64) ∧ IsLR W sw 0x1B d.val a r.val (b2n l) 0 (f.code + 4 * F2.bit64 .f64) := ⟨_, rfl, IsLR.make sw 0x1B d.val a r.val (b2n l) 0 (f.code + 4 * F2.bit64 .f64) (encB (.v r l)) (by first | rfl | (simp only [encB]; omega)) (by decide) (by omega) (by omega) (by omega) (by decide) (by first | omega | (simp only [b2n_false, b2n_true, F2.bit64] at *; omega)) a.reg.isLt (b2n_lt a.last) (b2n_lt sw)⟩
      rw [← hW]
      have e2 : fld W 24 6 = 27 := F.f24_6.trans (by first | rfl | omega | (simp only [b2n_false, b2n_true, F2.bit64] at *; omega))
      have e6 : fld W 0 2 = f.code := F.f0_2.trans (by first | rfl | omega | (simp only [b2n_false, b2n_true, F2.bit64] at *; omega))
      have e7 : fld W 2 1 = 1 := F.f2_1.trans (by first | rfl | omega | (simp only [b2n_false, b2n_true, F2.bit64] at *; omega))
      refine ⟨?_, F.lt⟩
      simp only [decodeWord, parseWord, parseL, parseU, lrA, lrB, lrBClean, lrNoB, lrNoA, lmA, lmD, fbit, fv, fs, fp, fq, fbv, fz, b2n_beq, fin_ofNat, bv_ofNat, Option.map_some, if_true, if_false, Bool.false_eq_true, Bool.not_false, Bool.not_true, Bool.true_or, Bool.or_true, Bool.false_or, Bool.and_self, Bool.true_and, Bool.and_true, Nat.reduceBEq, beq_self_eq_true, reduceIte, SgnFn_of, F.f31_1, F.f30_1, e2, F.f18_6, F.f12_6, F.f5_1, e6, e7, F.f6_6, F.f3_1, F.f4_1]
      exact of_ok hwf
    | s r =>
      have h0 := b2n_lt sw
      have h1 := SgnFn_lt f
      have h2 := d.isLt
      have h3 := a.reg.isLt
      have h4 := b2n_lt a.last
      have h5 := r.isLt
      obtain ⟨W, hW, F⟩ : ∃ W, W = encLR sw 0x1B d.val a (encB (.s r)) (f.code + 4 * F2.bit64 .f64) ∧ IsLR W sw 0x1B d.val a r.val 0 1 (f.code + 4 * F2.bit64 .f64) := ⟨_, rfl, IsLR.make sw 0x1B d.val a r.val 0 1 (f.code + 4 * F2.bit64 .f64) (encB (.s r)) (by first | rfl | (simp only [encB]; omega)) (by decide) (by omega) (by omega) (by omega) (by decide) (by first | omega | (simp only [b2n_false, b2n_true, F2.bit64] at *; omega)) a.reg.isLt (b2n_lt a.last) (b2n_lt sw)⟩
      rw [← hW]
      have e2 : fld W 24 6 = 27 := F.f24_6.trans (by first | rfl | omega | (simp only [b2n_false, b2n_true, F2.bit64] at *; omega))
      have e6 : fld W 0 2 = f.code := F.f0_2.trans (by first | rfl | omega | (simp only [b2n_false, b2n_true, F2.bit64] at *; omega))
      have e7 : fld W 2 1 = 1 := F.f2_1.trans (by first | rfl | omega | (simp only [b2n_false, b2n_true, F2.bit64] at *; omega))
      have e8 : fld W 6 5 = r.val := F.f6_5.trans (by first | rfl | omega | (simp only [b2n_false, b2n_true, F2.bit64] at *; omega))
      have e11 : fld W 11 1 = 0 := F.f11_1.trans (by first | rfl | omega | (simp only [b2n_false, b2n_true, F2.bit64] at *; omega))
      refine ⟨?_, F.lt⟩
      simp only [decodeWord, parseWord, parseL, parseU, lrA, lrB, lrBClean, lrNoB, lrNoA, lmA, lmD, fbit, fv, fs, fp, fq, fbv, fz, b2n_beq, fin_ofNat, bv_ofNat, Option.map_some, if_true, if_false, Bool.false_eq_true, Bool.not_false, Bool.not_true, Bool.true_or, Bool.or_true, Bool.false_or, Bool.and_self, Bool.true_and, Bool.and_true, Nat.reduceBEq, beq_self_eq_true, reduceIte, SgnFn_of, F.f31_1, F.f30_1, e2, F.f18_6, F.f12_6, F.f5_1, e6, e7, e8, F.f3_1, F.f4_1, e11]
      exact of_ok hwf
theorem rsqa (sw : Bool) (t : F2) (d : VReg) (a : VSrc) : Statement (.rsqa sw t d a) := by
  refine stmt_word rfl rfl fun hwf => ?_
  have h0 := b2n_lt sw
  have h1 := F2_lt t
  have h2 := d.isLt
  have h3 := a.reg.isLt
  have h4 := b2n_lt a.last
  obtain ⟨W, hW, F⟩ : ∃ W, W = encLR sw 0x1C d.val a 0 t.code ∧ IsLR W sw 0x1C d.val a 0 0 0 t.code := ⟨_, rfl, IsLR.make sw 0x1C d.val a 0 0 0 t.code 0 (by first | rfl | (simp only [encB]; omega)) (by decide) (by omega) (by omega) (by omega) (by decide) (by first | omega | (simp only [b2n_false, b2n_true, F2.bit64] at *; omega)) a.reg.isLt (b2n_lt a.last) (b2n_lt sw)⟩
  rw [← hW]
  have e2 : fld W 24 6 = 28 := F.f24_6.trans (by first | rfl | omega | (simp only [b2n_false, b2n_true, F2.bit64] at *; omega))
  have e8 : fld W 3 2 = 0 := F.f3_2.trans (by first | rfl | omega | (simp only [b2n_false, b2n_true, F2.bit64] at *; omega))
  refine ⟨?_, F.lt⟩
  simp only [decodeWord, parseWord, parseL, parseU, lrA, lrB, lrBClean, lrNoB, lrNoA, lmA, lmD, fbit, fv, fs, fp, fq, fbv, fz, b2n_beq, fin_ofNat, bv_ofNat, Option.map_some, if_true, if_false, Bool.false_eq_true, Bool.not_false, Bool.not_true, Bool.true_or, Bool.or_true, Bool.false_or, Bool.and_self, Bool.true_and, Bool.and_true, Nat.reduceBEq, beq_self_eq_true, reduceIte, F2_of, F.f31_1, F.f30_1, e2, F.f18_6, F.f12_6, F.f5_1, F.f0_3, F.f6_6, e8]
  exact of_ok hwf
theorem rcpa (sw : Bool) (t : F2) (d : VReg) (a : VSrc) : Statement (.rcpa sw t d a) := by
  refine stmt_word rfl rfl fun hwf => ?_
  have h0 := b2n_lt sw
  have h1 := F2_lt t
  have h2 := d.isLt
  have h3 := a.reg.isLt
  have h4 := b2n_lt a.last
  obtain ⟨W, hW, F⟩ : ∃ W, W = encLR sw 0x1D d.val a 0 t.code ∧ IsLR W sw 0x1D d.val a 0 0 0 t.code := ⟨_, rfl, IsLR.make sw 0x1D d.val a 0 0 0 t.code 0 (by first | rfl | (simp only [encB]; omega)) (by decide) (by omega) (by omega) (by omega) (by decide) (by first | omega | (simp only [b2n_false, b2n_true, F2.bit64] at *; omega)) a.reg.isLt (b2n_lt a.last) (b2n_lt sw)⟩
  rw [← hW]
  have e2 : fld W 24 6 = 29 := F.f24_6.trans (by first | rfl | omega | (simp only [b2n_false, b2n_true, F2.bit64] at *; omega))
  have e8 : fld W 3 2 = 0 := F.f3_2.trans (by first | rfl | omega | (simp only [b2n_false, b2n_true, F2.bit64] at *; omega))
  refine ⟨?_, F.lt⟩
  simp only [decodeWord, parseWord, parseL, parseU, lrA, lrB, lrBClean, lrNoB, lrNoA, lmA, lmD, fbit, fv, fs, fp, fq, fbv, fz, b2n_beq, fin_ofNat, bv_ofNat, Option.map_some, if_true, if_false, Bool.false_eq_true, Bool.not_false, Bool.not_true, Bool.true_or, Bool.or_true, Bool.false_or, Bool.and_self, Bool.true_and, Bool.and_true, Nat.reduceBEq, beq_self_eq_true, reduceIte, F2_of, F.f31_1, F.f30_1, e2, F.f18_6, F.f12_6, F.f5_1, F.f0_3, F.f6_6, e8]
  exact of_ok hwf
theorem ex2a (sw : Bool) (t : F2) (d : VReg) (a : VSrc) : Statement (.ex2a sw t d a) := by
  refine stmt_word rfl rfl fun hwf => ?_
  have h0 := b2n_lt sw
  have h1 := F2_lt t
  have h2 := d.isLt
  have h3 := a.reg.isLt
  have h4 := b2n_lt a.last
  obtain ⟨W, hW, F⟩ : ∃ W, W = encLR sw 0x1E d.val a 0 t.code ∧ IsLR W sw 0x1E d.val a 0 0 0 t.code := ⟨_, rfl, IsLR.make sw 0x1E d.val a 0 0 0 t.code 0 (by first | rfl | (simp only [encB]; omega)) (by decide) (by omega) (by omega) (by omega) (by decide) (by first | omega | (simp only [b2n_false, b2n_true, F2.bit64] at *; omega)) a.reg.isLt (b2n_lt a.last) (b2n_lt sw)⟩
  rw [← hW]
  have e2 : fld W 24 6 = 30 := F.f24_6.trans (by first | rfl | omega | (simp only [b2n_false, b2n_true, F2.bit64] at *; omega))
  have e8 : fld W 3 2 = 0 := F.f3_2.trans (by first | rfl | omega | (simp only [b2n_false, b2n_true, F2.bit64] at *; omega))
  refine ⟨?_, F.lt⟩
  simp only [decodeWord, parseWord, parseL, parseU, lrA, lrB, lrBClean, lrNoB, lrNoA, lmA, lmD, fbit, fv, fs, fp, fq, fbv, fz, b2n_beq, fin_ofNat, bv_ofNat, Option.map_some, if_true, if_false, Bool.false_eq_true, Bool.not_false, Bool.not_true, Bool.true_or, Bool.or_true, Bool.false_or, Bool.and_self, Bool.true_and, Bool.and_true, Nat.reduceBEq, beq_self_eq_true, reduceIte, F2_of, F.f31_1, F.f30_1, e2, F.f18_6, F.f12_6, F.f5_1, F.f0_3, F.f6_6, e8]
  exact of_ok hwf
theorem lg2a (sw : Bool) (t : F2) (d : VReg) (a : VSrc) : Statement (.lg2a sw t d a) := by
  refine stmt_word rfl rfl fun hwf => ?_
  have h0 := b2n_lt sw
  have h1 := F2_lt t
  have h2 := d.isLt
  have h3 := a.reg.isLt
  have h4 := b2n_lt a.last
  obtain ⟨W, hW, F⟩ : ∃ W, W = encLR sw 0x1F d.val a 0 t.code ∧ IsLR W sw 0x1F d.val a 0 0 0 t.code := ⟨_, rfl, IsLR.make sw 0x1F d.val a 0 0 0 t.code 0 (by first | rfl | (simp only [encB]; omega)) (by decide) (by omega) (by omega) (by omega) (by decide) (by first | omega | (simp only [b2n_false, b2n_true, F2.bit64] at *; omega)) a.reg.isLt (b2n_lt a.last) (b2n_lt sw)⟩
  rw [← hW]
  have e2 : fld W 24 6 = 31 := F.f24_6.trans (by first | rfl | omega | (simp only [b2n_false, b2n_true, F2.bit64] at *; omega))
  have e8 : fld W 3 2 = 0 := F.f3_2.trans (by first | rfl | omega | (simp only [b2n_false, b2n_true, F2.bit64] at *; omega))
  refine ⟨?_, F.lt⟩
  simp only [decodeWord, parseWord, parseL, parseU, lrA, lrB, lrBClean, lrNoB, lrNoA, lmA, lmD, fbit, fv, fs, fp, fq, fbv, fz, b2n_beq, fin_ofNat, bv_ofNat, Option.map_some, if_true, if_false, Bool.false_eq_true, Bool.not_false, Bool.not_true, Bool.true_or, Bool.or_true, Bool.false_or, Bool.and_self, Bool.true_and, Bool.and_true, Nat.reduceBEq, beq_self_eq_true, reduceIte, F2_of, F.f31_1, F.f30_1, e2, F.f18_6, F.f12_6, F.f5_1, F.f0_3, F.f6_6, e8]
  exact of_ok hwf
theorem cvt (sw : Bool) (dst : Fmt) (src : Fmt) (d : VReg) (a : VReg) : Statement (.cvt sw dst src d a) := by
  refine stmt_word rfl rfl fun hwf => ?_
  have h0 := b2n_lt sw
  have h1 := d.isLt
  have h2 := a.isLt
  have hd := fmt_lt dst (fmt_cvt hwf).1
  have hs := fmt_lt src (fmt_cvt hwf).2
  obtain ⟨W, hW⟩ : ∃ W, W = encLC sw 0x20 d a dst.code src.code := ⟨_, rfl⟩
  rw [← hW]
  simp only [encLA, encLC, encHead, b2n_false, b2n_true, Nat.reducePow] at hW
  have e0 : fld W 31 1 = 0 := by unfold fld; omega
  have e1 : fld W 30 1 = b2n sw := by unfold fld; omega
  have e2 : fld W 24 6 = 32 := by unfold fld; omega
  have e3 : fld W 18 6 = d.val := by unfold fld; omega
  have e4 : fld W 12 6 = a.val := by unfold fld; omega
  have e5 : fld W 6 6 = dst.code := by unfold fld; omega
  have e6 : fld W 0 6 = src.code := by unfold fld; omega
  refine ⟨?_, by omega⟩
  simp only [decodeWord, parseWord, parseL, parseU, lrA, lrB, lrBClean, lrNoB, lrNoA, lmA, lmD, fbit, fv, fs, fp, fq, fbv, fz, b2n_beq, fin_ofNat, bv_ofNat, Option.map_some, if_true, if_false, Bool.false_eq_true, Bool.not_false, Bool.not_true, Bool.true_or, Bool.or_true, Bool.false_or, Bool.and_self, Bool.true_and, Bool.and_true, Nat.reduceBEq, beq_self_eq_true, reduceIte, fmt_of dst (fmt_cvt hwf).1, fmt_of src (fmt_cvt hwf).2, e0, e1, e2, e3, e4, e5, e6]
  exact of_ok hwf
theorem cvtsat (sw : Bool) (dst : Fmt) (src : Fmt) (d : VReg) (a : VReg) : Statement (.cvtsat sw dst src d a) := by
  refine stmt_word rfl rfl fun hwf => ?_
  have h0 := b2n_lt sw
  have h1 := d.isLt
  have h2 := a.isLt
  have hd := fmt_lt dst (fmt_cvtsat hwf).1
  have hs := fmt_lt src (fmt_cvtsat hwf).2
  obtain ⟨W, hW⟩ : ∃ W, W = encLC sw 0x21 d a dst.code src.code := ⟨_, rfl⟩
  rw [← hW]
  simp only [encLA, encLC, encHead, b2n_false, b2n_true, Nat.reducePow] at hW
  have e0 : fld W 31 1 = 0 := by unfold fld; omega
  have e1 : fld W 30 1 = b2n sw := by unfold fld; omega
  have e2 : fld W 24 6 = 33 := by unfold fld; omega
  have e3 : fld W 18 6 = d.val := by unfold fld; omega
  have e4 : fld W 12 6 = a.val := by unfold fld; omega
  have e5 : fld W 6 6 = dst.code := by unfold fld; omega
  have e6 : fld W 0 6 = src.code := by unfold fld; omega
  refine ⟨?_, by omega⟩
  simp only [decodeWord, parseWord, parseL, parseU, lrA, lrB, lrBClean, lrNoB, lrNoA, lmA, lmD, fbit, fv, fs, fp, fq, fbv, fz, b2n_beq, fin_ofNat, bv_ofNat, Option.map_some, if_true, if_false, Bool.false_eq_true, Bool.not_false, Bool.not_true, Bool.true_or, Bool.or_true, Bool.false_or, Bool.and_self, Bool.true_and, Bool.and_true, Nat.reduceBEq, beq_self_eq_true, reduceIte, fmt_of dst (fmt_cvtsat hwf).1, fmt_of src (fmt_cvtsat hwf).2, e0, e1, e2, e3, e4, e5, e6]
  exact of_ok hwf
theorem cvts (sw : Bool) (dst : Fmt) (d : VReg) (a : VReg) (b : VReg) : Statement (.cvts sw dst d a b) := by
  refine stmt_word rfl rfl fun hwf => ?_
  have h0 := b2n_lt sw
  have h1 := d.isLt
  have h2 := a.isLt
  have h3 := b.isLt
  have hd := fmt_lt dst (fmt_cvts hwf)
  obtain ⟨W, hW⟩ : ∃ W, W = encLC sw 0x22 d a b.val dst.code := ⟨_, rfl⟩
  rw [← hW]
  simp only [encLA, encLC, encHead, b2n_false, b2n_true, Nat.reducePow] at hW
  have e0 : fld W 31 1 = 0 := by unfold fld; omega
  have e1 : fld W 30 1 = b2n sw := by unfold fld; omega
  have e2 : fld W 24 6 = 34 := by unfold fld; omega
  have e3 : fld W 18 6 = d.val := by unfold fld; omega
  have e4 : fld W 12 6 = a.val := by unfold fld; omega
  have e5 : fld W 6 6 = b.val := by unfold fld; omega
  have e6 : fld W 0 6 = dst.code := by unfold fld; omega
  refine ⟨?_, by omega⟩
  simp only [decodeWord, parseWord, parseL, parseU, lrA, lrB, lrBClean, lrNoB, lrNoA, lmA, lmD, fbit, fv, fs, fp, fq, fbv, fz, b2n_beq, fin_ofNat, bv_ofNat, Option.map_some, if_true, if_false, Bool.false_eq_true, Bool.not_false, Bool.not_true, Bool.true_or, Bool.or_true, Bool.false_or, Bool.and_self, Bool.true_and, Bool.and_true, Nat.reduceBEq, beq_self_eq_true, reduceIte, fmt_of dst (fmt_cvts hwf), e0, e1, e2, e3, e4, e5, e6]
  exact of_ok hwf
theorem pack (sw : Bool) (f : Piece) (d : VReg) (a : VSrc) (b : BSrc) : Statement (.pack sw f d a b) := by
  refine stmt_word rfl rfl fun hwf => ?_
  cases b with
  | v r l =>
    have h0 := b2n_lt sw
    have h1 := Piece_lt f
    have h2 := d.isLt
    have h3 := a.reg.isLt
    have h4 := b2n_lt a.last
    have h5 := r.isLt
    have h6 := b2n_lt l
    obtain ⟨W, hW, F⟩ : ∃ W, W = encLR sw 0x23 d.val a (encB (.v r l)) f.code ∧ IsLR W sw 0x23 d.val a r.val (b2n l) 0 f.code := ⟨_, rfl, IsLR.make sw 0x23 d.val a r.val (b2n l) 0 f.code (encB (.v r l)) (by first | rfl | (simp only [encB]; omega)) (by decide) (by omega) (by omega) (by omega) (by decide) (by first | omega | (simp only [b2n_false, b2n_true, F2.bit64] at *; omega)) a.reg.isLt (b2n_lt a.last) (b2n_lt sw)⟩
    rw [← hW]
    have e2 : fld W 24 6 = 35 := F.f24_6.trans (by first | rfl | omega | (simp only [b2n_false, b2n_true, F2.bit64] at *; omega))
    refine ⟨?_, F.lt⟩
    simp only [decodeWord, parseWord, parseL, parseU, lrA, lrB, lrBClean, lrNoB, lrNoA, lmA, lmD, fbit, fv, fs, fp, fq, fbv, fz, b2n_beq, fin_ofNat, bv_ofNat, Option.map_some, if_true, if_false, Bool.false_eq_true, Bool.not_false, Bool.not_true, Bool.true_or, Bool.or_true, Bool.false_or, Bool.and_self, Bool.true_and, Bool.and_true, Nat.reduceBEq, beq_self_eq_true, reduceIte, Piece_of, F.f31_1, F.f30_1, e2, F.f18_6, F.f12_6, F.f5_1, F.f0_3, F.f6_6, F.f3_1, F.f4_1]
    exact of_ok hwf
  | s r =>
    have h0 := b2n_lt sw
    have h1 := Piece_lt f
    have h2 := d.isLt
    have h3 := a.reg.isLt
    have h4 := b2n_lt a.last
    have h5 := r.isLt
    obtain ⟨W, hW, F⟩ : ∃ W, W = encLR sw 0x23 d.val a (encB (.s r)) f.code ∧ IsLR W sw 0x23 d.val a r.val 0 1 f.code := ⟨_, rfl, IsLR.make sw 0x23 d.val a r.val 0 1 f.code (encB (.s r)) (by first | rfl | (simp only [encB]; omega)) (by decide) (by omega) (by omega) (by omega) (by decide) (by first | omega | (simp only [b2n_false, b2n_true, F2.bit64] at *; omega)) a.reg.isLt (b2n_lt a.last) (b2n_lt sw)⟩
    rw [← hW]
    have e2 : fld W 24 6 = 35 := F.f24_6.trans (by first | rfl | omega | (simp only [b2n_false, b2n_true, F2.bit64] at *; omega))
    have e7 : fld W 6 5 = r.val := F.f6_5.trans (by first | rfl | omega | (simp only [b2n_false, b2n_true, F2.bit64] at *; omega))
    have e10 : fld W 11 1 = 0 := F.f11_1.trans (by first | rfl | omega | (simp only [b2n_false, b2n_true, F2.bit64] at *; omega))
    refine ⟨?_, F.lt⟩
    simp only [decodeWord, parseWord, parseL, parseU, lrA, lrB, lrBClean, lrNoB, lrNoA, lmA, lmD, fbit, fv, fs, fp, fq, fbv, fz, b2n_beq, fin_ofNat, bv_ofNat, Option.map_some, if_true, if_false, Bool.false_eq_true, Bool.not_false, Bool.not_true, Bool.true_or, Bool.or_true, Bool.false_or, Bool.and_self, Bool.true_and, Bool.and_true, Nat.reduceBEq, beq_self_eq_true, reduceIte, Piece_of, F.f31_1, F.f30_1, e2, F.f18_6, F.f12_6, F.f5_1, F.f0_3, e7, F.f3_1, F.f4_1, e10]
    exact of_ok hwf
theorem unpk (sw : Bool) (f : Piece) (d : VReg) (a : VSrc) : Statement (.unpk sw f d a) := by
  refine stmt_word rfl rfl fun hwf => ?_
  have h0 := b2n_lt sw
  have h1 := Piece_lt f
  have h2 := d.isLt
  have h3 := a.reg.isLt
  have h4 := b2n_lt a.last
  obtain ⟨W, hW, F⟩ : ∃ W, W = encLR sw 0x24 d.val a 0 f.code ∧ IsLR W sw 0x24 d.val a 0 0 0 f.code := ⟨_, rfl, IsLR.make sw 0x24 d.val a 0 0 0 f.code 0 (by first | rfl | (simp only [encB]; omega)) (by decide) (by omega) (by omega) (by omega) (by decide) (by first | omega | (simp only [b2n_false, b2n_true, F2.bit64] at *; omega)) a.reg.isLt (b2n_lt a.last) (b2n_lt sw)⟩
  rw [← hW]
  have e2 : fld W 24 6 = 36 := F.f24_6.trans (by first | rfl | omega | (simp only [b2n_false, b2n_true, F2.bit64] at *; omega))
  have e8 : fld W 3 2 = 0 := F.f3_2.trans (by first | rfl | omega | (simp only [b2n_false, b2n_true, F2.bit64] at *; omega))
  refine ⟨?_, F.lt⟩
  simp only [decodeWord, parseWord, parseL, parseU, lrA, lrB, lrBClean, lrNoB, lrNoA, lmA, lmD, fbit, fv, fs, fp, fq, fbv, fz, b2n_beq, fin_ofNat, bv_ofNat, Option.map_some, if_true, if_false, Bool.false_eq_true, Bool.not_false, Bool.not_true, Bool.true_or, Bool.or_true, Bool.false_or, Bool.and_self, Bool.true_and, Bool.and_true, Nat.reduceBEq, beq_self_eq_true, reduceIte, Piece_of, F.f31_1, F.f30_1, e2, F.f18_6, F.f12_6, F.f5_1, F.f0_3, F.f6_6, e8]
  exact of_ok hwf
theorem scle (sw : Bool) (t : F4) (d : VReg) (a : VSrc) (b : BSrc) : Statement (.scle sw t d a b) := by
  refine stmt_word rfl rfl fun hwf => ?_
  cases b with
  | v r l =>
    have h0 := b2n_lt sw
    have h1 := F4_lt t
    have h2 := d.isLt
    have h3 := a.reg.isLt
    have h4 := b2n_lt a.last
    have h5 := r.isLt
    have h6 := b2n_lt l
    obtain ⟨W, hW, F⟩ : ∃ W, W = encLR sw 0x25 d.val a (encB (.v r l)) t.code ∧ IsLR W sw 0x25 d.val a r.val (b2n l) 0 t.code := ⟨_, rfl, IsLR.make sw 0x25 d.val a r.val (b2n l) 0 t.code (encB (.v r l)) (by first | rfl | (simp only [encB]; omega)) (by decide) (by omega) (by omega) (by omega) (by decide) (by first | omega | (simp only [b2n_false, b2n_true, F2.bit64] at *; omega)) a.reg.isLt (b2n_lt a.last) (b2n_lt sw)⟩
    rw [← hW]
    have e2 : fld W 24 6 = 37 := F.f24_6.trans (by first | rfl | omega | (simp only [b2n_false, b2n_true, F2.bit64] at *; omega))
    refine ⟨?_, F.lt⟩
    simp only [decodeWord, parseWord, parseL, parseU, lrA, lrB, lrBClean, lrNoB, lrNoA, lmA, lmD, fbit, fv, fs, fp, fq, fbv, fz, b2n_beq, fin_ofNat, bv_ofNat, Option.map_some, if_true, if_false, Bool.false_eq_true, Bool.not_false, Bool.not_true, Bool.true_or, Bool.or_true, Bool.false_or, Bool.and_self, Bool.true_and, Bool.and_true, Nat.reduceBEq, beq_self_eq_true, reduceIte, F4_of, F.f31_1, F.f30_1, e2, F.f18_6, F.f12_6, F.f5_1, F.f0_3, F.f6_6, F.f3_1, F.f4_1]
    exact of_ok hwf
  | s r =>
    have h0 := b2n_lt sw
    have h1 := F4_lt t
    have h2 := d.isLt
    have h3 := a.reg.isLt
    have h4 := b2n_lt a.last
    have h5 := r.isLt
    obtain ⟨W, hW, F⟩ : ∃ W, W = encLR sw 0x25 d.val a (encB (.s r)) t.code ∧ IsLR W sw 0x25 d.val a r.val 0 1 t.code := ⟨_, rfl, IsLR.make sw 0x25 d.val a r.val 0 1 t.code (encB (.s r)) (by first | rfl | (simp only [encB]; omega)) (by decide) (by omega) (by omega) (by omega) (by decide) (by first | omega | (simp only [b2n_false, b2n_true, F2.bit64] at *; omega)) a.reg.isLt (b2n_lt a.last) (b2n_lt sw)⟩
    rw [← hW]
    have e2 : fld W 24 6 = 37 := F.f24_6.trans (by first | rfl | omega | (simp only [b2n_false, b2n_true, F2.bit64] at *; omega))
    have e7 : fld W 6 5 = r.val := F.f6_5.trans (by first | rfl | omega | (simp only [b2n_false, b2n_true, F2.bit64] at *; omega))
    have e10 : fld W 11 1 = 0 := F.f11_1.trans (by first | rfl | omega | (simp only [b2n_false, b2n_true, F2.bit64] at *; omega))
    refine ⟨?_, F.lt⟩
    simp only [decodeWord, parseWord, parseL, parseU, lrA, lrB, lrBClean, lrNoB, lrNoA, lmA, lmD, fbit, fv, fs, fp, fq, fbv, fz, b2n_beq, fin_ofNat, bv_ofNat, Option.map_some, if_true, if_false, Bool.false_eq_true, Bool.not_false, Bool.not_true, Bool.true_or, Bool.or_true, Bool.false_or, Bool.and_self, Bool.true_and, Bool.and_true, Nat.reduceBEq, beq_self_eq_true, reduceIte, F4_of, F.f31_1, F.f30_1, e2, F.f18_6, F.f12_6, F.f5_1, F.f0_3, e7, F.f3_1, F.f4_1, e10]
    exact of_ok hwf
theorem matchLanes (sw : Bool) (t : MatchTy) (d : VReg) (a : VSrc) : Statement (.matchLanes sw t d a) := by
  refine stmt_word rfl rfl fun hwf => ?_
  have h0 := b2n_lt sw
  have h1 := MatchTy_lt t
  have h2 := d.isLt
  have h3 := a.reg.isLt
  have h4 := b2n_lt a.last
  obtain ⟨W, hW, F⟩ : ∃ W, W = encLR sw 0x26 d.val a 0 t.code ∧ IsLR W sw 0x26 d.val a 0 0 0 t.code := ⟨_, rfl, IsLR.make sw 0x26 d.val a 0 0 0 t.code 0 (by first | rfl | (simp only [encB]; omega)) (by decide) (by omega) (by omega) (by omega) (by decide) (by first | omega | (simp only [b2n_false, b2n_true, F2.bit64] at *; omega)) a.reg.isLt (b2n_lt a.last) (b2n_lt sw)⟩
  rw [← hW]
  have e2 : fld W 24 6 = 38 := F.f24_6.trans (by first | rfl | omega | (simp only [b2n_false, b2n_true, F2.bit64] at *; omega))
  have e8 : fld W 3 2 = 0 := F.f3_2.trans (by first | rfl | omega | (simp only [b2n_false, b2n_true, F2.bit64] at *; omega))
  refine ⟨?_, F.lt⟩
  simp only [decodeWord, parseWord, parseL, parseU, lrA, lrB, lrBClean, lrNoB, lrNoA, lmA, lmD, fbit, fv, fs, fp, fq, fbv, fz, b2n_beq, fin_ofNat, bv_ofNat, Option.map_some, if_true, if_false, Bool.false_eq_true, Bool.not_false, Bool.not_true, Bool.true_or, Bool.or_true, Bool.false_or, Bool.and_self, Bool.true_and, Bool.and_true, Nat.reduceBEq, beq_self_eq_true, reduceIte, MatchTy_of, F.f31_1, F.f30_1, e2, F.f18_6, F.f12_6, F.f5_1, F.f0_3, F.f6_6, e8]
  exact of_ok hwf
theorem lsr (sw : Bool) (r : LaneSpec) (d : VReg) : Statement (.lsr sw r d) := by
  refine stmt_word rfl rfl fun hwf => ?_
  have h0 := b2n_lt sw
  have h1 := LaneSpec_lt r
  have h2 := d.isLt
  obtain ⟨W, hW⟩ : ∃ W, W = encHead false sw 0x27 + 2 ^ 18 * d.val + 2 ^ 6 * r.code := ⟨_, rfl⟩
  rw [← hW]
  simp only [encLA, encLC, encHead, b2n_false, b2n_true, Nat.reducePow] at hW
  have e0 : fld W 31 1 = 0 := by unfold fld; omega
  have e1 : fld W 30 1 = b2n sw := by unfold fld; omega
  have e2 : fld W 24 6 = 39 := by unfold fld; omega
  have e3 : fld W 18 6 = d.val := by unfold fld; omega
  have e4 : fld W 12 6 = 0 := by unfold fld; omega
  have e5 : fld W 5 1 = 0 := by unfold fld; omega
  have e6 : fld W 3 2 = 0 := by unfold fld; omega
  have e7 : fld W 0 3 = 0 := by unfold fld; omega
  have e8 : fld W 6 6 = r.code := by unfold fld; omega
  refine ⟨?_, by omega⟩
  simp only [decodeWord, parseWord, parseL, parseU, lrA, lrB, lrBClean, lrNoB, lrNoA, lmA, lmD, fbit, fv, fs, fp, fq, fbv, fz, b2n_beq, fin_ofNat, bv_ofNat, Option.map_some, if_true, if_false, Bool.false_eq_true, Bool.not_false, Bool.not_true, Bool.true_or, Bool.or_true, Bool.false_or, Bool.and_self, Bool.true_and, Bool.and_true, Nat.reduceBEq, beq_self_eq_true, reduceIte, LaneSpec_of, e0, e1, e2, e3, e4, e5, e6, e7, e8]
  exact of_ok hwf
theorem movi (sw : Bool) (d : VReg) (k : BitVec 18) : Statement (.movi sw d k) := by
  refine stmt_word rfl rfl fun hwf => ?_
  have h0 := b2n_lt sw
  have h1 := d.isLt
  have h2 := k.isLt
  obtain ⟨W, hW⟩ : ∃ W, W = encHead false sw 0x28 + 2 ^ 18 * d.val + k.toNat := ⟨_, rfl⟩
  rw [← hW]
  simp only [encLA, encLC, encHead, b2n_false, b2n_true, Nat.reducePow] at hW
  have e0 : fld W 31 1 = 0 := by unfold fld; omega
  have e1 : fld W 30 1 = b2n sw := by unfold fld; omega
  have e2 : fld W 24 6 = 40 := by unfold fld; omega
  have e3 : fld W 18 6 = d.val := by unfold fld; omega
  have e4 : fld W 0 18 = k.toNat := by unfold fld; omega
  refine ⟨?_, by omega⟩
  simp only [decodeWord, parseWord, parseL, parseU, lrA, lrB, lrBClean, lrNoB, lrNoA, lmA, lmD, fbit, fv, fs, fp, fq, fbv, fz, b2n_beq, fin_ofNat, bv_ofNat, Option.map_some, if_true, if_false, Bool.false_eq_true, Bool.not_false, Bool.not_true, Bool.true_or, Bool.or_true, Bool.false_or, Bool.and_self, Bool.true_and, Bool.and_true, Nat.reduceBEq, beq_self_eq_true, reduceIte, e0, e1, e2, e3, e4]
  exact of_ok hwf
theorem movu (sw : Bool) (w64 : Bool) (d : VReg) (b : SReg) : Statement (.movu sw w64 d b) := by
  refine stmt_word rfl rfl fun hwf => ?_
  cases w64 with
  | false =>
    have h0 := b2n_lt sw
    have h1 := d.isLt
    have h2 := b.isLt
    obtain ⟨W, hW⟩ : ∃ W, W = encHead false sw 0x29 + 2 ^ 18 * d.val + 2 ^ 6 * b.val + 2 ^ 3 + b2n false := ⟨_, rfl⟩
    rw [← hW]
    simp only [encLA, encLC, encHead, b2n_false, b2n_true, Nat.reducePow] at hW
    have e0 : fld W 31 1 = 0 := by unfold fld; omega
    have e1 : fld W 30 1 = b2n sw := by unfold fld; omega
    have e2 : fld W 24 6 = 41 := by unfold fld; omega
    have e3 : fld W 18 6 = d.val := by unfold fld; omega
    have e4 : fld W 12 6 = 0 := by unfold fld; omega
    have e5 : fld W 5 1 = 0 := by unfold fld; omega
    have e6 : fld W 6 5 = b.val := by unfold fld; omega
    have e7 : fld W 3 1 = 1 := by unfold fld; omega
    have e8 : fld W 4 1 = 0 := by unfold fld; omega
    have e9 : fld W 11 1 = 0 := by unfold fld; omega
    have e10 : fld W 0 3 = 0 := by unfold fld; omega
    refine ⟨?_, by omega⟩
    simp only [decodeWord, parseWord, parseL, parseU, lrA, lrB, lrBClean, lrNoB, lrNoA, lmA, lmD, fbit, fv, fs, fp, fq, fbv, fz, b2n_beq, fin_ofNat, bv_ofNat, Option.map_some, if_true, if_false, Bool.false_eq_true, Bool.not_false, Bool.not_true, Bool.true_or, Bool.or_true, Bool.false_or, Bool.and_self, Bool.true_and, Bool.and_true, Nat.reduceBEq, beq_self_eq_true, reduceIte, Nat.reduceEqDiff, Nat.reduceEqDiff, Nat.one_ne_zero, e0, e1, e2, e3, e4, e5, e6, e7, e8, e9, e10]
    exact of_ok hwf
  | true =>
    have h0 := b2n_lt sw
    have h1 := d.isLt
    have h2 := b.isLt
    obtain ⟨W, hW⟩ : ∃ W, W = encHead false sw 0x29 + 2 ^ 18 * d.val + 2 ^ 6 * b.val + 2 ^ 3 + b2n true := ⟨_, rfl⟩
    rw [← hW]
    simp only [encLA, encLC, encHead, b2n_false, b2n_true, Nat.reducePow] at hW
    have e0 : fld W 31 1 = 0 := by unfold fld; omega
    have e1 : fld W 30 1 = b2n sw := by unfold fld; omega
    have e2 : fld W 24 6 = 41 := by unfold fld; omega
    have e3 : fld W 18 6 = d.val := by unfold fld; omega
    have e4 : fld W 12 6 = 0 := by unfold fld; omega
    have e5 : fld W 5 1 = 0 := by unfold fld; omega
    have e6 : fld W 6 5 = b.val := by unfold fld; omega
    have e7 : fld W 3 1 = 1 := by unfold fld; omega
    have e8 : fld W 4 1 = 0 := by unfold fld; omega
    have e9 : fld W 11 1 = 0 := by unfold fld; omega
    have e10 : fld W 0 3 = 1 := by unfold fld; omega
    refine ⟨?_, by omega⟩
    simp only [decodeWord, parseWord, parseL, parseU, lrA, lrB, lrBClean, lrNoB, lrNoA, lmA, lmD, fbit, fv, fs, fp, fq, fbv, fz, b2n_beq, fin_ofNat, bv_ofNat, Option.map_some, if_true, if_false, Bool.false_eq_true, Bool.not_false, Bool.not_true, Bool.true_or, Bool.or_true, Bool.false_or, Bool.and_self, Bool.true_and, Bool.and_true, Nat.reduceBEq, beq_self_eq_true, reduceIte, Nat.reduceEqDiff, Nat.reduceEqDiff, Nat.one_ne_zero, e0, e1, e2, e3, e4, e5, e6, e7, e8, e9, e10]
    exact of_ok hwf
theorem sel (sw : Bool) (p : PReg) (d : VReg) (a : VSrc) (b : BSrc) : Statement (.sel sw p d a b) := by
  refine stmt_word rfl rfl fun hwf => ?_
  cases b with
  | v r l =>
    have h0 := b2n_lt sw
    have h1 := p.isLt
    have h2 := d.isLt
    have h3 := a.reg.isLt
    have h4 := b2n_lt a.last
    have h5 := r.isLt
    have h6 := b2n_lt l
    obtain ⟨W, hW, F⟩ : ∃ W, W = encLR sw 0x2A d.val a (encB (.v r l)) p.val ∧ IsLR W sw 0x2A d.val a r.val (b2n l) 0 p.val := ⟨_, rfl, IsLR.make sw 0x2A d.val a r.val (b2n l) 0 p.val (encB (.v r l)) (by first | rfl | (simp only [encB]; omega)) (by decide) (by omega) (by omega) (by omega) (by decide) (by first | omega | (simp only [b2n_false, b2n_true, F2.bit64] at *; omega)) a.reg.isLt (b2n_lt a.last) (b2n_lt sw)⟩
    rw [← hW]
    have e2 : fld W 24 6 = 42 := F.f24_6.trans (by first | rfl | omega | (simp only [b2n_false, b2n_true, F2.bit64] at *; omega))
    refine ⟨?_, F.lt⟩
    simp only [decodeWord, parseWord, parseL, parseU, lrA, lrB, lrBClean, lrNoB, lrNoA, lmA, lmD, fbit, fv, fs, fp, fq, fbv, fz, b2n_beq, fin_ofNat, bv_ofNat, Option.map_some, if_true, if_false, Bool.false_eq_true, Bool.not_false, Bool.not_true, Bool.true_or, Bool.or_true, Bool.false_or, Bool.and_self, Bool.true_and, Bool.and_true, Nat.reduceBEq, beq_self_eq_true, reduceIte, F.f31_1, F.f30_1, e2, F.f18_6, F.f12_6, F.f5_1, F.f0_3, F.f6_6, F.f3_1, F.f4_1]
    exact of_ok hwf
  | s r =>
    have h0 := b2n_lt sw
    have h1 := p.isLt
    have h2 := d.isLt
    have h3 := a.reg.isLt
    have h4 := b2n_lt a.last
    have h5 := r.isLt
    obtain ⟨W, hW, F⟩ : ∃ W, W = encLR sw 0x2A d.val a (encB (.s r)) p.val ∧ IsLR W sw 0x2A d.val a r.val 0 1 p.val := ⟨_, rfl, IsLR.make sw 0x2A d.val a r.val 0 1 p.val (encB (.s r)) (by first | rfl | (simp only [encB]; omega)) (by decide) (by omega) (by omega) (by omega) (by decide) (by first | omega | (simp only [b2n_false, b2n_true, F2.bit64] at *; omega)) a.reg.isLt (b2n_lt a.last) (b2n_lt sw)⟩
    rw [← hW]
    have e2 : fld W 24 6 = 42 := F.f24_6.trans (by first | rfl | omega | (simp only [b2n_false, b2n_true, F2.bit64] at *; omega))
    have e7 : fld W 6 5 = r.val := F.f6_5.trans (by first | rfl | omega | (simp only [b2n_false, b2n_true, F2.bit64] at *; omega))
    have e10 : fld W 11 1 = 0 := F.f11_1.trans (by first | rfl | omega | (simp only [b2n_false, b2n_true, F2.bit64] at *; omega))
    refine ⟨?_, F.lt⟩
    simp only [decodeWord, parseWord, parseL, parseU, lrA, lrB, lrBClean, lrNoB, lrNoA, lmA, lmD, fbit, fv, fs, fp, fq, fbv, fz, b2n_beq, fin_ofNat, bv_ofNat, Option.map_some, if_true, if_false, Bool.false_eq_true, Bool.not_false, Bool.not_true, Bool.true_or, Bool.or_true, Bool.false_or, Bool.and_self, Bool.true_and, Bool.and_true, Nat.reduceBEq, beq_self_eq_true, reduceIte, F.f31_1, F.f30_1, e2, F.f18_6, F.f12_6, F.f5_1, F.f0_3, e7, F.f3_1, F.f4_1, e10]
    exact of_ok hwf
theorem shfl (sw : Bool) (m : Shf4) (d : VReg) (a : VSrc) (b : BSrc) : Statement (.shfl sw m d a b) := by
  refine stmt_word rfl rfl fun hwf => ?_
  cases b with
  | v r l =>
    have h0 := b2n_lt sw
    have h1 := Shf4_lt m
    have h2 := d.isLt
    have h3 := a.reg.isLt
    have h4 := b2n_lt a.last
    have h5 := r.isLt
    have h6 := b2n_lt l
    obtain ⟨W, hW, F⟩ : ∃ W, W = encLR sw 0x2B d.val a (encB (.v r l)) m.code ∧ IsLR W sw 0x2B d.val a r.val (b2n l) 0 m.code := ⟨_, rfl, IsLR.make sw 0x2B d.val a r.val (b2n l) 0 m.code (encB (.v r l)) (by first | rfl | (simp only [encB]; omega)) (by decide) (by omega) (by omega) (by omega) (by decide) (by first | omega | (simp only [b2n_false, b2n_true, F2.bit64] at *; omega)) a.reg.isLt (b2n_lt a.last) (b2n_lt sw)⟩
    rw [← hW]
    have e2 : fld W 24 6 = 43 := F.f24_6.trans (by first | rfl | omega | (simp only [b2n_false, b2n_true, F2.bit64] at *; omega))
    refine ⟨?_, F.lt⟩
    simp only [decodeWord, parseWord, parseL, parseU, lrA, lrB, lrBClean, lrNoB, lrNoA, lmA, lmD, fbit, fv, fs, fp, fq, fbv, fz, b2n_beq, fin_ofNat, bv_ofNat, Option.map_some, if_true, if_false, Bool.false_eq_true, Bool.not_false, Bool.not_true, Bool.true_or, Bool.or_true, Bool.false_or, Bool.and_self, Bool.true_and, Bool.and_true, Nat.reduceBEq, beq_self_eq_true, reduceIte, Shf4_of, F.f31_1, F.f30_1, e2, F.f18_6, F.f12_6, F.f5_1, F.f0_3, F.f6_6, F.f3_1, F.f4_1]
    exact of_ok hwf
  | s r =>
    have h0 := b2n_lt sw
    have h1 := Shf4_lt m
    have h2 := d.isLt
    have h3 := a.reg.isLt
    have h4 := b2n_lt a.last
    have h5 := r.isLt
    obtain ⟨W, hW, F⟩ : ∃ W, W = encLR sw 0x2B d.val a (encB (.s r)) m.code ∧ IsLR W sw 0x2B d.val a r.val 0 1 m.code := ⟨_, rfl, IsLR.make sw 0x2B d.val a r.val 0 1 m.code (encB (.s r)) (by first | rfl | (simp only [encB]; omega)) (by decide) (by omega) (by omega) (by omega) (by decide) (by first | omega | (simp only [b2n_false, b2n_true, F2.bit64] at *; omega)) a.reg.isLt (b2n_lt a.last) (b2n_lt sw)⟩
    rw [← hW]
    have e2 : fld W 24 6 = 43 := F.f24_6.trans (by first | rfl | omega | (simp only [b2n_false, b2n_true, F2.bit64] at *; omega))
    have e7 : fld W 6 5 = r.val := F.f6_5.trans (by first | rfl | omega | (simp only [b2n_false, b2n_true, F2.bit64] at *; omega))
    have e10 : fld W 11 1 = 0 := F.f11_1.trans (by first | rfl | omega | (simp only [b2n_false, b2n_true, F2.bit64] at *; omega))
    refine ⟨?_, F.lt⟩
    simp only [decodeWord, parseWord, parseL, parseU, lrA, lrB, lrBClean, lrNoB, lrNoA, lmA, lmD, fbit, fv, fs, fp, fq, fbv, fz, b2n_beq, fin_ofNat, bv_ofNat, Option.map_some, if_true, if_false, Bool.false_eq_true, Bool.not_false, Bool.not_true, Bool.true_or, Bool.or_true, Bool.false_or, Bool.and_self, Bool.true_and, Bool.and_true, Nat.reduceBEq, beq_self_eq_true, reduceIte, Shf4_of, F.f31_1, F.f30_1, e2, F.f18_6, F.f12_6, F.f5_1, F.f0_3, e7, F.f3_1, F.f4_1, e10]
    exact of_ok hwf
theorem vote (sw : Bool) (m : Vote5) (d : SReg) (p : PReg) : Statement (.vote sw m d p) := by
  refine stmt_word rfl rfl fun hwf => ?_
  have h0 := b2n_lt sw
  have h1 := Vote5_lt m
  have h2 := d.isLt
  have h3 := p.isLt
  obtain ⟨W, hW⟩ : ∃ W, W = encHead false sw 0x2C + 2 ^ 18 * d.val + 2 ^ 12 * p.val + m.code := ⟨_, rfl⟩
  rw [← hW]
  simp only [encLA, encLC, encHead, b2n_false, b2n_true, Nat.reducePow] at hW
  have e0 : fld W 31 1 = 0 := by unfold fld; omega
  have e1 : fld W 30 1 = b2n sw := by unfold fld; omega
  have e2 : fld W 24 6 = 44 := by unfold fld; omega
  have e3 : fld W 18 5 = d.val := by unfold fld; omega
  have e4 : fld W 12 3 = p.val := by unfold fld; omega
  have e5 : fld W 0 3 = m.code := by unfold fld; omega
  have e6 : fld W 6 6 = 0 := by unfold fld; omega
  have e7 : fld W 3 2 = 0 := by unfold fld; omega
  have e8 : fld W 23 1 = 0 := by unfold fld; omega
  have e9 : fld W 15 3 = 0 := by unfold fld; omega
  have e10 : fld W 5 1 = 0 := by unfold fld; omega
  refine ⟨?_, by omega⟩
  simp only [decodeWord, parseWord, parseL, parseU, lrA, lrB, lrBClean, lrNoB, lrNoA, lmA, lmD, fbit, fv, fs, fp, fq, fbv, fz, b2n_beq, fin_ofNat, bv_ofNat, Option.map_some, if_true, if_false, Bool.false_eq_true, Bool.not_false, Bool.not_true, Bool.true_or, Bool.or_true, Bool.false_or, Bool.and_self, Bool.true_and, Bool.and_true, Nat.reduceBEq, beq_self_eq_true, reduceIte, Vote5_of, e0, e1, e2, e3, e4, e5, e6, e7, e8, e9, e10]
  exact of_ok hwf
theorem redl (sw : Bool) (t : LaneTy) (op : Red6) (d : VReg) (a : VSrc) : Statement (.redl sw t op d a) := by
  refine stmt_word rfl rfl fun hwf => ?_
  have h0 := b2n_lt sw
  have h1 := LaneTy_lt t
  have h2 := Red6_lt op
  have h3 := d.isLt
  have h4 := a.reg.isLt
  have h5 := b2n_lt a.last
  obtain ⟨W, hW, F⟩ : ∃ W, W = encLR sw 0x2D d.val a (2 ^ 6 * op.code) t.code ∧ IsLR W sw 0x2D d.val a op.code 0 0 t.code := ⟨_, rfl, IsLR.make sw 0x2D d.val a op.code 0 0 t.code (2 ^ 6 * op.code) (by first | rfl | (simp only [encB]; omega)) (by decide) (by omega) (by omega) (by omega) (by decide) (by first | omega | (simp only [b2n_false, b2n_true, F2.bit64] at *; omega)) a.reg.isLt (b2n_lt a.last) (b2n_lt sw)⟩
  rw [← hW]
  have e2 : fld W 24 6 = 45 := F.f24_6.trans (by first | rfl | omega | (simp only [b2n_false, b2n_true, F2.bit64] at *; omega))
  have e7 : fld W 6 3 = op.code := F.f6_3.trans (by first | rfl | omega | (simp only [b2n_false, b2n_true, F2.bit64] at *; omega))
  have e8 : fld W 9 3 = 0 := F.f9_3.trans (by first | rfl | omega | (simp only [b2n_false, b2n_true, F2.bit64] at *; omega))
  have e9 : fld W 3 2 = 0 := F.f3_2.trans (by first | rfl | omega | (simp only [b2n_false, b2n_true, F2.bit64] at *; omega))
  refine ⟨?_, F.lt⟩
  simp only [decodeWord, parseWord, parseL, parseU, lrA, lrB, lrBClean, lrNoB, lrNoA, lmA, lmD, fbit, fv, fs, fp, fq, fbv, fz, b2n_beq, fin_ofNat, bv_ofNat, Option.map_some, if_true, if_false, Bool.false_eq_true, Bool.not_false, Bool.not_true, Bool.true_or, Bool.or_true, Bool.false_or, Bool.and_self, Bool.true_and, Bool.and_true, Nat.reduceBEq, beq_self_eq_true, reduceIte, LaneTy_of, Red6_of, F.f31_1, F.f30_1, e2, F.f18_6, F.f12_6, F.f5_1, F.f0_3, e7, e8, e9]
  exact of_ok hwf
theorem scanl (sw : Bool) (t : LaneTy) (op : Red6) (d : VReg) (a : VSrc) : Statement (.scanl sw t op d a) := by
  refine stmt_word rfl rfl fun hwf => ?_
  have h0 := b2n_lt sw
  have h1 := LaneTy_lt t
  have h2 := Red6_lt op
  have h3 := d.isLt
  have h4 := a.reg.isLt
  have h5 := b2n_lt a.last
  obtain ⟨W, hW, F⟩ : ∃ W, W = encLR sw 0x2E d.val a (2 ^ 6 * op.code) t.code ∧ IsLR W sw 0x2E d.val a op.code 0 0 t.code := ⟨_, rfl, IsLR.make sw 0x2E d.val a op.code 0 0 t.code (2 ^ 6 * op.code) (by first | rfl | (simp only [encB]; omega)) (by decide) (by omega) (by omega) (by omega) (by decide) (by first | omega | (simp only [b2n_false, b2n_true, F2.bit64] at *; omega)) a.reg.isLt (b2n_lt a.last) (b2n_lt sw)⟩
  rw [← hW]
  have e2 : fld W 24 6 = 46 := F.f24_6.trans (by first | rfl | omega | (simp only [b2n_false, b2n_true, F2.bit64] at *; omega))
  have e7 : fld W 6 3 = op.code := F.f6_3.trans (by first | rfl | omega | (simp only [b2n_false, b2n_true, F2.bit64] at *; omega))
  have e8 : fld W 9 3 = 0 := F.f9_3.trans (by first | rfl | omega | (simp only [b2n_false, b2n_true, F2.bit64] at *; omega))
  have e9 : fld W 3 2 = 0 := F.f3_2.trans (by first | rfl | omega | (simp only [b2n_false, b2n_true, F2.bit64] at *; omega))
  refine ⟨?_, F.lt⟩
  simp only [decodeWord, parseWord, parseL, parseU, lrA, lrB, lrBClean, lrNoB, lrNoA, lmA, lmD, fbit, fv, fs, fp, fq, fbv, fz, b2n_beq, fin_ofNat, bv_ofNat, Option.map_some, if_true, if_false, Bool.false_eq_true, Bool.not_false, Bool.not_true, Bool.true_or, Bool.or_true, Bool.false_or, Bool.and_self, Bool.true_and, Bool.and_true, Nat.reduceBEq, beq_self_eq_true, reduceIte, LaneTy_of, Red6_of, F.f31_1, F.f30_1, e2, F.f18_6, F.f12_6, F.f5_1, F.f0_3, e7, e8, e9]
  exact of_ok hwf
theorem topk (sw : Bool) (k : Fin 8) (d : VReg) (a : VSrc) : Statement (.topk sw k d a) := by
  refine stmt_word rfl rfl fun hwf => ?_
  have h0 := b2n_lt sw
  have h1 := k.isLt
  have h2 := d.isLt
  have h3 := a.reg.isLt
  have h4 := b2n_lt a.last
  obtain ⟨W, hW, F⟩ : ∃ W, W = encLR sw 0x2F d.val a 0 k.val ∧ IsLR W sw 0x2F d.val a 0 0 0 k.val := ⟨_, rfl, IsLR.make sw 0x2F d.val a 0 0 0 k.val 0 (by first | rfl | (simp only [encB]; omega)) (by decide) (by omega) (by omega) (by omega) (by decide) (by first | omega | (simp only [b2n_false, b2n_true, F2.bit64] at *; omega)) a.reg.isLt (b2n_lt a.last) (b2n_lt sw)⟩
  rw [← hW]
  have e2 : fld W 24 6 = 47 := F.f24_6.trans (by first | rfl | omega | (simp only [b2n_false, b2n_true, F2.bit64] at *; omega))
  have e8 : fld W 3 2 = 0 := F.f3_2.trans (by first | rfl | omega | (simp only [b2n_false, b2n_true, F2.bit64] at *; omega))
  refine ⟨?_, F.lt⟩
  simp only [decodeWord, parseWord, parseL, parseU, lrA, lrB, lrBClean, lrNoB, lrNoA, lmA, lmD, fbit, fv, fs, fp, fq, fbv, fz, b2n_beq, fin_ofNat, bv_ofNat, Option.map_some, if_true, if_false, Bool.false_eq_true, Bool.not_false, Bool.not_true, Bool.true_or, Bool.or_true, Bool.false_or, Bool.and_self, Bool.true_and, Bool.and_true, Nat.reduceBEq, beq_self_eq_true, reduceIte, F.f31_1, F.f30_1, e2, F.f18_6, F.f12_6, F.f5_1, F.f0_3, F.f6_6, e8]
  exact of_ok hwf
theorem ld (sw : Bool) (t : MemTy) (h : Hint) (d : VReg) (a : VSrc) (s : SReg) : Statement (.ld sw t h d a s) := by
  refine stmt_word rfl rfl fun hwf => ?_
  have h0 := b2n_lt sw
  have h1 := MemTy_lt t
  have h2 := Hint_lt h
  have h3 := d.isLt
  have h4 := a.reg.isLt
  have h5 := b2n_lt a.last
  have h6 := s.isLt
  obtain ⟨W, hW, F⟩ : ∃ W, W = encLM sw 0x30 ⟨d, false⟩ a s t h.code ∧ IsLM W sw 0x30 ⟨d, false⟩ a s t h.code := ⟨_, rfl, IsLM.make sw 0x30 ⟨d, false⟩ a s t h.code (by decide) (by omega) (MemTy_lt t) s.isLt ((⟨d, false⟩ : VSrc)).reg.isLt (b2n_lt _) a.reg.isLt (b2n_lt a.last) (b2n_lt sw)⟩
  rw [← hW]
  have e2 : fld W 24 6 = 48 := F.f24_6.trans (by first | rfl | omega | (simp only [b2n_false, b2n_true, F2.bit64] at *; omega))
  have e6 : fld W 10 1 = 0 := F.f10_1.trans (by first | rfl | omega | (simp only [b2n_false, b2n_true, F2.bit64] at *; omega))
  refine ⟨?_, F.lt⟩
  simp only [decodeWord, parseWord, parseL, parseU, lrA, lrB, lrBClean, lrNoB, lrNoA, lmA, lmD, fbit, fv, fs, fp, fq, fbv, fz, b2n_beq, fin_ofNat, bv_ofNat, Option.map_some, if_true, if_false, Bool.false_eq_true, Bool.not_false, Bool.not_true, Bool.true_or, Bool.or_true, Bool.false_or, Bool.and_self, Bool.true_and, Bool.and_true, Nat.reduceBEq, beq_self_eq_true, reduceIte, Hint_of, MemTy_of, F.f31_1, F.f30_1, e2, F.f18_6, F.f12_6, F.f11_1, e6, F.f5_5, F.f2_3, F.f0_2]
  exact of_ok hwf
theorem st (sw : Bool) (t : MemTy) (h : Hint) (d : VSrc) (a : VSrc) (s : SReg) : Statement (.st sw t h d a s) := by
  refine stmt_word rfl rfl fun hwf => ?_
  have h0 := b2n_lt sw
  have h1 := MemTy_lt t
  have h2 := Hint_lt h
  have h3 := d.reg.isLt
  have h4 := b2n_lt d.last
  have h5 := a.reg.isLt
  have h6 := b2n_lt a.last
  have h7 := s.isLt
  obtain ⟨W, hW, F⟩ : ∃ W, W = encLM sw 0x31 d a s t h.code ∧ IsLM W sw 0x31 d a s t h.code := ⟨_, rfl, IsLM.make sw 0x31 d a s t h.code (by decide) (by omega) (MemTy_lt t) s.isLt (d).reg.isLt (b2n_lt _) a.reg.isLt (b2n_lt a.last) (b2n_lt sw)⟩
  rw [← hW]
  have e2 : fld W 24 6 = 49 := F.f24_6.trans (by first | rfl | omega | (simp only [b2n_false, b2n_true, F2.bit64] at *; omega))
  refine ⟨?_, F.lt⟩
  simp only [decodeWord, parseWord, parseL, parseU, lrA, lrB, lrBClean, lrNoB, lrNoA, lmA, lmD, fbit, fv, fs, fp, fq, fbv, fz, b2n_beq, fin_ofNat, bv_ofNat, Option.map_some, if_true, if_false, Bool.false_eq_true, Bool.not_false, Bool.not_true, Bool.true_or, Bool.or_true, Bool.false_or, Bool.and_self, Bool.true_and, Bool.and_true, Nat.reduceBEq, beq_self_eq_true, reduceIte, Hint_of, MemTy_of, F.f31_1, F.f30_1, e2, F.f18_6, F.f12_6, F.f11_1, F.f10_1, F.f5_5, F.f2_3, F.f0_2]
  exact of_ok hwf
theorem lds (sw : Bool) (t : MemTy) (d : VReg) (a : VSrc) (s : SReg) : Statement (.lds sw t d a s) := by
  refine stmt_word rfl rfl fun hwf => ?_
  have h0 := b2n_lt sw
  have h1 := MemTy_lt t
  have h2 := d.isLt
  have h3 := a.reg.isLt
  have h4 := b2n_lt a.last
  have h5 := s.isLt
  obtain ⟨W, hW, F⟩ : ∃ W, W = encLM sw 0x32 ⟨d, false⟩ a s t 0 ∧ IsLM W sw 0x32 ⟨d, false⟩ a s t 0 := ⟨_, rfl, IsLM.make sw 0x32 ⟨d, false⟩ a s t 0 (by decide) (by omega) (MemTy_lt t) s.isLt ((⟨d, false⟩ : VSrc)).reg.isLt (b2n_lt _) a.reg.isLt (b2n_lt a.last) (b2n_lt sw)⟩
  rw [← hW]
  have e2 : fld W 24 6 = 50 := F.f24_6.trans (by first | rfl | omega | (simp only [b2n_false, b2n_true, F2.bit64] at *; omega))
  have e6 : fld W 10 1 = 0 := F.f10_1.trans (by first | rfl | omega | (simp only [b2n_false, b2n_true, F2.bit64] at *; omega))
  refine ⟨?_, F.lt⟩
  simp only [decodeWord, parseWord, parseL, parseU, lrA, lrB, lrBClean, lrNoB, lrNoA, lmA, lmD, fbit, fv, fs, fp, fq, fbv, fz, b2n_beq, fin_ofNat, bv_ofNat, Option.map_some, if_true, if_false, Bool.false_eq_true, Bool.not_false, Bool.not_true, Bool.true_or, Bool.or_true, Bool.false_or, Bool.and_self, Bool.true_and, Bool.and_true, Nat.reduceBEq, beq_self_eq_true, reduceIte, MemTy_of, F.f31_1, F.f30_1, e2, F.f18_6, F.f12_6, F.f11_1, e6, F.f5_5, F.f2_3, F.f0_2]
  exact of_ok hwf
theorem sts (sw : Bool) (t : MemTy) (d : VSrc) (a : VSrc) (s : SReg) : Statement (.sts sw t d a s) := by
  refine stmt_word rfl rfl fun hwf => ?_
  have h0 := b2n_lt sw
  have h1 := MemTy_lt t
  have h2 := d.reg.isLt
  have h3 := b2n_lt d.last
  have h4 := a.reg.isLt
  have h5 := b2n_lt a.last
  have h6 := s.isLt
  obtain ⟨W, hW, F⟩ : ∃ W, W = encLM sw 0x33 d a s t 0 ∧ IsLM W sw 0x33 d a s t 0 := ⟨_, rfl, IsLM.make sw 0x33 d a s t 0 (by decide) (by omega) (MemTy_lt t) s.isLt (d).reg.isLt (b2n_lt _) a.reg.isLt (b2n_lt a.last) (b2n_lt sw)⟩
  rw [← hW]
  have e2 : fld W 24 6 = 51 := F.f24_6.trans (by first | rfl | omega | (simp only [b2n_false, b2n_true, F2.bit64] at *; omega))
  refine ⟨?_, F.lt⟩
  simp only [decodeWord, parseWord, parseL, parseU, lrA, lrB, lrBClean, lrNoB, lrNoA, lmA, lmD, fbit, fv, fs, fp, fq, fbv, fz, b2n_beq, fin_ofNat, bv_ofNat, Option.map_some, if_true, if_false, Bool.false_eq_true, Bool.not_false, Bool.not_true, Bool.true_or, Bool.or_true, Bool.false_or, Bool.and_self, Bool.true_and, Bool.and_true, Nat.reduceBEq, beq_self_eq_true, reduceIte, MemTy_of, F.f31_1, F.f30_1, e2, F.f18_6, F.f12_6, F.f11_1, F.f10_1, F.f5_5, F.f2_3, F.f0_2]
  exact of_ok hwf
theorem ldc (sw : Bool) (t : MemTy) (d : VReg) (a : VSrc) (s : SReg) : Statement (.ldc sw t d a s) := by
  refine stmt_word rfl rfl fun hwf => ?_
  have h0 := b2n_lt sw
  have h1 := MemTy_lt t
  have h2 := d.isLt
  have h3 := a.reg.isLt
  have h4 := b2n_lt a.last
  have h5 := s.isLt
  obtain ⟨W, hW, F⟩ : ∃ W, W = encLM sw 0x34 ⟨d, false⟩ a s t 0 ∧ IsLM W sw 0x34 ⟨d, false⟩ a s t 0 := ⟨_, rfl, IsLM.make sw 0x34 ⟨d, false⟩ a s t 0 (by decide) (by omega) (MemTy_lt t) s.isLt ((⟨d, false⟩ : VSrc)).reg.isLt (b2n_lt _) a.reg.isLt (b2n_lt a.last) (b2n_lt sw)⟩
  rw [← hW]
  have e2 : fld W 24 6 = 52 := F.f24_6.trans (by first | rfl | omega | (simp only [b2n_false, b2n_true, F2.bit64] at *; omega))
  have e6 : fld W 10 1 = 0 := F.f10_1.trans (by first | rfl | omega | (simp only [b2n_false, b2n_true, F2.bit64] at *; omega))
  refine ⟨?_, F.lt⟩
  simp only [decodeWord, parseWord, parseL, parseU, lrA, lrB, lrBClean, lrNoB, lrNoA, lmA, lmD, fbit, fv, fs, fp, fq, fbv, fz, b2n_beq, fin_ofNat, bv_ofNat, Option.map_some, if_true, if_false, Bool.false_eq_true, Bool.not_false, Bool.not_true, Bool.true_or, Bool.or_true, Bool.false_or, Bool.and_self, Bool.true_and, Bool.and_true, Nat.reduceBEq, beq_self_eq_true, reduceIte, MemTy_of, F.f31_1, F.f30_1, e2, F.f18_6, F.f12_6, F.f11_1, e6, F.f5_5, F.f2_3, F.f0_2]
  exact of_ok hwf
theorem stc (sw : Bool) (t : MemTy) (d : VSrc) (a : VSrc) (s : SReg) : Statement (.stc sw t d a s) := by
  refine stmt_word rfl rfl fun hwf => ?_
  have h0 := b2n_lt sw
  have h1 := MemTy_lt t
  have h2 := d.reg.isLt
  have h3 := b2n_lt d.last
  have h4 := a.reg.isLt
  have h5 := b2n_lt a.last
  have h6 := s.isLt
  obtain ⟨W, hW, F⟩ : ∃ W, W = encLM sw 0x35 d a s t 0 ∧ IsLM W sw 0x35 d a s t 0 := ⟨_, rfl, IsLM.make sw 0x35 d a s t 0 (by decide) (by omega) (MemTy_lt t) s.isLt (d).reg.isLt (b2n_lt _) a.reg.isLt (b2n_lt a.last) (b2n_lt sw)⟩
  rw [← hW]
  have e2 : fld W 24 6 = 53 := F.f24_6.trans (by first | rfl | omega | (simp only [b2n_false, b2n_true, F2.bit64] at *; omega))
  refine ⟨?_, F.lt⟩
  simp only [decodeWord, parseWord, parseL, parseU, lrA, lrB, lrBClean, lrNoB, lrNoA, lmA, lmD, fbit, fv, fs, fp, fq, fbv, fz, b2n_beq, fin_ofNat, bv_ofNat, Option.map_some, if_true, if_false, Bool.false_eq_true, Bool.not_false, Bool.not_true, Bool.true_or, Bool.or_true, Bool.false_or, Bool.and_self, Bool.true_and, Bool.and_true, Nat.reduceBEq, beq_self_eq_true, reduceIte, MemTy_of, F.f31_1, F.f30_1, e2, F.f18_6, F.f12_6, F.f11_1, F.f10_1, F.f5_5, F.f2_3, F.f0_2]
  exact of_ok hwf
theorem atom (sw : Bool) (w64 : Bool) (op : AopI) (sem : Sem) (d : VReg) (a : Fin 32) (b : VReg) : Statement (.atom sw w64 op sem d a b) := by
  refine stmt_word rfl rfl fun hwf => ?_
  have h0 := b2n_lt sw
  have h1 := b2n_lt w64
  have h2 := AopI_lt op
  have h3 := Sem_lt sem
  have h4 := d.isLt
  have h5 := a.isLt
  have h6 := b.isLt
  have hd := atom_d hwf
  obtain ⟨W, hW⟩ : ∃ W, W = encLA sw 0x36 d.val (2 * a.val + b2n w64) b op.code sem := ⟨_, rfl⟩
  rw [← hW]
  simp only [encLA, encLC, encHead, b2n_false, b2n_true, Nat.reducePow] at hW
  have e0 : fld W 31 1 = 0 := by unfold fld; omega
  have e1 : fld W 30 1 = b2n sw := by unfold fld; omega
  have e2 : fld W 24 6 = 54 := by unfold fld; omega
  have e3 : fld W 18 6 = d.val := by unfold fld; omega
  have e4 : fld W 12 1 = b2n w64 := by unfold fld; omega
  have e5 : fld W 13 5 = a.val := by unfold fld; omega
  have e6 : fld W 6 6 = b.val := by unfold fld; omega
  have e7 : fld W 3 3 = op.code := by unfold fld; omega
  have e8 : fld W 0 3 = sem.code := by unfold fld; omega
  refine ⟨?_, by omega⟩
  simp only [decodeWord, parseWord, parseL, parseU, lrA, lrB, lrBClean, lrNoB, lrNoA, lmA, lmD, fbit, fv, fs, fp, fq, fbv, fz, b2n_beq, fin_ofNat, bv_ofNat, Option.map_some, if_true, if_false, Bool.false_eq_true, Bool.not_false, Bool.not_true, Bool.true_or, Bool.or_true, Bool.false_or, Bool.and_self, Bool.true_and, Bool.and_true, Nat.reduceBEq, beq_self_eq_true, reduceIte, AopI_of, Sem_of, hd, e0, e1, e2, e3, e4, e5, e6, e7, e8]
  exact of_ok hwf
theorem redAtom (sw : Bool) (w64 : Bool) (op : AopI) (sem : Sem) (a : Fin 32) (b : VReg) : Statement (.redAtom sw w64 op sem a b) := by
  refine stmt_word rfl rfl fun hwf => ?_
  have h0 := b2n_lt sw
  have h1 := b2n_lt w64
  have h2 := AopI_lt op
  have h3 := Sem_lt sem
  have h4 := a.isLt
  have h5 := b.isLt
  obtain ⟨W, hW⟩ : ∃ W, W = encLA sw 0x36 63 (2 * a.val + b2n w64) b op.code sem := ⟨_, rfl⟩
  rw [← hW]
  simp only [encLA, encLC, encHead, b2n_false, b2n_true, Nat.reducePow] at hW
  have e0 : fld W 31 1 = 0 := by unfold fld; omega
  have e1 : fld W 30 1 = b2n sw := by unfold fld; omega
  have e2 : fld W 24 6 = 54 := by unfold fld; omega
  have e3 : fld W 18 6 = 63 := by unfold fld; omega
  have e4 : fld W 12 1 = b2n w64 := by unfold fld; omega
  have e5 : fld W 13 5 = a.val := by unfold fld; omega
  have e6 : fld W 6 6 = b.val := by unfold fld; omega
  have e7 : fld W 3 3 = op.code := by unfold fld; omega
  have e8 : fld W 0 3 = sem.code := by unfold fld; omega
  refine ⟨?_, by omega⟩
  simp only [decodeWord, parseWord, parseL, parseU, lrA, lrB, lrBClean, lrNoB, lrNoA, lmA, lmD, fbit, fv, fs, fp, fq, fbv, fz, b2n_beq, fin_ofNat, bv_ofNat, Option.map_some, if_true, if_false, Bool.false_eq_true, Bool.not_false, Bool.not_true, Bool.true_or, Bool.or_true, Bool.false_or, Bool.and_self, Bool.true_and, Bool.and_true, Nat.reduceBEq, beq_self_eq_true, reduceIte, AopI_of, Sem_of, e0, e1, e2, e3, e4, e5, e6, e7, e8]
  exact of_ok hwf
theorem atomf (sw : Bool) (op : AopF) (sem : Sem) (d : VReg) (a : VReg) (b : VReg) : Statement (.atomf sw op sem d a b) := by
  refine stmt_word rfl rfl fun hwf => ?_
  have h0 := b2n_lt sw
  have h1 := AopF_lt op
  have h2 := Sem_lt sem
  have h3 := d.isLt
  have h4 := a.isLt
  have h5 := b.isLt
  have hd := atomf_d hwf
  obtain ⟨W, hW⟩ : ∃ W, W = encLA sw 0x37 d.val a.val b op.code sem := ⟨_, rfl⟩
  rw [← hW]
  simp only [encLA, encLC, encHead, b2n_false, b2n_true, Nat.reducePow] at hW
  have e0 : fld W 31 1 = 0 := by unfold fld; omega
  have e1 : fld W 30 1 = b2n sw := by unfold fld; omega
  have e2 : fld W 24 6 = 55 := by unfold fld; omega
  have e3 : fld W 18 6 = d.val := by unfold fld; omega
  have e4 : fld W 12 6 = a.val := by unfold fld; omega
  have e5 : fld W 6 6 = b.val := by unfold fld; omega
  have e6 : fld W 3 3 = op.code := by unfold fld; omega
  have e7 : fld W 0 3 = sem.code := by unfold fld; omega
  refine ⟨?_, by omega⟩
  simp only [decodeWord, parseWord, parseL, parseU, lrA, lrB, lrBClean, lrNoB, lrNoA, lmA, lmD, fbit, fv, fs, fp, fq, fbv, fz, b2n_beq, fin_ofNat, bv_ofNat, Option.map_some, if_true, if_false, Bool.false_eq_true, Bool.not_false, Bool.not_true, Bool.true_or, Bool.or_true, Bool.false_or, Bool.and_self, Bool.true_and, Bool.and_true, Nat.reduceBEq, beq_self_eq_true, reduceIte, AopF_of, Sem_of, hd, e0, e1, e2, e3, e4, e5, e6, e7]
  exact of_ok hwf
theorem redAtomf (sw : Bool) (op : AopF) (sem : Sem) (a : VReg) (b : VReg) : Statement (.redAtomf sw op sem a b) := by
  refine stmt_word rfl rfl fun hwf => ?_
  have h0 := b2n_lt sw
  have h1 := AopF_lt op
  have h2 := Sem_lt sem
  have h3 := a.isLt
  have h4 := b.isLt
  obtain ⟨W, hW⟩ : ∃ W, W = encLA sw 0x37 63 a.val b op.code sem := ⟨_, rfl⟩
  rw [← hW]
  simp only [encLA, encLC, encHead, b2n_false, b2n_true, Nat.reducePow] at hW
  have e0 : fld W 31 1 = 0 := by unfold fld; omega
  have e1 : fld W 30 1 = b2n sw := by unfold fld; omega
  have e2 : fld W 24 6 = 55 := by unfold fld; omega
  have e3 : fld W 18 6 = 63 := by unfold fld; omega
  have e4 : fld W 12 6 = a.val := by unfold fld; omega
  have e5 : fld W 6 6 = b.val := by unfold fld; omega
  have e6 : fld W 3 3 = op.code := by unfold fld; omega
  have e7 : fld W 0 3 = sem.code := by unfold fld; omega
  refine ⟨?_, by omega⟩
  simp only [decodeWord, parseWord, parseL, parseU, lrA, lrB, lrBClean, lrNoB, lrNoA, lmA, lmD, fbit, fv, fs, fp, fq, fbv, fz, b2n_beq, fin_ofNat, bv_ofNat, Option.map_some, if_true, if_false, Bool.false_eq_true, Bool.not_false, Bool.not_true, Bool.true_or, Bool.or_true, Bool.false_or, Bool.and_self, Bool.true_and, Bool.and_true, Nat.reduceBEq, beq_self_eq_true, reduceIte, AopF_of, Sem_of, e0, e1, e2, e3, e4, e5, e6, e7]
  exact of_ok hwf
theorem gld (sw : Bool) (comp : Fin 8) (anyStep : Bool) (h : Hint) (d : VReg) (a : VReg) (s : SReg) : Statement (.gld sw comp anyStep h d a s) := by
  refine stmt_word rfl rfl fun hwf => ?_
  have h0 := b2n_lt sw
  have h1 := comp.isLt
  have h2 := b2n_lt anyStep
  have h3 := Hint_lt h
  have h4 := d.isLt
  have h5 := a.isLt
  have h6 := s.isLt
  obtain ⟨W, hW⟩ : ∃ W, W = encHead false sw 0x38 + 2 ^ 18 * d.val + 2 ^ 12 * a.val + 2 ^ 7 * s.val + 2 ^ 4 * comp.val + 2 ^ 2 * b2n anyStep + h.code := ⟨_, rfl⟩
  rw [← hW]
  simp only [encLA, encLC, encHead, b2n_false, b2n_true, Nat.reducePow] at hW
  have e0 : fld W 31 1 = 0 := by unfold fld; omega
  have e1 : fld W 30 1 = b2n sw := by unfold fld; omega
  have e2 : fld W 24 6 = 56 := by unfold fld; omega
  have e3 : fld W 18 6 = d.val := by unfold fld; omega
  have e4 : fld W 12 6 = a.val := by unfold fld; omega
  have e5 : fld W 7 5 = s.val := by unfold fld; omega
  have e6 : fld W 4 3 = comp.val := by unfold fld; omega
  have e7 : fld W 2 1 = b2n anyStep := by unfold fld; omega
  have e8 : fld W 0 2 = h.code := by unfold fld; omega
  have e9 : fld W 3 1 = 0 := by unfold fld; omega
  refine ⟨?_, by omega⟩
  simp only [decodeWord, parseWord, parseL, parseU, lrA, lrB, lrBClean, lrNoB, lrNoA, lmA, lmD, fbit, fv, fs, fp, fq, fbv, fz, b2n_beq, fin_ofNat, bv_ofNat, Option.map_some, if_true, if_false, Bool.false_eq_true, Bool.not_false, Bool.not_true, Bool.true_or, Bool.or_true, Bool.false_or, Bool.and_self, Bool.true_and, Bool.and_true, Nat.reduceBEq, beq_self_eq_true, reduceIte, Hint_of, e0, e1, e2, e3, e4, e5, e6, e7, e8, e9]
  exact of_ok hwf
theorem brc (sw : Bool) (p : PReg) (neg : Bool) (off : BitVec 20) : Statement (.brc sw p neg off) := by
  refine stmt_word rfl rfl fun hwf => ?_
  have h0 := b2n_lt sw
  have h1 := p.isLt
  have h2 := b2n_lt neg
  have h3 := off.isLt
  obtain ⟨W, hW⟩ : ∃ W, W = encHead false sw 0x39 + 2 ^ 21 * p.val + 2 ^ 20 * b2n neg + off.toNat := ⟨_, rfl⟩
  rw [← hW]
  simp only [encLA, encLC, encHead, b2n_false, b2n_true, Nat.reducePow] at hW
  have e0 : fld W 31 1 = 0 := by unfold fld; omega
  have e1 : fld W 30 1 = b2n sw := by unfold fld; omega
  have e2 : fld W 24 6 = 57 := by unfold fld; omega
  have e3 : fld W 21 3 = p.val := by unfold fld; omega
  have e4 : fld W 20 1 = b2n neg := by unfold fld; omega
  have e5 : fld W 0 20 = off.toNat := by unfold fld; omega
  refine ⟨?_, by omega⟩
  simp only [decodeWord, parseWord, parseL, parseU, lrA, lrB, lrBClean, lrNoB, lrNoA, lmA, lmD, fbit, fv, fs, fp, fq, fbv, fz, b2n_beq, fin_ofNat, bv_ofNat, Option.map_some, if_true, if_false, Bool.false_eq_true, Bool.not_false, Bool.not_true, Bool.true_or, Bool.or_true, Bool.false_or, Bool.and_self, Bool.true_and, Bool.and_true, Nat.reduceBEq, beq_self_eq_true, reduceIte, e0, e1, e2, e3, e4, e5]
  exact of_ok hwf
theorem jmpx (sw : Bool) (a : VSrc) : Statement (.jmpx sw a) := by
  refine stmt_word rfl rfl fun hwf => ?_
  have h0 := b2n_lt sw
  have h1 := a.reg.isLt
  have h2 := b2n_lt a.last
  obtain ⟨W, hW, F⟩ : ∃ W, W = encLR sw 0x3A 0 a 0 0 ∧ IsLR W sw 0x3A 0 a 0 0 0 0 := ⟨_, rfl, IsLR.make sw 0x3A 0 a 0 0 0 0 0 (by first | rfl | (simp only [encB]; omega)) (by decide) (by omega) (by omega) (by omega) (by decide) (by first | omega | (simp only [b2n_false, b2n_true, F2.bit64] at *; omega)) a.reg.isLt (b2n_lt a.last) (b2n_lt sw)⟩
  rw [← hW]
  have e2 : fld W 24 6 = 58 := F.f24_6.trans (by first | rfl | omega | (simp only [b2n_false, b2n_true, F2.bit64] at *; omega))
  have e8 : fld W 3 2 = 0 := F.f3_2.trans (by first | rfl | omega | (simp only [b2n_false, b2n_true, F2.bit64] at *; omega))
  refine ⟨?_, F.lt⟩
  simp only [decodeWord, parseWord, parseL, parseU, lrA, lrB, lrBClean, lrNoB, lrNoA, lmA, lmD, fbit, fv, fs, fp, fq, fbv, fz, b2n_beq, fin_ofNat, bv_ofNat, Option.map_some, if_true, if_false, Bool.false_eq_true, Bool.not_false, Bool.not_true, Bool.true_or, Bool.or_true, Bool.false_or, Bool.and_self, Bool.true_and, Bool.and_true, Nat.reduceBEq, beq_self_eq_true, reduceIte, F.f31_1, F.f30_1, e2, F.f18_6, F.f12_6, F.f5_1, F.f0_3, F.f6_6, e8]
  exact of_ok hwf
theorem uadd (sw : Bool) (t : T4) (d : SReg) (a : SReg) (b : SReg) : Statement (.uadd sw t d a b) := by
  refine stmt_word rfl rfl fun hwf => ?_
  have h0 := b2n_lt sw
  have h1 := T4_lt t
  have h2 := d.isLt
  have h3 := a.isLt
  have h4 := b.isLt
  obtain ⟨W, hW, F⟩ : ∃ W, W = encUR sw 0x00 d a b t.code ∧ IsUX W sw 0x00 d.val a.val b.val (2 ^ 4 * t.code) := ⟨_, rfl, IsUX.make sw 0x00 d.val a.val b.val (2 ^ 4 * t.code) (by decide) (by omega) (by omega) (by omega) (by first | omega | (simp only [b2n_false, b2n_true, F2.bit64] at *; omega)) (b2n_lt sw)⟩
  rw [← hW]
  have e2 : fld W 24 6 = 0 := F.f24_6.trans (by first | rfl | omega | (simp only [b2n_false, b2n_true, F2.bit64] at *; omega))
  have e6 : fld W 4 5 = t.code := F.f4_5.trans (by first | rfl | omega | (simp only [b2n_false, b2n_true, F2.bit64] at *; omega))
  have e7 : fld W 0 4 = 0 := F.f0_4.trans (by first | rfl | omega | (simp only [b2n_false, b2n_true, F2.bit64] at *; omega))
  refine ⟨?_, F.lt⟩
  simp only [decodeWord, parseWord, parseL, parseU, lrA, lrB, lrBClean, lrNoB, lrNoA, lmA, lmD, fbit, fv, fs, fp, fq, fbv, fz, b2n_beq, fin_ofNat, bv_ofNat, Option.map_some, if_true, if_false, Bool.false_eq_true, Bool.not_false, Bool.not_true, Bool.true_or, Bool.or_true, Bool.false_or, Bool.and_self, Bool.true_and, Bool.and_true, Nat.reduceBEq, beq_self_eq_true, reduceIte, T4_of, F.f31_1, F.f30_1, e2, F.f19_5, F.f14_5, F.f9_5, e6, e7]
  exact of_ok hwf
theorem usub (sw : Bool) (t : T4) (d : SReg) (a : SReg) (b : SReg) : Statement (.usub sw t d a b) := by
  refine stmt_word rfl rfl fun hwf => ?_
  have h0 := b2n_lt sw
  have h1 := T4_lt t
  have h2 := d.isLt
  have h3 := a.isLt
  have h4 := b.isLt
  obtain ⟨W, hW, F⟩ : ∃ W, W = encUR sw 0x01 d a b t.code ∧ IsUX W sw 0x01 d.val a.val b.val (2 ^ 4 * t.code) := ⟨_, rfl, IsUX.make sw 0x01 d.val a.val b.val (2 ^ 4 * t.code) (by decide) (by omega) (by omega) (by omega) (by first | omega | (simp only [b2n_false, b2n_true, F2.bit64] at *; omega)) (b2n_lt sw)⟩
  rw [← hW]
  have e2 : fld W 24 6 = 1 := F.f24_6.trans (by first | rfl | omega | (simp only [b2n_false, b2n_true, F2.bit64] at *; omega))
  have e6 : fld W 4 5 = t.code := F.f4_5.trans (by first | rfl | omega | (simp only [b2n_false, b2n_true, F2.bit64] at *; omega))
  have e7 : fld W 0 4 = 0 := F.f0_4.trans (by first | rfl | omega | (simp only [b2n_false, b2n_true, F2.bit64] at *; omega))
  refine ⟨?_, F.lt⟩
  simp only [decodeWord, parseWord, parseL, parseU, lrA, lrB, lrBClean, lrNoB, lrNoA, lmA, lmD, fbit, fv, fs, fp, fq, fbv, fz, b2n_beq, fin_ofNat, bv_ofNat, Option.map_some, if_true, if_false, Bool.false_eq_true, Bool.not_false, Bool.not_true, Bool.true_or, Bool.or_true, Bool.false_or, Bool.and_self, Bool.true_and, Bool.and_true, Nat.reduceBEq, beq_self_eq_true, reduceIte, T4_of, F.f31_1, F.f30_1, e2, F.f19_5, F.f14_5, F.f9_5, e6, e7]
  exact of_ok hwf
theorem umul (sw : Bool) (t : T4) (d : SReg) (a : SReg) (b : SReg) : Statement (.umul sw t d a b) := by
  refine stmt_word rfl rfl fun hwf => ?_
  have h0 := b2n_lt sw
  have h1 := T4_lt t
  have h2 := d.isLt
  have h3 := a.isLt
  have h4 := b.isLt
  obtain ⟨W, hW, F⟩ : ∃ W, W = encUR sw 0x02 d a b t.code ∧ IsUX W sw 0x02 d.val a.val b.val (2 ^ 4 * t.code) := ⟨_, rfl, IsUX.make sw 0x02 d.val a.val b.val (2 ^ 4 * t.code) (by decide) (by omega) (by omega) (by omega) (by first | omega | (simp only [b2n_false, b2n_true, F2.bit64] at *; omega)) (b2n_lt sw)⟩
  rw [← hW]
  have e2 : fld W 24 6 = 2 := F.f24_6.trans (by first | rfl | omega | (simp only [b2n_false, b2n_true, F2.bit64] at *; omega))
  have e6 : fld W 4 5 = t.code := F.f4_5.trans (by first | rfl | omega | (simp only [b2n_false, b2n_true, F2.bit64] at *; omega))
  have e7 : fld W 0 4 = 0 := F.f0_4.trans (by first | rfl | omega | (simp only [b2n_false, b2n_true, F2.bit64] at *; omega))
  refine ⟨?_, F.lt⟩
  simp only [decodeWord, parseWord, parseL, parseU, lrA, lrB, lrBClean, lrNoB, lrNoA, lmA, lmD, fbit, fv, fs, fp, fq, fbv, fz, b2n_beq, fin_ofNat, bv_ofNat, Option.map_some, if_true, if_false, Bool.false_eq_true, Bool.not_false, Bool.not_true, Bool.true_or, Bool.or_true, Bool.false_or, Bool.and_self, Bool.true_and, Bool.and_true, Nat.reduceBEq, beq_self_eq_true, reduceIte, T4_of, F.f31_1, F.f30_1, e2, F.f19_5, F.f14_5, F.f9_5, e6, e7]
  exact of_ok hwf
theorem umulh (sw : Bool) (t : T4) (d : SReg) (a : SReg) (b : SReg) : Statement (.umulh sw t d a b) := by
  refine stmt_word rfl rfl fun hwf => ?_
  have h0 := b2n_lt sw
  have h1 := T4_lt t
  have h2 := d.isLt
  have h3 := a.isLt
  have h4 := b.isLt
  obtain ⟨W, hW, F⟩ : ∃ W, W = encUR sw 0x03 d a b t.code ∧ IsUX W sw 0x03 d.val a.val b.val (2 ^ 4 * t.code) := ⟨_, rfl, IsUX.make sw 0x03 d.val a.val b.val (2 ^ 4 * t.code) (by decide) (by omega) (by omega) (by omega) (by first | omega | (simp only [b2n_false, b2n_true, F2.bit64] at *; omega)) (b2n_lt sw)⟩
  rw [← hW]
  have e2 : fld W 24 6 = 3 := F.f24_6.trans (by first | rfl | omega | (simp only [b2n_false, b2n_true, F2.bit64] at *; omega))
  have e6 : fld W 4 5 = t.code := F.f4_5.trans (by first | rfl | omega | (simp only [b2n_false, b2n_true, F2.bit64] at *; omega))
  have e7 : fld W 0 4 = 0 := F.f0_4.trans (by first | rfl | omega | (simp only [b2n_false, b2n_true, F2.bit64] at *; omega))
  refine ⟨?_, F.lt⟩
  simp only [decodeWord, parseWord, parseL, parseU, lrA, lrB, lrBClean, lrNoB, lrNoA, lmA, lmD, fbit, fv, fs, fp, fq, fbv, fz, b2n_beq, fin_ofNat, bv_ofNat, Option.map_some, if_true, if_false, Bool.false_eq_true, Bool.not_false, Bool.not_true, Bool.true_or, Bool.or_true, Bool.false_or, Bool.and_self, Bool.true_and, Bool.and_true, Nat.reduceBEq, beq_self_eq_true, reduceIte, T4_of, F.f31_1, F.f30_1, e2, F.f19_5, F.f14_5, F.f9_5, e6, e7]
  exact of_ok hwf
theorem umin (sw : Bool) (t : T4) (d : SReg) (a : SReg) (b : SReg) : Statement (.umin sw t d a b) := by
  refine stmt_word rfl rfl fun hwf => ?_
  have h0 := b2n_lt sw
  have h1 := T4_lt t
  have h2 := d.isLt
  have h3 := a.isLt
  have h4 := b.isLt
  obtain ⟨W, hW, F⟩ : ∃ W, W = encUR sw 0x06 d a b t.code ∧ IsUX W sw 0x06 d.val a.val b.val (2 ^ 4 * t.code) := ⟨_, rfl, IsUX.make sw 0x06 d.val a.val b.val (2 ^ 4 * t.code) (by decide) (by omega) (by omega) (by omega) (by first | omega | (simp only [b2n_false, b2n_true, F2.bit64] at *; omega)) (b2n_lt sw)⟩
  rw [← hW]
  have e2 : fld W 24 6 = 6 := F.f24_6.trans (by first | rfl | omega | (simp only [b2n_false, b2n_true, F2.bit64] at *; omega))
  have e6 : fld W 4 5 = t.code := F.f4_5.trans (by first | rfl | omega | (simp only [b2n_false, b2n_true, F2.bit64] at *; omega))
  have e7 : fld W 0 4 = 0 := F.f0_4.trans (by first | rfl | omega | (simp only [b2n_false, b2n_true, F2.bit64] at *; omega))
  refine ⟨?_, F.lt⟩
  simp only [decodeWord, parseWord, parseL, parseU, lrA, lrB, lrBClean, lrNoB, lrNoA, lmA, lmD, fbit, fv, fs, fp, fq, fbv, fz, b2n_beq, fin_ofNat, bv_ofNat, Option.map_some, if_true, if_false, Bool.false_eq_true, Bool.not_false, Bool.not_true, Bool.true_or, Bool.or_true, Bool.false_or, Bool.and_self, Bool.true_and, Bool.and_true, Nat.reduceBEq, beq_self_eq_true, reduceIte, T4_of, F.f31_1, F.f30_1, e2, F.f19_5, F.f14_5, F.f9_5, e6, e7]
  exact of_ok hwf
theorem umax (sw : Bool) (t : T4) (d : SReg) (a : SReg) (b : SReg) : Statement (.umax sw t d a b) := by
  refine stmt_word rfl rfl fun hwf => ?_
  have h0 := b2n_lt sw
  have h1 := T4_lt t
  have h2 := d.isLt
  have h3 := a.isLt
  have h4 := b.isLt
  obtain ⟨W, hW, F⟩ : ∃ W, W = encUR sw 0x07 d a b t.code ∧ IsUX W sw 0x07 d.val a.val b.val (2 ^ 4 * t.code) := ⟨_, rfl, IsUX.make sw 0x07 d.val a.val b.val (2 ^ 4 * t.code) (by decide) (by omega) (by omega) (by omega) (by first | omega | (simp only [b2n_false, b2n_true, F2.bit64] at *; omega)) (b2n_lt sw)⟩
  rw [← hW]
  have e2 : fld W 24 6 = 7 := F.f24_6.trans (by first | rfl | omega | (simp only [b2n_false, b2n_true, F2.bit64] at *; omega))
  have e6 : fld W 4 5 = t.code := F.f4_5.trans (by first | rfl | omega | (simp only [b2n_false, b2n_true, F2.bit64] at *; omega))
  have e7 : fld W 0 4 = 0 := F.f0_4.trans (by first | rfl | omega | (simp only [b2n_false, b2n_true, F2.bit64] at *; omega))
  refine ⟨?_, F.lt⟩
  simp only [decodeWord, parseWord, parseL, parseU, lrA, lrB, lrBClean, lrNoB, lrNoA, lmA, lmD, fbit, fv, fs, fp, fq, fbv, fz, b2n_beq, fin_ofNat, bv_ofNat, Option.map_some, if_true, if_false, Bool.false_eq_true, Bool.not_false, Bool.not_true, Bool.true_or, Bool.or_true, Bool.false_or, Bool.and_self, Bool.true_and, Bool.and_true, Nat.reduceBEq, beq_self_eq_true, reduceIte, T4_of, F.f31_1, F.f30_1, e2, F.f19_5, F.f14_5, F.f9_5, e6, e7]
  exact of_ok hwf
theorem ulog (sw : Bool) (f : Log8) (d : SReg) (a : SReg) (b : SReg) : Statement (.ulog sw f d a b) := by
  refine stmt_word rfl rfl fun hwf => ?_
  have h0 := b2n_lt sw
  have h1 := Log8_lt f
  have h2 := d.isLt
  have h3 := a.isLt
  have h4 := b.isLt
  obtain ⟨W, hW, F⟩ : ∃ W, W = encUR sw 0x04 d a b f.code ∧ IsUX W sw 0x04 d.val a.val b.val (2 ^ 4 * f.code) := ⟨_, rfl, IsUX.make sw 0x04 d.val a.val b.val (2 ^ 4 * f.code) (by decide) (by omega) (by omega) (by omega) (by first | omega | (simp only [b2n_false, b2n_true, F2.bit64] at *; omega)) (b2n_lt sw)⟩
  rw [← hW]
  have e2 : fld W 24 6 = 4 := F.f24_6.trans (by first | rfl | omega | (simp only [b2n_false, b2n_true, F2.bit64] at *; omega))
  have e6 : fld W 4 5 = f.code := F.f4_5.trans (by first | rfl | omega | (simp only [b2n_false, b2n_true, F2.bit64] at *; omega))
  have e7 : fld W 0 4 = 0 := F.f0_4.trans (by first | rfl | omega | (simp only [b2n_false, b2n_true, F2.bit64] at *; omega))
  refine ⟨?_, F.lt⟩
  simp only [decodeWord, parseWord, parseL, parseU, lrA, lrB, lrBClean, lrNoB, lrNoA, lmA, lmD, fbit, fv, fs, fp, fq, fbv, fz, b2n_beq, fin_ofNat, bv_ofNat, Option.map_some, if_true, if_false, Bool.false_eq_true, Bool.not_false, Bool.not_true, Bool.true_or, Bool.or_true, Bool.false_or, Bool.and_self, Bool.true_and, Bool.and_true, Nat.reduceBEq, beq_self_eq_true, reduceIte, Log8_of, F.f31_1, F.f30_1, e2, F.f19_5, F.f14_5, F.f9_5, e6, e7]
  exact of_ok hwf
theorem ush (sw : Bool) (f : Sh7) (d : SReg) (a : SReg) (b : SReg) : Statement (.ush sw f d a b) := by
  refine stmt_word rfl rfl fun hwf => ?_
  have h0 := b2n_lt sw
  have h1 := Sh7_lt f
  have h2 := d.isLt
  have h3 := a.isLt
  have h4 := b.isLt
  obtain ⟨W, hW, F⟩ : ∃ W, W = encUR sw 0x05 d a b f.code ∧ IsUX W sw 0x05 d.val a.val b.val (2 ^ 4 * f.code) := ⟨_, rfl, IsUX.make sw 0x05 d.val a.val b.val (2 ^ 4 * f.code) (by decide) (by omega) (by omega) (by omega) (by first | omega | (simp only [b2n_false, b2n_true, F2.bit64] at *; omega)) (b2n_lt sw)⟩
  rw [← hW]
  have e2 : fld W 24 6 = 5 := F.f24_6.trans (by first | rfl | omega | (simp only [b2n_false, b2n_true, F2.bit64] at *; omega))
  have e6 : fld W 4 5 = f.code := F.f4_5.trans (by first | rfl | omega | (simp only [b2n_false, b2n_true, F2.bit64] at *; omega))
  have e7 : fld W 0 4 = 0 := F.f0_4.trans (by first | rfl | omega | (simp only [b2n_false, b2n_true, F2.bit64] at *; omega))
  refine ⟨?_, F.lt⟩
  simp only [decodeWord, parseWord, parseL, parseU, lrA, lrB, lrBClean, lrNoB, lrNoA, lmA, lmD, fbit, fv, fs, fp, fq, fbv, fz, b2n_beq, fin_ofNat, bv_ofNat, Option.map_some, if_true, if_false, Bool.false_eq_true, Bool.not_false, Bool.not_true, Bool.true_or, Bool.or_true, Bool.false_or, Bool.and_self, Bool.true_and, Bool.and_true, Nat.reduceBEq, beq_self_eq_true, reduceIte, Sh7_of, F.f31_1, F.f30_1, e2, F.f19_5, F.f14_5, F.f9_5, e6, e7]
  exact of_ok hwf
theorem uaddi (sw : Bool) (d : SReg) (a : SReg) (k : BitVec 14) : Statement (.uaddi sw d a k) := by
  refine stmt_word rfl rfl fun hwf => ?_
  have h0 := b2n_lt sw
  have h1 := d.isLt
  have h2 := a.isLt
  have h3 := k.isLt
  obtain ⟨W, hW⟩ : ∃ W, W = encHead true sw 0x08 + 2 ^ 19 * d.val + 2 ^ 14 * a.val + k.toNat := ⟨_, rfl⟩
  rw [← hW]
  simp only [encLA, encLC, encHead, b2n_false, b2n_true, Nat.reducePow] at hW
  have e0 : fld W 31 1 = 1 := by unfold fld; omega
  have e1 : fld W 30 1 = b2n sw := by unfold fld; omega
  have e2 : fld W 24 6 = 8 := by unfold fld; omega
  have e3 : fld W 19 5 = d.val := by unfold fld; omega
  have e4 : fld W 14 5 = a.val := by unfold fld; omega
  have e5 : fld W 0 14 = k.toNat := by unfold fld; omega
  refine ⟨?_, by omega⟩
  simp only [decodeWord, parseWord, parseL, parseU, lrA, lrB, lrBClean, lrNoB, lrNoA, lmA, lmD, fbit, fv, fs, fp, fq, fbv, fz, b2n_beq, fin_ofNat, bv_ofNat, Option.map_some, if_true, if_false, Bool.false_eq_true, Bool.not_false, Bool.not_true, Bool.true_or, Bool.or_true, Bool.false_or, Bool.and_self, Bool.true_and, Bool.and_true, Nat.reduceBEq, beq_self_eq_true, reduceIte, e0, e1, e2, e3, e4, e5]
  exact of_ok hwf
theorem ulil (sw : Bool) (sx : Bool) (d : SReg) (k : BitVec 16) : Statement (.ulil sw sx d k) := by
  refine stmt_word rfl rfl fun hwf => ?_
  cases sx with
  | false =>
    have h0 := b2n_lt sw
    have h1 := d.isLt
    have h2 := k.isLt
    obtain ⟨W, hW, F⟩ : ∃ W, W = encUK sw 0x09 d.val (b2n false) k.toNat ∧ IsUK W sw 0x09 d.val (b2n false) k.toNat := ⟨_, rfl, IsUK.make sw 0x09 d.val (b2n false) k.toNat (by decide) (by omega) (by first | omega | (simp only [b2n_false, b2n_true, F2.bit64] at *; omega)) (by omega) (b2n_lt sw)⟩
    rw [← hW]
    have e2 : fld W 24 6 = 9 := F.f24_6.trans (by first | rfl | omega | (simp only [b2n_false, b2n_true, F2.bit64] at *; omega))
    have e4 : fld W 16 3 = 0 := F.f16_3.trans (by first | rfl | omega | (simp only [b2n_false, b2n_true, F2.bit64] at *; omega))
    have e5 : fld W 16 1 = 0 := F.f16_1.trans (by first | rfl | omega | (simp only [b2n_false, b2n_true, F2.bit64] at *; omega))
    refine ⟨?_, F.lt⟩
    simp only [decodeWord, parseWord, parseL, parseU, lrA, lrB, lrBClean, lrNoB, lrNoA, lmA, lmD, fbit, fv, fs, fp, fq, fbv, fz, b2n_beq, fin_ofNat, bv_ofNat, Option.map_some, if_true, if_false, Bool.false_eq_true, Bool.not_false, Bool.not_true, Bool.true_or, Bool.or_true, Bool.false_or, Bool.and_self, Bool.true_and, Bool.and_true, Nat.reduceBEq, beq_self_eq_true, reduceIte, Nat.reduceLT, Nat.zero_lt_succ, F.f31_1, F.f30_1, e2, F.f19_5, e4, e5, F.f0_16]
    exact of_ok hwf
  | true =>
    have h0 := b2n_lt sw
    have h1 := d.isLt
    have h2 := k.isLt
    obtain ⟨W, hW, F⟩ : ∃ W, W = encUK sw 0x09 d.val (b2n true) k.toNat ∧ IsUK W sw 0x09 d.val (b2n true) k.toNat := ⟨_, rfl, IsUK.make sw 0x09 d.val (b2n true) k.toNat (by decide) (by omega) (by first | omega | (simp only [b2n_false, b2n_true, F2.bit64] at *; omega)) (by omega) (b2n_lt sw)⟩
    rw [← hW]
    have e2 : fld W 24 6 = 9 := F.f24_6.trans (by first | rfl | omega | (simp only [b2n_false, b2n_true, F2.bit64] at *; omega))
    have e4 : fld W 16 3 = 1 := F.f16_3.trans (by first | rfl | omega | (simp only [b2n_false, b2n_true, F2.bit64] at *; omega))
    have e5 : fld W 16 1 = 1 := F.f16_1.trans (by first | rfl | omega | (simp only [b2n_false, b2n_true, F2.bit64] at *; omega))
    refine ⟨?_, F.lt⟩
    simp only [decodeWord, parseWord, parseL, parseU, lrA, lrB, lrBClean, lrNoB, lrNoA, lmA, lmD, fbit, fv, fs, fp, fq, fbv, fz, b2n_beq, fin_ofNat, bv_ofNat, Option.map_some, if_true, if_false, Bool.false_eq_true, Bool.not_false, Bool.not_true, Bool.true_or, Bool.or_true, Bool.false_or, Bool.and_self, Bool.true_and, Bool.and_true, Nat.reduceBEq, beq_self_eq_true, reduceIte, Nat.reduceLT, Nat.zero_lt_succ, F.f31_1, F.f30_1, e2, F.f19_5, e4, e5, F.f0_16]
    exact of_ok hwf
theorem ulih (sw : Bool) (d : SReg) (k : BitVec 16) : Statement (.ulih sw d k) := by
  refine stmt_word rfl rfl fun hwf => ?_
  have h0 := b2n_lt sw
  have h1 := d.isLt
  have h2 := k.isLt
  obtain ⟨W, hW, F⟩ : ∃ W, W = encUK sw 0x0A d.val 0 k.toNat ∧ IsUK W sw 0x0A d.val 0 k.toNat := ⟨_, rfl, IsUK.make sw 0x0A d.val 0 k.toNat (by decide) (by omega) (by first | omega | (simp only [b2n_false, b2n_true, F2.bit64] at *; omega)) (by omega) (b2n_lt sw)⟩
  rw [← hW]
  have e2 : fld W 24 6 = 10 := F.f24_6.trans (by first | rfl | omega | (simp only [b2n_false, b2n_true, F2.bit64] at *; omega))
  refine ⟨?_, F.lt⟩
  simp only [decodeWord, parseWord, parseL, parseU, lrA, lrB, lrBClean, lrNoB, lrNoA, lmA, lmD, fbit, fv, fs, fp, fq, fbv, fz, b2n_beq, fin_ofNat, bv_ofNat, Option.map_some, if_true, if_false, Bool.false_eq_true, Bool.not_false, Bool.not_true, Bool.true_or, Bool.or_true, Bool.false_or, Bool.and_self, Bool.true_and, Bool.and_true, Nat.reduceBEq, beq_self_eq_true, reduceIte, F.f31_1, F.f30_1, e2, F.f19_5, F.f16_3, F.f0_16]
  exact of_ok hwf
theorem ucmp (sw : Bool) (w64 : Bool) (c : ICmp) (d : SReg) (a : SReg) (b : SReg) : Statement (.ucmp sw w64 c d a b) := by
  refine stmt_word rfl rfl fun hwf => ?_
  have h0 := b2n_lt sw
  have h1 := b2n_lt w64
  have h2 := ICmp_lt c
  have h3 := d.isLt
  have h4 := a.isLt
  have h5 := b.isLt
  obtain ⟨W, hW, F⟩ : ∃ W, W = encUR sw 0x0B d a b (c.code + 8 * b2n w64) ∧ IsUX W sw 0x0B d.val a.val b.val (2 ^ 4 * (c.code + 8 * b2n w64)) := ⟨_, rfl, IsUX.make sw 0x0B d.val a.val b.val (2 ^ 4 * (c.code + 8 * b2n w64)) (by decide) (by omega) (by omega) (by omega) (by first | omega | (simp only [b2n_false, b2n_true, F2.bit64] at *; omega)) (b2n_lt sw)⟩
  rw [← hW]
  have e2 : fld W 24 6 = 11 := F.f24_6.trans (by first | rfl | omega | (simp only [b2n_false, b2n_true, F2.bit64] at *; omega))
  have e6 : fld W 4 3 = c.code := F.f4_3.trans (by first | rfl | omega | (simp only [b2n_false, b2n_true, F2.bit64] at *; omega))
  have e7 : fld W 7 1 = b2n w64 := F.f7_1.trans (by first | rfl | omega | (simp only [b2n_false, b2n_true, F2.bit64] at *; omega))
  have e8 : fld W 0 4 = 0 := F.f0_4.trans (by first | rfl | omega | (simp only [b2n_false, b2n_true, F2.bit64] at *; omega))
  have e9 : fld W 8 1 = 0 := F.f8_1.trans (by first | rfl | omega | (simp only [b2n_false, b2n_true, F2.bit64] at *; omega))
  refine ⟨?_, F.lt⟩
  simp only [decodeWord, parseWord, parseL, parseU, lrA, lrB, lrBClean, lrNoB, lrNoA, lmA, lmD, fbit, fv, fs, fp, fq, fbv, fz, b2n_beq, fin_ofNat, bv_ofNat, Option.map_some, if_true, if_false, Bool.false_eq_true, Bool.not_false, Bool.not_true, Bool.true_or, Bool.or_true, Bool.false_or, Bool.and_self, Bool.true_and, Bool.and_true, Nat.reduceBEq, beq_self_eq_true, reduceIte, ICmp_of, F.f31_1, F.f30_1, e2, F.f19_5, F.f14_5, F.f9_5, e6, e7, e8, e9]
  exact of_ok hwf
theorem movsr (sw : Bool) (d : SReg) (r : SpecReg) : Statement (.movsr sw d r) := by
  refine stmt_word rfl rfl fun hwf => ?_
  have h0 := b2n_lt sw
  have h1 := d.isLt
  have h2 := SpecReg_lt r
  obtain ⟨W, hW, F⟩ : ∃ W, W = encUK sw 0x0C d.val r.code.2 r.code.1 ∧ IsUK W sw 0x0C d.val r.code.2 r.code.1 := ⟨_, rfl, IsUK.make sw 0x0C d.val r.code.2 r.code.1 (by decide) (by omega) (by first | omega | (simp only [b2n_false, b2n_true, F2.bit64] at *; omega)) (by omega) (b2n_lt sw)⟩
  rw [← hW]
  have e2 : fld W 24 6 = 12 := F.f24_6.trans (by first | rfl | omega | (simp only [b2n_false, b2n_true, F2.bit64] at *; omega))
  have e5 : fld W 0 8 = r.code.1 := F.f0_8.trans (by first | rfl | omega | (simp only [b2n_false, b2n_true, F2.bit64] at *; omega))
  have e6 : fld W 8 8 = 0 := F.f8_8.trans (by first | rfl | omega | (simp only [b2n_false, b2n_true, F2.bit64] at *; omega))
  refine ⟨?_, F.lt⟩
  simp only [decodeWord, parseWord, parseL, parseU, lrA, lrB, lrBClean, lrNoB, lrNoA, lmA, lmD, fbit, fv, fs, fp, fq, fbv, fz, b2n_beq, fin_ofNat, bv_ofNat, Option.map_some, if_true, if_false, Bool.false_eq_true, Bool.not_false, Bool.not_true, Bool.true_or, Bool.or_true, Bool.false_or, Bool.and_self, Bool.true_and, Bool.and_true, Nat.reduceBEq, beq_self_eq_true, reduceIte, SpecReg_of, F.f31_1, F.f30_1, e2, F.f19_5, F.f16_3, e5, e6]
  exact of_ok hwf
theorem movrs (sw : Bool) (r : WSpec) (d : SReg) : Statement (.movrs sw r d) := by
  refine stmt_word rfl rfl fun hwf => ?_
  have h0 := b2n_lt sw
  have h1 := WSpec_lt r
  have h2 := d.isLt
  obtain ⟨W, hW, F⟩ : ∃ W, W = encUK sw 0x0D d.val 0 r.code ∧ IsUK W sw 0x0D d.val 0 r.code := ⟨_, rfl, IsUK.make sw 0x0D d.val 0 r.code (by decide) (by omega) (by first | omega | (simp only [b2n_false, b2n_true, F2.bit64] at *; omega)) (by omega) (b2n_lt sw)⟩
  rw [← hW]
  have e2 : fld W 24 6 = 13 := F.f24_6.trans (by first | rfl | omega | (simp only [b2n_false, b2n_true, F2.bit64] at *; omega))
  refine ⟨?_, F.lt⟩
  simp only [decodeWord, parseWord, parseL, parseU, lrA, lrB, lrBClean, lrNoB, lrNoA, lmA, lmD, fbit, fv, fs, fp, fq, fbv, fz, b2n_beq, fin_ofNat, bv_ofNat, Option.map_some, if_true, if_false, Bool.false_eq_true, Bool.not_false, Bool.not_true, Bool.true_or, Bool.or_true, Bool.false_or, Bool.and_self, Bool.true_and, Bool.and_true, Nat.reduceBEq, beq_self_eq_true, reduceIte, WSpec_of, F.f31_1, F.f30_1, e2, F.f19_5, F.f16_3, F.f0_16]
  exact of_ok hwf
theorem vget (sw : Bool) (d : SReg) (a : SReg) (v : VReg) : Statement (.vget sw d a v) := by
  refine stmt_word rfl rfl fun hwf => ?_
  have h0 := b2n_lt sw
  have h1 := d.isLt
  have h2 := a.isLt
  have h3 := v.isLt
  obtain ⟨W, hW⟩ : ∃ W, W = encHead true sw 0x0E + 2 ^ 19 * d.val + 2 ^ 14 * a.val + 2 ^ 8 * v.val := ⟨_, rfl⟩
  rw [← hW]
  simp only [encLA, encLC, encHead, b2n_false, b2n_true, Nat.reducePow] at hW
  have e0 : fld W 31 1 = 1 := by unfold fld; omega
  have e1 : fld W 30 1 = b2n sw := by unfold fld; omega
  have e2 : fld W 24 6 = 14 := by unfold fld; omega
  have e3 : fld W 19 5 = d.val := by unfold fld; omega
  have e4 : fld W 14 5 = a.val := by unfold fld; omega
  have e5 : fld W 8 6 = v.val := by unfold fld; omega
  have e6 : fld W 0 8 = 0 := by unfold fld; omega
  refine ⟨?_, by omega⟩
  simp only [decodeWord, parseWord, parseL, parseU, lrA, lrB, lrBClean, lrNoB, lrNoA, lmA, lmD, fbit, fv, fs, fp, fq, fbv, fz, b2n_beq, fin_ofNat, bv_ofNat, Option.map_some, if_true, if_false, Bool.false_eq_true, Bool.not_false, Bool.not_true, Bool.true_or, Bool.or_true, Bool.false_or, Bool.and_self, Bool.true_and, Bool.and_true, Nat.reduceBEq, beq_self_eq_true, reduceIte, e0, e1, e2, e3, e4, e5, e6]
  exact of_ok hwf
theorem ulea (sw : Bool) (sh : Fin 8) (d : SReg) (a : SReg) (b : SReg) : Statement (.ulea sw sh d a b) := by
  refine stmt_word rfl rfl fun hwf => ?_
  have h0 := b2n_lt sw
  have h1 := sh.isLt
  have h2 := d.isLt
  have h3 := a.isLt
  have h4 := b.isLt
  obtain ⟨W, hW, F⟩ : ∃ W, W = encUR sw 0x0F d a b sh.val ∧ IsUX W sw 0x0F d.val a.val b.val (2 ^ 4 * sh.val) := ⟨_, rfl, IsUX.make sw 0x0F d.val a.val b.val (2 ^ 4 * sh.val) (by decide) (by omega) (by omega) (by omega) (by first | omega | (simp only [b2n_false, b2n_true, F2.bit64] at *; omega)) (b2n_lt sw)⟩
  rw [← hW]
  have e2 : fld W 24 6 = 15 := F.f24_6.trans (by first | rfl | omega | (simp only [b2n_false, b2n_true, F2.bit64] at *; omega))
  have e6 : fld W 4 5 = sh.val := F.f4_5.trans (by first | rfl | omega | (simp only [b2n_false, b2n_true, F2.bit64] at *; omega))
  have e7 : fld W 0 4 = 0 := F.f0_4.trans (by first | rfl | omega | (simp only [b2n_false, b2n_true, F2.bit64] at *; omega))
  refine ⟨?_, F.lt⟩
  simp only [decodeWord, parseWord, parseL, parseU, lrA, lrB, lrBClean, lrNoB, lrNoA, lmA, lmD, fbit, fv, fs, fp, fq, fbv, fz, b2n_beq, fin_ofNat, bv_ofNat, Option.map_some, if_true, if_false, Bool.false_eq_true, Bool.not_false, Bool.not_true, Bool.true_or, Bool.or_true, Bool.false_or, Bool.and_self, Bool.true_and, Bool.and_true, Nat.reduceBEq, beq_self_eq_true, reduceIte, sh.isLt, F.f31_1, F.f30_1, e2, F.f19_5, F.f14_5, F.f9_5, e6, e7]
  exact of_ok hwf
theorem bra (sw : Bool) (off : BitVec 24) : Statement (.bra sw off) := by
  refine stmt_word rfl rfl fun hwf => ?_
  have h0 := b2n_lt sw
  have h1 := off.isLt
  obtain ⟨W, hW⟩ : ∃ W, W = encHead true sw 0x10 + off.toNat := ⟨_, rfl⟩
  rw [← hW]
  simp only [encLA, encLC, encHead, b2n_false, b2n_true, Nat.reducePow] at hW
  have e0 : fld W 31 1 = 1 := by unfold fld; omega
  have e1 : fld W 30 1 = b2n sw := by unfold fld; omega
  have e2 : fld W 24 6 = 16 := by unfold fld; omega
  have e3 : fld W 0 24 = off.toNat := by unfold fld; omega
  refine ⟨?_, by omega⟩
  simp only [decodeWord, parseWord, parseL, parseU, lrA, lrB, lrBClean, lrNoB, lrNoA, lmA, lmD, fbit, fv, fs, fp, fq, fbv, fz, b2n_beq, fin_ofNat, bv_ofNat, Option.map_some, if_true, if_false, Bool.false_eq_true, Bool.not_false, Bool.not_true, Bool.true_or, Bool.or_true, Bool.false_or, Bool.and_self, Bool.true_and, Bool.and_true, Nat.reduceBEq, beq_self_eq_true, reduceIte, e0, e1, e2, e3]
  exact of_ok hwf
theorem bru (sw : Bool) (c : UCnd) (s : SReg) (off : BitVec 16) : Statement (.bru sw c s off) := by
  refine stmt_word rfl rfl fun hwf => ?_
  have h0 := b2n_lt sw
  have h1 := UCnd_lt c
  have h2 := s.isLt
  have h3 := off.isLt
  obtain ⟨W, hW, F⟩ : ∃ W, W = encUK sw 0x11 s.val c.code off.toNat ∧ IsUK W sw 0x11 s.val c.code off.toNat := ⟨_, rfl, IsUK.make sw 0x11 s.val c.code off.toNat (by decide) (by omega) (by first | omega | (simp only [b2n_false, b2n_true, F2.bit64] at *; omega)) (by omega) (b2n_lt sw)⟩
  rw [← hW]
  have e2 : fld W 24 6 = 17 := F.f24_6.trans (by first | rfl | omega | (simp only [b2n_false, b2n_true, F2.bit64] at *; omega))
  refine ⟨?_, F.lt⟩
  simp only [decodeWord, parseWord, parseL, parseU, lrA, lrB, lrBClean, lrNoB, lrNoA, lmA, lmD, fbit, fv, fs, fp, fq, fbv, fz, b2n_beq, fin_ofNat, bv_ofNat, Option.map_some, if_true, if_false, Bool.false_eq_true, Bool.not_false, Bool.not_true, Bool.true_or, Bool.or_true, Bool.false_or, Bool.and_self, Bool.true_and, Bool.and_true, Nat.reduceBEq, beq_self_eq_true, reduceIte, UCnd_of, F.f31_1, F.f30_1, e2, F.f19_5, F.f16_3, F.f0_16]
  exact of_ok hwf
theorem call (sw : Bool) (off : BitVec 24) : Statement (.call sw off) := by
  refine stmt_word rfl rfl fun hwf => ?_
  have h0 := b2n_lt sw
  have h1 := off.isLt
  obtain ⟨W, hW⟩ : ∃ W, W = encHead true sw 0x12 + off.toNat := ⟨_, rfl⟩
  rw [← hW]
  simp only [encLA, encLC, encHead, b2n_false, b2n_true, Nat.reducePow] at hW
  have e0 : fld W 31 1 = 1 := by unfold fld; omega
  have e1 : fld W 30 1 = b2n sw := by unfold fld; omega
  have e2 : fld W 24 6 = 18 := by unfold fld; omega
  have e3 : fld W 0 24 = off.toNat := by unfold fld; omega
  refine ⟨?_, by omega⟩
  simp only [decodeWord, parseWord, parseL, parseU, lrA, lrB, lrBClean, lrNoB, lrNoA, lmA, lmD, fbit, fv, fs, fp, fq, fbv, fz, b2n_beq, fin_ofNat, bv_ofNat, Option.map_some, if_true, if_false, Bool.false_eq_true, Bool.not_false, Bool.not_true, Bool.true_or, Bool.or_true, Bool.false_or, Bool.and_self, Bool.true_and, Bool.and_true, Nat.reduceBEq, beq_self_eq_true, reduceIte, e0, e1, e2, e3]
  exact of_ok hwf
theorem ret (sw : Bool) : Statement (.ret sw) := by
  refine stmt_word rfl rfl fun hwf => ?_
  have h0 := b2n_lt sw
  obtain ⟨W, hW⟩ : ∃ W, W = encHead true sw 0x13 := ⟨_, rfl⟩
  rw [← hW]
  simp only [encLA, encLC, encHead, b2n_false, b2n_true, Nat.reducePow] at hW
  have e0 : fld W 31 1 = 1 := by unfold fld; omega
  have e1 : fld W 30 1 = b2n sw := by unfold fld; omega
  have e2 : fld W 24 6 = 19 := by unfold fld; omega
  have e3 : fld W 4 5 = 0 := by unfold fld; omega
  have e4 : fld W 9 15 = 0 := by unfold fld; omega
  have e5 : fld W 0 4 = 0 := by unfold fld; omega
  refine ⟨?_, by omega⟩
  simp only [decodeWord, parseWord, parseL, parseU, lrA, lrB, lrBClean, lrNoB, lrNoA, lmA, lmD, fbit, fv, fs, fp, fq, fbv, fz, b2n_beq, fin_ofNat, bv_ofNat, Option.map_some, if_true, if_false, Bool.false_eq_true, Bool.not_false, Bool.not_true, Bool.true_or, Bool.or_true, Bool.false_or, Bool.and_self, Bool.true_and, Bool.and_true, Nat.reduceBEq, beq_self_eq_true, reduceIte, e0, e1, e2, e3, e4, e5]
  exact of_ok hwf
theorem exit (sw : Bool) : Statement (.exit sw) := by
  refine stmt_word rfl rfl fun hwf => ?_
  have h0 := b2n_lt sw
  obtain ⟨W, hW⟩ : ∃ W, W = encHead true sw 0x14 := ⟨_, rfl⟩
  rw [← hW]
  simp only [encLA, encLC, encHead, b2n_false, b2n_true, Nat.reducePow] at hW
  have e0 : fld W 31 1 = 1 := by unfold fld; omega
  have e1 : fld W 30 1 = b2n sw := by unfold fld; omega
  have e2 : fld W 24 6 = 20 := by unfold fld; omega
  have e3 : fld W 4 5 = 0 := by unfold fld; omega
  have e4 : fld W 9 15 = 0 := by unfold fld; omega
  have e5 : fld W 0 4 = 0 := by unfold fld; omega
  refine ⟨?_, by omega⟩
  simp only [decodeWord, parseWord, parseL, parseU, lrA, lrB, lrBClean, lrNoB, lrNoA, lmA, lmD, fbit, fv, fs, fp, fq, fbv, fz, b2n_beq, fin_ofNat, bv_ofNat, Option.map_some, if_true, if_false, Bool.false_eq_true, Bool.not_false, Bool.not_true, Bool.true_or, Bool.or_true, Bool.false_or, Bool.and_self, Bool.true_and, Bool.and_true, Nat.reduceBEq, beq_self_eq_true, reduceIte, e0, e1, e2, e3, e4, e5]
  exact of_ok hwf
theorem trapi (sw : Bool) (code : BitVec 16) : Statement (.trapi sw code) := by
  refine stmt_word rfl rfl fun hwf => ?_
  have h0 := b2n_lt sw
  have h1 := code.isLt
  obtain ⟨W, hW, F⟩ : ∃ W, W = encUK sw 0x15 0 0 code.toNat ∧ IsUK W sw 0x15 0 0 code.toNat := ⟨_, rfl, IsUK.make sw 0x15 0 0 code.toNat (by decide) (by omega) (by first | omega | (simp only [b2n_false, b2n_true, F2.bit64] at *; omega)) (by omega) (b2n_lt sw)⟩
  rw [← hW]
  have e2 : fld W 24 6 = 21 := F.f24_6.trans (by first | rfl | omega | (simp only [b2n_false, b2n_true, F2.bit64] at *; omega))
  refine ⟨?_, F.lt⟩
  simp only [decodeWord, parseWord, parseL, parseU, lrA, lrB, lrBClean, lrNoB, lrNoA, lmA, lmD, fbit, fv, fs, fp, fq, fbv, fz, b2n_beq, fin_ofNat, bv_ofNat, Option.map_some, if_true, if_false, Bool.false_eq_true, Bool.not_false, Bool.not_true, Bool.true_or, Bool.or_true, Bool.false_or, Bool.and_self, Bool.true_and, Bool.and_true, Nat.reduceBEq, beq_self_eq_true, reduceIte, F.f31_1, F.f30_1, e2, F.f16_3, F.f0_16, F.f19_5]
  exact of_ok hwf
theorem waitcy (sw : Bool) (n : BitVec 16) : Statement (.waitcy sw n) := by
  refine stmt_word rfl rfl fun hwf => ?_
  have h0 := b2n_lt sw
  have h1 := n.isLt
  obtain ⟨W, hW, F⟩ : ∃ W, W = encUK sw 0x16 0 0 n.toNat ∧ IsUK W sw 0x16 0 0 n.toNat := ⟨_, rfl, IsUK.make sw 0x16 0 0 n.toNat (by decide) (by omega) (by first | omega | (simp only [b2n_false, b2n_true, F2.bit64] at *; omega)) (by omega) (b2n_lt sw)⟩
  rw [← hW]
  have e2 : fld W 24 6 = 22 := F.f24_6.trans (by first | rfl | omega | (simp only [b2n_false, b2n_true, F2.bit64] at *; omega))
  refine ⟨?_, F.lt⟩
  simp only [decodeWord, parseWord, parseL, parseU, lrA, lrB, lrBClean, lrNoB, lrNoA, lmA, lmD, fbit, fv, fs, fp, fq, fbv, fz, b2n_beq, fin_ofNat, bv_ofNat, Option.map_some, if_true, if_false, Bool.false_eq_true, Bool.not_false, Bool.not_true, Bool.true_or, Bool.or_true, Bool.false_or, Bool.and_self, Bool.true_and, Bool.and_true, Nat.reduceBEq, beq_self_eq_true, reduceIte, F.f31_1, F.f30_1, e2, F.f16_3, F.f0_16, F.f19_5]
  exact of_ok hwf
theorem bar (sw : Bool) (count : Option (Fin 16)) : Statement (.bar sw count) := by
  refine stmt_word rfl rfl fun hwf => ?_
  cases count with
  | none =>
    have h0 := b2n_lt sw
    obtain ⟨W, hW, F⟩ : ∃ W, W = encUX sw 0x18 0 0 0 0 ∧ IsUX W sw 0x18 0 0 0 0 := ⟨_, rfl, IsUX.make sw 0x18 0 0 0 0 (by decide) (by omega) (by omega) (by omega) (by first | omega | (simp only [b2n_false, b2n_true, F2.bit64] at *; omega)) (b2n_lt sw)⟩
    show decodeWord (encUX sw 0x18 0 0 0 0) = _ ∧ encUX sw 0x18 0 0 0 0 < _
    rw [← hW]
    have e2 : fld W 24 6 = 24 := F.f24_6.trans (by first | rfl | omega | (simp only [b2n_false, b2n_true, F2.bit64] at *; omega))
    have e3 : fld W 4 1 = 0 := F.f4_1.trans (by first | rfl | omega | (simp only [b2n_false, b2n_true, F2.bit64] at *; omega))
    have e4 : fld W 9 15 = 0 := F.f9_15.trans (by first | rfl | omega | (simp only [b2n_false, b2n_true, F2.bit64] at *; omega))
    have e5 : fld W 5 4 = 0 := F.f5_4.trans (by first | rfl | omega | (simp only [b2n_false, b2n_true, F2.bit64] at *; omega))
    have e6 : fld W 0 4 = 0 := F.f0_4.trans (by first | rfl | omega | (simp only [b2n_false, b2n_true, F2.bit64] at *; omega))
    refine ⟨?_, F.lt⟩
    simp only [decodeWord, parseWord, parseL, parseU, lrA, lrB, lrBClean, lrNoB, lrNoA, lmA, lmD, fbit, fv, fs, fp, fq, fbv, fz, b2n_beq, fin_ofNat, bv_ofNat, Option.map_some, if_true, if_false, Bool.false_eq_true, Bool.not_false, Bool.not_true, Bool.true_or, Bool.or_true, Bool.false_or, Bool.and_self, Bool.true_and, Bool.and_true, Nat.reduceBEq, beq_self_eq_true, reduceIte, F.f31_1, F.f30_1, e2, e3, e4, e5, e6]
    exact of_ok hwf
  | some n =>
    have h0 := b2n_lt sw
    have h1 := n.isLt
    obtain ⟨W, hW, F⟩ : ∃ W, W = encUX sw 0x18 0 0 0 (16 + n.val) ∧ IsUX W sw 0x18 0 0 0 (16 + n.val) := ⟨_, rfl, IsUX.make sw 0x18 0 0 0 (16 + n.val) (by decide) (by omega) (by omega) (by omega) (by first | omega | (simp only [b2n_false, b2n_true, F2.bit64] at *; omega)) (b2n_lt sw)⟩
    show decodeWord (encUX sw 0x18 0 0 0 (16 + n.val)) = _ ∧ encUX sw 0x18 0 0 0 (16 + n.val) < _
    rw [← hW]
    have e2 : fld W 24 6 = 24 := F.f24_6.trans (by first | rfl | omega | (simp only [b2n_false, b2n_true, F2.bit64] at *; omega))
    have e3 : fld W 4 1 = 1 := F.f4_1.trans (by first | rfl | omega | (simp only [b2n_false, b2n_true, F2.bit64] at *; omega))
    have e4 : fld W 9 15 = 0 := F.f9_15.trans (by first | rfl | omega | (simp only [b2n_false, b2n_true, F2.bit64] at *; omega))
    have e5 : fld W 5 4 = 0 := F.f5_4.trans (by first | rfl | omega | (simp only [b2n_false, b2n_true, F2.bit64] at *; omega))
    have e6 : fld W 0 4 = n.val := F.f0_4.trans (by first | rfl | omega | (simp only [b2n_false, b2n_true, F2.bit64] at *; omega))
    refine ⟨?_, F.lt⟩
    simp only [decodeWord, parseWord, parseL, parseU, lrA, lrB, lrBClean, lrNoB, lrNoA, lmA, lmD, fbit, fv, fs, fp, fq, fbv, fz, b2n_beq, fin_ofNat, bv_ofNat, Option.map_some, if_true, if_false, Bool.false_eq_true, Bool.not_false, Bool.not_true, Bool.true_or, Bool.or_true, Bool.false_or, Bool.and_self, Bool.true_and, Bool.and_true, Nat.reduceBEq, beq_self_eq_true, reduceIte, F.f31_1, F.f30_1, e2, e3, e4, e5, e6]
    exact of_ok hwf
theorem cbar (sw : Bool) : Statement (.cbar sw) := by
  refine stmt_word rfl rfl fun hwf => ?_
  have h0 := b2n_lt sw
  obtain ⟨W, hW, F⟩ : ∃ W, W = encUX sw 0x19 0 0 0 0 ∧ IsUX W sw 0x19 0 0 0 0 := ⟨_, rfl, IsUX.make sw 0x19 0 0 0 0 (by decide) (by omega) (by omega) (by omega) (by first | omega | (simp only [b2n_false, b2n_true, F2.bit64] at *; omega)) (b2n_lt sw)⟩
  rw [← hW]
  have e2 : fld W 24 6 = 25 := F.f24_6.trans (by first | rfl | omega | (simp only [b2n_false, b2n_true, F2.bit64] at *; omega))
  have e3 : fld W 0 24 = 0 := F.f0_24.trans (by first | rfl | omega | (simp only [b2n_false, b2n_true, F2.bit64] at *; omega))
  refine ⟨?_, F.lt⟩
  simp only [decodeWord, parseWord, parseL, parseU, lrA, lrB, lrBClean, lrNoB, lrNoA, lmA, lmD, fbit, fv, fs, fp, fq, fbv, fz, b2n_beq, fin_ofNat, bv_ofNat, Option.map_some, if_true, if_false, Bool.false_eq_true, Bool.not_false, Bool.not_true, Bool.true_or, Bool.or_true, Bool.false_or, Bool.and_self, Bool.true_and, Bool.and_true, Nat.reduceBEq, beq_self_eq_true, reduceIte, F.f31_1, F.f30_1, e2, e3]
  exact of_ok hwf
theorem fence (sw : Bool) (k : FenceKind) (sc : Scope) : Statement (.fence sw k sc) := by
  refine stmt_word rfl rfl fun hwf => ?_
  have h0 := b2n_lt sw
  have h1 := FenceKind_lt k
  have h2 := Scope_lt sc
  obtain ⟨W, hW, F⟩ : ∃ W, W = encUX sw 0x1A 0 0 0 (8 * k.code + sc.code) ∧ IsUX W sw 0x1A 0 0 0 (8 * k.code + sc.code) := ⟨_, rfl, IsUX.make sw 0x1A 0 0 0 (8 * k.code + sc.code) (by decide) (by omega) (by omega) (by omega) (by first | omega | (simp only [b2n_false, b2n_true, F2.bit64] at *; omega)) (b2n_lt sw)⟩
  rw [← hW]
  have e2 : fld W 24 6 = 26 := F.f24_6.trans (by first | rfl | omega | (simp only [b2n_false, b2n_true, F2.bit64] at *; omega))
  have e3 : fld W 3 2 = k.code := F.f3_2.trans (by first | rfl | omega | (simp only [b2n_false, b2n_true, F2.bit64] at *; omega))
  have e4 : fld W 0 3 = sc.code := F.f0_3.trans (by first | rfl | omega | (simp only [b2n_false, b2n_true, F2.bit64] at *; omega))
  have e5 : fld W 5 19 = 0 := F.f5_19.trans (by first | rfl | omega | (simp only [b2n_false, b2n_true, F2.bit64] at *; omega))
  refine ⟨?_, F.lt⟩
  simp only [decodeWord, parseWord, parseL, parseU, lrA, lrB, lrBClean, lrNoB, lrNoA, lmA, lmD, fbit, fv, fs, fp, fq, fbv, fz, b2n_beq, fin_ofNat, bv_ofNat, Option.map_some, if_true, if_false, Bool.false_eq_true, Bool.not_false, Bool.not_true, Bool.true_or, Bool.or_true, Bool.false_or, Bool.and_self, Bool.true_and, Bool.and_true, Nat.reduceBEq, beq_self_eq_true, reduceIte, FenceKind_of, Scope_of, F.f31_1, F.f30_1, e2, e3, e4, e5]
  exact of_ok hwf
theorem waita (sw : Bool) (sc : Scope) (w64 : Bool) (c : WaitCond) (x : SReg) (y : SReg) (z : SReg) : Statement (.waita sw sc w64 c x y z) := by
  refine stmt_word rfl rfl fun hwf => ?_
  have h0 := b2n_lt sw
  have h1 := Scope_lt sc
  have h2 := b2n_lt w64
  have h3 := WaitCond_lt c
  have h4 := x.isLt
  have h5 := y.isLt
  have h6 := z.isLt
  obtain ⟨W, hW, F⟩ : ∃ W, W = encUX sw 0x1B x.val y.val z.val (16 * sc.code + 8 * b2n w64 + c.code) ∧ IsUX W sw 0x1B x.val y.val z.val (16 * sc.code + 8 * b2n w64 + c.code) := ⟨_, rfl, IsUX.make sw 0x1B x.val y.val z.val (16 * sc.code + 8 * b2n w64 + c.code) (by decide) (by omega) (by omega) (by omega) (by first | omega | (simp only [b2n_false, b2n_true, F2.bit64] at *; omega)) (b2n_lt sw)⟩
  rw [← hW]
  have e2 : fld W 24 6 = 27 := F.f24_6.trans (by first | rfl | omega | (simp only [b2n_false, b2n_true, F2.bit64] at *; omega))
  have e6 : fld W 4 3 = sc.code := F.f4_3.trans (by first | rfl | omega | (simp only [b2n_false, b2n_true, F2.bit64] at *; omega))
  have e7 : fld W 3 1 = b2n w64 := F.f3_1.trans (by first | rfl | omega | (simp only [b2n_false, b2n_true, F2.bit64] at *; omega))
  have e8 : fld W 0 3 = c.code := F.f0_3.trans (by first | rfl | omega | (simp only [b2n_false, b2n_true, F2.bit64] at *; omega))
  have e9 : fld W 7 2 = 0 := F.f7_2.trans (by first | rfl | omega | (simp only [b2n_false, b2n_true, F2.bit64] at *; omega))
  refine ⟨?_, F.lt⟩
  simp only [decodeWord, parseWord, parseL, parseU, lrA, lrB, lrBClean, lrNoB, lrNoA, lmA, lmD, fbit, fv, fs, fp, fq, fbv, fz, b2n_beq, fin_ofNat, bv_ofNat, Option.map_some, if_true, if_false, Bool.false_eq_true, Bool.not_false, Bool.not_true, Bool.true_or, Bool.or_true, Bool.false_or, Bool.and_self, Bool.true_and, Bool.and_true, Nat.reduceBEq, beq_self_eq_true, reduceIte, Scope_of, WaitCond_of, F.f31_1, F.f30_1, e2, F.f19_5, F.f14_5, F.f9_5, e6, e7, e8, e9]
  exact of_ok hwf
theorem qinit (sw : Bool) (cons : Fin 16) (prod : Fin 16) (x : SReg) (y : SReg) : Statement (.qinit sw cons prod x y) := by
  refine stmt_word rfl rfl fun hwf => ?_
  have h0 := b2n_lt sw
  have h1 := cons.isLt
  have h2 := prod.isLt
  have h3 := x.isLt
  have h4 := y.isLt
  obtain ⟨W, hW, F⟩ : ∃ W, W = encUX sw 0x1C x.val y.val 0 (16 * cons.val + prod.val) ∧ IsUX W sw 0x1C x.val y.val 0 (16 * cons.val + prod.val) := ⟨_, rfl, IsUX.make sw 0x1C x.val y.val 0 (16 * cons.val + prod.val) (by decide) (by omega) (by omega) (by omega) (by first | omega | (simp only [b2n_false, b2n_true, F2.bit64] at *; omega)) (b2n_lt sw)⟩
  rw [← hW]
  have e2 : fld W 24 6 = 28 := F.f24_6.trans (by first | rfl | omega | (simp only [b2n_false, b2n_true, F2.bit64] at *; omega))
  have e5 : fld W 4 4 = cons.val := F.f4_4.trans (by first | rfl | omega | (simp only [b2n_false, b2n_true, F2.bit64] at *; omega))
  have e6 : fld W 0 4 = prod.val := F.f0_4.trans (by first | rfl | omega | (simp only [b2n_false, b2n_true, F2.bit64] at *; omega))
  have e7 : fld W 8 6 = 0 := F.f8_6.trans (by first | rfl | omega | (simp only [b2n_false, b2n_true, F2.bit64] at *; omega))
  refine ⟨?_, F.lt⟩
  simp only [decodeWord, parseWord, parseL, parseU, lrA, lrB, lrBClean, lrNoB, lrNoA, lmA, lmD, fbit, fv, fs, fp, fq, fbv, fz, b2n_beq, fin_ofNat, bv_ofNat, Option.map_some, if_true, if_false, Bool.false_eq_true, Bool.not_false, Bool.not_true, Bool.true_or, Bool.or_true, Bool.false_or, Bool.and_self, Bool.true_and, Bool.and_true, Nat.reduceBEq, beq_self_eq_true, reduceIte, F.f31_1, F.f30_1, e2, F.f19_5, F.f14_5, e5, e6, e7]
  exact of_ok hwf
theorem qpush (sw : Bool) (x : SReg) (y : SReg) : Statement (.qpush sw x y) := by
  refine stmt_word rfl rfl fun hwf => ?_
  have h0 := b2n_lt sw
  have h1 := x.isLt
  have h2 := y.isLt
  obtain ⟨W, hW, F⟩ : ∃ W, W = encUX sw 0x1D x.val y.val 0 0 ∧ IsUX W sw 0x1D x.val y.val 0 0 := ⟨_, rfl, IsUX.make sw 0x1D x.val y.val 0 0 (by decide) (by omega) (by omega) (by omega) (by first | omega | (simp only [b2n_false, b2n_true, F2.bit64] at *; omega)) (b2n_lt sw)⟩
  rw [← hW]
  have e2 : fld W 24 6 = 29 := F.f24_6.trans (by first | rfl | omega | (simp only [b2n_false, b2n_true, F2.bit64] at *; omega))
  have e5 : fld W 0 14 = 0 := F.f0_14.trans (by first | rfl | omega | (simp only [b2n_false, b2n_true, F2.bit64] at *; omega))
  refine ⟨?_, F.lt⟩
  simp only [decodeWord, parseWord, parseL, parseU, lrA, lrB, lrBClean, lrNoB, lrNoA, lmA, lmD, fbit, fv, fs, fp, fq, fbv, fz, b2n_beq, fin_ofNat, bv_ofNat, Option.map_some, if_true, if_false, Bool.false_eq_true, Bool.not_false, Bool.not_true, Bool.true_or, Bool.or_true, Bool.false_or, Bool.and_self, Bool.true_and, Bool.and_true, Nat.reduceBEq, beq_self_eq_true, reduceIte, F.f31_1, F.f30_1, e2, F.f19_5, F.f14_5, e5]
  exact of_ok hwf
theorem qpop (sw : Bool) (x : SReg) (y : SReg) : Statement (.qpop sw x y) := by
  refine stmt_word rfl rfl fun hwf => ?_
  have h0 := b2n_lt sw
  have h1 := x.isLt
  have h2 := y.isLt
  obtain ⟨W, hW, F⟩ : ∃ W, W = encUX sw 0x1E x.val y.val 0 0 ∧ IsUX W sw 0x1E x.val y.val 0 0 := ⟨_, rfl, IsUX.make sw 0x1E x.val y.val 0 0 (by decide) (by omega) (by omega) (by omega) (by first | omega | (simp only [b2n_false, b2n_true, F2.bit64] at *; omega)) (b2n_lt sw)⟩
  rw [← hW]
  have e2 : fld W 24 6 = 30 := F.f24_6.trans (by first | rfl | omega | (simp only [b2n_false, b2n_true, F2.bit64] at *; omega))
  have e5 : fld W 0 14 = 0 := F.f0_14.trans (by first | rfl | omega | (simp only [b2n_false, b2n_true, F2.bit64] at *; omega))
  refine ⟨?_, F.lt⟩
  simp only [decodeWord, parseWord, parseL, parseU, lrA, lrB, lrBClean, lrNoB, lrNoA, lmA, lmD, fbit, fv, fs, fp, fq, fbv, fz, b2n_beq, fin_ofNat, bv_ofNat, Option.map_some, if_true, if_false, Bool.false_eq_true, Bool.not_false, Bool.not_true, Bool.true_or, Bool.or_true, Bool.false_or, Bool.and_self, Bool.true_and, Bool.and_true, Nat.reduceBEq, beq_self_eq_true, reduceIte, F.f31_1, F.f30_1, e2, F.f19_5, F.f14_5, e5]
  exact of_ok hwf
theorem uatom (sw : Bool) (discard : Bool) (op : UOp) (sem : Sem) (x : SReg) (y : SReg) (z : SReg) : Statement (.uatom sw discard op sem x y z) := by
  refine stmt_word rfl rfl fun hwf => ?_
  cases op with
  | i w op =>
    have h0 := b2n_lt sw
    have h1 := b2n_lt discard
    have h2 := Sem_lt sem
    have h3 := x.isLt
    have h4 := y.isLt
    have h5 := z.isLt
    have h6 := b2n_lt w
    have h7 := AopI_lt op
    obtain ⟨W, hW, F⟩ : ∃ W, W = encUX sw 0x1F x.val y.val z.val (256 * b2n discard + (128 * b2n w + 8 * op.code) + sem.code) ∧ IsUX W sw 0x1F x.val y.val z.val (256 * b2n discard + (128 * b2n w + 8 * op.code) + sem.code) := ⟨_, rfl, IsUX.make sw 0x1F x.val y.val z.val (256 * b2n discard + (128 * b2n w + 8 * op.code) + sem.code) (by decide) (by omega) (by omega) (by omega) (by first | omega | (simp only [b2n_false, b2n_true, F2.bit64] at *; omega)) (b2n_lt sw)⟩
    show decodeWord (encUX sw 0x1F x.val y.val z.val (256 * b2n discard + (128 * b2n w + 8 * op.code) + sem.code)) = _ ∧ encUX sw 0x1F x.val y.val z.val (256 * b2n discard + (128 * b2n w + 8 * op.code) + sem.code) < _
    rw [← hW]
    have e2 : fld W 24 6 = 31 := F.f24_6.trans (by first | rfl | omega | (simp only [b2n_false, b2n_true, F2.bit64] at *; omega))
    have e6 : fld W 8 1 = b2n discard := F.f8_1.trans (by first | rfl | omega | (simp only [b2n_false, b2n_true, F2.bit64] at *; omega))
    have e7 : fld W 0 3 = sem.code := F.f0_3.trans (by first | rfl | omega | (simp only [b2n_false, b2n_true, F2.bit64] at *; omega))
    have e8 : fld W 3 3 = op.code := F.f3_3.trans (by first | rfl | omega | (simp only [b2n_false, b2n_true, F2.bit64] at *; omega))
    have e9 : fld W 6 1 = 0 := F.f6_1.trans (by first | rfl | omega | (simp only [b2n_false, b2n_true, F2.bit64] at *; omega))
    have e10 : fld W 7 1 = b2n w := F.f7_1.trans (by first | rfl | omega | (simp only [b2n_false, b2n_true, F2.bit64] at *; omega))
    refine ⟨?_, F.lt⟩
    simp only [decodeWord, parseWord, parseL, parseU, lrA, lrB, lrBClean, lrNoB, lrNoA, lmA, lmD, fbit, fv, fs, fp, fq, fbv, fz, b2n_beq, fin_ofNat, bv_ofNat, Option.map_some, if_true, if_false, Bool.false_eq_true, Bool.not_false, Bool.not_true, Bool.true_or, Bool.or_true, Bool.false_or, Bool.and_self, Bool.true_and, Bool.and_true, Nat.reduceBEq, beq_self_eq_true, reduceIte, Sem_of, uopOf, AopI_of, F.f31_1, F.f30_1, e2, F.f19_5, F.f14_5, F.f9_5, e6, e7, e8, e9, e10]
    exact of_ok hwf
  | f op =>
    have h0 := b2n_lt sw
    have h1 := b2n_lt discard
    have h2 := Sem_lt sem
    have h3 := x.isLt
    have h4 := y.isLt
    have h5 := z.isLt
    have h6 := AopF_lt op
    obtain ⟨W, hW, F⟩ : ∃ W, W = encUX sw 0x1F x.val y.val z.val (256 * b2n discard + (64 + 8 * op.code) + sem.code) ∧ IsUX W sw 0x1F x.val y.val z.val (256 * b2n discard + (64 + 8 * op.code) + sem.code) := ⟨_, rfl, IsUX.make sw 0x1F x.val y.val z.val (256 * b2n discard + (64 + 8 * op.code) + sem.code) (by decide) (by omega) (by omega) (by omega) (by first | omega | (simp only [b2n_false, b2n_true, F2.bit64] at *; omega)) (b2n_lt sw)⟩
    show decodeWord (encUX sw 0x1F x.val y.val z.val (256 * b2n discard + (64 + 8 * op.code) + sem.code)) = _ ∧ encUX sw 0x1F x.val y.val z.val (256 * b2n discard + (64 + 8 * op.code) + sem.code) < _
    rw [← hW]
    have e2 : fld W 24 6 = 31 := F.f24_6.trans (by first | rfl | omega | (simp only [b2n_false, b2n_true, F2.bit64] at *; omega))
    have e6 : fld W 8 1 = b2n discard := F.f8_1.trans (by first | rfl | omega | (simp only [b2n_false, b2n_true, F2.bit64] at *; omega))
    have e7 : fld W 0 3 = sem.code := F.f0_3.trans (by first | rfl | omega | (simp only [b2n_false, b2n_true, F2.bit64] at *; omega))
    have e8 : fld W 3 3 = op.code := F.f3_3.trans (by first | rfl | omega | (simp only [b2n_false, b2n_true, F2.bit64] at *; omega))
    have e9 : fld W 6 1 = 1 := F.f6_1.trans (by first | rfl | omega | (simp only [b2n_false, b2n_true, F2.bit64] at *; omega))
    have e10 : fld W 7 1 = 0 := F.f7_1.trans (by first | rfl | omega | (simp only [b2n_false, b2n_true, F2.bit64] at *; omega))
    refine ⟨?_, F.lt⟩
    simp only [decodeWord, parseWord, parseL, parseU, lrA, lrB, lrBClean, lrNoB, lrNoA, lmA, lmD, fbit, fv, fs, fp, fq, fbv, fz, b2n_beq, fin_ofNat, bv_ofNat, Option.map_some, if_true, if_false, Bool.false_eq_true, Bool.not_false, Bool.not_true, Bool.true_or, Bool.or_true, Bool.false_or, Bool.and_self, Bool.true_and, Bool.and_true, Nat.reduceBEq, beq_self_eq_true, reduceIte, Sem_of, uopOf, AopF_of, F.f31_1, F.f30_1, e2, F.f19_5, F.f14_5, F.f9_5, e6, e7, e8, e9, e10]
    exact of_ok hwf
theorem ldsh (sw : Bool) (scr : Bool) (x : Fin 32) (y : SReg) : Statement (.ldsh sw scr x y) := by
  refine stmt_word rfl rfl fun hwf => ?_
  have h0 := b2n_lt sw
  have h1 := b2n_lt scr
  have h2 := x.isLt
  have h3 := y.isLt
  obtain ⟨W, hW, F⟩ : ∃ W, W = encUX sw 0x20 x.val y.val 0 (b2n scr) ∧ IsUX W sw 0x20 x.val y.val 0 (b2n scr) := ⟨_, rfl, IsUX.make sw 0x20 x.val y.val 0 (b2n scr) (by decide) (by omega) (by omega) (by omega) (by first | omega | (simp only [b2n_false, b2n_true, F2.bit64] at *; omega)) (b2n_lt sw)⟩
  rw [← hW]
  have e2 : fld W 24 6 = 32 := F.f24_6.trans (by first | rfl | omega | (simp only [b2n_false, b2n_true, F2.bit64] at *; omega))
  have e5 : fld W 0 1 = b2n scr := F.f0_1.trans (by first | rfl | omega | (simp only [b2n_false, b2n_true, F2.bit64] at *; omega))
  have e6 : fld W 1 13 = 0 := F.f1_13.trans (by first | rfl | omega | (simp only [b2n_false, b2n_true, F2.bit64] at *; omega))
  refine ⟨?_, F.lt⟩
  simp only [decodeWord, parseWord, parseL, parseU, lrA, lrB, lrBClean, lrNoB, lrNoA, lmA, lmD, fbit, fv, fs, fp, fq, fbv, fz, b2n_beq, fin_ofNat, bv_ofNat, Option.map_some, if_true, if_false, Bool.false_eq_true, Bool.not_false, Bool.not_true, Bool.true_or, Bool.or_true, Bool.false_or, Bool.and_self, Bool.true_and, Bool.and_true, Nat.reduceBEq, beq_self_eq_true, reduceIte, F.f31_1, F.f30_1, e2, F.f19_5, F.f14_5, e5, e6]
  exact of_ok hwf
theorem evsh (sw : Bool) (x : Fin 32) : Statement (.evsh sw x) := by
  refine stmt_word rfl rfl fun hwf => ?_
  have h0 := b2n_lt sw
  have h1 := x.isLt
  obtain ⟨W, hW, F⟩ : ∃ W, W = encUX sw 0x21 x.val 0 0 0 ∧ IsUX W sw 0x21 x.val 0 0 0 := ⟨_, rfl, IsUX.make sw 0x21 x.val 0 0 0 (by decide) (by omega) (by omega) (by omega) (by first | omega | (simp only [b2n_false, b2n_true, F2.bit64] at *; omega)) (b2n_lt sw)⟩
  rw [← hW]
  have e2 : fld W 24 6 = 33 := F.f24_6.trans (by first | rfl | omega | (simp only [b2n_false, b2n_true, F2.bit64] at *; omega))
  have e4 : fld W 0 19 = 0 := F.f0_19.trans (by first | rfl | omega | (simp only [b2n_false, b2n_true, F2.bit64] at *; omega))
  refine ⟨?_, F.lt⟩
  simp only [decodeWord, parseWord, parseL, parseU, lrA, lrB, lrBClean, lrNoB, lrNoA, lmA, lmD, fbit, fv, fs, fp, fq, fbv, fz, b2n_beq, fin_ofNat, bv_ofNat, Option.map_some, if_true, if_false, Bool.false_eq_true, Bool.not_false, Bool.not_true, Bool.true_or, Bool.or_true, Bool.false_or, Bool.and_self, Bool.true_and, Bool.and_true, Nat.reduceBEq, beq_self_eq_true, reduceIte, F.f31_1, F.f30_1, e2, F.f19_5, e4]
  exact of_ok hwf
theorem copy (sw : Bool) (sp24 : Bool) (mc : Bool) (arr : Bool) (acq : Bool) (x : Fin 32) (y : Fin 32) (z : SReg) : Statement (.copy sw sp24 mc arr acq x y z) := by
  refine stmt_word rfl rfl fun hwf => ?_
  have h0 := b2n_lt sw
  have h1 := b2n_lt sp24
  have h2 := b2n_lt mc
  have h3 := b2n_lt arr
  have h4 := b2n_lt acq
  have h5 := x.isLt
  have h6 := y.isLt
  have h7 := z.isLt
  obtain ⟨W, hW, F⟩ : ∃ W, W = encUX sw 0x22 x.val y.val z.val (8 * b2n sp24 + 4 * b2n mc + 2 * b2n arr + b2n acq) ∧ IsUX W sw 0x22 x.val y.val z.val (8 * b2n sp24 + 4 * b2n mc + 2 * b2n arr + b2n acq) := ⟨_, rfl, IsUX.make sw 0x22 x.val y.val z.val (8 * b2n sp24 + 4 * b2n mc + 2 * b2n arr + b2n acq) (by decide) (by omega) (by omega) (by omega) (by first | omega | (simp only [b2n_false, b2n_true, F2.bit64] at *; omega)) (b2n_lt sw)⟩
  rw [← hW]
  have e2 : fld W 24 6 = 34 := F.f24_6.trans (by first | rfl | omega | (simp only [b2n_false, b2n_true, F2.bit64] at *; omega))
  have e6 : fld W 3 1 = b2n sp24 := F.f3_1.trans (by first | rfl | omega | (simp only [b2n_false, b2n_true, F2.bit64] at *; omega))
  have e7 : fld W 2 1 = b2n mc := F.f2_1.trans (by first | rfl | omega | (simp only [b2n_false, b2n_true, F2.bit64] at *; omega))
  have e8 : fld W 1 1 = b2n arr := F.f1_1.trans (by first | rfl | omega | (simp only [b2n_false, b2n_true, F2.bit64] at *; omega))
  have e9 : fld W 0 1 = b2n acq := F.f0_1.trans (by first | rfl | omega | (simp only [b2n_false, b2n_true, F2.bit64] at *; omega))
  have e10 : fld W 4 5 = 0 := F.f4_5.trans (by first | rfl | omega | (simp only [b2n_false, b2n_true, F2.bit64] at *; omega))
  refine ⟨?_, F.lt⟩
  simp only [decodeWord, parseWord, parseL, parseU, lrA, lrB, lrBClean, lrNoB, lrNoA, lmA, lmD, fbit, fv, fs, fp, fq, fbv, fz, b2n_beq, fin_ofNat, bv_ofNat, Option.map_some, if_true, if_false, Bool.false_eq_true, Bool.not_false, Bool.not_true, Bool.true_or, Bool.or_true, Bool.false_or, Bool.and_self, Bool.true_and, Bool.and_true, Nat.reduceBEq, beq_self_eq_true, reduceIte, F.f31_1, F.f30_1, e2, F.f19_5, F.f14_5, F.f9_5, e6, e7, e8, e9, e10]
  exact of_ok hwf
theorem mxlw (sw : Bool) (acq : Bool) (x : Fin 32) : Statement (.mxlw sw acq x) := by
  refine stmt_word rfl rfl fun hwf => ?_
  have h0 := b2n_lt sw
  have h1 := b2n_lt acq
  have h2 := x.isLt
  obtain ⟨W, hW, F⟩ : ∃ W, W = encUX sw 0x23 x.val 0 0 (b2n acq) ∧ IsUX W sw 0x23 x.val 0 0 (b2n acq) := ⟨_, rfl, IsUX.make sw 0x23 x.val 0 0 (b2n acq) (by decide) (by omega) (by omega) (by omega) (by first | omega | (simp only [b2n_false, b2n_true, F2.bit64] at *; omega)) (b2n_lt sw)⟩
  rw [← hW]
  have e2 : fld W 24 6 = 35 := F.f24_6.trans (by first | rfl | omega | (simp only [b2n_false, b2n_true, F2.bit64] at *; omega))
  have e4 : fld W 0 1 = b2n acq := F.f0_1.trans (by first | rfl | omega | (simp only [b2n_false, b2n_true, F2.bit64] at *; omega))
  have e5 : fld W 1 18 = 0 := F.f1_18.trans (by first | rfl | omega | (simp only [b2n_false, b2n_true, F2.bit64] at *; omega))
  refine ⟨?_, F.lt⟩
  simp only [decodeWord, parseWord, parseL, parseU, lrA, lrB, lrBClean, lrNoB, lrNoA, lmA, lmD, fbit, fv, fs, fp, fq, fbv, fz, b2n_beq, fin_ofNat, bv_ofNat, Option.map_some, if_true, if_false, Bool.false_eq_true, Bool.not_false, Bool.not_true, Bool.true_or, Bool.or_true, Bool.false_or, Bool.and_self, Bool.true_and, Bool.and_true, Nat.reduceBEq, beq_self_eq_true, reduceIte, F.f31_1, F.f30_1, e2, F.f19_5, e4, e5]
  exact of_ok hwf
theorem mxrun (sw : Bool) (z0 : Bool) (acq : Bool) (x : Fin 32) (y : Fin 32) (z : SReg) : Statement (.mxrun sw z0 acq x y z) := by
  refine stmt_word rfl rfl fun hwf => ?_
  have h0 := b2n_lt sw
  have h1 := b2n_lt z0
  have h2 := b2n_lt acq
  have h3 := x.isLt
  have h4 := y.isLt
  have h5 := z.isLt
  obtain ⟨W, hW, F⟩ : ∃ W, W = encUX sw 0x24 x.val y.val z.val (2 * b2n z0 + b2n acq) ∧ IsUX W sw 0x24 x.val y.val z.val (2 * b2n z0 + b2n acq) := ⟨_, rfl, IsUX.make sw 0x24 x.val y.val z.val (2 * b2n z0 + b2n acq) (by decide) (by omega) (by omega) (by omega) (by first | omega | (simp only [b2n_false, b2n_true, F2.bit64] at *; omega)) (b2n_lt sw)⟩
  rw [← hW]
  have e2 : fld W 24 6 = 36 := F.f24_6.trans (by first | rfl | omega | (simp only [b2n_false, b2n_true, F2.bit64] at *; omega))
  have e6 : fld W 1 1 = b2n z0 := F.f1_1.trans (by first | rfl | omega | (simp only [b2n_false, b2n_true, F2.bit64] at *; omega))
  have e7 : fld W 0 1 = b2n acq := F.f0_1.trans (by first | rfl | omega | (simp only [b2n_false, b2n_true, F2.bit64] at *; omega))
  have e8 : fld W 2 7 = 0 := F.f2_7.trans (by first | rfl | omega | (simp only [b2n_false, b2n_true, F2.bit64] at *; omega))
  refine ⟨?_, F.lt⟩
  simp only [decodeWord, parseWord, parseL, parseU, lrA, lrB, lrBClean, lrNoB, lrNoA, lmA, lmD, fbit, fv, fs, fp, fq, fbv, fz, b2n_beq, fin_ofNat, bv_ofNat, Option.map_some, if_true, if_false, Bool.false_eq_true, Bool.not_false, Bool.not_true, Bool.true_or, Bool.or_true, Bool.false_or, Bool.and_self, Bool.true_and, Bool.and_true, Nat.reduceBEq, beq_self_eq_true, reduceIte, F.f31_1, F.f30_1, e2, F.f19_5, F.f14_5, F.f9_5, e6, e7, e8]
  exact of_ok hwf
theorem hpub (sw : Bool) (x : SReg) (y : SReg) (z : SReg) : Statement (.hpub sw x y z) := by
  refine stmt_word rfl rfl fun hwf => ?_
  have h0 := b2n_lt sw
  have h1 := x.isLt
  have h2 := y.isLt
  have h3 := z.isLt
  obtain ⟨W, hW, F⟩ : ∃ W, W = encUX sw 0x28 x.val y.val z.val 0 ∧ IsUX W sw 0x28 x.val y.val z.val 0 := ⟨_, rfl, IsUX.make sw 0x28 x.val y.val z.val 0 (by decide) (by omega) (by omega) (by omega) (by first | omega | (simp only [b2n_false, b2n_true, F2.bit64] at *; omega)) (b2n_lt sw)⟩
  rw [← hW]
  have e2 : fld W 24 6 = 40 := F.f24_6.trans (by first | rfl | omega | (simp only [b2n_false, b2n_true, F2.bit64] at *; omega))
  refine ⟨?_, F.lt⟩
  simp only [decodeWord, parseWord, parseL, parseU, lrA, lrB, lrBClean, lrNoB, lrNoA, lmA, lmD, fbit, fv, fs, fp, fq, fbv, fz, b2n_beq, fin_ofNat, bv_ofNat, Option.map_some, if_true, if_false, Bool.false_eq_true, Bool.not_false, Bool.not_true, Bool.true_or, Bool.or_true, Bool.false_or, Bool.and_self, Bool.true_and, Bool.and_true, Nat.reduceBEq, beq_self_eq_true, reduceIte, F.f31_1, F.f30_1, e2, F.f19_5, F.f14_5, F.f9_5, F.f0_9]
  exact of_ok hwf
theorem xsend (sw : Bool) (acq : Bool) (x : SReg) : Statement (.xsend sw acq x) := by
  refine stmt_word rfl rfl fun hwf => ?_
  have h0 := b2n_lt sw
  have h1 := b2n_lt acq
  have h2 := x.isLt
  obtain ⟨W, hW, F⟩ : ∃ W, W = encUX sw 0x29 x.val 0 0 (b2n acq) ∧ IsUX W sw 0x29 x.val 0 0 (b2n acq) := ⟨_, rfl, IsUX.make sw 0x29 x.val 0 0 (b2n acq) (by decide) (by omega) (by omega) (by omega) (by first | omega | (simp only [b2n_false, b2n_true, F2.bit64] at *; omega)) (b2n_lt sw)⟩
  rw [← hW]
  have e2 : fld W 24 6 = 41 := F.f24_6.trans (by first | rfl | omega | (simp only [b2n_false, b2n_true, F2.bit64] at *; omega))
  have e4 : fld W 0 1 = b2n acq := F.f0_1.trans (by first | rfl | omega | (simp only [b2n_false, b2n_true, F2.bit64] at *; omega))
  have e5 : fld W 1 18 = 0 := F.f1_18.trans (by first | rfl | omega | (simp only [b2n_false, b2n_true, F2.bit64] at *; omega))
  refine ⟨?_, F.lt⟩
  simp only [decodeWord, parseWord, parseL, parseU, lrA, lrB, lrBClean, lrNoB, lrNoA, lmA, lmD, fbit, fv, fs, fp, fq, fbv, fz, b2n_beq, fin_ofNat, bv_ofNat, Option.map_some, if_true, if_false, Bool.false_eq_true, Bool.not_false, Bool.not_true, Bool.true_or, Bool.or_true, Bool.false_or, Bool.and_self, Bool.true_and, Bool.and_true, Nat.reduceBEq, beq_self_eq_true, reduceIte, F.f31_1, F.f30_1, e2, F.f19_5, e4, e5]
  exact of_ok hwf
theorem xwait (sw : Bool) (poll : Bool) (x : SReg) (y : SReg) : Statement (.xwait sw poll x y) := by
  refine stmt_word rfl rfl fun hwf => ?_
  have h0 := b2n_lt sw
  have h1 := b2n_lt poll
  have h2 := x.isLt
  have h3 := y.isLt
  obtain ⟨W, hW, F⟩ : ∃ W, W = encUX sw 0x2A x.val y.val 0 (b2n poll) ∧ IsUX W sw 0x2A x.val y.val 0 (b2n poll) := ⟨_, rfl, IsUX.make sw 0x2A x.val y.val 0 (b2n poll) (by decide) (by omega) (by omega) (by omega) (by first | omega | (simp only [b2n_false, b2n_true, F2.bit64] at *; omega)) (b2n_lt sw)⟩
  rw [← hW]
  have e2 : fld W 24 6 = 42 := F.f24_6.trans (by first | rfl | omega | (simp only [b2n_false, b2n_true, F2.bit64] at *; omega))
  have e5 : fld W 0 1 = b2n poll := F.f0_1.trans (by first | rfl | omega | (simp only [b2n_false, b2n_true, F2.bit64] at *; omega))
  have e6 : fld W 1 13 = 0 := F.f1_13.trans (by first | rfl | omega | (simp only [b2n_false, b2n_true, F2.bit64] at *; omega))
  refine ⟨?_, F.lt⟩
  simp only [decodeWord, parseWord, parseL, parseU, lrA, lrB, lrBClean, lrNoB, lrNoA, lmA, lmD, fbit, fv, fs, fp, fq, fbv, fz, b2n_beq, fin_ofNat, bv_ofNat, Option.map_some, if_true, if_false, Bool.false_eq_true, Bool.not_false, Bool.not_true, Bool.true_or, Bool.or_true, Bool.false_or, Bool.and_self, Bool.true_and, Bool.and_true, Nat.reduceBEq, beq_self_eq_true, reduceIte, F.f31_1, F.f30_1, e2, F.f19_5, F.f14_5, e5, e6]
  exact of_ok hwf
theorem xdone (sw : Bool) (wlo : Bool) (x : SReg) (y : SReg) (z : SReg) : Statement (.xdone sw wlo x y z) := by
  refine stmt_word rfl rfl fun hwf => ?_
  have h0 := b2n_lt sw
  have h1 := b2n_lt wlo
  have h2 := x.isLt
  have h3 := y.isLt
  have h4 := z.isLt
  obtain ⟨W, hW, F⟩ : ∃ W, W = encUX sw 0x2B x.val y.val z.val (b2n wlo) ∧ IsUX W sw 0x2B x.val y.val z.val (b2n wlo) := ⟨_, rfl, IsUX.make sw 0x2B x.val y.val z.val (b2n wlo) (by decide) (by omega) (by omega) (by omega) (by first | omega | (simp only [b2n_false, b2n_true, F2.bit64] at *; omega)) (b2n_lt sw)⟩
  rw [← hW]
  have e2 : fld W 24 6 = 43 := F.f24_6.trans (by first | rfl | omega | (simp only [b2n_false, b2n_true, F2.bit64] at *; omega))
  have e6 : fld W 0 1 = b2n wlo := F.f0_1.trans (by first | rfl | omega | (simp only [b2n_false, b2n_true, F2.bit64] at *; omega))
  have e7 : fld W 1 8 = 0 := F.f1_8.trans (by first | rfl | omega | (simp only [b2n_false, b2n_true, F2.bit64] at *; omega))
  refine ⟨?_, F.lt⟩
  simp only [decodeWord, parseWord, parseL, parseU, lrA, lrB, lrBClean, lrNoB, lrNoA, lmA, lmD, fbit, fv, fs, fp, fq, fbv, fz, b2n_beq, fin_ofNat, bv_ofNat, Option.map_some, if_true, if_false, Bool.false_eq_true, Bool.not_false, Bool.not_true, Bool.true_or, Bool.or_true, Bool.false_or, Bool.and_self, Bool.true_and, Bool.and_true, Nat.reduceBEq, beq_self_eq_true, reduceIte, F.f31_1, F.f30_1, e2, F.f19_5, F.f14_5, F.f9_5, e6, e7]
  exact of_ok hwf
theorem guess (sw : Bool) (x : SReg) (y : SReg) (z : SReg) : Statement (.guess sw x y z) := by
  refine stmt_word rfl rfl fun hwf => ?_
  have h0 := b2n_lt sw
  have h1 := x.isLt
  have h2 := y.isLt
  have h3 := z.isLt
  obtain ⟨W, hW, F⟩ : ∃ W, W = encUX sw 0x2C x.val y.val z.val 0 ∧ IsUX W sw 0x2C x.val y.val z.val 0 := ⟨_, rfl, IsUX.make sw 0x2C x.val y.val z.val 0 (by decide) (by omega) (by omega) (by omega) (by first | omega | (simp only [b2n_false, b2n_true, F2.bit64] at *; omega)) (b2n_lt sw)⟩
  rw [← hW]
  have e2 : fld W 24 6 = 44 := F.f24_6.trans (by first | rfl | omega | (simp only [b2n_false, b2n_true, F2.bit64] at *; omega))
  refine ⟨?_, F.lt⟩
  simp only [decodeWord, parseWord, parseL, parseU, lrA, lrB, lrBClean, lrNoB, lrNoA, lmA, lmD, fbit, fv, fs, fp, fq, fbv, fz, b2n_beq, fin_ofNat, bv_ofNat, Option.map_some, if_true, if_false, Bool.false_eq_true, Bool.not_false, Bool.not_true, Bool.true_or, Bool.or_true, Bool.false_or, Bool.and_self, Bool.true_and, Bool.and_true, Nat.reduceBEq, beq_self_eq_true, reduceIte, F.f31_1, F.f30_1, e2, F.f19_5, F.f14_5, F.f9_5, F.f0_9]
  exact of_ok hwf
theorem affirm (sw : Bool) (x : SReg) : Statement (.affirm sw x) := by
  refine stmt_word rfl rfl fun hwf => ?_
  have h0 := b2n_lt sw
  have h1 := x.isLt
  obtain ⟨W, hW, F⟩ : ∃ W, W = encUX sw 0x2D x.val 0 0 0 ∧ IsUX W sw 0x2D x.val 0 0 0 := ⟨_, rfl, IsUX.make sw 0x2D x.val 0 0 0 (by decide) (by omega) (by omega) (by omega) (by first | omega | (simp only [b2n_false, b2n_true, F2.bit64] at *; omega)) (b2n_lt sw)⟩
  rw [← hW]
  have e2 : fld W 24 6 = 45 := F.f24_6.trans (by first | rfl | omega | (simp only [b2n_false, b2n_true, F2.bit64] at *; omega))
  have e4 : fld W 0 19 = 0 := F.f0_19.trans (by first | rfl | omega | (simp only [b2n_false, b2n_true, F2.bit64] at *; omega))
  refine ⟨?_, F.lt⟩
  simp only [decodeWord, parseWord, parseL, parseU, lrA, lrB, lrBClean, lrNoB, lrNoA, lmA, lmD, fbit, fv, fs, fp, fq, fbv, fz, b2n_beq, fin_ofNat, bv_ofNat, Option.map_some, if_true, if_false, Bool.false_eq_true, Bool.not_false, Bool.not_true, Bool.true_or, Bool.or_true, Bool.false_or, Bool.and_self, Bool.true_and, Bool.and_true, Nat.reduceBEq, beq_self_eq_true, reduceIte, F.f31_1, F.f30_1, e2, F.f19_5, e4]
  exact of_ok hwf
theorem deny (sw : Bool) (x : SReg) : Statement (.deny sw x) := by
  refine stmt_word rfl rfl fun hwf => ?_
  have h0 := b2n_lt sw
  have h1 := x.isLt
  obtain ⟨W, hW, F⟩ : ∃ W, W = encUX sw 0x2E x.val 0 0 0 ∧ IsUX W sw 0x2E x.val 0 0 0 := ⟨_, rfl, IsUX.make sw 0x2E x.val 0 0 0 (by decide) (by omega) (by omega) (by omega) (by first | omega | (simp only [b2n_false, b2n_true, F2.bit64] at *; omega)) (b2n_lt sw)⟩
  rw [← hW]
  have e2 : fld W 24 6 = 46 := F.f24_6.trans (by first | rfl | omega | (simp only [b2n_false, b2n_true, F2.bit64] at *; omega))
  have e4 : fld W 0 19 = 0 := F.f0_19.trans (by first | rfl | omega | (simp only [b2n_false, b2n_true, F2.bit64] at *; omega))
  refine ⟨?_, F.lt⟩
  simp only [decodeWord, parseWord, parseL, parseU, lrA, lrB, lrBClean, lrNoB, lrNoA, lmA, lmD, fbit, fv, fs, fp, fq, fbv, fz, b2n_beq, fin_ofNat, bv_ofNat, Option.map_some, if_true, if_false, Bool.false_eq_true, Bool.not_false, Bool.not_true, Bool.true_or, Bool.or_true, Bool.false_or, Bool.and_self, Bool.true_and, Bool.and_true, Nat.reduceBEq, beq_self_eq_true, reduceIte, F.f31_1, F.f30_1, e2, F.f19_5, e4]
  exact of_ok hwf
theorem hold (sw : Bool) (any : Bool) : Statement (.hold sw any) := by
  refine stmt_word rfl rfl fun hwf => ?_
  have h0 := b2n_lt sw
  have h1 := b2n_lt any
  obtain ⟨W, hW, F⟩ : ∃ W, W = encUX sw 0x2F 0 0 0 (b2n any) ∧ IsUX W sw 0x2F 0 0 0 (b2n any) := ⟨_, rfl, IsUX.make sw 0x2F 0 0 0 (b2n any) (by decide) (by omega) (by omega) (by omega) (by first | omega | (simp only [b2n_false, b2n_true, F2.bit64] at *; omega)) (b2n_lt sw)⟩
  rw [← hW]
  have e2 : fld W 24 6 = 47 := F.f24_6.trans (by first | rfl | omega | (simp only [b2n_false, b2n_true, F2.bit64] at *; omega))
  have e3 : fld W 0 1 = b2n any := F.f0_1.trans (by first | rfl | omega | (simp only [b2n_false, b2n_true, F2.bit64] at *; omega))
  have e4 : fld W 1 23 = 0 := F.f1_23.trans (by first | rfl | omega | (simp only [b2n_false, b2n_true, F2.bit64] at *; omega))
  refine ⟨?_, F.lt⟩
  simp only [decodeWord, parseWord, parseL, parseU, lrA, lrB, lrBClean, lrNoB, lrNoA, lmA, lmD, fbit, fv, fs, fp, fq, fbv, fz, b2n_beq, fin_ofNat, bv_ofNat, Option.map_some, if_true, if_false, Bool.false_eq_true, Bool.not_false, Bool.not_true, Bool.true_or, Bool.or_true, Bool.false_or, Bool.and_self, Bool.true_and, Bool.and_true, Nat.reduceBEq, beq_self_eq_true, reduceIte, F.f31_1, F.f30_1, e2, e3, e4]
  exact of_ok hwf
theorem tret (sw : Bool) : Statement (.tret sw) := by
  refine stmt_word rfl rfl fun hwf => ?_
  have h0 := b2n_lt sw
  obtain ⟨W, hW, F⟩ : ∃ W, W = encUX sw 0x30 0 0 0 0 ∧ IsUX W sw 0x30 0 0 0 0 := ⟨_, rfl, IsUX.make sw 0x30 0 0 0 0 (by decide) (by omega) (by omega) (by omega) (by first | omega | (simp only [b2n_false, b2n_true, F2.bit64] at *; omega)) (b2n_lt sw)⟩
  rw [← hW]
  have e2 : fld W 24 6 = 48 := F.f24_6.trans (by first | rfl | omega | (simp only [b2n_false, b2n_true, F2.bit64] at *; omega))
  have e3 : fld W 0 24 = 0 := F.f0_24.trans (by first | rfl | omega | (simp only [b2n_false, b2n_true, F2.bit64] at *; omega))
  refine ⟨?_, F.lt⟩
  simp only [decodeWord, parseWord, parseL, parseU, lrA, lrB, lrBClean, lrNoB, lrNoA, lmA, lmD, fbit, fv, fs, fp, fq, fbv, fz, b2n_beq, fin_ofNat, bv_ofNat, Option.map_some, if_true, if_false, Bool.false_eq_true, Bool.not_false, Bool.not_true, Bool.true_or, Bool.or_true, Bool.false_or, Bool.and_self, Bool.true_and, Bool.and_true, Nat.reduceBEq, beq_self_eq_true, reduceIte, F.f31_1, F.f30_1, e2, e3]
  exact of_ok hwf
theorem tend (sw : Bool) (fail : Bool) : Statement (.tend sw fail) := by
  refine stmt_word rfl rfl fun hwf => ?_
  have h0 := b2n_lt sw
  have h1 := b2n_lt fail
  obtain ⟨W, hW, F⟩ : ∃ W, W = encUX sw 0x31 0 0 0 (b2n fail) ∧ IsUX W sw 0x31 0 0 0 (b2n fail) := ⟨_, rfl, IsUX.make sw 0x31 0 0 0 (b2n fail) (by decide) (by omega) (by omega) (by omega) (by first | omega | (simp only [b2n_false, b2n_true, F2.bit64] at *; omega)) (b2n_lt sw)⟩
  rw [← hW]
  have e2 : fld W 24 6 = 49 := F.f24_6.trans (by first | rfl | omega | (simp only [b2n_false, b2n_true, F2.bit64] at *; omega))
  have e3 : fld W 0 1 = b2n fail := F.f0_1.trans (by first | rfl | omega | (simp only [b2n_false, b2n_true, F2.bit64] at *; omega))
  have e4 : fld W 1 23 = 0 := F.f1_23.trans (by first | rfl | omega | (simp only [b2n_false, b2n_true, F2.bit64] at *; omega))
  refine ⟨?_, F.lt⟩
  simp only [decodeWord, parseWord, parseL, parseU, lrA, lrB, lrBClean, lrNoB, lrNoA, lmA, lmD, fbit, fv, fs, fp, fq, fbv, fz, b2n_beq, fin_ofNat, bv_ofNat, Option.map_some, if_true, if_false, Bool.false_eq_true, Bool.not_false, Bool.not_true, Bool.true_or, Bool.or_true, Bool.false_or, Bool.and_self, Bool.true_and, Bool.and_true, Nat.reduceBEq, beq_self_eq_true, reduceIte, F.f31_1, F.f30_1, e2, e3, e4]
  exact of_ok hwf
theorem treg (sw : Bool) (x : SReg) (op : TregOp) : Statement (.treg sw x op) := by
  refine stmt_word rfl rfl fun hwf => ?_
  cases op with
  | s y w =>
    have h0 := b2n_lt sw
    have h1 := x.isLt
    have h2 := y.isLt
    have h3 := b2n_lt w
    obtain ⟨W, hW, F⟩ : ∃ W, W = encUX sw 0x32 x.val y.val 0 (b2n w) ∧ IsUX W sw 0x32 x.val y.val 0 (b2n w) := ⟨_, rfl, IsUX.make sw 0x32 x.val y.val 0 (b2n w) (by decide) (by omega) (by omega) (by omega) (by first | omega | (simp only [b2n_false, b2n_true, F2.bit64] at *; omega)) (b2n_lt sw)⟩
    show decodeWord (encUX sw 0x32 x.val y.val 0 (b2n w)) = _ ∧ encUX sw 0x32 x.val y.val 0 (b2n w) < _
    rw [← hW]
    have e2 : fld W 24 6 = 50 := F.f24_6.trans (by first | rfl | omega | (simp only [b2n_false, b2n_true, F2.bit64] at *; omega))
    have e4 : fld W 1 2 = 0 := F.f1_2.trans (by first | rfl | omega | (simp only [b2n_false, b2n_true, F2.bit64] at *; omega))
    have e6 : fld W 0 1 = b2n w := F.f0_1.trans (by first | rfl | omega | (simp only [b2n_false, b2n_true, F2.bit64] at *; omega))
    have e8 : fld W 3 5 = 0 := F.f3_5.trans (by first | rfl | omega | (simp only [b2n_false, b2n_true, F2.bit64] at *; omega))
    have e9 : fld W 8 1 = 0 := F.f8_1.trans (by first | rfl | omega | (simp only [b2n_false, b2n_true, F2.bit64] at *; omega))
    refine ⟨?_, F.lt⟩
    simp only [decodeWord, parseWord, parseL, parseU, lrA, lrB, lrBClean, lrNoB, lrNoA, lmA, lmD, fbit, fv, fs, fp, fq, fbv, fz, b2n_beq, fin_ofNat, bv_ofNat, Option.map_some, if_true, if_false, Bool.false_eq_true, Bool.not_false, Bool.not_true, Bool.true_or, Bool.or_true, Bool.false_or, Bool.and_self, Bool.true_and, Bool.and_true, Nat.reduceBEq, beq_self_eq_true, reduceIte, tregOf, tregClean, F.f31_1, F.f30_1, e2, F.f19_5, e4, F.f14_5, e6, F.f9_5, e8, e9]
    exact of_ok hwf
  | v g w =>
    have h0 := b2n_lt sw
    have h1 := x.isLt
    have h2 := g.isLt
    have h3 := b2n_lt w
    obtain ⟨W, hW, F⟩ : ∃ W, W = encUX sw 0x32 x.val (g.val % 32) 0 (256 * (g.val / 32) + 2 + b2n w) ∧ IsUX W sw 0x32 x.val (g.val % 32) 0 (256 * (g.val / 32) + 2 + b2n w) := ⟨_, rfl, IsUX.make sw 0x32 x.val (g.val % 32) 0 (256 * (g.val / 32) + 2 + b2n w) (by decide) (by omega) (by omega) (by omega) (by first | omega | (simp only [b2n_false, b2n_true, F2.bit64] at *; omega)) (b2n_lt sw)⟩
    show decodeWord (encUX sw 0x32 x.val (g.val % 32) 0 (256 * (g.val / 32) + 2 + b2n w)) = _ ∧ encUX sw 0x32 x.val (g.val % 32) 0 (256 * (g.val / 32) + 2 + b2n w) < _
    rw [← hW]
    have e2 : fld W 24 6 = 50 := F.f24_6.trans (by first | rfl | omega | (simp only [b2n_false, b2n_true, F2.bit64] at *; omega))
    have e4 : fld W 1 2 = 1 := F.f1_2.trans (by first | rfl | omega | (simp only [b2n_false, b2n_true, F2.bit64] at *; omega))
    have e6 : fld W 0 1 = b2n w := F.f0_1.trans (by first | rfl | omega | (simp only [b2n_false, b2n_true, F2.bit64] at *; omega))
    have e8 : fld W 3 5 = 0 := F.f3_5.trans (by first | rfl | omega | (simp only [b2n_false, b2n_true, F2.bit64] at *; omega))
    have e9 : fld W 8 1 = g.val / 32 := F.f8_1.trans (by first | rfl | omega | (simp only [b2n_false, b2n_true, F2.bit64] at *; omega))
    refine ⟨?_, F.lt⟩
    simp only [decodeWord, parseWord, parseL, parseU, lrA, lrB, lrBClean, lrNoB, lrNoA, lmA, lmD, fbit, fv, fs, fp, fq, fbv, fz, b2n_beq, fin_ofNat, bv_ofNat, Option.map_some, if_true, if_false, Bool.false_eq_true, Bool.not_false, Bool.not_true, Bool.true_or, Bool.or_true, Bool.false_or, Bool.and_self, Bool.true_and, Bool.and_true, Nat.reduceBEq, beq_self_eq_true, reduceIte, tregOf, tregClean, v_split, F.f31_1, F.f30_1, e2, F.f19_5, e4, F.f14_5, e6, F.f9_5, e8, e9]
    exact of_ok hwf
  | p p w =>
    have h0 := b2n_lt sw
    have h1 := x.isLt
    have h2 := p.isLt
    have h3 := b2n_lt w
    obtain ⟨W, hW, F⟩ : ∃ W, W = encUX sw 0x32 x.val p.val 0 (4 + b2n w) ∧ IsUX W sw 0x32 x.val p.val 0 (4 + b2n w) := ⟨_, rfl, IsUX.make sw 0x32 x.val p.val 0 (4 + b2n w) (by decide) (by omega) (by omega) (by omega) (by first | omega | (simp only [b2n_false, b2n_true, F2.bit64] at *; omega)) (b2n_lt sw)⟩
    show decodeWord (encUX sw 0x32 x.val p.val 0 (4 + b2n w)) = _ ∧ encUX sw 0x32 x.val p.val 0 (4 + b2n w) < _
    rw [← hW]
    have e2 : fld W 24 6 = 50 := F.f24_6.trans (by first | rfl | omega | (simp only [b2n_false, b2n_true, F2.bit64] at *; omega))
    have e4 : fld W 1 2 = 2 := F.f1_2.trans (by first | rfl | omega | (simp only [b2n_false, b2n_true, F2.bit64] at *; omega))
    have e5 : fld W 14 3 = p.val := F.f14_3.trans (by first | rfl | omega | (simp only [b2n_false, b2n_true, F2.bit64] at *; omega))
    have e6 : fld W 0 1 = b2n w := F.f0_1.trans (by first | rfl | omega | (simp only [b2n_false, b2n_true, F2.bit64] at *; omega))
    have e8 : fld W 3 5 = 0 := F.f3_5.trans (by first | rfl | omega | (simp only [b2n_false, b2n_true, F2.bit64] at *; omega))
    have e9 : fld W 8 1 = 0 := F.f8_1.trans (by first | rfl | omega | (simp only [b2n_false, b2n_true, F2.bit64] at *; omega))
    have e10 : fld W 17 2 = 0 := F.f17_2.trans (by first | rfl | omega | (simp only [b2n_false, b2n_true, F2.bit64] at *; omega))
    refine ⟨?_, F.lt⟩
    simp only [decodeWord, parseWord, parseL, parseU, lrA, lrB, lrBClean, lrNoB, lrNoA, lmA, lmD, fbit, fv, fs, fp, fq, fbv, fz, b2n_beq, fin_ofNat, bv_ofNat, Option.map_some, if_true, if_false, Bool.false_eq_true, Bool.not_false, Bool.not_true, Bool.true_or, Bool.or_true, Bool.false_or, Bool.and_self, Bool.true_and, Bool.and_true, Nat.reduceBEq, beq_self_eq_true, reduceIte, tregOf, tregClean, F.f31_1, F.f30_1, e2, F.f19_5, e4, e5, e6, F.f9_5, e8, e9, e10]
    exact of_ok hwf
  | lpc w =>
    have h0 := b2n_lt sw
    have h1 := x.isLt
    have h2 := b2n_lt w
    obtain ⟨W, hW, F⟩ : ∃ W, W = encUX sw 0x32 x.val 0 0 (6 + b2n w) ∧ IsUX W sw 0x32 x.val 0 0 (6 + b2n w) := ⟨_, rfl, IsUX.make sw 0x32 x.val 0 0 (6 + b2n w) (by decide) (by omega) (by omega) (by omega) (by first | omega | (simp only [b2n_false, b2n_true, F2.bit64] at *; omega)) (b2n_lt sw)⟩
    show decodeWord (encUX sw 0x32 x.val 0 0 (6 + b2n w)) = _ ∧ encUX sw 0x32 x.val 0 0 (6 + b2n w) < _
    rw [← hW]
    have e2 : fld W 24 6 = 50 := F.f24_6.trans (by first | rfl | omega | (simp only [b2n_false, b2n_true, F2.bit64] at *; omega))
    have e4 : fld W 1 2 = 3 := F.f1_2.trans (by first | rfl | omega | (simp only [b2n_false, b2n_true, F2.bit64] at *; omega))
    have e5 : fld W 0 1 = b2n w := F.f0_1.trans (by first | rfl | omega | (simp only [b2n_false, b2n_true, F2.bit64] at *; omega))
    have e7 : fld W 3 5 = 0 := F.f3_5.trans (by first | rfl | omega | (simp only [b2n_false, b2n_true, F2.bit64] at *; omega))
    have e8 : fld W 8 1 = 0 := F.f8_1.trans (by first | rfl | omega | (simp only [b2n_false, b2n_true, F2.bit64] at *; omega))
    refine ⟨?_, F.lt⟩
    simp only [decodeWord, parseWord, parseL, parseU, lrA, lrB, lrBClean, lrNoB, lrNoA, lmA, lmD, fbit, fv, fs, fp, fq, fbv, fz, b2n_beq, fin_ofNat, bv_ofNat, Option.map_some, if_true, if_false, Bool.false_eq_true, Bool.not_false, Bool.not_true, Bool.true_or, Bool.or_true, Bool.false_or, Bool.and_self, Bool.true_and, Bool.and_true, Nat.reduceBEq, beq_self_eq_true, reduceIte, tregOf, tregClean, F.f31_1, F.f30_1, e2, F.f19_5, e4, e5, F.f9_5, e7, e8, F.f14_5]
    exact of_ok hwf
theorem errld (sw : Bool) (f : ErrForm) (x : SReg) : Statement (.errld sw f x) := by
  refine stmt_word rfl rfl fun hwf => ?_
  have h0 := b2n_lt sw
  have h1 := ErrForm_lt f
  have h2 := x.isLt
  obtain ⟨W, hW, F⟩ : ∃ W, W = encUX sw 0x33 x.val 0 0 f.code ∧ IsUX W sw 0x33 x.val 0 0 f.code := ⟨_, rfl, IsUX.make sw 0x33 x.val 0 0 f.code (by decide) (by omega) (by omega) (by omega) (by first | omega | (simp only [b2n_false, b2n_true, F2.bit64] at *; omega)) (b2n_lt sw)⟩
  rw [← hW]
  have e2 : fld W 24 6 = 51 := F.f24_6.trans (by first | rfl | omega | (simp only [b2n_false, b2n_true, F2.bit64] at *; omega))
  have e4 : fld W 0 2 = f.code := F.f0_2.trans (by first | rfl | omega | (simp only [b2n_false, b2n_true, F2.bit64] at *; omega))
  have e5 : fld W 2 17 = 0 := F.f2_17.trans (by first | rfl | omega | (simp only [b2n_false, b2n_true, F2.bit64] at *; omega))
  refine ⟨?_, F.lt⟩
  simp only [decodeWord, parseWord, parseL, parseU, lrA, lrB, lrBClean, lrNoB, lrNoA, lmA, lmD, fbit, fv, fs, fp, fq, fbv, fz, b2n_beq, fin_ofNat, bv_ofNat, Option.map_some, if_true, if_false, Bool.false_eq_true, Bool.not_false, Bool.not_true, Bool.true_or, Bool.or_true, Bool.false_or, Bool.and_self, Bool.true_and, Bool.and_true, Nat.reduceBEq, beq_self_eq_true, reduceIte, ErrForm_of, F.f31_1, F.f30_1, e2, F.f19_5, e4, e5]
  exact of_ok hwf
theorem defb (n : LBuf) (len : QLen) : Statement (.defb n len) := by
  refine stmt_stream rfl rfl fun hwf => ?_
  cases len with
  | imm v =>
    have h0 := n.isLt
    have h1 := v.isLt
    obtain ⟨W, hW, F⟩ : ∃ W, W = encS 0x00 0 0 0 n.val v.toNat 0 ∧ IsS W 0x00 0 0 0 n.val v.toNat 0 := ⟨_, rfl, IsS.make 0x00 0 0 0 n.val v.toNat 0 (by decide) (by omega) (by omega) (by omega) (by first | omega | (simp only [b2n_false, b2n_true, F2.bit64] at *; omega)) (by omega) (by decide)⟩
    show decodeS (encS 0x00 0 0 0 n.val v.toNat 0) = _ ∧ encS 0x00 0 0 0 n.val v.toNat 0 < _
    rw [← hW]
    have e0 : fld W 24 8 = 0 := F.f24_8.trans (by first | rfl | omega | (simp only [b2n_false, b2n_true, F2.bit64] at *; omega))
    have e5 : fld W 40 1 = 0 := F.f40_1.trans (by first | rfl | omega | (simp only [b2n_false, b2n_true, F2.bit64] at *; omega))
    have e6 : fld W 32 6 = n.val := F.f32_6.trans (by first | rfl | omega | (simp only [b2n_false, b2n_true, F2.bit64] at *; omega))
    have e8 : fld W 38 2 = 0 := F.f38_2.trans (by first | rfl | omega | (simp only [b2n_false, b2n_true, F2.bit64] at *; omega))
    have e9 : fld W 41 23 = 0 := F.f41_23.trans (by first | rfl | omega | (simp only [b2n_false, b2n_true, F2.bit64] at *; omega))
    refine ⟨?_, F.lt⟩
    simp only [decodeS, parseS, fbit, fv, fs, fp, fq, fbv, fz, b2n_beq, fin_ofNat, bv_ofNat, Option.map_some, if_true, if_false, Bool.false_eq_true, Bool.not_false, Bool.not_true, Bool.true_or, Bool.or_true, Bool.false_or, Bool.and_self, Bool.true_and, Bool.and_true, Nat.reduceBEq, beq_self_eq_true, reduceIte, e0, F.f20_4, F.f16_4, F.f0_16, F.f96_32, e5, e6, F.f64_32, e8, e9]
    exact of_ok hwf
  | reg q =>
    have h0 := n.isLt
    have h1 := q.isLt
    obtain ⟨W, hW, F⟩ : ∃ W, W = encS 0x00 q.val 0 0 (n.val + 256) 0 0 ∧ IsS W 0x00 q.val 0 0 (n.val + 256) 0 0 := ⟨_, rfl, IsS.make 0x00 q.val 0 0 (n.val + 256) 0 0 (by decide) (by omega) (by omega) (by omega) (by first | omega | (simp only [b2n_false, b2n_true, F2.bit64] at *; omega)) (by omega) (by decide)⟩
    show decodeS (encS 0x00 q.val 0 0 (n.val + 256) 0 0) = _ ∧ encS 0x00 q.val 0 0 (n.val + 256) 0 0 < _
    rw [← hW]
    have e0 : fld W 24 8 = 0 := F.f24_8.trans (by first | rfl | omega | (simp only [b2n_false, b2n_true, F2.bit64] at *; omega))
    have e5 : fld W 40 1 = 1 := F.f40_1.trans (by first | rfl | omega | (simp only [b2n_false, b2n_true, F2.bit64] at *; omega))
    have e6 : fld W 32 6 = n.val := F.f32_6.trans (by first | rfl | omega | (simp only [b2n_false, b2n_true, F2.bit64] at *; omega))
    have e8 : fld W 38 2 = 0 := F.f38_2.trans (by first | rfl | omega | (simp only [b2n_false, b2n_true, F2.bit64] at *; omega))
    have e9 : fld W 41 23 = 0 := F.f41_23.trans (by first | rfl | omega | (simp only [b2n_false, b2n_true, F2.bit64] at *; omega))
    refine ⟨?_, F.lt⟩
    simp only [decodeS, parseS, fbit, fv, fs, fp, fq, fbv, fz, b2n_beq, fin_ofNat, bv_ofNat, Option.map_some, if_true, if_false, Bool.false_eq_true, Bool.not_false, Bool.not_true, Bool.true_or, Bool.or_true, Bool.false_or, Bool.and_self, Bool.true_and, Bool.and_true, Nat.reduceBEq, beq_self_eq_true, reduceIte, e0, F.f20_4, F.f16_4, F.f0_16, F.f96_32, e5, e6, F.f64_32, e8, e9]
    exact of_ok hwf
theorem bindb (n : LBuf) (qa : QReg) (len : BitVec 32) : Statement (.bindb n qa len) := by
  refine stmt_stream rfl rfl fun hwf => ?_
  have h0 := n.isLt
  have h1 := qa.isLt
  have h2 := len.isLt
  obtain ⟨W, hW, F⟩ : ∃ W, W = encS 0x01 qa.val 0 0 n.val len.toNat 0 ∧ IsS W 0x01 qa.val 0 0 n.val len.toNat 0 := ⟨_, rfl, IsS.make 0x01 qa.val 0 0 n.val len.toNat 0 (by decide) (by omega) (by omega) (by omega) (by first | omega | (simp only [b2n_false, b2n_true, F2.bit64] at *; omega)) (by omega) (by decide)⟩
  rw [← hW]
  have e0 : fld W 24 8 = 1 := F.f24_8.trans (by first | rfl | omega | (simp only [b2n_false, b2n_true, F2.bit64] at *; omega))
  have e5 : fld W 32 6 = n.val := F.f32_6.trans (by first | rfl | omega | (simp only [b2n_false, b2n_true, F2.bit64] at *; omega))
  have e7 : fld W 38 26 = 0 := F.f38_26.trans (by first | rfl | omega | (simp only [b2n_false, b2n_true, F2.bit64] at *; omega))
  refine ⟨?_, F.lt⟩
  simp only [decodeS, parseS, fbit, fv, fs, fp, fq, fbv, fz, b2n_beq, fin_ofNat, bv_ofNat, Option.map_some, if_true, if_false, Bool.false_eq_true, Bool.not_false, Bool.not_true, Bool.true_or, Bool.or_true, Bool.false_or, Bool.and_self, Bool.true_and, Bool.and_true, Nat.reduceBEq, beq_self_eq_true, reduceIte, e0, F.f20_4, F.f16_4, F.f0_16, F.f96_32, e5, F.f64_32, e7]
  exact of_ok hwf
theorem relb (n : LBuf) : Statement (.relb n) := by
  refine stmt_stream rfl rfl fun hwf => ?_
  have h0 := n.isLt
  obtain ⟨W, hW, F⟩ : ∃ W, W = encS 0x02 0 0 0 n.val 0 0 ∧ IsS W 0x02 0 0 0 n.val 0 0 := ⟨_, rfl, IsS.make 0x02 0 0 0 n.val 0 0 (by decide) (by omega) (by omega) (by omega) (by first | omega | (simp only [b2n_false, b2n_true, F2.bit64] at *; omega)) (by omega) (by decide)⟩
  rw [← hW]
  have e0 : fld W 24 8 = 2 := F.f24_8.trans (by first | rfl | omega | (simp only [b2n_false, b2n_true, F2.bit64] at *; omega))
  have e6 : fld W 32 6 = n.val := F.f32_6.trans (by first | rfl | omega | (simp only [b2n_false, b2n_true, F2.bit64] at *; omega))
  have e7 : fld W 38 26 = 0 := F.f38_26.trans (by first | rfl | omega | (simp only [b2n_false, b2n_true, F2.bit64] at *; omega))
  refine ⟨?_, F.lt⟩
  simp only [decodeS, parseS, fbit, fv, fs, fp, fq, fbv, fz, b2n_beq, fin_ofNat, bv_ofNat, Option.map_some, if_true, if_false, Bool.false_eq_true, Bool.not_false, Bool.not_true, Bool.true_or, Bool.or_true, Bool.false_or, Bool.and_self, Bool.true_and, Bool.and_true, Nat.reduceBEq, beq_self_eq_true, reduceIte, e0, F.f20_4, F.f16_4, F.f0_16, F.f64_32, F.f96_32, e6, e7]
  exact of_ok hwf
theorem launch (qa : QReg) : Statement (.launch qa) := by
  refine stmt_stream rfl rfl fun hwf => ?_
  have h0 := qa.isLt
  obtain ⟨W, hW, F⟩ : ∃ W, W = encS 0x03 qa.val 0 0 0 0 0 ∧ IsS W 0x03 qa.val 0 0 0 0 0 := ⟨_, rfl, IsS.make 0x03 qa.val 0 0 0 0 0 (by decide) (by omega) (by omega) (by omega) (by first | omega | (simp only [b2n_false, b2n_true, F2.bit64] at *; omega)) (by omega) (by decide)⟩
  rw [← hW]
  have e0 : fld W 24 8 = 3 := F.f24_8.trans (by first | rfl | omega | (simp only [b2n_false, b2n_true, F2.bit64] at *; omega))
  refine ⟨?_, F.lt⟩
  simp only [decodeS, parseS, fbit, fv, fs, fp, fq, fbv, fz, b2n_beq, fin_ofNat, bv_ofNat, Option.map_some, if_true, if_false, Bool.false_eq_true, Bool.not_false, Bool.not_true, Bool.true_or, Bool.or_true, Bool.false_or, Bool.and_self, Bool.true_and, Bool.and_true, Nat.reduceBEq, beq_self_eq_true, reduceIte, e0, F.f20_4, F.f16_4, F.f0_16, F.f32_32, F.f64_32, F.f96_32]
  exact of_ok hwf
theorem copyt (whole : Bool) (dst : LBuf) (qa : QReg) (src : LBuf) (qb : QReg) (len : BitVec 32) : Statement (.copyt whole dst qa src qb len) := by
  refine stmt_stream rfl rfl fun hwf => ?_
  have h0 := b2n_lt whole
  have h1 := dst.isLt
  have h2 := qa.isLt
  have h3 := src.isLt
  have h4 := qb.isLt
  have h5 := len.isLt
  obtain ⟨W, hW, F⟩ : ∃ W, W = encS 0x04 qa.val qb.val 0 (dst.val + 2 ^ 8 * src.val + 2 ^ 16 * b2n whole) len.toNat 0 ∧ IsS W 0x04 qa.val qb.val 0 (dst.val + 2 ^ 8 * src.val + 2 ^ 16 * b2n whole) len.toNat 0 := ⟨_, rfl, IsS.make 0x04 qa.val qb.val 0 (dst.val + 2 ^ 8 * src.val + 2 ^ 16 * b2n whole) len.toNat 0 (by decide) (by omega) (by omega) (by omega) (by first | omega | (simp only [b2n_false, b2n_true, F2.bit64] at *; omega)) (by omega) (by decide)⟩
  rw [← hW]
  have e0 : fld W 24 8 = 4 := F.f24_8.trans (by first | rfl | omega | (simp only [b2n_false, b2n_true, F2.bit64] at *; omega))
  have e5 : fld W 48 1 = b2n whole := F.f48_1.trans (by first | rfl | omega | (simp only [b2n_false, b2n_true, F2.bit64] at *; omega))
  have e6 : fld W 32 6 = dst.val := F.f32_6.trans (by first | rfl | omega | (simp only [b2n_false, b2n_true, F2.bit64] at *; omega))
  have e7 : fld W 40 6 = src.val := F.f40_6.trans (by first | rfl | omega | (simp only [b2n_false, b2n_true, F2.bit64] at *; omega))
  have e9 : fld W 38 2 = 0 := F.f38_2.trans (by first | rfl | omega | (simp only [b2n_false, b2n_true, F2.bit64] at *; omega))
  have e10 : fld W 46 2 = 0 := F.f46_2.trans (by first | rfl | omega | (simp only [b2n_false, b2n_true, F2.bit64] at *; omega))
  have e11 : fld W 49 15 = 0 := F.f49_15.trans (by first | rfl | omega | (simp only [b2n_false, b2n_true, F2.bit64] at *; omega))
  refine ⟨?_, F.lt⟩
  simp only [decodeS, parseS, fbit, fv, fs, fp, fq, fbv, fz, b2n_beq, fin_ofNat, bv_ofNat, Option.map_some, if_true, if_false, Bool.false_eq_true, Bool.not_false, Bool.not_true, Bool.true_or, Bool.or_true, Bool.false_or, Bool.and_self, Bool.true_and, Bool.and_true, Nat.reduceBEq, beq_self_eq_true, reduceIte, e0, F.f20_4, F.f16_4, F.f0_16, F.f96_32, e5, e6, e7, F.f64_32, e9, e10, e11]
  exact of_ok hwf
theorem fill (whole : Bool) (dst : LBuf) (qa : QReg) (qb : QReg) (len : BitVec 32) : Statement (.fill whole dst qa qb len) := by
  refine stmt_stream rfl rfl fun hwf => ?_
  have h0 := b2n_lt whole
  have h1 := dst.isLt
  have h2 := qa.isLt
  have h3 := qb.isLt
  have h4 := len.isLt
  obtain ⟨W, hW, F⟩ : ∃ W, W = encS 0x05 qa.val qb.val 0 (dst.val + 2 ^ 16 * b2n whole) len.toNat 0 ∧ IsS W 0x05 qa.val qb.val 0 (dst.val + 2 ^ 16 * b2n whole) len.toNat 0 := ⟨_, rfl, IsS.make 0x05 qa.val qb.val 0 (dst.val + 2 ^ 16 * b2n whole) len.toNat 0 (by decide) (by omega) (by omega) (by omega) (by first | omega | (simp only [b2n_false, b2n_true, F2.bit64] at *; omega)) (by omega) (by decide)⟩
  rw [← hW]
  have e0 : fld W 24 8 = 5 := F.f24_8.trans (by first | rfl | omega | (simp only [b2n_false, b2n_true, F2.bit64] at *; omega))
  have e5 : fld W 48 1 = b2n whole := F.f48_1.trans (by first | rfl | omega | (simp only [b2n_false, b2n_true, F2.bit64] at *; omega))
  have e6 : fld W 32 6 = dst.val := F.f32_6.trans (by first | rfl | omega | (simp only [b2n_false, b2n_true, F2.bit64] at *; omega))
  have e8 : fld W 38 10 = 0 := F.f38_10.trans (by first | rfl | omega | (simp only [b2n_false, b2n_true, F2.bit64] at *; omega))
  have e9 : fld W 49 15 = 0 := F.f49_15.trans (by first | rfl | omega | (simp only [b2n_false, b2n_true, F2.bit64] at *; omega))
  refine ⟨?_, F.lt⟩
  simp only [decodeS, parseS, fbit, fv, fs, fp, fq, fbv, fz, b2n_beq, fin_ofNat, bv_ofNat, Option.map_some, if_true, if_false, Bool.false_eq_true, Bool.not_false, Bool.not_true, Bool.true_or, Bool.or_true, Bool.false_or, Bool.and_self, Bool.true_and, Bool.and_true, Nat.reduceBEq, beq_self_eq_true, reduceIte, e0, F.f20_4, F.f16_4, F.f0_16, F.f96_32, e5, e6, F.f64_32, e8, e9]
  exact of_ok hwf
theorem jmp (t : JTarget) : Statement (.jmp t) := by
  refine stmt_stream rfl rfl fun hwf => ?_
  cases t with
  | rel off =>
    have h0 := off.isLt
    obtain ⟨W, hW, F⟩ : ∃ W, W = encS 0x10 0 0 0 off.toNat 0 0 ∧ IsS W 0x10 0 0 0 off.toNat 0 0 := ⟨_, rfl, IsS.make 0x10 0 0 0 off.toNat 0 0 (by decide) (by omega) (by omega) (by omega) (by first | omega | (simp only [b2n_false, b2n_true, F2.bit64] at *; omega)) (by omega) (by decide)⟩
    show decodeS (encS 0x10 0 0 0 off.toNat 0 0) = _ ∧ encS 0x10 0 0 0 off.toNat 0 0 < _
    rw [← hW]
    have e0 : fld W 24 8 = 16 := F.f24_8.trans (by first | rfl | omega | (simp only [b2n_false, b2n_true, F2.bit64] at *; omega))
    have e5 : fld W 64 1 = 0 := F.f64_1.trans (by first | rfl | omega | (simp only [b2n_false, b2n_true, F2.bit64] at *; omega))
    have e6 : fld W 65 31 = 0 := F.f65_31.trans (by first | rfl | omega | (simp only [b2n_false, b2n_true, F2.bit64] at *; omega))
    refine ⟨?_, F.lt⟩
    simp only [decodeS, parseS, fbit, fv, fs, fp, fq, fbv, fz, b2n_beq, fin_ofNat, bv_ofNat, Option.map_some, if_true, if_false, Bool.false_eq_true, Bool.not_false, Bool.not_true, Bool.true_or, Bool.or_true, Bool.false_or, Bool.and_self, Bool.true_and, Bool.and_true, Nat.reduceBEq, beq_self_eq_true, reduceIte, e0, F.f20_4, F.f16_4, F.f0_16, F.f96_32, e5, e6, F.f32_32]
    exact of_ok hwf
  | reg q =>
    have h0 := q.isLt
    obtain ⟨W, hW, F⟩ : ∃ W, W = encS 0x10 q.val 0 0 0 1 0 ∧ IsS W 0x10 q.val 0 0 0 1 0 := ⟨_, rfl, IsS.make 0x10 q.val 0 0 0 1 0 (by decide) (by omega) (by omega) (by omega) (by first | omega | (simp only [b2n_false, b2n_true, F2.bit64] at *; omega)) (by omega) (by decide)⟩
    show decodeS (encS 0x10 q.val 0 0 0 1 0) = _ ∧ encS 0x10 q.val 0 0 0 1 0 < _
    rw [← hW]
    have e0 : fld W 24 8 = 16 := F.f24_8.trans (by first | rfl | omega | (simp only [b2n_false, b2n_true, F2.bit64] at *; omega))
    have e5 : fld W 64 1 = 1 := F.f64_1.trans (by first | rfl | omega | (simp only [b2n_false, b2n_true, F2.bit64] at *; omega))
    have e6 : fld W 65 31 = 0 := F.f65_31.trans (by first | rfl | omega | (simp only [b2n_false, b2n_true, F2.bit64] at *; omega))
    refine ⟨?_, F.lt⟩
    simp only [decodeS, parseS, fbit, fv, fs, fp, fq, fbv, fz, b2n_beq, fin_ofNat, bv_ofNat, Option.map_some, if_true, if_false, Bool.false_eq_true, Bool.not_false, Bool.not_true, Bool.true_or, Bool.or_true, Bool.false_or, Bool.and_self, Bool.true_and, Bool.and_true, Nat.reduceBEq, beq_self_eq_true, reduceIte, e0, F.f20_4, F.f16_4, F.f0_16, F.f96_32, e5, e6, F.f32_32]
    exact of_ok hwf
theorem streamCall (t : JTarget) : Statement (.streamCall t) := by
  refine stmt_stream rfl rfl fun hwf => ?_
  cases t with
  | rel off =>
    have h0 := off.isLt
    obtain ⟨W, hW, F⟩ : ∃ W, W = encS 0x11 0 0 0 off.toNat 0 0 ∧ IsS W 0x11 0 0 0 off.toNat 0 0 := ⟨_, rfl, IsS.make 0x11 0 0 0 off.toNat 0 0 (by decide) (by omega) (by omega) (by omega) (by first | omega | (simp only [b2n_false, b2n_true, F2.bit64] at *; omega)) (by omega) (by decide)⟩
    show decodeS (encS 0x11 0 0 0 off.toNat 0 0) = _ ∧ encS 0x11 0 0 0 off.toNat 0 0 < _
    rw [← hW]
    have e0 : fld W 24 8 = 17 := F.f24_8.trans (by first | rfl | omega | (simp only [b2n_false, b2n_true, F2.bit64] at *; omega))
    have e5 : fld W 64 1 = 0 := F.f64_1.trans (by first | rfl | omega | (simp only [b2n_false, b2n_true, F2.bit64] at *; omega))
    have e6 : fld W 65 31 = 0 := F.f65_31.trans (by first | rfl | omega | (simp only [b2n_false, b2n_true, F2.bit64] at *; omega))
    refine ⟨?_, F.lt⟩
    simp only [decodeS, parseS, fbit, fv, fs, fp, fq, fbv, fz, b2n_beq, fin_ofNat, bv_ofNat, Option.map_some, if_true, if_false, Bool.false_eq_true, Bool.not_false, Bool.not_true, Bool.true_or, Bool.or_true, Bool.false_or, Bool.and_self, Bool.true_and, Bool.and_true, Nat.reduceBEq, beq_self_eq_true, reduceIte, e0, F.f20_4, F.f16_4, F.f0_16, F.f96_32, e5, e6, F.f32_32]
    exact of_ok hwf
  | reg q =>
    have h0 := q.isLt
    obtain ⟨W, hW, F⟩ : ∃ W, W = encS 0x11 q.val 0 0 0 1 0 ∧ IsS W 0x11 q.val 0 0 0 1 0 := ⟨_, rfl, IsS.make 0x11 q.val 0 0 0 1 0 (by decide) (by omega) (by omega) (by omega) (by first | omega | (simp only [b2n_false, b2n_true, F2.bit64] at *; omega)) (by omega) (by decide)⟩
    show decodeS (encS 0x11 q.val 0 0 0 1 0) = _ ∧ encS 0x11 q.val 0 0 0 1 0 < _
    rw [← hW]
    have e0 : fld W 24 8 = 17 := F.f24_8.trans (by first | rfl | omega | (simp only [b2n_false, b2n_true, F2.bit64] at *; omega))
    have e5 : fld W 64 1 = 1 := F.f64_1.trans (by first | rfl | omega | (simp only [b2n_false, b2n_true, F2.bit64] at *; omega))
    have e6 : fld W 65 31 = 0 := F.f65_31.trans (by first | rfl | omega | (simp only [b2n_false, b2n_true, F2.bit64] at *; omega))
    refine ⟨?_, F.lt⟩
    simp only [decodeS, parseS, fbit, fv, fs, fp, fq, fbv, fz, b2n_beq, fin_ofNat, bv_ofNat, Option.map_some, if_true, if_false, Bool.false_eq_true, Bool.not_false, Bool.not_true, Bool.true_or, Bool.or_true, Bool.false_or, Bool.and_self, Bool.true_and, Bool.and_true, Nat.reduceBEq, beq_self_eq_true, reduceIte, e0, F.f20_4, F.f16_4, F.f0_16, F.f96_32, e5, e6, F.f32_32]
    exact of_ok hwf
theorem streamRet : Statement (.streamRet) := by
  refine stmt_stream rfl rfl fun hwf => ?_
  obtain ⟨W, hW, F⟩ : ∃ W, W = encS 0x12 0 0 0 0 0 0 ∧ IsS W 0x12 0 0 0 0 0 0 := ⟨_, rfl, IsS.make 0x12 0 0 0 0 0 0 (by decide) (by omega) (by omega) (by omega) (by first | omega | (simp only [b2n_false, b2n_true, F2.bit64] at *; omega)) (by omega) (by decide)⟩
  rw [← hW]
  have e0 : fld W 24 8 = 18 := F.f24_8.trans (by first | rfl | omega | (simp only [b2n_false, b2n_true, F2.bit64] at *; omega))
  refine ⟨?_, F.lt⟩
  simp only [decodeS, parseS, fbit, fv, fs, fp, fq, fbv, fz, b2n_beq, fin_ofNat, bv_ofNat, Option.map_some, if_true, if_false, Bool.false_eq_true, Bool.not_false, Bool.not_true, Bool.true_or, Bool.or_true, Bool.false_or, Bool.and_self, Bool.true_and, Bool.and_true, Nat.reduceBEq, beq_self_eq_true, reduceIte, e0, F.f20_4, F.f16_4, F.f0_16, F.f32_32, F.f64_32, F.f96_32]
  exact of_ok hwf
theorem brq (c : QCond) (qa : QReg) (y : QSrc) (off : BitVec 32) : Statement (.brq c qa y off) := by
  refine stmt_stream rfl rfl fun hwf => ?_
  cases y with
  | imm v =>
    have h0 := QCond_lt c
    have h1 := qa.isLt
    have h2 := off.isLt
    have h3 := v.isLt
    obtain ⟨W, hW, F⟩ : ∃ W, W = encS 0x13 qa.val 0 v.toNat off.toNat (c.code + 8) 0 ∧ IsS W 0x13 qa.val 0 v.toNat off.toNat (c.code + 8) 0 := ⟨_, rfl, IsS.make 0x13 qa.val 0 v.toNat off.toNat (c.code + 8) 0 (by decide) (by omega) (by omega) (by omega) (by first | omega | (simp only [b2n_false, b2n_true, F2.bit64] at *; omega)) (by omega) (by decide)⟩
    show decodeS (encS 0x13 qa.val 0 v.toNat off.toNat (c.code + 8) 0) = _ ∧ encS 0x13 qa.val 0 v.toNat off.toNat (c.code + 8) 0 < _
    rw [← hW]
    have e0 : fld W 24 8 = 19 := F.f24_8.trans (by first | rfl | omega | (simp only [b2n_false, b2n_true, F2.bit64] at *; omega))
    have e5 : fld W 64 3 = c.code := F.f64_3.trans (by first | rfl | omega | (simp only [b2n_false, b2n_true, F2.bit64] at *; omega))
    have e6 : fld W 67 1 = 1 := F.f67_1.trans (by first | rfl | omega | (simp only [b2n_false, b2n_true, F2.bit64] at *; omega))
    have e8 : fld W 68 28 = 0 := F.f68_28.trans (by first | rfl | omega | (simp only [b2n_false, b2n_true, F2.bit64] at *; omega))
    refine ⟨?_, F.lt⟩
    simp only [decodeS, parseS, fbit, fv, fs, fp, fq, fbv, fz, b2n_beq, fin_ofNat, bv_ofNat, Option.map_some, if_true, if_false, Bool.false_eq_true, Bool.not_false, Bool.not_true, Bool.true_or, Bool.or_true, Bool.false_or, Bool.and_self, Bool.true_and, Bool.and_true, Nat.reduceBEq, beq_self_eq_true, reduceIte, QCond_of, e0, F.f20_4, F.f16_4, F.f0_16, F.f32_32, e5, e6, F.f96_32, e8]
    exact of_ok hwf
  | reg q =>
    have h0 := QCond_lt c
    have h1 := qa.isLt
    have h2 := off.isLt
    have h3 := q.isLt
    obtain ⟨W, hW, F⟩ : ∃ W, W = encS 0x13 qa.val q.val 0 off.toNat c.code 0 ∧ IsS W 0x13 qa.val q.val 0 off.toNat c.code 0 := ⟨_, rfl, IsS.make 0x13 qa.val q.val 0 off.toNat c.code 0 (by decide) (by omega) (by omega) (by omega) (by first | omega | (simp only [b2n_false, b2n_true, F2.bit64] at *; omega)) (by omega) (by decide)⟩
    show decodeS (encS 0x13 qa.val q.val 0 off.toNat c.code 0) = _ ∧ encS 0x13 qa.val q.val 0 off.toNat c.code 0 < _
    rw [← hW]
    have e0 : fld W 24 8 = 19 := F.f24_8.trans (by first | rfl | omega | (simp only [b2n_false, b2n_true, F2.bit64] at *; omega))
    have e5 : fld W 64 3 = c.code := F.f64_3.trans (by first | rfl | omega | (simp only [b2n_false, b2n_true, F2.bit64] at *; omega))
    have e6 : fld W 67 1 = 0 := F.f67_1.trans (by first | rfl | omega | (simp only [b2n_false, b2n_true, F2.bit64] at *; omega))
    have e8 : fld W 68 28 = 0 := F.f68_28.trans (by first | rfl | omega | (simp only [b2n_false, b2n_true, F2.bit64] at *; omega))
    refine ⟨?_, F.lt⟩
    simp only [decodeS, parseS, fbit, fv, fs, fp, fq, fbv, fz, b2n_beq, fin_ofNat, bv_ofNat, Option.map_some, if_true, if_false, Bool.false_eq_true, Bool.not_false, Bool.not_true, Bool.true_or, Bool.or_true, Bool.false_or, Bool.and_self, Bool.true_and, Bool.and_true, Nat.reduceBEq, beq_self_eq_true, reduceIte, QCond_of, e0, F.f20_4, F.f16_4, F.f0_16, F.f32_32, e5, e6, F.f96_32, e8]
    exact of_ok hwf
theorem when (c : QCond) (x : WhenSrc) (qb : QReg) (n : BitVec 16) : Statement (.when c x qb n) := by
  refine stmt_stream rfl rfl fun hwf => ?_
  cases x with
  | reg q =>
    have h0 := QCond_lt c
    have h1 := qb.isLt
    have h2 := n.isLt
    have h3 := q.isLt
    obtain ⟨W, hW, F⟩ : ∃ W, W = encS 0x14 q.val qb.val n.toNat c.code 0 0 ∧ IsS W 0x14 q.val qb.val n.toNat c.code 0 0 := ⟨_, rfl, IsS.make 0x14 q.val qb.val n.toNat c.code 0 0 (by decide) (by omega) (by omega) (by omega) (by first | omega | (simp only [b2n_false, b2n_true, F2.bit64] at *; omega)) (by omega) (by decide)⟩
    show decodeS (encS 0x14 q.val qb.val n.toNat c.code 0 0) = _ ∧ encS 0x14 q.val qb.val n.toNat c.code 0 0 < _
    rw [← hW]
    have e0 : fld W 24 8 = 20 := F.f24_8.trans (by first | rfl | omega | (simp only [b2n_false, b2n_true, F2.bit64] at *; omega))
    have e4 : fld W 32 3 = c.code := F.f32_3.trans (by first | rfl | omega | (simp only [b2n_false, b2n_true, F2.bit64] at *; omega))
    have e5 : fld W 35 1 = 0 := F.f35_1.trans (by first | rfl | omega | (simp only [b2n_false, b2n_true, F2.bit64] at *; omega))
    have e6 : fld W 36 28 = 0 := F.f36_28.trans (by first | rfl | omega | (simp only [b2n_false, b2n_true, F2.bit64] at *; omega))
    refine ⟨?_, F.lt⟩
    simp only [decodeS, parseS, fbit, fv, fs, fp, fq, fbv, fz, b2n_beq, fin_ofNat, bv_ofNat, Option.map_some, if_true, if_false, Bool.false_eq_true, Bool.not_false, Bool.not_true, Bool.true_or, Bool.or_true, Bool.false_or, Bool.and_self, Bool.true_and, Bool.and_true, Nat.reduceBEq, beq_self_eq_true, reduceIte, QCond_of, e0, F.f20_4, F.f16_4, F.f0_16, e4, e5, e6, F.f64_32, F.f96_32]
    exact of_ok hwf
  | mem q disp =>
    have h0 := QCond_lt c
    have h1 := qb.isLt
    have h2 := n.isLt
    have h3 := q.isLt
    have h4 := disp.isLt
    obtain ⟨W, hW, F⟩ : ∃ W, W = encS 0x14 q.val qb.val n.toNat (c.code + 8) disp.toNat 0 ∧ IsS W 0x14 q.val qb.val n.toNat (c.code + 8) disp.toNat 0 := ⟨_, rfl, IsS.make 0x14 q.val qb.val n.toNat (c.code + 8) disp.toNat 0 (by decide) (by omega) (by omega) (by omega) (by first | omega | (simp only [b2n_false, b2n_true, F2.bit64] at *; omega)) (by omega) (by decide)⟩
    show decodeS (encS 0x14 q.val qb.val n.toNat (c.code + 8) disp.toNat 0) = _ ∧ encS 0x14 q.val qb.val n.toNat (c.code + 8) disp.toNat 0 < _
    rw [← hW]
    have e0 : fld W 24 8 = 20 := F.f24_8.trans (by first | rfl | omega | (simp only [b2n_false, b2n_true, F2.bit64] at *; omega))
    have e4 : fld W 32 3 = c.code := F.f32_3.trans (by first | rfl | omega | (simp only [b2n_false, b2n_true, F2.bit64] at *; omega))
    have e5 : fld W 35 1 = 1 := F.f35_1.trans (by first | rfl | omega | (simp only [b2n_false, b2n_true, F2.bit64] at *; omega))
    have e6 : fld W 36 28 = 0 := F.f36_28.trans (by first | rfl | omega | (simp only [b2n_false, b2n_true, F2.bit64] at *; omega))
    refine ⟨?_, F.lt⟩
    simp only [decodeS, parseS, fbit, fv, fs, fp, fq, fbv, fz, b2n_beq, fin_ofNat, bv_ofNat, Option.map_some, if_true, if_false, Bool.false_eq_true, Bool.not_false, Bool.not_true, Bool.true_or, Bool.or_true, Bool.false_or, Bool.and_self, Bool.true_and, Bool.and_true, Nat.reduceBEq, beq_self_eq_true, reduceIte, QCond_of, e0, F.f20_4, F.f16_4, F.f0_16, e4, e5, e6, F.f64_32, F.f96_32]
    exact of_ok hwf
theorem loop (qa : QReg) (off : BitVec 32) : Statement (.loop qa off) := by
  refine stmt_stream rfl rfl fun hwf => ?_
  have h0 := qa.isLt
  have h1 := off.isLt
  obtain ⟨W, hW, F⟩ : ∃ W, W = encS 0x15 qa.val 0 0 off.toNat 0 0 ∧ IsS W 0x15 qa.val 0 0 off.toNat 0 0 := ⟨_, rfl, IsS.make 0x15 qa.val 0 0 off.toNat 0 0 (by decide) (by omega) (by omega) (by omega) (by first | omega | (simp only [b2n_false, b2n_true, F2.bit64] at *; omega)) (by omega) (by decide)⟩
  rw [← hW]
  have e0 : fld W 24 8 = 21 := F.f24_8.trans (by first | rfl | omega | (simp only [b2n_false, b2n_true, F2.bit64] at *; omega))
  refine ⟨?_, F.lt⟩
  simp only [decodeS, parseS, fbit, fv, fs, fp, fq, fbv, fz, b2n_beq, fin_ofNat, bv_ofNat, Option.map_some, if_true, if_false, Bool.false_eq_true, Bool.not_false, Bool.not_true, Bool.true_or, Bool.or_true, Bool.false_or, Bool.and_self, Bool.true_and, Bool.and_true, Nat.reduceBEq, beq_self_eq_true, reduceIte, e0, F.f20_4, F.f16_4, F.f0_16, F.f32_32, F.f64_32, F.f96_32]
  exact of_ok hwf
theorem ffence : Statement (.ffence) := by
  refine stmt_stream rfl rfl fun hwf => ?_
  obtain ⟨W, hW, F⟩ : ∃ W, W = encS 0x16 0 0 0 0 0 0 ∧ IsS W 0x16 0 0 0 0 0 0 := ⟨_, rfl, IsS.make 0x16 0 0 0 0 0 0 (by decide) (by omega) (by omega) (by omega) (by first | omega | (simp only [b2n_false, b2n_true, F2.bit64] at *; omega)) (by omega) (by decide)⟩
  rw [← hW]
  have e0 : fld W 24 8 = 22 := F.f24_8.trans (by first | rfl | omega | (simp only [b2n_false, b2n_true, F2.bit64] at *; omega))
  refine ⟨?_, F.lt⟩
  simp only [decodeS, parseS, fbit, fv, fs, fp, fq, fbv, fz, b2n_beq, fin_ofNat, bv_ofNat, Option.map_some, if_true, if_false, Bool.false_eq_true, Bool.not_false, Bool.not_true, Bool.true_or, Bool.or_true, Bool.false_or, Bool.and_self, Bool.true_and, Bool.and_true, Nat.reduceBEq, beq_self_eq_true, reduceIte, e0, F.f20_4, F.f16_4, F.f0_16, F.f32_32, F.f64_32, F.f96_32]
  exact of_ok hwf
theorem ldq (sz : QSize) (sx : Bool) (qa : QReg) (qb : QReg) (disp : BitVec 32) : Statement (.ldq sz sx qa qb disp) := by
  refine stmt_stream rfl rfl fun hwf => ?_
  have h0 := QSize_lt sz
  have h1 := b2n_lt sx
  have h2 := qa.isLt
  have h3 := qb.isLt
  have h4 := disp.isLt
  obtain ⟨W, hW, F⟩ : ∃ W, W = encS 0x17 qa.val qb.val 0 disp.toNat (sz.code + 4 * b2n sx) 0 ∧ IsS W 0x17 qa.val qb.val 0 disp.toNat (sz.code + 4 * b2n sx) 0 := ⟨_, rfl, IsS.make 0x17 qa.val qb.val 0 disp.toNat (sz.code + 4 * b2n sx) 0 (by decide) (by omega) (by omega) (by omega) (by first | omega | (simp only [b2n_false, b2n_true, F2.bit64] at *; omega)) (by omega) (by decide)⟩
  rw [← hW]
  have e0 : fld W 24 8 = 23 := F.f24_8.trans (by first | rfl | omega | (simp only [b2n_false, b2n_true, F2.bit64] at *; omega))
  have e5 : fld W 64 2 = sz.code := F.f64_2.trans (by first | rfl | omega | (simp only [b2n_false, b2n_true, F2.bit64] at *; omega))
  have e6 : fld W 66 1 = b2n sx := F.f66_1.trans (by first | rfl | omega | (simp only [b2n_false, b2n_true, F2.bit64] at *; omega))
  have e7 : fld W 67 29 = 0 := F.f67_29.trans (by first | rfl | omega | (simp only [b2n_false, b2n_true, F2.bit64] at *; omega))
  refine ⟨?_, F.lt⟩
  simp only [decodeS, parseS, fbit, fv, fs, fp, fq, fbv, fz, b2n_beq, fin_ofNat, bv_ofNat, Option.map_some, if_true, if_false, Bool.false_eq_true, Bool.not_false, Bool.not_true, Bool.true_or, Bool.or_true, Bool.false_or, Bool.and_self, Bool.true_and, Bool.and_true, Nat.reduceBEq, beq_self_eq_true, reduceIte, QSize_of, e0, F.f20_4, F.f16_4, F.f0_16, F.f32_32, e5, e6, e7, F.f96_32]
  exact of_ok hwf
theorem stq (sz : QSize) (qa : QReg) (qb : QReg) (disp : BitVec 32) : Statement (.stq sz qa qb disp) := by
  refine stmt_stream rfl rfl fun hwf => ?_
  have h0 := QSize_lt sz
  have h1 := qa.isLt
  have h2 := qb.isLt
  have h3 := disp.isLt
  obtain ⟨W, hW, F⟩ : ∃ W, W = encS 0x18 qa.val qb.val 0 disp.toNat sz.code 0 ∧ IsS W 0x18 qa.val qb.val 0 disp.toNat sz.code 0 := ⟨_, rfl, IsS.make 0x18 qa.val qb.val 0 disp.toNat sz.code 0 (by decide) (by omega) (by omega) (by omega) (by first | omega | (simp only [b2n_false, b2n_true, F2.bit64] at *; omega)) (by omega) (by decide)⟩
  rw [← hW]
  have e0 : fld W 24 8 = 24 := F.f24_8.trans (by first | rfl | omega | (simp only [b2n_false, b2n_true, F2.bit64] at *; omega))
  have e5 : fld W 64 2 = sz.code := F.f64_2.trans (by first | rfl | omega | (simp only [b2n_false, b2n_true, F2.bit64] at *; omega))
  have e6 : fld W 66 30 = 0 := F.f66_30.trans (by first | rfl | omega | (simp only [b2n_false, b2n_true, F2.bit64] at *; omega))
  refine ⟨?_, F.lt⟩
  simp only [decodeS, parseS, fbit, fv, fs, fp, fq, fbv, fz, b2n_beq, fin_ofNat, bv_ofNat, Option.map_some, if_true, if_false, Bool.false_eq_true, Bool.not_false, Bool.not_true, Bool.true_or, Bool.or_true, Bool.false_or, Bool.and_self, Bool.true_and, Bool.and_true, Nat.reduceBEq, beq_self_eq_true, reduceIte, QSize_of, e0, F.f20_4, F.f16_4, F.f0_16, F.f32_32, e5, e6, F.f96_32]
  exact of_ok hwf
theorem aluq (op : QOp) (qa : QReg) (qb : QReg) (y : QSrc) : Statement (.aluq op qa qb y) := by
  refine stmt_stream rfl rfl fun hwf => ?_
  cases y with
  | imm v =>
    have h0 := QOp_lt op
    have h1 := qa.isLt
    have h2 := qb.isLt
    have h3 := v.isLt
    obtain ⟨W, hW, F⟩ : ∃ W, W = encS 0x19 qa.val qb.val v.toNat (op.code + 16) 0 0 ∧ IsS W 0x19 qa.val qb.val v.toNat (op.code + 16) 0 0 := ⟨_, rfl, IsS.make 0x19 qa.val qb.val v.toNat (op.code + 16) 0 0 (by decide) (by omega) (by omega) (by omega) (by first | omega | (simp only [b2n_false, b2n_true, F2.bit64] at *; omega)) (by omega) (by decide)⟩
    show decodeS (encS 0x19 qa.val qb.val v.toNat (op.code + 16) 0 0) = _ ∧ encS 0x19 qa.val qb.val v.toNat (op.code + 16) 0 0 < _
    rw [← hW]
    have e0 : fld W 24 8 = 25 := F.f24_8.trans (by first | rfl | omega | (simp only [b2n_false, b2n_true, F2.bit64] at *; omega))
    have e4 : fld W 32 4 = op.code := F.f32_4.trans (by first | rfl | omega | (simp only [b2n_false, b2n_true, F2.bit64] at *; omega))
    have e5 : fld W 36 1 = 1 := F.f36_1.trans (by first | rfl | omega | (simp only [b2n_false, b2n_true, F2.bit64] at *; omega))
    have e6 : fld W 37 3 = 0 := F.f37_3.trans (by first | rfl | omega | (simp only [b2n_false, b2n_true, F2.bit64] at *; omega))
    have e7 : fld W 44 20 = 0 := F.f44_20.trans (by first | rfl | omega | (simp only [b2n_false, b2n_true, F2.bit64] at *; omega))
    refine ⟨?_, F.lt⟩
    simp only [decodeS, parseS, fbit, fv, fs, fp, fq, fbv, fz, b2n_beq, fin_ofNat, bv_ofNat, Option.map_some, if_true, if_false, Bool.false_eq_true, Bool.not_false, Bool.not_true, Bool.true_or, Bool.or_true, Bool.false_or, Bool.and_self, Bool.true_and, Bool.and_true, Nat.reduceBEq, beq_self_eq_true, reduceIte, QOp_of, e0, F.f20_4, F.f16_4, F.f0_16, e4, e5, e6, e7, F.f64_32, F.f96_32]
    exact of_ok hwf
  | reg q =>
    have h0 := QOp_lt op
    have h1 := qa.isLt
    have h2 := qb.isLt
    have h3 := q.isLt
    obtain ⟨W, hW, F⟩ : ∃ W, W = encS 0x19 qa.val qb.val 0 (op.code + 256 * q.val) 0 0 ∧ IsS W 0x19 qa.val qb.val 0 (op.code + 256 * q.val) 0 0 := ⟨_, rfl, IsS.make 0x19 qa.val qb.val 0 (op.code + 256 * q.val) 0 0 (by decide) (by omega) (by omega) (by omega) (by first | omega | (simp only [b2n_false, b2n_true, F2.bit64] at *; omega)) (by omega) (by decide)⟩
    show decodeS (encS 0x19 qa.val qb.val 0 (op.code + 256 * q.val) 0 0) = _ ∧ encS 0x19 qa.val qb.val 0 (op.code + 256 * q.val) 0 0 < _
    rw [← hW]
    have e0 : fld W 24 8 = 25 := F.f24_8.trans (by first | rfl | omega | (simp only [b2n_false, b2n_true, F2.bit64] at *; omega))
    have e4 : fld W 32 4 = op.code := F.f32_4.trans (by first | rfl | omega | (simp only [b2n_false, b2n_true, F2.bit64] at *; omega))
    have e5 : fld W 36 1 = 0 := F.f36_1.trans (by first | rfl | omega | (simp only [b2n_false, b2n_true, F2.bit64] at *; omega))
    have e6 : fld W 37 3 = 0 := F.f37_3.trans (by first | rfl | omega | (simp only [b2n_false, b2n_true, F2.bit64] at *; omega))
    have e7 : fld W 40 4 = q.val := F.f40_4.trans (by first | rfl | omega | (simp only [b2n_false, b2n_true, F2.bit64] at *; omega))
    have e8 : fld W 44 20 = 0 := F.f44_20.trans (by first | rfl | omega | (simp only [b2n_false, b2n_true, F2.bit64] at *; omega))
    refine ⟨?_, F.lt⟩
    simp only [decodeS, parseS, fbit, fv, fs, fp, fq, fbv, fz, b2n_beq, fin_ofNat, bv_ofNat, Option.map_some, if_true, if_false, Bool.false_eq_true, Bool.not_false, Bool.not_true, Bool.true_or, Bool.or_true, Bool.false_or, Bool.and_self, Bool.true_and, Bool.and_true, Nat.reduceBEq, beq_self_eq_true, reduceIte, QOp_of, e0, F.f20_4, F.f16_4, F.f0_16, e4, e5, e6, e7, e8, F.f64_32, F.f96_32]
    exact of_ok hwf
theorem movq (qa : QReg) (src : MovSrc) : Statement (.movq qa src) := by
  refine stmt_stream rfl rfl fun hwf => ?_
  cases src with
  | imm v =>
    have h0 := qa.isLt
    have h1 := v.isLt
    obtain ⟨W, hW, F⟩ : ∃ W, W = encS 0x1A qa.val 0 v.toNat 0 0 0 ∧ IsS W 0x1A qa.val 0 v.toNat 0 0 0 := ⟨_, rfl, IsS.make 0x1A qa.val 0 v.toNat 0 0 0 (by decide) (by omega) (by omega) (by omega) (by first | omega | (simp only [b2n_false, b2n_true, F2.bit64] at *; omega)) (by omega) (by decide)⟩
    show decodeS (encS 0x1A qa.val 0 v.toNat 0 0 0) = _ ∧ encS 0x1A qa.val 0 v.toNat 0 0 0 < _
    rw [← hW]
    have e0 : fld W 24 8 = 26 := F.f24_8.trans (by first | rfl | omega | (simp only [b2n_false, b2n_true, F2.bit64] at *; omega))
    have e6 : fld W 96 2 = 0 := F.f96_2.trans (by first | rfl | omega | (simp only [b2n_false, b2n_true, F2.bit64] at *; omega))
    have e7 : fld W 98 30 = 0 := F.f98_30.trans (by first | rfl | omega | (simp only [b2n_false, b2n_true, F2.bit64] at *; omega))
    refine ⟨?_, F.lt⟩
    simp only [decodeS, parseS, fbit, fv, fs, fp, fq, fbv, fz, b2n_beq, fin_ofNat, bv_ofNat, Option.map_some, if_true, if_false, Bool.false_eq_true, Bool.not_false, Bool.not_true, Bool.true_or, Bool.or_true, Bool.false_or, Bool.and_self, Bool.true_and, Bool.and_true, Nat.reduceBEq, beq_self_eq_true, reduceIte, e0, F.f20_4, F.f16_4, F.f0_16, F.f32_32, F.f64_32, e6, e7]
    exact of_ok hwf
  | imm64 v =>
    have h0 := qa.isLt
    have h1 := v.isLt
    obtain ⟨W, hW, F⟩ : ∃ W, W = encS 0x1A qa.val 0 0 (v.toNat % 2 ^ 32) (v.toNat / 2 ^ 32) 1 ∧ IsS W 0x1A qa.val 0 0 (v.toNat % 2 ^ 32) (v.toNat / 2 ^ 32) 1 := ⟨_, rfl, IsS.make 0x1A qa.val 0 0 (v.toNat % 2 ^ 32) (v.toNat / 2 ^ 32) 1 (by decide) (by omega) (by omega) (by omega) (by first | omega | (simp only [b2n_false, b2n_true, F2.bit64] at *; omega)) (by omega) (by decide)⟩
    show decodeS (encS 0x1A qa.val 0 0 (v.toNat % 2 ^ 32) (v.toNat / 2 ^ 32) 1) = _ ∧ encS 0x1A qa.val 0 0 (v.toNat % 2 ^ 32) (v.toNat / 2 ^ 32) 1 < _
    rw [← hW]
    have e0 : fld W 24 8 = 26 := F.f24_8.trans (by first | rfl | omega | (simp only [b2n_false, b2n_true, F2.bit64] at *; omega))
    have e4 : fld W 32 64 = v.toNat := F.f32_64.trans (by first | rfl | omega | (simp only [b2n_false, b2n_true, F2.bit64] at *; omega))
    have e5 : fld W 96 2 = 1 := F.f96_2.trans (by first | rfl | omega | (simp only [b2n_false, b2n_true, F2.bit64] at *; omega))
    have e6 : fld W 98 30 = 0 := F.f98_30.trans (by first | rfl | omega | (simp only [b2n_false, b2n_true, F2.bit64] at *; omega))
    refine ⟨?_, F.lt⟩
    simp only [decodeS, parseS, fbit, fv, fs, fp, fq, fbv, fz, b2n_beq, fin_ofNat, bv_ofNat, Option.map_some, if_true, if_false, Bool.false_eq_true, Bool.not_false, Bool.not_true, Bool.true_or, Bool.or_true, Bool.false_or, Bool.and_self, Bool.true_and, Bool.and_true, Nat.reduceBEq, beq_self_eq_true, reduceIte, e0, F.f20_4, F.f16_4, F.f0_16, e4, e5, e6]
    exact of_ok hwf
  | reg q =>
    have h0 := qa.isLt
    have h1 := q.isLt
    obtain ⟨W, hW, F⟩ : ∃ W, W = encS 0x1A qa.val q.val 0 0 0 2 ∧ IsS W 0x1A qa.val q.val 0 0 0 2 := ⟨_, rfl, IsS.make 0x1A qa.val q.val 0 0 0 2 (by decide) (by omega) (by omega) (by omega) (by first | omega | (simp only [b2n_false, b2n_true, F2.bit64] at *; omega)) (by omega) (by decide)⟩
    show decodeS (encS 0x1A qa.val q.val 0 0 0 2) = _ ∧ encS 0x1A qa.val q.val 0 0 0 2 < _
    rw [← hW]
    have e0 : fld W 24 8 = 26 := F.f24_8.trans (by first | rfl | omega | (simp only [b2n_false, b2n_true, F2.bit64] at *; omega))
    have e6 : fld W 96 2 = 2 := F.f96_2.trans (by first | rfl | omega | (simp only [b2n_false, b2n_true, F2.bit64] at *; omega))
    have e7 : fld W 98 30 = 0 := F.f98_30.trans (by first | rfl | omega | (simp only [b2n_false, b2n_true, F2.bit64] at *; omega))
    refine ⟨?_, F.lt⟩
    simp only [decodeS, parseS, fbit, fv, fs, fp, fq, fbv, fz, b2n_beq, fin_ofNat, bv_ofNat, Option.map_some, if_true, if_false, Bool.false_eq_true, Bool.not_false, Bool.not_true, Bool.true_or, Bool.or_true, Bool.false_or, Bool.and_self, Bool.true_and, Bool.and_true, Nat.reduceBEq, beq_self_eq_true, reduceIte, e0, F.f20_4, F.f16_4, F.f0_16, F.f32_32, F.f64_32, e6, e7]
    exact of_ok hwf
theorem halt : Statement (.halt) := by
  refine stmt_stream rfl rfl fun hwf => ?_
  obtain ⟨W, hW, F⟩ : ∃ W, W = encS 0x1B 0 0 0 0 0 0 ∧ IsS W 0x1B 0 0 0 0 0 0 := ⟨_, rfl, IsS.make 0x1B 0 0 0 0 0 0 (by decide) (by omega) (by omega) (by omega) (by first | omega | (simp only [b2n_false, b2n_true, F2.bit64] at *; omega)) (by omega) (by decide)⟩
  rw [← hW]
  have e0 : fld W 24 8 = 27 := F.f24_8.trans (by first | rfl | omega | (simp only [b2n_false, b2n_true, F2.bit64] at *; omega))
  refine ⟨?_, F.lt⟩
  simp only [decodeS, parseS, fbit, fv, fs, fp, fq, fbv, fz, b2n_beq, fin_ofNat, bv_ofNat, Option.map_some, if_true, if_false, Bool.false_eq_true, Bool.not_false, Bool.not_true, Bool.true_or, Bool.or_true, Bool.false_or, Bool.and_self, Bool.true_and, Bool.and_true, Nat.reduceBEq, beq_self_eq_true, reduceIte, e0, F.f20_4, F.f16_4, F.f0_16, F.f32_32, F.f64_32, F.f96_32]
  exact of_ok hwf
theorem waits (sc : Scope) (qa : QReg) (qb : QReg) (us : BitVec 32) : Statement (.waits sc qa qb us) := by
  refine stmt_stream rfl rfl fun hwf => ?_
  have h0 := Scope_lt sc
  have h1 := qa.isLt
  have h2 := qb.isLt
  have h3 := us.isLt
  obtain ⟨W, hW, F⟩ : ∃ W, W = encS 0x20 qa.val qb.val 0 sc.code us.toNat 0 ∧ IsS W 0x20 qa.val qb.val 0 sc.code us.toNat 0 := ⟨_, rfl, IsS.make 0x20 qa.val qb.val 0 sc.code us.toNat 0 (by decide) (by omega) (by omega) (by omega) (by first | omega | (simp only [b2n_false, b2n_true, F2.bit64] at *; omega)) (by omega) (by decide)⟩
  rw [← hW]
  have e0 : fld W 24 8 = 32 := F.f24_8.trans (by first | rfl | omega | (simp only [b2n_false, b2n_true, F2.bit64] at *; omega))
  have e4 : fld W 32 3 = sc.code := F.f32_3.trans (by first | rfl | omega | (simp only [b2n_false, b2n_true, F2.bit64] at *; omega))
  have e5 : fld W 35 29 = 0 := F.f35_29.trans (by first | rfl | omega | (simp only [b2n_false, b2n_true, F2.bit64] at *; omega))
  refine ⟨?_, F.lt⟩
  simp only [decodeS, parseS, fbit, fv, fs, fp, fq, fbv, fz, b2n_beq, fin_ofNat, bv_ofNat, Option.map_some, if_true, if_false, Bool.false_eq_true, Bool.not_false, Bool.not_true, Bool.true_or, Bool.or_true, Bool.false_or, Bool.and_self, Bool.true_and, Bool.and_true, Nat.reduceBEq, beq_self_eq_true, reduceIte, Scope_of, e0, F.f20_4, F.f16_4, F.f0_16, e4, e5, F.f64_32, F.f96_32]
  exact of_ok hwf
theorem signal (sc : Scope) (add : Bool) (qa : QReg) (qb : QReg) : Statement (.signal sc add qa qb) := by
  refine stmt_stream rfl rfl fun hwf => ?_
  have h0 := Scope_lt sc
  have h1 := b2n_lt add
  have h2 := qa.isLt
  have h3 := qb.isLt
  obtain ⟨W, hW, F⟩ : ∃ W, W = encS 0x21 qa.val qb.val 0 (sc.code + 16 * b2n add) 0 0 ∧ IsS W 0x21 qa.val qb.val 0 (sc.code + 16 * b2n add) 0 0 := ⟨_, rfl, IsS.make 0x21 qa.val qb.val 0 (sc.code + 16 * b2n add) 0 0 (by decide) (by omega) (by omega) (by omega) (by first | omega | (simp only [b2n_false, b2n_true, F2.bit64] at *; omega)) (by omega) (by decide)⟩
  rw [← hW]
  have e0 : fld W 24 8 = 33 := F.f24_8.trans (by first | rfl | omega | (simp only [b2n_false, b2n_true, F2.bit64] at *; omega))
  have e4 : fld W 32 3 = sc.code := F.f32_3.trans (by first | rfl | omega | (simp only [b2n_false, b2n_true, F2.bit64] at *; omega))
  have e5 : fld W 35 1 = 0 := F.f35_1.trans (by first | rfl | omega | (simp only [b2n_false, b2n_true, F2.bit64] at *; omega))
  have e6 : fld W 36 1 = b2n add := F.f36_1.trans (by first | rfl | omega | (simp only [b2n_false, b2n_true, F2.bit64] at *; omega))
  have e7 : fld W 37 27 = 0 := F.f37_27.trans (by first | rfl | omega | (simp only [b2n_false, b2n_true, F2.bit64] at *; omega))
  refine ⟨?_, F.lt⟩
  simp only [decodeS, parseS, fbit, fv, fs, fp, fq, fbv, fz, b2n_beq, fin_ofNat, bv_ofNat, Option.map_some, if_true, if_false, Bool.false_eq_true, Bool.not_false, Bool.not_true, Bool.true_or, Bool.or_true, Bool.false_or, Bool.and_self, Bool.true_and, Bool.and_true, Nat.reduceBEq, beq_self_eq_true, reduceIte, Scope_of, e0, F.f20_4, F.f16_4, F.f0_16, e4, e5, e6, e7, F.f64_32, F.f96_32]
  exact of_ok hwf
theorem mark (qa : QReg) : Statement (.mark qa) := by
  refine stmt_stream rfl rfl fun hwf => ?_
  have h0 := qa.isLt
  obtain ⟨W, hW, F⟩ : ∃ W, W = encS 0x22 qa.val 0 0 0 0 0 ∧ IsS W 0x22 qa.val 0 0 0 0 0 := ⟨_, rfl, IsS.make 0x22 qa.val 0 0 0 0 0 (by decide) (by omega) (by omega) (by omega) (by first | omega | (simp only [b2n_false, b2n_true, F2.bit64] at *; omega)) (by omega) (by decide)⟩
  rw [← hW]
  have e0 : fld W 24 8 = 34 := F.f24_8.trans (by first | rfl | omega | (simp only [b2n_false, b2n_true, F2.bit64] at *; omega))
  refine ⟨?_, F.lt⟩
  simp only [decodeS, parseS, fbit, fv, fs, fp, fq, fbv, fz, b2n_beq, fin_ofNat, bv_ofNat, Option.map_some, if_true, if_false, Bool.false_eq_true, Bool.not_false, Bool.not_true, Bool.true_or, Bool.or_true, Bool.false_or, Bool.and_self, Bool.true_and, Bool.and_true, Nat.reduceBEq, beq_self_eq_true, reduceIte, e0, F.f20_4, F.f16_4, F.f0_16, F.f32_32, F.f64_32, F.f96_32]
  exact of_ok hwf
theorem hostint (vec : BitVec 8) : Statement (.hostint vec) := by
  refine stmt_stream rfl rfl fun hwf => ?_
  have h0 := vec.isLt
  obtain ⟨W, hW, F⟩ : ∃ W, W = encS 0x23 0 0 0 vec.toNat 0 0 ∧ IsS W 0x23 0 0 0 vec.toNat 0 0 := ⟨_, rfl, IsS.make 0x23 0 0 0 vec.toNat 0 0 (by decide) (by omega) (by omega) (by omega) (by first | omega | (simp only [b2n_false, b2n_true, F2.bit64] at *; omega)) (by omega) (by decide)⟩
  rw [← hW]
  have e0 : fld W 24 8 = 35 := F.f24_8.trans (by first | rfl | omega | (simp only [b2n_false, b2n_true, F2.bit64] at *; omega))
  have e4 : fld W 32 8 = vec.toNat := F.f32_8.trans (by first | rfl | omega | (simp only [b2n_false, b2n_true, F2.bit64] at *; omega))
  have e5 : fld W 40 24 = 0 := F.f40_24.trans (by first | rfl | omega | (simp only [b2n_false, b2n_true, F2.bit64] at *; omega))
  refine ⟨?_, F.lt⟩
  simp only [decodeS, parseS, fbit, fv, fs, fp, fq, fbv, fz, b2n_beq, fin_ofNat, bv_ofNat, Option.map_some, if_true, if_false, Bool.false_eq_true, Bool.not_false, Bool.not_true, Bool.true_or, Bool.or_true, Bool.false_or, Bool.and_self, Bool.true_and, Bool.and_true, Nat.reduceBEq, beq_self_eq_true, reduceIte, e0, F.f20_4, F.f16_4, F.f0_16, e4, e5, F.f64_32, F.f96_32]
  exact of_ok hwf
theorem prio (level : Fin 16) : Statement (.prio level) := by
  refine stmt_stream rfl rfl fun hwf => ?_
  have h0 := level.isLt
  obtain ⟨W, hW, F⟩ : ∃ W, W = encS 0x24 0 0 level.val 0 0 0 ∧ IsS W 0x24 0 0 level.val 0 0 0 := ⟨_, rfl, IsS.make 0x24 0 0 level.val 0 0 0 (by decide) (by omega) (by omega) (by omega) (by first | omega | (simp only [b2n_false, b2n_true, F2.bit64] at *; omega)) (by omega) (by decide)⟩
  rw [← hW]
  have e0 : fld W 24 8 = 36 := F.f24_8.trans (by first | rfl | omega | (simp only [b2n_false, b2n_true, F2.bit64] at *; omega))
  have e3 : fld W 0 4 = level.val := F.f0_4.trans (by first | rfl | omega | (simp only [b2n_false, b2n_true, F2.bit64] at *; omega))
  have e4 : fld W 4 12 = 0 := F.f4_12.trans (by first | rfl | omega | (simp only [b2n_false, b2n_true, F2.bit64] at *; omega))
  refine ⟨?_, F.lt⟩
  simp only [decodeS, parseS, fbit, fv, fs, fp, fq, fbv, fz, b2n_beq, fin_ofNat, bv_ofNat, Option.map_some, if_true, if_false, Bool.false_eq_true, Bool.not_false, Bool.not_true, Bool.true_or, Bool.or_true, Bool.false_or, Bool.and_self, Bool.true_and, Bool.and_true, Nat.reduceBEq, beq_self_eq_true, reduceIte, e0, F.f20_4, F.f16_4, e3, e4, F.f32_32, F.f64_32, F.f96_32]
  exact of_ok hwf
theorem detm (on : Bool) : Statement (.detm on) := by
  refine stmt_stream rfl rfl fun hwf => ?_
  have h0 := b2n_lt on
  obtain ⟨W, hW, F⟩ : ∃ W, W = encS 0x25 0 0 (b2n on) 0 0 0 ∧ IsS W 0x25 0 0 (b2n on) 0 0 0 := ⟨_, rfl, IsS.make 0x25 0 0 (b2n on) 0 0 0 (by decide) (by omega) (by omega) (by omega) (by first | omega | (simp only [b2n_false, b2n_true, F2.bit64] at *; omega)) (by omega) (by decide)⟩
  rw [← hW]
  have e0 : fld W 24 8 = 37 := F.f24_8.trans (by first | rfl | omega | (simp only [b2n_false, b2n_true, F2.bit64] at *; omega))
  have e3 : fld W 0 1 = b2n on := F.f0_1.trans (by first | rfl | omega | (simp only [b2n_false, b2n_true, F2.bit64] at *; omega))
  have e4 : fld W 1 15 = 0 := F.f1_15.trans (by first | rfl | omega | (simp only [b2n_false, b2n_true, F2.bit64] at *; omega))
  refine ⟨?_, F.lt⟩
  simp only [decodeS, parseS, fbit, fv, fs, fp, fq, fbv, fz, b2n_beq, fin_ofNat, bv_ofNat, Option.map_some, if_true, if_false, Bool.false_eq_true, Bool.not_false, Bool.not_true, Bool.true_or, Bool.or_true, Bool.false_or, Bool.and_self, Bool.true_and, Bool.and_true, Nat.reduceBEq, beq_self_eq_true, reduceIte, e0, F.f20_4, F.f16_4, e3, e4, F.f32_32, F.f64_32, F.f96_32]
  exact of_ok hwf
theorem gdef (qa : QReg) : Statement (.gdef qa) := by
  refine stmt_stream rfl rfl fun hwf => ?_
  have h0 := qa.isLt
  obtain ⟨W, hW, F⟩ : ∃ W, W = encS 0x30 qa.val 0 0 0 0 0 ∧ IsS W 0x30 qa.val 0 0 0 0 0 := ⟨_, rfl, IsS.make 0x30 qa.val 0 0 0 0 0 (by decide) (by omega) (by omega) (by omega) (by first | omega | (simp only [b2n_false, b2n_true, F2.bit64] at *; omega)) (by omega) (by decide)⟩
  rw [← hW]
  have e0 : fld W 24 8 = 48 := F.f24_8.trans (by first | rfl | omega | (simp only [b2n_false, b2n_true, F2.bit64] at *; omega))
  refine ⟨?_, F.lt⟩
  simp only [decodeS, parseS, fbit, fv, fs, fp, fq, fbv, fz, b2n_beq, fin_ofNat, bv_ofNat, Option.map_some, if_true, if_false, Bool.false_eq_true, Bool.not_false, Bool.not_true, Bool.true_or, Bool.or_true, Bool.false_or, Bool.and_self, Bool.true_and, Bool.and_true, Nat.reduceBEq, beq_self_eq_true, reduceIte, e0, F.f20_4, F.f16_4, F.f0_16, F.f32_32, F.f64_32, F.f96_32]
  exact of_ok hwf
theorem gstep (qa : QReg) (qb : QReg) : Statement (.gstep qa qb) := by
  refine stmt_stream rfl rfl fun hwf => ?_
  have h0 := qa.isLt
  have h1 := qb.isLt
  obtain ⟨W, hW, F⟩ : ∃ W, W = encS 0x31 qa.val qb.val 0 0 0 0 ∧ IsS W 0x31 qa.val qb.val 0 0 0 0 := ⟨_, rfl, IsS.make 0x31 qa.val qb.val 0 0 0 0 (by decide) (by omega) (by omega) (by omega) (by first | omega | (simp only [b2n_false, b2n_true, F2.bit64] at *; omega)) (by omega) (by decide)⟩
  rw [← hW]
  have e0 : fld W 24 8 = 49 := F.f24_8.trans (by first | rfl | omega | (simp only [b2n_false, b2n_true, F2.bit64] at *; omega))
  refine ⟨?_, F.lt⟩
  simp only [decodeS, parseS, fbit, fv, fs, fp, fq, fbv, fz, b2n_beq, fin_ofNat, bv_ofNat, Option.map_some, if_true, if_false, Bool.false_eq_true, Bool.not_false, Bool.not_true, Bool.true_or, Bool.or_true, Bool.false_or, Bool.and_self, Bool.true_and, Bool.and_true, Nat.reduceBEq, beq_self_eq_true, reduceIte, e0, F.f20_4, F.f16_4, F.f0_16, F.f32_32, F.f64_32, F.f96_32]
  exact of_ok hwf
theorem xdef (qa : QReg) (layer : BitVec 8) (count : BitVec 32) : Statement (.xdef qa layer count) := by
  refine stmt_stream rfl rfl fun hwf => ?_
  have h0 := qa.isLt
  have h1 := layer.isLt
  have h2 := count.isLt
  obtain ⟨W, hW, F⟩ : ∃ W, W = encS 0x32 qa.val 0 0 layer.toNat count.toNat 0 ∧ IsS W 0x32 qa.val 0 0 layer.toNat count.toNat 0 := ⟨_, rfl, IsS.make 0x32 qa.val 0 0 layer.toNat count.toNat 0 (by decide) (by omega) (by omega) (by omega) (by first | omega | (simp only [b2n_false, b2n_true, F2.bit64] at *; omega)) (by omega) (by decide)⟩
  rw [← hW]
  have e0 : fld W 24 8 = 50 := F.f24_8.trans (by first | rfl | omega | (simp only [b2n_false, b2n_true, F2.bit64] at *; omega))
  have e4 : fld W 32 8 = layer.toNat := F.f32_8.trans (by first | rfl | omega | (simp only [b2n_false, b2n_true, F2.bit64] at *; omega))
  have e5 : fld W 40 24 = 0 := F.f40_24.trans (by first | rfl | omega | (simp only [b2n_false, b2n_true, F2.bit64] at *; omega))
  refine ⟨?_, F.lt⟩
  simp only [decodeS, parseS, fbit, fv, fs, fp, fq, fbv, fz, b2n_beq, fin_ofNat, bv_ofNat, Option.map_some, if_true, if_false, Bool.false_eq_true, Bool.not_false, Bool.not_true, Bool.true_or, Bool.or_true, Bool.false_or, Bool.and_self, Bool.true_and, Bool.and_true, Nat.reduceBEq, beq_self_eq_true, reduceIte, e0, F.f20_4, F.f16_4, F.f0_16, e4, e5, F.f64_32, F.f96_32]
  exact of_ok hwf
theorem xfill (qa : QReg) (layer : BitVec 8) (expert : BitVec 10) (die : Fin 8) (len : BitVec 32) : Statement (.xfill qa layer expert die len) := by
  refine stmt_stream rfl rfl fun hwf => ?_
  have h0 := qa.isLt
  have h1 := layer.isLt
  have h2 := expert.isLt
  have h3 := die.isLt
  have h4 := len.isLt
  obtain ⟨W, hW, F⟩ : ∃ W, W = encS 0x33 qa.val 0 0 (layer.toNat + 2 ^ 8 * expert.toNat + 2 ^ 18 * die.val) len.toNat 0 ∧ IsS W 0x33 qa.val 0 0 (layer.toNat + 2 ^ 8 * expert.toNat + 2 ^ 18 * die.val) len.toNat 0 := ⟨_, rfl, IsS.make 0x33 qa.val 0 0 (layer.toNat + 2 ^ 8 * expert.toNat + 2 ^ 18 * die.val) len.toNat 0 (by decide) (by omega) (by omega) (by omega) (by first | omega | (simp only [b2n_false, b2n_true, F2.bit64] at *; omega)) (by omega) (by decide)⟩
  rw [← hW]
  have e0 : fld W 24 8 = 51 := F.f24_8.trans (by first | rfl | omega | (simp only [b2n_false, b2n_true, F2.bit64] at *; omega))
  have e4 : fld W 32 8 = layer.toNat := F.f32_8.trans (by first | rfl | omega | (simp only [b2n_false, b2n_true, F2.bit64] at *; omega))
  have e5 : fld W 40 10 = expert.toNat := F.f40_10.trans (by first | rfl | omega | (simp only [b2n_false, b2n_true, F2.bit64] at *; omega))
  have e6 : fld W 50 3 = die.val := F.f50_3.trans (by first | rfl | omega | (simp only [b2n_false, b2n_true, F2.bit64] at *; omega))
  have e7 : fld W 53 11 = 0 := F.f53_11.trans (by first | rfl | omega | (simp only [b2n_false, b2n_true, F2.bit64] at *; omega))
  refine ⟨?_, F.lt⟩
  simp only [decodeS, parseS, fbit, fv, fs, fp, fq, fbv, fz, b2n_beq, fin_ofNat, bv_ofNat, Option.map_some, if_true, if_false, Bool.false_eq_true, Bool.not_false, Bool.not_true, Bool.true_or, Bool.or_true, Bool.false_or, Bool.and_self, Bool.true_and, Bool.and_true, Nat.reduceBEq, beq_self_eq_true, reduceIte, e0, F.f20_4, F.f16_4, F.f0_16, e4, e5, e6, e7, F.f64_32, F.f96_32]
  exact of_ok hwf
theorem xpin (off : Bool) (layer : BitVec 8) (expert : BitVec 10) (die : Fin 8) : Statement (.xpin off layer expert die) := by
  refine stmt_stream rfl rfl fun hwf => ?_
  have h0 := b2n_lt off
  have h1 := layer.isLt
  have h2 := expert.isLt
  have h3 := die.isLt
  obtain ⟨W, hW, F⟩ : ∃ W, W = encS 0x34 0 0 0 (layer.toNat + 2 ^ 8 * expert.toNat + 2 ^ 18 * die.val + 2 ^ 24 * b2n off) 0 0 ∧ IsS W 0x34 0 0 0 (layer.toNat + 2 ^ 8 * expert.toNat + 2 ^ 18 * die.val + 2 ^ 24 * b2n off) 0 0 := ⟨_, rfl, IsS.make 0x34 0 0 0 (layer.toNat + 2 ^ 8 * expert.toNat + 2 ^ 18 * die.val + 2 ^ 24 * b2n off) 0 0 (by decide) (by omega) (by omega) (by omega) (by first | omega | (simp only [b2n_false, b2n_true, F2.bit64] at *; omega)) (by omega) (by decide)⟩
  rw [← hW]
  have e0 : fld W 24 8 = 52 := F.f24_8.trans (by first | rfl | omega | (simp only [b2n_false, b2n_true, F2.bit64] at *; omega))
  have e4 : fld W 32 8 = layer.toNat := F.f32_8.trans (by first | rfl | omega | (simp only [b2n_false, b2n_true, F2.bit64] at *; omega))
  have e5 : fld W 40 10 = expert.toNat := F.f40_10.trans (by first | rfl | omega | (simp only [b2n_false, b2n_true, F2.bit64] at *; omega))
  have e6 : fld W 50 3 = die.val := F.f50_3.trans (by first | rfl | omega | (simp only [b2n_false, b2n_true, F2.bit64] at *; omega))
  have e7 : fld W 53 3 = 0 := F.f53_3.trans (by first | rfl | omega | (simp only [b2n_false, b2n_true, F2.bit64] at *; omega))
  have e8 : fld W 56 1 = b2n off := F.f56_1.trans (by first | rfl | omega | (simp only [b2n_false, b2n_true, F2.bit64] at *; omega))
  have e9 : fld W 57 7 = 0 := F.f57_7.trans (by first | rfl | omega | (simp only [b2n_false, b2n_true, F2.bit64] at *; omega))
  refine ⟨?_, F.lt⟩
  simp only [decodeS, parseS, fbit, fv, fs, fp, fq, fbv, fz, b2n_beq, fin_ofNat, bv_ofNat, Option.map_some, if_true, if_false, Bool.false_eq_true, Bool.not_false, Bool.not_true, Bool.true_or, Bool.or_true, Bool.false_or, Bool.and_self, Bool.true_and, Bool.and_true, Nat.reduceBEq, beq_self_eq_true, reduceIte, e0, F.f20_4, F.f16_4, F.f0_16, e4, e5, e6, e7, e8, e9, F.f64_32, F.f96_32]
  exact of_ok hwf
theorem xmerge (qa : QReg) (layer : BitVec 8) (expert : BitVec 10) (len : BitVec 32) : Statement (.xmerge qa layer expert len) := by
  refine stmt_stream rfl rfl fun hwf => ?_
  have h0 := qa.isLt
  have h1 := layer.isLt
  have h2 := expert.isLt
  have h3 := len.isLt
  obtain ⟨W, hW, F⟩ : ∃ W, W = encS 0x35 qa.val 0 0 (layer.toNat + 2 ^ 8 * expert.toNat) len.toNat 0 ∧ IsS W 0x35 qa.val 0 0 (layer.toNat + 2 ^ 8 * expert.toNat) len.toNat 0 := ⟨_, rfl, IsS.make 0x35 qa.val 0 0 (layer.toNat + 2 ^ 8 * expert.toNat) len.toNat 0 (by decide) (by omega) (by omega) (by omega) (by first | omega | (simp only [b2n_false, b2n_true, F2.bit64] at *; omega)) (by omega) (by decide)⟩
  rw [← hW]
  have e0 : fld W 24 8 = 53 := F.f24_8.trans (by first | rfl | omega | (simp only [b2n_false, b2n_true, F2.bit64] at *; omega))
  have e4 : fld W 32 8 = layer.toNat := F.f32_8.trans (by first | rfl | omega | (simp only [b2n_false, b2n_true, F2.bit64] at *; omega))
  have e5 : fld W 40 10 = expert.toNat := F.f40_10.trans (by first | rfl | omega | (simp only [b2n_false, b2n_true, F2.bit64] at *; omega))
  have e6 : fld W 50 14 = 0 := F.f50_14.trans (by first | rfl | omega | (simp only [b2n_false, b2n_true, F2.bit64] at *; omega))
  refine ⟨?_, F.lt⟩
  simp only [decodeS, parseS, fbit, fv, fs, fp, fq, fbv, fz, b2n_beq, fin_ofNat, bv_ofNat, Option.map_some, if_true, if_false, Bool.false_eq_true, Bool.not_false, Bool.not_true, Bool.true_or, Bool.or_true, Bool.false_or, Bool.and_self, Bool.true_and, Bool.and_true, Nat.reduceBEq, beq_self_eq_true, reduceIte, e0, F.f20_4, F.f16_4, F.f0_16, e4, e5, e6, F.f64_32, F.f96_32]
  exact of_ok hwf
theorem scmdStart (part : Nat) (stream : Nat) (addr : BitVec 60) : Statement (.scmdStart part stream addr) := stmt_none rfl rfl
theorem scmdResume (part : Nat) (stream : Nat) : Statement (.scmdResume part stream) := stmt_none rfl rfl
theorem scmdAbort (part : Nat) (stream : Nat) : Statement (.scmdAbort part stream) := stmt_none rfl rfl
theorem abortComplete (part : Nat) (stream : Nat) : Statement (.abortComplete part stream) := stmt_none rfl rfl
theorem frontEndAccess (part : Nat) (stream : Nat) : Statement (.frontEndAccess part stream) := stmt_none rfl rfl
theorem decodeAfterWait (part : Nat) : Statement (.decodeAfterWait part) := stmt_none rfl rfl
theorem taskIssue (part : Nat) : Statement (.taskIssue part) := stmt_none rfl rfl
theorem taskComplete (task : Nat) : Statement (.taskComplete task) := stmt_none rfl rfl
theorem taskRetire (part : Nat) (stream : Nat) : Statement (.taskRetire part stream) := stmt_none rfl rfl
theorem streamFault (part : Nat) (stream : Nat) : Statement (.streamFault part stream) := stmt_none rfl rfl
theorem dieLostResume (part : Nat) (stream : Nat) : Statement (.dieLostResume part stream) := stmt_none rfl rfl
theorem waitsTimeout (task : Nat) : Statement (.waitsTimeout task) := stmt_none rfl rfl
theorem blockPlace (part : Nat) (die : Nat) : Statement (.blockPlace part die) := stmt_none rfl rfl
theorem gangLaunchAdmit (task : Nat) : Statement (.gangLaunchAdmit task) := stmt_none rfl rfl
theorem stealRequest (task : Nat) (thief : Nat) : Statement (.stealRequest task thief) := stmt_none rfl rfl
theorem stealAnswer (task : Nat) (thief : Nat) : Statement (.stealAnswer task thief) := stmt_none rfl rfl
theorem coreRescue (die : Nat) (core : Nat) : Statement (.coreRescue die core) := stmt_none rfl rfl
theorem tlbWalkComplete (group : Nat) : Statement (.tlbWalkComplete group) := stmt_none rfl rfl
theorem loadReturn (group : Nat) (seq : Nat) : Statement (.loadReturn group seq) := stmt_none rfl rfl
theorem homeLoad (req : Nat) : Statement (.homeLoad req) := stmt_none rfl rfl
theorem homeWrite (req : Nat) : Statement (.homeWrite req) := stmt_none rfl rfl
theorem homeAtomic (req : Nat) : Statement (.homeAtomic req) := stmt_none rfl rfl
theorem storeAck (req : Nat) : Statement (.storeAck req) := stmt_none rfl rfl
theorem errorResponse (req : Nat) : Statement (.errorResponse req) := stmt_none rfl rfl
theorem movedResponse (req : Nat) : Statement (.movedResponse req) := stmt_none rfl rfl
theorem flushMarker (req : Nat) : Statement (.flushMarker req) := stmt_none rfl rfl
theorem wcbDrainTimeout (die : Nat) (core : Nat) (line : Nat) : Statement (.wcbDrainTimeout die core line) := stmt_none rfl rfl
theorem migcmdGo (part : Nat) (v : BitVec 64) : Statement (.migcmdGo part v) := stmt_none rfl rfl
theorem migrationFinal (part : Nat) : Statement (.migrationFinal part) := stmt_none rfl rfl
theorem migrationSwitch (part : Nat) : Statement (.migrationSwitch part) := stmt_none rfl rfl
theorem migrationDone (part : Nat) : Statement (.migrationDone part) := stmt_none rfl rfl
theorem tlbinvPage (part : Nat) (va : Nat) : Statement (.tlbinvPage part va) := stmt_none rfl rfl
theorem tlbinvRegion (part : Nat) (va : Nat) : Statement (.tlbinvRegion part va) := stmt_none rfl rfl
theorem tlbinvPartition (part : Nat) : Statement (.tlbinvPartition part) := stmt_none rfl rfl
theorem tlbinvComplete (part : Nat) : Statement (.tlbinvComplete part) := stmt_none rfl rfl
theorem copyBegin (block : Nat) : Statement (.copyBegin block) := stmt_none rfl rfl
theorem copyUnitWrite (copy : Nat) (unit : Nat) : Statement (.copyUnitWrite copy unit) := stmt_none rfl rfl
theorem copyComplete (copy : Nat) : Statement (.copyComplete copy) := stmt_none rfl rfl
theorem mxlwLatch (die : Nat) (cluster : Nat) (pos : Nat) : Statement (.mxlwLatch die cluster pos) := stmt_none rfl rfl
theorem mxrunGrant (die : Nat) (cluster : Nat) : Statement (.mxrunGrant die cluster) := stmt_none rfl rfl
theorem mxrunPassEnd (die : Nat) (cluster : Nat) : Statement (.mxrunPassEnd die cluster) := stmt_none rfl rfl
theorem hpubCapture (group : Nat) : Statement (.hpubCapture group) := stmt_none rfl rfl
theorem haloDelivery (grid : Nat) (part : Nat) : Statement (.haloDelivery grid part) := stmt_none rfl rfl
theorem ringTagSet (grid : Nat) (part : Nat) (ring : Nat) : Statement (.ringTagSet grid part ring) := stmt_none rfl rfl
theorem staleHalo (group : Nat) : Statement (.staleHalo group) := stmt_none rfl rfl
theorem xsendArrival (send : Nat) : Statement (.xsendArrival send) := stmt_none rfl rfl
theorem inboundSlotFree (send : Nat) : Statement (.inboundSlotFree send) := stmt_none rfl rfl
theorem xsendAck (send : Nat) : Statement (.xsendAck send) := stmt_none rfl rfl
theorem xsendTimeout (send : Nat) : Statement (.xsendTimeout send) := stmt_none rfl rfl
theorem replicaTableUpdate (part : Nat) (layer : Nat) (expert : Nat) (die : Nat) : Statement (.replicaTableUpdate part layer expert die) := stmt_none rfl rfl
theorem prismWindowEnd (part : Nat) : Statement (.prismWindowEnd part) := stmt_none rfl rfl
theorem fillComplete (part : Nat) (layer : Nat) (expert : Nat) (die : Nat) : Statement (.fillComplete part layer expert die) := stmt_none rfl rfl
theorem evictComplete (part : Nat) (layer : Nat) (expert : Nat) (die : Nat) : Statement (.evictComplete part layer expert die) := stmt_none rfl rfl
theorem pxctlWrite (part : Nat) (v : BitVec 64) : Statement (.pxctlWrite part v) := stmt_none rfl rfl
theorem barRelease (block : Nat) : Statement (.barRelease block) := stmt_none rfl rfl
theorem cbarRelease (gang : Nat) : Statement (.cbarRelease gang) := stmt_none rfl rfl
theorem waitTimeout (group : Nat) : Statement (.waitTimeout group) := stmt_none rfl rfl
theorem waitcyExpiry (group : Nat) : Statement (.waitcyExpiry group) := stmt_none rfl rfl
theorem parkResume (group : Nat) : Statement (.parkResume group) := stmt_none rfl rfl
theorem trapEntry (group : Nat) : Statement (.trapEntry group) := stmt_none rfl rfl
theorem aidAffirmation (aid : Nat) : Statement (.aidAffirmation aid) := stmt_none rfl rfl
theorem aidDenial (aid : Nat) : Statement (.aidDenial aid) := stmt_none rfl rfl
theorem preempt (block : Nat) (why : PreemptWhy) : Statement (.preempt block why) := stmt_none rfl rfl
theorem blockRestore (block : Nat) (die : Nat) (core : Nat) : Statement (.blockRestore block die core) := stmt_none rfl rfl
theorem dieEvacuation (die : Nat) (spare : Nat) : Statement (.dieEvacuation die spare) := stmt_none rfl rfl
theorem dieLoss (die : Nat) : Statement (.dieLoss die) := stmt_none rfl rfl
theorem partitionTeardown (part : Nat) : Statement (.partitionTeardown part) := stmt_none rfl rfl
theorem corePartitionMove (die : Nat) (core : Nat) : Statement (.corePartitionMove die core) := stmt_none rfl rfl
theorem blockRetire (block : Nat) : Statement (.blockRetire block) := stmt_none rfl rfl
theorem gridComplete (task : Nat) : Statement (.gridComplete task) := stmt_none rfl rfl
theorem leaseRenew : Statement (.leaseRenew) := stmt_none rfl rfl
theorem leaseLapse (die : Nat) : Statement (.leaseLapse die) := stmt_none rfl rfl
theorem leaseClaim (die : Nat) : Statement (.leaseClaim die) := stmt_none rfl rfl
theorem takeoverComplete : Statement (.takeoverComplete) := stmt_none rfl rfl
theorem journalEntry (d : Decision) : Statement (.journalEntry d) := stmt_none rfl rfl
theorem journalAckTimeout (die : Nat) : Statement (.journalAckTimeout die) := stmt_none rfl rfl
theorem powerUp : Statement (.powerUp) := stmt_none rfl rfl
theorem firmwareLoad (image : List Byte) : Statement (.firmwareLoad image) := stmt_none rfl rfl
theorem thermalThrottle (die : Nat) (temp : Nat) (budget : Nat) : Statement (.thermalThrottle die temp budget) := stmt_none rfl rfl
theorem thermalShutdown (die : Nat) (temp : Nat) : Statement (.thermalShutdown die temp) := stmt_none rfl rfl
theorem linkDown (link : Nat) : Statement (.linkDown link) := stmt_none rfl rfl
theorem linkUp (link : Nat) : Statement (.linkUp link) := stmt_none rfl rfl
theorem hostWindowAccess (part : Nat) (off : Nat) (acc : HostAcc) : Statement (.hostWindowAccess part off acc) := stmt_none rfl rfl
theorem hostAtomicop (part : Nat) (off : Nat) (op : HostOp) : Statement (.hostAtomicop part off op) := stmt_none rfl rfl
theorem bufadd (part : Nat) (v : BitVec 64) : Statement (.bufadd part v) := stmt_none rfl rfl
theorem attgo (part : Nat) (v : BitVec 32) : Statement (.attgo part v) := stmt_none rfl rfl
theorem reportWritten (part : Nat) : Statement (.reportWritten part) := stmt_none rfl rfl
theorem pctlWrite (part : Nat) (v : BitVec 64) : Statement (.pctlWrite part v) := stmt_none rfl rfl
theorem registerWrite (r : HostReg) (v : BitVec 64) : Statement (.registerWrite r v) := stmt_none rfl rfl
theorem packagePowerLoss : Statement (.packagePowerLoss) := stmt_none rfl rfl
theorem journalAcknowledge (die : Nat) (seq : Nat) : Statement (.journalAcknowledge die seq) := stmt_none rfl rfl

end Sys2Proof.Laws.RoundTrip
end

