-- ==== Sys2Proof/Laws/Steps.lean ====
section
/-! SUPPORT. Laws of the focus, and of what a step can be. -/

namespace Sys2Proof.Machine

/-! ## Focus and commit -/

theorem find_put {α : Type} (t : Tab α) (k i : Nat) (x : α) :
    (put t k x).find i = if k ≠ nobody ∧ i = k then some x else t.find i := by
  unfold put
  by_cases h : k = nobody
  · rw [if_pos h, if_neg (by simp [h])]
  · rw [if_neg h, Tab.find_ins]
    by_cases hi : i = k
    · rw [if_pos hi, if_pos ⟨h, hi⟩]
    · rw [if_neg hi, if_neg fun c => hi c.2]
/-- A focus takes the group, its block, its partition and its core, and changes nothing else. -/
theorem State.focus_some {s t : State} {g : Nat} (h : s.focus g = some t) :
    ∃ G B P, s.groups.find g = some G ∧ s.blocks.find G.blk = some B ∧ s.parts.find G.part = some P ∧
      t = { s with cg := G, cgId := g, cb := B, cbId := G.blk, cp := P, cpId := G.part,
                   cc := (s.cores.find B.core).getD .empty, ccId := B.core } := by
  unfold State.focus at h
  split at h
  · injection h
  · rename_i G hG
    split at h
    · injection h
    · rename_i B hB
      split at h
      · injection h
      · rename_i P hP
        injection h with e
        exact ⟨G, B, P, hG, hB, hP, e.symm⟩
theorem State.focusStream_some {s t : State} {part k : Nat} (h : s.focusStream part k = some t) :
    ∃ P S, s.parts.find part = some P ∧ s.streams.find (part * 16 + k) = some S ∧
      t = { s with cp := P, cpId := part, cst := S, cstId := part * 16 + k } := by
  unfold State.focusStream at h
  split at h
  · rename_i P S hP hS
    injection h with e
    exact ⟨P, S, hP, hS, e.symm⟩
  · injection h
/-- A committed state has no entity in focus. -/
theorem State.commit_unfocused (s : State) : s.commit.Unfocused := ⟨⟨rfl, rfl, rfl, rfl, rfl⟩, rfl, rfl, rfl, rfl, rfl⟩
/-- Committing where nothing is in focus changes nothing. -/
theorem State.Unfocused.commit {s : State} (h : s.Unfocused) : s.commit = s := by
  obtain ⟨⟨a, b, c, d, e⟩, f, g, i, j, k⟩ := h
  unfold State.commit State.sync put
  rw [if_pos a, if_pos b, if_pos c, if_pos d, if_pos e]
  simp only [← a, ← f, ← g, ← i, ← j, ← k]
  have hb : s.cbId = s.cgId := by rw [a, b]
  have hc : s.cpId = s.cgId := by rw [a, c]
  have hd : s.ccId = s.cgId := by rw [a, d]
  have he : s.cstId = s.cgId := by rw [a, e]
  cases s
  simp_all
/-- A step of the device for one group: nothing happens, or its effect on the group in focus is committed. -/
theorem State.onGroup_cases (s : State) (g : Nat) (f : State → State) :
    s.onGroup g f = s ∨ ∃ t, s.focus g = some t ∧ t.cb.saved = false ∧ s.onGroup g f = (f t).commit := by
  unfold State.onGroup
  split
  · rename_i t h
    by_cases hs : t.cb.saved = true
    · rw [if_pos hs]; exact .inl rfl
    · rw [if_neg hs]; exact .inr ⟨t, h, by simpa using hs, rfl⟩
  · exact .inl rfl
theorem State.onStream_cases (s : State) (part k : Nat) (f : State → State) :
    s.onStream part k f = s ∨ ∃ t, s.focusStream part k = some t ∧ s.onStream part k f = (f t).commit := by
  unfold State.onStream
  split
  · rename_i t h; exact .inr ⟨t, h, rfl⟩
  · exact .inl rfl

/-! ## What a step can be -/

/-- The next turn changes the clock and the schedule only. -/
theorem State.nextTurn_rest (s : State) :
    s.nextTurn.2 = { s with turns := s.nextTurn.2.turns, tick := s.nextTurn.2.tick, now := s.nextTurn.2.now } := by
  unfold State.nextTurn
  split <;> rfl
/-- A core issues: it has no such group able to issue, or the group in focus issues and is committed. -/
theorem State.issueStep_cases (run : Instr → State → Out) (s : State) (die core skip : Nat) :
    s.issueStep run die core skip = .next s ∨
    ∃ g t, (s.ableGroups (die * 64 + core))[skip]? = some g ∧ s.focus g = some t ∧
      s.issueStep run die core skip = Out.commit (t.issueFocused run) := by
  unfold State.issueStep
  split
  · rename_i t h
    obtain ⟨g, hg, ht⟩ := Option.bind_eq_some_iff.1 h
    exact .inr ⟨g, t, hg, ht, rfl⟩
  · exact .inl rfl
/-- A group issues: a deferred trap is taken, the fetch traps, or the word is checked and run (R151, R364). -/
theorem State.issueFocused_cases (run : Instr → State → Out) (s : State) :
    (∃ x, s.issueFocused run = .next { s with
      cg := { s.cg with trap := some x, park := some .trap, trapAt := s.now, pend := s.cg.pend.tail, walked := [], tried := 0 } }) ∨
    (∃ t, s.cg.pend = [] ∧ s.fetch = .error t ∧ s.issueFocused run = .next t) ∨
    (∃ w t, s.cg.pend = [] ∧ s.fetch = .ok (w, t) ∧ s.issueFocused run = t.trying.issueWord run w) := by
  unfold State.issueFocused
  split
  · rename_i x rest h
    exact .inl ⟨_, by rw [h]; rfl⟩
  · rename_i h
    split
    · rename_i t e; exact .inr (.inl ⟨t, h, e, rfl⟩)
    · rename_i w t e; exact .inr (.inr ⟨w, t, h, e, rfl⟩)
/-- A word traps before it runs, with an encoding cause or for its privilege, or runs (R151). -/
theorem State.issueWord_cases (run : Instr → State → Out) (w : Nat) (s : State) :
    (∃ c, (c = 0x01 ∨ c = 0x02 ∨ c = 0x06) ∧ s.issueWord run w = .next (s.trapNow c 0)) ∨
    (∃ i, parseWord w = .ok i true ∧ s.issueWord run w = run i s) := by
  unfold State.issueWord
  split
  · exact .inl ⟨1, .inl rfl, rfl⟩
  · split
    · exact .inl ⟨6, .inr (.inr rfl), rfl⟩
    · split
      · rename_i i clean hp
        split
        · exact .inl ⟨1, .inl rfl, rfl⟩
        · by_cases hc : clean = true
          · subst hc
            exact .inr ⟨i, hp, rfl⟩
          · rw [if_pos (by simpa using hc)]
            exact .inl ⟨2, .inr (.inl rfl), rfl⟩
      · exact .inl ⟨1, .inl rfl, rfl⟩
/-- What a step can be: a stop outside the operating limits, one of the turns that no instruction stands for, a step of the
device or an input, a core's issue, or a front end's turn. -/
theorem step_cases (s : State) :
    let t := s.nextTurn.2
    (step s = .fault .outsideLimits ∧ t.broken = true) ∨
    (t.broken = false ∧ (step s = .next t ∨ (∃ ok, step s = .next { t with broken := !ok }) ∨ (∃ k n, step s = .next (t.dropTlb k n)) ∨
      (∃ pa b, step s = .next (t.failWord pa b)) ∨ (∃ i, isEvent i = true ∧ step s = exec i t) ∨
      (∃ die core skip, step s = t.issueStep exec die core skip) ∨ (∃ part k, step s = t.frontStep exec part k))) := by
  dsimp only
  unfold step State.runAct
  by_cases hb : s.nextTurn.2.broken = true
  · rw [if_pos hb]; exact .inl ⟨rfl, hb⟩
  · rw [if_neg hb]
    refine .inr ⟨by simpa using hb, ?_⟩
    cases s.nextTurn.1.act with
    | limits ok => exact .inr (.inl ⟨ok, rfl⟩)
    | dropTlb die core n => exact .inr (.inr (.inl ⟨_, n, rfl⟩))
    | ecc pa b => exact .inr (.inr (.inr (.inl ⟨pa, b, rfl⟩)))
    | dev i =>
      dsimp only
      by_cases he : isEvent i = true
      · rw [if_neg (by simp [he])]
        split
        · exact .inr (.inr (.inr (.inr (.inl ⟨i, he, rfl⟩))))
        · exact .inl rfl
      · rw [if_pos (by simp [he])]
        exact .inl rfl
    | issue die core skip =>
      dsimp only
      split
      · exact .inr (.inr (.inr (.inr (.inr (.inl ⟨die, core, skip, rfl⟩)))))
      · exact .inl rfl
    | front part k =>
      dsimp only
      split
      · exact .inr (.inr (.inr (.inr (.inr (.inr ⟨part, k, rfl⟩)))))
      · exact .inl rfl

/-! ## Traps and deferred traps -/

/-- A raised trap parks the group until its handler is free, and touches nothing else (R8, R364, R368). -/
theorem State.trapWith_spec (s : State) (cause sub addr lanes : Nat) :
    s.trapWith cause sub addr lanes = { s with cg := { s.cg with
      trap := some ⟨cause, sub, 0, addr, lanes, none, s.cg.ia.toNat, s.cg.seq⟩, park := some .trap, trapAt := s.now, walked := [],
      tried := 0 } } := rfl
theorem State.logPart_rest (s : State) (p : Nat) (e : LogEntry) :
    s.logPart p e = { s with cp := (s.logPart p e).cp, parts := (s.logPart p e).parts } := by
  unfold State.logPart State.updPart
  split <;> rfl
theorem State.logPart_updGroup_rest (s : State) (p : Nat) (e : LogEntry) (g : Nat) (f : Group → Group) :
    let t := (s.logPart p e).updGroup g f
    t = { s with cp := t.cp, parts := t.parts, cg := t.cg, groups := t.groups } := by
  dsimp only
  unfold State.logPart State.updPart State.updGroup
  by_cases h : p = s.cpId
  · rw [if_pos h]; split <;> rfl
  · rw [if_neg h]; split <;> rfl
/-- A deferred trap logs its error and adds a trap to the group's list (R237, R364). -/
theorem State.deferTrap_rest (s : State) (gid cause sub va pa pc seq : Nat) (lanes : List Nat) (kind : Nat) :
    let t := s.deferTrap gid cause sub va pa pc seq lanes kind
    t = { s with cp := t.cp, parts := t.parts, cg := t.cg, groups := t.groups } := by
  dsimp only
  unfold State.deferTrap
  split
  · rfl
  · exact State.logPart_updGroup_rest s _ _ gid _
/-- The handler's entry keeps the trapped state beneath it (R369). -/
theorem State.enterHandler_keeps (s : State) (t : Trap) (base size entry : Nat) :
    let u := s.enterHandler t base size entry
    u.cg.pcs = s.cg.pcs ∧ u.cg.s = s.cg.s ∧ u.cg.vmap = s.cg.vmap ∧ u.cg.phys = s.cg.phys ∧ u.cg.p = s.cg.p ∧ u.cg.frm = s.cg.frm ∧
    u.cg.fflags = s.cg.fflags ∧ u.cg.fmask = s.cg.fmask ∧ u.cg.aset = s.cg.aset ∧ u.cg.snaps = s.cg.snaps ∧ u.cg.inH = true ∧ u.cg.trap = none :=
  ⟨rfl, rfl, rfl, rfl, rfl, rfl, rfl, rfl, rfl, rfl, rfl, rfl⟩
/-- TRET takes the group back to the state that its handler kept (R372). -/
theorem Group.leaveHandler_enter (g : Group) (h : Handler) (hn : g.handler = none) : ({ g with handler := some h } : Group).leaveHandler = g := by
  unfold Group.leaveHandler
  rw [← hn]

end Sys2Proof.Machine
end

