-- ==== Sys2Proof/Tests/Slice0.lean ====
section
/-! SUPPORT. The model's own tests: ill-formed terms that the checks refuse, words written out from the manual's strips, and
for every statement a state and operands that meet its hypotheses. -/

namespace Sys2Proof.Tests
open Sys2Proof.Machine

-- one theorem after another: each thread of its own would reserve a stack
set_option Elab.async false
set_option linter.all false

/-! ## Well-formedness: one ill-formed term for each check (R127, R148 to R151) -/

theorem test_wf_refuses_odd_pairs :
    Instr.wf (.iadd false .i64 1 ⟨2, false⟩ (.v 4 false)) = false ∧ Instr.wf (.iadd false .i64 2 ⟨3, false⟩ (.v 4 false)) = false ∧
    Instr.wf (.iadd false .i64 2 ⟨2, false⟩ (.s 5)) = false ∧ Instr.wf (.iabs false true 3 ⟨2, false⟩) = false ∧
    Instr.wf (.shift false .sra64 2 ⟨3, false⟩ (.s 1)) = false ∧ Instr.wf (.lea false 0 1 ⟨2, false⟩ (.s 1)) = false ∧
    Instr.wf (.fadd false .f64 2 ⟨2, false⟩ (.v 5 false)) = false ∧ Instr.wf (.fdiv false .f64 3 ⟨2, false⟩ (.v 4 false)) = false ∧
    Instr.wf (.fsqrt false .f64 3 ⟨2, false⟩) = false ∧ Instr.wf (.fsetF64 false .lt 1 ⟨3, false⟩ (.v 4 false)) = false ∧
    Instr.wf (.fclass false .f64 1 ⟨3, false⟩) = false ∧ Instr.wf (.fsgn false .neg .f64 3 ⟨2, false⟩ (.v 0 false)) = false ∧
    Instr.wf (.unpk false .b8 3 ⟨2, false⟩) = false ∧ Instr.wf (.scle false .f64 3 ⟨2, false⟩ (.s 1)) = false ∧
    Instr.wf (.matchLanes false .bits32 3 ⟨2, false⟩) = false ∧ Instr.wf (.matchLanes false .f64 2 ⟨3, false⟩) = false ∧
    Instr.wf (.movu false true 2 3) = false ∧ Instr.wf (.topk false 0 3 ⟨2, false⟩) = false ∧
    Instr.wf (.uadd false .n64 1 2 4) = false ∧ Instr.wf (.ush false .shl64 2 3 1) = false ∧ Instr.wf (.ucmp false true .lt 1 3 4) = false ∧
    Instr.wf (.movsr false 3 .clock) = false ∧ Instr.wf (.ulea false 0 2 3 1) = false := by decide +kernel
theorem test_wf_refuses_formats :
    Instr.wf (.cvt false (.b8 0 false false) .f32 2 4) = false ∧ Instr.wf (.cvt false .f64 .f32 3 4) = false ∧
    Instr.wf (.cvtsat false .i64 .f64 2 5) = false ∧ Instr.wf (.cvts false .f32 2 4 6) = false ∧
    Instr.wf (.redl false .f32 .xor 2 ⟨4, false⟩) = false ∧ Instr.wf (.scanl false .i64 .add 2 ⟨5, false⟩) = false := by decide +kernel
theorem test_wf_refuses_memory_operands :
    Instr.wf (.ld false .b64 .normal 3 ⟨2, false⟩ 4) = false ∧ Instr.wf (.ld false .b32 .normal 3 ⟨2, false⟩ 5) = false ∧
    Instr.wf (.st false .b128 .normal ⟨6, false⟩ ⟨2, false⟩ 4) = false ∧ Instr.wf (.lds false .b128 6 ⟨2, false⟩ 5) = false ∧
    Instr.wf (.sts false .b64 ⟨7, false⟩ ⟨2, false⟩ 5) = false ∧ Instr.wf (.ldc false .b64 7 ⟨2, false⟩ 5) = false ∧
    Instr.wf (.stc false .b64 ⟨7, false⟩ ⟨2, false⟩ 5) = false ∧ Instr.wf (.atom false true .add .rlxPkg 3 1 4) = false ∧
    Instr.wf (.atom false false .add .rlxPkg 63 1 4) = false ∧ Instr.wf (.redAtom false true .add .rlxPkg 1 5) = false ∧
    Instr.wf (.atomf false .casB64 .rlxPkg 2 4 6) = false ∧ Instr.wf (.atomf false .addF32 .rlxPkg 63 4 6) = false ∧
    Instr.wf (.redAtomf false .addF32 .rlxPkg 5 6) = false ∧ Instr.wf (.gld false 0 false .normal 1 2 30) = false := by decide +kernel
theorem test_wf_refuses_engine_operands :
    Instr.wf (.waita false .pkg true .eq 3 4 6) = false ∧ Instr.wf (.qpush false 1 3) = false ∧ Instr.wf (.qpop false 3 1) = false ∧
    Instr.wf (.uatom false false (.f .casB32) .rlxPkg 1 2 5) = false ∧ Instr.wf (.uatom false true (.i false .add) .rlxPkg 1 2 5) = false ∧
    Instr.wf (.ldsh false false 1 3) = false ∧ Instr.wf (.copy false false false false false 1 2 4) = false ∧
    Instr.wf (.mxrun false false false 1 2 6) = false ∧ Instr.wf (.hpub false 3 1 2) = false ∧ Instr.wf (.xsend false false 4) = false ∧
    Instr.wf (.xdone false false 1 2 3) = false ∧ Instr.wf (.guess false 2 4 6) = false ∧ Instr.wf (.treg false 8 (.v 40 true)) = false ∧
    Instr.wf (.treg false 3 (.p 1 false)) = false ∧ Instr.wf (.errld false .own 4) = false ∧ Instr.wf (.ldq .b64 true 1 2 0) = false := by decide +kernel

/-! ## Words of the strips of R125, R126 and R55, and what they decode to (R147 to R149, R57) -/

/-- LR: d, a, b, La, Lb, Ub, fn. -/
def lr (op d a b la lb ub fn : Nat) : Nat :=
  op * 2 ^ 24 + d * 2 ^ 18 + a * 2 ^ 12 + b * 2 ^ 6 + la * 2 ^ 5 + lb * 2 ^ 4 + ub * 2 ^ 3 + fn
/-- LM: d, a, La, Ld, s, type, hint. -/
def lm (op d a la ld s ty hint : Nat) : Nat :=
  op * 2 ^ 24 + d * 2 ^ 18 + a * 2 ^ 12 + la * 2 ^ 11 + ld * 2 ^ 10 + s * 2 ^ 5 + ty * 2 ^ 2 + hint
/-- LA: d, a, b, aop, sem. -/
def la (op d a b aop sem : Nat) : Nat := op * 2 ^ 24 + d * 2 ^ 18 + a * 2 ^ 12 + b * 2 ^ 6 + aop * 2 ^ 3 + sem
/-- UR: d, a, b, fn. -/
def ur (op d a b fn : Nat) : Nat := 2 ^ 31 + op * 2 ^ 24 + d * 2 ^ 19 + a * 2 ^ 14 + b * 2 ^ 9 + fn * 2 ^ 4
/-- UK: d, sub, imm16. -/
def uk (op d sub imm : Nat) : Nat := 2 ^ 31 + op * 2 ^ 24 + d * 2 ^ 19 + sub * 2 ^ 16 + imm
/-- UX: x, y, z, mod. -/
def ux (op x y z mod : Nat) : Nat := 2 ^ 31 + op * 2 ^ 24 + x * 2 ^ 19 + y * 2 ^ 14 + z * 2 ^ 9 + mod
/-- The switch marker (R122). -/
def marker : Nat := 2 ^ 30
/-- An S instruction: op, qa, qb, imm16, w1, w2, w3. -/
def sw (op qa qb imm w1 w2 w3 : Nat) : Nat :=
  op * 2 ^ 24 + qa * 2 ^ 20 + qb * 2 ^ 16 + imm + w1 * 2 ^ 32 + w2 * 2 ^ 64 + w3 * 2 ^ 96

theorem test_decode_bit_by_bit :
    -- class 0, marker 1, IADD; d = 2, a = 4 with last use, b = 6; fn = n64
    decodeWord 0b0_1_000000_000010_000100_000110_1_0_0_011 = .ok (.iadd true .n64 2 ⟨4, true⟩ (.v 6 false)) ∧
    -- class 1, UADD; d = 3, a = 1, b = 2; fn = n32
    decodeWord 0b1_0_000000_00011_00001_00010_00001_0000 = .ok (.uadd false .n32 3 1 2) ∧
    -- op 0x20, qa = 5, qb = 9; scope sys in w1 and a timeout of 7 in w2
    decodeS 0x0000_0000_0000_0007_0000_0006_2059_0000 = .ok (.waits .sys 5 9 7) := ⟨rfl, rfl, rfl⟩
theorem test_decode_integer :
    decodeWord (lr 0x01 2 4 9 0 0 1 0) = .ok (.isub false .i32 2 ⟨4, false⟩ (.s 9)) ∧
    decodeWord (lr 0x02 2 4 6 0 1 0 1) = .ok (.imul false .n32 2 ⟨4, false⟩ (.v 6 true)) ∧
    decodeWord (lr 0x03 2 4 6 0 0 0 2) = .ok (.imulh false .i64 2 ⟨4, false⟩ (.v 6 false)) ∧
    decodeWord (marker + lr 0x04 2 4 6 0 0 0 3) = .ok (.imad true .n64 2 ⟨4, false⟩ (.v 6 false)) ∧
    decodeWord (lr 0x05 1 3 5 0 0 0 0) = .ok (.imin false .i32 1 ⟨3, false⟩ (.v 5 false)) ∧
    decodeWord (lr 0x06 1 3 5 0 0 0 1) = .ok (.imax false .n32 1 ⟨3, false⟩ (.v 5 false)) ∧
    decodeWord (lr 0x07 2 4 0 1 0 0 2) = .ok (.iabs false true 2 ⟨4, true⟩) ∧
    decodeWord (lr 0x08 1 2 3 0 0 0 4) = .ok (.logic false .orn 1 ⟨2, false⟩ (.v 3 false)) ∧
    decodeWord (lr 0x09 2 4 3 0 0 0 6) = .ok (.shift false .sra64 2 ⟨4, false⟩ (.v 3 false)) ∧
    decodeWord (lr 0x0A 1 2 0 0 0 0 3) = .ok (.bits false .ffs 1 ⟨2, false⟩) ∧
    decodeWord (lr 0x0B 1 2 3 0 0 0 1) = .ok (.bfx false true 1 ⟨2, false⟩ (.v 3 false)) ∧
    decodeWord (lr 0x0C 1 2 3 0 0 0 0) = .ok (.bfi false 1 ⟨2, false⟩ (.v 3 false)) ∧
    decodeWord (lr 0x0D 5 2 3 0 0 0 7) = .ok (.iset false .len 5 ⟨2, false⟩ (.v 3 false)) ∧
    decodeWord (0x0E * 2 ^ 24 + 1 * 2 ^ 18 + 2 * 2 ^ 12 + 0x7FE) = .ok (.iaddi false 1 ⟨2, false⟩ (-2)) ∧
    decodeWord (lr 0x0F 2 4 7 0 0 1 5) = .ok (.lea false 5 2 ⟨4, false⟩ (.s 7)) :=
  ⟨rfl, rfl, rfl, rfl, rfl, rfl, rfl, rfl, rfl, rfl, rfl, rfl, rfl, rfl, rfl⟩
theorem test_decode_floating :
    decodeWord (lr 0x10 1 2 3 0 0 0 0) = .ok (.fadd false .f16 1 ⟨2, false⟩ (.v 3 false)) ∧
    decodeWord (lr 0x11 1 2 3 0 0 0 1) = .ok (.fsub false .bf16 1 ⟨2, false⟩ (.v 3 false)) ∧
    decodeWord (lr 0x12 1 2 3 0 0 0 2) = .ok (.fmul false .f32 1 ⟨2, false⟩ (.v 3 false)) ∧
    decodeWord (lr 0x13 2 4 6 0 0 0 3) = .ok (.ffma false .f64 2 ⟨4, false⟩ (.v 6 false)) ∧
    decodeWord (lr 0x14 1 2 3 0 0 0 4) = .ok (.fmin false .f16x2 1 ⟨2, false⟩ (.v 3 false)) ∧
    decodeWord (lr 0x15 1 2 3 0 0 0 5) = .ok (.fmax false .bf16x2 1 ⟨2, false⟩ (.v 3 false)) ∧
    decodeWord (lr 0x16 1 2 3 0 0 0 2) = .ok (.fdiv false .f32 1 ⟨2, false⟩ (.v 3 false)) ∧
    decodeWord (lr 0x17 2 4 0 0 0 0 3) = .ok (.fsqrt false .f64 2 ⟨4, false⟩) ∧
    decodeWord (lr 0x18 3 2 5 0 0 0 6) = .ok (.fsetF32 false .unord 3 ⟨2, false⟩ (.v 5 false)) ∧
    decodeWord (lr 0x19 3 2 4 0 0 0 7) = .ok (.fsetF64 false .ord 3 ⟨2, false⟩ (.v 4 false)) ∧
    decodeWord (lr 0x1A 3 2 0 0 0 0 1) = .ok (.fclass false .bf16 3 ⟨2, false⟩) ∧
    decodeWord (lr 0x1B 2 4 6 0 0 0 0b110) = .ok (.fsgn false .copysign .f64 2 ⟨4, false⟩ (.v 6 false)) ∧
    decodeWord (lr 0x1C 1 2 0 0 0 0 2) = .ok (.rsqa false .f32 1 ⟨2, false⟩) ∧
    decodeWord (lr 0x1D 1 2 0 0 0 0 2) = .ok (.rcpa false .f32 1 ⟨2, false⟩) ∧
    decodeWord (lr 0x1E 2 4 0 0 0 0 3) = .ok (.ex2a false .f64 2 ⟨4, false⟩) ∧
    decodeWord (lr 0x1F 2 4 0 0 0 0 3) = .ok (.lg2a false .f64 2 ⟨4, false⟩) :=
  ⟨rfl, rfl, rfl, rfl, rfl, rfl, rfl, rfl, rfl, rfl, rfl, rfl, rfl, rfl, rfl, rfl⟩
theorem test_decode_conversion :
    -- LC: dst-fmt in [11:6], src-fmt in [5:0]; binary8 with K = 4, finite, is 0x2C (R35)
    decodeWord (0x20 * 2 ^ 24 + 1 * 2 ^ 18 + 2 * 2 ^ 12 + 0x2C * 2 ^ 6 + 0x0A) = .ok (.cvt false (.b8 4 false true) .f32 1 2) ∧
    decodeWord (0x21 * 2 ^ 24 + 1 * 2 ^ 18 + 2 * 2 ^ 12 + 0x00 * 2 ^ 6 + 0x0B) = .ok (.cvtsat false .i8 .f64 1 2) ∧
    decodeWord (0x22 * 2 ^ 24 + 1 * 2 ^ 18 + 2 * 2 ^ 12 + 3 * 2 ^ 6 + 0x0C) = .ok (.cvts false .e2m1 1 2 3) ∧
    decodeWord (lr 0x23 1 2 3 0 0 0 2) = .ok (.pack false .b4 1 ⟨2, false⟩ (.v 3 false)) ∧
    decodeWord (lr 0x24 2 3 0 0 0 0 1) = .ok (.unpk false .b8 2 ⟨3, false⟩) ∧
    decodeWord (lr 0x25 1 2 3 0 0 0 0) = .ok (.scle false .f16 1 ⟨2, false⟩ (.v 3 false)) ∧
    -- a reserved format (check 3)
    decodeWord (0x20 * 2 ^ 24 + 1 * 2 ^ 18 + 2 * 2 ^ 12 + 0x28 * 2 ^ 6 + 0x0A) = .error .illegal :=
  ⟨rfl, rfl, rfl, rfl, rfl, rfl, rfl⟩
theorem test_decode_cross_lane :
    decodeWord (lr 0x26 2 4 0 0 0 0 5) = .ok (.matchLanes false .bits64 2 ⟨4, false⟩) ∧
    decodeWord (lr 0x27 1 0 1 0 0 0 0) = .ok (.lsr false .lpc 1) ∧
    decodeWord (0x28 * 2 ^ 24 + 7 * 2 ^ 18 + 0x3FFFF) = .ok (.movi false 7 (-1)) ∧
    decodeWord (lr 0x29 2 0 6 0 0 1 1) = .ok (.movu false true 2 6) ∧
    decodeWord (lr 0x2A 1 2 3 0 0 0 6) = .ok (.sel false 6 1 ⟨2, false⟩ (.v 3 false)) ∧
    decodeWord (lr 0x2B 1 2 3 0 0 1 2) = .ok (.shfl false .down 1 ⟨2, false⟩ (.s 3)) ∧
    decodeWord (lr 0x2C 9 5 0 0 0 0 3) = .ok (.vote false .ballotHi 9 5) ∧
    decodeWord (lr 0x2D 1 2 2 0 0 0 2) = .ok (.redl false .f32 .max 1 ⟨2, false⟩) ∧
    decodeWord (lr 0x2E 2 4 5 0 0 0 7) = .ok (.scanl false .n64 .xor 2 ⟨4, false⟩) ∧
    decodeWord (lr 0x2F 2 5 0 1 0 0 7) = .ok (.topk false 7 2 ⟨5, true⟩) :=
  ⟨rfl, rfl, rfl, rfl, rfl, rfl, rfl, rfl, rfl, rfl⟩
theorem test_decode_memory :
    decodeWord (lm 0x30 2 4 1 0 6 5 1) = .ok (.ld false .b64 .evictFirst 2 ⟨4, true⟩ 6) ∧
    decodeWord (lm 0x31 4 1 0 1 6 6 3) = .ok (.st false .b128 .bypass ⟨4, true⟩ ⟨1, false⟩ 6) ∧
    decodeWord (lm 0x32 2 4 0 0 5 1 0) = .ok (.lds false .i8 2 ⟨4, false⟩ 5) ∧
    decodeWord (lm 0x33 2 4 0 0 5 4 0) = .ok (.sts false .b32 ⟨2, false⟩ ⟨4, false⟩ 5) ∧
    decodeWord (lm 0x34 2 4 0 0 5 2 0) = .ok (.ldc false .n16 2 ⟨4, false⟩ 5) ∧
    decodeWord (lm 0x35 2 4 0 0 5 3 0) = .ok (.stc false .i16 ⟨2, false⟩ ⟨4, false⟩ 5) ∧
    -- ATOM: bit 12 is W, and a[5:1] × 2 the address pair
    decodeWord (la 0x36 2 0b000111 4 3 5) = .ok (.atom false true .minn .arPkg 2 3 4) ∧
    decodeWord (la 0x36 63 0b000110 5 7 4) = .ok (.redAtom false false .xor .relPkg 3 5) ∧
    decodeWord (la 0x37 2 6 8 5 3) = .ok (.atomf false .casB64 .acqPkg 2 6 8) ∧
    decodeWord (la 0x37 63 6 9 6 7) = .ok (.redAtomf false .incWrap .arSys 6 9) ∧
    -- GLD: s, component, `.any` in bit 2, hint
    decodeWord (0x38 * 2 ^ 24 + 2 * 2 ^ 18 + 5 * 2 ^ 12 + 8 * 2 ^ 7 + 3 * 2 ^ 4 + 0b0110) = .ok (.gld false 3 true .keep 2 5 8) :=
  ⟨rfl, rfl, rfl, rfl, rfl, rfl, rfl, rfl, rfl, rfl, rfl⟩
theorem test_decode_uniform :
    decodeWord (ur 0x01 1 2 3 0) = .ok (.usub false .i32 1 2 3) ∧ decodeWord (ur 0x02 2 4 6 3) = .ok (.umul false .n64 2 4 6) ∧
    decodeWord (ur 0x03 1 2 3 1) = .ok (.umulh false .n32 1 2 3) ∧ decodeWord (ur 0x04 1 2 3 6) = .ok (.ulog false .nand 1 2 3) ∧
    decodeWord (ur 0x05 2 4 3 4) = .ok (.ush false .shl64 2 4 3) ∧ decodeWord (ur 0x06 1 2 3 0) = .ok (.umin false .i32 1 2 3) ∧
    decodeWord (ur 0x07 2 4 6 2) = .ok (.umax false .i64 2 4 6) ∧
    decodeWord (2 ^ 31 + 0x08 * 2 ^ 24 + 1 * 2 ^ 19 + 2 * 2 ^ 14 + 0x3FFF) = .ok (.uaddi false 1 2 (-1)) ∧
    decodeWord (uk 0x09 4 1 0x8000) = .ok (.ulil false true 4 0x8000) ∧ decodeWord (uk 0x0A 4 0 7) = .ok (.ulih false 4 7) ∧
    decodeWord (ur 0x0B 1 2 4 0b01110) = .ok (.ucmp false true .ltn 1 2 4) ∧ decodeWord (uk 0x0C 8 0 0x0D) = .ok (.movsr false 8 .clock) ∧
    decodeWord (uk 0x0C 8 1 0x11) = .ok (.movsr false 8 (.aset true)) ∧ decodeWord (uk 0x0D 5 0 0x10) = .ok (.movrs false .fmask 5) ∧
    decodeWord (2 ^ 31 + 0x0E * 2 ^ 24 + 1 * 2 ^ 19 + 2 * 2 ^ 14 + 33 * 2 ^ 8) = .ok (.vget false 1 2 33) ∧
    decodeWord (ur 0x0F 2 4 3 6) = .ok (.ulea false 6 2 4 3) :=
  ⟨rfl, rfl, rfl, rfl, rfl, rfl, rfl, rfl, rfl, rfl, rfl, rfl, rfl, rfl, rfl, rfl⟩
theorem test_decode_control :
    decodeWord (0x39 * 2 ^ 24 + 5 * 2 ^ 21 + 1 * 2 ^ 20 + 0xFFFFF) = .ok (.brc false 5 true (-1)) ∧
    decodeWord (lr 0x3A 0 7 0 1 0 0 0) = .ok (.jmpx false ⟨7, true⟩) ∧
    decodeWord (2 ^ 31 + 0x10 * 2 ^ 24 + 0xFFFFFE) = .ok (.bra false (-2)) ∧
    decodeWord (2 ^ 31 + 0x11 * 2 ^ 24 + 9 * 2 ^ 19 + 3 * 2 ^ 16 + 0x0102) = .ok (.bru false .le 9 0x0102) ∧
    decodeWord (2 ^ 31 + marker + 0x12 * 2 ^ 24 + 5) = .ok (.call true 5) ∧ decodeWord (ur 0x13 0 0 0 0) = .ok (.ret false) ∧
    decodeWord (ur 0x14 0 0 0 0) = .ok (.exit false) ∧ decodeWord (uk 0x15 0 0 0xABCD) = .ok (.trapi false 0xABCD) ∧
    decodeWord (uk 0x16 0 0 100) = .ok (.waitcy false 100) := ⟨rfl, rfl, rfl, rfl, rfl, rfl, rfl, rfl, rfl⟩
theorem test_decode_synchronisation :
    decodeWord (ux 0x18 0 0 0 0) = .ok (.bar false none) ∧ decodeWord (ux 0x18 0 0 0 0b10011) = .ok (.bar false (some 3)) ∧
    decodeWord (ux 0x19 0 0 0 0) = .ok (.cbar false) ∧ decodeWord (ux 0x1A 0 0 0 0b10101) = .ok (.fence false .e .dom) ∧
    decodeWord (ux 0x1B 2 4 6 0b100_1_101) = .ok (.waita false .pkg true .lt 2 4 6) ∧
    decodeWord (ux 0x1C 1 2 0 0b0011_0001) = .ok (.qinit false 3 1 1 2) ∧ decodeWord (ux 0x1D 1 2 0 0) = .ok (.qpush false 1 2) ∧
    decodeWord (ux 0x1E 2 1 0 0) = .ok (.qpop false 2 1) ∧
    decodeWord (ux 0x1F 2 4 6 0b0_1_0_101_001) = .ok (.uatom false false (.i true .and) .rlxDom 2 4 6) ∧
    decodeWord (ux 0x1F 0 4 6 0b1_0_1_100_011) = .ok (.uatom false true (.f .casB32) .acqPkg 0 4 6) :=
  ⟨rfl, rfl, rfl, rfl, rfl, rfl, rfl, rfl, rfl, rfl⟩
theorem test_decode_engines :
    decodeWord (ux 0x20 5 4 0 0) = .ok (.ldsh false false 5 4) ∧ decodeWord (ux 0x20 5 3 0 1) = .ok (.ldsh false true 5 3) ∧
    decodeWord (ux 0x21 5 0 0 0) = .ok (.evsh false 5) ∧ decodeWord (ux 0x22 1 2 8 0b1011) = .ok (.copy false true false true true 1 2 8) ∧
    decodeWord (ux 0x23 3 0 0 1) = .ok (.mxlw false true 3) ∧ decodeWord (ux 0x24 3 4 12 0b10) = .ok (.mxrun false true false 3 4 12) ∧
    decodeWord (ux 0x28 4 6 7 0) = .ok (.hpub false 4 6 7) ∧ decodeWord (ux 0x29 16 0 0 1) = .ok (.xsend false true 16) ∧
    decodeWord (ux 0x2A 1 2 0 1) = .ok (.xwait false true 1 2) ∧ decodeWord (ux 0x2B 1 2 3 1) = .ok (.xdone false true 1 2 3) :=
  ⟨rfl, rfl, rfl, rfl, rfl, rfl, rfl, rfl, rfl, rfl⟩
theorem test_decode_assumptions_and_handler :
    decodeWord (ux 0x2C 2 4 8 0) = .ok (.guess false 2 4 8) ∧ decodeWord (ux 0x2D 9 0 0 0) = .ok (.affirm false 9) ∧
    decodeWord (ux 0x2E 9 0 0 0) = .ok (.deny false 9) ∧ decodeWord (ux 0x2F 0 0 0 1) = .ok (.hold false true) ∧
    decodeWord 0xB000_0000 = .ok (.tret false) ∧ decodeWord 0xB100_0001 = .ok (.tend false true) ∧
    -- the manual's own example: TREG.wv v40, v2
    decodeWord 0xB212_0103 = .ok (.treg false 2 (.v 40 true)) ∧ decodeWord (ux 0x32 4 5 0 0b100) = .ok (.treg false 4 (.p 5 false)) ∧
    decodeWord (ux 0x33 24 0 0 2) = .ok (.errld false .pop 24) := ⟨rfl, rfl, rfl, rfl, rfl, rfl, rfl, rfl, rfl⟩
theorem test_decode_refuses :
    -- reserved majors, a reserved fn, Lb with Ub, an odd pair, and a must-be-zero bit
    decodeWord (0x3B * 2 ^ 24) = .error .illegal ∧ decodeWord (2 ^ 31 + 0x17 * 2 ^ 24) = .error .illegal ∧
    decodeWord (lr 0x00 1 2 3 0 0 0 5) = .error .illegal ∧ decodeWord (lr 0x00 1 2 3 0 1 1 0) = .error .reservedField ∧
    decodeWord (lr 0x00 1 2 4 0 0 0 2) = .error .illegal ∧ decodeWord (ur 0x13 1 0 0 0) = .error .reservedField ∧
    decodeWord (ux 0x1A 0 0 0 0b00_100) = .error .illegal ∧ decodeWord (ux 0x1F 1 4 6 0b1_0_0_000_000) = .error .reservedField :=
  ⟨rfl, rfl, rfl, rfl, rfl, rfl, rfl, rfl⟩
theorem test_decode_stream_buffers :
    decodeS (sw 0x00 0 0 0 5 0x240 0) = .ok (.defb 5 (.imm 0x240)) ∧ decodeS (sw 0x00 7 0 0 0x105 0 0) = .ok (.defb 5 (.reg 7)) ∧
    -- the manual's own lines: BINDB b0, q2, 576; LAUNCH q4; DETM 1
    decodeS (0x0120_0000 + 0x0000_0240 * 2 ^ 64) = .ok (.bindb 0 2 576) ∧ decodeS 0x0340_0000 = .ok (.launch 4) ∧
    decodeS 0x2500_0001 = .ok (.detm true) ∧ decodeS (sw 0x02 0 0 0 63 0 0) = .ok (.relb 63) ∧
    decodeS (sw 0x04 1 2 0 (3 + 4 * 2 ^ 8 + 2 ^ 16) 8 0) = .ok (.copyt true 3 1 4 2 8) ∧
    decodeS (sw 0x05 1 2 0 3 8 0) = .ok (.fill false 3 1 2 8) := ⟨rfl, rfl, rfl, rfl, rfl, rfl, rfl, rfl⟩
theorem test_decode_stream_control :
    decodeS (sw 0x10 0 0 0 0xFFFF_FFFF 0 0) = .ok (.jmp (.rel (-1))) ∧ decodeS (sw 0x10 3 0 0 0 1 0) = .ok (.jmp (.reg 3)) ∧
    decodeS (sw 0x11 3 0 0 0 1 0) = .ok (.streamCall (.reg 3)) ∧ decodeS (sw 0x12 0 0 0 0 0 0) = .ok .streamRet ∧
    decodeS (sw 0x13 1 0 9 4 0b1010 0) = .ok (.brq .lt 1 (.imm 9) 4) ∧ decodeS (sw 0x13 1 2 0 4 0b0111 0) = .ok (.brq .gen 1 (.reg 2) 4) ∧
    decodeS (sw 0x14 1 2 3 0b1001 16 0) = .ok (.when .ne (.mem 1 16) 2 3) ∧ decodeS (sw 0x14 1 2 3 0b0001 0 0) = .ok (.when .ne (.reg 1) 2 3) ∧
    decodeS (sw 0x15 7 0 0 4 0 0) = .ok (.loop 7 4) ∧ decodeS (sw 0x16 0 0 0 0 0 0) = .ok .ffence ∧
    decodeS (sw 0x17 1 2 0 8 0b101 0) = .ok (.ldq .b32 true 1 2 8) ∧ decodeS (sw 0x18 1 2 0 8 2 0) = .ok (.stq .b64 1 2 8) ∧
    decodeS (sw 0x19 1 2 0 (0x308) 0 0) = .ok (.aluq .sra 1 2 (.reg 3)) ∧ decodeS (sw 0x19 1 2 6 0x10 0 0) = .ok (.aluq .add 1 2 (.imm 6)) ∧
    decodeS (sw 0x1A 1 0 0 7 8 1) = .ok (.movq 1 (.imm64 0x8_0000_0007)) ∧ decodeS (sw 0x1A 1 4 0 0 0 2) = .ok (.movq 1 (.reg 4)) ∧
    decodeS (sw 0x1B 0 0 0 0 0 0) = .ok .halt :=
  ⟨rfl, rfl, rfl, rfl, rfl, rfl, rfl, rfl, rfl, rfl, rfl, rfl, rfl, rfl, rfl, rfl, rfl⟩
theorem test_decode_stream_tasks :
    decodeS (sw 0x21 1 2 0 0b10101 0 0) = .ok (.signal .dom true 1 2) ∧ decodeS (sw 0x22 4 0 0 0 0 0) = .ok (.mark 4) ∧
    decodeS (sw 0x23 0 0 0 0xFE 0 0) = .ok (.hostint 0xFE) ∧ decodeS (sw 0x24 0 0 11 0 0 0) = .ok (.prio 11) ∧
    decodeS (sw 0x30 4 0 0 0 0 0) = .ok (.gdef 4) ∧ decodeS (sw 0x31 4 5 0 0 0 0) = .ok (.gstep 4 5) ∧
    decodeS (sw 0x32 4 0 0 9 8 0) = .ok (.xdef 4 9 8) ∧ decodeS (sw 0x33 4 0 0 (9 + 3 * 2 ^ 8 + 2 * 2 ^ 18) 8 0) = .ok (.xfill 4 9 3 2 8) ∧
    decodeS (sw 0x34 0 0 0 (9 + 3 * 2 ^ 8 + 2 * 2 ^ 18 + 2 ^ 24) 0 0) = .ok (.xpin true 9 3 2) ∧
    decodeS (sw 0x35 4 0 0 (9 + 3 * 2 ^ 8) 8 0) = .ok (.xmerge 4 9 3 8) ∧
    -- a reserved op, scope 7, and X with .b64
    decodeS (sw 0x06 0 0 0 0 0 0) = .error .illegal ∧ decodeS (sw 0x20 1 2 0 7 0 0) = .error .illegal ∧
    decodeS (sw 0x17 1 2 0 8 0b110 0) = .error .reservedField := ⟨rfl, rfl, rfl, rfl, rfl, rfl, rfl, rfl, rfl, rfl, rfl, rfl, rfl⟩

/-! ## Small states -/

/-- A group of width 16 at the first word of its block; nothing else runs. -/
def base : State := State.reset.placeWord 0
def lane : State := (base.focus 2).getD State.reset
/-- The same group in its trap handler. -/
def hand : State := { lane with cg := bootGroup true }
/-- A stream that is about to pass its instruction. -/
def strm : State := ((State.reset.placeStream 0).focusStream 0 0).getD State.reset
/-- The state after an instruction, and that it answered one. -/
def run (i : Instr) (s : State) : State :=
  match exec i s with
  | .next t => t
  | _ => s
def goes (i : Instr) (s : State) : Bool :=
  match exec i s with
  | .next _ => true
  | _ => false
/-- The lane words of a list, one after another. -/
def runs (is : List Instr) (s : State) : State := is.foldl (fun s i => run i s) s
/-- v2, v4 and v6 hold 5, -7 and 3 in every lane, v3, v5 and v7 zero; s2 to s5 hold 10, 0, 4, 0. -/
def vals : State :=
  runs [.movi false 2 5, .movi false 3 0, .movi false 4 (-7), .movi false 5 0, .movi false 6 3, .movi false 7 0, .ulil false false 2 10,
    .ulil false false 4 4] lane
/-- The group whose first source v2 is unallocated in a REGTRAP kernel. -/
def trapping : State := { lane with cb := { lane.cb with hdr := { bootHdr with regtrap := true } } }
/-- A group whose %fmask enables every flag. -/
def enabled : State := { vals with cg := { vals.cg with fmask := 31 } }
/-- The lower half of the lanes stand at offset 0x40, the upper half at 0x80: the lower half executes. -/
def split : State :=
  { vals with cg := { vals.cg with pcs := List.replicate 8 (some 0x40#32) ++ List.replicate 8 (some 0x80#32) } }

/-! ## Decoding, stepping, reset (O2 to O6, O41) -/

/-- `some` of a value that satisfies a test. -/
def holds {α : Type} (o : Option α) (p : α → Bool) : Bool := (o.map p).getD false

theorem test_encode_witness :
    Instr.WF (.imad true .n64 2 ⟨4, true⟩ (.v 6 false)) ∧
    encode (.imad true .n64 2 ⟨4, true⟩ (.v 6 false)) = some (toBytes 4 0x4408_41A3) ∧
    Instr.WF (.defb 5 (.imm 0x240)) ∧ encode (.defb 5 (.imm 0x240)) = some (toBytes 16 0x240_0000_0005_0000_0000) := by decide +kernel
/-- The hypotheses of O3 for a placed IADD. -/
theorem test_issue_witness :
    let s := State.reset.placeWord 0x0008_41A3
    let t := (s.nextTurn.2.focus 2).getD State.reset
    s.nextTurn.1.act = .issue 0 0 0 ∧ s.nextTurn.2.powered = true ∧ s.nextTurn.2.broken = false ∧
    (s.nextTurn.2.ableGroups 0)[0]? = some 2 ∧ s.nextTurn.2.focus 2 = some t ∧ t.cg.pend = [] ∧ t.cg.ia = 0x40 ∧
    t.cg.ia.toNat < t.codeSize ∧ t.codeBase + t.cg.ia.toNat < 2 ^ 57 ∧ t.cp.refused (t.codeBase + t.cg.ia.toNat) 4 = false ∧
    holds (match t.leafFor (t.codeBase + t.cg.ia.toNat) with
      | .leaf l => some l
      | _ => none) (fun l =>
        let pa := l.pbase + (t.codeBase + t.cg.ia.toNat - l.vbase)
        l.r && !l.host && pa == bootPa && t.movedLoc (.dev pa) == .dev pa && t.homeUp (.dev pa) && !t.eccLost pa 4 &&
          t.codeWrites pa == [] && ofBytes (t.devBytes pa 4) == 0x0008_41A3) = true ∧
    decodeTableWord 32 0x0008_41A3 = some (.iadd false .n64 2 ⟨4, true⟩ (.v 6 false)) ∧ privileged 0x0008_41A3 = false ∧ t.cg.inH = false := by
  decide +kernel
/-- A code word that was written once since the launch. -/
theorem test_code_written_witness :
    let s : State := { lane with wrote := [(bootPa, [⟨5, .unit, 7, .plain⟩])] }
    s.codeWrites bootPa = [5] ∧ s.cb.launched = 0 := by decide +kernel
theorem test_privileged_issue_witness :
    let s := State.reset.placeWord 0xB000_0000
    privileged 0xB000_0000 = true ∧ holds (s.nextTurn.2.focus 2) (fun t => t.cg.inH) = true ∧
    decodeTableWord 32 0xB000_0000 = some (.tret false) ∧ Instr.vNames (.tret false) = [] := by decide +kernel
theorem test_front_witness :
    let s := State.reset.placeStream 0x1B00_0000
    let t := (s.nextTurn.2.focusStream 0 0).getD State.reset
    s.nextTurn.1.act = .front 0 0 ∧ s.nextTurn.2.powered = true ∧ s.nextTurn.2.broken = false ∧ s.nextTurn.2.focusStream 0 0 = some t ∧
    t.cst.state = .running ∧ t.cst.waiting = false ∧ t.cst.halt = false ∧ t.cst.stuck = false ∧
    t.cst.copyHere = some (.word 0x1B00_0000) ∧ decodeTableWord 128 0x1B00_0000 = some .halt ∧ Instr.isTask .halt = false := by decide +kernel
theorem test_front_task_witness :
    let s := State.reset.placeStream 0x2240_0000
    let t := (s.nextTurn.2.focusStream 0 0).getD State.reset
    decodeTableWord 128 0x2240_0000 = some (.mark 4) ∧ Instr.isTask (.mark 4) = true ∧ t.waiters t.cpId t.cp.turn = [] := by decide +kernel
theorem test_event_witness :
    let s : State := { State.reset with turns := [⟨5, .dev .leaseRenew⟩] }
    s.nextTurn.1.act = .dev .leaseRenew ∧ encode .leaseRenew = none ∧ s.nextTurn.2.broken = false ∧ s.nextTurn.2.powered = true ∧
    s.nextTurn.2.now = 5 := by decide +kernel
theorem test_step_faults_outside_limits :
    step { State.reset with broken := true, turns := [⟨0, .dev .leaseRenew⟩] } = .fault .outsideLimits := rfl
/-- Memory is in its canonical form and no entity is in focus. -/
def tidy (s : State) : Bool :=
  Cells.wf 0 s.mem && Cells.wf 0 s.hostMem && s.cgId == nobody && s.cbId == nobody && s.cpId == nobody && s.ccId == nobody &&
    s.cstId == nobody && s.cg == .empty && s.cb == .empty && s.cp == .empty && s.cc == .empty && s.cst == .empty
theorem tidy_sound (s : State) (h : tidy s = true) : s.Canonical ∧ s.Unfocused := by
  simp only [tidy, Bool.and_eq_true, beq_iff_eq] at h
  obtain ⟨⟨⟨⟨⟨⟨⟨⟨⟨⟨⟨a, b⟩, c⟩, d⟩, e⟩, f⟩, g⟩, i⟩, j⟩, k⟩, l⟩, m⟩ := h
  exact ⟨⟨a, b⟩, ⟨c, d, e, f, g⟩, i, j, k, l, m⟩
/-- A state that O6 and O41 speak of, and the state a step answers there. -/
theorem test_invariant_witness :
    tidy (State.reset.placeWord 0x0008_41A3) = true ∧ (match step (State.reset.placeWord 0x0008_41A3) with
      | .next t => tidy t
      | _ => false) = true := by decide +kernel

/-! ## Words that compute (O7 to O14) -/

/-- A row's operands let its word run. -/
def rowRuns (s : State) (o : Option LaneRow) : Bool := holds o fun r => s.canRun r.all

theorem test_lane_words_witness :
    rowRuns vals (vals.integerRow (.imad false .n64 2 ⟨4, true⟩ (.v 6 false))) = true ∧
    rowRuns vals (vals.bitRow (.bfi false 2 ⟨4, false⟩ (.s 4))) = true ∧
    rowRuns vals (vals.crossRow (.topk false 3 8 ⟨4, false⟩)) = true ∧ rowRuns vals (vals.crossRow (.lsr false .lpc 9)) = true ∧
    rowRuns vals (vals.signRow (.fsgn false .copysign .f64 2 ⟨4, false⟩ (.v 6 true))) = true := by decide +kernel
theorem test_integer_values :
    -- -7 + 3; 5 × -7; the high half of the unsigned 0xFFFFFFF9 × 5; 3 × 5 - 7 over v4
    (run (.iadd false .i32 8 ⟨4, false⟩ (.v 6 false)) vals).rdV 8 0 = -4 ∧
    (run (.imul false .i32 8 ⟨2, false⟩ (.v 4 false)) vals).rdV 8 15 = -35 ∧
    (run (.imulh false .n32 8 ⟨4, false⟩ (.v 2 false)) vals).rdV 8 1 = 4 ∧
    (run (.imulh false .i32 8 ⟨4, false⟩ (.v 2 false)) vals).rdV 8 1 = -1 ∧
    (run (.imad false .i32 4 ⟨6, false⟩ (.v 2 false)) vals).rdV 4 7 = 8 ∧
    (run (.imin false .n32 8 ⟨4, false⟩ (.v 2 false)) vals).rdV 8 0 = 5 ∧ (run (.imin false .i32 8 ⟨4, false⟩ (.v 2 false)) vals).rdV 8 0 = -7 ∧
    -- 64 bits: the pairs (v2, v3) = 5 and (v4, v5) = 2^32 - 7
    (run (.isub false .i64 8 ⟨2, false⟩ (.v 4 false)) vals).rdV 8 0 = 12 ∧ (run (.isub false .i64 8 ⟨2, false⟩ (.v 4 false)) vals).rdV 9 0 = -1 ∧
    (run (.iabs false false 8 ⟨4, false⟩) vals).rdV 8 0 = 7 ∧ (run (.lea false 2 8 ⟨2, false⟩ (.v 4 false)) vals).rdV 8 0 = -23 ∧
    (run (.lea false 2 8 ⟨2, false⟩ (.v 4 false)) vals).rdV 9 0 = -1 := by decide +kernel
theorem test_bit_values :
    (run (.shift false .sra 8 ⟨4, false⟩ (.s 4)) vals).rdV 8 0 = -1 ∧ (run (.shift false .rotl 8 ⟨4, false⟩ (.s 4)) vals).rdV 8 0 = 0xFFFFFF9F ∧
    (run (.bits false .clz 8 ⟨2, false⟩) vals).rdV 8 0 = 29 ∧ (run (.bits false .popc 8 ⟨4, false⟩) vals).rdV 8 0 = 30 ∧
    (run (.bits false .ffs 8 ⟨3, false⟩) vals).rdV 8 0 = 32 ∧ (run (.bits false .brev 8 ⟨2, false⟩) vals).rdV 8 0 = 0xA0000000 ∧
    (run (.logic false .andn 8 ⟨2, false⟩ (.v 6 false)) vals).rdV 8 0 = 4 ∧
    (run (.sel false 0 8 ⟨2, false⟩ (.v 6 false)) vals).rdV 8 0 = 5 ∧ (run (.sel false 1 8 ⟨2, false⟩ (.v 6 false)) vals).rdV 8 0 = 3 := by decide +kernel
theorem test_executing_lanes_only :
    let t := run (.movi false 8 9) (run (.movi false 8 1) vals)
    let u := run (.movi false 8 4) { t with cg := { t.cg with pcs := split.cg.pcs } }
    u.rdV 8 7 = 4 ∧ u.rdV 8 8 = 9 ∧ u.cg.pcs.getD 7 none = some 0x44 ∧ u.cg.pcs.getD 8 none = some 0x80 := by decide +kernel
theorem test_cross_lane_values :
    let s := run (.lsr false .lane 8) vals
    (run (.shfl false .down 9 ⟨8, false⟩ (.s 4)) s).rdV 9 3 = 7 ∧ (run (.shfl false .down 9 ⟨8, false⟩ (.s 4)) s).rdV 9 14 = 14 ∧
    (run (.shfl false .xor 9 ⟨8, false⟩ (.s 4)) s).rdV 9 3 = 7 ∧ (run (.redl false .i32 .add 9 ⟨8, false⟩) s).rdV 9 5 = 120 ∧
    (run (.scanl false .i32 .add 9 ⟨8, false⟩) s).rdV 9 5 = 15 ∧ (run (.matchLanes false .bits32 10 ⟨8, false⟩) s).rdV 10 5 = 32 := by decide +kernel
theorem test_uniform_witness :
    holds (vals.uniformRow (.umul false .n64 2 4 4)) (fun r => vals.canRun r.all) = true ∧
    holds (vals.uniformRow (.vget false 6 4 2)) (fun r => vals.canRun r.all) = true ∧
    (run (.ulih false 2 7) vals).rdS 2 = 0x7000A ∧ (run (.uaddi false 6 2 (-11)) vals).rdS 6 = -1 ∧
    (run (.vote false .ballotLo 6 0) split).rdS 6 = 255 ∧ (run (.ucmp false false .ltn 6 2 4) vals).rdS 6 = 0 := by decide +kernel
/-- FADD with no flag enabled, and 1.0 + 1.0. -/
theorem test_float_witness :
    let s := runs [.ulil false false 6 0, .ulih false 6 0x3F80, .movu false false 8 6] vals
    holds (s.floatRow (.fadd false .f32 9 ⟨8, false⟩ (.v 8 false))) (fun r => s.canRun r.all && r.raised s == 0) = true ∧
    holds (s.treeRow (.redl false .f32 .add 9 ⟨8, false⟩)) (fun r => s.canRun r.all && r.raised s == 0) = true ∧
    (run (.fadd false .f32 9 ⟨8, false⟩ (.v 8 false)) s).rdV 9 0 = 0x40000000 ∧
    (run (.redl false .f32 .add 9 ⟨8, false⟩) s).rdV 9 0 = 0x41800000 ∧
    (run (.cvt false .i32 .f32 9 8) s).rdV 9 0 = 1 ∧ (run (.fdiv false .f32 9 ⟨8, false⟩ (.v 3 false)) s).rdV 9 0 = 0x7F800000 := by decide +kernel
/-- A division of 5 by zero, read as f32, with every flag enabled: it raises DZ and traps. -/
theorem test_float_traps_witness :
    let s := runs [.ulil false false 6 0, .ulih false 6 0x3F80, .movu false false 8 6] enabled
    s.cg.inH = false ∧
    holds (s.floatRow (.fdiv false .f32 9 ⟨8, false⟩ (.v 3 false))) (fun r => s.canRun r.all && decide (r.raised s &&& s.cg.fmask.toNat ≠ 0)) = true ∧
    (run (.fdiv false .f32 9 ⟨8, false⟩ (.v 3 false)) s).cg.trap.map (fun x => (x.cause, x.lanes)) = some (0x0B, 0xFFFF) ∧
    (run (.fdiv false .f32 9 ⟨8, false⟩ (.v 3 false)) s).cg.mapOf 9 = none := by decide +kernel
/-- A signalling NaN raises IV in a reduction and in a comparison. -/
theorem test_nan_traps_witness :
    let s := runs [.ulil false false 6 1, .ulih false 6 0x7F80, .movu false false 8 6] enabled
    holds (s.treeRow (.redl false .f32 .add 9 ⟨8, false⟩)) (fun r => s.canRun r.all && decide (r.raised s &&& s.cg.fmask.toNat ≠ 0)) = true ∧
    holds (s.predRow (.fsetF32 false .lt 1 ⟨8, false⟩ (.v 2 false)))
      (fun q => s.canRun q.tc && decide (s.cg.raised q.fl &&& s.cg.fmask.toNat ≠ 0)) = true := by decide +kernel
theorem test_compare_witness :
    holds (vals.predRow (.iset false .lt 1 ⟨4, false⟩ (.v 2 false))) (fun r => vals.canRun r.tc && vals.cg.raised r.fl == 0) = true ∧
    holds (vals.predRow (.iset false .lt 0 ⟨4, false⟩ (.v 2 false))) (fun r => vals.canRun r.tc && r.p == 0) = true ∧
    (run (.iset false .lt 1 ⟨4, false⟩ (.v 2 false)) split).rdP 1 7 = true ∧ (run (.iset false .lt 1 ⟨4, false⟩ (.v 2 false)) split).rdP 1 8 = false ∧
    (run (.iset false .ltn 1 ⟨4, false⟩ (.v 2 false)) split).rdP 1 7 = false := by decide +kernel
theorem test_undefined_read_witness :
    trapping.cb.hdr.regtrap = true ∧
    holds (trapping.integerRow (.iadd false .i32 4 ⟨2, false⟩ (.s 1))) (fun r => trapping.cg.undefHit r.all) = true ∧
    holds (trapping.uniformRow (.vget false 4 2 9)) (fun r => trapping.cg.undefHit r.all) = true ∧
    holds (trapping.floatRow (.fadd false .f32 4 ⟨2, false⟩ (.s 1))) (fun r => trapping.cg.undefHit r.all) = true ∧
    holds (trapping.predRow (.iset false .eq 1 ⟨2, false⟩ (.s 1))) (fun r => trapping.cg.undefHit r.tc) = true ∧
    (run (.iadd false .i32 4 ⟨2, false⟩ (.s 1)) trapping).cg.trap.map (·.cause) = some 0x03 := by decide +kernel
theorem test_special_witness :
    vals.canRun (writeS 6 true) = true ∧ SpecReg.handlerOnly .tcause = true ∧ vals.cg.inH = false ∧ hand.cg.inH = true ∧
    hand.canRun (writeS 4 false) = true ∧ (run (.movsr false 6 .tcause) vals).cg.trap.map (·.cause) = some 0x06 ∧
    (run (.movsr false 6 .width) vals).rdS 6 = 16 ∧ vals.canRun (readS 2 false) = true ∧
    (run (.movrs false .fmask 2) vals).cg.fmask = 10 ∧ (run (.movrs false .fflags 2) { vals with cg := { vals.cg with fflags := 31 } }).cg.fflags = 21 := by
  decide +kernel
/-- A block in a grid of 3 by 2 by 2 with index 10. -/
theorem test_special_index_witness :
    let s : State := { vals with cb := { vals.cb with gdx := 3, gdy := 2, gdz := 2, index := 10 } }
    0 < s.cb.gdx ∧ 0 < s.cb.gdy ∧ s.special .bix = 1 ∧ s.special .biy = 1 ∧ s.special .biz = 1 := by decide +kernel
theorem test_branch_witness :
    vals.canRun (VSrc.touch ⟨4, true⟩ false) = true ∧ vals.canRun (readS 4 false) = true ∧ vals.canRun (writeS 30 true) = true ∧
    vals.canRun (readS 30 false) = true ∧
    (run (.bra false (-2)) split).cg.pcs.getD 7 none = some 0x38 ∧ (run (.bra false (-2)) split).cg.pcs.getD 8 none = some 0x80 ∧
    (run (.call false 4) split).cg.pcs.getD 0 none = some 0x50 ∧ (run (.call false 4) split).rdS 30 = 0x44 ∧ (run (.call false 4) split).rdS 31 = 0x40 ∧
    (run (.bru false .gt 2 8) split).cg.pcs.getD 0 none = some 0x60 ∧ (run (.bru false .lt 2 8) split).cg.pcs.getD 0 none = some 0x44 := by decide +kernel

/-! ## The end of a group, traps and the handler (O15 to O18) -/

/-- A group whose set holds an identifier. -/
def tainted : State := { vals with cg := { vals.cg with aset := [0x100] } }
/-- A group with a load whose data have not come. -/
def owing (s : State) : State :=
  { s with cg := { s.cg with out := [⟨0, 0x40, [3], .v [10] [74] .b32, .load, false, none, [], false, 0, 0⟩] } }
theorem test_exit_witness :
    split.cg.inH = false ∧ split.exitWaits = false ∧ split.cg.liveLanes.all split.cg.ex = false ∧
    (run (.exit false) split).cg.pcs.getD 7 none = none ∧ (run (.exit false) split).cg.pcs.getD 8 none = some 0x80 ∧
    lane.exitWaits = false ∧ lane.cg.liveLanes.all lane.cg.ex = true ∧ lane.exitBusy = false ∧ lane.cb.hdr.cluster = 0 ∧
    (run (.exit false) lane).cg.done = true ∧ (owing lane).exitWaits = false ∧ (owing lane).exitBusy = true ∧
    (run (.exit false) (owing lane)).cg.park = some (.exiting false) ∧
    tainted.cg.inH = false ∧ tainted.exitWaits = true ∧ (run (.exit false) tainted).cg.park = some .again ∧ hand.cg.inH = true := by decide +kernel
theorem test_trapi :
    let t := run (.trapi false 0x1234) tainted
    t.cg.pcs.getD 3 none = some (tainted.cg.ia + 4) ∧ t.cg.trap.map (fun x => (x.cause, x.sub, x.code, x.addr, x.lanes)) =
      some (0x0C, 0, 0x1234, tainted.cg.ia.toNat, 0xFFFF) := by decide +kernel
/-- TRAPI words with a nonzero d, and with a nonzero sub. -/
theorem test_trapi_fields :
    decodeWord (uk 0x15 31 0 9) = .error .reservedField ∧ decodeWord (uk 0x15 0 7 9) = .error .illegal ∧
    (match tainted.issueWord exec (uk 0x15 1 0 9), tainted.issueWord exec (uk 0x15 0 1 9) with
      | .next u, .next v => u.cg.trap.map (·.cause) == some 0x02 && v.cg.trap.map (·.cause) == some 0x01
      | _, _ => false) = true := ⟨rfl, rfl, by decide +kernel⟩
theorem test_waitcy :
    (run (.waitcy false 5) lane).cg.park = some (.waitcy (lane.now + 5)) ∧ (run (.waitcy true 0) lane).cg.park = none ∧
    (run (.waitcy true 0) lane).cg.mark = true := by decide +kernel
theorem test_handler_ends_witness :
    holds hand.cg.handler (fun _ => true) = true ∧ hand.exitWaits = false ∧ hand.exitBusy = false ∧ hand.cb.hdr.cluster = 0 ∧
    (owing hand).exitWaits = false ∧ (owing hand).exitBusy = true ∧ (run (.tend false true) (owing hand)).cg.park = some (.exiting true) ∧
    ({ hand with cg := { hand.cg with aset := [0x100] } } : State).exitWaits = true ∧ hand.cp.log.length < 256 ∧
    (run (.tret false) hand).cg.inH = false ∧ (run (.tend false true) hand).cg.failed = true ∧
    (run (.tend false true) hand).cp.log.map (·.kind) = [8] ∧ lane.cg.inH = false ∧ privileged 0xB200_0000 = true ∧
    (match parseWord 0xB200_0000 with
      | .noOp => false
      | _ => true) = true := by decide +kernel
/-- The handler of a group whose program holds 5 in v2 and 10 in s2. -/
def handVals : State := { vals with cg := { vals.cg with handler := (bootGroup true).handler, pcs := split.cg.pcs.set 15 none } }
theorem test_handler_reads_witness :
    holds handVals.cg.handler (fun h => h.v.length == 8) = true ∧ handVals.cg.out = [] ∧ handVals.cb.hdr.regtrap = false ∧
    handVals.cg.pcs.length = handVals.cg.width ∧ handVals.cg.width ≤ 64 ∧ handVals.beneath.cg.undefV 2 = false ∧
    handVals.beneath.verdict false [] [2] = .ok ∧ handVals.beneath.cg.kept 2 = false ∧ handVals.cg.aset = [] ∧
    (run (.treg false 3 (.v 2 false)) handVals).rdV 3 9 = 5 ∧ (run (.treg false 3 (.s 2 false)) handVals).rdS 3 = 10 ∧
    (run (.treg false 3 (.v 2 true)) handVals).beneath.rdV 2 15 = 5 ∧ (run (.treg false 3 (.v 2 true)) handVals).beneath.rdV 2 14 = 0 ∧
    (run (.treg false 2 (.lpc false)) handVals).rdV 2 9 = 0x80 ∧ (run (.treg false 2 (.lpc false)) handVals).rdV 2 15 = 0xFFFF_FFFF := by
  decide +kernel
theorem test_error_log_reads :
    let s : State := { hand with cp := { hand.cp with log := [⟨2, 7, 1, 3, 0x1_0000_0002, 4, 5, 6⟩] } }
    let t := run (.errld false .pop 8) s
    t.rdS 8 = 0x10702 ∧ t.rdS 10 = 2 ∧ t.rdS 11 = 1 ∧ t.rdS 15 = 6 ∧ t.cp.log = [] := by decide +kernel

/-! ## Memory words (O19 to O24) -/

/-- The page of the placed partition. -/
def leaf : Leaf := ⟨0, 0, 0x200_0000, 0x200_0000, false, true, true⟩
/-- v8 holds 4 × the lane, (s8, s9) the address 0x10000, and the core keeps the page's translation. -/
def mem : State :=
  runs [.lsr false .lane 8, .ulil false false 6 2, .shift false .shl 8 ⟨8, false⟩ (.s 6), .ulil false false 8 0, .ulih false 8 1]
    (vals.keepLeaf leaf)
theorem test_leaf : lane.walk 0 0x12345 = .leaf leaf := by decide +kernel
/-- Every lane's check answers a place. -/
def allOk (s : State) (chk : Nat → MemCheck) : Bool := s.cg.exLanes.all fun l => match chk l with
  | .ok _ => true
  | _ => false
def at_ (chk : Nat → MemCheck) (l : Nat) : Loc := match chk l with
  | .ok p => p
  | _ => .host 0 0
theorem test_load_witness :
    holds (mem.loadRow (.ld false .b32 .normal 10 ⟨8, false⟩ 8)) (fun r => mem.canRun r.tc && allOk mem r.chk && at_ r.chk 3 == .dev 0x201_000C) = true ∧
    mem.cg.acquiring = false ∧ holds (mem.loadRow (.lds false .b64 10 ⟨7, false⟩ 4)) (fun r => mem.canRun r.tc && r.chk 3 == .fail 0x04) = true ∧
    holds (mem.loadRow (.lds false .b32 10 ⟨8, false⟩ 4)) (fun r => mem.canRun r.tc && allOk mem r.chk && at_ r.chk 3 == .pad 1 16) = true ∧
    holds ((run (.ld false .b32 .normal 10 ⟨8, false⟩ 8) mem).reqs.head?) (fun q => q.2.kind == .load && q.2.n == 4) = true := by decide +kernel
/-- The page of the same addresses where its frame is on die 1. -/
def far : State := { mem with cc := { mem.cc with tlb := [{ leaf with pbase := 2 ^ 39 + 0x200_0000 }] } }
/-- The stores of a row may be sent. -/
def stores (s : State) (r : MemRow) : Bool :=
  let ls := s.cg.exLanes.map (at_ r.chk)
  s.canRun r.tc && allOk s r.chk && !s.undoFull ls && s.canTaint (s.homeSet false ls)
theorem test_store_witness :
    holds (mem.storeRow (.st false .b32 .normal ⟨2, true⟩ ⟨8, false⟩ 8)) (fun r => stores mem r && !mem.combines (at_ r.chk 3) &&
      !mem.storeHolds (mem.cg.exLanes.map (at_ r.chk))) = true ∧ mem.cg.aset = [] ∧ mem.cg.acquiring = false ∧
    holds (far.storeRow (.st false .b32 .normal ⟨2, true⟩ ⟨8, false⟩ 8)) (fun r => stores far r && far.combines (at_ r.chk 3)) = true ∧
    holds (mem.storeRow (.sts false .b32 ⟨2, false⟩ ⟨8, false⟩ 4)) (fun r => stores mem r && !mem.combines (at_ r.chk 3) &&
      mem.storeHolds (mem.cg.exLanes.map (at_ r.chk))) = true ∧
    holds ((run (.st false .b32 .normal ⟨2, true⟩ ⟨8, false⟩ 8) far).cc.wcb.head?) (fun e => e.bytes.getD 12 none == some 5) = true := by
  decide +kernel
/-- A buffer that already holds the line of the store. -/
def buffered : State := { mem with cc := { mem.cc with wcb := [⟨lineOf 0x201_0000, List.replicate 16 (some 0xAA) ++ List.replicate 112 none, 0, []⟩] } }
theorem test_combining_witness :
    (buffered.cc.wcb.map (·.line)).Nodup ∧
    holds ((buffered.combine 0x201_0004 0x10004 0 [some 1, none, some 2]).cc.wcb.head?) (fun e =>
      (e.bytes.drop 3).take 5 == [some 0xAA, some 1, some 0xAA, some 2, some 0xAA]) = true := by decide +kernel
/-- v12 and v13 hold each lane's address. -/
def atomState : State := runs [.lea false 0 12 ⟨8, false⟩ (.s 5)] (runs [.movi false 9 0x10000, .iadd false .i32 8 ⟨8, false⟩ (.v 9 false), .movi false 9 0] mem)
theorem test_atomic_witness :
    (∀ i ∈ [Instr.atom false false .add .rlxPkg 10 6 2, .redAtom false false .xor .arPkg 6 2, .atomf false .casB32 .acqPkg 10 12 2,
        .redAtomf false .incWrap .relPkg 12 2],
      holds (atomRow i) (fun r => atomState.canRun r.tc && allOk atomState (r.chk atomState) && at_ (r.chk atomState) 1 == .dev 0x201_0004 &&
        atomState.mayAtom r.op r.sem (atomState.cg.exLanes.map (at_ (r.chk atomState))) &&
        atomState.canTaint (atomState.homeSet true (atomState.cg.exLanes.map (at_ (r.chk atomState)))) && goes i atomState) = true) ∧
    atomState.cg.acquiring = false := by decide +kernel
theorem test_uatom_witness :
    let op : UOp := .f .casB32
    mem.canRun { sr := names 8 true ++ namesN 2 2, sw := names 6 op.wide } = true ∧ mem.cg.acquiring = false ∧
    mem.memCheck (uopBytes op) true true false (some op) (mem.rdS64 8) = .ok (.dev 0x201_0000) ∧
    mem.mayAtom op .acqPkg [.dev 0x201_0000] = true ∧ mem.canTaint (mem.homeSet true [.dev 0x201_0000]) = true ∧
    holds ((run (.uatom false false op .acqPkg 6 8 2) mem).reqs.head?) (fun q => q.2.kind == .atomic op 10 0) = true := by decide +kernel
/-- Two finite numbers whose sum rounds, 1 + 2^-24 with a tie; 1 - 1; 1 - 2; and a signalling NaN. -/
theorem test_atomic_sums :
    (match (Fmt.fpD .f32).decode 0x3F80_0001, (Fmt.fpD .f32).decode 0x3380_0000, (Fmt.fpD .f32).decode 0x7F80_0001 with
      | .fin false _ _, .fin false _ _, v => v.isNan
      | _, _, _ => false) = true ∧
    atomicFn (.f .addF32) 0x3F80_0000 0x3380_0000 0 = 0x3F80_0000 ∧ atomicFn (.f .addF32) 0x3F80_0001 0x3380_0000 0 = 0x3F80_0002 ∧
    atomicFn (.f .addF32) 0x3F80_0000 0xBF80_0000 0 = 0 ∧ atomicFn (.f .addF32) 0x3F80_0000 0xC000_0000 0 = 0xBF80_0000 ∧
    atomicFn (.f .addF64) 0x3FF0_0000_0000_0000 0x3FF0_0000_0000_0000 0 = 0x4000_0000_0000_0000 ∧
    vals.cg.mode = .rne := by decide +kernel
theorem test_atomic_functions :
    -- the widths' bounds, and the corners of the wrapping forms
    (5 : Nat) < 2 ^ 32 ∧ (2 ^ 63 : Nat) < 2 ^ 64 ∧ atomicFn (.i false .mini) 5 0xFFFF_FFFF 0 = 0xFFFF_FFFF ∧
    atomicFn (.i true .maxn) 5 (2 ^ 63) 0 = 2 ^ 63 ∧ atomicFn (.f .incWrap) 7 7 0 = 0 ∧ atomicFn (.f .decWrap) 0 7 0 = 7 := by decide +kernel
/-- One grid: an axis of 4 cells in one partition, one ghost cell either side, f32, at address 0x20000. -/
def desc : GridDesc :=
  { fmt := .f32, g := 1, depth := 1, ndim := 1, ncomp := 1, timeout := 7, dim := [4, 1, 1], pc := [1, 1, 1], step0 := 3,
    rule := [1, 1, 0, 0, 0, 0], fix := [0, 0, 0, 0, 0, 0], pmap := 0x30000, base := [0x20000], ldie := [0] }
def reg : MirrorReg := ⟨0, 0x31000, desc, [(0, [⟨3, []⟩])], [(0, [⟨3, []⟩]), (1, [⟨3, []⟩])], [], [], [], none, none⟩
/-- (s8, s9) hold the grid's handle, s10 the step 3, s11 the partition 0; v8 cells 0 to 3 by lane. -/
def gridded : State :=
  { runs [.lsr false .lane 8, .ulil false false 12 3, .movu false false 9 12, .logic false .and 8 ⟨8, false⟩ (.v 9 false), .ulil false false 8 0x1000,
      .ulih false 8 3, .ulil false false 10 3] (vals.keepLeaf leaf) with mirrors := [(40, reg)] }
theorem test_grid_load_witness :
    let p := (gridded.rdS 11).toNat
    let va (l : Nat) := desc.addr p 0 (gridded.rdV 8 l).toNat
    gridded.canRun { vr := [8], sr := namesN 8 4 } = true ∧ gridded.canRun { vw := memNames .b32 10, holds := true } = true ∧ gridded.cg.acquiring = false ∧
    gridded.gridOf gridded.cpId (gridded.rdS64 8) = some (40, reg) ∧ p < desc.nparts ∧ 0 < desc.ncomp ∧ desc.b ≠ 64 ∧ desc.memTy = .b32 ∧
    (gridded.cg.exLanes.all fun l => decide ((gridded.rdV 8 l).toNat < desc.cells) && gridded.memCheck 4 true false false none (va l) ==
      .ok (.dev (0x202_0000 + 4 * (l % 4))) && reg.current p (gridded.rdV 8 l).toNat (gridded.rdS 10).toNat) = true ∧
    gridded.canTaint (reg.tagSets p (gridded.cg.exLanes.map fun l => (gridded.rdV 8 l).toNat)) = true ∧
    (run (.gld false 0 false .normal 10 8 8) gridded).reqs.length = 16 := by decide +kernel
/-- One address of each outcome of the checks, where the clauses meet. -/
theorem test_memory_checks :
    let chk (n va : Nat) := mem.memCheck n true true false none va
    let window := mem.cp.scr
    chk 4 (2 ^ 57) = .fail 0x06 ∧ mem.cp.inWindow window = true ∧ chk 4 (window + 65532) = .ok (.pad 1 65532) ∧
    chk 4 (window + 65533) = .fail 0x06 ∧ chk 4 (window + 2) = .fail 0x04 ∧ mem.cp.inFrames mem.cp.frames = true ∧
    chk 4 mem.cp.frames = .fail 0x06 ∧ chk 4 0x10002 = .fail 0x04 ∧ chk 4 0x1FF_FFFC = .ok (.dev 0x3FF_FFFC) ∧ chk 4 0x200_0000 = .miss 0x200 ∧
    ({ mem with cg := { mem.cg with walked := [(0x200, .notPresent)] } } : State).memCheck 4 true false false none 0x200_0000 = .fail 0x05 ∧
    ({ mem with cg := { mem.cg with walked := [(0x200, .protection)] } } : State).memCheck 4 true false false none 0x200_0000 = .fail 0x06 ∧
    ({ mem with cg := { mem.cg with walked := [(0x200, .error 0x400_2000)] } } : State).memCheck 4 true false false none 0x200_0000 =
      .fail 0x07 := by
  decide +kernel
theorem test_memory_rights :
    let keep (l : Leaf) : State := { mem with cc := { mem.cc with tlb := [l] } }
    (keep { leaf with w := false }).memCheck 4 true true false none 0x10000 = .fail 0x06 ∧
    (keep { leaf with r := false }).memCheck 4 true false false none 0x10000 = .fail 0x06 ∧
    (keep { leaf with host := true }).memCheck 4 true false false none 0x10000 = .ok (.host 0 0x201_0000) ∧
    hostOk (.i false .add) = true ∧ hostOk (.i false .mini) = false ∧
    (keep { leaf with host := true }).memCheck 4 true true false (some (.i false .mini)) 0x10000 = .fail 0x06 ∧
    (keep { leaf with host := true }).memCheck 4 true true false (some (.i false .add)) 0x10000 = .ok (.host 0 0x201_0000) := by decide +kernel
/-- A load of which every lane misses, and one of which the odd lanes are misaligned. -/
theorem test_load_faults_witness :
    let s : State := { mem with cc := { mem.cc with tlb := [] } }
    holds (s.loadRow (.ld false .b32 .normal 10 ⟨8, false⟩ 8)) (fun r => s.canRun r.tc && r.chk 0 == .miss 1) = true ∧
    (run (.ld false .b32 .normal 10 ⟨8, false⟩ 8) s).cg.park = some (.tlb [1]) ∧
    holds (mem.loadRow (.ld false .b64 .normal 10 ⟨8, false⟩ 8)) (fun r => mem.canRun r.tc && r.chk 0 == .ok (.dev 0x201_0000) && r.chk 1 == .fail 0x04) = true ∧
    (run (.ld false .b64 .normal 10 ⟨8, false⟩ 8) mem).cg.trap.map (fun x => (x.cause, x.addr, x.lanes)) = some (0x04, 0x10004, 0xAAAA) ∧
    (let e : State := { s with cg := { s.cg with walked := [(1, .error 0x400_2000)] } }
     let t := run (.ld false .b32 .normal 10 ⟨8, false⟩ 8) e
     holds (e.loadRow (.ld false .b32 .normal 10 ⟨8, false⟩ 8)) (fun r => e.canRun r.tc && r.chk 0 == .fail 0x07) = true ∧
     t.cg.pend.map (fun x => (x.cause, x.lanes)) = [(0x07, 0xFFFF)] ∧ t.cg.park = none) := by
  decide +kernel

/-! ## Synchronisation (O25 to O27) -/

theorem test_barrier_witness :
    mem.syncReady = true ∧ mem.heldWrite = false ∧ mem.barMet mem.cb = false ∧ mem.cb.bar.arrived = [] ∧ mem.cb.hdr.groups = 1 ∧
    (run (.bar false none) mem).cb.bar.arrived = [2] ∧ (run (.bar false (some 0)) mem).cb.bar.need = 1 ∧
    (run (.bar false (some 1)) mem).cg.trap.map (fun x => (x.cause, x.sub)) = some (0x06, 0x31) ∧
    (let s : State := { mem with cb := { mem.cb with bar := ⟨2, [7], 0, [], [], zeroOrd⟩, hdr := { mem.cb.hdr with groups := 3 } } }
     s.syncReady = true ∧ s.heldWrite = false ∧ s.barMet s.cb = false ∧ s.cb.bar.need ≠ 0 ∧
     (run (.bar false none) s).cg.trap.map (fun x => (x.cause, x.sub)) = some (0x06, 0x30)) := by decide +kernel
/-- A generation that has its arrivals and is not released yet. -/
theorem test_barrier_met_witness :
    let s : State := { mem with cb := { mem.cb with bar := ⟨1, [7], 0, [], [], zeroOrd⟩ } }
    s.syncReady = true ∧ s.barMet s.cb = true ∧ (run (.bar false (some 0)) s).cg.park = some .again := by decide +kernel
/-- A request of this group, one of another that its releases come after, and one that is over. -/
theorem test_pending_witness :
    let q (g : Nat) (st : ReqStatus) : Req := { mem.newReq .load 0 0 (.dev 0) 4 with grp := g, status := st }
    let s : State := { mem with reqs := [(70, q 2 .sent), (71, q 9 .sent), (72, q 9 .sent), (73, q 2 .done)], cg := { mem.cg with behind := [72] } }
    s.pending = [70, 72] := by decide +kernel
/-- A block of a gang of one. -/
def ganged : State :=
  { mem with cb := { mem.cb with hdr := { bootHdr with cluster := 1 }, gang := 30 }, gangs := [(30, ⟨0, [1], 0, [], zeroOrd, [], []⟩)] }
theorem test_cluster_barrier_witness :
    mem.cb.hdr.cluster = 0 ∧ (run (.cbar false) mem).cg.trap.map (·.sub) = some 0x32 ∧ ganged.cb.hdr.cluster ≠ 0 ∧ ganged.syncReady = true ∧
    ganged.heldWrite = false ∧ ganged.blockDrains = false ∧ ganged.accessesOut = false ∧ ganged.behindOut = false ∧ ganged.cc.wcb = [] ∧
    ganged.gangs.find ganged.cb.gang = some ⟨0, [1], 0, [], zeroOrd, [], []⟩ ∧ (run (.cbar false) ganged).cb.cbarIn = [2] := by decide +kernel
theorem test_fence_witness :
    mem.cg.acquiring = false ∧ (∀ k ∈ [FenceKind.m, .e, .a], ∀ sc ∈ [Scope.grp, .blk, .dom, .sys],
      (buffered.drainWhere buffered.ccId (fenceDrains k sc buffered.cgId buffered.cbId)).fenceWaits k sc = false) ∧
    mem.fenceMarks .dom = 0 ∧ (run (.fence false .m .dom) buffered).cc.wcb = [] ∧
    (run (.fence false .e .dom) buffered).cc.wcb.length = 1 ∧ (run (.fence false .m .dom) buffered).reqs.length = 1 ∧
    (run (.fence false .e .blk) { mem with wclock := 9 }).cg.eord = [0, 9, 0, 0, 0, 0, 0] := by decide +kernel
/-- In a domain of two packages a fence at dom scope sends a marker down each of tiers 0 and 1, and is over once they are gathered. -/
theorem test_fence_marks_witness :
    let s : State := { mem with const := { mem.const with pkgs := [0, 5] } }
    let sent := run (.fence false .a .dom) s
    let back : State := { sent with reqs := sent.reqs.mapAll fun _ q => { q with marks := 0 }, cg := { sent.cg with park := none } }
    s.fenceMarks .dom = 2 ∧ s.fenceMarks .pkg = 0 ∧ s.fenceReq.isNone = true ∧ sent.cg.park = some .again ∧ sent.reqs.map (fun q => q.2.marks) = [2] ∧
    (let u := back.drainWhere back.ccId (fenceDrains .a .dom back.cgId back.cbId)
     u.fenceWaits .a .dom = false ∧ holds u.fenceReq (fun x => x.2.marks == 0 && decide (x.1 < back.nextId)) = true) ∧
    (run (.fence false .a .dom) back).reqs = [] ∧ (run (.fence false .a .dom) back).cg.park = none := by decide +kernel
theorem test_watch_witness :
    mem.canRun (((readS 6 false).plus (readS 8 true)).plus ((readS 4 true).plus (writeS 6 true))) = true ∧ mem.cg.acquiring = false ∧
    mem.memCheck 8 true false false none (mem.rdS64 8) = .ok (.dev 0x201_0000) ∧
    holds ((run (.waita false .pkg true .ge 6 8 4) mem).reqs.head?) (fun q => q.2.kind == .watch .ge 4) = true ∧
    (let s : State := { mem with cc := { mem.cc with tlb := [{ leaf with host := true }] } }
     s.memCheck 4 true false false none (s.rdS64 8) = .ok (.host 0 0x201_0000) ∧
     (run (.waita false .pkg false .ge 6 8 4) s).cg.trap.map (·.cause) = some 0x06) := by decide +kernel

/-- s2 holds the queue's offset 64 and s4 its capacity 1. -/
def queueing : State := runs [.ulil false false 2 64, .ulil false false 4 1] mem
def queued : State := run (.qinit false 0 0 2 4) queueing
/-- The group waits for a read. -/
def reading (s : State) : State :=
  { s with cg := { s.cg with out := [⟨0, 0x40, [3], .v [10] [74] .b32, .load, false, some (s.cg.snap []), [], false, 0, 0⟩] },
           reqs := [(90, { s.newReq .load 3 0x10000 (.dev 0x201_0000) 4 with seq := 0 })] }
theorem test_queue_made_witness :
    queueing.canRun ((readS 2 false).plus (readS 4 false)) = true ∧ queueing.cg.acquiring = false ∧ (queueing.rdS 2).toNat % 16 = 0 ∧
    (queueing.rdS 4).toNat = 1 ∧ 0 < queueing.cb.hdr.stages ∧ 64 + 16 + 8 ≤ queueing.cb.hdr.alloc ∧ queueing.cg.readsOut = [] ∧
    queueing.noUndo queueing.cbId 64 (union queueing.cg.aset (queueing.cb.tag 0)) = false ∧ queueing.canTaint (queueing.cb.tag 0) = true ∧
    (tab 16 fun i => (queued.cb.padByte (64 + i)).toNat) = [0, 0, 0, 0, 0, 0, 0, 0, 0, 0, 0, 0, 0, 0, 0, 0] ∧
    (reading queueing).cg.acquiring = false ∧ (reading queueing).cg.readsOut ≠ [] ∧
    ((run (.qinit false 0 0 2 4) (reading queueing)).cg.out.map (·.waits)) = [.load, .init 64 0] := by decide +kernel
theorem test_queue_takes_witness :
    let h := queued.qHead 64
    let full := run (.qpush false 2 4) queued
    queued.canRun ((readS 2 false).plus (readS 4 true)) = true ∧ queued.cg.acquiring = false ∧ queued.cg.park = none ∧ h.cap = 1 ∧
    64 + 16 + 8 * h.cap ≤ queued.cb.hdr.alloc ∧
    h.res = 0 ∧ h.cstage < queued.cb.hdr.stages ∧ h.pstage < queued.cb.hdr.stages ∧ stageOf queued.cb queued.cg = h.pstage ∧
    queued.cg.readsOut = [] ∧ queued.pushAhead 64 queued.cg.seq = false ∧ h.used < h.cap ∧ queued.queueTag 64 (h.entry 64 h.tail) = [] ∧ queued.canTaint [] = true ∧
    queued.noUndoFor queued.cbId [64 / 128, h.entry 64 h.tail / 128] [] = false ∧ h.entry 64 h.tail = 80 ∧
    (full.cb.padByte 80).toNat = 1 ∧ (full.qHead 64).used = 1 ∧ (full.qHead 64).cap ≤ (full.qHead 64).used ∧
    full.canRun ((readS 2 false).plus (readS 4 true)) = true ∧ full.cg.readsOut = [] ∧ (run (.qpush false 2 4) full).cg.park = some .again ∧
    (reading queued).cg.readsOut ≠ [] ∧ (run (.qpush false 2 4) (reading queued)).cb.queueAt = [(2, 64, queued.cg.seq)] := by decide +kernel
theorem test_queue_gives_witness :
    let h := queued.qHead 64
    let late : State := { queued with cb := { queued.cb with hdr := { bootHdr with groups := 2, stages := 2 } }, cg := { queued.cg with num := 1 } }
    queued.canRun ((readS 2 false).plus (writeS 6 true)) = true ∧ stageOf queued.cb queued.cg = h.cstage ∧
    (run (.qpop false 6 2) queued).cb.queueAt = [(2, 64, queued.cg.seq)] ∧ late.canRun ((readS 2 false).plus (writeS 6 true)) = true ∧ late.cg.acquiring = false ∧
    stageOf late.cb late.cg ≠ (late.qHead 64).cstage ∧ (run (.qpop false 6 2) late).cg.trap.map (fun x => (x.cause, x.sub)) = some (0x06, 0x36) := by
  decide +kernel

/-! ## Engines (O28 to O30) -/

/-- A slot image: base, format code, rank, plane, space, five sizes, four strides (R238). -/
def image (base fmt rank plane space : Nat) (dims strides : List Nat) : List Byte :=
  toBytes 8 base ++ toBytes 4 (fmt + rank * 2 ^ 8 + plane * 2 ^ 11 + space * 2 ^ 12) ++ dims.flatMap (toBytes 4) ++
    strides.flatMap (toBytes 4) ++ toBytes 16 0
def dstImg : List Byte := image 0x1000 0x0A 1 0 1 [4, 1, 1, 1, 1] [0, 0, 0, 0]
def srcImg : List Byte := image 0x10000 0x0A 1 0 0 [4, 1, 1, 1, 1] [0, 0, 0, 0]
/-- Activations of 2 rows and depth 2 in f16 planes, accumulators of 2 by 2 in f32, weights of 2 by 2 in f16. -/
def actImg : List Byte := image 0x2000 0x08 2 1 1 [2, 2, 1, 1, 1] [256, 0, 0, 0]
def accImg : List Byte := image 0x3000 0x0A 2 0 1 [2, 2, 1, 1, 1] [8, 0, 0, 0]
def wgtImg : List Byte := image 0x4000 0x08 2 0 1 [2, 2, 1, 1, 1] [4, 0, 0, 0]
/-- Five slots loaded; two COPY slots; s16 the base of a run of zeros, s20 of M, N and K = 2. -/
def engine : State :=
  let s := runs [.ulil false false 21 2, .ulil false false 22 2, .ulil false false 23 2] mem
  { s with cb := { s.cb with hdr := { bootHdr with copies := 1 },
                             shapes := [dstImg, srcImg, actImg, accImg, wgtImg].map (fun b => ⟨some b, [], false⟩) ++ List.replicate 27 ⟨none, [], false⟩ } }
theorem test_shape_load_witness :
    engine.canRun (readS 8 true) = true ∧ engine.cg.acquiring = false ∧ (6 : Nat) < engine.cb.hdr.shapes ∧
    engine.cp.inWindow (engine.rdS64 8) = false ∧ engine.memCheck 64 true false false none (engine.rdS64 8) = .ok (.dev 0x201_0000) ∧
    holds (engine.shape 6) (fun h => !h.loading) = true ∧ holds ((run (.ldsh false false 6 8) engine).shape 6) Shape.loading = true ∧
    (let t := runs [.ulil false false 8 128] engine
     t.canRun (readS 8 false) = true ∧ (t.rdS 8).toNat % 64 = 0 ∧ (t.rdS 8).toNat + 64 ≤ t.cb.hdr.alloc ∧
     holds ((run (.ldsh false true 6 8) t).reqs.head?) (fun q => q.2.loc == .pad 1 128) = true) := by decide +kernel
/-- A slot loaded under a set. -/
def shaped : State := { engine with cb := { engine.cb with shapes := engine.cb.shapes.set 0 ⟨some dstImg, [0x100], false⟩ }, aids := [] }
theorem test_shape_evict_witness :
    shaped.cg.acquiring = false ∧ shaped.cg.readsOut = [] ∧ holds (shaped.shape 0) (fun h => !h.loading) = true ∧
    shaped.canTaint (shaped.slotTags [0]) = true ∧
    engine.canTaint (engine.slotTags [0]) = true ∧ holds ((run (.evsh false 0) engine).shape 0) (fun h => h.img.isNone) = true ∧
    holds ((run (.evsh false 0) shaped).shape 0) (fun h => h.img.isNone && h.tag == [0x100]) = true ∧
    (reading engine).cg.acquiring = false ∧ (reading engine).cg.readsOut ≠ [] ∧ holds ((reading engine).shape 0) (fun h => !h.loading) = true ∧
    holds ((run (.evsh false 0) (reading engine)).shape 0) (fun h => h.img.isSome && h.loading) = true := by decide +kernel
theorem test_copy_witness :
    let D := Img.of dstImg
    let C := Img.of srcImg
    engine.canRun { sr := namesN 17 5, sw := [16] } = true ∧ engine.cg.acquiring = false ∧ 1 ≤ engine.cb.hdr.copies ∧
    engine.shape 0 = some ⟨some dstImg, [], false⟩ ∧ engine.shape 1 = some ⟨some srcImg, [], false⟩ ∧ D.bad = false ∧ C.bad = false ∧
    D.rank = C.rank ∧ D.fmt = C.fmt ∧ (D.plane = true ∨ D.fmt ≠ .e2m1 ∨ D.dim 0 % 2 = 0) ∧ D.beyond engine.cb.hdr.alloc false = false ∧
    C.beyond engine.cb.hdr.alloc false = false ∧ engine.acqReady true = true ∧ engine.canTaint (engine.slotTags [0, 1]) = true ∧
    engine.copies = [] ∧ holds ((run (.copy false false false false true 0 1 16) engine).copies.head?) (fun c => c.2.begun && c.2.left == [0]) = true := by
  decide +kernel
/-- A COPY with every modifier: `.sp24` of an unscaled source, `.mc` in a gang, `.arr` at offset 64; and a second COPY with no slot. -/
theorem test_copy_modifiers_witness :
    let s := { runs [.ulil false false 22 64, .ulil false false 23 1] engine with
      cb := { engine.cb with hdr := { bootHdr with copies := 1, cluster := 1 } } }
    s.canRun { sr := namesN 17 5 ++ [22] ++ [23], sw := [16] } = true ∧ (Img.of srcImg).scaled = false ∧ (Img.of srcImg).plane = false ∧
    (Img.of dstImg).dim 0 % 4 = 0 ∧ (s.rdS 17).toInt % 4 = 0 ∧ (Img.of dstImg).space = 1 ∧ (s.rdS 23).toNat < 2 ^ s.cb.hdr.cluster ∧
    (s.rdS 22).toNat % 16 = 0 ∧ (Img.of srcImg).beyond s.cb.hdr.alloc true = false ∧
    holds ((run (.copy false true true true false 0 1 16) s).copies.head?) (fun c => c.2.arr == some 64 && c.2.mask == some 1) = true ∧
    (run (.copy false false false false false 0 1 24) (run (.copy false false false false false 0 1 16) engine)).cg.park.isSome = true := by
  decide +kernel
/-- The page of the same addresses lies in host memory, and the group rests on an identifier. -/
def onHostPage (s : State) : State := { s with ptes := [⟨0, 0x4003000, 0x200_0067, 0, 2 ^ 25, true⟩], cg := { s.cg with aset := [0x100] } }
theorem test_copy_on_host_witness :
    let s := onHostPage engine
    s.canRun { sr := namesN 17 5, sw := [16] } = true ∧ s.cg.acquiring = false ∧ s.acqReady false = true ∧ s.canTaint (s.slotTags [0, 1]) = true ∧
    (s.tainted (s.slotTags [0, 1])).cg.aset ≠ [] ∧ s.onHost (Img.of srcImg) = true ∧ s.onHost (Img.of dstImg) = false ∧
    (run (.copy false false false false false 0 1 16) s).cg.park = some .again := by decide +kernel
/-- A full table of the cluster's engine. -/
def fullTable : State :=
  let e : MxEntry := ⟨1, 1, 9, 9, 0, 0, 0, true, actImg, accImg, false, 2, 2, 2, [], 0, 0, [], [], none, [], [], 0⟩
  { engine with clusters := [(engine.myCluster, { Cluster.empty with table := List.replicate 16 e })] }
theorem test_matrix_witness :
    let A := Img.of actImg
    let C := Img.of accImg
    let W := Img.of wgtImg
    engine.cg.acquiring = false ∧ engine.shape 4 = some ⟨some wgtImg, [], false⟩ ∧ W.bad = false ∧ W.rank = 2 ∧ W.space = 1 ∧
    weightFmt W.fmt = true ∧ W.dim 0 ≤ 128 ∧ W.dim 1 ≤ 128 ∧ W.beyond engine.cb.hdr.alloc false = false ∧ (engine.cluster engine.myCluster).table = [] ∧
    engine.acqReady true = true ∧ engine.canTaint (engine.slotTags [4]) = true ∧ 16 ≤ (fullTable.cluster fullTable.myCluster).table.length ∧
    (run (.mxlw false true 4) fullTable).cg.park = some .again ∧ engine.canRun { sr := namesN 21 3, sw := [20] } = true ∧
    engine.shape 2 = some ⟨some actImg, [], false⟩ ∧ engine.shape 3 = some ⟨some accImg, [], false⟩ ∧ A.bad = false ∧ C.bad = false ∧
    A.rank = 2 ∧ C.rank = 2 ∧ A.plane = true ∧ C.plane = false ∧ A.space = 1 ∧ C.space = 1 ∧ (Fmt.fp A.fmt).isSome = true ∧ C.fmt = .f32 ∧
    C.scaled = false ∧ 2 ≤ A.dim 1 ∧ 2 ≤ C.dim 1 ∧ 2 ≤ A.dim 0 ∧ 2 ≤ C.dim 0 ∧ A.beyond engine.cb.hdr.alloc false = false ∧
    C.beyond engine.cb.hdr.alloc false = false ∧ engine.canTaint (engine.slotTags [2, 3]) = true ∧
    ((run (.mxrun false true true 2 3 20) engine).cluster engine.myCluster).table.map (fun e => (e.run, e.zero, e.m, e.n, e.k)) =
      [(true, true, 2, 2, 2)] := by decide +kernel

/-! ## Grids and experts (O31 to O34) -/

/-- A step next to the grid's counter, and the HPUB of it. -/
def publishing : State := run (.ulil false false 10 4) gridded
theorem test_hpub_witness :
    publishing.canRun ((readS 8 true).plus ((readS 10 false).plus (readS 11 false))) = true ∧ publishing.syncReady = true ∧ publishing.heldWrite = false ∧
    publishing.gridOf publishing.cpId (publishing.rdS64 8) = some (40, reg) ∧ (publishing.rdS 11).toNat < reg.desc.nparts ∧
    newestOf reg.counter 0 = some ⟨3, []⟩ ∧ publishing.canTaint [] = true ∧ above (publishing.rdS 10).toNat 3 = true ∧
    reg.undelivered 0 = false ∧ (let u := publishing.drainWhere publishing.ccId fun _ => true
     u.accessesOut = false ∧ u.blockWritesOut = false ∧ u.behindOut = false) ∧
    (run (.hpub false 8 10 11) publishing).cg.park = some (.hpub 0x31000 0 4 false) := by decide +kernel
/-- The tables with that HPUB parked. -/
def hpubParked : State := (run (.hpub false 8 10 11) publishing).commit
theorem test_hpub_capture_witness :
    let t := (hpubParked.focus 2).getD State.reset
    hpubParked.focus 2 = some t ∧ t.cb.saved = false ∧ t.cg.park = some (.hpub 0x31000 0 4 false) ∧ t.gridOf t.cpId 0x31000 = some (40, reg) ∧
    above 4 3 = true ∧ reg.undelivered 0 = false ∧ t.cg.aset = [] ∧
    (match t.capture reg.desc t.cpId 0 with
      | (.ok (data, set), _) => data.length == 2 && set == []
      | _ => false) = true ∧ reg.desc.takers 0 = [0] ∧
    holds ((run (.hpubCapture 2) hpubParked).mirrors.find 40) (fun r => newestOf r.counter 0 == some ⟨4, []⟩ && r.captures.length == 1) = true := by
  decide +kernel

/-- One layer of one expert on die 0: four slots of 64-byte rows. -/
def expert : Expert := ⟨0, [0], [.resident], 0, List.replicate 8 0, [(0, (0, [0]))]⟩
def layer1 : Layer := ⟨0, 1, 0x40000, 4, 64, 1024, 0x50000, 0x60000, [expert], [], []⟩
/-- s17 = the key of layer 1's expert 0, (s18, s19) = 0x10000, s20 = 32 bytes, s21 = token 7. -/
def sending : State :=
  { runs [.ulil false false 17 1, .ulil false false 18 0, .ulih false 18 1, .ulil false false 20 32, .ulil false false 21 7] mem with layers := [layer1] }
theorem test_row_sent_witness :
    sending.canRun { sr := namesN 17 6, sw := [16] } = true ∧ sending.cg.acquiring = false ∧ sending.layer 0 1 = some layer1 ∧
    (match sending.expertOf sending.cpId 1 with
      | .ok (l, e) => l == layer1 && e == 0
      | _ => false) = true ∧ (sending.rdS 20).toNat = 32 ∧ (32 : Nat) ≤ layer1.rowb ∧ sending.rdS64 18 % 16 = 0 ∧
    sending.cp.inWindow (sending.rdS64 18) = false ∧ sending.cp.meetsFrames (sending.rdS64 18) 32 = false ∧ sending.sends = [] ∧ sending.cg.aset = [] ∧ sending.acqReady true = true ∧
    (run (.xsend false true 16) sending).sends.map (fun c => (c.2.target, c.2.nbytes, c.2.token)) = [(0, 32, 7)] ∧
    (let s : State := { sending with cg := { sending.cg with aset := [0x100] } }
     s.acqReady true = true ∧ s.cg.aset ≠ [] ∧ s.sendOnHost (s.rdS64 18) 32 (layer1.areaVa 0 0) (128 + layer1.slots * (layer1.rowb + 128)) = false ∧
     (run (.xsend false true 16) s).sends.length = 1) ∧
    (let s := onHostPage sending
     s.cg.aset ≠ [] ∧ s.sendOnHost (s.rdS64 18) 32 (layer1.areaVa 0 0) (128 + layer1.slots * (layer1.rowb + 128)) = true ∧
     (run (.xsend false false 16) s).cg.park = some .again) := by decide +kernel
/-- A row whose last bytes reach into the frame window, one that lies in it, and one that leaves the block's scratchpad. -/
theorem test_row_in_window_witness :
    let at_ (frames scr : Nat) : State := { sending with cp := { sending.cp with frames := frames, scr := scr } }
    let stops (s : State) : Bool := (run (.xsend false false 16) s).cg.trap.map (fun x => (x.cause, x.sub)) == some (0x06, 0)
    let a := sending.rdS64 18
    let edge := at_ (a + 16) (2 ^ 40)
    let out := at_ (2 ^ 41) (a + 32 - 2 ^ 16)
    a % 16 = 0 ∧ edge.cp.inWindow a = false ∧ (a < edge.cp.frames + 2 ^ 16 ∧ edge.cp.frames < a + 32) ∧ stops edge = true ∧
    stops (at_ (a - 2 ^ 16 + 16) (2 ^ 40)) = true ∧ (run (.xsend false false 16) (at_ (a + 32) (2 ^ 40))).sends.length = 1 ∧
    (run (.xsend false false 16) (at_ (a - 2 ^ 16) (2 ^ 40))).sends.length = 1 ∧
    out.cp.inWindow a = true ∧ out.cb.hdr.alloc < a - out.cp.scr + 48 ∧
    stops (run (.ulil false false 20 48) out) = true ∧ (run (.xsend false false 16) out).sends.length = 1 := by decide +kernel
theorem test_row_refused_witness :
    (match sending.expertOf 0 0x40000, sending.expertOf 0 2, sending.expertOf 0 0x101 with
      | .error a, .error b, .error c => a == 0x20 && b == 0x21 && c == 0x21
      | _, _, _ => false) = true ∧
    (run (.xsend false false 16) (run (.ulil false false 20 72) sending)).cg.trap.map (fun x => (x.cause, x.sub)) = some (0x0D, 0x22) ∧
    (run (.xsend false false 16) (run (.ulil false false 20 24) sending)).cg.trap.map (·.sub) = some 0x22 := by decide +kernel
/-- The same layer with a row in slot 0: not claimed; claimed by this block; claimed by another. -/
def row0 : Row := ⟨1, [], (5, 7), false, none, none⟩
def held (c : Option (Nat × ASet)) : State :=
  { sending with layers := [layer1.setArea 0 0 { Area.fresh 4 with slots := [some { row0 with claim := c }, none, none, none], last := some 0 }] }
theorem test_rows_wait_witness :
    (held none).canRun ((readS 17 false).plus (writeS 6 false)) = true ∧ (held none).cg.acquiring = false ∧
    ((layer1.setArea 0 0 (Area.fresh 4)).area 0 0).unclaimed.length = 0 ∧
    (match (held none).expertOf 0 1 with
      | .ok (l, e) => decide (((held none).activeWaiters (l.area 0 e)).length < (l.area 0 e).unclaimed.length)
      | _ => false) = true ∧
    (run (.xwait false true 6 17) sending).cg.out.map (·.waits) = [.now 0xFFFF_FFFF] ∧
    (run (.xwait false true 6 17) (held none)).cg.out.map (·.waits) = [.xwait 1 true] := by decide +kernel
theorem test_slot_released_witness :
    let s := held (some (1, []))
    s.canRun (((readS 17 false).plus (readS 5 false)).plus (readS 21 false)) = true ∧ s.syncReady = true ∧ s.heldWrite = false ∧ s.engineOut = false ∧
    s.cg.aset = [] ∧ (s.rdS 5).toNat = 0 ∧ (match s.mirrorWrite 0 (layer1.slotVa 0 0 0 + 0x14) 4 (toBytes 4 0) [] (s.unitOf 0 0) with
      | .ok _ => true
      | _ => false) = true ∧
    holds (run (.xdone false true 21 17 5) s).layers.head? (fun l => (l.area 0 0).slots == [none, none, none, none] && (l.area 0 0).wlo == 7) = true ∧
    (run (.xdone false false 0 17 4) s).cg.trap.map (·.sub) = some 0x23 ∧
    (run (.xdone false false 0 17 5) (held (some (9, [])))).cg.trap.map (·.sub) = some 0x23 := by decide +kernel
theorem test_report_witness :
    (match base.reach 0 0x10004 4 false true with
      | .ok l => l == .dev 0x201_0004
      | _ => false) = true ∧ base.homeUp (.dev 0x201_0004) = true ∧
    (base.report 0 0 0x10004 4 0x01020304).devByte 0x201_0005 = 3 ∧ (base.report 0 0 0x10004 4 0x01020304).devByte 0x201_0008 = 0 ∧
    -- over two ECC words, of which the first is lost
    (let s : State := { base with ecc := [(0x201_0000 / 32, .lasting)] }
     (s.rmwHits 0x201_001C (someBytes (toBytes 8 5))).map (·.1) = [0x201_0000 / 32] ∧
     (s.report 0 0 0x1001C 8 0x0102_0304_0506_0708).devByte 0x201_001F = 0 ∧ (s.report 0 0 0x1001C 8 0x0102_0304_0506_0708).devByte 0x201_0020 = 4) := by decide +kernel

/-! ## Assumptions (O35, O36) -/

/-- (s8, s9) name the cell at 0x10000, whose sequence is 0; (s16, s17) the prediction 9, (s18, s19) the sequence 1. -/
def guessing : State := runs [.ulil false false 16 9, .ulil false false 18 1] { mem with cp := { mem.cp with aidq := 4 } }
theorem test_guess_witness :
    guessing.canRun { sr := names 8 true ++ namesN 16 4, sw := names 6 true } = true ∧ guessing.rdS64 8 % 16 = 0 ∧
    guessing.memCheck 16 true false false none (guessing.rdS64 8) = .ok (.dev 0x201_0000) ∧ guessing.syncReady = true ∧ guessing.cg.vlOut = false ∧
    guessing.migOf (.dev 0x201_0000) = none ∧ guessing.lineBusy 0x201_0000 = false ∧ guessing.cc.wcb = [] ∧ guessing.homeUp (.dev 0x201_0000) = true ∧
    guessing.eccHits 0x201_0000 16 = [] ∧ (guessing.cellAt 0x201_0000).2 < guessing.rdS64 18 ∧ guessing.aids = [] ∧
    guessing.cg.aset.length < 4 ∧ guessing.cg.snaps.length < 2 ∧ guessing.heldSlots guessing.cpId < guessing.cp.aidq ∧ guessing.nextSlot = some 0 ∧
    guessing.aidOf 0 ∉ guessing.cg.aset ∧ guessing.unused < 4096 ∧
    (run (.guess false 6 8 16) guessing).cg.aset = [0x1000] ∧ (run (.guess false 6 8 16) guessing).cg.snaps.length = 1 ∧
    (run (.guess false 6 8 16) guessing).cg.out.map (·.waits) = [.now 9] := by decide +kernel
theorem test_guess_known_witness :
    let s := run (.ulil false false 18 0) guessing
    s.rdS64 18 ≤ (s.cellAt 0x201_0000).2 ∧ (run (.guess false 6 8 16) s).cg.out.map (·.waits) = [.now 0] ∧ (run (.guess false 6 8 16) s).cg.aset = [] := by
  decide +kernel
/-- Every slot minted once: the slot free longest is minted again. -/
theorem test_guess_reuse_witness :
    let s : State := { guessing with unused := 4096, freeSlots := [17, 3] }
    ¬ s.unused < 4096 ∧ s.nextSlot = some 17 ∧ s.aidOf 17 ∉ s.cg.aset ∧ (run (.guess false 6 8 16) s).freeSlots = [3] := by decide +kernel
/-- The group rests on the identifier it minted, and s6 names it; the one with more in its set does not. -/
def resolving : State :=
  let t := run (.guess false 6 8 16) guessing
  run (.ulil false false 7 0x1000) { t with cg := { t.cg with out := [] } }
theorem test_resolution_witness :
    resolving.canRun (readS 7 false) = true ∧ resolving.cg.acquiring = false ∧ resolving.cg.readsOut = [] ∧ (resolving.rdS 7).toNat % 2 ^ 24 = 0x1000 ∧
    holds (resolving.aids.find 0x1000) (fun a => a.part == resolving.cpId && a.refusal.isNone) = true ∧
    subset resolving.cg.aset (resolving.descend [0x1000]) = true ∧ (run (.affirm false 7) resolving).resol = [(0x1000, true)] ∧
    (run (.deny false 7) (run (.affirm false 7) resolving)).resol = [(0x1000, true)] ∧
    (let s : State := { resolving with cg := { resolving.cg with aset := [0x1000, 0x2FFF] } }
     s.cg.acquiring = false ∧ subset s.cg.aset (s.descend [0x1000]) = false ∧ (run (.deny false 7) s).cg.park = some .again) ∧
    (let s := reading resolving
     s.cg.acquiring = false ∧ s.cg.readsOut ≠ [] ∧ subset s.cg.aset (s.descend [0x1000]) = true ∧ (run (.deny false 7) s).resol = [] ∧
     (run (.deny false 7) s).cg.out.map (·.waits) = [.load, .rule 0x1000 false]) ∧
    mem.aids = [] ∧ mem.cg.aset = [] ∧ goes (.affirm false 7) mem = true := by decide +kernel
theorem test_hold_witness :
    mem.cg.aset = [] ∧ (run (.hold true true) mem).cg.park = none ∧ tainted.cg.aset ≠ [] ∧
    (run (.hold true true) tainted).cg.park = some (.holdAny [0x100]) ∧ (run (.hold true false) tainted).cg.park = some .again := by decide +kernel

/-! ## Streams (O37 to O40) -/

/-- q1 to q4 hold 0x10000, 7, 3 and 0x10040; b0 is 4096 bytes at 0x20000, b1 a buffer of class 0 at 0x30000. -/
def stream : State :=
  let c := { strm.cst.ctx with map := (strm.cst.ctx.map.set 0 (some ⟨0x20000, none, 4096⟩)).set 1 (some ⟨0x30000, some 0, 65536⟩) }
  { strm with cst := { strm.cst with ctx := ((((c.setQ 1 0x10000).setQ 2 7).setQ 3 3).setQ 4 0x10040) },
              cp := { strm.cp with free := [[0x100000], [], [], [], []] } }
/-- The same with no page mapped, so that every fetch ahead ends at once. -/
def quick : State := { stream with cp := { stream.cp with ptroot := 0 } }
theorem test_stream_control_witness :
    (∀ i ∈ [Instr.jmp (.rel 4), .jmp (.reg 1), .streamCall (.rel 2), .brq .gt 2 (.reg 3) 4, .when .lt (.reg 2) 3 2, .loop 2 (-1), .ffence,
      .aluq .sub 5 3 (.reg 2), .movq 5 (.imm (-1)), .prio 11, .detm true], (quick.ctxAfter i).isSome = true) ∧
    ((run (.streamCall (.rel 2)) quick).ctxAfter .streamRet).isSome = true ∧
    (run (.streamCall (.rel 2)) quick).cst.ctx.pc = 0x60 ∧ (run (.streamCall (.rel 2)) quick).cst.ctx.ret = [0x50] ∧
    (run (.brq .gt 2 (.reg 3) 4) quick).cst.ctx.pc = 0x80 ∧ (run (.when .lt (.reg 2) 3 2) quick).cst.ctx.pc = 0x70 ∧
    (run (.loop 2 (-1)) quick).cst.ctx.pc = 0x30 ∧ (run (.aluq .sub 5 3 (.reg 2)) quick).q 5 = 2 ^ 64 - 4 := by decide +kernel
theorem test_stream_fault_witness :
    stream.windowRoom stream.cpId stream.strm = true ∧ stream.ctlFault .streamRet = some 0x24 ∧ stream.ctlFault (.jmp (.reg 3)) = some 0x04 ∧
    stream.ctlFault (.when .eq (.reg 1) 2 16) = some 0x20 ∧ stream.ctlFault (.prio 12) = some 0x20 ∧
    (run .streamRet stream).tasks.map (fun t => (t.2.cause, t.2.opc)) = [(some 0x24, 0x12)] ∧ (run .streamRet stream).cst.stuck = true := by
  decide +kernel
/-- A task of the stream that has not retired. -/
def older : State := run (.mark 2) stream
theorem test_stream_access_witness :
    stream.inWindow stream.cpId stream.strm = 0 ∧ stream.qAddr 1 8 % 8 = 0 ∧
    (match stream.readAs stream.cpId (stream.qAddr 1 8) 8 with
      | (.ok bs, _) => bs.length == 8
      | _ => false) = true ∧
    (match stream.reach stream.cpId (stream.qAddr 1 8) 8 false true with
      | .ok l => l == .dev 0x201_0008
      | _ => false) = true ∧ stream.homeUp (.dev 0x201_0008) = true ∧
    stream.heldPage (.dev 0x201_0008) = false ∧ stream.eccLost 0x201_0008 8 = false ∧
    (let t := run (.stq .b16 2 1 8) (run (.movq 2 (.imm64 0xF_FF02)) stream)
     t.devByte 0x201_0008 = 2 ∧ t.devByte 0x201_0009 = 0xFF ∧ t.devByte 0x201_000A = 0 ∧ (run (.ldq .b16 true 5 1 8) t).q 5 = 2 ^ 64 - 254 ∧
     (run (.ldq .b16 false 5 1 8) t).q 5 = 0xFF02) ∧
    (run (.when .eq (.mem 1 8) 3 4) stream).cst.ctx.pc = 0x90 ∧ (run .halt stream).cst.state = .halted ∧
    older.inWindow older.cpId older.strm ≠ 0 ∧ (run (.ldq .b64 false 5 1 8) older).cst.waiting = true ∧ (run .halt older).cst.halt = true := by
  decide +kernel
theorem test_buffer_task_witness :
    stream.windowRoom stream.cpId stream.strm = true ∧ classOf 65536 = 0 ∧ stream.cp.free.getD (classOf 65536) [] = [0x100000] ∧
    stream.q 1 % 128 = 0 ∧ stream.cp.refused (stream.q 1) 256 = false ∧
    (run (.defb 1 (.imm 65536)) stream).bufAt 1 = some ⟨0x100000, some 0, 65536⟩ ∧
    (run (.defb 1 (.imm 65536)) stream).tasks.map (fun t => t.2.give) = [[⟨0x30000, some 0, 65536⟩]] ∧
    (run (.bindb 2 1 256) stream).bufAt 2 = some ⟨0x10000, none, 256⟩ ∧ (run (.relb 0) stream).bufAt 0 = none ∧
    (run (.relb 0) stream).tasks.map (fun t => t.2.give) = [[]] := by decide +kernel
theorem test_plain_task_witness :
    (∀ i ∈ [Instr.waits .sys 1 2 5, .signal .pkg true 1 2, .mark 2, .hostint 63, .gdef 1, .gstep 1 2, .xdef 1 4 1024, .xfill 1 4 0 0 16, .xpin false 4 0 0,
      .xmerge 1 4 0 16], (stream.plainTask i).isSome = true ∧ (run i stream).tasks.length = 1) ∧ stream.q 2 % 8 ≠ 0 ∧
    (run (.waits .sys 2 1 5) stream).tasks.map (fun t => t.2.cause) = [some 0x04] := by decide +kernel
theorem test_block_move_witness :
    let s := run (.movq 2 (.imm 0)) stream
    s.bufAt 0 = some ⟨0x20000, none, 4096⟩ ∧ s.q 2 = 0 ∧ (s.q 2 + 4096 ≤ 4096) ∧ s.bufAt 1 = some ⟨0x30000, some 0, 65536⟩ ∧
    (0x20000 + s.q 2 + 4096 ≤ 0x30000 + s.q 2) ∧ s.cp.free.getD 0 [] = [0x100000] ∧
    (∀ i ∈ [Instr.fill false 0 2 3 4096, .fill true 0 2 3 4096, .fill true 1 2 3 65536, .copyt false 0 2 1 2 4096],
      (run i s).tasks.map (fun t => t.2.cause) = [none]) ∧
    (run (.fill true 1 2 3 65536) s).bufAt 1 = some ⟨0x100000, some 0, 65536⟩ ∧
    (run (.fill true 1 2 3 65536) s).tasks.map (fun t => t.2.give) = [[⟨0x30000, some 0, 65536⟩]] := by decide +kernel
/-- A launch record at 0x10000: the code object at 0, a grid of 2 by 1 by 1, one read region of one row of 16 bytes of b0. -/
def launching : State :=
  stream.writeDev 0x201_0000 .unit (someBytes (toBytes 8 0 ++ toBytes 4 2 ++ toBytes 4 1 ++ toBytes 4 1 ++ toBytes 4 (2 ^ 8) ++ toBytes 40 0 ++
    toBytes 4 0 ++ toBytes 4 16 ++ toBytes 4 0 ++ toBytes 4 (2 ^ 16)))
theorem test_launch_witness :
    launching.windowRoom launching.cpId launching.strm = true ∧ launching.q 1 % 64 = 0 ∧
    (match launching.readSeen 0 0x10000 64 with
      | (.ok bs, u) => bits (word4 bs 0x14) 12 8 == 1 && (match u.readEnts 0 0x10040 1 with
        | (.ok es, v) => (match v.launchRecord (launching.newTask (.launch 1)) bs es with
          | .task T _ => T.gdx == 2 && T.foot.length == 1 && T.frame.head? == some 0x20000
          | _ => false)
        | _ => false)
      | _ => false) = true ∧ (run (.launch 1) launching).tasks.map (fun t => (t.2.gdx, t.2.cause)) = [(2, none)] := by decide +kernel

/-! ## Steps of the streams and the Loupe (O42 to O44) -/

/-- The tables of `stream`, and of the same with its stream in another state. -/
def tables : State := stream.commit
def inState (st : StreamState) : State :=
  { tables with streams := tables.streams.upd 0 fun x => { x with state := st }, parts := tables.parts.upd 0 fun P => { P with ptroot := 0 } }
/-- The tables with one task of stream 0. -/
def tasked (T : Task) : State := { tables with tasks := [(50, { T with part := 0, stream := 0 })], nextId := 100 }
def aTask (i : Instr) : Task := { Task.blank with instr := i, resume := { StreamCtx.empty with pc := 0x200 } }
theorem test_tables : tidy tables = true ∧ tidy base = true ∧ tables.hostReach 0 = true ∧ (0 : Nat) ≠ nobody := by decide +kernel
theorem test_stream_commands_witness :
    (inState .halted).streams.find 0 = some { (inState .halted).streams.find 0 |>.getD Stream.empty with state := .halted } ∧
    holds ((run (.scmdStart 0 0 9) (inState .halted)).streams.find 0) (fun x => x.state == .running && x.ctx.pc == 144 && x.run.head?.isSome) = true ∧
    holds ((run (.scmdResume 0 0) (inState .faulted)).streams.find 0) (fun x => x.state == .running && x.ctx.pc == 0x40) = true ∧
    holds ((run (.scmdAbort 0 0) (inState .running)).streams.find 0) (fun x => x.state == .aborting) = true ∧
    (inState .aborting).orphansOut 0 = false ∧ holds ((run (.abortComplete 0 0) (inState .aborting)).streams.find 0) (fun x => x.state == .idle) = true := by
  decide +kernel
theorem test_stream_fault_stops_witness :
    let s := tasked { aTask (.gdef 1) with state := .complete, cause := some 0x0D, addr := 0x80, opc := 0x30, daddr := 9 }
    s.streamTasks 0 0 = s.tasks ∧ (s.tasks.all fun t => !s.selfResume t.2) = true ∧
    holds ((run (.streamFault 0 0) s).streams.find 0) (fun x => x.state == .faulted && x.cause == 0x0D && x.opc == 0x30 && x.sfaddr == 0x80 &&
      x.sdaddr == 9 && x.ctx.pc == 0x200) = true ∧ (run (.streamFault 0 0) s).tasks = [] := by decide +kernel
theorem test_die_lost_resume_witness :
    let s := tasked { aTask (.launch 1) with state := .complete, cause := some 0x27 }
    (s.tasks.all fun t => s.selfResume t.2) = true ∧
    holds ((run (.dieLostResume 0 0) s).streams.find 0) (fun x => x.state == .running && x.ctx.pc == 0x200 && x.again) = true := by decide +kernel

/-- A code object at 0x10000 of one group, ENTRY 0x40, SIZE 0x80; FLOOR 32, CAP 64. -/
def header : List Byte :=
  toBytes 4 0x4B575101 ++ toBytes 4 0x80 ++ toBytes 4 0x40 ++ toBytes 4 0 ++ toBytes 4 (1 + 2 ^ 8 + 32 * 2 ^ 16 + 64 * 2 ^ 24) ++ toBytes 44 0
theorem test_header : holds (handlerHeader header) (fun _ => true) = true ∧ (Hdr.parse 0x10000 header).isSome = true := by decide +kernel
def launchTask : Task := { aTask (.launch 1) with code := 0x10000, gdx := 2, gdy := 1, gdz := 1 }
def launchable : State := { (tasked launchTask).writeDev 0x201_0000 .unit (someBytes header) with nextId := 100 }
/-- That launch issued, as a grid of two blocks. -/
def gridState : State := run (.taskIssue 0) launchable
theorem test_tasks_issue_witness :
    (match firstReady (List.filter (fun (id, t) => t.part == 0 && (tasked (aTask (.mark 1))).mayIssue id t) (tasked (aTask (.mark 1))).tasks) with
      | some (id, T) => id == 50 && T.kind == .marker
      | none => false) = true ∧
    (run (.taskIssue 0) (tasked (aTask (.mark 1)))).tasks.map (fun t => t.2.state) = [.complete] ∧
    (run (.taskIssue 0) (tasked (aTask (.fill false 0 1 2 8)))).tasks.map (fun t => t.2.state) = [.issued] ∧
    (match launchable.readSeen 0 0x10000 64 with
      | (.ok bs, u) => (match Hdr.parse 0x10000 bs, u.part 0 with
        | some h, some P => (u.launchFault { launchTask with state := .issued, part := 0 } h P).isNone
        | _, _ => false)
      | _ => false) = true ∧
    gridState.tasks.map (fun t => t.2.grid.map fun g => (g.gdx, g.hdr.entry, g.gran.map (·.left))) = [some (2, 0x40, [2])] := by decide +kernel
/-- A FILL of b0's first 24 bytes with a pattern, issued; a WAITS of 5 µs issued at 0; a grid whose blocks have retired. -/
def fillTask : Task :=
  { aTask (.fill false 0 1 2 24) with state := .issued, qb := 0x0807060504030201, foot := [⟨⟨0x20000, none, 4096⟩, 0, 24, 0, 1, 1⟩] }
theorem test_tasks_complete_witness :
    (run (.taskComplete 50) (tasked fillTask)).tasks.map (fun t => (t.2.state, t.2.cause)) = [(.complete, none)] ∧
    (run (.taskComplete 50) (tasked fillTask)).devByte 0x202_0013 = 4 ∧ (run (.taskComplete 50) (tasked fillTask)).devByte 0x202_0018 = 0 ∧
    (let w : Task := { aTask (.waits .sys 1 2 5) with state := .issued }
     w.met = false ∧ (run (.waitsTimeout 50) { tasked w with now := 5000 }).tasks.map (fun t => t.2.cause) = [some 0x0F] ∧
     (run (.waitsTimeout 50) { tasked w with now := 4999 }).tasks.map (fun t => t.2.cause) = [none] ∧
     (run (.taskComplete 50) (tasked { w with met := true })).tasks.map (fun t => t.2.state) = [.complete]) ∧
    (let s : State := { gridState with tasks := gridState.tasks.upd 50 fun T => { T with grid := T.grid.map fun g => { g with retired := 2 } } }
     (holds (s.tasks.find 50) fun T => holds T.grid fun G => s.gridQuiet 50 G) = true ∧ s.tasks.map (fun t => t.2.grid.map fun g => (g.lost, g.retired == g.blocks)) = [some (false, true)] ∧
     (run (.gridComplete 50) s).tasks.map (fun t => (t.2.state, t.2.cause)) = [(.complete, none)]) := by decide +kernel
/-- The page of the tables' partition, and the conditions of the block moves on it. -/
def moves (s : State) (va pa n : Nat) : Bool :=
  s.walk 0 va == .leaf leaf && leaf.pbase + (va - leaf.vbase) == pa && decide (va + n ≤ leaf.vbase + leaf.size) && !s.eccLost pa n &&
    ((List.range n).all fun i => s.homeUp (.dev (pa + i))) && holds (s.part 0) (fun P => !P.refused va n)
/-- A COPYT of 8 bytes of b1 at 0x30000 over b0. -/
def copyTask : Task :=
  { aTask (.copyt false 0 1 1 2 8) with state := .issued, foot := [⟨⟨0x30000, some 0, 65536⟩, 0, 8, 0, 1, 0⟩, ⟨⟨0x20000, none, 4096⟩, 0, 8, 0, 1, 1⟩] }
theorem test_block_moves_witness :
    (tasked fillTask).migs = [] ∧ fillTask.dstAt = 0x20000 ∧ moves (tasked fillTask) 0x20000 0x202_0000 24 = true ∧ fillTask.met = false ∧
    (let s := (tasked copyTask).writeDev 0x203_0000 .unit (someBytes (toBytes 8 0x0102030405060708))
     copyTask.srcAt = 0x30000 ∧ copyTask.dstAt = 0x20000 ∧ moves s 0x30000 0x203_0000 8 = true ∧ moves s 0x20000 0x202_0000 8 = true ∧
     ofBytes ((run (.taskComplete 50) s).devBytes 0x202_0000 8) = 0x0102030405060708) ∧
    -- the second of its words is lost
    (let f : Task := { fillTask with instr := .fill false 0 1 2 40, foot := [⟨⟨0x20000, none, 4096⟩, 16, 40, 0, 1, 1⟩] }
     let s : State := { tasked f with ecc := [(0x202_0020 / 32, .lasting)] }
     (run (.taskComplete 50) s).tasks.map (fun t => (t.2.state, t.2.cause, t.2.daddr)) = [(.complete, some 0x0D, 0x20020)]) := by decide +kernel
/-- A grid of which a block runs, and which has lost a die: the block is ended first. -/
theorem test_lost_grid_witness :
    let s := run (.blockPlace 0 0) gridState
    let l : State := { s with tasks := s.tasks.upd 50 fun T => { T with grid := T.grid.map fun g => { g with lost := true } } }
    let t := run (.gridComplete 50) l
    (l.taskBlocks 50).length = 1 ∧ t.taskBlocks 50 = [] ∧ t.tasks.map (fun x => x.2.grid.map (·.killed)) = [some [101]] ∧
    (holds (t.tasks.find 50) fun T => holds T.grid fun G => t.gridQuiet 50 G) = true ∧
    (run (.gridComplete 50) t).tasks.map (fun x => (x.2.state, x.2.cause)) = [(.complete, some 0x27)] := by decide +kernel
/-- The causes of a grid that failed, and of one of whose stores one failed too. -/
theorem test_failed_grid_witness :
    let ends (e : Option Nat) (T : Task) : Task := { T with grid := T.grid.map fun g => { g with retired := 2, failed := true, storeErr := e } }
    let s (e : Option Nat) : State := { gridState with tasks := gridState.tasks.upd 50 (ends e) }
    (run (.gridComplete 50) (s none)).tasks.map (fun t => (t.2.cause, t.2.daddr)) = [(some 0x26, 0)] ∧
    (run (.gridComplete 50) (s (some 0x1230))).tasks.map (fun t => (t.2.cause, t.2.daddr)) = [(some 0x07, 0x1230)] := by decide +kernel
theorem test_tasks_retire_witness :
    let m := tasked { aTask (.mark 1) with state := .complete, qa := 77 }
    let h (e : MsixEntry) : State :=
      let s := tasked { aTask (.hostint 3) with state := .complete }
      { s with parts := s.parts.upd 0 fun P => { P with msix := [(3, e)] } }
    m.streamTasks 0 0 = m.tasks ∧ holds ((run (.taskRetire 0 0) m).streams.find 0) (fun x => x.mark == 77) = true ∧
    (run (.taskRetire 0 0) m).tasks = [] ∧ (m.links[0]?).getD false = true ∧
    (run (.taskRetire 0 0) (h ⟨0x1000, 5, false, false⟩)).sent = [(0, 0, 0x1000, 5)] ∧ (run (.taskRetire 0 0) (h ⟨0x1000, 5, true, false⟩)).sent = [] ∧
    holds ((run (.taskRetire 0 0) (h ⟨0x1000, 5, true, false⟩)).parts.find 0) (fun P => P.msix == [(3, ⟨0x1000, 5, true, true⟩)]) = true := by
  decide +kernel
/-- A task that gives a buffer back, and a SIGNAL that adds 5 to the counter at 0x10000. -/
theorem test_gives_and_signals_witness :
    (let s := tasked { aTask (.relb 1) with state := .complete, give := [⟨0x30000, some 0, 65536⟩, ⟨0x10000, none, 256⟩] }
     holds ((run (.taskRetire 0 0) s).parts.find 0) (fun P => P.free.getD 0 [] == [0x100000, 0x30000] && P.free.getD 1 [] == []) = true) ∧
    (let s := (tasked { aTask (.signal .sys true 1 2) with state := .complete, qa := 0x10000, qb := 5 }).writeDev 0x201_0000 .unit (someBytes (toBytes 8 250))
     s.orphansOut 0 = false ∧ (match s.reach 0 0x10000 8 true true with
       | .ok l => l == .dev 0x201_0000
       | _ => false) = true ∧ s.migs = [] ∧ s.homeUp (.dev 0x201_0000) = true ∧ s.eccLost 0x201_0000 8 = false ∧
     ofBytes ((run (.taskRetire 0 0) s).devBytes 0x201_0000 8) = 255) := by decide +kernel
/-- A HOSTINT while a store that an ended group had sent is on its way. -/
theorem test_retirement_waits_witness :
    let s : State := { tasked { aTask (.hostint 3) with state := .complete } with reqs := [(60, { base.newReq (.store []) 0 0x10000 (.dev 0x201_0000) 4 with grp := 9, part := 0 })] }
    (aTask (.hostint 3)).comesAfter = true ∧ (aTask (.signal .sys true 1 2)).comesAfter = true ∧ (aTask (.mark 1)).comesAfter = false ∧
    s.orphansOut 0 = true ∧ (run (.taskRetire 0 0) s).tasks.length = 1 := by decide +kernel
/-- A stream that waits at an LDQ, and one that waits at a MARK for its turn. -/
def waitingAt (n : Nat) : State :=
  let s := (State.reset.placeStream n).commit
  { s with streams := s.streams.upd 0 fun x => { x with waiting := true } }
theorem test_front_waits_witness :
    let s := waitingAt (sw 0x17 5 1 0 8 2 0)
    let t := (s.focusStream 0 0).getD State.reset
    s.focusStream 0 0 = some t ∧ t.cst.accessWaits = true ∧ t.inWindow 0 0 = 0 ∧ t.cst.copyHere = some (.word (sw 0x17 5 1 0 8 2 0)) ∧
    decodeTableWord 128 (sw 0x17 5 1 0 8 2 0) = some (.ldq .b64 false 5 1 8) ∧
    holds ((run (.frontEndAccess 0 0) s).streams.find 0) (fun x => !x.waiting && x.ctx.pc == 0x50) = true ∧
    (let w := waitingAt (sw 0x22 4 0 0 0 0 0)
     let n := sw 0x02 0 0 0 4 0 0
     let v := (waitingAt n).focusStream 0 0 |>.getD State.reset
     w.waiters 0 15 = [0] ∧ ((w.part 0).map Part.turn).getD 15 = 0 ∧ w.waiters 0 0 = [0] ∧ (run (.decodeAfterWait 0) w).tasks.length = 1 ∧
     decodeTableWord 128 (sw 0x22 4 0 0 0 0 0) = some (.mark 4) ∧ ((w.focusStream 0 0).getD w |>.plainTask (.mark 4)).isSome = true ∧
     (waitingAt n).focusStream 0 0 = some v ∧ v.cst.copyHere = some (.word n) ∧ decodeTableWord 128 n = some (.relb 4) ∧ goes (.relb 4) v = true ∧ (run (.relb 4) v).cst.waiting = false) := by
  decide +kernel

/-! ## Steps of the distributors and cores (O45) -/

theorem test_place_witness :
    tidy gridState = true ∧ gridState.candidates 0 0 ≠ [] ∧
    (match gridState.dispatch (gridState.physOf 0 0) 0 [] (gridState.candidates 0 0) with
      | some (c, _) => c.unit == 0 && c.cores == [0] && !gridState.gangAhead 0 [0] c.t.prio c.grid.order && c.grid.hdr.cluster == 0
      | none => false) = true ∧
    holds ((run (.blockPlace 0 0) gridState).blocks.find gridState.nextId) (fun b => b.index == 0 && b.core == 0 && b.groups == [gridState.nextId + 1]) = true ∧
    holds ((run (.blockPlace 0 0) gridState).groups.find (gridState.nextId + 1)) (fun g => g.pcs == List.replicate 16 (some 0x40)) = true ∧
    (let s : State := { gridState with cores := gridState.cores.upd 0 fun c => { c with left := [7, 8] } }
     holds ((run (.blockPlace 0 0) s).blocks.find s.nextId) (fun b => b.old == [7, 8] && b.pad == []) = true) := by decide +kernel
/-- A grid of gangs of two blocks, on a cluster of which the partition holds two cores. -/
def clustered : State :=
  let h := toBytes 4 0x4B575101 ++ toBytes 4 0x80 ++ toBytes 4 0x40 ++ toBytes 4 8 ++ toBytes 4 (1 + 2 ^ 8 + 32 * 2 ^ 16 + 64 * 2 ^ 24) ++ toBytes 44 0
  let s := (tasked launchTask).writeDev 0x201_0000 .unit (someBytes h)
  run (.taskIssue 0) { s with nextId := 100, cores := s.cores.ins 1 { Core.empty with part := some 0 } }
theorem test_place_gang_witness :
    (match clustered.dispatch (clustered.physOf 0 0) 0 [] (clustered.candidates 0 0) with
      | some (c, _) => c.unit == 0 && c.cores == [0, 1] && !clustered.gangAhead 0 [0] c.t.prio c.grid.order && c.grid.hdr.cluster == 2
      | none => false) = true ∧
    (let v := run (.blockPlace 0 0) clustered
     let n := clustered.nextId
     holds (v.gangs.find n) (fun k => k.members == [n + 1, n + 3] && k.gen == 0) = true ∧
     holds (v.blocks.find (n + 1)) (fun b => b.member == 0 && b.core == 0 && b.index == 0 && b.gang == n) = true ∧
     holds (v.blocks.find (n + 3)) (fun b => b.member == 1 && b.core == 1 && b.index == 1 && b.gang == n) = true) := by decide +kernel
/-- Core 0 stands in the LAUNCH.GANG reserve. -/
def gangState : State :=
  run (.taskIssue 0) { launchable with tasks := launchable.tasks.upd 50 fun T => { T with gang := true },
                                       cores := launchable.cores.upd 0 fun c => { c with reserved := true } }
theorem test_gang_witness :
    (match gangState.tasks.find 50 with
      | some T => (match gangState.gangPlan T with
          | some (G, plan) => !gangState.gangAhead 0 (plan.map fun x => x.2.1) T.prio G.order && (plan.all fun x => !gangState.blockAhead 0 x.2.1 T.prio G.order) &&
              G.hdr.cluster == 0 && plan.map (·.1) == [0, 1]
          | none => false)
      | none => false) = true ∧
    (run (.gangLaunchAdmit 50) gangState).tasks.map (fun t => t.2.grid.map (·.admitted)) = [some true] ∧
    (run (.gangLaunchAdmit 50) gangState).blocks.length = 2 := by decide +kernel
/-- A second logical die, dry, beside one that holds two granules that have not begun. -/
def thieving : State :=
  { gridState with
    parts := gridState.parts.upd 0 fun P => { P with dies := [0, 1] }, cores := gridState.cores.ins 64 { Core.empty with part := some 0 },
    tasks := gridState.tasks.upd 50 fun T => { T with grid := T.grid.map fun g => { g with gran := [⟨0, 1, 0, false, false⟩, ⟨1, 1, 0, false, false⟩] } } }
theorem test_steal_witness :
    (match thieving.tasks.find 50, thieving.part 0 with
      | some T, some P => holds T.grid fun G =>
          T.state == .issued && !G.det && !G.gangL && !G.lost && G.hdr.cluster == 0 && G.steals == [] && (G.gran.all fun x => x.die != 1) &&
          (thieving.chooseCores thieving.room 0 (P.physDie 1) T.prio false G.hdr).isSome &&
          G.richest ((List.range P.dies.length).filter fun e => e != 1 && !(thieving.die (P.physDie e)).leaving) == some 0 && !thieving.dieSilent 0 0 && G.unstarted 0 != []
      | _, _ => false) = true := by decide +kernel
def stolen : State := run (.stealRequest 50 1) thieving
theorem test_steal_answer_witness :
    stolen.tasks.map (fun x => x.2.grid.map fun g => g.steals) = [some [(1, some 0, [])]] ∧
    stolen.tasks.map (fun x => x.2.grid.map fun g => g.gran.map fun y => (y.die, y.away)) = [some [(0, false), (1, true)]] := by decide +kernel
theorem test_steal_answer_moves :
    (run (.stealAnswer 50 1) stolen).tasks.map (fun x => x.2.grid.map fun g => g.steals) = [some []] ∧
    (run (.stealAnswer 50 1) stolen).tasks.map (fun x => x.2.grid.map fun g => g.gran.map fun y => (y.die, y.away)) =
      [some [(0, false), (1, false)]] := by decide +kernel
theorem test_steal_nothing_witness :
    let s : State := { thieving with tasks := thieving.tasks.upd 50 fun T => { T with grid := T.grid.map fun g =>
      { g with gran := [⟨1, 1, 0, true, false⟩], steals := [(1, some 0, [])] } } }
    (run (.stealAnswer 50 1) s).tasks.map (fun x => x.2.grid.map (·.steals)) = [some [(1, none, [0])]] := by decide +kernel
theorem test_rescue_witness :
    let s : State := { base with groups := base.groups.upd 2 fun g => { g with park := some .pool } }
    s.groups.length = 1 ∧ holds (s.groups.find 2) (fun g => g.park == some .pool && !g.done && !g.rescued) = true ∧
    holds (s.blocks.find 1) (fun b => b.core == 0 && !b.saved && !b.retired) = true ∧
    holds ((run (.coreRescue 0 0) s).groups.find 2) (fun g => g.rescued && g.park.isNone) = true := by decide +kernel
/-- The first block of the grid, its group done. -/
def exited : State :=
  let s := run (.blockPlace 0 0) gridState
  { s with groups := s.groups.mapAll fun _ g => { g with done := true } }
theorem test_block_retires_witness :
    holds (exited.blocks.find gridState.nextId) (fun b => !b.retired && !b.saved && b.hdr.cluster == 0 && b.claims == [] &&
      (exited.gangs.find b.gang).isNone && b.task == 50) = true ∧
    holds ((run (.blockRetire gridState.nextId) exited).blocks.find gridState.nextId) (fun b => b.retired) = true ∧
    (run (.blockRetire gridState.nextId) exited).tasks.map (fun t => t.2.grid.map (·.retired)) = [some 1] := by decide +kernel

/-! ## Steps of homes and the fabric (O46, O47) -/

/-- A request of group 2 for four bytes at 0x10010, sent, and the tables with it; memory holds 1, 2, 3, 4 there. -/
def aReq (k : ReqKind) (set : ASet) : Req :=
  ⟨k, 0, 2, 1, 0, 0, 0x40, 3, 0x10010, .dev 0x201_0010, 4, set, [], [], .sent, [], [], 0, false, false, .dom, 0, []⟩
def asking (q : Req) : State := { base.writeDev 0x201_0010 .unit (someBytes [1, 2, 3, 4]) with reqs := [(60, q)], nextId := 100 }
def ready (q : Req) : Bool :=
  (asking q).mayServe 60 q && ((asking q).migOf q.loc).isNone && (asking q).homeUp q.loc && (asking q).eccHits 0x201_0010 q.n == [] &&
    !(asking q).entersBuffer 60 q && ((asking q).overBound q).isNone
def someWord : List (Option Byte) := [some 9, none, some 8, none]
theorem test_home_witness :
    ready (aReq .load []) = true ∧ ready (aReq (.store someWord) []) = true ∧ ready (aReq (.store someWord) [0x100]) = true ∧
    ready (aReq (.atomic (.i false .add) 0xFF 0) []) = true ∧ 0x201_0010 % 128 + 4 ≤ 128 ∧ (asking (aReq .load [])).versions (lineOf 0x201_0010) = [] ∧
    holds ((run (.homeLoad 60) (asking (aReq .load []))).reqs.find 60) (fun q => q.status == .done && q.res == [1, 2, 3, 4] && q.rset == []) = true ∧
    (run (.homeWrite 60) (asking (aReq (.store someWord) []))).devBytes 0x201_0010 4 = [9, 2, 8, 4] := by decide +kernel
theorem test_home_versions :
    let v := run (.homeWrite 60) (asking (aReq (.store someWord) [0x100]))
    v.readNewest 0x201_0010 4 = ([9, 2, 8, 4], [0x100]) ∧ v.devBytes 0x201_0010 4 = [1, 2, 3, 4] ∧
    (let t := run (.homeAtomic 60) (asking (aReq (.atomic (.i false .add) 0xFF 0) []))
     t.devBytes 0x201_0010 4 = [0, 3, 3, 4] ∧ holds (t.reqs.find 60) (fun q => q.res == [1, 2, 3, 4]) = true) := by decide +kernel
/-- A store to a page of die 1 that had to wait in its core. -/
theorem test_home_buffers_witness :
    let q := { aReq (.store someWord) [] with loc := .dev (2 ^ 39 + 0x201_0010) }
    let v := run (.homeWrite 60) (asking q)
    (asking q).mayServe 60 q = true ∧ (asking q).migOf q.loc = none ∧ (asking q).homeUp q.loc = true ∧ (asking q).entersBuffer 60 q = true ∧
    (60 : Nat) < (asking q).nextId ∧ (v.core 0).wcb.map (fun e => e.owners.map fun o => (o.grp, o.seq, o.lanes)) = [[(2, 0, [3])]] := by decide +kernel
/-- Two versions stand on the line: a store of a third set waits, and one that takes its writer past its bound waits or fails. -/
theorem test_home_waits_witness :
    let old (set : ASet) : Version := ⟨set, List.replicate 128 9, List.replicate 128 []⟩
    let q := aReq (.store someWord) [0x300]
    let s : State := { asking q with vers := [(lineOf 0x201_0010, [old [0x100], old [0x200]])] }
    let full (strict : Bool) : State := { s with
      groups := s.groups.upd 2 fun g => { g with aset := [0x11, 0x12, 0x13, 0x14] },
      blocks := s.blocks.upd 1 fun b => { b with hdr := { b.hdr with astrict := strict } } }
    s.mayServe 60 q = true ∧ (s.versions (lineOf 0x201_0010)).length = 2 ∧ s.overBound q = none ∧
    (union q.set (s.readNewest 0x201_0010 4).2).length ≤ 4 ∧
    ((s.newest (lineOf 0x201_0010)).map fun x => sameSet x.set (union q.set (s.readNewest 0x201_0010 4).2)) = some false ∧
    (run (.homeWrite 60) s).reqs.map (fun x => x.2.status) = [.held] ∧ (full false).overBound q = some 0x010E ∧
    (run (.homeWrite 60) (full false)).reqs.map (fun x => x.2.status) = [.held] ∧
    (run (.homeWrite 60) (full true)).reqs.map (fun x => x.2.status) = [.failed 0x010E] := by decide +kernel
/-- The ECC word of the address has failed for good. -/
theorem test_home_lost_witness :
    let bad (q : Req) : State := { asking q with ecc := [(0x201_0010 / 32, .lasting)] }
    let w := aReq (.store someWord) []
    (bad (aReq .load [])).eccLost 0x201_0010 4 = true ∧ (run (.homeLoad 60) (bad (aReq .load []))).reqs.map (fun x => x.2.status) = [.failed 0x07] ∧
    (bad w).rmwHits 0x201_0010 someWord = [(0x201_0010 / 32, .lasting)] ∧ (run (.homeWrite 60) (bad w)).reqs.map (fun x => x.2.status) = [.failed 0x07] ∧
    (run (.homeWrite 60) (bad w)).devBytes 0x201_0010 4 = [1, 2, 3, 4] := by decide +kernel
theorem test_home_host_witness :
    let on (k : ReqKind) : Req := { aReq k [] with loc := .host 0 0x1000 }
    let s (q : Req) : State := { asking q with hostMem := [(0x1001, 6)] }
    (s (on .load)).mayServe 60 (on .load) = true ∧ (s (on .load)).homeUp (.host 0 0x1000) = true ∧ (s (on .load)).migOf (.host 0 0x1000) = none ∧
    (run (.homeLoad 60) (s (on .load))).reqs.map (fun x => (x.2.status, x.2.res)) = [(.done, [0, 6, 0, 0])] ∧
    (run (.homeWrite 60) (s (on (.store someWord)))).hostBytes 0 0x1000 4 = [9, 6, 8, 0] := by decide +kernel
/-- A flight of group 2's word 0, and the tables in which it is out with a request. -/
def aFlight (d : Dest) (w : Waits) : Flight := ⟨0, 0x40, [3], d, w, false, none, [], false, 0, 0⟩
def flying (f : Flight) (q : Req) : State :=
  let s := asking q
  { s with groups := s.groups.upd 2 fun g => { g with seq := 1, out := [f] } }
theorem test_responses_witness :
    let q := { aReq (.store someWord) [] with status := .done, grp := 7 }
    tidy (asking q) = true ∧ q.kind.isShape = false ∧ (asking q).groups.find 7 = none ∧ (run (.storeAck 60) (asking q)).reqs = [] ∧
    (let m := { aReq .load [] with marks := 2 }
     0 < m.marks ∧ holds ((run (.flushMarker 60) (asking m)).reqs.find 60) (fun q => q.marks == 1) = true) ∧
    (let m := { aReq .load [] with status := .moved }
     let s : State := { asking m with migs := [⟨0, 0x10000, 65536, 0x201_0000, 0x300_0000, true, true⟩],
                                      cores := [(0, { Core.empty with part := some 0, tlb := [leaf] })] }
     holds ((run (.movedResponse 60) s).reqs.find 60) (fun q => q.status == .sent && q.loc == .dev 0x300_0010) = true ∧
     holds ((run (.movedResponse 60) s).cores.find 0) (fun c => c.tlb == []) = true) ∧
    (let e : WcbEntry := ⟨0x4_0200, someWord ++ List.replicate 124 none, 5, [⟨2, 1, 0, 0x40, 0x10000, [0]⟩]⟩
     let s : State := { base with now := 2005, cores := [(0, { Core.empty with part := some 0, wcb := [e] })] }
     e.opened + 2 * usec ≤ s.now ∧ (run (.wcbDrainTimeout 0 0 0x4_0200) { s with now := 2004 }).reqs.length = 0 ∧
     (run (.wcbDrainTimeout 0 0 0x4_0200) s).reqs.map (fun q => q.2.loc) = [.dev 0x201_0000]) := by decide +kernel
theorem test_error_response_witness :
    let q := { aReq .load [] with status := .failed 0x07 }
    let s := flying (aFlight (.v [10] [10] .b32) .load) q
    let u := flying (aFlight (.s [6]) .load) q
    tidy s = true ∧ holds ((run (.errorResponse 60) s).groups.find 2) (fun g => g.pend.map (fun x => (x.cause, x.addr, x.lanes)) == [(0x07, 0x10010, 8)] &&
      g.out == []) = true ∧
    holds ((run (.errorResponse 60) u).groups.find 2) (fun g => g.pend.map (fun x => (x.cause, x.lanes)) == [(0x07, 0)] && g.out == []) = true ∧
    (let w := asking { aReq (.store someWord) [] with status := .failed 0x07 }
     let x : State := { w with groups := w.groups.upd 2 fun g => { g with mark := true } }
     holds ((run (.errorResponse 60) x).groups.find 2) (fun g => g.pend.map (fun x => (x.cause, x.addr, x.lanes)) == [(0x07, 0x10010, 8)] &&
       !g.mark) = true ∧ (run (.errorResponse 60) x).reqs = []) := by
  decide +kernel
/-- The acknowledgement of a word whose flight carries no value. -/
theorem test_hold_ends_witness :
    let s := flying (aFlight .none .load) { aReq (.store someWord) [] with status := .done }
    let t := (s.focus 2).getD State.reset
    s.focus 2 = some t ∧ t.cb.saved = false ∧ t.cg.out = [aFlight .none .load] ∧
    ((t.wordReqs 2 0).all fun x => x.2.status == .done && x.2.rset == []) = true ∧
    holds ((run (.storeAck 60) s).groups.find 2) (fun g => g.out == []) = true ∧ (run (.storeAck 60) s).reqs = [] := by decide +kernel
theorem test_arrivals_witness :
    let w : State := { base with groups := base.groups.upd 2 fun g => { g with park := some (.tlb [1]) } }
    let p := { aReq .load [] with status := .done, res := [1, 2, 3, 4] }
    let s := flying (aFlight (.v [10] [74] .b32) .load) p
    let s : State := { s with groups := s.groups.upd 2 fun g => { g with vmap := g.vmap.set 10 (some 1), phys := [(74, List.replicate 16 7)] } }
    let t := (s.focus 2).getD State.reset
    (match w.walk 0 0x10000 with
      | .leaf l => l == leaf
      | _ => false) = true ∧ w.focus 2 ≠ none ∧
    holds ((run (.tlbWalkComplete 2) w).groups.find 2) (fun g => g.walked == [(1, .leaf leaf)] && g.park.isNone) = true ∧
    holds ((run (.tlbWalkComplete 2) w).cores.find 0) (fun c => c.tlb == [leaf]) = true ∧
    s.focus 2 = some t ∧ t.cb.saved = false ∧ (t.shapeReq 2 0).isNone = true ∧ t.cg.mapOf 10 = some 74 ∧ t.cg.phys.find 74 = some (List.replicate 16 7) ∧
    (t.wordReqs 2 0).all (fun x => x.2.status == .done && x.2.rset == []) = true ∧
    holds ((run (.loadReturn 2 0) s).groups.find 2) (fun g => g.out == [] && holds (g.phys.find 74) fun x =>
      x.getD 3 0 == 0x04030201 && x.getD 4 0 == 7) = true := by decide +kernel

/-! ## Migration and invalidation (O48) -/

theorem test_tlbinv_witness :
    let p (s : State) : Part := (s.parts.find 0).getD Part.empty
    let asked := run (.tlbinvPage 0 0x1_2345) base
    tidy base = true ∧ base.hostReach 0 = true ∧ (p base).tlbinv.getLsbD 0 = false ∧ (0 : Nat) ≠ nobody ∧ (p asked).tlbinv = 0x10001 ∧
    (p (run (.tlbinvRegion 0 0x1_2345) base)).tlbinv = 0x10005 ∧ (p (run (.tlbinvPartition 0) base)).tlbinv = 9 ∧ tidy asked = true ∧
    (p asked).tlbinv.getLsbD 0 = true ∧ asked.olderOut 0 (p asked).invAt (invRange (p asked).tlbinv.toNat) = false ∧
    (p (run (.tlbinvComplete 0) asked)).tlbinv = 0x10000 ∧
    (let kept (va : Nat) (leaf : Bool) : Pte := ⟨0, 0x4006000, 1, va, 65536, leaf⟩
     let s : State := { asked with ptes := [kept 0x10000 true, kept 0x20000 true, kept 0x20000 false], cores := asked.cores.upd 0 fun c => { c with tlb := [leaf] } }
     (run (.tlbinvComplete 0) s).ptes = [kept 0x20000 true] ∧ holds ((run (.tlbinvComplete 0) s).cores.find 0) (fun c => c.tlb == []) = true) := by
  decide +kernel
theorem test_migcmd_witness :
    let p (s : State) : Part := (s.parts.find 0).getD Part.empty
    let asks (v : BitVec 64) : Option Leaf := base.migLeaf 0 { p base with migcmd := v }
    let two : State := { base with parts := base.parts.upd 0 fun P => { P with dies := [0, 1] } }
    (p base).migcmd.getLsbD 0 = false ∧ (run (.migcmdGo 0 0x1_0000) { base with parts := base.parts.upd 0 fun P => { P with migcmd := 1 } }).fw.held = [] ∧
    (p (run (.migcmdGo 0 0x1_0002) base)).migcmd = 0x10002 ∧
    -- an address that has no leaf; the die where the page stands; another die
    (asks 0x200_0001).isNone = true ∧ (p (run (.migcmdGo 0 0x200_0001) base)).migcmd = 0x200_8000 ∧ asks 0x1_0001 = some leaf ∧
    (p base).migHome leaf 0 = true ∧ (p (run (.migcmdGo 0 0x1_0001) base)).migcmd = 0x1_0000 ∧
    ({ p two with migcmd := 0x1_0003 } : Part).migHome leaf 0 = false ∧ two.migLeaf 0 { p two with migcmd := 0x1_0003 } = some leaf ∧
    (run (.migcmdGo 0 0x1_0003) two).fw.held = [.migrate 0] := by decide +kernel
/-- A page of 64 KiB on its way from 0x201_0000 to 0x300_0000. -/
def moving (final switched : Bool) : State := { asking (aReq .load []) with migs := [⟨0, 0x10000, 65536, 0x201_0000, 0x300_0000, final, switched⟩] }
theorem test_migration_witness :
    (run (.migrationFinal 0) (moving false false)).migs = (moving true false).migs ∧ (moving true false).migs.map (·.switched) = [false] ∧
    (let s : State := { moving true true with reqs := [] }
     s.migs.length = 1 ∧ (run (.migrationDone 0) s).migs = [] ∧ (run (.migrationDone 0) (moving true true)).migs.length = 1) ∧
    (run (.homeLoad 60) (moving true false)).reqs.map (fun x => x.2.status) = [.sent] ∧
    (let v := base.move (.page 0x4003000 0x4005000 4096) false
     tidy base = true ∧ v.devBytes 0x4005000 8 = toBytes 8 0x2000027 ∧ v.devByte 0x4003000 = 0x27 ∧ v.devByte 0x4002001 = base.devByte 0x4002001) := by
  decide +kernel
/-- The first bytes of the partition's page switch to another home, which its entry then names. -/
theorem test_switch_witness :
    let s : State := { base with migs := [⟨0, 0, 128, 0x200_0000, 0x600_0000, true, false⟩], mem := base.mem.ins 0x200_0005 9 }
    let v := run (.migrationSwitch 0) s
    s.cpId ≠ 0 ∧ v.migs.map (·.switched) = [true] ∧ v.devByte 0x600_0005 = 9 ∧
    (match s.entryOf 0 0 with
      | some e => ofBytes (s.devBytes e 8) == 0x200_0027 && ofBytes (v.devBytes e 8) == 0x600_0027
      | none => false) = true := by decide +kernel
/-- A line of the page that a core still combines leaves for its old home first. -/
theorem test_done_drains_witness :
    let e : WcbEntry := ⟨0x201_0000 / 128, someWord ++ List.replicate 124 none, 5, [⟨2, 1, 0, 0x40, 0x10000, [0]⟩]⟩
    let s : State := { moving true true with reqs := [], cores := [(0, { Core.empty with part := some 0, wcb := [e] })] }
    s.ccId ≠ 0 ∧ (⟨0, 0x10000, 65536, 0x201_0000, 0x300_0000, true, true⟩ : Migration).oldHas (.dev (e.line * 128)) = true ∧
    (run (.migrationDone 0) s).migs.length = 1 ∧ (run (.migrationDone 0) s).reqs.map (fun x => x.2.loc) = [.dev 0x201_0000] := by decide +kernel

/-! ## Engines (O49) -/

/-- The tables of `engine`, with the scratchpad bytes of a pass: x(0, 0) = x(1, 0) = 1.0 as planes of f16, weights (0, 0) = 2.0,
(1, 0) = 2.0, (0, 1) = 0 and (1, 1) = 3.0. -/
def padBytes : List (Nat × Byte) :=
  (tab 16 fun j => (0x2000 + 16 * j, if 10 ≤ j && j ≤ 13 then 3 else 0)) ++
    ((toBytes 8 0x4200_0000_4000_4000).zipIdx.map fun x => (0x4000 + x.2, x.1))
def engines : State :=
  let s := (engine.writeDev 0x201_0000 .unit (someBytes (toBytes 16 0x4_0000_0003_0000_0002_0000_0001))).commit
  { s with blocks := s.blocks.upd 1 fun b => { b with pad := padBytes, padAt := padBytes.map fun x => (x.1, [⟨0, .unit, x.2, .plain⟩]) }, now := 1000, nextId := 100 }
/-- A COPY of one f32 element. -/
def dst1 : List Byte := image 0x1000 0x0A 1 0 1 [1, 1, 1, 1, 1] [0, 0, 0, 0]
def src1 : List Byte := image 0x10000 0x0A 1 0 0 [1, 1, 1, 1, 1] [0, 0, 0, 0]
def aCopy (begun : Bool) (left : List Nat) : CopyOp :=
  ⟨0, 2, 1, 0, 0, dst1, src1, [0, 0, 0, 0, 0], false, none, none, List.replicate 7 100, [], [], begun, left, none, false, [], 990⟩
def copying (c : CopyOp) (p : Option Park) : State :=
  { engines with copies := [(70, c)], groups := engines.groups.upd 2 fun g => { g with seq := 1, out := [aFlight (.s [6]) (.copy 70)], park := p } }
theorem test_copy_steps_witness :
    let w := copying (aCopy false [0]) (some (.copySlot 70))
    let s := copying (aCopy true [0]) none
    let t := copying (aCopy true []) none
    tidy w = true ∧ tidy s = true ∧ tidy t = true ∧
    holds (w.blocks.find 1) (fun b => 1 ≤ b.hdr.copies) = true ∧ holds ((run (.copyBegin 1) w).groups.find 2) (fun g => g.park.isNone) = true ∧
    (Img.of dst1).space = 1 ∧ (Img.of dst1).units[0]? = some (0, 0, 4) ∧
    holds (s.blocks.find 1) (fun B =>
      let rd := s.reader 2 1 70 (List.replicate 7 100) false
      (match Eng.all (fun i => s.copyByte B rd (aCopy true [0]) (Img.of dst1) (Img.of src1) 0 (0 + i)) 4 with
        | .ok g => g.val == [1, 0, 0, 0] && g.set == [] && g.seen.eraseDups == [0x10000, 0x10001, 0x10002, 0x10003]
        | .error _ => false) && s.copyReads B rd (aCopy true [0]) (Img.of dst1) (Img.of src1) == [] && B.tag (0x1000 / 128) == [] &&
      !s.noUndoFor 1 [0x1000 / 128] [] && (List.range 4).all fun i => !overlaps (Img.of dst1) (Img.of src1) (0x1000 + i)) = true ∧
    holds ((run (.copyUnitWrite 70 0) s).blocks.find 1) (fun B => (tab 5 fun i => (B.padByte (0x1000 + i)).toNat) == [1, 0, 0, 0, 0]) = true ∧
    -- the same to a device page
    (let d := image 0x1_0100 0x0A 1 0 0 [1, 1, 1, 1, 1] [0, 0, 0, 0]
     let s := copying { aCopy true [0] with dst := d } none
     let u := s.engineMeets 0 (s.opPlace 2 0).1 (s.opPlace 2 0).2 [0x10000, 0x10001, 0x10002, 0x10003]
     (Img.of d).space = 0 ∧ (match u.reach 0 0x1_0100 4 false true with
       | .ok l => l == .dev 0x201_0100
       | _ => false) = true ∧ u.heldPage (.dev 0x201_0100) = false ∧ u.homeUp (.dev 0x201_0100) = true ∧ u.eccHits 0x201_0100 4 = [] ∧
     (run (.copyUnitWrite 70 0) s).devBytes 0x201_0100 5 = [1, 0, 0, 0, 0]) ∧
    holds ((run (.copyComplete 70) t).groups.find 2) (fun g => g.out == [] && g.s[6] == 0xA01) = true ∧ (run (.copyComplete 70) t).copies = [] := by
  decide +kernel
def anEntry (ismx : Bool) (i1 i2 : List Byte) : MxEntry := ⟨80, 80, 2, 1, 0, 0, 0, ismx, i1, i2, true, 1, 2, 2, List.replicate 7 100, 0, 0, [], [], none, [], [], 990⟩
def theBank : Bank := ⟨1, .f16, 2, 2, none, [0x4000, 0x4000, 0, 0x4200], none, []⟩
def matrix (d : Dest) (w : Waits) (c : Cluster) : State :=
  { engines with clusters := [(0, c)], groups := engines.groups.upd 2 fun g => { g with seq := 1, out := [aFlight d w] } }
theorem test_matrix_grant_witness :
    let c : Cluster := ⟨[(0, [theBank])], [anEntry true actImg accImg], none⟩
    let s := matrix (.s [6]) .pass c
    tidy s = true ∧ c.pass.isNone = true ∧ chooseHead (c.heads.filter (s.ready c)) = some (anEntry true actImg accImg) ∧
    holds ((run (.mxrunGrant 0 0) s).clusters.find 0) (fun k => k.pass == some { anEntry true actImg accImg with lines := [64, 65, 66, 67, 96] }) = true := by decide +kernel
theorem test_latch_witness :
    let c : Cluster := ⟨[], [anEntry false wgtImg []], none⟩
    let s := matrix .none (.now 0) c
    let t := (s.focus 2).getD State.reset
    tidy s = true ∧ c.headOf 0 = some (anEntry false wgtImg []) ∧ s.focus 2 = some t ∧ t.cg.out = [aFlight .none (.now 0)] ∧ t.cb.tags = [] ∧
    holds ((run (.mxlwLatch 0 0 0) s).clusters.find 0) (fun k => k.table == [] && k.bankAt 0 == some theBank) = true := by decide +kernel
/-- A tile whose read fails leaves a bank that is not valid. -/
theorem test_latch_fails_witness :
    let e := anEntry false (image (2 ^ 45) 0x08 2 0 0 [2, 2, 1, 1, 1] [4, 0, 0, 0]) []
    let c : Cluster := ⟨[], [e], none⟩
    let s := matrix .none (.now 0) c
    let t := (s.focus 2).getD State.reset
    let m := Img.of e.img1
    (match Eng.all (fun i => t.tileAt t.cb (t.reader 2 1 80 e.ord true) m (i % m.dim 0) (i / m.dim 0)) (m.dim 0 * m.dim 1) with
      | .error (.bad cause _ _ _) => cause == 0x05
      | _ => false) = true ∧
    holds ((run (.mxlwLatch 0 0 0) s).clusters.find 0) (fun k => (k.bankAt 0).map Bank.bad == some (some 0x05)) = true := by decide +kernel
/-- A granted pass whose bank was not its own block's. -/
theorem test_pass_refused_witness :
    let e := { anEntry true actImg accImg with verdict := some 0x0D }
    let s := matrix (.s [6]) .pass ⟨[(0, [theBank])], [e], some e⟩
    let v := run (.mxrunPassEnd 0 0) s
    tidy s = true ∧ (s.focus 2).isSome = true ∧ holds (v.groups.find 2) (fun g => g.out == [] && g.s[6] == 0xA00 + 0x6B) = true ∧
    holds (v.blocks.find 1) (fun B => B.pad == padBytes) = true := by decide +kernel
theorem test_pass_witness :
    let e := anEntry true actImg accImg
    let c : Cluster := ⟨[(0, [theBank])], [e], some e⟩
    let s := matrix (.s [6]) .pass c
    let t := (s.focus 2).getD State.reset
    let v := run (.mxrunPassEnd 0 0) s
    tidy s = true ∧ s.focus 2 = some t ∧ t.cg.out = [aFlight (.s [6]) .pass] ∧ c.bankAt 0 = some theBank ∧ e.verdict = none ∧ e.n * 4 ≤ (Img.of e.img2).stride 1 ∧
    passSet c e t.cb = [] ∧ t.cbId = 1 ∧ t.cb.tags = [] ∧ holds (v.groups.find 2) (fun g => g.out == [] && g.s[6] == 0xA01) = true ∧
    holds (v.blocks.find 1) (fun B => (tab 8 fun i => (B.padByte (0x3000 + i)).toNat) == [0, 0, 0x80, 0x40, 0, 0, 0x40, 0x40]) = true := by
  decide +kernel

/-! ## Mirror and Prism (O50 to O52) -/

/-- An access reaches a place in device memory. -/
def leads (r : Except Nat Loc) (pa : Nat) : Bool := match r with
  | .ok l => l == .dev pa
  | .error _ => false
theorem leads_eq {r : Except Nat Loc} {pa : Nat} (h : leads r pa = true) : r = .ok (.dev pa) := by
  cases r <;> simp_all [leads]
/-- The conditions of `State.Plain`, evaluated. -/
def plainly (s : State) (part : Nat) (ws : List (Nat × Nat × Nat)) : Bool :=
  ws.all fun x => leads (s.reach part x.1 x.2.1 false true) x.2.2 && !s.heldPage (.dev x.2.2) && s.homeUp (.dev x.2.2) &&
    s.eccHits x.2.2 x.2.1 == [] && ws.all fun y =>
      (x == y || decide (x.2.2 + x.2.1 ≤ y.2.2) || decide (y.2.2 + y.2.1 ≤ x.2.2)) &&
        (s.walkSteps part x.1).1.all fun p => decide (p.at_ + 8 ≤ y.2.2) || decide (y.2.2 + y.2.1 ≤ p.at_)
theorem plain_of_plainly {s : State} {part : Nat} {ws : List (Nat × Nat × Nat)} (h : plainly s part ws = true) : s.Plain part ws := by
  simp only [plainly, List.all_eq_true, Bool.and_eq_true, Bool.or_eq_true, Bool.not_eq_true', beq_iff_eq, decide_eq_true_eq] at h
  refine ⟨fun va n pa hw => ?_, fun x y hx hy hne => ?_, fun x y p hx hy hp => ?_⟩
  · have k := h _ hw
    exact ⟨leads_eq k.1.1.1.1, k.1.1.1.2, k.1.1.2, k.1.2⟩
  · have k := ((h x hx).2 y hy).1
    simp only [hne, false_or] at k
    exact k
  · exact ((h x hx).2 y hy).2 p hp

/-- The tables after partition 0's step 4 has been captured: its first and last interior cells hold 3 and 7. -/
def captured : State := run (.hpubCapture 2) ((hpubParked.writeDev 0x202_0004 .unit [some 3]).writeDev 0x202_0010 .unit [some 7])
theorem test_halo_delivery_witness :
    holds (captured.mirrors.find 40) (fun r => r.due 0 == some (4, []) && r.task.isNone && r.desc.depth == 1 && !captured.dieSilent 0 (r.desc.dieOf 0) &&
      match captured.ghostWrites r 0 [] true ((List.range r.desc.ncomp).flatMap fun m => r.desc.ghosts.map fun i => (m, i)) with
        | .ok (_, [], none) => true
        | _ => false) = true ∧
    holds ((run (.haloDelivery 40 0) captured).mirrors.find 40) (fun r => r.deliver == [(4, 0, [], [1])] && r.done == [(0, 4)]) = true := by decide +kernel
/-- The ghost cells take the cells at the other end of the axis, as the rule says. -/
theorem test_ghosts_witness :
    holds (captured.mirrors.find 40) (fun r => r.due 0 == some (4, []) && !captured.dieSilent 0 (r.desc.dieOf 0) && r.desc.ghosts == [0, 5] && r.desc.source 0 0 == .cell 0 4 &&
      holds (r.capFor 0 0) (fun c => c.data.find 4 == some 7)) = true ∧
    captured.Plain 0 [(0x20000, 4, 0x202_0000), (0x20014, 4, 0x202_0014)] ∧ desc.addr 0 0 5 = 0x20014 ∧
    (let v := run (.haloDelivery 40 0) captured
     v.devByte 0x202_0000 = 7 ∧ v.devByte 0x202_0014 = 3 ∧ v.devByte 0x202_0004 = 3) := by
  refine ⟨by decide +kernel, plain_of_plainly (by decide +kernel), by decide +kernel, by decide +kernel⟩
/-- Each rule of a face, at the ghost cell below the axis and the one above it. -/
theorem test_face_rules_witness :
    let d (x : Nat) : GridDesc := { desc with rule := [x, x, 0, 0, 0, 0], fix := [0x55, 0x66, 0, 0, 0, 0] }
    (∀ j ∈ [0, 1, 2], 1 ≤ desc.inner j ∧ desc.inner j * desc.pcOf j = desc.dimOf j) ∧
    ((desc.inner 0 * desc.place 0 0 : Nat) : Int) + desc.local_ 0 0 = -1 ∧ ((desc.inner 0 * desc.place 0 0 : Nat) : Int) + desc.local_ 5 0 = 4 ∧
    [(d 0), (d 3), (d 1), (d 2), (d 4)].map (fun x => (x.source 0 0, x.source 0 5)) =
      [(.unset, .unset), (.fixed 0x55, .fixed 0x66), (.cell 0 4, .cell 0 1), (.cell 0 1, .cell 0 4), (.cell 0 1, .cell 0 4)] := by decide +kernel
theorem test_ring_tag_witness :
    let s := run (.haloDelivery 40 0) captured
    holds ((run (.ringTagSet 40 0 1) s).mirrors.find 40) (fun r => newestOf r.tags (tagKey 0 1) == some ⟨4, []⟩ && r.deliver == []) = true := by
  decide +kernel
theorem test_stale_halo_witness :
    let s : State := { gridded.commit with now := 7000, groups := gridded.commit.groups.upd 2 fun g => { g with park := some (.stale 0 0x31000 5 0 0 [(2, 0)]) } }
    let t := (s.focus 2).getD State.reset
    tidy s = true ∧ s.focus 2 = some t ∧ t.staleLanes 0x31000 5 0 [(2, 0)] = some (reg, [(2, 0)]) ∧ 0 + reg.desc.timeout * usec ≤ s.now ∧
    holds ((run (.staleHalo 2) s).groups.find 2) (fun g => g.trap.map (fun x => (x.cause, x.sub, x.addr, x.lanes)) == some (0x08, 1, 0x20000, 4)) = true := by
  decide +kernel
def aRow (token : Nat) : Send :=
  ⟨0, 2, 1, 0, 0, 1, 0x10000, 4, [1, 2, 3, 4], token, 5, 0, false, 9, 0, [], [], [], true, false, none, 0⟩
/-- The tables with that row on its way and a layer. -/
def arriving (c : Send) (x : Expert) (a : Area) : State := { base with layers := [{ layer1 with experts := [x] }.setArea 0 0 a], sends := [(90, c)], nextId := 100 }
def theArea (s : State) : Area := ((s.layer 0 1).map fun l => l.area 0 0).getD (Area.fresh 4)
def finds (s : State) (c : Send) : Bool := match s.expertOf c.part c.key with
  | .ok (l, e) => s.layers == [l] && e == 0
  | .error _ => false
theorem test_rows_arrive_witness :
    let full : Area := { Area.fresh 4 with slots := List.replicate 4 (some row0) }
    let late := arriving (aRow 7) expert { Area.fresh 4 with wlo := 8 }
    let away := arriving (aRow 7) { expert with state := [.absent], copies := [(0, (5, [2, 3]))] } (Area.fresh 4)
    let put := arriving (aRow 7) expert (Area.fresh 4)
    finds late (aRow 7) = true ∧ finds away (aRow 7) = true ∧ finds put (aRow 7) = true ∧ late.dieSilent 0 0 = false ∧ away.dieSilent 0 0 = false ∧ put.dieSilent 0 0 = false ∧
    (theArea (run (.xsendArrival 90) late)).stale = 1 ∧
    holds ((run (.xsendArrival 90) away).sends.find 90) (fun c => c.redir && c.target == 3 && c.version == 5) = true ∧
    full.nextFree = none ∧ (run (.inboundSlotFree 90) (arriving (aRow 7) expert full)).sends.map (fun c => c.2.status) = [none] ∧
    (Area.fresh 4).nextFree = some 0 ∧ (theArea (run (.xsendArrival 90) put)).accepted = 1 ∧
    (theArea (run (.xsendArrival 90) put)).slots.head? = some (some ⟨100, [], (9, 7), false, none, none⟩) ∧
    (run (.xsendArrival 90) put).sends.map (fun c => c.2.status) = [some 0] := by decide +kernel
/-- A row sent twice, one to a die that holds no replica and knows of none, and one to a die that is lost. -/
theorem test_rows_end_witness :
    let dup := arriving (aRow 7) expert { Area.fresh 4 with receipts := [(9, 7)] }
    let none_ := arriving (aRow 7) { expert with state := [.absent], copies := [] } (Area.fresh 4)
    let put := arriving (aRow 7) expert (Area.fresh 4)
    let gone : State := { put with dies := put.dies.set 0 { Die.reset with state := .failed } }
    finds dup (aRow 7) = true ∧ finds none_ (aRow 7) = true ∧ dup.dieGone 0 0 = false ∧ dup.dieSilent 0 0 = false ∧ none_.dieSilent 0 0 = false ∧ (theArea (run (.xsendArrival 90) dup)).dups = 1 ∧
    (theArea (run (.xsendArrival 90) dup)).accepted = 0 ∧ (run (.xsendArrival 90) none_).sends.map (fun c => c.2.status) = [some 0x10] ∧
    gone.dieGone 0 0 = true ∧ (run (.xsendArrival 90) gone).sends.map (fun c => c.2.status) = [some 0x10] := by decide +kernel
/-- A row that has waited takes a slot without a further test; one that finds none waits; a die that no longer answers takes none. -/
theorem test_rows_parked_witness :
    let full : Area := { Area.fresh 4 with slots := List.replicate 4 (some row0) }
    let again := arriving { aRow 7 with parked := true } expert { Area.fresh 4 with wlo := 8, receipts := [(9, 7)] }
    let waits := arriving (aRow 7) expert full
    let put := arriving (aRow 7) expert (Area.fresh 4)
    let silent : State := { put with dies := put.dies.set 0 { Die.reset with lost := true } }
    again.dieSilent 0 0 = false ∧ (theArea again).nextFree = some 0 ∧ (theArea (run (.inboundSlotFree 90) again)).accepted = 1 ∧
    full.nextFree = none ∧ (run (.xsendArrival 90) waits).sends.map (fun c => (c.2.parked, c.2.status)) = [(true, none)] ∧
    silent.dieGone 0 0 = false ∧ silent.dieSilent 0 0 = true ∧ run (.xsendArrival 90) silent = silent := by decide +kernel
theorem test_row_written_witness :
    let s := arriving (aRow 7) expert (Area.fresh 4)
    let va := layer1.slotVa 0 0 0
    let v := run (.xsendArrival 90) s
    (match s.slotWrites (aRow 7) va { s.unitOf 0 0 with grp := 100 } with
      | .ok _ => true
      | _ => false) = true ∧
    s.Plain 0 ([(va + 128, 4, 0x205_0100), (va, 20, 0x205_0080), (va + 0x14, 4, 0x205_0094)] ++ layer1.areaWrites 0 0 0x205_0000 ++
      layer1.entryWrites 0 0x204_0040 0x204_0044) ∧ va % 128 = 0 ∧
    v.devBytes 0x205_0100 4 = [1, 2, 3, 4] ∧ v.devBytes 0x205_0094 4 = toBytes 4 1 ∧ v.devBytes 0x205_0080 8 = toBytes 4 9 ++ toBytes 4 7 := by
  refine ⟨by decide +kernel, plain_of_plainly (by decide +kernel), by decide +kernel, by decide +kernel, by decide +kernel, by decide +kernel⟩
/-- The word's flight is out, and the send timeout is 2 µs. -/
def sent (c : Send) : State :=
  { base with
    now := 3000, layers := [layer1], sends := [(90, c)], parts := base.parts.upd 0 fun P => { P with timeout := 2 },
    groups := base.groups.upd 2 fun g => { g with seq := 1, out := [aFlight (.s [6]) (.send 90)] } }
theorem test_row_status_witness :
    let t := ((sent (aRow 7)).focus 2).getD State.reset
    tidy (sent (aRow 7)) = true ∧ (sent (aRow 7)).focus 2 = some t ∧ t.cg.out = [aFlight (.s [6]) (.send 90)] ∧ 0 + 2 * usec ≤ (sent (aRow 7)).now ∧ (aRow 7).read = true ∧
    holds ((run (.xsendAck 90) (sent { aRow 7 with status := some 0 })).groups.find 2) (fun g => g.out == [] && g.s[6] == 3000 * 256 + 1) = true ∧
    holds ((run (.xsendTimeout 90) (sent (aRow 7))).groups.find 2) (fun g => g.out == [] && g.s[6] == 3000 * 256 + 0x83) = true := by decide +kernel
/-- A send whose row has not been read as its time runs out: the row is read first. -/
theorem test_row_timeout_reads_witness :
    let c := { aRow 7 with read := false, row := [], ord := List.replicate 7 100 }
    let s := (sent c).writeDev 0x201_0000 .unit (someBytes [1, 2, 3, 4])
    let t := (s.focus 2).getD State.reset
    s.focus 2 = some t ∧ c.status = none ∧ c.wait = [] ∧ (s.readRow 90 c).2.read = true ∧ (s.readRow 90 c).2.set.length ≤ 4 ∧
    subset (s.readRow 90 c).2.set t.cg.aset = true ∧ 0 + 2 * usec ≤ s.now ∧
    holds ((run (.xsendTimeout 90) s).sends.find 90) (fun c => c.read && c.row == [1, 2, 3, 4] && c.grp == nobody) = true ∧
    holds ((run (.xsendTimeout 90) s).groups.find 2) (fun g => g.out == [] && g.s[6] == 3000 * 256 + 0x83) = true := by decide +kernel
theorem test_placement_witness :
    let w (x : Expert) (p : Part → Part) : State := { base with now := 5000, layers := [{ layer1 with experts := [x] }], parts := base.parts.upd 0 p }
    let x (s : State) : Expert := (((s.layer 0 1).bind fun l => l.experts.head?)).getD expert
    let plain := w { expert with window := [3, 4, 0, 0, 0, 0, 0, 0], version := 2 } id
    let timed := w { expert with window := [3, 4, 0, 0, 0, 0, 0, 0] } fun P => { P with pxctl := 4 }
    tidy plain = true ∧ (x (run (.replicaTableUpdate 0 1 0 0) plain)).copies = [(0, (2, [0]))] ∧
    (holds (timed.parts.find 0) fun P => bits P.pxctl.toNat 15 1 == 2 && !P.pxctl.getLsbD 0 && P.window == 0) = true ∧
    (x (run (.prismWindowEnd 0) timed)).load = 7 ∧ (x (run (.prismWindowEnd 0) timed)).window = List.replicate 8 0 ∧
    (let s : State := { plain with fw := { plain.fw with pxctl := [(0, 6)] } }
     (x (run (.pxctlWrite 0 6) s)).window = List.replicate 8 0 ∧ holds ((run (.pxctlWrite 0 6) s).parts.find 0) (fun P => P.window == 5000 && P.pxctl == 6) = true ∧
     (run (.pxctlWrite 0 6) s).fw.pxctl = [] ∧ plain.fw.pxctl = []) := by
  decide +kernel
/-- A window of 7 arrivals against limits of 5 and 1 begins a fill of die 1; one of none ends the replica there. -/
theorem test_window_acts_witness :
    let limits (P : Part) : Part := { P with pxctl := BitVec.ofNat 64 (1 + 2 * 2 + 2 ^ 16 + 5 * 2 ^ 40), dies := [0, 1] }
    let w (x : Expert) : State := { base with now := 5000, layers := [{ layer1 with experts := [x] }], parts := base.parts.upd 0 limits }
    let busy := w { expert with state := [.resident, .absent], window := [3, 4, 0, 0, 0, 0, 0, 0] }
    let idle := w { expert with state := [.resident, .resident], list := [0, 1], version := 3 }
    let x (s : State) : Expert := (((s.layer 0 1).bind fun l => l.experts.head?)).getD expert
    busy.merging 0 1 0 = false ∧ idle.merging 0 1 0 = false ∧
    fewest (busy.windowOf 0) ((List.range 2).filter fun k => (x busy).stateOf k == .absent && (busy.die k).state == .active && !busy.dieSilent 0 k) = some 1 ∧
    holds ((run (.prismWindowEnd 0) busy).layer 0 1) (fun l => l.fills == [(0, 1, layer1.weightVa 0 0, 1024, none)]) = true ∧
    (x (run (.prismWindowEnd 0) busy)).stateOf 1 = .filling ∧ (x (run (.prismWindowEnd 0) idle)).stateOf 1 = .evicting ∧
    (x (run (.prismWindowEnd 0) idle)).list = [0] ∧ (x (run (.prismWindowEnd 0) idle)).version = 4 := by decide +kernel
theorem test_replicas_witness :
    let w (x : Expert) (fills : List (Nat × Nat × Nat × Nat × Option Nat)) : State :=
      { base with layers := [{ layer1 with experts := [x], fills := fills }], parts := base.parts.upd 0 fun P => { P with dies := [0, 1] } }
    let x (s : State) : Expert := (((s.layer 0 1).bind fun l => l.experts.head?)).getD expert
    let filling := w { expert with state := [.resident, .filling], copies := [(0, (0, [0])), (1, (0, [0]))] } [(0, 1, 0x10000, 4, none)]
    let evicting := w { expert with list := [1], version := 1, state := [.evicting, .resident], copies := [(0, (1, [1])), (1, (1, [1]))] } []
    filling.merging 0 1 0 = false ∧ (match filling.fillBytes 0 1 0x10000 (layer1.weightVa 1 0) 4 0 with
      | .ok _ => true
      | _ => false) = true ∧
    (x (run (.fillComplete 0 1 0 1) filling)).list = [0, 1] ∧ (x (run (.fillComplete 0 1 0 1) filling)).version = 1 ∧
    (x (run (.fillComplete 0 1 0 1) filling)).stateOf 1 = .resident ∧
    -- a source that is not mapped, asked for by a task
    (let bad := w { expert with state := [.resident, .filling] } [(0, 1, 2 ^ 45, 4, some 50)]
     let s : State := { bad with tasks := [(50, aTask (.xfill 1 4 0 0 16))] }
     (match s.fillBytes 0 1 (2 ^ 45) (layer1.weightVa 1 0) 4 0 with
       | .bad _ _ _ => true
       | _ => false) = true ∧ (x (run (.fillComplete 0 1 0 1) s)).stateOf 1 = .absent ∧
     (run (.fillComplete 0 1 0 1) s).tasks.map (fun t => (t.2.cause, t.2.daddr)) = [(some 0x0D, 2 ^ 45)]) ∧ (x evicting).stateOf 0 = .evicting ∧ ((layer1.area 0 0).refs = 0) ∧
    (x (run (.evictComplete 0 1 0 0) evicting)).stateOf 0 = .absent := by decide +kernel
/-- A fill of four bytes, as `PlacementWorks` says where they go. -/
theorem test_fill_places_witness :
    let f : State := { base with layers := [{ layer1 with experts := [{ expert with state := [.resident, .filling] }], fills := [(0, 1, 0x10000, 4, none)] }],
                                 parts := base.parts.upd 0 fun P => { P with dies := [0, 1] } }
    let s := f.writeDev 0x201_0000 .unit (someBytes [1, 2, 3, 4])
    s.Plain 0 ((tab 4 fun i => (0x60400 + i, 1, 0x206_0400 + i)) ++ layer1.entryWrites 0 0x204_0040 0x204_0044) ∧ layer1.weightVa 1 0 = 0x60400 ∧
    (∀ i ∈ List.range 4, leads (s.reach 0 (0x10000 + i) 1 true false) (0x201_0000 + i) = true ∧ s.homeUp (.dev (0x201_0000 + i)) = true ∧
      s.eccHits (0x201_0000 + i) 1 = [] ∧ s.versions (lineOf (0x201_0000 + i)) = [] ∧
      ((s.walkSteps 0 (0x10000 + i)).1.all fun p => decide (p.at_ + 8 ≤ 0x206_0400) || decide (0x206_0404 ≤ p.at_)) = true) ∧
    (run (.fillComplete 0 1 0 1) s).devBytes 0x206_0400 4 = [1, 2, 3, 4] := by
  refine ⟨plain_of_plainly (by decide +kernel), by decide +kernel, by decide +kernel, by decide +kernel⟩

/-! ## Barriers, waits, parks and traps (O53, O54) -/

/-- The tables with the placed group changed. -/
def withGroup (f : Group → Group) : State := { base with groups := base.groups.upd 2 f, now := 9000, nextId := 100 }
def withBlock (f : Block → Block) : State := { base with blocks := base.blocks.upd 1 f, nextId := 100 }
theorem test_releases_witness :
    let s : State := { withBlock fun b => { b with bar := ⟨1, [2], 3, [], [77], zeroOrd⟩ } with groups := base.groups.upd 2 fun g => { g with park := some (.bar 3) } }
    let t : State := { withBlock fun b => { b with cbarIn := [2], gang := 30, hdr := { b.hdr with cluster := 1 } } with
                       gangs := [(30, ⟨0, [1], 4, [], zeroOrd, [], []⟩)], groups := base.groups.upd 2 fun g => { g with park := some (.cbar 4) } }
    tidy s = true ∧ tidy t = true ∧ (2 : Nat) ≠ nobody ∧
    holds ((run (.barRelease 1) s).blocks.find 1) (fun b => b.bar == ⟨1, [], 4, [], [], zeroOrd⟩) = true ∧
    holds (s.blocks.find 1) (fun b => s.barMet b) = true ∧
    holds ((run (.barRelease 1) s).groups.find 2) (fun g => g.park.isNone && g.seq == 1 && g.behind == [77] && g.pcs.head? == some (some 0x44)) = true ∧
    (t.blocks.map fun b => subset (t.liveGroups b.2) [2]) = [true] ∧
    holds ((run (.cbarRelease 30) t).gangs.find 30) (fun g => g.gen == 5) = true ∧
    holds ((run (.cbarRelease 30) t).groups.find 2) (fun g => g.park.isNone && g.pcs.head? == some (some 0x44)) = true := by decide +kernel
theorem test_timers_witness :
    let q := { aReq (.watch .eq 1) [] with status := .held }
    let f := { aFlight (.s [6]) .watch with limit := 9 }
    let s : State := { flying f q with now := 9000 }
    let t := (s.focus 2).getD State.reset
    let w := withGroup fun g => { g with park := some (.waitcy 9000) }
    let u := withGroup fun g => { g with park := some .assume }
    tidy s = true ∧ s.focus 2 = some t ∧ t.cg.out = [f] ∧ t.wordReqs 2 0 = [(60, q)] ∧
    holds ((run (.waitTimeout 2) s).groups.find 2) (fun g => g.out == [] && g.pend.map (fun x => (x.cause, x.addr, x.pc)) == [(0x0F, 0x10010, 0x40)]) = true ∧
    tidy w = true ∧ holds ((run (.waitcyExpiry 2) w).groups.find 2) (fun g => g.park.isNone) = true ∧
    holds ((run (.waitcyExpiry 2) { w with now := 8999 }).groups.find 2) (fun g => g.park.isSome) = true ∧
    holds ((run (.parkResume 2) u).groups.find 2) (fun g => g.park.isNone) = true ∧
    -- the condition holds as the time runs out: a denial has put the value back
    (let q := { aReq (.watch .eq 0x04030201) [] with status := .held }
     let s : State := { flying f q with now := 9000 }
     t.homeUp (.dev 0x201_0010) = true ∧ t.eccLost 0x201_0010 4 = false ∧ watchHit .eq 1 4 (t.readLoc (.dev 0x201_0010) 4).1 = false ∧ watchHit .eq 0x04030201 4 (t.readLoc (.dev 0x201_0010) 4).1 = true ∧
     (run (.waitTimeout 2) s).reqs.map (fun x => (x.2.status, x.2.res)) = [(.done, [1, 2, 3, 4])] ∧
     holds ((run (.waitTimeout 2) s).groups.find 2) (fun g => g.pend == [] && g.out == [f]) = true) ∧
    -- the watched word has been lost since
    (let b : State := { s with ecc := [(0x201_0010 / 32, .lasting)] }
     ((b.focus 2).getD State.reset).eccLost 0x201_0010 4 = true ∧ (run (.waitTimeout 2) b).reqs.map (fun x => x.2.status) = [.failed 0x07]) := by decide +kernel
/-- The other ends of parks: a granule free again, the word's accesses performed, the last of an exited group over. -/
theorem test_parks_witness :
    let p := withGroup fun g => { g with park := some .pool }
    let t := (p.focus 2).getD State.reset
    let w := asking { aReq (.store someWord) [] with status := .done }
    let d : State := { w with groups := w.groups.upd 2 fun g => { g with park := some (.performed 0) } }
    let e := withGroup fun g => { g with park := some (.exiting true), phys := [(5, [])] }
    let x := (e.focus 2).getD State.reset
    p.focus 2 = some t ∧ t.cg.granule ≤ t.pool t.cb.core ∧ holds ((run (.parkResume 2) p).groups.find 2) (fun g => g.park.isNone) = true ∧
    (d.focus 2).isSome = true ∧ (((d.focus 2).getD d).wordReqs 2 0).all (fun x => x.2.status.over_) = true ∧
    holds ((run (.parkResume 2) d).groups.find 2) (fun g => g.park.isNone) = true ∧
    e.focus 2 = some x ∧ x.exitWaits = false ∧ x.exitBusy = false ∧
    holds ((run (.parkResume 2) e).groups.find 2) (fun g => g.done && g.failed && g.phys == []) = true := by decide +kernel
/-- A group that waits for the handler, whose code object stands at 0x10000. -/
def toHandler (on : Bool) : State :=
  let s := (withGroup fun g => { g with park := some .trap, trap := some ⟨0x06, 0x36, 5, 0x1234, 9, none, 0x40, 0⟩, aset := [0x100] }).writeDev
    0x201_0000 .unit (someBytes header)
  { s with parts := s.parts.upd 0 fun P => { P with thandler := if on then 0x1_0001 else 0x1_0000 } }
theorem test_trap_entry_witness :
    let s := toHandler true
    let t := (s.focus 2).getD State.reset
    tidy s = true ∧ s.focus 2 = some t ∧ t.cg.vlOut = false ∧ t.cg.inH = false ∧ t.cp.thandler.getLsbD 0 = true ∧ t.handlerBusy = false ∧
    (match t.codeRead (bits t.cp.thandler.toNat 56 6 * 64) 16 with
      | (some bs, _) => (handlerHeader bs).isSome
      | _ => false) = true ∧
    holds ((run (.trapEntry 2) s).groups.find 2) (fun g => g.trap.isNone && g.aset == [0x100] && holds g.handler fun h =>
      h.tcause == 0x5_36_06 && h.taddr == 0x1234 && h.tlanes == 9 && h.base == 0x10000 && h.pcs.head? == some (some 0x40)) = true := by decide +kernel
theorem test_no_handler_witness :
    let s := toHandler false
    let s : State := { s with groups := s.groups.upd 2 fun g => { g with aset := [] } }
    let t := (s.focus 2).getD State.reset
    tidy s = true ∧ s.focus 2 = some t ∧ t.cp.thandler.getLsbD 0 = false ∧ t.exitWaits = false ∧ t.exitBusy = false ∧
    holds ((run (.trapEntry 2) s).groups.find 2) (fun g => g.done && g.failed) = true := by decide +kernel
/-- A handler with no valid header, a trap in the handler, and what waits for the handler's place without a trap. -/
theorem test_handler_place_witness :
    let s := toHandler true
    let bad : State := { s with mem := s.mem.ins 0x201_0000 0, groups := s.groups.upd 2 fun g => { g with aset := [] } }
    let t := (bad.focus 2).getD State.reset
    let inside : State := { bad with groups := bad.groups.upd 2 fun g => { hand.cg with park := some .trap, trap := g.trap } }
    let waits (p : Park) : State := { s with groups := s.groups.upd 2 fun g => { g with park := some p, trap := none } }
    bad.focus 2 = some t ∧ t.handlerBusy = false ∧ ((t.codeRead (bits t.cp.thandler.toNat 56 6 * 64) 16).1.bind handlerHeader).isNone = true ∧
    holds ((run (.trapEntry 2) bad).groups.find 2) (fun g => g.done && g.failed) = true ∧
    holds (inside.groups.find 2) (fun g => g.inH) = true ∧ holds ((run (.trapEntry 2) inside).groups.find 2) (fun g => g.done && g.failed) = true ∧
    holds ((run (.trapEntry 2) (waits (.barOff 3))).groups.find 2) (fun g => g.park == some (.bar 3)) = true ∧
    holds ((run (.trapEntry 2) (waits (.cbarOff 3))).groups.find 2) (fun g => g.park == some (.cbar 3)) = true ∧
    holds ((run (.trapEntry 2) (waits .trap)).groups.find 2) (fun g => g.park.isNone) = true := by decide +kernel
/-- Identifier 0x1000 with a decision on its way; the group rests on it since its snapshot, in which s6 held 5. -/
def deciding (yes : Bool) : State :=
  let s := withGroup fun g => { g with
    aset := [0x1000], s := g.s.set 6 7, snaps := [⟨g.vmap, g.s.set 6 5, g.p, g.pcs, 0, 0, 0, [], [0x1000], 0, zeroOrd, zeroOrd, 0⟩], seq := 3 }
  { s with resol := [(0x1000, yes)], aids := [(0x1000, ⟨0, 2, 0, 0, 0x201_0000, 0x10000, 1, 9, [], none⟩)],
           vers := [(0x4_0201, [⟨[0x1000], List.replicate 128 9, List.replicate 128 []⟩])] }
theorem test_decisions_witness :
    let a := run (.aidAffirmation 0x1000) (deciding true)
    let d := run (.aidDenial 0x1000) (deciding false)
    (deciding true).inOrder 0x1000 [0x1000] = true ∧ (deciding false).inOrder 0x1000 ((deciding false).descend [0x1000]) = true ∧
    (deciding false).passBlocks ((deciding false).descend [0x1000]) ((deciding false).toRestore ((deciding false).descend [0x1000])) = false ∧ ((deciding false).groups.map (·.1)).Nodup ∧
    holds (a.groups.find 2) (fun g => g.aset == [] && g.s[6] == 7) = true ∧ a.devByte 0x201_0080 = 9 ∧ a.resol = [] ∧ a.aids = [] ∧
    holds (d.groups.find 2) (fun g => g.aset == [] && g.s[6] == 5 && g.snaps == []) = true ∧ d.devByte 0x201_0080 = 0 ∧ d.vers = [] := by
  decide +kernel
/-- A load has read a version made under the identifier, and its data are on their way: the group goes back to that load. -/
theorem test_denied_read_witness :
    let q := { aReq .load [] with status := .done, res := [1, 2, 3, 4], rset := [0x1000] }
    let n (g : Group) : Snap := ⟨g.vmap, g.s.set 6 5, g.p, g.pcs, 0, 0, 0, [], [], 0, zeroOrd, zeroOrd, 0⟩
    let s := asking q
    let s : State := { s with groups := s.groups.upd 2 fun g => { g with seq := 3, s := g.s.set 6 7, out := [{ aFlight (.v [10] [74] .b32) .load with hold := some (n g) }] },
                              resol := [(0x1000, false)], aids := [(0x1000, ⟨0, 9, 0, 0, 0x201_0000, 0x10000, 1, 9, [], none⟩)] }
    let d := run (.aidDenial 0x1000) s
    s.inOrder 0x1000 (s.descend [0x1000]) = true ∧ s.passBlocks (s.descend [0x1000]) (s.toRestore (s.descend [0x1000])) = false ∧
    (s.groups.map (·.1)).Nodup ∧ holds (s.groups.find 2) (fun g => !meets g.aset [0x1000] && g.snaps == [] &&
      g.out.all fun f => meets (s.pendingSet 2 f) [0x1000]) = true ∧
    holds (d.groups.find 2) (fun g => g.s[6] == 5 && g.park.isNone) = true ∧ d.reqs = [] := by decide +kernel

/-! ## Interruption (O55, O56) -/

theorem test_preempt_witness :
    let s := withGroup fun g => { g with park := some .pool, walked := [(1, .notPresent)] }
    let v := run (.preempt 1 .debugger) s
    tidy s = true ∧ holds (s.blocks.find 1) (fun b => s.liveGroups b == [2] && s.mayPreempt b .debugger && s.stops 1 b) = true ∧
    holds (v.blocks.find 1) (fun b => b.saved) = true ∧ holds (v.groups.find 2) (fun g => g.park.isNone && g.walked == []) = true ∧
    holds (v.blocks.find 1) (fun b => (v.partCores 0 0).contains (0 * 64 + 0) && v.takesBack b 0) = true ∧ v.physOf 0 0 = 0 ∧ tidy v = true ∧
    holds ((run (.blockRestore 1 0 0) v).blocks.find 1) (fun b => !b.saved && b.core == 0) = true := by decide +kernel
/-- A block saved with a latched bank and a group in its handler; one whose groups have exited is not saved. -/
theorem test_restore_witness :
    let s := withGroup fun g => { hand.cg with blk := g.blk }
    let b : State := { s with clusters := [(0, { Cluster.empty with banks := [(0, [theBank])] })] }
    let v := run (.preempt 1 .debugger) b
    let x : State := { base with groups := base.groups.upd 2 fun g => { g with done := true } }
    holds (v.blocks.find 1) (fun k => k.saved && k.bank == [theBank] && k.groups == [2]) = true ∧ (v.cluster 0).bankAt 0 = none ∧
    holds (v.groups.find 2) (fun g => g.inH && !g.done && g.park.isNone) = true ∧ ((run (.blockRestore 1 0 0) v).cluster 0).bankAt 0 = some theBank ∧
    holds ((run (.blockRestore 1 0 0) v).groups.find 2) (fun g => g.park == some .trap) = true ∧
    ((x.company 1 (x.blocks.find 1 |>.getD .empty)).map fun y => x.liveGroups y.2) = [[]] ∧
    ((run (.preempt 1 .debugger) x).blocks.map fun y => y.2.saved) = [false] := by decide +kernel
theorem test_teardown_witness :
    let s : State := { base with fw := { base.fw with tears := [0] } }
    let c : State := { base with blocks := [], groups := [], cores := base.cores.upd 0 fun c => { c with leaving := some 3, tlb := [leaf], left := [9] } }
    tidy s = true ∧ (s.aids.map (·.1)).Nodup ∧ (run (.partitionTeardown 0) s).parts = [] ∧ (run (.partitionTeardown 0) s).blocks = [] ∧
    (run (.partitionTeardown 0) s).groups = [] ∧ tidy c = true ∧ c.resident 0 = [] ∧
    holds ((run (.corePartitionMove 0 0) c).cores.find 0) (fun x => x.part == some 3 && x.leaving.isNone && x.tlb == [] && x.left == []) = true := by decide +kernel
/-- The placed partition on die 1, with one table there and the root on die 0; die 2 is a spare. -/
def evacuating : State :=
  { State.reset.writeDev 0x4000000 .unit (someBytes (toBytes 8 (2 ^ 39 + 0x4001001))) with
    dies := (State.reset.dies.set 2 { Die.reset with state := .spare }).set 1 { Die.reset with leaving := true },
    parts := [(0, { bootPart with dies := [1] })], fw := { Firmware.reset with evac := some (1, 2, 5), loaded := true } }
theorem test_evacuation_witness :
    let s := evacuating
    let m : Mapped := ⟨some 0x4000000, 0, 2 ^ 39 + 0x4001000, 4096, false⟩
    tidy s = true ∧ s.leading = true ∧ (s.die 2).state = .spare ∧ s.migs = [] ∧ s.blocks = [] ∧ (s.holders 1).map (·.1) = [0] ∧
    inRange (s.dieRange 1) 0x4000007 = false ∧ inRange (s.dieRange 2) 0x4000007 = false ∧
    m.pa + m.size ≤ (s.dieRange 1).1 + (s.dieRange 1).2 := by decide +kernel
theorem test_evacuation_pages :
    evacuating.mappedOn [0] 1 = [(0, ⟨some 0x4000000, 0, 2 ^ 39 + 0x4001000, 4096, false⟩)] := by decide +kernel
/-- The placed partition on die 1, with its block on a core there. -/
def losing (spare : Bool) : State :=
  { base with
    dies := State.reset.dies.set 2 { Die.reset with state := if spare then .spare else .active },
    parts := base.parts.upd 0 fun P => { P with dies := [1, 3], ptroot := 0 }, blocks := base.blocks.upd 1 fun b => { b with core := 64 } }
/-- The same with firmware that leads, and the followers of core 0. -/
def losingLed (followers : List Nat) : State := { losing true with fw := { Firmware.reset with loaded := true, active := 0 :: followers } }
theorem test_die_loss_witness :
    let s := losing true
    tidy s = true ∧ (1 : Nat) < s.const.dies ∧ (s.die 1).lost = false ∧ (s.die 1).state ≠ .failed ∧ s.leading = false ∧
    (s.holders 1).all (fun x => x.2.dies.length != 1) = true ∧ coreDie 64 = 1 ∧ (0 : Nat) < s.links.length ∧
    (losingLed [1, 3]).leading = true ∧ (losingLed [1]).leading = true ∧ (losingLed [1, 3]).fw.leader ≠ 1 ∧ (losingLed [1, 3]).fw.journal = [] ∧
    (List.range 8).find? (fun x => ((losingLed [1]).die x).state == .spare && !((losingLed [1]).die x).lost && x != 1) = some 2 := by decide +kernel
/-- A loss of die 1 ends its block and leaves it failed or not, the partition on these dies, and these entries in the journal. -/
def losesAs (s : State) (failed : Bool) (dies : List Nat) (entries : List (List Nat × Bool)) : Bool :=
  let v := run (.dieLoss 1) s
  (v.die 1).lost && ((v.die 1).state == .failed) == failed && v.blocks.isEmpty && (v.parts.map fun P => P.2.dies) == [dies] &&
    (v.fw.journal.map fun e => (e.acks, e.done)) == entries && v.fw.journal.all fun e => e.dec == .dieFailed 1
/-- With no leader the loss waits; a follower has to acknowledge it first; a leader alone declares it at once. -/
theorem test_die_loss :
    losesAs (losing true) false [1, 3] [] = true ∧ losesAs (losingLed [1, 3]) false [1, 3] [([0], false)] = true ∧
    losesAs (losingLed [1]) true [2, 3] [([0], true)] = true := by decide +kernel
theorem test_die_loss_links :
    (run (.dieLoss 0) State.reset).links = [false, true] ∧ (run (.thermalShutdown 1 115) State.reset).fw.active = [0, 2, 3, 4, 5, 6, 7] ∧
    (run (.thermalShutdown 1 114) State.reset).fw.active = [0, 1, 2, 3, 4, 5, 6, 7] := by decide +kernel
/-- Die 4 has been evacuated, and its base die still runs. -/
theorem test_base_die_loss_witness :
    let s : State := { State.reset with dies := State.reset.dies.set 4 { Die.reset with state := .failed } }
    let v := run (.thermalShutdown 4 115) s
    (s.die 4).lost = false ∧ (s.die 4).state = .failed ∧ (4 : Nat) < s.const.dies ∧ (v.die 4).lost = true ∧ v.links = [true, false] ∧
    v.fw.active = [0, 1, 2, 3, 5, 6, 7] ∧ run (.dieLoss 4) v = v := by decide +kernel

/-! ## Firmware, power, links (O57, O58) -/

/-- Firmware runs, at 2 ms, with a lease renewed at 0. -/
def firm (f : Firmware) : State := { State.reset with now := 2_000_000, fw := { f with loaded := true } }
theorem test_leases_witness :
    let s := firm .reset
    let taking := firm { Firmware.reset with take := true, leads := false }
    let claimed := firm { Firmware.reset with take := true, leads := false, claim := some (1, 1_900_000), epoch := 2,
                                              journal := [⟨1, 0, .teardown 3, [0, 1], 0, false⟩, ⟨1, 1, .teardown 4, [0], 0, false⟩] }
    tidy s = true ∧ s.leading = true ∧ (s.die 0).renewed + 250 * usec ≤ s.now ∧ ((run .leaseRenew s).die 5).renewed = 2_000_000 ∧
    s.fw.active.contains 3 = true ∧ (s.die 3).renewed + 1000 * usec ≤ s.now ∧ (run (.leaseLapse 3) s).fw.take = true ∧
    taking.fw.followers[0]? = some 1 ∧ (taking.die 1).renewed + 1000 * usec + 10 * usec * 0 ≤ taking.now ∧
    (run (.leaseClaim 1) taking).fw.claim = some (1, 2_000_000) ∧ (run (.leaseClaim 1) taking).fw.epoch = 2 ∧
    (run .takeoverComplete claimed).fw.leader = 1 ∧ (run .takeoverComplete claimed).fw.journal.map (·.seq) = [0] := by decide +kernel
theorem test_journal_witness :
    let s := firm .reset
    let d := Decision.budget 5 40 [1, 2, 3, 4]
    let q := firm { Firmware.reset with held := [.sendTimeout 0 6] }
    let e : Entry := ⟨1, 0, d, [0, 1, 2, 3, 4, 5, 6], 1_900_000, false⟩
    let w := firm { Firmware.reset with journal := [e] }
    s.leading = true ∧ Decision.isRequest d = false ∧ Decision.isRequest (.sendTimeout 0 6) = true ∧ tidy w = true ∧
    (run (.journalEntry d) s).fw.journal.map (fun e => (e.seq, e.acks, e.done)) = [(0, [0], false)] ∧ ((run (.journalEntry d) s).die 5).budget = 0 ∧
    ((run (.journalEntry d) (firm { Firmware.reset with active := [0] })).die 5).budget = 40 ∧
    (run (.journalEntry (.sendTimeout 0 6)) q).fw.held = [] ∧ (run (.journalEntry (.sendTimeout 0 7)) q).fw.journal = [] ∧
    ((run (.journalAcknowledge 7 0) w).die 5).budget = 40 ∧ ((run (.journalAcknowledge 6 0) w).die 5).budget = 0 ∧
    w.leading = true ∧ (7 : Nat) ∉ e.acks ∧ e.at_ + 20 * usec ≤ w.now ∧ (run (.journalAckTimeout 7) w).fw.active = [0, 1, 2, 3, 4, 5, 6] := by
  decide +kernel
/-- The last step of an evacuation, and a page that is to move to die 1, under a leader alone. -/
theorem test_decisions_act_witness :
    let alone : Firmware := { Firmware.reset with active := [0], loaded := true }
    let e : State := { State.reset with fw := { alone with evac := some (1, 2, 5) },
                                        dies := (State.reset.dies.set 1 { Die.reset with state := .failed }).set 2 { Die.reset with leaving := true } }
    e.leading = true ∧ (e.die 1).state = .failed ∧ (run (.journalEntry (.evacStep 6)) e).fw.evac = none ∧
    ((run (.journalEntry (.evacStep 6)) e).die 2).leaving = false := by decide +kernel
/-- The placed partition on dies 0 and 1 asks for its page to move to die 1. -/
def asksMove : Part := { bootPart with dies := [0, 1], migcmd := 0x1_0003 }
def askingMove : State :=
  { base with fw := { Firmware.reset with active := [0], loaded := true, held := [.migrate 0] }, parts := [(0, asksMove)] }
/-- Where everything that is mapped lies on die 0, every page of another die is free. -/
theorem pageFree_beyond {s : State} {pa size : Nat} (h : (s.parts.all fun x => (s.mapped x.1).all fun m => decide (m.pa + m.size ≤ 2 ^ 39)) = true)
    (hm : s.migs = []) (hp : 2 ^ 39 ≤ pa) : s.pageFree pa size = true := by
  simp only [State.pageFree, hm, List.all_nil, Bool.and_true, List.all_eq_true, decide_eq_true_eq] at h ⊢
  intro x hx m hm'
  have := h x hx m hm'
  simp; omega
theorem pickPage_beyond {s : State} {die size : Nat} (h : (s.parts.all fun x => (s.mapped x.1).all fun m => decide (m.pa + m.size ≤ 2 ^ 39)) = true)
    (hm : s.migs = []) (hd : 1 ≤ die) : (s.pickPage die size).isSome = true := by
  simp only [State.pickPage, Option.isSome_map, List.find?_isSome]
  exact ⟨0, List.mem_range.2 (Nat.mul_pos (by decide) (Nat.succ_pos _)), pageFree_beyond h hm (by omega)⟩
theorem test_move_asked_witness :
    askingMove.leading = true ∧ askingMove.migLeaf 0 asksMove = some leaf ∧ asksMove.migHome leaf askingMove.const.pkg = false ∧ leaf.size ≠ 0 ∧
    (askingMove.pickPage (asksMove.physDie (bits asksMove.migcmd.toNat 3 1)) leaf.size).isSome = true :=
  ⟨by decide +kernel, by decide +kernel, by decide +kernel, by decide +kernel,
   pickPage_beyond (by decide +kernel) (by decide +kernel) (by decide +kernel)⟩
theorem test_power_witness :
    let off := run .packagePowerLoss base
    let hot : State := { firm { Firmware.reset with active := [0] } with dies := State.reset.dies.set 5 { Die.reset with budget := 90, charges := [1, 2, 3, 4] } }
    let linked : State := { base with parts := base.parts.upd 0 fun P => { P with msix := [(3, ⟨0x1000, 5, false, true⟩)] } }
    tidy base = true ∧ base.powered = true ∧ off.powered = false ∧ off.parts = [] ∧ tidy off = true ∧ (run .powerUp off).fw.epoch = 1 ∧
    base.fw.loaded = false ∧
    (let w : State := { base with loadWin := [(0, 1), (1, 2)] }
     ([1, 2] : List Byte).length ≤ 2 ^ 19 ∧ Cells.read 0 w.loadWin 0 = 1 ∧ Cells.read 0 w.loadWin 1 = 2) ∧ tidy hot = true ∧ hot.leading = true ∧ (60 : Nat) < (hot.die 5).budget ∧
    ((run (.thermalThrottle 5 96 60) hot).die 5).budget = 60 ∧ ((run (.thermalThrottle 5 95 60) hot).die 5).budget = 90 ∧
    (run (.linkDown 0) linked).parts.map (fun P => P.2.msix) = [[(3, ⟨0x1000, 5, true, false⟩)]] ∧ (run (.linkDown 1) base).links = [true, false] ∧
    ((base.const.form = 3 → 1 = 0) ∧ (base.die 4).lost = false) ∧ (run (.linkUp 1) (run (.linkDown 1) base)).links = [true, true] := by decide +kernel

/-! ## The host (O59, O60) -/

/-- The window's offset 0x10010 is address 0x10010, where memory holds 1, 2, 3, 4. -/
def hosted : State := { asking (aReq .load []) with reqs := [] }
def reaches (s : State) (n : Nat) (r w : Bool) : Bool := match s.reach 0 0x10010 n r w with
  | .ok l => l == .dev 0x201_0010
  | _ => false
theorem test_host_window_witness :
    let bad : State := { hosted with ecc := [(0x201_0010 / 32, .lasting)] }
    tidy hosted = true ∧ hosted.hostReach 0 = true ∧ holds (hosted.parts.find 0) (fun P => P.windowVa 0x10010 == 0x10010) = true ∧
    packetOk 0x10010 4 = true ∧ 0x10010 % 128 + 4 ≤ 128 ∧ reaches hosted 4 true false = true ∧ hosted.homeUp (.dev 0x201_0010) = true ∧
    hosted.eccHits 0x201_0010 4 = [] ∧ (run (.hostWindowAccess 0 0x10010 (.read 4)) hosted).cpls = [(.success, [1, 2, 3, 4])] ∧
    (match hosted.reach 0 0x200_0000 4 true false with
      | .error _ => true
      | .ok _ => false) = true ∧ packetOk 0x200_0000 4 = true ∧
    (run (.hostWindowAccess 0 0x200_0000 (.read 4)) hosted).cpls = [(.unsupported, [])] ∧
    bad.eccLost 0x201_0010 4 = true ∧ (run (.hostWindowAccess 0 0x10010 (.read 4)) bad).cpls = [(.abort, [])] := by decide +kernel
theorem test_host_writes_witness :
    let op := HostOp.fetchAdd 4 0xFF
    reaches hosted 2 false true = true ∧ packetOk 0x10010 ([7, 8] : List Byte).length = true ∧
    (run (.hostWindowAccess 0 0x10010 (.write [7, 8])) hosted).devBytes 0x201_0010 4 = [7, 8, 3, 4] ∧
    (match hosted.reach 0 0x200_0000 2 false true with
      | .error _ => true
      | .ok _ => false) = true ∧ (hostOpOf op).1 = 4 ∧ 0x10010 % 4 = 0 ∧ 0x10010 + 4 ≤ 2 ^ 32 ∧ reaches hosted 4 true true = true ∧
    (run (.hostAtomicop 0 0x10010 op) hosted).cpls = [(.success, [1, 2, 3, 4])] ∧ (run (.hostAtomicop 0 0x10010 op) hosted).devBytes 0x201_0010 4 = [0, 3, 3, 4] := by
  decide +kernel
theorem test_bufadd_witness :
    let p (s : State) : Part := (s.parts.find 0).getD Part.empty
    let refused : State := { base with parts := base.parts.upd 0 fun P => { P with scr := 0x8_0000 } }
    (p base).refused 0x50000 (classSize 1) = false ∧ (p (run (.bufadd 0 0x50001) base)).free = [[], [0x50000], [], [], []] ∧
    (p refused).refused 0x8_0000 (classSize 0) = true ∧ run (.bufadd 0 0x8_0000) refused = refused ∧ (4 : Nat) < 0x50005 % 8 := by decide +kernel
theorem test_reports_witness :
    let p (s : State) : Part := (s.parts.find 0).getD Part.empty
    let keyed : State := { base with akey := some 1 }
    let ready : State := { base with parts := base.parts.upd 0 fun P => { P with attgo := 1, report := some (0x3000, [1, 2]) } }
    (p keyed).attgo ≠ 1 ∧ (p base).attref = false ∧ (p (run (.attgo 0 7) base)).attgo = 7 ∧ (p (run (.attgo 0 7) (run (.attgo 0 1) base))).attgo = 2 ∧
    (p (run (.attgo 0 1) base)).attref = true ∧ (p keyed).attn.length = 8 ∧ base.akey.isNone = true ∧ (p (run (.attgo 0 1) base)).attgo = 2 ∧ (p ready).attgo = 1 ∧
    (0x3000 + 2 ≤ 2 ^ 64) ∧ (p (run (.reportWritten 0) ready)).attgo = 0 ∧ (run (.reportWritten 0) ready).hostByte 0 0x3001 = 2 := by decide +kernel
theorem test_register_writes_witness :
    let p (s : State) : Part := (s.parts.find 0).getD Part.empty
    let pending : State := { base with parts := base.parts.upd 0 fun P => { P with msix := [(3, ⟨0x1000, 5, true, true⟩)] } }
    (run (.pctlWrite 0 9) base).fw.held = [.pctl 0 9] ∧ (run (.registerWrite (.pfPtroot 0) 9) base).fw.held = [.ptroot 0 9] ∧
    (p (run (.registerWrite (.thandler 0) (-1)) base)).thandler = 0x01FF_FFFF_FFFF_FFC1 ∧
    (p (run (.registerWrite (.attaddr 0) (-1)) base)).attaddr = -1 ∧
    (tab 9 fun i => (Cells.read 0 (run (.registerWrite (.loadWindow 0x7FFF8) 0x0102) base).loadWin (0x7FFF8 + i)).toNat) = [2, 1, 0, 0, 0, 0, 0, 0, 0] ∧
    (p (run (.registerWrite (.attn 0 7) 5) base)).attn = [0, 0, 0, 0, 0, 0, 0, 5] ∧ (p base).tlbinv.getLsbD 0 = false ∧
    (p (run (.registerWrite (.tlbinv 0) 0x1_0005) base)).tlbinv = 0x1_0005 ∧ (p (run (.registerWrite (.tlbinv 0) 0xD) base)).tlbinv = 0 ∧
    ((p base).msix.find 3).isNone = true ∧ (p (run (.registerWrite (.msixEntry 0 3 1) 2) base)).msix = [(3, ⟨2 ^ 33, 0, true, false⟩)] ∧
    (p (run (.registerWrite (.msixEntry 0 3 3) 1) pending)).msix = [(3, ⟨0x1000, 5, true, true⟩)] ∧
    (run (.registerWrite (.msixEntry 0 3 3) 0) pending).sent = [(0, 0, 0x1000, 5)] := by decide +kernel

end Sys2Proof.Tests
end

/-! ## Comparisons (R130, R178, R182) -/

namespace Sys2Proof.Machine

/-- p0 reads all-true (R130). -/
@[simp] theorem rdP_zero (s : State) (l : Nat) : s.rdP 0 l = true := rfl

/-- A word whose lanes raise nothing raises nothing. -/
@[simp] theorem raised_zero (g : Group) : (g.raised fun _ => 0) = 0 := by
  have hlor : Nat.lor 0 0 = 0 := Nat.or_zero 0
  unfold Group.raised
  induction g.exLanes with
  | nil => rfl
  | cons l ls ih => simpa only [List.foldl_cons, hlor] using ih

/-- Raised flags trap only where one of them is enabled, and never in the handler (R43, R369). -/
theorem enabled_eq_false {g : Group} {m : Nat} (h : g.inH = true ∨ m &&& g.fmask.toNat = 0) : g.enabled m = false := by
  have hm : g.enabled m = (!g.inH && (m &&& g.fmask.toNat) != 0) := rfl
  rw [hm]
  rcases h with h | h
  · rw [h, Bool.not_true, Bool.false_and]
  · rw [h, bne_self_eq_false, Bool.and_false]

/-- The state after a comparison's row: the flags that its executing lanes raised are collected (R42), its last uses are freed
and its predicate is written. -/
def PredRow.result (r : PredRow) (s : State) : State :=
  (((withFlags s (s.cg.fflags ||| BitVec.ofNat 5 (s.cg.raised r.fl))).freeV r.tc.vf).putP r.p r.val).finish r.sw

/-- What a row speaks of does not look at the floating flags of the state before it. -/
theorem PredRow.Done.ofFlags {r : PredRow} {s t : State} {x : BitVec 5} (h : r.Done (withFlags s x) t) : r.Done s t := by
  obtain ⟨hframe, hwent, hmark, hwrote, hfreed⟩ := h
  exact ⟨hframe.ofFlags, hwent, hmark, hwrote, hfreed⟩

theorem PredRow.result_done (r : PredRow) (s : State) : r.Done s (r.result s) := by
  obtain ⟨hframe, hwent, -, hwrote, hfreed⟩ := predWrite_does
    (withFlags s (s.cg.fflags ||| BitVec.ofNat 5 (s.cg.raised r.fl))) r.sw r.p r.tc r.val
  exact PredRow.Done.ofFlags ⟨hframe, hwent, rfl, hwrote, hfreed⟩

theorem PredRow.result_fflags (r : PredRow) (s : State) :
    (r.result s).cg.fflags = s.cg.fflags ||| BitVec.ofNat 5 (s.cg.raised r.fl) := by
  obtain ⟨-, -, hflags, -, -⟩ := predWrite_does
    (withFlags s (s.cg.fflags ||| BitVec.ofNat 5 (s.cg.raised r.fl))) r.sw r.p r.tc r.val
  exact hflags

/-- A row whose destination is p0 leaves every predicate as it was (R130): p0 reads all-true before and after, and the frame
holds the others. -/
theorem PredRow.Done.rdP_of_dest_zero {r : PredRow} {s t : State} (h : r.Done s t) (hp : r.p = 0) (q l : Nat) :
    t.rdP q l = s.rdP q l := by
  obtain ⟨hframe, -⟩ := h
  rcases Nat.eq_zero_or_pos q with rfl | hq
  · rw [rdP_zero, rdP_zero]
  · have hq0 : q ≠ r.p.val := by rw [hp]; exact Nat.ne_of_gt hq
    exact hframe.p q l fun hmem => hq0 (List.mem_singleton.mp hmem)

/-- Where nothing is raised, the row's result is that of a word that leaves the flags alone. -/
theorem PredRow.result_of_no_flags (s : State) (sw : Bool) (tc : Touch) (p : PReg) (val : Nat → Bool) :
    PredRow.result ⟨sw, tc, p, val, fun _ => 0⟩ s = ((s.freeV tc.vf).putP p val).finish sw := by
  have hflags : withFlags s (s.cg.fflags ||| BitVec.ofNat 5 (s.cg.raised fun _ => 0)) = s := by
    rw [raised_zero, BitVec.or_zero]
    rfl
  unfold PredRow.result
  rw [hflags]

/-- The row of ISET, which raises no flag (R178). -/
def State.isetRow (s : State) (sw : Bool) (c : ICmp) (p : PReg) (a : VSrc) (b : BSrc) : PredRow :=
  ⟨sw, (a.touch false).plus (b.touch false), p, fun l => c.holds 32 (s.rdV a.reg l).toNat (s.bNum b false l), fun _ => 0⟩

/-- What FSET finds in a lane, and the flags that it raises there (R182). -/
def State.fsetLane (s : State) (t : F2) (c : FCmp) (a : VSrc) (b : BSrc) (l : Nat) : Bool × Nat :=
  FCmp.eval c ((Fmt.fpD t.fmt).decode (s.vNum a.reg t.wide l)) ((Fmt.fpD t.fmt).decode (s.bNum b t.wide l))
/-- The row of FSET in either format (R182). -/
def State.fsetRow (s : State) (sw : Bool) (t : F2) (c : FCmp) (p : PReg) (a : VSrc) (b : BSrc) : PredRow :=
  ⟨sw, (a.touch t.wide).plus (b.touch t.wide), p, fun l => (s.fsetLane t c a b l).1, fun l => (s.fsetLane t c a b l).2⟩

/-- A floating comparison that may run and raises no enabled flag ends in its row's result (R42, R182). -/
theorem fpPred_run {s : State} {tc : Touch} (h : s.canRun tc = true) (sw : Bool) (p : PReg) (f : Nat → Bool × Nat)
    (hn : s.cg.enabled (s.cg.raised fun l => (f l).2) = false) :
    s.fpPred sw p tc f = PredRow.result ⟨sw, tc, p, fun l => (f l).1, fun l => (f l).2⟩ s :=
  (floatWord_does h false (fun l => (f l).2) _).1 hn

/-- FSET that may run and raises no enabled flag ends in its row's result (R182). -/
theorem fset_run {s : State} {sw : Bool} {t : F2} {c : FCmp} {p : PReg} {a : VSrc} {b : BSrc}
    (h : s.canRun (s.fsetRow sw t c p a b).tc = true)
    (hn : s.cg.enabled (s.cg.raised (s.fsetRow sw t c p a b).fl) = false) :
    s.fset sw t c p a b = (s.fsetRow sw t c p a b).result s :=
  fpPred_run h sw p (s.fsetLane t c a b) hn

theorem exec_fsetF32 (sw : Bool) (c : FCmp) (p : PReg) (a : VSrc) (b : BSrc) (s : State) :
    exec (.fsetF32 sw c p a b) s = .next (s.fset sw .f32 c p a b) := by
  rfl
theorem exec_fsetF64 (sw : Bool) (c : FCmp) (p : PReg) (a : VSrc) (b : BSrc) (s : State) :
    exec (.fsetF64 sw c p a b) s = .next (s.fset sw .f64 c p a b) := by
  rfl
theorem exec_iset (sw : Bool) (c : ICmp) (p : PReg) (a : VSrc) (b : BSrc) (s : State) :
    exec (.iset sw c p a b) s = execIset sw c p a b s := by
  rfl

/-- ISET that may run ends in its row's result (R178). -/
theorem execIset_run {s : State} {sw : Bool} {c : ICmp} {p : PReg} {a : VSrc} {b : BSrc}
    (h : s.canRun (s.isetRow sw c p a b).tc = true) :
    execIset sw c p a b s = .next ((s.isetRow sw c p a b).result s) := by
  have hres : (s.isetRow sw c p a b).result s = ((s.freeV (s.isetRow sw c p a b).tc.vf).putP p
      (s.isetRow sw c p a b).val).finish sw := PredRow.result_of_no_flags s sw _ p _
  rw [hres]
  exact congrArg Host.Outcome.next (operands_run h _)

/-- Each comparison that may run and raises no enabled flag ends in its row's result. -/
theorem exec_of_predRow {s : State} {i : Instr} {r : PredRow} (hr : s.predRow i = some r) (h : s.canRun r.tc = true)
    (hn : s.cg.enabled (s.cg.raised r.fl) = false) : exec i s = .next (r.result s) := by
  unfold State.predRow at hr
  split at hr
  next sw c p a b =>
    cases hr
    exact (exec_iset sw c p a b s).trans (execIset_run h)
  next sw c p a b =>
    cases hr
    exact (exec_fsetF32 sw c p a b s).trans (congrArg _ (fset_run (t := .f32) h hn))
  next sw c p a b =>
    cases hr
    exact (exec_fsetF64 sw c p a b s).trans (congrArg _ (fset_run (t := .f64) h hn))
  next => cases hr

/-- Settles O11: a comparison ends in its row's result, whose flags and predicates are those of the row. -/
theorem compareWords : Obligations.CompareWords := by
  unfold Obligations.CompareWords
  refine ⟨rdP_zero, fun s i r hr hrun hquiet => ?_⟩
  have hexec : exec i s = .next (r.result s) := exec_of_predRow hr hrun (enabled_eq_false hquiet)
  exact ⟨r.result s, hexec, r.result_done s, r.result_fflags s, (r.result_done s).rdP_of_dest_zero⟩

end Sys2Proof.Machine

/-! ## Branches (R161, R163) -/

namespace Sys2Proof.Machine

/-- The word has issued with its switch marker and left the flags alone; each executing lane stands where f sends it, and the
other lanes stand where they stood (R155, R161). -/
def BranchedTo (s t : State) (sw : Bool) (f : Nat → Word) : Prop :=
  t.cg.mark = sw ∧ t.cg.fflags = s.cg.fflags ∧ ∀ l, l < s.cg.width →
    t.cg.curPcs.getD l none = if s.cg.ex l then some (f l) else s.cg.curPcs.getD l none

theorem branch_branchedTo (s : State) (sw : Bool) (f : Nat → Word) : BranchedTo s (s.branch sw f) sw f := by
  have m : Moved s (s.branch sw f) := branch_moved s sw f
  have hflags : (s.branch sw f).cg.fflags = s.cg.fflags := by rw [m.cg]
  exact ⟨rfl, hflags, branch_lanes s sw f⟩

/-- A branch after register writes sends the lanes of the state before them, once those writes left the lanes and the flags
alone. -/
theorem BranchedTo.of_pcs {s u t : State} {sw : Bool} {f : Nat → Word} (hpcs : u.cg.curPcs = s.cg.curPcs)
    (hwidth : u.cg.width = s.cg.width) (hflags : u.cg.fflags = s.cg.fflags) (b : BranchedTo u t sw f) :
    BranchedTo s t sw f := by
  obtain ⟨hmark, hflags', hlanes⟩ := b
  have hex : u.cg.ex = s.cg.ex := by
    funext l
    unfold Group.ex Group.ia
    rw [hpcs]
  rw [hwidth, hex, hpcs] at hlanes
  exact ⟨hmark, hflags'.trans hflags, hlanes⟩

/-- A branch that writes no register changes nothing but where the executing lanes stand. -/
theorem branch_framed (s : State) (sw : Bool) (f : Nat → Word) : Framed s (s.branch sw f) {} [] :=
  Framed.of_s (SOnly.refl s) (branch_moved s sw f) {} [] fun _ hr => hr

/-- A branch target wraps modulo 2^32: ia plus four times the sign-extended offset (R127, R161). -/
theorem target_toInt {w : Nat} (g : Group) (off : BitVec w) : g.target off.toInt = g.ia + 4 * off.signExtend 32 := by
  unfold Group.target
  rw [BitVec.ofInt_mul]
  rfl

/-! ### Branches that write no register -/

/-- Where BRC sends a lane: to the target where the predicate is not `neg`, else to the next word. -/
def State.brcPlace (s : State) (p : PReg) (neg : Bool) (off : BitVec 20) (l : Nat) : Word :=
  if s.rdP p l = !neg then s.cg.ia + 4 * off.signExtend 32 else s.cg.ia + 4

theorem exec_brc (s : State) (sw : Bool) (p : PReg) (neg : Bool) (off : BitVec 20) :
    exec (.brc sw p neg off) s = .next (s.branch sw (s.brcPlace p neg off)) := by
  have hplace : (fun l => if s.rdP p l != neg then s.cg.target off.toInt else s.cg.ia + 4) = s.brcPlace p neg off := by
    funext l
    unfold State.brcPlace
    rw [target_toInt]
    cases s.rdP p l <;> cases neg <;> rfl
  rw [← hplace]
  rfl

theorem exec_bra (s : State) (sw : Bool) (off : BitVec 24) :
    exec (.bra sw off) s = .next (s.branch sw fun _ => s.cg.ia + 4 * off.signExtend 32) := by
  rw [← target_toInt]
  rfl

theorem exec_bru_run {s : State} {r : SReg} (h : s.canRun (readS r false) = true) (sw : Bool) (c : UCnd) (off : BitVec 16) :
    exec (.bru sw c r off) s = .next (s.branch sw fun _ =>
      if c.holds (s.rdS r) then s.cg.ia + 4 * off.signExtend 32 else s.cg.ia + 4) := by
  rw [← target_toInt]
  exact congrArg Host.Outcome.next (operands_run h _)

theorem exec_ret_run {s : State} (h : s.canRun (readS 30 false) = true) (sw : Bool) :
    exec (.ret sw) s = .next (s.branch sw fun _ => s.rdS 30) :=
  congrArg Host.Outcome.next (operands_run h _)

/-! ### JMPX, which may free its register -/

theorem exec_jmpx_run {s : State} {a : VSrc} (h : s.canRun (a.touch false) = true) (sw : Bool) :
    exec (.jmpx sw a) s = .next ((s.freeV (a.touch false).vf).branch sw fun l => s.rdV a.reg l) :=
  congrArg Host.Outcome.next (operands_run h _)

/-- A branch after last uses were freed changes nothing but the names freed and where the executing lanes stand. -/
theorem freeV_branch_framed (s : State) (tc : Touch) (sw : Bool) (f : Nat → Word) :
    Framed s ((s.freeV tc.vf).branch sw f) tc [] := by
  have h : VOnly s (s.freeV tc.vf) tc.vf := freeV_only s tc.vf
  have hpreds : ∀ q l, (s.freeV tc.vf).rdP q l = s.rdP q l := by
    intro q l
    unfold State.rdP
    rw [h.cg]
  exact Framed.of_vp h (s.freeV tc.vf).cg.p (branch_moved _ sw f) tc [] (fun _ hr => .inr hr) fun q l _ => hpreds q l

theorem freeV_branch_freed (s : State) (tc : Touch) (sw : Bool) (f : Nat → Word) :
    FreedV s ((s.freeV tc.vf).branch sw f) tc := by
  intro hout r hr _ _
  have m : Moved (s.freeV tc.vf) ((s.freeV tc.vf).branch sw f) := branch_moved _ sw f
  exact (m.map r).trans (freeV_mapOf s tc.vf hout r hr)

theorem freeV_branch_branchedTo (s : State) (vf : List Nat) (sw : Bool) (f : Nat → Word) :
    BranchedTo s ((s.freeV vf).branch sw f) sw f := by
  have h : VOnly s (s.freeV vf) vf := freeV_only s vf
  have hflags : (s.freeV vf).cg.fflags = s.cg.fflags := by rw [h.cg]
  exact (branch_branchedTo _ sw f).of_pcs h.pcs h.width hflags

/-! ### CALL, which links through s30 and s31 -/

/-- What CALL leaves in the pair s30, s31: the return address below its own (R163). -/
def Group.link (g : Group) : Nat := (g.ia + 4).toNat + 2 ^ 32 * g.ia.toNat

/-- CALL's two writes are one write of a pair. -/
theorem putS_link (s : State) : s.putS 30 true s.cg.link = (s.wrS 30 (s.cg.ia + 4)).wrS 31 s.cg.ia := by
  have hret : (s.cg.ia + 4).toNat < 2 ^ 32 := (s.cg.ia + 4).isLt
  have hlow : BitVec.ofNat 32 s.cg.link = s.cg.ia + 4 := by
    apply BitVec.eq_of_toNat_eq
    rw [BitVec.toNat_ofNat, Group.link, Nat.add_mul_mod_self_left, Nat.mod_eq_of_lt hret]
  have hhigh : BitVec.ofNat 32 (s.cg.link / 2 ^ 32) = s.cg.ia := by
    rw [Group.link, Nat.add_mul_div_left _ _ (by decide), Nat.div_eq_of_lt hret, Nat.zero_add, BitVec.ofNat_toNat,
      BitVec.setWidth_eq]
  have hput : s.putS 30 true s.cg.link =
      (s.wrS 30 (BitVec.ofNat 32 s.cg.link)).wrS 31 (BitVec.ofNat 32 (s.cg.link / 2 ^ 32)) := rfl
  rw [hput, hlow, hhigh]

theorem exec_call_run {s : State} (h : s.canRun (writeS 30 true) = true) (sw : Bool) (off : BitVec 24) :
    exec (.call sw off) s = .next ((s.putS 30 true s.cg.link).branch sw fun _ => s.cg.ia + 4 * off.signExtend 32) := by
  rw [putS_link, ← target_toInt]
  exact congrArg Host.Outcome.next (operands_run h _)

theorem putS_branch_framed (s : State) (r : Nat) (w : Bool) (v : Nat) (sw : Bool) (f : Nat → Word) :
    Framed s ((s.putS r w v).branch sw f) (writeS r w) [] :=
  Framed.of_s (putS_only s r w v) (branch_moved _ sw f) (writeS r w) [] fun _ hr => hr

theorem putS_branch_wrote (s : State) {r : Nat} {w : Bool} (hnames : hasS (names r w) = true) (v : Nat) (sw : Bool)
    (f : Nat → Word) : WroteS s ((s.putS r w v).branch sw f) (names r w) v := by
  intro k q hq hpend
  have m : Moved (s.putS r w v) ((s.putS r w v).branch sw f) := branch_moved _ sw f
  obtain ⟨hpend', hval⟩ := putS_rd s r w v hnames k q hq hpend
  exact ⟨(m.ps q).trans hpend', (m.rdS q hpend').trans hval⟩

theorem putS_branch_branchedTo (s : State) (r : Nat) (w : Bool) (v : Nat) (sw : Bool) (f : Nat → Word) :
    BranchedTo s ((s.putS r w v).branch sw f) sw f := by
  have h : SOnly s (s.putS r w v) (names r w) := putS_only s r w v
  have hflags : (s.putS r w v).cg.fflags = s.cg.fflags := by rw [h.cg]
  exact (branch_branchedTo _ sw f).of_pcs h.pcs h.width hflags

/-- Settles O14: each word ends in a branch to its lanes' places, after JMPX's last use and CALL's link. -/
theorem branchWords : Obligations.BranchWords := by
  unfold Obligations.BranchWords
  intro s sw
  dsimp only
  refine ⟨fun p neg off => ?brc, fun a hrun => ?jmpx, fun off => ?bra, fun c r off hrun => ?bru, fun off hrun => ?call,
    fun hrun => ?ret⟩
  case brc => exact ⟨_, exec_brc s sw p neg off, branch_framed s sw _, branch_branchedTo s sw _⟩
  case jmpx =>
    exact ⟨_, exec_jmpx_run hrun sw, freeV_branch_framed s _ sw _, freeV_branch_freed s _ sw _,
      freeV_branch_branchedTo s _ sw _⟩
  case bra => exact ⟨_, exec_bra s sw off, branch_framed s sw _, branch_branchedTo s sw _⟩
  case bru => exact ⟨_, exec_bru_run hrun sw c off, branch_framed s sw _, branch_branchedTo s sw _⟩
  case call =>
    exact ⟨_, exec_call_run hrun sw off, putS_branch_framed s 30 true _ sw _,
      putS_branch_wrote s (w := true) (canRun_hasS hrun) _ sw _, putS_branch_branchedTo s 30 true _ sw _⟩
  case ret => exact ⟨_, exec_ret_run hrun sw, branch_framed s sw _, branch_branchedTo s sw _⟩

end Sys2Proof.Machine
